-- ==== Sys2Proof/Word.lean ====
section
/-! DEFINITION. The words of the SV-880 (R2, R6): bytes, 32-bit words, 64-bit addresses, register codes. -/

namespace Sys2Proof

/-- A 32-bit word, or a 32-bit register (R6). -/
abbrev Word := BitVec 32

/-- One byte of memory (R2). -/
abbrev Byte := BitVec 8

/-- A 64-bit address or register pair (R6, R7). -/
abbrev DWord := BitVec 64

/-- A 7-bit register code: 0–111 name v0–v111, 112–127 name q0–q15 (R54). -/
abbrev Reg := BitVec 7

/-- A 12-bit owner tag (R391). -/
abbrev Tag := BitVec 12

end Sys2Proof
end

