-- ==== Sys2Proof/Syntax.lean ====
section
/-! DEFINITION. The steps of the SV-880: one constructor for each row of spec/opcode_table.json.
The first 197 are instruction words (R52, R53), with the chain bit C first; the others are the steps of the
machine itself, the engine commands and the mailbox commands. A PFX word (R59) is no row of the table: it stands
beside the word it modifies (Decode.lean). -/

namespace Sys2Proof

/-- The guard of a BR, M or E word (R57): NG and PG. -/
structure Guard where
  ng : Bool
  pg : BitVec 3
  deriving DecidableEq, Repr

/-- The MMP's answer to a page or migration fault (R190): it writes page-table entries, given by
physical address and value, or it declares the access refused. -/
inductive MmpAnswer where
  | install (entries : List (Nat × BitVec 64))
  | refuse
  deriving DecidableEq, Repr

/-- What one other member of a fabric group contributes to a collective (R422, R423): its rank, the
fields of its command, whether its package found it malformed or refused, whether it was lost, and its
source bytes. -/
structure PeerPart where
  rank : Nat
  op : BitVec 4
  red : BitVec 4
  len : Nat
  root : BitVec 6
  malformed : Bool
  refused : Bool
  lost : Bool
  src : List Byte
  deriving DecidableEq, Repr

/-- A physical or virtual function of the host ports (R435, R437). -/
inductive HostFn where
  | pf (portB : Bool)
  | vf (n : BitVec 6)
  deriving DecidableEq, Repr

/-- Who issued a mailbox command, and its SEQ (R437). -/
structure CmdHeader where
  fn : HostFn
  seq : BitVec 16
  deriving DecidableEq, Repr

/-- The fields of a VF descriptor (R389, R442). -/
structure VfDesc where
  spatial : Bool
  fabvis : Bool
  portB : Bool
  share : Nat
  clusters : Word
  tvec : DWord
  irq : BitVec 11
  saveArea : DWord
  deriving DecidableEq, Repr

/-- The job that a stop request names (R378, R442). -/
inductive StopJob where
  | run (graph : BitVec 6) (number : Word)
  | launch (id : BitVec 24)
  | vf (n : BitVec 6)
  deriving DecidableEq, Repr

/-- The mode of a stop request (R378). -/
inductive StopMode where
  | adaptive
  | save
  | flushRestart
  deriving DecidableEq, Repr

/-- The copy of a replicated launch that a member receives (R420): the group, the owner tag and
virtual function, the 64 bytes of the packet, the parameter block, and whether this package is the
member that system software submitted it to. -/
structure LaunchCopy where
  group : BitVec 8
  owner : Tag
  vf : BitVec 6
  packet : List Byte
  param : List Byte
  deriving DecidableEq, Repr

/-- An access that arrives from another package (R419): a read of len bytes, a write of bytes, or an
atomic of R236 with its operand bytes. -/
inductive RemoteReq where
  | read (pkg : BitVec 6) (owner : Tag) (pa : Nat) (len : Nat)
  | write (pkg : BitVec 6) (owner : Tag) (pa : Nat) (bytes : List Byte)
  | atomic (pkg : BitVec 6) (owner : Tag) (pa : Nat) (fn : BitVec 4) (operand : List Byte)
  deriving DecidableEq, Repr

/-- The steps of the SV-880, one constructor for each row of the opcode table. -/
inductive Instr where
  /-- NOP (R56). The all-zero word issues in no pipe and does nothing; the form with C = 1 links into a chain. -/
  | nop (c : Bool)
  /-- SGET (R128). Reads the special register at index A into V[D]. -/
  | sget (c : Bool) (d a : Reg)
  /-- SSET (R128). Writes V[A] to the special register at index D, subject to its access code and privilege. -/
  | sset (c : Bool) (d a : Reg)
  /-- FWAIT (R129). Holds the thread until every completion flag in the mask is zero. -/
  | fwait (c : Bool) (mask : BitVec 12)
  /-- YIELD (R130). Sets the wait of the issuing threads to zero and changes no architectural state. -/
  | yield (c : Bool)
  /-- BRK (R131). Takes a precise breakpoint trap whose epc is the brk's own packet. -/
  | brk (c : Bool) (k : BitVec 7)
  /-- TRAP (R131). Takes a precise software trap whose epc is the packet that follows. -/
  | trap (c : Bool) (k : BitVec 7)
  /-- ADD (R98). Writes the 32-bit sum of a and b. -/
  | add (c : Bool) (d a b : Reg)
  /-- SUB (R98). Writes the 32-bit difference a minus b. -/
  | sub (c : Bool) (d a b : Reg)
  /-- AND (R98). Writes the bitwise AND of a and b. -/
  | and (c : Bool) (d a b : Reg)
  /-- OR (R98). Writes the bitwise OR of a and b. -/
  | or (c : Bool) (d a b : Reg)
  /-- XOR (R98). Writes the bitwise XOR of a and b. -/
  | xor (c : Bool) (d a b : Reg)
  /-- ANDN (R98). Writes a AND NOT b. -/
  | andn (c : Bool) (d a b : Reg)
  /-- SHL (R98). Writes a shifted left by the count in b[7:0], or 0 for a count of 32 or more. -/
  | shl (c : Bool) (d a b : Reg)
  /-- SHR (R98). Writes a shifted right logically by the count in b[7:0]. -/
  | shr (c : Bool) (d a b : Reg)
  /-- SRA (R98). Writes a shifted right arithmetically by the count in b[7:0]. -/
  | sra (c : Bool) (d a b : Reg)
  /-- ROTL (R98). Writes a rotated left by the count mod 32. -/
  | rotl (c : Bool) (d a b : Reg)
  /-- MIN (R98). Writes the signed minimum of a and b. -/
  | min (c : Bool) (d a b : Reg)
  /-- MAX (R98). Writes the signed maximum of a and b. -/
  | max (c : Bool) (d a b : Reg)
  /-- MINU (R98). Writes the unsigned minimum of a and b. -/
  | minu (c : Bool) (d a b : Reg)
  /-- MAXU (R98). Writes the unsigned maximum of a and b. -/
  | maxu (c : Bool) (d a b : Reg)
  /-- ABS (R99). Writes the absolute value of signed a. -/
  | abs (c : Bool) (d a : Reg)
  /-- CLZ (R99). Writes the number of leading zero bits of a. -/
  | clz (c : Bool) (d a : Reg)
  /-- POPC (R99). Writes the number of one bits of a. -/
  | popc (c : Bool) (d a : Reg)
  /-- BREV (R99). Writes a with its bits reversed. -/
  | brev (c : Bool) (d a : Reg)
  /-- BFE (R100). Extracts bit field [hi:lo] of a, zero-extended. -/
  | bfe (c : Bool) (d a b : Reg)
  /-- BFX (R100). Extracts bit field [hi:lo] of a, sign-extended. -/
  | bfx (c : Bool) (d a b : Reg)
  /-- BFI (R100). Inserts the low bits of a into field [hi:lo] of V[D]. -/
  | bfi (c : Bool) (d a b : Reg)
  /-- PRMB (R101). Builds a word from selected, zeroed, sign-filled or bit-reversed bytes of V[D] and V[A]. -/
  | prmb (c : Bool) (d a b : Reg)
  /-- ADDI (R102). Adds a 9-bit signed immediate, or a prefix immediate. -/
  | addi (c : Bool) (d a : Reg) (imm : BitVec 9)
  /-- ANDI (R102). ANDs an immediate into V[A]. -/
  | andi (c : Bool) (d a : Reg) (imm : BitVec 9)
  /-- ORI (R102). ORs an immediate into V[A]. -/
  | ori (c : Bool) (d a : Reg) (imm : BitVec 9)
  /-- XORI (R102). XORs an immediate into V[A]. -/
  | xori (c : Bool) (d a : Reg) (imm : BitVec 9)
  /-- SHLI (R102). Shifts left by an immediate count 0-31. -/
  | shli (c : Bool) (d a : Reg) (cnt : BitVec 5)
  /-- SHRI (R102). Shifts right logically by an immediate count 0-31. -/
  | shri (c : Bool) (d a : Reg) (cnt : BitVec 5)
  /-- SRAI (R102). Shifts right arithmetically by an immediate count 0-31. -/
  | srai (c : Bool) (d a : Reg) (cnt : BitVec 5)
  /-- MUL (R103). Writes the low 32 bits of a times b. -/
  | mul (c : Bool) (d a b : Reg)
  /-- MULHI (R103). Writes the high 32 bits of the signed product. -/
  | mulhi (c : Bool) (d a b : Reg)
  /-- MULHIU (R103). Writes the high 32 bits of the unsigned product. -/
  | mulhiu (c : Bool) (d a b : Reg)
  /-- MAD (R103). Writes a times b plus V[D], low 32 bits. -/
  | mad (c : Bool) (d a b : Reg)
  /-- DIVU (R103). Writes the unsigned quotient, all ones when b is zero. -/
  | divu (c : Bool) (d a b : Reg)
  /-- REMU (R103). Writes the unsigned remainder, a when b is zero. -/
  | remu (c : Bool) (d a b : Reg)
  /-- LIL (R104). Writes the sign-extended 17-bit immediate. -/
  | lil (c : Bool) (d : Reg) (imm : BitVec 17)
  /-- LIH (R104). Writes the immediate into bits [31:15] and keeps V[D][14:0]. -/
  | lih (c : Bool) (d : Reg) (imm : BitVec 17)
  /-- ADPC (R105). Writes PC plus 4 times the immediate to a register pair. -/
  | adpc (c : Bool) (d : Reg) (imm : BitVec 17)
  /-- FADD (R107). FP32 addition with one rounding in the mode in FN[4:3]. -/
  | fadd (c : Bool) (r : BitVec 2) (d a b : Reg)
  /-- FSUB (R107). FP32 subtraction with one rounding. -/
  | fsub (c : Bool) (r : BitVec 2) (d a b : Reg)
  /-- FMUL (R107). FP32 multiplication with one rounding. -/
  | fmul (c : Bool) (r : BitVec 2) (d a b : Reg)
  /-- HADD2 (R109). Adds two FP16 lanes. -/
  | hadd2 (c : Bool) (r : BitVec 2) (d a b : Reg)
  /-- HMUL2 (R109). Multiplies two FP16 lanes. -/
  | hmul2 (c : Bool) (r : BitVec 2) (d a b : Reg)
  /-- BADD2 (R109). Adds two BF16 lanes. -/
  | badd2 (c : Bool) (r : BitVec 2) (d a b : Reg)
  /-- BMUL2 (R109). Multiplies two BF16 lanes. -/
  | bmul2 (c : Bool) (r : BitVec 2) (d a b : Reg)
  /-- FMIN (R108). Writes the smaller FP32 operand, with −0 below +0 and NaN handling. -/
  | fmin (c : Bool) (d a b : Reg)
  /-- FMAX (R108). Writes the larger FP32 operand. -/
  | fmax (c : Bool) (d a b : Reg)
  /-- FNEG (R108). Inverts bit 31 of V[A]. -/
  | fneg (c : Bool) (d a : Reg)
  /-- FABS (R108). Clears bit 31 of V[A]. -/
  | fabs (c : Bool) (d a : Reg)
  /-- FFMA (R110). Fused a times b plus V[D] in FP32. -/
  | ffma (c : Bool) (r : BitVec 2) (d a b : Reg)
  /-- FFMS (R110). Fused a times b minus V[D] in FP32. -/
  | ffms (c : Bool) (r : BitVec 2) (d a b : Reg)
  /-- HFMA2 (R110). Fused multiply-add per FP16 lane. -/
  | hfma2 (c : Bool) (r : BitVec 2) (d a b : Reg)
  /-- BFMA2 (R110). Fused multiply-add per BF16 lane. -/
  | bfma2 (c : Bool) (r : BitVec 2) (d a b : Reg)
  /-- HDOT2 (R110). FP16 two-element dot product added to FP32 V[D] with one rounding. -/
  | hdot2 (c : Bool) (r : BitVec 2) (d a b : Reg)
  /-- CVT_F32_TO_NARROW (R112). Converts FP32 to FP16, BF16, E4M3 or E5M2. -/
  | cvtF32ToNarrow (c : Bool) (f : BitVec 2) (d a : Reg) (r : BitVec 3) (sat : Bool)
  /-- CVT_NARROW_TO_F32 (R112). Converts FP16, BF16, E4M3 or E5M2 exactly to FP32. -/
  | cvtNarrowToF32 (c : Bool) (f : BitVec 2) (d a : Reg)
  /-- CVT_F32_TO_INT (R113). Converts FP32 to a signed or unsigned 32-bit integer. -/
  | cvtF32ToInt (c : Bool) (uns : Bool) (d a : Reg) (r : BitVec 3) (sat : Bool)
  /-- CVT_INT_TO_F32 (R114). Converts a signed or unsigned integer to FP32. -/
  | cvtIntToF32 (c : Bool) (uns : Bool) (d a : Reg) (r : BitVec 3)
  /-- CVT_F16_BF16 (R112). Converts between FP16 and BF16. -/
  | cvtF16Bf16 (c : Bool) (f : Bool) (d a : Reg) (r : BitVec 3) (sat : Bool)
  /-- CVT_F16_TO_FP8 (R112). Converts FP16 to E4M3 or E5M2. -/
  | cvtF16ToFp8 (c : Bool) (f : Bool) (d a : Reg) (r : BitVec 3) (sat : Bool)
  /-- FRND (R115). Rounds FP32 to an integral FP32 value. -/
  | frnd (c : Bool) (d a : Reg) (r : BitVec 3)
  /-- PACK2_F16 (R116). Packs a register pair into two FP16 lanes. -/
  | pack2F16 (c : Bool) (d a : Reg) (r : BitVec 3) (sat : Bool)
  /-- PACK2_BF16 (R116). Packs a register pair into two BF16 lanes. -/
  | pack2Bf16 (c : Bool) (d a : Reg) (r : BitVec 3) (sat : Bool)
  /-- EXP2 (R117). Writes 2 to the power of V[A] within the stated bound. -/
  | exp2 (c : Bool) (d a : Reg)
  /-- LOG2 (R117). Writes the base-2 logarithm. -/
  | log2 (c : Bool) (d a : Reg)
  /-- RCP (R117). Writes the correctly rounded reciprocal. -/
  | rcp (c : Bool) (d a : Reg)
  /-- RSQ (R117). Writes the reciprocal square root. -/
  | rsq (c : Bool) (d a : Reg)
  /-- SQRT (R117). Writes the correctly rounded square root. -/
  | sqrt (c : Bool) (d a : Reg)
  /-- SIN (R117). Writes the sine of V[A] in radians. -/
  | sin (c : Bool) (d a : Reg)
  /-- COS (R117). Writes the cosine of V[A] in radians. -/
  | cos (c : Bool) (d a : Reg)
  /-- TANH (R117). Writes the hyperbolic tangent. -/
  | tanh (c : Bool) (d a : Reg)
  /-- ICMP (R119). Compares signed integers and writes a predicate. -/
  | icmp (c : Bool) (cond : BitVec 3) (p : BitVec 3) (a b : Reg)
  /-- ICMPU (R119). Compares unsigned integers and writes a predicate. -/
  | icmpu (c : Bool) (cond : BitVec 3) (p : BitVec 3) (a b : Reg)
  /-- FCMP (R120). Compares FP32 values, or tests for unordered, and writes a predicate. -/
  | fcmp (c : Bool) (cond : BitVec 3) (p : BitVec 3) (a b : Reg)
  /-- FCLASS (R121). Writes whether the class of V[A] has its bit set in V[B]. -/
  | fclass (c : Bool) (p : BitVec 3) (a b : Reg)
  /-- PLOP (R122). Computes a truth-table function of two predicates. -/
  | plop (c : Bool) (p : BitVec 3) (tt : BitVec 4) (pa pb : BitVec 3)
  /-- SEL (R123). Selects V[A] or b by a predicate. -/
  | sel (c : Bool) (n : BitVec 3) (d a b : Reg)
  /-- MOV (R123). Copies b to V[D]. -/
  | mov (c : Bool) (d b : Reg)
  /-- MOVP (R123). Copies a register pair. -/
  | movp (c : Bool) (d b : Reg)
  /-- PMOV (R123). Sets a predicate to V[A] being nonzero. -/
  | pmov (c : Bool) (p : BitVec 3) (a : Reg)
  /-- BR (R124). Branches to packet P + DISP19. -/
  | br (c : Bool) (g : Guard) (disp : BitVec 19)
  /-- CALL (R124). Writes the link and branches to packet P + DISP19. -/
  | call (c : Bool) (g : Guard) (disp : BitVec 19)
  /-- BRX (R125). Branches to the address in a register pair. -/
  | brx (c : Bool) (g : Guard) (a : Reg)
  /-- CALLX (R125). Writes the link and branches to the address in a register pair. -/
  | callx (c : Bool) (g : Guard) (a : Reg)
  /-- RET (R125). Branches to the address in lk. -/
  | ret (c : Bool) (g : Guard)
  /-- EXIT (R127). Ends the threads whose guard is true, or takes a pending ARITH trap instead. -/
  | exit (c : Bool) (g : Guard)
  /-- MEET (R150). Sets mt to L and adds the threads to the rejoin record for L. -/
  | meet (c : Bool) (g : Guard) (disp : BitVec 19)
  /-- UNMEET (R153). Removes the threads from the record for L and clears a matching mt. -/
  | unmeet (c : Bool) (g : Guard) (disp : BitVec 19)
  /-- VOTE_AND (R158). Arrives at a collective returning whether every member predicate is true. -/
  | voteAnd (c : Bool) (p pa : BitVec 3) (m : Reg)
  /-- VOTE_OR (R158). Arrives at a collective returning whether some member predicate is true. -/
  | voteOr (c : Bool) (p pa : BitVec 3) (m : Reg)
  /-- VOTE_SAME (R158). Arrives at a collective returning whether all member predicates are equal. -/
  | voteSame (c : Bool) (p pa : BitVec 3) (m : Reg)
  /-- BALLOT (R158). Arrives at a collective returning the mask of lanes with a true predicate. -/
  | ballot (c : Bool) (d : Reg) (pa : BitVec 3) (m : Reg)
  /-- SHFL_LANE (R159). Arrives at a shuffle that reads an absolute source lane. -/
  | shflLane (c : Bool) (d a m : Reg)
  /-- SHFL_ROT (R159). Arrives at a shuffle that reads a rotated source lane. -/
  | shflRot (c : Bool) (d a m : Reg)
  /-- SHFL_OFF (R159). Arrives at a shuffle that reads a lane at a signed offset. -/
  | shflOff (c : Bool) (d a m : Reg)
  /-- SHFL_SWAP (R159). Arrives at a shuffle that reads lane t XOR c. -/
  | shflSwap (c : Bool) (d a m : Reg)
  /-- GRED_ADD (R161). Arrives at an FP32 tree sum over the member lanes. -/
  | gredAdd (c : Bool) (d a m : Reg)
  /-- GRED_MIN (R160). Arrives at a signed minimum over the member lanes. -/
  | gredMin (c : Bool) (d a m : Reg)
  /-- GRED_MAX (R160). Arrives at a signed maximum over the member lanes. -/
  | gredMax (c : Bool) (d a m : Reg)
  /-- GRED_ARGMIN (R160). Arrives at a signed minimum and the lowest lane holding it. -/
  | gredArgmin (c : Bool) (d a m : Reg)
  /-- GRED_ARGMAX (R160). Arrives at a signed maximum and the lowest lane holding it. -/
  | gredArgmax (c : Bool) (d a m : Reg)
  /-- GSCAN (R161). Arrives at an inclusive FP32 prefix sum in lane order. -/
  | gscan (c : Bool) (d a m : Reg)
  /-- MATCH (R158). Arrives at a collective returning the lanes holding an equal value. -/
  | matchEq (c : Bool) (d a m : Reg)
  /-- ELECT (R158). Arrives at a collective that elects the lowest lane of the set. -/
  | elect (c : Bool) (p : BitVec 3) (m : Reg)
  /-- REGQ (R162). Moves register quota from the issuing warp to another warp of the workgroup. -/
  | regq (c : Bool) (d a m : Reg)
  /-- PRIO (R164). Passes or takes the scheduler's issue-priority token. -/
  | prio (c : Bool) (d a m : Reg)
  /-- LD (R133). Loads from a generic address through translation. -/
  | ld (c : Bool) (g : Guard) (fs : Bool) (fn : BitVec 4) (t a : Reg)
  /-- LDL (R229). Loads from core-local memory, honouring its FE mode. -/
  | ldl (c : Bool) (g : Guard) (fs : Bool) (fn : BitVec 4) (t a : Reg)
  /-- LDL_GANG (R229). Loads through the gang window, honouring its FE mode. -/
  | ldlGang (c : Bool) (g : Guard) (fs : Bool) (fn : BitVec 4) (t a : Reg)
  /-- LDM (R229). Loads from Market memory. -/
  | ldm (c : Bool) (g : Guard) (fs : Bool) (fn : BitVec 4) (t a : Reg)
  /-- LDC (R229). Loads from the launch's parameter space. -/
  | ldc (c : Bool) (g : Guard) (fs : Bool) (fn : BitVec 4) (t a : Reg)
  /-- ST (R133). Stores to a generic address; a first write may charge an unbacked page. -/
  | st (c : Bool) (g : Guard) (fs : Bool) (fn : BitVec 4) (t a : Reg)
  /-- STL (R229). Stores to core-local memory, honouring its FE mode. -/
  | stl (c : Bool) (g : Guard) (fs : Bool) (fn : BitVec 4) (t a : Reg)
  /-- STL_GANG (R229). Stores through the gang window, honouring its FE mode. -/
  | stlGang (c : Bool) (g : Guard) (fs : Bool) (fn : BitVec 4) (t a : Reg)
  /-- STM (R229). Stores to Market memory. -/
  | stm (c : Bool) (g : Guard) (fs : Bool) (fn : BitVec 4) (t a : Reg)
  /-- ATOM (R237). Performs an atomic read-modify-write at the ordering point of generic memory. -/
  | atom (c : Bool) (g : Guard) (fs : Bool) (fn : BitVec 4) (t a : Reg)
  /-- ATOML (R237). Performs an atomic read-modify-write in core-local memory. -/
  | atoml (c : Bool) (g : Guard) (fs : Bool) (fn : BitVec 4) (t a : Reg)
  /-- ATOM_GANG (R237). Performs an atomic through the gang window. -/
  | atomGang (c : Bool) (g : Guard) (fs : Bool) (fn : BitVec 4) (t a : Reg)
  /-- ATOM_MKT (R237). Performs an atomic at a Market stall. -/
  | atomMkt (c : Bool) (g : Guard) (fs : Bool) (fn : BitVec 4) (t a : Reg)
  /-- CAS (R236). Performs a 32-bit compare-and-swap in generic, gang or Market space. -/
  | cas (c : Bool) (g : Guard) (fs : Bool) (sp : BitVec 3) (t a : Reg)
  /-- CAS_B64 (R236). Performs a 64-bit compare-and-swap. -/
  | casB64 (c : Bool) (g : Guard) (fs : Bool) (sp : BitVec 3) (t a : Reg)
  /-- MADD (R239). Adds four FP32 values into 16 bytes at a Market stall. -/
  | madd (c : Bool) (g : Guard) (fs : Bool) (t a : Reg)
  /-- MAMAX (R242). Closes an amax ring interval and pushes its maximum. -/
  | mamax (c : Bool) (g : Guard) (fs : Bool) (t a : Reg)
  /-- MRED (R240). Performs a counted reduction into a Market slot. -/
  | mred (c : Bool) (g : Guard) (fs : Bool) (t a : Reg)
  /-- MSCALE (R243). Derives a power-of-two FP8 tensor scale from an amax ring. -/
  | mscale (c : Bool) (g : Guard) (fs : Bool) (t a : Reg)
  /-- BAR (R165). Arrives at workgroup barrier k. -/
  | bar (c : Bool) (g : Guard) (k : BitVec 2)
  /-- GBAR (R165). Arrives at gang barrier k. -/
  | gbar (c : Bool) (g : Guard) (k : BitVec 2)
  /-- FENCE_ACQ (R232). Holds later accesses until earlier loads have completed. -/
  | fenceAcq (c : Bool) (g : Guard) (scope : BitVec 3)
  /-- FENCE_REL (R232). Holds later stores until earlier accesses are performed at the scope. -/
  | fenceRel (c : Bool) (g : Guard) (scope : BitVec 3)
  /-- FENCE_AR (R232). Acts as both fences and holds the thread until both conditions hold. -/
  | fenceAr (c : Bool) (g : Guard) (scope : BitVec 3)
  /-- FESET (R234). Sets the FE bits of n granules FULL in one action, as a release. -/
  | feset (c : Bool) (g : Guard) (fs : Bool) (n : BitVec 7) (a : Reg) (gang : Bool)
  /-- FECLR (R234). Sets the FE bits of n granules EMPTY in one action. -/
  | feclr (c : Bool) (g : Guard) (fs : Bool) (n : BitVec 7) (a : Reg) (gang : Bool)
  /-- FEPOLL (R235). Reads the FE bits of 32 granules in one action. -/
  | fepoll (c : Bool) (g : Guard) (fs : Bool) (d a : Reg) (gang : Bool)
  /-- TRY (R250). Opens a try region, checkpointing registers and predicates. -/
  | tryOpen (c : Bool) (g : Guard) (cnt : BitVec 5) (m : BitVec 4) (n : Reg)
  /-- COMMIT (R256). Publishes the thread's buffered stores in one step at core scope. -/
  | commit (c : Bool) (g : Guard) (scope : BitVec 3)
  /-- TABORT (R257). Aborts the thread's region with EXPLICIT and a user code. -/
  | tabort (c : Bool) (g : Guard) (k : BitVec 8)
  /-- TSTAT (R257). Writes the thread's abort code and user code. -/
  | tstat (c : Bool) (g : Guard) (d : Reg)
  /-- QBIND (R270). Binds a queue register to a port after its checks. -/
  | qbind (c : Bool) (g : Guard) (d a : Reg)
  /-- QSTAT (R271). Writes the state of a queue register. -/
  | qstat (c : Bool) (g : Guard) (d a : Reg)
  /-- QFLUSH (R272). Waits for pushes to be received, or discards pops, and optionally unbinds. -/
  | qflush (c : Bool) (g : Guard) (fs : Bool) (d a : Reg) (unbind : Bool)
  /-- LAUNCH (R280). Submits a launch packet to a launch queue. -/
  | launch (c : Bool) (g : Guard) (fs : Bool) (d a : Reg)
  /-- GSIGNAL (R284). Delivers one signal to a SIGNAL node of a graph run. -/
  | gsignal (c : Bool) (g : Guard) (fs : Bool) (d a : Reg)
  /-- MMA (R289). Arrives at a matrix product whose format word the member lanes vote on. -/
  | mma (c : Bool) (g : Guard) (fs : Bool) (m a : Reg)
  /-- MDRAIN_L (R304). Drains accumulator tiles row-major into core-local memory. -/
  | mdrainL (c : Bool) (g : Guard) (fs : Bool) (a : Reg)
  /-- MDRAIN_R (R303). Drains fragments of one tile into the group's registers. -/
  | mdrainR (c : Bool) (g : Guard) (fs : Bool) (d a : Reg)
  /-- MZERO (R305). Sets a range of accumulator tiles to +0. -/
  | mzero (c : Bool) (g : Guard) (fs : Bool) (a : Reg)
  /-- TAP (R350). Hands a range of activation rows to the Grinder. -/
  | tap (c : Bool) (g : Guard) (fs : Bool) (d a : Reg)
  /-- FGET (R351). Reads f and f' of a rule's feature on a trapped row. -/
  | fget (c : Bool) (g : Guard) (fs : Bool) (d a : Reg)
  /-- FRD (R351). Reads two elements of a trapped row. -/
  | frd (c : Bool) (g : Guard) (fs : Bool) (d a : Reg)
  /-- FWR (R351). Writes two raw elements of a trapped row. -/
  | fwr (c : Bool) (g : Guard) (fs : Bool) (d a : Reg)
  /-- FREL (R347). Disposes of a pending watch with RESUME or RETIRE. -/
  | frel (c : Bool) (g : Guard) (fs : Bool) (d a : Reg)
  /-- FDEC (R352). Computes a full dictionary decomposition of a row for audit. -/
  | fdec (c : Bool) (g : Guard) (fs : Bool) (d a : Reg)
  /-- TKRD (R329). Reads a 32-byte chunk of a ticket. -/
  | tkrd (c : Bool) (g : Guard) (fs : Bool) (d a : Reg)
  /-- TKWR (R330). Stages a ticket chunk for the next snapshot mark. -/
  | tkwr (c : Bool) (g : Guard) (fs : Bool) (d a : Reg)
  /-- TKAPPEND (R331). Reserves pending positions and key-value blocks for a ticket. -/
  | tkappend (c : Bool) (g : Guard) (fs : Bool) (d a : Reg)
  /-- TKTRUNC (R332). Sets the end of the pending range and discards blocks beyond it. -/
  | tktrunc (c : Bool) (g : Guard) (fs : Bool) (d a : Reg)
  /-- TKRET (R333). Requests retirement of a ticket with a user reason. -/
  | tkret (c : Bool) (g : Guard) (fs : Bool) (d a : Reg)
  /-- TKFORK (R334). Creates a child ticket forked at a position. -/
  | tkfork (c : Bool) (g : Guard) (fs : Bool) (d a : Reg)
  /-- KVMAP (R335). Returns the key-value slot address of a position and layer. -/
  | kvmap (c : Bool) (g : Guard) (fs : Bool) (d a : Reg)
  /-- ROT (R336). Rotates a pair of FP32 values by the ticket's position tables. -/
  | rot (c : Bool) (g : Guard) (fs : Bool) (d a : Reg)
  /-- PRES (R245). Adds units to the owner's unbacked reservation on a base die. -/
  | pres (c : Bool) (g : Guard) (fs : Bool) (d a : Reg)
  /-- PREL (R245). Returns free units of the owner's reservation. -/
  | prel (c : Bool) (g : Guard) (fs : Bool) (d a : Reg)
  /-- PDISC (R246). Drops lines of unbacked pages without writing them back. -/
  | pdisc (c : Bool) (g : Guard) (fs : Bool) (d a : Reg)
  /-- PFLUSH (R247). Writes back, and optionally invalidates, dirty cached lines of a range. -/
  | pflush (c : Bool) (g : Guard) (fs : Bool) (d a : Reg) (inv : Bool)
  /-- PMIG (R248). Moves an unbacked page to another base die's stacked cache. -/
  | pmig (c : Bool) (g : Guard) (fs : Bool) (d a : Reg)
  /-- RFE (R374). Returns a handler's thread to epc with PRIV cleared. -/
  | rfe (c : Bool) (g : Guard)
  /-- KILL_W (R375). Kills the masked threads of the issuing warp. -/
  | killW (c : Bool) (g : Guard) (a : Reg)
  /-- KILL_G (R375). Kills every thread of the issuing gang. -/
  | killG (c : Bool) (g : Guard)
  /-- KILL_L (R375). Kills every placed gang of the launch and places no more. -/
  | killL (c : Bool) (g : Guard)
  /-- TLBINV (R376). Removes cached translations of a page range. -/
  | tlbinv (c : Bool) (g : Guard) (fs : Bool) (d a : Reg)
  /-- TLBINV_OWN (R376). Removes cached translations of every page of the launch's owner. -/
  | tlbinvOwn (c : Bool) (g : Guard) (fs : Bool)
  /-- TLBINV_ALL (R376). Removes cached translations of every owner. -/
  | tlbinvAll (c : Bool) (g : Guard) (fs : Bool)
  /-- ICINV (R377). Removes instruction-cache lines that overlap a range. -/
  | icinv (c : Bool) (g : Guard) (fs : Bool) (d a : Reg)
  /-- ICINV_ALL (R377). Removes every instruction-cache line of every core. -/
  | icinvAll (c : Bool) (g : Guard) (fs : Bool)
  /-- CNTSEL (R404). Claims, programs or releases a counter slot. -/
  | cntsel (c : Bool) (g : Guard) (d a : Reg)
  /-- CNTSEL_RD (R405). Reads a counter slot or scheduler sampling state. -/
  | cntselRd (c : Bool) (g : Guard) (d a : Reg)
  /-- CNTSEL_SMP (R408). Sets the warp's access sampling ring and rate. -/
  | cntselSmp (c : Bool) (g : Guard) (d a : Reg)
  /-- CNTSEL_ROT (R406). Sets the scheduler's counter-slot rotation. -/
  | cntselRot (c : Bool) (g : Guard) (d a : Reg)
  /-- QBLK (R93). Quantises 32 values into one E2M1S block. -/
  | qblk (c : Bool) (g : Guard) (d a : Reg) (x : BitVec 2)
  /-- DQBLK (R94). Decodes one E2M1S block into 32 values. -/
  | dqblk (c : Bool) (g : Guard) (d a : Reg) (x : BitVec 2)
  /-- QFP8 (R95). Converts four scaled FP32 values to FP8 with saturation. -/
  | qfp8 (c : Bool) (g : Guard) (d a : Reg) (x : BitVec 2)
  /-- ADD64 (R106). Adds two 64-bit pairs. -/
  | add64 (c : Bool) (d a b : Reg)
  /-- SUB64 (R106). Subtracts two 64-bit pairs. -/
  | sub64 (c : Bool) (d a b : Reg)
  /-- SHL64 (R106). Shifts a 64-bit pair left. -/
  | shl64 (c : Bool) (d a b : Reg)
  /-- SHR64 (R106). Shifts a 64-bit pair right logically. -/
  | shr64 (c : Bool) (d a b : Reg)
  /-- MADW (R106). Adds a widening 32 by 32 product to a 64-bit pair. -/
  | madw (c : Bool) (d a b : Reg)
  /-- SEXT64 (R106). Sign-extends V[A] into a 64-bit pair. -/
  | sext64 (c : Bool) (d a : Reg)
  /-- DSEL (R307). Chooses a token index from a logits vector, greedily or by sampling. -/
  | dsel (c : Bool) (g : Guard) (fs : Bool) (d a : Reg)
  /-- RNG (R310). Produces a counter-based 64-bit value keyed by the slot ticket's seed. -/
  | rng (c : Bool) (g : Guard) (fs : Bool) (d a : Reg)
  /-- RNGK (R310). Produces a counter-based 64-bit value from an explicit key. -/
  | rngk (c : Bool) (g : Guard) (d a : Reg)
  /-- SCHEDULER_ISSUE (R145). Each ac, each scheduler forms candidate groups and issues at most one by the order of R146. -/
  | schedulerIssue (sched : Nat)
  /-- LONG_LATENCY_COMPLETE (R25). A long-latency operation completes, writes its result and counts its flag down. -/
  | longLatencyComplete (op : Nat)
  /-- COLLECTIVE_PERFORM (R156). A collective is performed once every lane of its mask has arrived, been excluded or exited. -/
  | collectivePerform (warp : Nat)
  /-- BARRIER_COMPLETE (R165). A bar or gbar instance completes when every live thread has arrived. -/
  | barrierComplete (wg : Nat) (gang : Bool) (k : BitVec 2)
  /-- FE_WAIT_PERFORM (R174). A waiting core-local access is performed once every touched granule meets its FE condition. -/
  | feWaitPerform (op : Nat)
  /-- RDUP_INVALIDATE_ACK (R179). A write to a duplicated line is performed once every duplicate's invalidate is acknowledged. -/
  | rdupInvalidateAck (op : Nat)
  /-- ENGINE_RECALL_RELEASE (R210). An access held by a recall is performed after the engine finishes writing the line. -/
  | engineRecallRelease (op : Nat)
  /-- TRY_ROLLBACK (R255). An aborted thread's checkpoint is restored and it resumes at L once its operations have completed. -/
  | tryRollback (warp lane : Nat)
  /-- COMMAND_RECEIVE (R273). An engine receives a pushed command entry and counts the pusher's flag up. -/
  | commandReceive (warp : Nat) (q : BitVec 4)
  /-- RESULT_POST (R274). An engine completes a command, counts its flag down and posts a result or fault. -/
  | resultPost (cmd : Nat)
  /-- PEER_DELIVER (R263). A pushed entry becomes poppable at the peer INBOX. -/
  | peerDeliver (warp : Nat) (q : BitVec 4)
  /-- AWNING_REFILL (R266). The Awning refills a hardware queue from its spill ring in order. -/
  | awningRefill (warp : Nat) (q : BitVec 4)
  /-- COPY (R276). The copy engine checks, pins and copies rows, setting FE bits if asked. -/
  | copy (cmd : Nat)
  /-- COPY_ZERO (R275). The copy engine writes zero rows to the destination. -/
  | copyZero (cmd : Nat)
  /-- ALLREDUCE (R424). A fabric collective reduces every member's source into each member's destination. -/
  | allreduce (cmd : Nat) (peers : List PeerPart)
  /-- BROADCAST (R424). A fabric collective copies the root's source to every member. -/
  | broadcast (cmd : Nat) (peers : List PeerPart)
  /-- ALLGATHER (R424). A fabric collective gathers every member's source by rank. -/
  | allgather (cmd : Nat) (peers : List PeerPart)
  /-- REDUCESCATTER (R424). A fabric collective reduces and scatters one slice to each rank. -/
  | reducescatter (cmd : Nat) (peers : List PeerPart)
  /-- FABRIC_BARRIER (R426). A fabric collective that writes nothing and orders members domain-wide. -/
  | fabricBarrier (cmd : Nat) (peers : List PeerPart)
  /-- MATRIX_MMA (R306). A MATRIX command performs a product without a vote. -/
  | matrixMma (cmd : Nat)
  /-- MATRIX_DRAIN (R306). A MATRIX command drains tiles to core-local memory. -/
  | matrixDrain (cmd : Nat)
  /-- MATRIX_ZERO (R306). A MATRIX command zeroes tiles. -/
  | matrixZero (cmd : Nat)
  /-- DRAW_DSEL (R306). A DRAW command performs a dsel from descriptor lanes. -/
  | drawDsel (cmd : Nat)
  /-- FEATURE_TAP (R350). A FEATURE command performs a tap operation. -/
  | featureTap (cmd : Nat)
  /-- OUTBOX_WRITE (R445). An MBOUT push is written to the outbox ring when it has room. -/
  | outboxWrite (warp : Nat) (q : BitVec 4)
  /-- ROW_GROUP_TAKE (R297). The TFU takes a row group of A once none of its gates is CLOSED. -/
  | rowGroupTake (mop : Nat) (i : Nat)
  /-- MATRIX_OP_COMPLETE (R299). A matrix operation writes its outcome and completes with a STATUS. -/
  | matrixOpComplete (mop : Nat)
  /-- GANG_PLACE (R281). The graph walker places the next fitting gang of the launches in order. -/
  | gangPlace
  /-- LAUNCH_STARVATION (R281). A launch passed over for 4,096 fc blocks placement of its priority and lower. -/
  | launchStarvation (launch : Nat)
  /-- GRAPH_NODE_START (R283). A graph node starts once it has received NPRED signals and acts by its kind. -/
  | graphNodeStart (graph : BitVec 6) (node : Nat)
  /-- BARISTA_STEP (R316). The Barista begins a model step: mark, retire, take in, write the board and start the run. -/
  | baristaStep (inst : BitVec 4)
  /-- STEP_DONE (R322). At the STEP node the Barista commits or discards appends and applies stop conditions. -/
  | stepDone (inst : BitVec 4)
  /-- GRINDER_ROW (R343). The Grinder computes features and applies watch, clamp and add rules to a ruled row. -/
  | grinderRow (tap : Nat) (row : Nat)
  /-- WATCH_HANDLER_END (R346). A handler launch that completes without frel retires the watch. -/
  | watchHandlerEnd (wid : Word)
  /-- TRAP_DELIVERY (R362). A trap decided after issue is delivered at the thread's next delivery point. -/
  | trapDelivery (warp lane : Nat)
  /-- TIMER_TICK (R407). Every TPER × 1,024 ac the scheduler makes TIMER pending in the chosen warp. -/
  | timerTick (sched : Nat)
  /-- COUNTER_ADVANCE (R398). Each ac every enabled counter slot advances its TE, TR and value. -/
  | counterAdvance
  /-- COUNTER_ROTATE (R397). Every RPER × 1,024 ac the active slot index advances. -/
  | counterRotate (sched : Nat)
  /-- GANG_HALT (R380). A gang's turn in a stop comes and it is drained, flushed or saved by its mode. -/
  | gangHalt (gang : Nat)
  /-- DRAIN_TIMEOUT (R380). A draining gang not retired after 2 × DRAINMAX fc is halted by SAVE. -/
  | drainTimeout (gang : Nat)
  /-- REVOCATION_DRAIN (R394). Once in-flight accesses of a revoked tag finish, its gangs are killed, lines cleaned and the slot emptied. -/
  | revocationDrain (tag : Tag)
  /-- POWER_ON (R431). At power-on or reset the root controller runs the bring-up phases in order. -/
  | powerOn
  /-- REVOLUTION_CLOSE (R429). Rank 0 decides the close of a ring revolution, letting STEP nodes complete. -/
  | revolutionClose (group : BitVec 8)
  /-- REVOLUTION_ABANDON (R430). A deadline, failed collective or departure abandons the revolution on every member. -/
  | revolutionAbandon (group : BitVec 8)
  /-- START_BARRIER (R420). When every member has accepted a replicated launch, the group's generation advances and placement may begin, or every copy is dropped. -/
  | startBarrier (group : BitVec 8) (statuses : List (BitVec 4))
  /-- THERMAL_TRIP (R447). At 115 °C the package stops placing gangs, posts THERMAL and enters reset. -/
  | thermalTrip
  /-- SEMAPHORE_READ (R436). A read of a free semaphore acquires it for the reading port. -/
  | semaphoreRead (portB : Bool) (i : BitVec 4)
  /-- SEMAPHORE_WRITE (R436). A write by the holding port releases the semaphore. -/
  | semaphoreWrite (portB : Bool) (i : BitVec 4)
  /-- DOORBELL (R437). A write of the command ring's PROD makes the mailbox engine apply new commands. -/
  | doorbell (fn : HostFn) (prod : BitVec 16)
  /-- CONSUMER_INDEX_WRITE (R438). A host write of CONS frees ring room, releasing held completions and buffered events. -/
  | consumerIndexWrite (fn : HostFn) (ring : BitVec 2) (cons : BitVec 16)
  /-- REGISTER_WRITE (R437). A write to a BAR 0 register without behaviour of its own. -/
  | registerWrite (fn : HostFn) (offset : BitVec 13) (value : Word)
  /-- STATUS (R440). Returns the status word and the temperature. -/
  | status (h : CmdHeader)
  /-- FWLOAD (R442). Stages a firmware image for verification. -/
  | fwload (h : CmdHeader) (addr : DWord) (len : Nat) (mmp : Bool)
  /-- CONFIG (R446). Sets HOSTMODE, package id, domain size and the TREE range. -/
  | config (h : CmdHeader) (mailbox : Bool) (pkg : BitVec 6) (domsz : BitVec 7) (treeBase : DWord) (treeSize : Nat)
  /-- VFCFG (R389). Writes or removes a virtual function descriptor. -/
  | vfcfg (h : CmdHeader) (vf : BitVec 6) (remove : Bool) (v : VfDesc)
  /-- OWNER (R391). Writes an owner-table entry. -/
  | owner (h : CmdHeader) (tag : Tag) (vf : BitVec 6) (ptbase : DWord) (ucap : List Nat)
  /-- KEYLOAD (R394). Loads a key into an EMPTY slot, making it LOADED. -/
  | keyload (h : CmdHeader) (tag : Tag) (addr : DWord) (len : Nat)
  /-- KEYREVOKE (R394). Begins revocation of a LOADED key slot, with or without DISCARD. -/
  | keyrevoke (h : CmdHeader) (tag : Tag) (discard : Bool)
  /-- INSTCFG (R311). Configures a model instance. -/
  | instcfg (h : CmdHeader) (inst : BitVec 4) (addr : DWord)
  /-- INSTCFG_REMOVE (R312). Removes a live instance, ending watches, retiring tickets and freeing storage. -/
  | instcfgRemove (h : CmdHeader) (inst : BitVec 4) (immediate : Bool)
  /-- TKUPD (R317). Stages a ticket image for the next snapshot mark. -/
  | tkupd (h : CmdHeader) (handle : Word) (addr : DWord)
  /-- GRAPH_INSTALL (R282). Installs a resident task graph. -/
  | graphInstall (h : CmdHeader) (graph : BitVec 6) (owner : Tag) (addr : DWord) (nodes succs : Nat)
  /-- GRAPH_START (R283). Starts a run of a resident graph with the next run number. -/
  | graphStart (h : CmdHeader) (graph : BitVec 6) (owner : Tag)
  /-- GRAPH_REMOVE (R442). Removes a resident graph. -/
  | graphRemove (h : CmdHeader) (graph : BitVec 6) (owner : Tag)
  /-- MAILBOX_LAUNCH (R420). Queues a launch packet, or a replicated launch across a fabric group. -/
  | mailboxLaunch (h : CmdHeader) (owner : Tag) (replicated : Bool) (group : BitVec 8) (addr : DWord)
  /-- STOP (R378). Requests that a job's gangs halt in producer order by a mode. -/
  | stop (h : CmdHeader) (job : StopJob) (mode : StopMode) (drainMax : Nat)
  /-- MEMWR (R218). Writes host data into device memory under MAILBOX. -/
  | memwr (h : CmdHeader) (owner : Tag) (va : DWord) (len : Nat) (host : DWord)
  /-- MEMRD (R218). Reads device memory into host memory under MAILBOX. -/
  | memrd (h : CmdHeader) (owner : Tag) (va : DWord) (len : Nat) (host : DWord)
  /-- POST (R445). Posts one entry to a warp's MBIN binding. -/
  | post (h : CmdHeader) (launch : BitVec 24) (gang : Nat) (wgid : BitVec 3) (warp : BitVec 5) (q : BitVec 4) (mask : Word) (addr : DWord)
  /-- FABRIC_JOIN (R418). Trains the Ferhar links and forms the load-store domain. -/
  | fabricJoin (h : CmdHeader)
  /-- FABRIC_GROUP (R422). Forms a fabric group from its descriptor. -/
  | fabricGroup (h : CmdHeader) (group : BitVec 8) (addr : DWord)
  /-- FABRIC_UNGROUP (R442). Removes a fabric group. -/
  | fabricUngroup (h : CmdHeader) (group : BitVec 8)
  /-- CONFMODE (R395). Requests entry into or exit from confidential mode at the next reset. -/
  | confmode (h : CmdHeader) (enter : Bool)
  /-- RESET (R434). Resets the package, optionally with scrub. -/
  | reset (h : CmdHeader) (scrub : Bool)
  /-- MKTOWN (R448). Assigns an owner tag or UNASSIGNED to a range of Market granules. -/
  | mktown (h : CmdHeader) (tag : Tag) (unassign : Bool) (addr : Word) (count : Nat)
  /-- FLIT_RETRY (R418). A flit that fails authentication is retried and counts FAB_RETRY. -/
  | flitRetry (link : Nat)
  /-- MEMBER_LEAVE (R421). A member leaves the domain, ending its copies and failing its group's collectives. -/
  | memberLeave (pkg : BitVec 6)
  /-- LAUNCH_COPY_RECEIPT (R420). A member of a fabric group receives the copy of a replicated launch and checks and queues it. -/
  | launchCopyReceipt (r : LaunchCopy)
  /-- REMOTE_ACCESS (R419). An access from another package arrives over the Ferhar fabric and is served at the home slice of this package. -/
  | remoteAccess (r : RemoteReq)
  /-- PAGEX_HANDOVER (R217). Under PAGEX the MMP hands a DEV page to the host: it drains device accesses, writes back and invalidates, then sets HX. -/
  | pagexHandover (owner : Tag) (va : DWord)
  /-- PAGEX_RETURN (R217). The host returns a PAGEX page, and the MMP performs an acquire at sys scope, clears HX and republishes the translation. -/
  | pagexReturn (owner : Tag) (va : DWord) (writes : List (Nat × Byte))
  /-- DEV_FRAME_MIGRATION (R219). The MMP moves a DEV page to another frame, holding accesses during the move. -/
  | devFrameMigration (owner : Tag) (va : DWord) (frame : Nat)
  /-- HDM_DECODER_COMMIT (R183). System software commits the HDM decoders of a CXL port and its device, which sets the capacity attached to the port. -/
  | hdmDecoderCommit (port : BitVec 3) (size : Nat)
  /-- MMP_FAULT_SERVICE (R190). The MMP installs an entry for a page or migration fault, or refuses the access. -/
  | mmpFaultService (owner : Tag) (va : DWord) (ans : MmpAnswer)
  /-- LATE_FRAME (R196). The MMP converts an unbacked page to a zero-filled DEV frame and performs the held writes. -/
  | lateFrame (owner : Tag) (va : DWord) (frame : Option Nat)
  /-- PRI_RESPONSE (R185). The host's answer to a Page Request Interface request resumes or refuses the access. -/
  | priResponse (owner : Tag) (va : DWord) (granted : Bool)
  /-- ATS_INVALIDATION (R185). An ATS invalidation from the host completes after every access using the translation. -/
  | atsInvalidation (iova : DWord) (pages : Nat)
  /-- WORLD_SWITCH (R384). A time-sliced VF is switched out or in, saving or restoring its gangs and counters. -/
  | worldSwitch (out into : Option (BitVec 6))
  /-- GOVERNOR_STEP (R447). Every 100 µs the governor lowers or raises the arithmetic clock by 125 MHz. -/
  | governorStep (milliwatt : Nat)
  deriving DecidableEq, Repr

end Sys2Proof
end

