-- ==== Sys2Proof/WellFormed.lean ====
section
/-! DEFINITION. The well-formed instruction words: the limits on fields and register positions that spec/03
(R54, R55, R64–R73) and the operand tables of the instruction chapters state, in the three kinds that R75
reports: FIELD, REGISTER and SPECIAL. -/

namespace Sys2Proof

/-- A register code that is not a queue code (R54). -/
def closedReg (r : Reg) : Bool := r.toNat < 112

/-- A pair position (R7): an even code below 112. -/
def pairReg (r : Reg) : Bool := r.toNat % 2 == 0 && r.toNat < 112

/-- A position limited to multiples of m, at most top (R54). -/
def multReg (m top : Nat) (r : Reg) : Bool := r.toNat % m == 0 && r.toNat ≤ top

/-- A position with an upper bound (R54). -/
def atMost (top : Nat) (r : Reg) : Bool := r.toNat ≤ top

/-- A member-mask position (R69): a register, or 127 for live. -/
def maskReg (r : Reg) : Bool := r.toNat < 112 || r.toNat == 127

/-- The special-register indices that R12 assigns. -/
def assignedIndex (n : Nat) : Bool :=
  n ≤ 0x0D || (0x10 ≤ n && n ≤ 0x1D) || (0x30 ≤ n && n ≤ 0x35) || (0x40 ≤ n && n ≤ 0x44) ||
  n == 0x50 || (0x52 ≤ n && n ≤ 0x57) || (0x60 ≤ n && n ≤ 0x63)

/-- Minor codes that stand in a field of the constructor (R66, R70, R71). -/
def Instr.minorOk : Instr → Bool
  | .icmp _ q _ _ _ | .icmpu _ q _ _ _ => q.toNat ≤ 5
  | .fcmp _ q _ _ _ => q.toNat ≤ 6
  | .ld _ _ _ fn _ _ | .ldl _ _ _ fn _ _ | .ldlGang _ _ _ fn _ _ | .ldm _ _ _ fn _ _
  | .ldc _ _ _ fn _ _ => fn.toNat ≤ 6
  | .st _ _ _ fn _ _ | .stl _ _ _ fn _ _ | .stlGang _ _ _ fn _ _ | .stm _ _ _ fn _ _ => fn.toNat ≤ 4
  | .atom _ _ _ fn _ _ | .atoml _ _ _ fn _ _ | .atomGang _ _ _ fn _ _
  | .atomMkt _ _ _ fn _ _ => fn.toNat ≤ 10
  | _ => true

/-- Limits on fields that are no register positions: REASON FIELD (R55, R67, R71, R92, R231, R249). -/
def Instr.fieldOk : Instr → Bool
  | .cvtF32ToNarrow _ _ _ _ r _ | .cvtF16Bf16 _ _ _ _ r _ | .cvtF16ToFp8 _ _ _ _ r _ => r.toNat ≤ 4
  | .cvtF32ToInt _ _ _ _ r _ | .cvtIntToF32 _ _ _ _ r | .frnd _ _ _ r
  | .pack2F16 _ _ _ r _ | .pack2Bf16 _ _ _ r _ => r.toNat ≤ 3
  | .cas _ _ _ sp _ _ | .casB64 _ _ _ sp _ _ => sp.toNat ≤ 3
  | .fenceAcq _ _ s | .fenceRel _ _ s | .fenceAr _ _ s | .commit _ _ s => s.toNat ≤ 5
  | .qblk _ _ _ _ x | .dqblk _ _ _ _ x => x.toNat ≤ 2
  | _ => true

/-- The position of T in a load, by FN (R70). -/
def loadReg (fn : BitVec 4) (t : Reg) : Bool :=
  match fn.toNat with
  | 0 => true
  | 5 => pairReg t
  | 6 => multReg 4 108 t
  | _ => closedReg t

/-- The position of T in a store, by FN (R70). -/
def storeReg (fn : BitVec 4) (t : Reg) : Bool :=
  match fn.toNat with
  | 0 => true
  | 3 => pairReg t
  | 4 => multReg 4 108 t
  | _ => closedReg t

/-- The position of T in an atomic (R71). -/
def atomReg (fn : BitVec 4) (t : Reg) : Bool := if fn.toNat = 10 then pairReg t else closedReg t

/-- The last register of the range that a 32-bit or packed block operand takes (R92). -/
def blockEnd (x : BitVec 2) (r : Reg) : Nat := r.toNat + (if x.toNat = 0 then 31 else 15)

/-- Limits on register positions: REASON REGISTER (R7, R54 and the operand table of each chapter). -/
def Instr.regOk : Instr → Bool
  | .sget _ d _ => closedReg d
  | .adpc _ d _ => pairReg d
  | .cvtF32ToNarrow _ _ _ a r _ | .cvtF16Bf16 _ _ _ a r _ | .cvtF16ToFp8 _ _ _ a r _ =>
    r.toNat != 4 || pairReg a
  | .pack2F16 _ _ a _ _ | .pack2Bf16 _ _ a _ _ => pairReg a
  | .movp _ d b => pairReg d && pairReg b
  | .brx _ _ a | .callx _ _ a => pairReg a
  | .voteAnd _ _ _ m | .voteOr _ _ _ m | .voteSame _ _ _ m | .elect _ _ m => maskReg m
  | .ballot _ d _ m => closedReg d && maskReg m
  | .shflLane _ d a m | .shflRot _ d a m | .shflOff _ d a m | .shflSwap _ d a m
  | .gredAdd _ d a m | .gredMin _ d a m | .gredMax _ d a m | .gscan _ d a m | .matchEq _ d a m
  | .regq _ d a m | .prio _ d a m => closedReg d && closedReg a && maskReg m
  | .gredArgmin _ d a m | .gredArgmax _ d a m => pairReg d && closedReg a && maskReg m
  | .ld _ _ _ fn t a | .ldl _ _ _ fn t a | .ldlGang _ _ _ fn t a | .ldm _ _ _ fn t a
  | .ldc _ _ _ fn t a => loadReg fn t && pairReg a
  | .st _ _ _ fn t a | .stl _ _ _ fn t a | .stlGang _ _ _ fn t a
  | .stm _ _ _ fn t a => storeReg fn t && pairReg a
  | .atom _ _ _ fn t a | .atoml _ _ _ fn t a | .atomGang _ _ _ fn t a
  | .atomMkt _ _ _ fn t a => atomReg fn t && pairReg a
  | .cas _ _ _ _ t a | .mred _ _ _ t a => pairReg t && pairReg a
  | .casB64 _ _ _ _ t a | .madd _ _ _ t a => multReg 4 108 t && pairReg a
  | .mamax _ _ _ t a | .mscale _ _ _ t a => closedReg t && pairReg a
  | .feset _ _ _ _ a _ | .feclr _ _ _ _ a _ => pairReg a
  | .fepoll _ _ _ d a _ => closedReg d && pairReg a
  | .tryOpen _ _ cnt _ n => closedReg n && n.toNat + cnt.toNat ≤ 111
  | .tstat _ _ d => closedReg d
  | .qbind _ _ d a => closedReg d && multReg 4 108 a
  | .qstat _ _ d a | .qflush _ _ _ d a _ => closedReg d && !closedReg a
  | .launch _ _ _ d a | .gsignal _ _ _ d a => closedReg d && pairReg a
  | .mma _ _ _ m a => maskReg m && closedReg a
  | .mdrainL _ _ _ a => multReg 4 108 a
  | .mdrainR _ _ _ d a => multReg 8 104 d && closedReg a
  | .mzero _ _ _ a => closedReg a
  | .tap _ _ _ d a | .fdec _ _ _ d a => closedReg d && multReg 8 104 a
  | .fget _ _ _ d a | .frd _ _ _ d a => pairReg d && atMost 110 a
  | .fwr _ _ _ d a => closedReg d && atMost 109 a
  | .frel _ _ _ d a => closedReg d && atMost 110 a
  | .tkrd _ _ _ d a => multReg 8 104 d && closedReg a
  | .tkwr _ _ _ d a => closedReg d && atMost 103 a
  | .tkappend _ _ _ d a | .kvmap _ _ _ d a => pairReg d && atMost 109 a
  | .tktrunc _ _ _ d a | .tkfork _ _ _ d a => closedReg d && atMost 109 a
  | .tkret _ _ _ d a => closedReg d && atMost 110 a
  | .rot _ _ _ d a => pairReg d && multReg 4 108 a
  | .pres _ _ _ d a | .prel _ _ _ d a => closedReg d && closedReg a
  | .pdisc _ _ _ d a | .pflush _ _ _ d a _ | .pmig _ _ _ d a | .tlbinv _ _ _ d a
  | .icinv _ _ _ d a => closedReg d && pairReg a
  | .killW _ _ a => closedReg a
  | .cntsel _ _ d a | .cntselRot _ _ d a => closedReg d && closedReg a
  | .cntselRd _ _ d a => pairReg d && closedReg a
  | .cntselSmp _ _ d a => closedReg d && multReg 4 108 a
  | .qblk _ _ d a x => d.toNat + 4 ≤ 111 && blockEnd x a ≤ 111
  | .dqblk _ _ d a x => blockEnd x d ≤ 111 && a.toNat + 4 ≤ 111
  | .qfp8 _ _ d a x => closedReg d && a.toNat + (if x.getLsbD 1 then 5 else 4) ≤ 111
  | .add64 _ d a b | .sub64 _ d a b => pairReg d && pairReg a && pairReg b
  | .shl64 _ d a _ | .shr64 _ d a _ => pairReg d && pairReg a
  | .madw _ d _ _ => pairReg d
  | .sext64 _ d _ => pairReg d
  | .dsel _ _ _ d a => pairReg d && multReg 8 104 a
  | .rng _ _ _ d a => pairReg d && pairReg a
  | .rngk _ _ d a => pairReg d && multReg 4 108 a
  | _ => true

/-- The index of sget and sset is assigned: REASON SPECIAL otherwise (R12). -/
def Instr.specialOk : Instr → Bool
  | .sget _ _ a => assignedIndex a.toNat
  | .sset _ d _ => assignedIndex d.toNat
  | _ => true

/-- Every check that one word must pass by itself (R54, R55, R64–R73). -/
def Instr.wellFormed (i : Instr) : Bool := i.minorOk && i.fieldOk && i.regOk && i.specialOk

end Sys2Proof
end

