-- ==== Sys2Proof/Decode.lean ====
section
/-! DEFINITION. The decoder of one instruction word (R52–R58, R64–R73), total, refusing by the REASON of R75,
and after it the encoder, both written from the formats of R53 and the minor codes of spec/03. The conditions on a
whole line (header, chains, prefix pairs) stand in Machine/Fetch.lean. -/

namespace Sys2Proof

/-- The REASON codes of an illegal encoding (R75). -/
inductive Reason where
  | header | chain | pfx | major | minor | field | register | special | target
  deriving DecidableEq, Repr

/-- The code that tval carries (R75). -/
def Reason.code : Reason → Nat
  | .header => 1 | .chain => 2 | .pfx => 3 | .major => 4 | .minor => 5
  | .field => 6 | .register => 7 | .special => 8 | .target => 9

/-! ## Fields of the six formats (R53) -/

/-- The chain bit C. -/
def bitC (w : Word) : Bool := w.getLsbD 31
/-- The major opcode. -/
def fMaj (w : Word) : BitVec 5 := w.extractLsb' 26 5
/-- FN of an RRR word. -/
def rrrFn (w : Word) : BitVec 5 := w.extractLsb' 21 5
/-- D of an RRR word. -/
def rrrD (w : Word) : Reg := w.extractLsb' 14 7
/-- A of an RRR word. -/
def rrrA (w : Word) : Reg := w.extractLsb' 7 7
/-- B of an RRR word. -/
def rrrB (w : Word) : Reg := w.extractLsb' 0 7
/-- D of an RRI or I17 word. -/
def immD (w : Word) : Reg := w.extractLsb' 19 7
/-- A of an RRI word. -/
def rriA (w : Word) : Reg := w.extractLsb' 12 7
/-- IMM12[11:9] of an RRI word. -/
def rriOp (w : Word) : BitVec 3 := w.extractLsb' 9 3
/-- IMM12[8:0] of an RRI word. -/
def rriImm (w : Word) : BitVec 9 := w.extractLsb' 0 9
/-- FN of an I17 word. -/
def i17Fn (w : Word) : BitVec 2 := w.extractLsb' 17 2
/-- IMM17. -/
def i17Imm (w : Word) : BitVec 17 := w.extractLsb' 0 17
/-- NG and PG of a BR, M or E word (R57). -/
def fGuard (w : Word) : Guard := ⟨w.getLsbD 25, w.extractLsb' 22 3⟩
/-- FN of a BR word. -/
def brFn (w : Word) : BitVec 3 := w.extractLsb' 19 3
/-- DISP19. -/
def brDisp (w : Word) : BitVec 19 := w.extractLsb' 0 19
/-- FS of an M or E word. -/
def fFs (w : Word) : Bool := w.getLsbD 21
/-- FN of an M word. -/
def mFn (w : Word) : BitVec 4 := w.extractLsb' 17 4
/-- T of an M word. -/
def mT (w : Word) : Reg := w.extractLsb' 10 7
/-- A of an M word. -/
def mA (w : Word) : Reg := w.extractLsb' 3 7
/-- SP of an M word. -/
def mSp (w : Word) : BitVec 3 := w.extractLsb' 0 3
/-- FN of an E word. -/
def eFn (w : Word) : BitVec 5 := w.extractLsb' 16 5
/-- D of an E word. -/
def eD (w : Word) : Reg := w.extractLsb' 9 7
/-- A of an E word. -/
def eA (w : Word) : Reg := w.extractLsb' 2 7
/-- X of an E word. -/
def eX (w : Word) : BitVec 2 := w.extractLsb' 0 2

/-- The predicate that a predicate position names (R54). -/
def predOf (r : Reg) : BitVec 3 := r.extractLsb' 0 3
/-- The upper bits of a predicate position are zero (R54). -/
def predZ (r : Reg) : Bool := r.extractLsb' 3 4 == 0

/-- What the major and the minor code of a word give: its instruction, whether its unused fields are zero (R55), and
whether the upper bits of its predicate positions are (R54). -/
structure Parse where
  ins : Instr
  fields : Bool
  preds : Bool
  deriving DecidableEq, Repr

/-- A word parsed; MAJOR or MINOR where its codes name no instruction, and FIELD where its X names none. -/
abbrev Parsed := Except Reason Parse

/-- A word that uses every field, with the check of its predicate positions. -/
def whole (preds : Bool) (i : Instr) : Parsed := .ok { ins := i, fields := true, preds := preds }

/-- A word whose unused fields must be zero (R55), with the check of its predicate positions. -/
def fieldsZero (z : Bool) (i : Instr) (preds : Bool := true) : Parsed := .ok { ins := i, fields := z, preds := preds }

/-- A code that the minor-code tables do not list. -/
def noMinor : Parsed := .error .minor

/-- MISC (R56, R64). -/
def parseMisc (w : Word) : Parsed :=
  let c := bitC w; let d := rrrD w; let a := rrrA w; let b := rrrB w
  match (rrrFn w).toNat with
  | 0 => fieldsZero (d == 0 && a == 0 && b == 0) (.nop c)
  | 1 => fieldsZero (b == 0) (.sget c d a)
  | 2 => fieldsZero (b == 0) (.sset c d a)
  | 3 => fieldsZero (d == 0 && a.extractLsb' 5 2 == 0) (.fwait c (a.extractLsb' 0 5 ++ b))
  | 4 => fieldsZero (d == 0 && a == 0 && b == 0) (.yield c)
  | 5 => fieldsZero (d == 0 && a == 0) (.brk c b)
  | 6 => fieldsZero (d == 0 && a == 0) (.trap c b)
  | _ => noMinor

/-- IALU (R64). -/
def parseIalu (w : Word) : Parsed :=
  let c := bitC w; let d := rrrD w; let a := rrrA w; let b := rrrB w
  match (rrrFn w).toNat with
  | 0 => whole true (.add c d a b)
  | 1 => whole true (.sub c d a b)
  | 2 => whole true (.and c d a b)
  | 3 => whole true (.or c d a b)
  | 4 => whole true (.xor c d a b)
  | 5 => whole true (.andn c d a b)
  | 6 => whole true (.shl c d a b)
  | 7 => whole true (.shr c d a b)
  | 8 => whole true (.sra c d a b)
  | 9 => whole true (.rotl c d a b)
  | 10 => whole true (.min c d a b)
  | 11 => whole true (.max c d a b)
  | 12 => whole true (.minu c d a b)
  | 13 => whole true (.maxu c d a b)
  | 14 => fieldsZero (b == 0) (.abs c d a)
  | 15 => fieldsZero (b == 0) (.clz c d a)
  | 16 => fieldsZero (b == 0) (.popc c d a)
  | 17 => fieldsZero (b == 0) (.brev c d a)
  | 18 => whole true (.bfe c d a b)
  | 19 => whole true (.bfx c d a b)
  | 20 => whole true (.bfi c d a b)
  | 21 => whole true (.prmb c d a b)
  | _ => noMinor

/-- IALUI (R64, R102). -/
def parseIalui (w : Word) : Parsed :=
  let c := bitC w; let d := immD w; let a := rriA w; let i := rriImm w
  match (rriOp w).toNat with
  | 0 => whole true (.addi c d a i)
  | 1 => whole true (.andi c d a i)
  | 2 => whole true (.ori c d a i)
  | 3 => whole true (.xori c d a i)
  | 4 => fieldsZero (i.extractLsb' 5 4 == 0) (.shli c d a (i.extractLsb' 0 5))
  | 5 => fieldsZero (i.extractLsb' 5 4 == 0) (.shri c d a (i.extractLsb' 0 5))
  | 6 => fieldsZero (i.extractLsb' 5 4 == 0) (.srai c d a (i.extractLsb' 0 5))
  | _ => noMinor

/-- IMUL (R64). -/
def parseImul (w : Word) : Parsed :=
  let c := bitC w; let d := rrrD w; let a := rrrA w; let b := rrrB w
  match (rrrFn w).toNat with
  | 0 => whole true (.mul c d a b)
  | 1 => whole true (.mulhi c d a b)
  | 2 => whole true (.mulhiu c d a b)
  | 3 => whole true (.mad c d a b)
  | 4 => whole true (.divu c d a b)
  | 5 => whole true (.remu c d a b)
  | _ => noMinor

/-- LI (R64). -/
def parseLi (w : Word) : Parsed :=
  let c := bitC w; let d := immD w; let i := i17Imm w
  match (i17Fn w).toNat with
  | 0 => whole true (.lil c d i)
  | 1 => whole true (.lih c d i)
  | 2 => whole true (.adpc c d i)
  | _ => noMinor

/-- FP32 (R65). -/
def parseFp32 (w : Word) : Parsed :=
  let c := bitC w; let d := rrrD w; let a := rrrA w; let b := rrrB w
  let r : BitVec 2 := (rrrFn w).extractLsb' 3 2
  match ((rrrFn w).extractLsb' 0 3).toNat with
  | 0 => whole true (.fadd c r d a b)
  | 1 => whole true (.fsub c r d a b)
  | 2 => whole true (.fmul c r d a b)
  | 3 => whole true (.hadd2 c r d a b)
  | 4 => whole true (.hmul2 c r d a b)
  | 5 => whole true (.badd2 c r d a b)
  | 6 => whole true (.bmul2 c r d a b)
  | _ =>
    match r.toNat with
    | 0 => whole true (.fmin c d a b)
    | 1 => whole true (.fmax c d a b)
    | 2 => fieldsZero (b == 0) (.fneg c d a)
    | _ => fieldsZero (b == 0) (.fabs c d a)

/-- FMA (R65). -/
def parseFma (w : Word) : Parsed :=
  let c := bitC w; let d := rrrD w; let a := rrrA w; let b := rrrB w
  let r : BitVec 2 := (rrrFn w).extractLsb' 3 2
  match ((rrrFn w).extractLsb' 0 3).toNat with
  | 0 => whole true (.ffma c r d a b)
  | 1 => whole true (.ffms c r d a b)
  | 2 => whole true (.hfma2 c r d a b)
  | 3 => whole true (.bfma2 c r d a b)
  | 4 => whole true (.hdot2 c r d a b)
  | _ => noMinor

/-- CVT (R67): FN the conversion, B the control field. -/
def parseCvt (w : Word) : Parsed :=
  let c := bitC w; let d := rrrD w; let a := rrrA w; let b := rrrB w
  let fn := rrrFn w
  let r : BitVec 3 := b.extractLsb' 4 3
  let s : Bool := b.getLsbD 3
  let z : Bool := b.extractLsb' 0 3 == 0
  let f2 : BitVec 2 := fn.extractLsb' 0 2
  let f1 : Bool := fn.getLsbD 0
  match fn.toNat with
  | 0 | 1 | 2 | 3 => fieldsZero z (.cvtF32ToNarrow c f2 d a r s)
  | 4 | 5 | 6 | 7 => fieldsZero (b == 0) (.cvtNarrowToF32 c f2 d a)
  | 8 | 9 => fieldsZero z (.cvtF32ToInt c f1 d a r s)
  | 10 | 11 => fieldsZero (z && !s) (.cvtIntToF32 c f1 d a r)
  | 12 | 13 => fieldsZero z (.cvtF16Bf16 c f1 d a r s)
  | 14 | 15 => fieldsZero z (.cvtF16ToFp8 c f1 d a r s)
  | 16 => fieldsZero (z && !s) (.frnd c d a r)
  | 17 => fieldsZero z (.pack2F16 c d a r s)
  | 18 => fieldsZero z (.pack2Bf16 c d a r s)
  | _ => noMinor

/-- XFN (R64). -/
def parseXfn (w : Word) : Parsed :=
  let c := bitC w; let d := rrrD w; let a := rrrA w; let b := rrrB w
  match (rrrFn w).toNat with
  | 0 => fieldsZero (b == 0) (.exp2 c d a)
  | 1 => fieldsZero (b == 0) (.log2 c d a)
  | 2 => fieldsZero (b == 0) (.rcp c d a)
  | 3 => fieldsZero (b == 0) (.rsq c d a)
  | 4 => fieldsZero (b == 0) (.sqrt c d a)
  | 5 => fieldsZero (b == 0) (.sin c d a)
  | 6 => fieldsZero (b == 0) (.cos c d a)
  | 7 => fieldsZero (b == 0) (.tanh c d a)
  | _ => noMinor

/-- CMP (R66, R122). -/
def parseCmp (w : Word) : Parsed :=
  let c := bitC w; let d := rrrD w; let a := rrrA w; let b := rrrB w
  let q : BitVec 3 := (rrrFn w).extractLsb' 0 3
  match (rrrFn w).toNat with
  | 0 | 1 | 2 | 3 | 4 | 5 => whole (predZ d) (.icmp c q (predOf d) a b)
  | 8 | 9 | 10 | 11 | 12 | 13 => whole (predZ d) (.icmpu c q (predOf d) a b)
  | 16 | 17 | 18 | 19 | 20 | 21 | 22 => whole (predZ d) (.fcmp c q (predOf d) a b)
  | 24 => whole (predZ d) (.fclass c (predOf d) a b)
  | 25 => whole (predZ d && predZ b) (.plop c (predOf d) (a.extractLsb' 3 4) (predOf a) (predOf b))
  | _ => noMinor

/-- SEL (R64). -/
def parseSel (w : Word) : Parsed :=
  let c := bitC w; let d := rrrD w; let a := rrrA w; let b := rrrB w
  match (rrrFn w).toNat with
  | 0 | 1 | 2 | 3 | 4 | 5 | 6 | 7 => whole true (.sel c ((rrrFn w).extractLsb' 0 3) d a b)
  | 8 => fieldsZero (a == 0) (.mov c d b)
  | 9 => fieldsZero (a == 0) (.movp c d b)
  | 10 => fieldsZero (b == 0) (.pmov c (predOf d) a) (predZ d)
  | _ => noMinor

/-- BRANCH (R68). -/
def parseBranch (w : Word) : Parsed :=
  let c := bitC w; let g := fGuard w; let p := brDisp w
  match (brFn w).toNat with
  | 0 => whole true (.br c g p)
  | 1 => whole true (.call c g p)
  | 2 => fieldsZero (p.extractLsb' 7 12 == 0) (.brx c g (p.extractLsb' 0 7))
  | 3 => fieldsZero (p.extractLsb' 7 12 == 0) (.callx c g (p.extractLsb' 0 7))
  | 4 => fieldsZero (p == 0) (.ret c g)
  | 5 => fieldsZero (p == 0) (.exit c g)
  | 6 => whole true (.meet c g p)
  | _ => whole true (.unmeet c g p)

/-- COLL (R69). -/
def parseColl (w : Word) : Parsed :=
  let c := bitC w; let d := rrrD w; let a := rrrA w; let b := rrrB w
  let pp := predZ d && predZ a
  match (rrrFn w).toNat with
  | 0 => whole pp (.voteAnd c (predOf d) (predOf a) b)
  | 1 => whole pp (.voteOr c (predOf d) (predOf a) b)
  | 2 => whole pp (.voteSame c (predOf d) (predOf a) b)
  | 3 => whole (predZ a) (.ballot c d (predOf a) b)
  | 4 => whole true (.shflLane c d a b)
  | 5 => whole true (.shflRot c d a b)
  | 6 => whole true (.shflOff c d a b)
  | 7 => whole true (.shflSwap c d a b)
  | 8 => whole true (.gredAdd c d a b)
  | 9 => whole true (.gredMin c d a b)
  | 10 => whole true (.gredMax c d a b)
  | 11 => whole true (.gredArgmin c d a b)
  | 12 => whole true (.gredArgmax c d a b)
  | 13 => whole true (.gscan c d a b)
  | 14 => whole true (.matchEq c d a b)
  | 15 => fieldsZero (a == 0) (.elect c (predOf d) b) (predZ d)
  | 16 => whole true (.regq c d a b)
  | 17 => whole true (.prio c d a b)
  | _ => noMinor

/-- LD (R70): the mnemonic follows from SP. -/
def parseLd (w : Word) : Parsed :=
  let c := bitC w; let g := fGuard w; let fs := fFs w; let fn := mFn w; let t := mT w; let a := mA w
  if 6 < fn.toNat then noMinor else
  match (mSp w).toNat with
  | 0 => whole true (.ld c g fs fn t a)
  | 1 => whole true (.ldl c g fs fn t a)
  | 2 => whole true (.ldlGang c g fs fn t a)
  | 3 => whole true (.ldm c g fs fn t a)
  | 4 => whole true (.ldc c g fs fn t a)
  | _ => fieldsZero false (.ld c g fs fn t a)

/-- ST (R70). -/
def parseSt (w : Word) : Parsed :=
  let c := bitC w; let g := fGuard w; let fs := fFs w; let fn := mFn w; let t := mT w; let a := mA w
  if 4 < fn.toNat then noMinor else
  match (mSp w).toNat with
  | 0 => whole true (.st c g fs fn t a)
  | 1 => whole true (.stl c g fs fn t a)
  | 2 => whole true (.stlGang c g fs fn t a)
  | 3 => whole true (.stm c g fs fn t a)
  | _ => fieldsZero false (.st c g fs fn t a)

/-- ATOM (R71). -/
def parseAtom (w : Word) : Parsed :=
  let c := bitC w; let g := fGuard w; let fs := fFs w; let fn := mFn w; let t := mT w; let a := mA w
  match fn.toNat with
  | 11 => whole true (.cas c g fs (mSp w) t a)
  | 12 => whole true (.casB64 c g fs (mSp w) t a)
  | 13 | 14 | 15 => noMinor
  | _ =>
    match (mSp w).toNat with
    | 0 => whole true (.atom c g fs fn t a)
    | 1 => whole true (.atoml c g fs fn t a)
    | 2 => whole true (.atomGang c g fs fn t a)
    | 3 => whole true (.atomMkt c g fs fn t a)
    | _ => fieldsZero false (.atom c g fs fn t a)

/-- MARKET (R72). -/
def parseMarket (w : Word) : Parsed :=
  let c := bitC w; let g := fGuard w; let fs := fFs w; let t := mT w; let a := mA w
  let z := mSp w == 3
  match (mFn w).toNat with
  | 0 => fieldsZero z (.madd c g fs t a)
  | 1 => fieldsZero z (.mamax c g fs t a)
  | 2 => fieldsZero z (.mred c g fs t a)
  | 3 => fieldsZero z (.mscale c g fs t a)
  | _ => noMinor

/-- SYNC (R73, R165, R231, R233). -/
def parseSync (w : Word) : Parsed :=
  let c := bitC w; let g := fGuard w; let fs := fFs w; let d := eD w; let a := eA w; let x := eX w
  match (eFn w).toNat with
  | 0 => fieldsZero (d == 0 && a == 0 && !fs) (.bar c g x)
  | 1 => fieldsZero (d == 0 && a == 0 && !fs) (.gbar c g x)
  | 2 => fieldsZero (d.extractLsb' 3 4 == 0 && a == 0 && x == 0 && !fs) (.fenceAcq c g (d.extractLsb' 0 3))
  | 3 => fieldsZero (d.extractLsb' 3 4 == 0 && a == 0 && x == 0 && !fs) (.fenceRel c g (d.extractLsb' 0 3))
  | 4 => fieldsZero (d.extractLsb' 3 4 == 0 && a == 0 && x == 0 && !fs) (.fenceAr c g (d.extractLsb' 0 3))
  | 5 => fieldsZero (!x.getLsbD 1) (.feset c g fs d a (x.getLsbD 0))
  | 6 => fieldsZero (!x.getLsbD 1) (.feclr c g fs d a (x.getLsbD 0))
  | 7 => fieldsZero (!x.getLsbD 1) (.fepoll c g fs d a (x.getLsbD 0))
  | _ => noMinor

/-- TRY (R73, R249). -/
def parseTry (w : Word) : Parsed :=
  let c := bitC w; let g := fGuard w; let fs := fFs w; let d := eD w; let a := eA w; let x := eX w
  match (eFn w).toNat with
  | 0 => fieldsZero (!fs) (.tryOpen c g (d.extractLsb' 0 5) (d.extractLsb' 5 2 ++ x) a)
  | 1 => fieldsZero (d.extractLsb' 3 4 == 0 && a == 0 && x == 0 && !fs) (.commit c g (d.extractLsb' 0 3))
  | 2 => fieldsZero (!fs && a == 0 && !x.getLsbD 1) (.tabort c g (x.extractLsb' 0 1 ++ d))
  | 3 => fieldsZero (!fs && a == 0 && x == 0) (.tstat c g d)
  | _ => noMinor

/-- QUEUE (R73, R269). -/
def parseQueue (w : Word) : Parsed :=
  let c := bitC w; let g := fGuard w; let fs := fFs w; let d := eD w; let a := eA w; let x := eX w
  match (eFn w).toNat with
  | 0 => fieldsZero (!fs && x == 0) (.qbind c g d a)
  | 1 => fieldsZero (!fs && x == 0) (.qstat c g d a)
  | 2 => fieldsZero (!x.getLsbD 1) (.qflush c g fs d a (x.getLsbD 0))
  | 3 => fieldsZero (x == 0) (.launch c g fs d a)
  | 4 => fieldsZero (x == 0) (.gsignal c g fs d a)
  | _ => noMinor

/-- MMA (R73, R288, R301). -/
def parseMma (w : Word) : Parsed :=
  let c := bitC w; let g := fGuard w; let fs := fFs w; let d := eD w; let a := eA w; let x := eX w
  match (eFn w).toNat with
  | 0 => fieldsZero (x == 0) (.mma c g fs d a)
  | 1 =>
    match x.toNat with
    | 0 => fieldsZero (d == 0) (.mdrainL c g fs a)
    | 1 => whole true (.mdrainR c g fs d a)
    | _ => .error .field
  | 2 => fieldsZero (d == 0 && x == 0) (.mzero c g fs a)
  | _ => noMinor

/-- FEAT (R73, R348). -/
def parseFeat (w : Word) : Parsed :=
  let c := bitC w; let g := fGuard w; let fs := fFs w; let d := eD w; let a := eA w; let x := eX w
  match (eFn w).toNat with
  | 0 => fieldsZero (x == 0) (.tap c g fs d a)
  | 1 => fieldsZero (x == 0) (.fget c g fs d a)
  | 2 => fieldsZero (x == 0) (.frd c g fs d a)
  | 3 => fieldsZero (x == 0) (.fwr c g fs d a)
  | 4 => fieldsZero (x == 0) (.frel c g fs d a)
  | 5 => fieldsZero (x == 0) (.fdec c g fs d a)
  | _ => noMinor

/-- TKT (R73, R326). -/
def parseTkt (w : Word) : Parsed :=
  let c := bitC w; let g := fGuard w; let fs := fFs w; let d := eD w; let a := eA w; let x := eX w
  match (eFn w).toNat with
  | 0 => fieldsZero (x == 0) (.tkrd c g fs d a)
  | 1 => fieldsZero (x == 0) (.tkwr c g fs d a)
  | 2 => fieldsZero (x == 0) (.tkappend c g fs d a)
  | 3 => fieldsZero (x == 0) (.tktrunc c g fs d a)
  | 4 => fieldsZero (x == 0) (.tkret c g fs d a)
  | 5 => fieldsZero (x == 0) (.tkfork c g fs d a)
  | 6 => fieldsZero (x == 0) (.kvmap c g fs d a)
  | 7 => fieldsZero (x == 0) (.rot c g fs d a)
  | _ => noMinor

/-- PAGE (R73, R245–R248). -/
def parsePage (w : Word) : Parsed :=
  let c := bitC w; let g := fGuard w; let fs := fFs w; let d := eD w; let a := eA w; let x := eX w
  match (eFn w).toNat with
  | 0 => fieldsZero (x == 0) (.pres c g fs d a)
  | 1 => fieldsZero (x == 0) (.prel c g fs d a)
  | 2 => fieldsZero (x == 0) (.pdisc c g fs d a)
  | 3 => fieldsZero (!x.getLsbD 1) (.pflush c g fs d a (x.getLsbD 0))
  | 4 => fieldsZero (x == 0) (.pmig c g fs d a)
  | _ => noMinor

/-- SYS (R73, R373, R403). -/
def parseSys (w : Word) : Parsed :=
  let c := bitC w; let g := fGuard w; let fs := fFs w; let d := eD w; let a := eA w; let x := eX w
  match (eFn w).toNat with
  | 0 => fieldsZero (!fs && d == 0 && a == 0 && x == 0) (.rfe c g)
  | 1 =>
    match x.toNat with
    | 0 => fieldsZero (!fs && d == 0) (.killW c g a)
    | 1 => fieldsZero (!fs && d == 0 && a == 0) (.killG c g)
    | 2 => fieldsZero (!fs && d == 0 && a == 0) (.killL c g)
    | _ => .error .field
  | 2 =>
    match x.toNat with
    | 0 => whole true (.tlbinv c g fs d a)
    | 1 => fieldsZero (d == 0 && a == 0) (.tlbinvOwn c g fs)
    | 2 => fieldsZero (d == 0 && a == 0) (.tlbinvAll c g fs)
    | _ => .error .field
  | 3 =>
    match x.toNat with
    | 0 => whole true (.icinv c g fs d a)
    | 1 => fieldsZero (d == 0 && a == 0) (.icinvAll c g fs)
    | _ => .error .field
  | 4 =>
    match x.toNat with
    | 0 => fieldsZero (!fs) (.cntsel c g d a)
    | 1 => fieldsZero (!fs) (.cntselRd c g d a)
    | 2 => fieldsZero (!fs) (.cntselSmp c g d a)
    | _ => fieldsZero (!fs) (.cntselRot c g d a)
  | _ => noMinor

/-- QUANT (R73, R92). -/
def parseQuant (w : Word) : Parsed :=
  let c := bitC w; let g := fGuard w; let fs := fFs w; let d := eD w; let a := eA w; let x := eX w
  match (eFn w).toNat with
  | 0 => fieldsZero (!fs) (.qblk c g d a x)
  | 1 => fieldsZero (!fs) (.dqblk c g d a x)
  | 2 => fieldsZero (!fs) (.qfp8 c g d a x)
  | _ => noMinor

/-- ALU64 (R64). -/
def parseAlu64 (w : Word) : Parsed :=
  let c := bitC w; let d := rrrD w; let a := rrrA w; let b := rrrB w
  match (rrrFn w).toNat with
  | 0 => whole true (.add64 c d a b)
  | 1 => whole true (.sub64 c d a b)
  | 2 => whole true (.shl64 c d a b)
  | 3 => whole true (.shr64 c d a b)
  | 4 => whole true (.madw c d a b)
  | 5 => fieldsZero (b == 0) (.sext64 c d a)
  | _ => noMinor

/-- DRAW (R73, R307, R310). -/
def parseDraw (w : Word) : Parsed :=
  let c := bitC w; let g := fGuard w; let fs := fFs w; let d := eD w; let a := eA w; let x := eX w
  match (eFn w).toNat with
  | 0 => fieldsZero (x == 0) (.dsel c g fs d a)
  | 1 => fieldsZero (x == 0) (.rng c g fs d a)
  | 2 => fieldsZero (!fs && x == 0) (.rngk c g d a)
  | _ => noMinor

/-- The major selects the minor-code table (R52); 28–30 are reserved. A PFX word (31) is no instruction: it stands
beside the word it modifies, and alone it has no meaning, so it is refused here as a MAJOR that names none. -/
def parseWord (w : Word) : Parsed :=
  match (fMaj w).toNat with
  | 0 => parseMisc w
  | 1 => parseIalu w
  | 2 => parseIalui w
  | 3 => parseImul w
  | 4 => parseLi w
  | 5 => parseFp32 w
  | 6 => parseFma w
  | 7 => parseCvt w
  | 8 => parseXfn w
  | 9 => parseCmp w
  | 10 => parseSel w
  | 11 => parseBranch w
  | 12 => parseColl w
  | 13 => parseLd w
  | 14 => parseSt w
  | 15 => parseAtom w
  | 16 => parseMarket w
  | 17 => parseSync w
  | 18 => parseTry w
  | 19 => parseQueue w
  | 20 => parseMma w
  | 21 => parseFeat w
  | 22 => parseTkt w
  | 23 => parsePage w
  | 24 => parseSys w
  | 25 => parseQuant w
  | 26 => parseAlu64 w
  | 27 => parseDraw w
  | _ => .error .major

/-- The decoder of one word: the instruction, or the lowest REASON that the word alone fails (R75). -/
def decodeWord (w : Word) : Except Reason Instr :=
  match parseWord w with
  | .error r => .error r
  | .ok p =>
    if !p.ins.minorOk then .error .minor
    else if !(p.fields && p.ins.fieldOk) then .error .field
    else if !(p.preds && p.ins.regOk) then .error .register
    else if !p.ins.specialOk then .error .special
    else .ok p.ins

/-! ## The encoder -/

/-- An RRR word (R53). -/
def rrr (c : Bool) (maj fn : BitVec 5) (d a b : Reg) : Word := BitVec.ofBool c ++ maj ++ fn ++ d ++ a ++ b
/-- An RRI word. -/
def rri (c : Bool) (maj : BitVec 5) (d a : Reg) (imm : BitVec 12) : Word := BitVec.ofBool c ++ maj ++ d ++ a ++ imm
/-- An I17 word. -/
def i17 (c : Bool) (maj : BitVec 5) (d : Reg) (fn : BitVec 2) (imm : BitVec 17) : Word :=
  BitVec.ofBool c ++ maj ++ d ++ fn ++ imm
/-- A BR word. -/
def brw (c : Bool) (maj : BitVec 5) (g : Guard) (fn : BitVec 3) (disp : BitVec 19) : Word :=
  BitVec.ofBool c ++ maj ++ BitVec.ofBool g.ng ++ g.pg ++ fn ++ disp
/-- An M word. -/
def mw (c : Bool) (maj : BitVec 5) (g : Guard) (fs : Bool) (fn : BitVec 4) (t a : Reg) (sp : BitVec 3) : Word :=
  BitVec.ofBool c ++ maj ++ BitVec.ofBool g.ng ++ g.pg ++ BitVec.ofBool fs ++ fn ++ t ++ a ++ sp
/-- An E word. -/
def ew (c : Bool) (maj : BitVec 5) (g : Guard) (fs : Bool) (fn : BitVec 5) (d a : Reg) (x : BitVec 2) : Word :=
  BitVec.ofBool c ++ maj ++ BitVec.ofBool g.ng ++ g.pg ++ BitVec.ofBool fs ++ fn ++ d ++ a ++ x

/-- The word of an instruction (R53, R64–R73); the steps of the machine and the commands have none. -/
def encode? : Instr → Option Word
  | .nop c => some (rrr c 0 0 0 0 0)
  | .sget c d a => some (rrr c 0 1 d a 0)
  | .sset c d a => some (rrr c 0 2 d a 0)
  | .fwait c mask => some (rrr c 0 3 0 (0#2 ++ mask.extractLsb' 7 5) (mask.extractLsb' 0 7))
  | .yield c => some (rrr c 0 4 0 0 0)
  | .brk c k => some (rrr c 0 5 0 0 k)
  | .trap c k => some (rrr c 0 6 0 0 k)
  | .add c d a b => some (rrr c 1 0 d a b)
  | .sub c d a b => some (rrr c 1 1 d a b)
  | .and c d a b => some (rrr c 1 2 d a b)
  | .or c d a b => some (rrr c 1 3 d a b)
  | .xor c d a b => some (rrr c 1 4 d a b)
  | .andn c d a b => some (rrr c 1 5 d a b)
  | .shl c d a b => some (rrr c 1 6 d a b)
  | .shr c d a b => some (rrr c 1 7 d a b)
  | .sra c d a b => some (rrr c 1 8 d a b)
  | .rotl c d a b => some (rrr c 1 9 d a b)
  | .min c d a b => some (rrr c 1 10 d a b)
  | .max c d a b => some (rrr c 1 11 d a b)
  | .minu c d a b => some (rrr c 1 12 d a b)
  | .maxu c d a b => some (rrr c 1 13 d a b)
  | .abs c d a => some (rrr c 1 14 d a 0)
  | .clz c d a => some (rrr c 1 15 d a 0)
  | .popc c d a => some (rrr c 1 16 d a 0)
  | .brev c d a => some (rrr c 1 17 d a 0)
  | .bfe c d a b => some (rrr c 1 18 d a b)
  | .bfx c d a b => some (rrr c 1 19 d a b)
  | .bfi c d a b => some (rrr c 1 20 d a b)
  | .prmb c d a b => some (rrr c 1 21 d a b)
  | .addi c d a imm => some (rri c 2 d a (0#3 ++ imm))
  | .andi c d a imm => some (rri c 2 d a (1#3 ++ imm))
  | .ori c d a imm => some (rri c 2 d a (2#3 ++ imm))
  | .xori c d a imm => some (rri c 2 d a (3#3 ++ imm))
  | .shli c d a cnt => some (rri c 2 d a (4#3 ++ (0#4 ++ cnt)))
  | .shri c d a cnt => some (rri c 2 d a (5#3 ++ (0#4 ++ cnt)))
  | .srai c d a cnt => some (rri c 2 d a (6#3 ++ (0#4 ++ cnt)))
  | .mul c d a b => some (rrr c 3 0 d a b)
  | .mulhi c d a b => some (rrr c 3 1 d a b)
  | .mulhiu c d a b => some (rrr c 3 2 d a b)
  | .mad c d a b => some (rrr c 3 3 d a b)
  | .divu c d a b => some (rrr c 3 4 d a b)
  | .remu c d a b => some (rrr c 3 5 d a b)
  | .lil c d imm => some (i17 c 4 d 0 imm)
  | .lih c d imm => some (i17 c 4 d 1 imm)
  | .adpc c d imm => some (i17 c 4 d 2 imm)
  | .fadd c r d a b => some (rrr c 5 (r ++ 0#3) d a b)
  | .fsub c r d a b => some (rrr c 5 (r ++ 1#3) d a b)
  | .fmul c r d a b => some (rrr c 5 (r ++ 2#3) d a b)
  | .hadd2 c r d a b => some (rrr c 5 (r ++ 3#3) d a b)
  | .hmul2 c r d a b => some (rrr c 5 (r ++ 4#3) d a b)
  | .badd2 c r d a b => some (rrr c 5 (r ++ 5#3) d a b)
  | .bmul2 c r d a b => some (rrr c 5 (r ++ 6#3) d a b)
  | .fmin c d a b => some (rrr c 5 7 d a b)
  | .fmax c d a b => some (rrr c 5 15 d a b)
  | .fneg c d a => some (rrr c 5 23 d a 0)
  | .fabs c d a => some (rrr c 5 31 d a 0)
  | .ffma c r d a b => some (rrr c 6 (r ++ 0#3) d a b)
  | .ffms c r d a b => some (rrr c 6 (r ++ 1#3) d a b)
  | .hfma2 c r d a b => some (rrr c 6 (r ++ 2#3) d a b)
  | .bfma2 c r d a b => some (rrr c 6 (r ++ 3#3) d a b)
  | .hdot2 c r d a b => some (rrr c 6 (r ++ 4#3) d a b)
  | .cvtF32ToNarrow c f d a r sat => some (rrr c 7 (0#3 ++ f) d a (r ++ BitVec.ofBool sat ++ 0#3))
  | .cvtNarrowToF32 c f d a => some (rrr c 7 (1#3 ++ f) d a (0#3 ++ 0#1 ++ 0#3))
  | .cvtF32ToInt c uns d a r sat => some (rrr c 7 (4#4 ++ BitVec.ofBool uns) d a (r ++ BitVec.ofBool sat ++ 0#3))
  | .cvtIntToF32 c uns d a r => some (rrr c 7 (5#4 ++ BitVec.ofBool uns) d a (r ++ 0#1 ++ 0#3))
  | .cvtF16Bf16 c f d a r sat => some (rrr c 7 (6#4 ++ BitVec.ofBool f) d a (r ++ BitVec.ofBool sat ++ 0#3))
  | .cvtF16ToFp8 c f d a r sat => some (rrr c 7 (7#4 ++ BitVec.ofBool f) d a (r ++ BitVec.ofBool sat ++ 0#3))
  | .frnd c d a r => some (rrr c 7 16 d a (r ++ 0#1 ++ 0#3))
  | .pack2F16 c d a r sat => some (rrr c 7 17 d a (r ++ BitVec.ofBool sat ++ 0#3))
  | .pack2Bf16 c d a r sat => some (rrr c 7 18 d a (r ++ BitVec.ofBool sat ++ 0#3))
  | .exp2 c d a => some (rrr c 8 0 d a 0)
  | .log2 c d a => some (rrr c 8 1 d a 0)
  | .rcp c d a => some (rrr c 8 2 d a 0)
  | .rsq c d a => some (rrr c 8 3 d a 0)
  | .sqrt c d a => some (rrr c 8 4 d a 0)
  | .sin c d a => some (rrr c 8 5 d a 0)
  | .cos c d a => some (rrr c 8 6 d a 0)
  | .tanh c d a => some (rrr c 8 7 d a 0)
  | .icmp c cond p a b => some (rrr c 9 (0#2 ++ cond) (0#4 ++ p) a b)
  | .icmpu c cond p a b => some (rrr c 9 (1#2 ++ cond) (0#4 ++ p) a b)
  | .fcmp c cond p a b => some (rrr c 9 (2#2 ++ cond) (0#4 ++ p) a b)
  | .fclass c p a b => some (rrr c 9 24 (0#4 ++ p) a b)
  | .plop c p tt pa pb => some (rrr c 9 25 (0#4 ++ p) (tt ++ pa) (0#4 ++ pb))
  | .sel c n d a b => some (rrr c 10 (0#2 ++ n) d a b)
  | .mov c d b => some (rrr c 10 8 d 0 b)
  | .movp c d b => some (rrr c 10 9 d 0 b)
  | .pmov c p a => some (rrr c 10 10 (0#4 ++ p) a 0)
  | .br c g disp => some (brw c 11 g 0 disp)
  | .call c g disp => some (brw c 11 g 1 disp)
  | .brx c g a => some (brw c 11 g 2 (0#12 ++ a))
  | .callx c g a => some (brw c 11 g 3 (0#12 ++ a))
  | .ret c g => some (brw c 11 g 4 0)
  | .exit c g => some (brw c 11 g 5 0)
  | .meet c g disp => some (brw c 11 g 6 disp)
  | .unmeet c g disp => some (brw c 11 g 7 disp)
  | .voteAnd c p pa m => some (rrr c 12 0 (0#4 ++ p) (0#4 ++ pa) m)
  | .voteOr c p pa m => some (rrr c 12 1 (0#4 ++ p) (0#4 ++ pa) m)
  | .voteSame c p pa m => some (rrr c 12 2 (0#4 ++ p) (0#4 ++ pa) m)
  | .ballot c d pa m => some (rrr c 12 3 d (0#4 ++ pa) m)
  | .shflLane c d a m => some (rrr c 12 4 d a m)
  | .shflRot c d a m => some (rrr c 12 5 d a m)
  | .shflOff c d a m => some (rrr c 12 6 d a m)
  | .shflSwap c d a m => some (rrr c 12 7 d a m)
  | .gredAdd c d a m => some (rrr c 12 8 d a m)
  | .gredMin c d a m => some (rrr c 12 9 d a m)
  | .gredMax c d a m => some (rrr c 12 10 d a m)
  | .gredArgmin c d a m => some (rrr c 12 11 d a m)
  | .gredArgmax c d a m => some (rrr c 12 12 d a m)
  | .gscan c d a m => some (rrr c 12 13 d a m)
  | .matchEq c d a m => some (rrr c 12 14 d a m)
  | .elect c p m => some (rrr c 12 15 (0#4 ++ p) 0 m)
  | .regq c d a m => some (rrr c 12 16 d a m)
  | .prio c d a m => some (rrr c 12 17 d a m)
  | .ld c g fs fn t a => some (mw c 13 g fs fn t a 0)
  | .ldl c g fs fn t a => some (mw c 13 g fs fn t a 1)
  | .ldlGang c g fs fn t a => some (mw c 13 g fs fn t a 2)
  | .ldm c g fs fn t a => some (mw c 13 g fs fn t a 3)
  | .ldc c g fs fn t a => some (mw c 13 g fs fn t a 4)
  | .st c g fs fn t a => some (mw c 14 g fs fn t a 0)
  | .stl c g fs fn t a => some (mw c 14 g fs fn t a 1)
  | .stlGang c g fs fn t a => some (mw c 14 g fs fn t a 2)
  | .stm c g fs fn t a => some (mw c 14 g fs fn t a 3)
  | .atom c g fs fn t a => some (mw c 15 g fs fn t a 0)
  | .atoml c g fs fn t a => some (mw c 15 g fs fn t a 1)
  | .atomGang c g fs fn t a => some (mw c 15 g fs fn t a 2)
  | .atomMkt c g fs fn t a => some (mw c 15 g fs fn t a 3)
  | .cas c g fs sp t a => some (mw c 15 g fs 11 t a sp)
  | .casB64 c g fs sp t a => some (mw c 15 g fs 12 t a sp)
  | .madd c g fs t a => some (mw c 16 g fs 0 t a 3)
  | .mamax c g fs t a => some (mw c 16 g fs 1 t a 3)
  | .mred c g fs t a => some (mw c 16 g fs 2 t a 3)
  | .mscale c g fs t a => some (mw c 16 g fs 3 t a 3)
  | .bar c g k => some (ew c 17 g false 0 0 0 k)
  | .gbar c g k => some (ew c 17 g false 1 0 0 k)
  | .fenceAcq c g scope => some (ew c 17 g false 2 (0#4 ++ scope) 0 0)
  | .fenceRel c g scope => some (ew c 17 g false 3 (0#4 ++ scope) 0 0)
  | .fenceAr c g scope => some (ew c 17 g false 4 (0#4 ++ scope) 0 0)
  | .feset c g fs n a gang => some (ew c 17 g fs 5 n a (0#1 ++ BitVec.ofBool gang))
  | .feclr c g fs n a gang => some (ew c 17 g fs 6 n a (0#1 ++ BitVec.ofBool gang))
  | .fepoll c g fs d a gang => some (ew c 17 g fs 7 d a (0#1 ++ BitVec.ofBool gang))
  | .tryOpen c g cnt m n => some (ew c 18 g false 0 (m.extractLsb' 2 2 ++ cnt) n (m.extractLsb' 0 2))
  | .commit c g scope => some (ew c 18 g false 1 (0#4 ++ scope) 0 0)
  | .tabort c g k => some (ew c 18 g false 2 (k.extractLsb' 0 7) 0 (0#1 ++ k.extractLsb' 7 1))
  | .tstat c g d => some (ew c 18 g false 3 d 0 0)
  | .qbind c g d a => some (ew c 19 g false 0 d a 0)
  | .qstat c g d a => some (ew c 19 g false 1 d a 0)
  | .qflush c g fs d a unbind => some (ew c 19 g fs 2 d a (0#1 ++ BitVec.ofBool unbind))
  | .launch c g fs d a => some (ew c 19 g fs 3 d a 0)
  | .gsignal c g fs d a => some (ew c 19 g fs 4 d a 0)
  | .mma c g fs m a => some (ew c 20 g fs 0 m a 0)
  | .mdrainL c g fs a => some (ew c 20 g fs 1 0 a 0)
  | .mdrainR c g fs d a => some (ew c 20 g fs 1 d a 1)
  | .mzero c g fs a => some (ew c 20 g fs 2 0 a 0)
  | .tap c g fs d a => some (ew c 21 g fs 0 d a 0)
  | .fget c g fs d a => some (ew c 21 g fs 1 d a 0)
  | .frd c g fs d a => some (ew c 21 g fs 2 d a 0)
  | .fwr c g fs d a => some (ew c 21 g fs 3 d a 0)
  | .frel c g fs d a => some (ew c 21 g fs 4 d a 0)
  | .fdec c g fs d a => some (ew c 21 g fs 5 d a 0)
  | .tkrd c g fs d a => some (ew c 22 g fs 0 d a 0)
  | .tkwr c g fs d a => some (ew c 22 g fs 1 d a 0)
  | .tkappend c g fs d a => some (ew c 22 g fs 2 d a 0)
  | .tktrunc c g fs d a => some (ew c 22 g fs 3 d a 0)
  | .tkret c g fs d a => some (ew c 22 g fs 4 d a 0)
  | .tkfork c g fs d a => some (ew c 22 g fs 5 d a 0)
  | .kvmap c g fs d a => some (ew c 22 g fs 6 d a 0)
  | .rot c g fs d a => some (ew c 22 g fs 7 d a 0)
  | .pres c g fs d a => some (ew c 23 g fs 0 d a 0)
  | .prel c g fs d a => some (ew c 23 g fs 1 d a 0)
  | .pdisc c g fs d a => some (ew c 23 g fs 2 d a 0)
  | .pflush c g fs d a inv => some (ew c 23 g fs 3 d a (0#1 ++ BitVec.ofBool inv))
  | .pmig c g fs d a => some (ew c 23 g fs 4 d a 0)
  | .rfe c g => some (ew c 24 g false 0 0 0 0)
  | .killW c g a => some (ew c 24 g false 1 0 a 0)
  | .killG c g => some (ew c 24 g false 1 0 0 1)
  | .killL c g => some (ew c 24 g false 1 0 0 2)
  | .tlbinv c g fs d a => some (ew c 24 g fs 2 d a 0)
  | .tlbinvOwn c g fs => some (ew c 24 g fs 2 0 0 1)
  | .tlbinvAll c g fs => some (ew c 24 g fs 2 0 0 2)
  | .icinv c g fs d a => some (ew c 24 g fs 3 d a 0)
  | .icinvAll c g fs => some (ew c 24 g fs 3 0 0 1)
  | .cntsel c g d a => some (ew c 24 g false 4 d a 0)
  | .cntselRd c g d a => some (ew c 24 g false 4 d a 1)
  | .cntselSmp c g d a => some (ew c 24 g false 4 d a 2)
  | .cntselRot c g d a => some (ew c 24 g false 4 d a 3)
  | .qblk c g d a x => some (ew c 25 g false 0 d a x)
  | .dqblk c g d a x => some (ew c 25 g false 1 d a x)
  | .qfp8 c g d a x => some (ew c 25 g false 2 d a x)
  | .add64 c d a b => some (rrr c 26 0 d a b)
  | .sub64 c d a b => some (rrr c 26 1 d a b)
  | .shl64 c d a b => some (rrr c 26 2 d a b)
  | .shr64 c d a b => some (rrr c 26 3 d a b)
  | .madw c d a b => some (rrr c 26 4 d a b)
  | .sext64 c d a => some (rrr c 26 5 d a 0)
  | .dsel c g fs d a => some (ew c 27 g fs 0 d a 0)
  | .rng c g fs d a => some (ew c 27 g fs 1 d a 0)
  | .rngk c g d a => some (ew c 27 g false 2 d a 0)
  | _ => none

/-- The word of an instruction word, and the nop for a step that has none. -/
def encode (i : Instr) : Word := (encode? i).getD 0

/-- The instruction that the decoder reads from a word given by its bits (bit 0 the least significant bit of the
word); none where it refuses, and none where the row has no 32 bits. -/
def decodeTableWord (nbits w : Nat) : Option Instr :=
  if nbits = 32 ∧ w < 2 ^ 32 then
    match decodeWord (BitVec.ofNat 32 w) with
    | .ok i => some i
    | .error _ => none
  else none

end Sys2Proof
end

