-- ==== Sys2Proof/Config.lean ====
section
/-! DEFINITION. What one implementation fixes and what the spec leaves open. An opaque constant has no body: nothing
can be proved of its value, so a claim about it holds for every value. -/

namespace Sys2Proof.Config

/-- The value that a stepping delivers for a transcendental (R117), by function 0–7 and operand; the machine uses it
where it lies within the bound of R117. DESIGN CHOICE (log 5). -/
opaque xfn : Nat → Word → Word

/-- A fresh unconstrained word, by a counter. DESIGN CHOICE (log 4). -/
opaque freeWord : Nat → Word

/-- The highest junction temperature, in 0.1 °C, at the n-th sample (R437, TEMP). -/
opaque temperature : Nat → Word

/-- The verdict on the signature of a firmware image, given by its bytes (R432). -/
opaque imageVerified : List Byte → Bool

/-- The pages that the page-lock table of a base die holds (R277). DESIGN CHOICE (log 95). -/
opaque pinEntries : Nat

/-- The flits or die-to-die beats that a request takes (R401, codes 0x300, 0x301 and 0x303), by code and ac. DESIGN CHOICE
(log 96). -/
opaque fabricUnits : Nat → Nat → Nat

/-- Whether a CXL device reports the n-th read of a line as poisoned (R184). DESIGN CHOICE (log 97). -/
opaque poison : Nat → Nat → Bool

/-- The 32-bit version of a firmware image (R432): its place in the image is not given. -/
opaque imageVersion : List Byte → Nat

/-- The fused minimum version (R432). -/
opaque minVersion : Nat

/-- The plain key blob that a wrapped blob holds (R443), where its tag verifies. DESIGN CHOICE (log 10). -/
opaque unwrapKey : List Byte → Option (List Byte)

/-- The SHAKE256 digest, 64 bytes, of a message (R396). -/
opaque shake256 : List Byte → List Byte

/-- The Ed448 signature, 114 bytes, of a digest by the device attestation key (R396). -/
opaque ed448Sign : List Byte → List Byte

/-- The device serial number (R396). -/
opaque serial : DWord

/-- Whether phase 1, 2 or 3 of R431 passes at the n-th bring-up (images, self-test, training, spares of R416).
DESIGN CHOICE (log 11). -/
opaque phasePasses : Nat → Nat → Bool

/-- The uncorrectable locations, as physical addresses, that the n-th scrub sweep finds (R396). -/
opaque scrubFinds : Nat → List Nat

end Sys2Proof.Config
end

