-- ==== Sys2Proof/Machine/Cells.lean ====
section
/-! DEFINITION. Sparse storage: lists of (key, value) pairs, keys strictly rising, no entry equal to the value that
an unlisted key reads as, so that equal contents are equal data. -/

namespace Sys2Proof.Machine

/-- The value at a key; the default where the key is not listed. -/
def Cells.get {β : Type} (dflt : β) : List (Nat × β) → Nat → β
  | [], _ => dflt
  | (k, v) :: m, i => if k = i then v else Cells.get dflt m i

/-- The storage with no entry at a key. -/
def Cells.erase {β : Type} (m : List (Nat × β)) (i : Nat) : List (Nat × β) := m.filter (fun e => e.1 != i)

/-- The storage with a listed entry at a key. -/
def Cells.insert {β : Type} : List (Nat × β) → Nat → β → List (Nat × β)
  | [], i, x => [(i, x)]
  | (k, v) :: m, i, x =>
    if k = i then (k, x) :: m else if i < k then (i, x) :: (k, v) :: m else (k, v) :: Cells.insert m i x

/-- Writing a key: the default value removes the entry. -/
def Cells.set {β : Type} [DecidableEq β] (dflt : β) (m : List (Nat × β)) (i : Nat) (x : β) : List (Nat × β) :=
  if x = dflt then Cells.erase m i else Cells.insert m i x

/-- The canonical form: keys above lo strictly rising, no entry equal to the default. -/
def Cells.wfFrom {β : Type} [DecidableEq β] (dflt : β) : Nat → List (Nat × β) → Bool
  | _, [] => true
  | lo, (k, v) :: m => decide (lo ≤ k) && decide (v ≠ dflt) && Cells.wfFrom dflt (k + 1) m

/-- The canonical form of a whole storage. -/
def Cells.wf {β : Type} [DecidableEq β] (dflt : β) (m : List (Nat × β)) : Bool := Cells.wfFrom dflt 0 m

/-- Every entry with a key from lo, below hi, removed: that range reads as the default. -/
def Cells.clear {β : Type} (m : List (Nat × β)) (lo hi : Nat) : List (Nat × β) :=
  m.filter (fun e => !(decide (lo ≤ e.1) && decide (e.1 < hi)))

/-- The entries with keys below hi. -/
def Cells.below {β : Type} (m : List (Nat × β)) (hi : Nat) : List (Nat × β) := m.filter (fun e => decide (e.1 < hi))

/-- The record filed under a key; the default where none is. -/
def Keyed.get {β : Type} (dflt : β) : List (Nat × β) → Nat → β
  | [], _ => dflt
  | (k, v) :: m, i => if k = i then v else Keyed.get dflt m i

/-- The record filed under a key, if any. -/
def Keyed.find {β : Type} : List (Nat × β) → Nat → Option β
  | [], _ => none
  | (k, v) :: m, i => if k = i then some v else Keyed.find m i

/-- Filing a record under a key. -/
def Keyed.put {β : Type} : List (Nat × β) → Nat → β → List (Nat × β)
  | [], i, x => [(i, x)]
  | (k, v) :: m, i, x => if k = i then (i, x) :: m else (k, v) :: Keyed.put m i x

/-- Removing a key. -/
def Keyed.del {β : Type} (m : List (Nat × β)) (i : Nat) : List (Nat × β) := m.filter (fun e => e.1 != i)

end Sys2Proof.Machine
end

