-- ==== Sys2Proof/Machine/State.lean ====
section
/-! DEFINITION. The state of one SV-880 package, as plain data. Storage that the spec lays out by address is sparse
(Machine/Cells.lean); records are filed in lists. The fields under "the model's own" are no state of the spec: they
say which agent moves next and where the free values come from. -/

namespace Sys2Proof.Machine

/-! ## Threads and warps (R6, R141) -/

/-- A PFX word beside the word it modifies (R59). -/
inductive Pfx where
  | none
  | imm24 (imm : BitVec 24)
  | memq (off : BitVec 16) (scope : BitVec 3) (hint : BitVec 2) (fem : BitVec 2) (spec : Bool)
  | qnb (qp : BitVec 3) (en : Bool)
  deriving DecidableEq, Repr

/-- One word of a bundle, with its prefix and its word position 1–3 in the packet (R20, R60). -/
structure Slot where
  ins : Instr
  pfx : Pfx
  pos : Nat
  deriving DecidableEq, Repr

/-- Whether a lane holds a thread that runs (R137, R168). -/
inductive Life where
  | empty | live | exited
  deriving DecidableEq, Repr

/-- What a chain may have written in a thread (R361): its registers, predicates, lk and mt as the chain found them. -/
structure Before where
  regs : List (Nat × Word)
  preds : BitVec 8
  lk : DWord
  mt : DWord
  deriving DecidableEq, Repr

/-- What a collective or mma arrival offers (R156, R289), with fpen at its issue (R166), the number of the first operation
of its chain, and the thread before the chain. -/
structure Arrival where
  pc : DWord
  pos : Nat
  mask : Word
  live : Bool
  src : Word
  ctl : Word
  pred : Bool
  ins : Instr
  fpen : BitVec 5
  first : Nat
  before : Before
  deriving DecidableEq, Repr

/-- What holds a thread beyond the conditions that each ac examines anew (R145). A thread at a barrier issued the
operations numbered below one before it arrived (R208). -/
inductive Hold where
  | none
  | parked
  | coll (a : Arrival)
  | barrier (gang : Bool) (k : BitVec 2) (below : Nat)
  | commit
  | rollback (until_ : Nat)
  deriving DecidableEq, Repr

/-- A trap decided after its word issued, waiting for its delivery point (R362). -/
structure Pending where
  cause : BitVec 8
  late : Bool
  tval : Word
  pc : DWord
  va : DWord
  deriving DecidableEq, Repr

/-- What a thread has issued and must still stand at (R232, R256, R367): fence.ar until both its conditions hold, a release
until the MMP has decided every earlier store, a commit until its step is taken. -/
inductive Standing where
  | ar (scope : BitVec 3)
  | rel
  | commit
  deriving DecidableEq, Repr

/-- A thread that stands at a word of its chain, with the address of the word and the number below which operations came
before it. -/
structure Order where
  word : DWord
  below : Nat
  what : Standing
  deriving DecidableEq, Repr

/-- An open try region (R250, R251); places gives each line of its write set the entry it was translated by and the
address that its first byte has. -/
structure Region where
  first : Nat
  count : Nat
  base : Nat
  regs : List Word
  preds : BitVec 8
  target : DWord
  reads : List Nat
  buffer : List (Nat × Byte)
  places : List (Nat × Nat × DWord)
  deriving DecidableEq, Repr

/-- An abort decided and not yet rolled back (R255). -/
structure Abort where
  code : BitVec 8
  user : BitVec 8
  addr : DWord
  decided : Nat
  deriving DecidableEq, Repr

/-- One thread (R6, R136, R359). late holds the results in flight for registers above its quota, with the ac of their
writing (R163). acqUpTo and acqScope are the last fence.acq, by the number that the next operation then had; relUpTo the
releases that may still hold its stores (R232); fresh is the ac after its last acquire wider than core (R206). -/
structure Thread where
  life : Life
  regs : List (Nat × Word)
  preds : BitVec 8
  pc : DWord
  pos : Nat
  line : List Word
  entered : Bool
  lk : DWord
  mt : DWord
  hold : Hold
  lastIssue : Nat
  notBefore : Nat
  busy : List (Nat × Nat)
  late : List (Nat × Nat × Word)
  priv : Bool
  epc : DWord
  tcause : Word
  tval : Word
  pend : List Pending
  tabc : BitVec 8
  tusr : BitVec 8
  tfa : DWord
  region : Option Region
  aborting : Option Abort
  acqUpTo : Nat
  acqScope : BitVec 3
  relUpTo : List (Nat × BitVec 3)
  fresh : Nat
  order : Option Order
  deriving DecidableEq, Repr

/-- One queue entry (R261), with the warp and register that pushed it. -/
structure QEntry where
  id : Nat
  origin : Nat × Nat
  mask : Word
  words : List Word
  written : Bool
  readyAt : Nat
  deriving DecidableEq, Repr

/-- One binding of a queue register (R260, R270). Entries beyond the hardware's eight stand in the ring. -/
structure Binding where
  kind : Nat
  eng : Nat
  pwg : Nat
  pwarp : Nat
  preg : Nat
  qs : Nat
  base : DWord
  hw : List QEntry
  ring : List (Nat × QEntry)
  nextK : Nat
  lost : Bool
  pins : List Nat
  deriving DecidableEq, Repr

/-- A record of the rejoin table (R150). -/
structure Rejoin where
  addr : DWord
  mask : Word
  deriving DecidableEq, Repr

/-- Access sampling of a warp (R408). -/
structure Sampling where
  base : DWord
  entries : Nat
  on : Bool
  shift : Nat
  seen : Nat
  next : Nat
  deriving DecidableEq, Repr

/-- One warp (R141). signals gives each flag the ac after the last engine work that counted it completed (R212). passed lists the lanes that a false guard took past an mma, with its packet and position (R289). -/
structure Warp where
  wg : Nat
  num : Nat
  core : Nat
  sched : Nat
  slot : Nat
  resident : Bool
  ended : Bool
  threads : List Thread
  flags : List (BitVec 6)
  signals : List Nat
  fpst : BitVec 5
  fpen : BitVec 5
  lxst : Word
  quota : Nat
  rejoin : List Rejoin
  queues : List (Nat × Binding)
  unreceived : Nat
  passed : List (DWord × Nat × Nat)
  sampling : Sampling
  deriving DecidableEq, Repr

/-! ## Grouping and launches (R136–R140, R279–R283) -/

/-- A workgroup; core is where it runs, local its allocation (R138, R173, R324). -/
structure Workgroup where
  gang : Nat
  wgid : Nat
  core : Nat
  s0 : Nat
  size : Nat
  localBase : Nat
  localSize : Nat
  warps : List Nat
  bound : Option (BitVec 4 × Nat × Nat)
  deriving DecidableEq, Repr

/-- Where a gang stands (R138, R380, R383); saving is a gang that SAVE holds while its operations complete. -/
inductive GangState where
  | placed | saving | saved | flushed | retired
  deriving DecidableEq, Repr

/-- A placed or saved gang; started is the fc of its start or last restore (R379). A saved gang keeps its accumulator
banks by workgroup and distance from s0 (4 × workgroup + distance), cntc by the scheduler that it was of (R384), and the
warps that held tokens (R381). -/
structure Gang where
  launch : Nat
  index : Nat
  state : GangState
  cluster : Nat
  wgs : List Nat
  started : Nat
  drainBy : Option Nat
  tiles : List (Nat × List (Nat × Word))
  cntc : List (Nat × Word)
  tokens : List Nat
  deriving DecidableEq, Repr

/-- Who submitted a launch (R280, R283, R344). -/
inductive Origin where
  | program | host | node (graph : BitVec 6) (run : Word) (node : Nat) | watch (wid : Word)
  | copy (group : BitVec 8)
  deriving DecidableEq, Repr

/-- An accepted launch: the fields of its packet (R279) and its progress (R281). -/
structure Launch where
  id : Nat
  owner : Tag
  vf : BitVec 6
  prio : Nat
  quota : Nat
  lmem : Nat
  wgsize : Nat
  gangl : Nat
  stage : Nat
  idem : Bool
  ngang : Nat
  done : DWord
  psize : Nat
  entry : DWord
  origin : Origin
  gen : Word
  nextGang : Nat
  retired : Nat
  killed : Bool
  complete : Bool
  held : Bool
  passedSince : Option Nat
  blocking : Bool
  deriving DecidableEq, Repr

/-- Where a node of a run stands (R283). -/
inductive NodeState where
  | waiting | running | done
  deriving DecidableEq, Repr

/-- The progress of one node in a run (R283). -/
structure NodeRun where
  state : NodeState
  signals : Nat
  back : Nat
  passes : Nat
  counted : Nat
  deriving DecidableEq, Repr

/-- A run of a graph (R282). -/
structure Run where
  number : Word
  nodes : List NodeRun
  ended : Bool
  failed : Bool
  deriving DecidableEq, Repr

/-- A resident graph: node table and successor array as bytes; and its errors as reported to system software, each by the run
and the node (R282). -/
structure Graph where
  owner : Tag
  vf : BitVec 6
  nodes : Nat
  succs : Nat
  image : List Byte
  runs : Nat
  reports : List (Word × Nat)
  run : Option Run
  deriving DecidableEq, Repr

/-! ## Work in flight (R25, R261, R273, R286) -/

/-- Where one lane of an operation stands (R370–R372); denied is one that the MMP refused and whose word reports it. -/
inductive LaneState where
  | going | held | written | done | refused | dead | denied
  deriving DecidableEq, Repr

/-- One lane of an operation: its address x, its place in storage once translated, the bytes it touches, the
page-table entry it translated by (0 in an untranslated space), and its data: the bytes of a store, the operands of an
atomic, or the bytes that a load takes from its own try buffer, each after its offset; priv when a privileged handler
issued it (R189); part counts the bytes already done of an access that crosses a stall boundary (R180). -/
structure LaneOp where
  lane : Nat
  addr : DWord
  loc : Option Nat
  size : Nat
  pte : Nat
  data : List Byte
  state : LaneState
  priv : Bool := false
  part : Nat := 0
  deriving DecidableEq, Repr

/-- What completes an operation. -/
inductive OpKind where
  | load | store | atomic | market | fe | page | engine | fixed
  deriving DecidableEq, Repr

/-- A register write that an operation makes when it completes. -/
structure RegWrite where
  lane : Nat
  reg : Nat
  value : Word
  deriving DecidableEq, Repr

/-- A long-latency operation (R25): the word, its group, the lanes, and when it is due; acks while invalidates of
read duplicates are not acknowledged (R179). -/
structure Op where
  id : Nat
  kind : OpKind
  ins : Instr
  pfx : Pfx
  warp : Nat
  pc : DWord
  pos : Nat
  lanes : List LaneOp
  flag : Option Nat
  issued : Nat
  due : Nat
  scope : BitVec 3
  fem : BitVec 2
  writes : List RegWrite
  push : Option (Nat × Nat)
  level : Nat
  sample : Bool
  acks : Bool
  deriving DecidableEq, Repr

/-- A command that an engine has received (R273); begun once its checks are made and it owns its lines (R210), group the
collective of a fabric group that it belongs to, by its number (R422). -/
structure Cmd where
  id : Nat
  port : Nat
  warp : Nat
  mask : Word
  words : List Word
  flag : Option Nat
  status : Option Nat
  bytes : Nat
  extra0 : Nat
  extra3 : Nat
  owned : List Nat
  pins : List Nat
  begun : Bool
  group : Option (BitVec 8 × Nat)
  deriving DecidableEq, Repr

/-- What a sequencer does (R286). -/
inductive MopWhat where
  | product | drainLocal | drainRegs | zero
  deriving DecidableEq, Repr

/-- Who a matrix operation reports to (R299, R306): the threads of S of an mma with the operations that count their
flags, an mdrain or mzero, or a command. -/
inductive MopFrom where
  | mma (lanes : Word) (ops : List Nat)
  | word (op : Nat)
  | cmd (id : Nat)
  deriving DecidableEq, Repr

/-- An operation that a sequencer has received (R286–R305): its control word and arguments, the parameter block once
copied, its STATUS so far, the row groups taken and those computed, the gates as taken, the operand bytes read, the accumulators before
it, and what it pins. waits while its block is not copied or a page of it is being serviced. -/
structure Mop where
  id : Nat
  sched : Nat
  warp : Nat
  what : MopWhat
  src : MopFrom
  ctl : Word
  args : List Word
  block : List Byte
  status : Nat
  taken : List Nat
  done : List Nat
  gates : List (Nat × BitVec 2)
  seen : List (Nat × Byte)
  before : List (Nat × Word)
  waits : Bool
  pins : List Nat
  due : Nat
  deriving DecidableEq, Repr

/-- A tap operation in progress (R342, R343, R350): the instance of its step run, the words of the descriptor as read at
receipt, the activation buffer, the ruled rows still to process, the bytes that it has written, and the operation or command
that it answers. -/
structure Tap where
  id : Nat
  inst : BitVec 4
  owner : Tag
  desc : List Word
  buf : DWord
  stride : Nat
  vector : Nat
  todo : List Nat
  ntrap : Nat
  nruled : Nat
  bytes : Nat
  op : Option Nat
  cmd : Option Nat
  deriving DecidableEq, Repr

/-- A pending watch (R344–R347): the row's gate vector and address, its length d, for each rule of the tap the values
f and f' of its feature, and the record of its handler's launch. -/
structure Watch where
  wid : Word
  inst : BitVec 4
  tkid : Nat
  row : Nat
  tap : Nat
  vector : Nat
  addr : DWord
  d : Nat
  vals : List (Nat × Word × Word)
  handler : Option Nat
  deriving DecidableEq, Repr

/-! ## Tickets and model instances (R311–R336) -/

/-- A staged update (R317): a TKUPD image of 256 bytes, or a tkwr chunk with the ENQSEQ it was staged for. -/
structure Staged where
  tkid : Nat
  chunk : Option Nat
  enqseq : Word
  bytes : List Byte
  deriving DecidableEq, Repr

/-- A key-value page that a ticket holds: layer and block (R320). -/
structure KvPage where
  page : Nat
  tkid : Nat
  layer : Nat
  block : Nat
  step : Nat
  swapped : Bool
  deriving DecidableEq, Repr

/-- Where the Barista stands in a step (R316). -/
inductive StepState where
  | idle | running
  deriving DecidableEq, Repr

/-- A model instance (R311): its parameters; the counters of R314; the updates staged for the next mark; the pages of its
pool and swap area that tickets hold; reservations; LASTTOK at the mark; tickets of a lost revolution (R430); tickets
retired and kept for their children (R323); whether the next step may begin (R316); and a removal in progress (R312). -/
structure Inst where
  owner : Tag
  nlayer : Nat
  maxslot : Nat
  rowbudget : Nat
  tkbase : Nat
  kvbase : DWord
  kvpages : Nat
  swapbase : DWord
  swappages : Nat
  board : Nat
  gatebase : Nat
  ngate : Nat
  rotbase : DWord
  stepgraph : BitVec 6
  mstep : DWord
  state : StepState
  created : Word
  admitted : Word
  staged : List Staged
  pages : List KvPage
  reserved : List (Nat × Nat)
  marks : List (Nat × Word)
  lost : List Nat
  kept : List Nat
  stepDone : Bool
  dirty : Bool
  removing : Option Bool
  reply : Option CmdHeader
  deriving DecidableEq, Repr

/-! ## Schedulers and counters (R140, R164, R397) -/

/-- A slot of a counter (R397). -/
structure CounterSlot where
  event : Nat
  value : BitVec 48
  te : BitVec 48
  tr : BitVec 48
  en : Bool
  ovi : Bool
  ovf : Bool
  deriving DecidableEq, Repr

/-- A counter (R397). -/
structure Counter where
  owner : Tag
  claimed : Bool
  slots : List CounterSlot
  deriving DecidableEq, Repr

/-- A scheduler (R140, R143, R359, R397). -/
structure Sched where
  token : Option Nat
  pipes : List (Nat × Nat)
  counters : List Counter
  nset : Nat
  rper : Nat
  act : Nat
  period : Nat
  tper : Nat
  frz : BitVec 8
  cntcVf : Option (BitVec 6)
  tick : Nat
  events : List (Nat × Tag × Nat)
  deriving DecidableEq, Repr

/-! ## Caches (R177–R181, R189, R27) -/

/-- An L1 line of a core: the bytes as cached, the ac of the first write of another agent that they miss, the ac of its
stale mark, which waits for the stores of its own core (R203), and its replacement priority (R193): 0 stream, 1 normal,
2 keep. -/
structure L1Line where
  core : Nat
  line : Nat
  bytes : List Byte
  since : Option Nat
  stale : Option Nat
  prio : Nat
  deriving DecidableEq, Repr

/-- What L2 or a stacked cache holds of a line (R178, R181, R182, R193): its slice, as 80 × die + slice; the owner that
tags it; whether it has yet to be written back, and from L2 through the stacked cache; whether it is a zero
line; and its replacement priority. -/
structure CacheLine where
  held : Bool
  home : Nat
  owner : Tag
  dirty : Bool
  back : Bool
  zero : Bool
  prio : Nat
  deriving DecidableEq, Repr

/-- A line that a cache does not hold. -/
def CacheLine.absent : CacheLine :=
  { held := false, home := 0, owner := 0, dirty := false, back := false, zero := false, prio := 0 }

/-- A cached translation: owner, 64 KiB page number, entry and its level (R189). -/
structure TlbEntry where
  owner : Tag
  page : Nat
  level : Nat
  pte : DWord
  deriving DecidableEq, Repr

/-- An instruction-cache line: the words as fetched (R27). -/
structure ICLine where
  core : Nat
  loc : Nat
  words : List Word
  deriving DecidableEq, Repr

/-! ## Management (R389–R396, R418–R447) -/

/-- The state of a key slot (R391). -/
inductive KeyState where
  | empty | loaded | revoking
  deriving DecidableEq, Repr

/-- An entry of the owner table (R391). The key is the plain blob of R443 as a number. -/
structure OwnerEntry where
  vf : Option (BitVec 6)
  kstate : KeyState
  key : Nat
  ptbase : Nat
  ucap : List Nat
  discard : Bool
  deriving DecidableEq, Repr

/-- A virtual function: its descriptor, and whether it is switched out (R384, R389). -/
structure Vf where
  desc : VfDesc
  out : Bool
  deriving DecidableEq, Repr

/-- A ring of the mailbox (R437). -/
structure Ring where
  base : DWord
  size : Nat
  prod : BitVec 16
  cons : BitVec 16
  deriving DecidableEq, Repr

/-- The mailbox of one function (R437, R438). -/
structure Mailbox where
  rings : List Ring
  lost : Word
  events : List (List Byte)
  outIndex : Word
  deriving DecidableEq, Repr

/-- A stop request in progress (R378–R383): the gangs still to halt, in order; the command that it answers, or for a
world switch the virtual function to be switched in afterwards (R384). -/
structure Stop where
  job : StopJob
  mode : StopMode
  drainMax : Nat
  todo : List Nat
  halted : Nat
  reply : Option CmdHeader
  switch : Option (Option (BitVec 6))
  deriving DecidableEq, Repr

/-- A fabric group (R422, R429); reply is the replicated launch submitted here whose start barrier is open (R420). -/
structure Group where
  owner : Tag
  members : List (BitVec 6)
  ring : Bool
  dl : Nat
  inst : BitVec 4
  slot0 : Nat
  nslots : Nat
  next : Nat
  gen : Word
  broken : Bool
  abandoned : Bool
  closed : Bool
  started : Option Nat
  first : List (Nat × Nat)
  numbered : List Nat
  reply : Option CmdHeader
  deriving DecidableEq, Repr

/-- Device configuration (R446) and the state of the domain (R418). -/
structure DevConfig where
  applied : Bool
  mailbox : Bool
  pkg : BitVec 6
  domsz : BitVec 7
  treeBase : Nat
  treeSize : Nat
  locked : Bool
  joined : Bool
  deriving DecidableEq, Repr

/-- Bring-up, confidential mode, firmware, scrub and power (R431–R433, R395, R396, R440, R447). -/
structure Boot where
  phase : Nat
  ready : Bool
  safe : Bool
  conf : Bool
  confReq : Bool
  thermal : Bool
  hot : Bool
  clock : Nat
  boots : Nat
  scrub : Bool
  scrubSeq : Nat
  clean : Bool
  receipts : List (List Byte)
  found : List Nat
  retired : List Nat
  images : List (Bool × List Byte)
  limit : Nat
  deriving DecidableEq, Repr

/-- A resource that a page of an owner uses: unbacked reservations by owner and die (R195). -/
structure Reservation where
  owner : Tag
  die : Nat
  units : Nat
  deriving DecidableEq, Repr

/-- A charged unbacked page: owner, 64 KiB page number of its address, home die (R194). -/
structure Charged where
  owner : Tag
  page : Nat
  die : Nat
  deriving DecidableEq, Repr

/-! ## The issue context (the model's own) -/

/-- A trap to take: cause, resume address, PC reported, and the lanes of its report (R359–R365). -/
structure TrapInfo where
  cause : Nat
  late : Bool := false
  tval : Word
  epc : DWord
  pc : DWord
  va : DWord := 0
  lanes : Word
  deriving DecidableEq, Repr

/-- The group that issues: its warp, its lanes, the packet, the words issued, the warp as the chain found it (R22), and
the number that the first operation of the chain takes. traps lists the lanes that took a precise trap at a word of the chain, stay those that the word holds;
raised gathers the IEEE flags of the chain (R88). -/
structure Issue where
  warp : Nat
  lanes : List Nat
  pc : DWord
  chain : Nat
  pos : Nat
  pfx : Pfx
  header : Word
  old : Warp
  firstOp : Nat
  fpen : BitVec 5
  traps : List (Nat × TrapInfo)
  stay : List Nat
  raised : BitVec 5
  deriving DecidableEq, Repr

/-- The state of one package. -/
structure State where
  /-- ac since the package left reset (R12, cycl and cych). -/
  ac : Nat
  /-- fc since the package left reset, and the part of an fc gathered so far (R5). -/
  fc : Nat
  fcPart : Nat
  /-- Every byte that the machine or its host stores, by place (Machine/Ops.lean, Loc). -/
  mem : List (Nat × Byte)
  /-- The FE bit of each core-local granule (R174): listed when FULL. -/
  fe : List (Nat × Bool)
  /-- The owner tag of each Market granule, plus one; 0 is UNASSIGNED (R180). -/
  mktTag : List (Nat × Nat)
  /-- Accumulators, by scheduler, tile, row and column (R285). -/
  tiles : List (Nat × Word)
  /-- Lines with an uncorrectable memory error (R368). -/
  bad : List (Nat × Bool)
  /-- The key under which each written physical line stands, plus one (R392, R393). -/
  lineKey : List (Nat × Nat)
  l1 : List L1Line
  l2 : List (Nat × CacheLine)
  sc : List (Nat × CacheLine)
  /-- Read duplicates (R179), by 4 × line + the die that holds one. -/
  dups : List (Nat × CacheLine)
  /-- The ac after an engine last wrote each Market word (R212). -/
  signalled : List (Nat × Nat)
  tlb : List TlbEntry
  icache : List ICLine
  /-- I/O virtual pages that the ATC holds, and those that the host refuses (R185). -/
  atc : List (Nat × Bool)
  hostRefuses : List (Nat × Bool)
  /-- Pin counts of pages, by place of the page (R277). -/
  pins : List (Nat × Nat)
  /-- Attached capacity of CXL port p (R183). -/
  hdm : List Nat
  reserved : List Reservation
  charged : List Charged
  /-- LPDDR-6 frames the MMP has handed out itself (R196). -/
  lateFrames : List Nat
  warps : List (Nat × Warp)
  wgs : List (Nat × Workgroup)
  gangs : List (Nat × Gang)
  launches : List (Nat × Launch)
  /-- The launch counter of R280, the cluster of the last placement (R281), and the next record number. -/
  launchCount : BitVec 24
  lastCluster : Nat
  nextId : Nat
  scheds : List (Nat × Sched)
  ops : List Op
  cmds : List Cmd
  mops : List Mop
  taps : List Tap
  watches : List Watch
  graphs : List (Nat × Graph)
  insts : List (Nat × Inst)
  owners : List (Nat × OwnerEntry)
  vfs : List (Nat × Vf)
  config : DevConfig
  boot : Boot
  boxes : List (Nat × Mailbox)
  semaphores : List (Option Bool)
  stops : List Stop
  groups : List (Nat × Group)
  /-- The retries that each Ferhar link has counted (R418). -/
  linkRetries : List (Nat × Nat)
  /-- The owner tags LOADED in other packages, by package and tag (R419). -/
  remoteLoaded : List (Nat × Bool)
  /-- Interrupts raised, oldest first: the function and the vector (R400, R437). -/
  irqs : List (HostFn × Nat)
  /-- Key loads held until their slot is EMPTY (R394). -/
  heldLoads : List (CmdHeader × Tag × List Byte)
  /-- The value that the last BAR 0 read returned (R436). -/
  barRead : Word
  /-- The model's own: what moves next, oldest first; schedulers still to serve in this ac; the latched bundle and
  its group; the numbers of the next free values; and the choices that the spec leaves open. -/
  agenda : List Instr
  turns : List Nat
  bundle : List Slot
  cur : Issue
  free : Nat
  choices : List Bool
  delays : List Nat
  deriving DecidableEq, Repr

/-! ## Outcomes -/

/-- Why the machine stops. -/
inductive Fault where
  /-- Raised by no step: the spec gives every access to a place that does not exist an exception of its own, which
  is taken (safe). -/
  | noSuchPlace
  deriving DecidableEq, Repr

/-- Why an instruction has no meaning here. -/
inductive Refusal where
  /-- Raised by an arm of exec whose instruction is not modelled (safe). -/
  | notModelled (mnemonic : String)
  deriving DecidableEq, Repr

/-! ## Reset -/

/-- A lane with no thread (R137). -/
def Thread.empty : Thread :=
  { life := .empty, regs := [], preds := 0, pc := 0, pos := 1, line := [], entered := false, lk := 0, mt := 0
    hold := .none, lastIssue := 0, notBefore := 0, busy := [], late := [], priv := false, epc := 0, tcause := 0, tval := 0
    pend := [], tabc := 0, tusr := 0, tfa := 0, region := none, aborting := none, acqUpTo := 0, acqScope := 0, relUpTo := []
    fresh := 0, order := none }

/-- A record of a warp that does not exist: ended, with no thread. -/
def Warp.none : Warp :=
  { wg := 0, num := 0, core := 0, sched := 0, slot := 0, resident := false, ended := true
    threads := List.replicate 32 Thread.empty, flags := List.replicate 12 0, signals := List.replicate 12 0, fpst := 0, fpen := 0, lxst := 0
    quota := 0, rejoin := [], queues := [], unreceived := 0, passed := []
    sampling := { base := 0, entries := 0, on := false, shift := 0, seen := 0, next := 0 } }

/-- Thread of a lane. -/
def Warp.thread (w : Warp) (l : Nat) : Thread := w.threads.getD l Thread.empty

/-- The issue context when no group issues. -/
def Issue.none : Issue :=
  { warp := 0, lanes := [], pc := 0, chain := 1, pos := 1, pfx := .none, header := 0, old := Warp.none, firstOp := 0
    fpen := 0, traps := [], stay := [], raised := 0 }

/-- A slot that counts nothing (R404, Reset). -/
def CounterSlot.clear : CounterSlot :=
  { event := 0, value := 0, te := 0, tr := 0, en := false, ovi := false, ovf := false }

/-- An unclaimed counter. -/
def Counter.clear : Counter := { owner := 0, claimed := false, slots := List.replicate 4 CounterSlot.clear }

/-- A scheduler after reset (R143, R359, R434): the token free, no counter claimed, NSET 1, cntc 0. -/
def Sched.clear : Sched :=
  { token := none, pipes := [], counters := List.replicate 8 Counter.clear, nset := 1, rper := 0, act := 0
    period := 0, tper := 0, frz := 0, cntcVf := none, tick := 0, events := [] }

/-- An owner-table entry after reset (R391). -/
def OwnerEntry.clear : OwnerEntry :=
  { vf := none, kstate := .empty, key := 0, ptbase := 0, ucap := [0, 0, 0, 0], discard := false }

/-- A disabled ring (R437). -/
def Ring.clear : Ring := { base := 0, size := 0, prod := 0, cons := 0 }

/-- The mailbox of a function after reset (R437). -/
def Mailbox.clear : Mailbox := { rings := List.replicate 4 Ring.clear, lost := 0, events := [], outIndex := 0 }

/-- Configuration after reset (R434): to be configured. -/
def DevConfig.clear : DevConfig :=
  { applied := false, mailbox := false, pkg := 0, domsz := 0, treeBase := 0, treeSize := 0, locked := false
    joined := false }

/-- Bring-up at power-on (R431, R440): phase 1, nothing reported. -/
def Boot.clear : Boot :=
  { phase := 1, ready := false, safe := false, conf := false, confReq := false, thermal := false, hot := false
    clock := 4000, boots := 0, scrub := false, scrubSeq := 0, clean := false, receipts := [], found := []
    retired := [], images := [], limit := 3000000 }

/-- The package right after power-on reset (R431, R434, R391, R440): every cache, queue, counter and table clear,
every Market granule UNASSIGNED, bring-up in phase 1 and about to run.
DESIGN CHOICE (log 1). DESIGN CHOICE (log 7). PRESUMED (log 53). -/
def State.reset : State :=
  { ac := 0, fc := 0, fcPart := 0, mem := [], fe := [], mktTag := [], tiles := [], bad := [], lineKey := []
    l1 := [], l2 := [], sc := [], dups := [], signalled := [], tlb := [], icache := [], atc := [], hostRefuses := [], pins := []
    hdm := List.replicate 8 0, reserved := [], charged := [], lateFrames := [], warps := [], wgs := []
    gangs := [], launches := [], launchCount := 0, lastCluster := 31, nextId := 0, scheds := [], ops := []
    cmds := [], mops := [], taps := [], watches := [], graphs := [], insts := [], owners := [], vfs := []
    config := DevConfig.clear, boot := Boot.clear, boxes := [], semaphores := List.replicate 16 none, stops := []
    groups := [], linkRetries := [], remoteLoaded := [], irqs := [], heldLoads := [], barRead := 0
    agenda := [.powerOn], turns := [], bundle := [], cur := Issue.none, free := 0, choices := [], delays := [] }

end Sys2Proof.Machine
end

