-- ==== Sys2Proof/Machine/Shape.lean ====
section
/-! DEFINITION. What issue must know of each word before it runs: pipe, registers and predicates read and written,
latency, occupancy, guard and flag select (R22–R26, R97, R226 and the timing table of each chapter). -/

namespace Sys2Proof.Machine

/-- The pipes of R23; none for nop. -/
inductive Pipe where
  | none | I | X | M | C | E
  deriving DecidableEq, Repr

/-- The number under which a scheduler files a pipe. -/
def Pipe.num : Pipe → Nat
  | .none => 0 | .I => 1 | .X => 2 | .M => 3 | .C => 4 | .E => 5

/-- The pipe of a major (R52). -/
def pipeOfMajor (n : Nat) : Pipe :=
  if n = 0 ∨ n = 11 ∨ n = 12 ∨ n = 17 then .C
  else if n = 8 then .X
  else if 13 ≤ n ∧ n ≤ 16 then .M
  else if n = 18 ∨ n = 19 ∨ n = 20 ∨ n = 21 ∨ n = 22 ∨ n = 23 ∨ n = 24 ∨ n = 27 then .E
  else if n < 28 then .I else .none

/-- What issue must know of a word. breg is the B operand, which an IMM24 prefix replaces (R59, R61). -/
structure Shape where
  pipe : Pipe := .I
  reads : List Nat := []
  breg : Option Nat := none
  preads : List Nat := []
  writes : List Nat := []
  pwrites : List Nat := []
  lat : Nat := 4
  occ : Nat := 1
  long : Bool := false
  fs : Bool := false
  guard : Option Guard := none
  deriving Repr

/-- The codes from r, n of them. -/
def span (r : Reg) (n : Nat) : List Nat := List.range' r.toNat n

/-- The code of a member-mask register; live reads none (R69). -/
def maskCode (m : Reg) : List Nat := if m.toNat < 112 then [m.toNat] else []

/-- The predicates that a special register holds: pred is p0–p6 (R12). -/
def predIx (r : Reg) : List Nat := if r.toNat = 8 then List.range 7 else []

/-- The registers that a load of width FN writes (R70, R132). -/
def loadSpan (fn : BitVec 4) (t : Reg) : List Nat :=
  span t (match fn.toNat with | 5 => 2 | 6 => 4 | _ => 1)

/-- The registers that a store of width FN reads. -/
def storeSpan (fn : BitVec 4) (t : Reg) : List Nat :=
  span t (match fn.toNat with | 3 => 2 | 4 => 4 | _ => 1)

/-- d from a and b, B replaceable. -/
def Shape.rrb (d a b : Reg) (lat : Nat := 4) (occ : Nat := 1) : Shape :=
  { reads := span a 1, breg := some b.toNat, writes := span d 1, lat := lat, occ := occ }
/-- d from d, a and b, B replaceable. -/
def Shape.rrdb (d a b : Reg) (lat : Nat := 4) : Shape :=
  { reads := span d 1 ++ span a 1, breg := some b.toNat, writes := span d 1, lat := lat }
/-- d from a. -/
def Shape.ra (d a : Reg) : Shape := { reads := span a 1, writes := span d 1 }
/-- d from a and b. -/
def Shape.rr (d a b : Reg) : Shape := { reads := span a 1 ++ span b 1, writes := span d 1 }
/-- d from d, a and b. -/
def Shape.rrd (d a b : Reg) : Shape := { reads := span d 1 ++ span a 1 ++ span b 1, writes := span d 1 }
/-- A transcendental. -/
def Shape.xfn (d a : Reg) : Shape := { pipe := .X, reads := span a 1, writes := span d 1, lat := 12, occ := 4 }
/-- A conversion, with V[A+1] under stochastic rounding. -/
def Shape.cvt (d a : Reg) (r : BitVec 3) : Shape :=
  { reads := span a (if r.toNat = 4 then 2 else 1), writes := span d 1 }
/-- A collective. -/
def Shape.coll (reads writes preads pwrites : List Nat) (lat : Nat) : Shape :=
  { pipe := .C, reads := reads, writes := writes, preads := preads, pwrites := pwrites, lat := lat }
/-- A long-latency word of the M pipe. -/
def Shape.mem (g : Guard) (fs : Bool) (reads writes : List Nat) : Shape :=
  { pipe := .M, reads := reads, writes := writes, long := true, fs := fs, guard := some g }
/-- A long-latency word of the E pipe. -/
def Shape.eng (g : Guard) (fs : Bool) (reads writes : List Nat) : Shape :=
  { pipe := .E, reads := reads, writes := writes, long := true, fs := fs, guard := some g }
/-- A fixed-latency word of the E pipe. -/
def Shape.efix (g : Guard) (reads writes : List Nat) (lat : Nat) : Shape :=
  { pipe := .E, reads := reads, writes := writes, lat := lat, guard := some g }
/-- A word of the C pipe with a guard. -/
def Shape.ctl (g : Guard) (reads writes : List Nat) : Shape :=
  { pipe := .C, reads := reads, writes := writes, lat := 0, guard := some g }

open Shape in
/-- The shape of each word; a step of the machine has none of it. -/
def shapeOf : Instr → Shape
  | .nop _ => { pipe := .none, lat := 0, occ := 0 }
  | .sget _ d a => { pipe := .C, writes := span d 1, preads := predIx a }
  | .sset _ d a => { pipe := .C, reads := span a 1, lat := 0, pwrites := predIx d }
  | .fwait _ _ | .yield _ | .brk _ _ | .trap _ _ => { pipe := .C, lat := 0 }
  | .add _ d a b | .sub _ d a b | .and _ d a b | .or _ d a b | .xor _ d a b | .andn _ d a b
  | .shl _ d a b | .shr _ d a b | .sra _ d a b | .rotl _ d a b | .min _ d a b | .max _ d a b
  | .minu _ d a b | .maxu _ d a b | .bfe _ d a b | .bfx _ d a b => rrb d a b
  | .bfi _ d a b | .prmb _ d a b => rrdb d a b
  | .abs _ d a | .clz _ d a | .popc _ d a | .brev _ d a => ra d a
  | .addi _ d a _ | .andi _ d a _ | .ori _ d a _ | .xori _ d a _
  | .shli _ d a _ | .shri _ d a _ | .srai _ d a _ => ra d a
  | .mul _ d a b | .mulhi _ d a b | .mulhiu _ d a b => rrb d a b 6
  | .mad _ d a b => rrdb d a b 6
  | .divu _ d a b | .remu _ d a b => rrb d a b 24 4
  | .lil _ d _ => { writes := span d 1 }
  | .lih _ d _ => { reads := span d 1, writes := span d 1 }
  | .adpc _ d _ => { writes := span d 2 }
  | .fadd _ _ d a b | .fsub _ _ d a b | .fmul _ _ d a b | .hadd2 _ _ d a b | .hmul2 _ _ d a b
  | .badd2 _ _ d a b | .bmul2 _ _ d a b | .fmin _ d a b | .fmax _ d a b => rr d a b
  | .fneg _ d a | .fabs _ d a => ra d a
  | .ffma _ _ d a b | .ffms _ _ d a b | .hfma2 _ _ d a b | .bfma2 _ _ d a b
  | .hdot2 _ _ d a b => rrd d a b
  | .cvtF32ToNarrow _ _ d a r _ | .cvtF16Bf16 _ _ d a r _ | .cvtF16ToFp8 _ _ d a r _ => cvt d a r
  | .cvtNarrowToF32 _ _ d a | .cvtF32ToInt _ _ d a _ _ | .cvtIntToF32 _ _ d a _ | .frnd _ d a _ => ra d a
  | .pack2F16 _ d a _ _ | .pack2Bf16 _ d a _ _ => { reads := span a 2, writes := span d 1 }
  | .exp2 _ d a | .log2 _ d a | .rcp _ d a | .rsq _ d a | .sqrt _ d a | .sin _ d a | .cos _ d a
  | .tanh _ d a => xfn d a
  | .icmp _ _ p a b | .icmpu _ _ p a b => { reads := span a 1, breg := some b.toNat, pwrites := [p.toNat] }
  | .fcmp _ _ p a b | .fclass _ p a b => { reads := span a 1 ++ span b 1, pwrites := [p.toNat] }
  | .plop _ p _ pa pb => { preads := [pa.toNat, pb.toNat], pwrites := [p.toNat] }
  | .sel _ n d a b => { reads := span a 1, breg := some b.toNat, preads := [n.toNat], writes := span d 1 }
  | .mov _ d b => { breg := some b.toNat, writes := span d 1 }
  | .movp _ d b => { reads := span b 2, writes := span d 2 }
  | .pmov _ p a => { reads := span a 1, pwrites := [p.toNat] }
  | .br _ g _ | .call _ g _ | .ret _ g | .exit _ g | .meet _ g _ | .unmeet _ g _ => ctl g [] []
  | .brx _ g a | .callx _ g a => ctl g (span a 2) []
  | .voteAnd _ p pa m | .voteOr _ p pa m | .voteSame _ p pa m => coll (maskCode m) [] [pa.toNat] [p.toNat] 4
  | .ballot _ d pa m => coll (maskCode m) (span d 1) [pa.toNat] [] 4
  | .shflLane _ d a m | .shflRot _ d a m | .shflOff _ d a m | .shflSwap _ d a m =>
    coll (span d 1 ++ span a 1 ++ maskCode m) (span d 1) [] [] 6
  | .gredAdd _ d a m | .gredMin _ d a m | .gredMax _ d a m | .gscan _ d a m =>
    coll (span a 1 ++ maskCode m) (span d 1) [] [] 10
  | .gredArgmin _ d a m | .gredArgmax _ d a m => coll (span a 1 ++ maskCode m) (span d 2) [] [] 10
  | .matchEq _ d a m => coll (span a 1 ++ maskCode m) (span d 1) [] [] 6
  | .elect _ p m => coll (maskCode m) [] [] [p.toNat] 4
  | .regq _ d a m => coll (span a 1 ++ maskCode m) (span d 1) [] [] 16
  | .prio _ d a m => coll (span a 1 ++ maskCode m) (span d 1) [] [] 4
  | .ld _ g fs fn t a | .ldl _ g fs fn t a | .ldlGang _ g fs fn t a | .ldm _ g fs fn t a
  | .ldc _ g fs fn t a => mem g fs (span a 2) (loadSpan fn t)
  | .st _ g fs fn t a | .stl _ g fs fn t a | .stlGang _ g fs fn t a | .stm _ g fs fn t a =>
    mem g fs (span a 2 ++ storeSpan fn t) []
  | .atom _ g fs fn t a | .atoml _ g fs fn t a | .atomGang _ g fs fn t a | .atomMkt _ g fs fn t a =>
    let ts := span t (if fn.toNat = 10 then 2 else 1)
    mem g fs (span a 2 ++ ts) ts
  | .cas _ g fs _ t a => mem g fs (span a 2 ++ span t 2) (span t 1)
  | .casB64 _ g fs _ t a => mem g fs (span a 2 ++ span t 4) (span t 2)
  | .madd _ g fs t a => mem g fs (span a 2 ++ span t 4) []
  | .mamax _ g fs t a | .mscale _ g fs t a => mem g fs (span a 2 ++ span t 1) (span t 1)
  | .mred _ g fs t a => mem g fs (span a 2 ++ span t 1) (span t 2)
  | .bar _ g _ | .gbar _ g _ | .fenceAcq _ g _ | .fenceRel _ g _ | .fenceAr _ g _ => ctl g [] []
  | .feset _ g fs _ a _ | .feclr _ g fs _ a _ =>
    { pipe := .C, reads := span a 2, long := true, fs := fs, guard := some g }
  | .fepoll _ g fs d a _ =>
    { pipe := .C, reads := span a 2, writes := span d 1, long := true, fs := fs, guard := some g }
  | .tryOpen _ g cnt _ n => efix g (span n (cnt.toNat + 1)) [] 4
  | .commit _ g _ | .tabort _ g _ => efix g [] [] 4
  | .tstat _ g d => efix g [] (span d 1) 4
  | .qbind _ g d a => efix g (span a 4) (span d 1) 8
  | .qstat _ g d _ => efix g [] (span d 1) 4
  | .qflush _ g fs d _ _ => eng g fs [] (span d 1)
  | .launch _ g fs d a | .gsignal _ g fs d a => eng g fs (span a 2) (span d 1)
  | .mma _ g fs m a => eng g fs (span a 1 ++ maskCode m) []
  | .mdrainL _ g fs a => eng g fs (span a 4) []
  | .mdrainR _ g fs d a => eng g fs (span a 1) (span d 8)
  | .mzero _ g fs a => eng g fs (span a 1) []
  | .tap _ g fs d a | .fdec _ g fs d a => eng g fs (span a 8) (span d 1)
  | .fget _ g fs d a | .frd _ g fs d a => eng g fs (span a 2) (span d 2)
  | .fwr _ g fs d a => eng g fs (span a 3) (span d 1)
  | .frel _ g fs d a => eng g fs (span a 2) (span d 1)
  | .tkrd _ g fs d a => eng g fs (span a 1) (span d 8)
  | .tkwr _ g fs d a => eng g fs (span a 9) (span d 1)
  | .tkappend _ g fs d a | .kvmap _ g fs d a => eng g fs (span a 3) (span d 2)
  | .tktrunc _ g fs d a | .tkfork _ g fs d a => eng g fs (span a 3) (span d 1)
  | .tkret _ g fs d a => eng g fs (span a 2) (span d 1)
  | .rot _ g fs d a => eng g fs (span a 4) (span d 2)
  | .pres _ g fs d a | .prel _ g fs d a => eng g fs (span a 1) (span d 1)
  | .pdisc _ g fs d a | .pmig _ g fs d a => eng g fs (span a 2 ++ span d 1) []
  | .pflush _ g fs d a _ => eng g fs (span a 2 ++ span d 1) []
  | .rfe _ g | .killG _ g | .killL _ g => efix g [] [] 4
  | .killW _ g a => efix g (span a 1) [] 4
  | .tlbinv _ g fs d a | .icinv _ g fs d a => eng g fs (span a 2 ++ span d 1) []
  | .tlbinvOwn _ g fs | .tlbinvAll _ g fs | .icinvAll _ g fs => eng g fs [] []
  | .cntsel _ g d a | .cntselRot _ g d a => efix g (span a 1) (span d 1) 8
  | .cntselRd _ g d a => efix g (span a 1) (span d 2) 8
  | .cntselSmp _ g d a => efix g (span a 4) (span d 1) 8
  | .qblk _ g d a x =>
    { reads := span a (if x.toNat = 0 then 32 else 16), writes := span d 5, lat := 16, occ := 4, guard := some g }
  | .dqblk _ g d a x =>
    { reads := span a 5, writes := span d (if x.toNat = 0 then 32 else 16), lat := 8, occ := 2, guard := some g }
  | .qfp8 _ g d a x =>
    { reads := span a (if x.getLsbD 1 then 6 else 5), writes := span d 1, guard := some g }
  | .add64 _ d a b | .sub64 _ d a b =>
    { reads := span a 2 ++ span b 2, writes := span d 2 }
  | .shl64 _ d a b | .shr64 _ d a b => { reads := span a 2, breg := some b.toNat, writes := span d 2 }
  | .madw _ d a b => { reads := span d 2 ++ span a 1 ++ span b 1, writes := span d 2, lat := 6 }
  | .sext64 _ d a => { reads := span a 1, writes := span d 2 }
  | .dsel _ g fs d a => eng g fs (span a 8) (span d 2)
  | .rng _ g fs d a => eng g fs (span a 2) (span d 2)
  | .rngk _ g d a => efix g (span a 4) (span d 2) 8
  | _ => { pipe := .none, lat := 0, occ := 0 }

/-- The chain bit of a word (R20). -/
def chainsOf (i : Instr) : Bool := bitC (encode i)

/-- The register codes that a word reads, with its prefix. -/
def readsWith (i : Instr) (p : Pfx) : List Nat :=
  match p with
  | .imm24 _ => if ((shapeOf i).breg).isSome then (shapeOf i).reads else
      match i with
      | .add64 _ _ a _ | .sub64 _ _ a _ => span a 2
      | _ => (shapeOf i).reads
  | _ => (shapeOf i).reads ++ (shapeOf i).breg.toList

/-- The predicates that a word writes, with its prefix (R59, QP). -/
def pwritesWith (i : Instr) (p : Pfx) : List Nat :=
  match p with
  | .qnb qp true => (shapeOf i).pwrites ++ [qp.toNat]
  | _ => (shapeOf i).pwrites

/-- The predicates that a word reads, its guard among them. -/
def predReads (i : Instr) : List Nat :=
  (shapeOf i).preads ++ (match (shapeOf i).guard with | some g => [g.pg.toNat] | none => [])

end Sys2Proof.Machine
end

