-- ==== Sys2Proof/Machine/Base.lean ====
section
/-! DEFINITION. The ground of every meaning: the places of storage, the effects that a step is made of, and the
readers of State. A meaning can change State only through an effect (Act for the instruction words and the machine's
own steps, Sys besides for management), so what a step can do is said once, in Act.apply and Sys.apply. -/

namespace Sys2Proof.Machine

/-! ## Places of storage (R172, R183, R192)

One map holds every byte. Each space has a range of keys of its own. -/

/-- A physical address of the domain, 52 bits (R183). -/
def physLoc (pa : Nat) : Nat := pa % 2 ^ 52
/-- A byte of host memory, by its host address (R185). -/
def hostLoc (a : Nat) : Nat := 2 ^ 64 + a % 2 ^ 64
/-- A byte of an unbacked page, by owner and virtual address (R194). -/
def unbackedLoc (owner : Nat) (va : Nat) : Nat := 2 ^ 80 + owner % 4096 * 2 ^ 64 + va % 2 ^ 57
/-- A byte of Market memory (R180). -/
def marketLoc (x : Nat) : Nat := 2 ^ 84 + x % 2 ^ 27
/-- A byte of the core-local allocation of a workgroup, by the workgroup's record (R173). -/
def localLoc (wg off : Nat) : Nat := 2 ^ 128 * (2 * wg + 1) + off % 2 ^ 20
/-- A byte of the parameter space of a launch, by its record (R280). -/
def paramLoc (launch off : Nat) : Nat := 2 ^ 128 * (2 * launch + 2) + off % 2 ^ 13

/-- The 128-byte line of a place. -/
def lineOf (loc : Nat) : Nat := loc / 128
/-- The FE granule of a core-local place (R174). -/
def granuleOf (loc : Nat) : Nat := loc / 16
/-- An accumulator's key: scheduler, tile, row, column (R285). -/
def tileKey (sched tile row col : Nat) : Nat := ((sched * 64 + tile) * 16 + row) * 16 + col

/-! ## Bytes and words (R2) -/

/-- The value of bytes, little-endian. -/
def leNat : List Byte → Nat
  | [] => 0
  | b :: bs => b.toNat + 256 * leNat bs

/-- n bytes of a value, little-endian. -/
def leBytes : Nat → Nat → List Byte
  | 0, _ => []
  | n + 1, v => BitVec.ofNat 8 v :: leBytes n (v / 256)

/-- The bytes of a word. -/
def wordBytes (w : Word) : List Byte := leBytes 4 w.toNat
/-- A word from bytes. -/
def bytesWord (bs : List Byte) : Word := BitVec.ofNat 32 (leNat bs)
/-- The low half of a 64-bit value. -/
def lo32 (x : DWord) : Word := x.extractLsb' 0 32
/-- The high half. -/
def hi32 (x : DWord) : Word := x.extractLsb' 32 32
/-- A pair, low word first (R7). -/
def cat64 (hi lo : Word) : DWord := hi ++ lo
/-- The bits [hi:lo] of a number. -/
def bits (v hi lo : Nat) : Nat := v / 2 ^ lo % 2 ^ (hi - lo + 1)
/-- Word i of a list of words; zero past its end. -/
def wordAt (ws : List Word) (i : Nat) : Word := ws.getD i 0
/-- Bit i of a lane mask. -/
def laneBit (m : Word) (i : Nat) : Bool := m.getLsbD i
/-- The mask of a list of lanes. -/
def maskOf (ls : List Nat) : Word := ls.foldl (fun m l => m ||| BitVec.ofNat 32 (2 ^ l)) 0
/-- The lanes of a mask, ascending. -/
def lanesOf (m : Word) : List Nat := (List.range 32).filter (laneBit m)

/-! ## Effects -/

/-- The effects of an instruction word or of a step of the machine. -/
inductive Act where
  | store (loc : Nat) (b : Byte)
  | clearMem (lo hi : Nat)
  | fe (g : Nat) (full : Bool)
  | clearFe (lo hi : Nat)
  | tile (k : Nat) (v : Word)
  | clearTiles (lo hi : Nat)
  | bad (line : Nat) (b : Bool)
  | lineKey (line : Nat) (k : Nat)
  | l1 (v : List L1Line)
  | l2 (line : Nat) (c : CacheLine)
  | sc (line : Nat) (c : CacheLine)
  | dup (k : Nat) (c : CacheLine)
  | signalled (w : Nat) (n : Nat)
  | tlb (v : List TlbEntry)
  | icache (v : List ICLine)
  | atc (page : Nat) (b : Bool)
  | pin (page : Nat) (n : Nat)
  | reserved (v : List Reservation)
  | charged (v : List Charged)
  | lateFrames (v : List Nat)
  | warp (i : Nat) (w : Warp)
  | wg (i : Nat) (w : Workgroup)
  | gang (i : Nat) (g : Gang)
  | launch (i : Nat) (l : Launch)
  | launchCount (n : BitVec 24)
  | lastCluster (n : Nat)
  | nextId (n : Nat)
  | sched (i : Nat) (x : Sched)
  | ops (v : List Op)
  | cmds (v : List Cmd)
  | mops (v : List Mop)
  | taps (v : List Tap)
  | watches (v : List Watch)
  | graph (i : Nat) (g : Graph)
  | inst (i : Nat) (x : Inst)
  | group (i : Nat) (g : Group)
  | box (i : Nat) (b : Mailbox)
  | stops (v : List Stop)
  | irq (f : HostFn) (v : Nat)
  | agenda (v : List Instr)
  | turns (v : List Nat)
  | bundle (v : List Slot)
  | cur (c : Issue)
  | free (n : Nat)
  | choices (v : List Bool)
  | delays (v : List Nat)

/-- What an effect does. -/
def Act.apply : Act → State → State
  | .store l b, s => { s with mem := Cells.set 0 s.mem l b }
  | .clearMem lo hi, s => { s with mem := Cells.clear s.mem lo hi }
  | .fe g b, s => { s with fe := Cells.set false s.fe g b }
  | .clearFe lo hi, s => { s with fe := Cells.clear s.fe lo hi }
  | .tile k v, s => { s with tiles := Cells.set 0 s.tiles k v }
  | .clearTiles lo hi, s => { s with tiles := Cells.clear s.tiles lo hi }
  | .bad k b, s => { s with bad := Cells.set false s.bad k b }
  | .lineKey k v, s => { s with lineKey := Cells.set 0 s.lineKey k v }
  | .l1 v, s => { s with l1 := v }
  | .l2 k c, s => { s with l2 := Cells.set CacheLine.absent s.l2 k c }
  | .sc k c, s => { s with sc := Cells.set CacheLine.absent s.sc k c }
  | .dup k c, s => { s with dups := Cells.set CacheLine.absent s.dups k c }
  | .signalled k n, s => { s with signalled := Cells.set 0 s.signalled k n }
  | .tlb v, s => { s with tlb := v }
  | .icache v, s => { s with icache := v }
  | .atc k b, s => { s with atc := Cells.set false s.atc k b }
  | .pin k n, s => { s with pins := Cells.set 0 s.pins k n }
  | .reserved v, s => { s with reserved := v }
  | .charged v, s => { s with charged := v }
  | .lateFrames v, s => { s with lateFrames := v }
  | .warp i w, s => { s with warps := Keyed.put s.warps i w }
  | .wg i w, s => { s with wgs := Keyed.put s.wgs i w }
  | .gang i g, s => { s with gangs := Keyed.put s.gangs i g }
  | .launch i l, s => { s with launches := Keyed.put s.launches i l }
  | .launchCount n, s => { s with launchCount := n }
  | .lastCluster n, s => { s with lastCluster := n }
  | .nextId n, s => { s with nextId := n }
  | .sched i x, s => { s with scheds := Keyed.put s.scheds i x }
  | .ops v, s => { s with ops := v }
  | .cmds v, s => { s with cmds := v }
  | .mops v, s => { s with mops := v }
  | .taps v, s => { s with taps := v }
  | .watches v, s => { s with watches := v }
  | .graph i g, s => { s with graphs := Keyed.put s.graphs i g }
  | .inst i x, s => { s with insts := Keyed.put s.insts i x }
  | .group i g, s => { s with groups := Keyed.put s.groups i g }
  | .box i b, s => { s with boxes := Keyed.put s.boxes i b }
  | .stops v, s => { s with stops := v }
  | .irq f v, s => { s with irqs := s.irqs ++ [(f, v)] }
  | .agenda v, s => { s with agenda := v }
  | .turns v, s => { s with turns := v }
  | .bundle v, s => { s with bundle := v }
  | .cur c, s => { s with cur := c }
  | .free n, s => { s with free := n }
  | .choices v, s => { s with choices := v }
  | .delays v, s => { s with delays := v }

/-- The effects that only management steps have: time, bring-up, configuration, the owner table and keys, virtual
functions, Market owner tags, the host's translations, and package reset. -/
inductive Sys where
  | time (ac fc part : Nat)
  | boot (b : Boot)
  | config (c : DevConfig)
  | owner (tag : Nat) (e : OwnerEntry)
  | vf (n : Nat) (v : Vf)
  | noVf (n : Nat)
  | mktTag (g : Nat) (t : Nat)
  | semaphores (v : List (Option Bool))
  | hdm (v : List Nat)
  | hostRefuses (page : Nat) (b : Bool)
  | remoteLoaded (k : Nat) (b : Bool)
  | heldLoads (v : List (CmdHeader × Tag × List Byte))
  | linkRetry (link : Nat) (n : Nat)
  | barRead (w : Word)
  | noGraph (i : Nat)
  | noInst (i : Nat)
  | noGroup (i : Nat)
  | wipe (b : Boot) (scrub : Bool)

/-- What a management effect does. wipe is the package reset (R434): frames and host memory keep their bytes, and
what names lines by physical address stays with them, unless the sweep of R396 writes every frame of the package with
zero; the rings and semaphores of the host ports stay. DEDUCED (log 8). -/
def Sys.apply : Sys → State → State
  | .time a f p, s => { s with ac := a, fc := f, fcPart := p }
  | .boot b, s => { s with boot := b }
  | .config c, s => { s with config := c }
  | .owner t e, s => { s with owners := Keyed.put s.owners t e }
  | .vf n v, s => { s with vfs := Keyed.put s.vfs n v }
  | .noVf n, s => { s with vfs := Keyed.del s.vfs n }
  | .mktTag g t, s => { s with mktTag := Cells.set 0 s.mktTag g t }
  | .semaphores v, s => { s with semaphores := v }
  | .hdm v, s => { s with hdm := v }
  | .hostRefuses p b, s => { s with hostRefuses := Cells.set false s.hostRefuses p b }
  | .remoteLoaded k b, s => { s with remoteLoaded := Cells.set false s.remoteLoaded k b }
  | .heldLoads v, s => { s with heldLoads := v }
  | .linkRetry l n, s => { s with linkRetries := Cells.set 0 s.linkRetries l n }
  | .barRead w, s => { s with barRead := w }
  | .noGraph i, s => { s with graphs := Keyed.del s.graphs i }
  | .noInst i, s => { s with insts := Keyed.del s.insts i }
  | .noGroup i, s => { s with groups := Keyed.del s.groups i }
  | .wipe b scrub, s =>
    { State.reset with
      mem := Cells.below (if scrub then Cells.clear s.mem (s.config.pkg.toNat * 2 ^ 46) ((s.config.pkg.toNat + 1) * 2 ^ 46)
        else s.mem) (2 ^ 80)
      lineKey := if scrub then Cells.clear s.lineKey (s.config.pkg.toNat * 2 ^ 39) ((s.config.pkg.toNat + 1) * 2 ^ 39)
        else s.lineKey
      bad := if scrub then Cells.clear s.bad (s.config.pkg.toNat * 2 ^ 39) ((s.config.pkg.toNat + 1) * 2 ^ 39) else s.bad
      hostRefuses := s.hostRefuses
      boxes := s.boxes
      semaphores := s.semaphores
      irqs := s.irqs
      boot := b
      free := s.free
      choices := s.choices
      delays := s.delays
      agenda := s.agenda }

/-- The states that effects lead to from a state; sys says whether management effects are among them. -/
inductive Reach (sys : Bool) (s0 : State) : State → Prop
  | start : Reach sys s0 s0
  | act {s : State} (a : Act) : Reach sys s0 s → Reach sys s0 (a.apply s)
  | sys {s : State} (e : Sys) : sys = true → Reach sys s0 s → Reach sys s0 (e.apply s)

/-- A step in progress: the state so far, reached from the start by effects alone. -/
structure Sim (sys : Bool) (s0 : State) where
  now : State
  reach : Reach sys s0 now

/-- The outcome of a step. -/
abbrev Out := Host.Outcome State Fault Refusal

variable {k : Bool} {s0 : State}

/-- A step begins. -/
def begin_ (k : Bool) (s : State) : Sim k s := ⟨s, .start⟩
/-- A step ends in the state reached. -/
def ran (m : Sim k s0) : Out := .next m.now
/-- One effect. -/
def Sim.act (m : Sim k s0) (a : Act) : Sim k s0 := ⟨a.apply m.now, .act a m.reach⟩
/-- One management effect. -/
def Sim.sys (m : Sim true s0) (e : Sys) : Sim true s0 := ⟨e.apply m.now, .sys e rfl m.reach⟩
/-- Doing something when a condition holds. -/
def Sim.when (m : Sim k s0) (b : Bool) (f : Sim k s0 → Sim k s0) : Sim k s0 := if b then f m else m
/-- Doing something for each element of a list, in order. -/
def Sim.each {α : Type} (m : Sim k s0) (l : List α) (f : Sim k s0 → α → Sim k s0) : Sim k s0 := l.foldl f m

/-! ## Readers -/

/-- A record of a workgroup that does not exist. -/
def Workgroup.none : Workgroup :=
  { gang := 0, wgid := 0, core := 0, s0 := 0, size := 0, localBase := 0, localSize := 0, warps := [], bound := Option.none }

/-- A record of a gang that does not exist. -/
def Gang.none : Gang :=
  { launch := 0, index := 0, state := .retired, cluster := 0, wgs := [], started := 0, drainBy := Option.none, tiles := []
    cntc := [], tokens := [] }

/-- A record of a launch that does not exist. -/
def Launch.none : Launch :=
  { id := 0, owner := 0, vf := 0, prio := 0, quota := 32, lmem := 0, wgsize := 1, gangl := 0, stage := 0
    idem := false, ngang := 0, done := 0, psize := 0, entry := 0, origin := .program, gen := 0, nextGang := 0
    retired := 0, killed := false, complete := true, held := false, passedSince := Option.none, blocking := false }

/-- A queue register not bound (R260). -/
def Binding.none : Binding :=
  { kind := 0, eng := 0, pwg := 0, pwarp := 0, preg := 0, qs := 0, base := 0, hw := [], ring := [], nextK := 0
    lost := false, pins := [] }

/-- Warp i. -/
def State.warp (s : State) (i : Nat) : Warp := Keyed.get Warp.none s.warps i
/-- Workgroup i. -/
def State.wg (s : State) (i : Nat) : Workgroup := Keyed.get Workgroup.none s.wgs i
/-- Gang i. -/
def State.gang (s : State) (i : Nat) : Gang := Keyed.get Gang.none s.gangs i
/-- Launch i, by record. -/
def State.launch (s : State) (i : Nat) : Launch := Keyed.get Launch.none s.launches i
/-- Scheduler i, 4 × core + scheduler. -/
def State.sched (s : State) (i : Nat) : Sched := Keyed.get Sched.clear s.scheds i
/-- The owner-table entry of a tag. -/
def State.owner (s : State) (t : Tag) : OwnerEntry := Keyed.get OwnerEntry.clear s.owners t.toNat
/-- The mailbox of a function: 0 and 1 the physical functions, 2 + n the virtual function n. -/
def State.box (s : State) (i : Nat) : Mailbox := Keyed.get Mailbox.clear s.boxes i
/-- Thread of a lane of warp i. -/
def State.thread (s : State) (i l : Nat) : Thread := (s.warp i).thread l
/-- The gang of a warp. -/
def State.gangOf (s : State) (i : Nat) : Nat := (s.wg (s.warp i).wg).gang
/-- The launch record of a warp. -/
def State.launchIx (s : State) (i : Nat) : Nat := (s.gang (s.gangOf i)).launch
/-- The launch of a warp. -/
def State.launchOf (s : State) (i : Nat) : Launch := s.launch (s.launchIx i)
/-- The owner tag of a warp's launch. -/
def State.ownerOf (s : State) (i : Nat) : Tag := (s.launchOf i).owner
/-- The scheduler of a warp, 4 × core + scheduler (R140). -/
def State.schedOf (s : State) (i : Nat) : Nat := 4 * (s.warp i).core + (s.warp i).sched
/-- Whether a tag may be used: its slot is LOADED (R391). -/
def State.loaded (s : State) (t : Tag) : Bool := (s.owner t).kstate == .loaded

/-- One byte of storage. DESIGN CHOICE (log 6). -/
def State.byte (s : State) (loc : Nat) : Byte := Cells.get 0 s.mem loc
/-- n bytes of storage. -/
def State.bytes (s : State) (loc n : Nat) : List Byte := (List.range n).map (fun i => s.byte (loc + i))
/-- A little-endian value of storage. -/
def State.readNat (s : State) (loc n : Nat) : Nat := leNat (s.bytes loc n)
/-- The FE bit of a granule: FULL (R174). -/
def State.full (s : State) (g : Nat) : Bool := Cells.get false s.fe g
/-- An accumulator. -/
def State.tile (s : State) (key : Nat) : Word := Cells.get 0 s.tiles key

/-! ## Writers -/

/-- Bytes stored from a place on. -/
def Sim.store (m : Sim k s0) (loc : Nat) : List Byte → Sim k s0
  | [] => m
  | b :: bs => Sim.store (m.act (.store loc b)) (loc + 1) bs

/-- A change of a warp. -/
def Sim.modWarp (m : Sim k s0) (i : Nat) (f : Warp → Warp) : Sim k s0 := m.act (.warp i (f (m.now.warp i)))
/-- The warp with a thread changed. -/
def Warp.mod (w : Warp) (l : Nat) (f : Thread → Thread) : Warp :=
  { w with threads := w.threads.set l (f (w.thread l)) }
/-- A change of a thread. -/
def Sim.modThread (m : Sim k s0) (i l : Nat) (f : Thread → Thread) : Sim k s0 := m.modWarp i (fun w => w.mod l f)
/-- A change of a scheduler. -/
def Sim.modSched (m : Sim k s0) (i : Nat) (f : Sched → Sched) : Sim k s0 := m.act (.sched i (f (m.now.sched i)))
/-- A change of a launch. -/
def Sim.modLaunch (m : Sim k s0) (i : Nat) (f : Launch → Launch) : Sim k s0 := m.act (.launch i (f (m.now.launch i)))
/-- A change of a gang. -/
def Sim.modGang (m : Sim k s0) (i : Nat) (f : Gang → Gang) : Sim k s0 := m.act (.gang i (f (m.now.gang i)))
/-- A change of the issue context. -/
def Sim.modCur (m : Sim k s0) (f : Issue → Issue) : Sim k s0 := m.act (.cur (f m.now.cur))
/-- Events that move after those already waiting. -/
def Sim.later (m : Sim k s0) (is : List Instr) : Sim k s0 := m.act (.agenda (m.now.agenda ++ is))
/-- Events that move next. -/
def Sim.sooner (m : Sim k s0) (is : List Instr) : Sim k s0 := m.act (.agenda (is ++ m.now.agenda))
/-- The number of the next record. -/
def Sim.fresh (m : Sim k s0) : Sim k s0 := m.act (.nextId (m.now.nextId + 1))

/-- The pages of some places pinned or unpinned, each once (R277). -/
def Sim.pinAll (m : Sim k s0) (pages : List Nat) (up : Bool) : Sim k s0 :=
  m.each pages (fun m p =>
    let n := Cells.get 0 m.now.pins p
    m.act (.pin p (if up then n + 1 else n - 1)))

/-- The next open choice: true takes the less usual of two outcomes that the spec allows. -/
def State.choice (s : State) : Bool := s.choices.headD false
/-- A choice has been made. -/
def Sim.chosen (m : Sim k s0) : Sim k s0 := m.act (.choices m.now.choices.tail)

/-- An event of a scheduler counted in this ac (R398, R401): code, owner, amount. -/
def Sim.count (m : Sim k s0) (sched : Nat) (code : Nat) (owner : Tag) (n : Nat) : Sim k s0 :=
  m.modSched sched (fun x => { x with events := (code, owner, n) :: x.events })

end Sys2Proof.Machine
end

