-- ==== Sys2Proof/Machine/Translate.lean ====
section
/-! DEFINITION. Translation of generic addresses (R183–R193) and the home of a line (R417). -/

namespace Sys2Proof.Machine

/-- Why an address is translated (R189): a read, a write, a fetch, or an access of a TKT word or the Barista. -/
inductive Access where
  | read | write | fetch | ticketRead | ticketWrite
  deriving DecidableEq, Repr

/-- Whether an access writes. -/
def Access.writes : Access → Bool
  | .write | .ticketWrite => true
  | _ => false

/-- Whether an access may reach a TICKET page (R189, step 5). -/
def Access.ticket : Access → Bool
  | .ticketRead | .ticketWrite => true
  | _ => false

/-- The kind of a leaf (R187): 0 DEV, 1 HOST, 2 CXL, 3 UNBACKED, 4 TICKET. -/
def pteKind (e : Nat) : Nat := bits e 15 13
/-- The owner tag of a leaf. -/
def pteOwner (e : Nat) : Nat := bits e 63 52
/-- The frame base of a leaf (physical, or I/O virtual for HOST). -/
def pteFrame (e : Nat) : Nat := bits e 51 16 * 65536
/-- The home base die of an UNBACKED leaf. -/
def pteDie (e : Nat) : Nat := bits e 17 16
/-- CACHE of a leaf: 0 WB, 1 UC, 2 STREAM. -/
def pteCache (e : Nat) : Nat := bits e 12 11
/-- Bit i of an entry. -/
def pteBit (e i : Nat) : Bool := bits e i i == 1
/-- TYPE of an entry: 0 invalid, 1 table pointer, 2 leaf. -/
def pteType (e : Nat) : Nat := bits e 1 0

/-- log2 of the bytes that a leaf at a level maps (R186). -/
def levelShift : Nat → Nat
  | 0 => 16
  | 1 => 21
  | _ => 30

/-- The package-local part of a physical address (R183). -/
def localPa (pa : Nat) : Nat := pa % 2 ^ 46
/-- The package id of a physical address. -/
def packageOf (pa : Nat) : Nat := pa / 2 ^ 46 % 64
/-- The CXL port of a package-local address in the CXL window (R183). -/
def portOf (p : Nat) : Nat := (p - 2 ^ 40) / (896 * 2 ^ 30)
/-- The offset in its port's window. -/
def portOffset (p : Nat) : Nat := (p - 2 ^ 40) % (896 * 2 ^ 30)

/-- Whether a physical address is LPDDR-6 (R183). -/
def isLpddr (pa : Nat) : Bool := localPa pa < 2 ^ 40
/-- Whether a physical address lies in attached CXL memory; of another package only its window is known here. -/
def State.isCxl (s : State) (pa : Nat) : Bool :=
  let p := localPa pa
  2 ^ 40 ≤ p && p < 2 ^ 43 &&
    (packageOf pa != s.config.pkg.toNat || portOffset p < s.hdm.getD (portOf p) 0)

/-- Whether a table entry that is no leaf is malformed (R187). -/
def pointerBad (level e : Nat) : Bool :=
  level == 0 || bits e 11 2 != 0 || bits e 63 52 != 0 || !isLpddr (bits e 51 12 * 4096)

/-- Whether a leaf is malformed (R187, R188). DEDUCED (log 38). -/
def State.leafBad (s : State) (level e : Nat) : Bool :=
  let kind := pteKind e
  let cache := pteCache e
  let frame := pteFrame e
  let size := 2 ^ levelShift level
  level ≥ 3 || kind ≥ 5 || cache == 3 || bits e 3 2 != 0 ||
  (level == 1 && kind != 1 && bits e 20 16 != 0) || (level == 2 && kind != 1 && bits e 29 16 != 0) ||
  (kind == 1 && level == 1 && bits e 20 16 != 0) || (kind == 1 && level == 2 && bits e 29 16 != 0) ||
  (kind == 3 && bits e 51 18 != 0) ||
  ((kind == 3 || kind == 4) && level != 0) ||
  ((kind == 3 || kind == 4) && cache != 0) || (kind == 1 && cache == 2) ||
  (pteBit e 8 && (kind != 0 || s.config.mailbox)) ||
  ((kind == 0 || kind == 4) && !isLpddr frame) || (kind == 2 && !(s.isCxl frame && s.isCxl (frame + size - 1))) ||
  (pteBit e 9 && (kind == 1 || kind == 3 ||
    !(s.config.treeBase ≤ frame && frame + size ≤ s.config.treeBase + s.config.treeSize * 65536)))

/-- What a walk meets (R189, steps 1 to 3). -/
inductive Walk where
  | refused
  | fault
  | leaf (level pte : Nat)
  deriving DecidableEq, Repr

/-- The index of an address at a level of the walk (R186). -/
def walkIndex (level va : Nat) : Nat :=
  match level with
  | 0 => bits va 20 16
  | 1 => bits va 29 21
  | 2 => bits va 38 30
  | 3 => bits va 47 39
  | _ => bits va 56 48

/-- The walk from a table down (R186–R188). -/
def State.walkFrom (s : State) (va : Nat) : Nat → Nat → Walk
  | level, table =>
    let e := s.readNat (physLoc (table + 8 * walkIndex level va)) 8
    match pteType e with
    | 0 => .fault
    | 2 => if s.leafBad level e then .refused else .leaf level e
    | 1 =>
      if pointerBad level e then .refused
      else match level with
        | 0 => .refused
        | l + 1 => State.walkFrom s va l (bits e 51 12 * 4096)
    | _ => .refused

/-- Whether an address is 57 bits, sign-extended (R186). -/
def canonical (va : DWord) : Bool := va == (va.extractLsb' 0 57).signExtend 64

/-- The walk of an owner's tables (R186, R189). -/
def State.walk (s : State) (owner : Tag) (va : DWord) : Walk :=
  if !canonical va then .refused else s.walkFrom va.toNat 4 (s.owner owner).ptbase

/-- The cached entry that covers an address, if any (R189). -/
def State.cached (s : State) (owner : Tag) (va : DWord) : Option TlbEntry :=
  s.tlb.find? (fun t => t.owner == owner &&
    t.page == va.toNat % 2 ^ 57 / 2 ^ levelShift t.level)

/-- The entry an access uses: the cached one, unless a choice takes the tables as they stand (R189); none of an address that
is not 57 bits, sign-extended (R186). -/
def State.entry (s : State) (owner : Tag) (va : DWord) : Walk :=
  if !canonical va then .refused else
  match s.cached owner va with
  | some t => if s.choice then s.walk owner va else .leaf t.level t.pte.toNat
  | none => s.walk owner va

/-- The answer of translation (R189): the place, its page (by the place of the page's first byte), the entry, and
its level; or a refusal, or a fault that the MMP services. -/
inductive Xlat where
  | ok (loc page pte level : Nat)
  | refused
  | pageFault
  | migration
  | priFault (iova : Nat)
  deriving DecidableEq, Repr

/-- The place that an entry gives an address (R192). -/
def placeOf (owner : Tag) (va : DWord) (level pte : Nat) : Nat :=
  let off := va.toNat % 2 ^ levelShift level
  match pteKind pte with
  | 1 => hostLoc (pteFrame pte + off)
  | 3 => unbackedLoc owner.toNat va.toNat
  | _ => physLoc (pteFrame pte + off)

/-- Translation of one address (R185, R189, R391, R419). -/
def State.translate (s : State) (owner : Tag) (priv : Bool) (acc : Access) (va : DWord) : Xlat :=
  if !s.loaded owner then .refused else
  match s.entry owner va with
  | .refused => .refused
  | .fault => .pageFault
  | .leaf level pte =>
    let kind := pteKind pte
    if pteOwner pte != owner.toNat || (pteBit pte 4 && !priv) || (acc.writes && !pteBit pte 6) ||
       (acc == .fetch && !pteBit pte 5) then .refused
    else if kind == 4 && !acc.ticket then .refused
    else if pteBit pte 8 then .migration
    else
      let loc := placeOf owner va level pte
      if (kind == 0 || kind == 2 || kind == 4) && packageOf loc != s.config.pkg.toNat &&
         !Cells.get false s.remoteLoaded (packageOf loc * 4096 + owner.toNat) then .refused
      else if kind == 1 && !Cells.get false s.atc (loc % 2 ^ 64 / 4096) &&
         Cells.get false s.hostRefuses (loc % 2 ^ 64 / 4096) then .priFault (loc % 2 ^ 64)
      else .ok loc (loc - va.toNat % 65536) pte level

/-- Pages of 64 KiB that a range of addresses touches. -/
def pagesOf (va n : Nat) : List Nat :=
  if n = 0 then [] else (List.range ((va % 65536 + n - 1) / 65536 + 1)).map (· + va / 65536)

/-- The first address of the range in a page. -/
def pageStart (va page : Nat) : DWord := BitVec.ofNat 64 (Nat.max va (page * 65536))

/-- Translation of a whole range: the answer of the first page that does not proceed, or that of the first. -/
def State.translateRange (s : State) (owner : Tag) (priv : Bool) (acc : Access) (va : DWord) (n : Nat) : Xlat :=
  let answers := (pagesOf va.toNat n).map (fun p => s.translate owner priv acc (pageStart va.toNat p))
  match answers.find? (fun x => x == .refused), answers.find? (fun x => match x with | .ok .. => false | _ => true) with
  | some x, _ => x
  | none, some x => x
  | none, none => s.translate owner priv acc va

/-- The places of the bytes of a range that translates, page by page. -/
def State.placesOf (s : State) (owner : Tag) (priv : Bool) (acc : Access) (va : DWord) (n : Nat) : List Nat :=
  (List.range n).map (fun i =>
    match s.translate owner priv acc (va + BitVec.ofNat 64 i) with
    | .ok loc _ _ _ => loc
    | _ => 0)

/-- The place of byte i of a range whose first place is known: within a page the places follow one another. -/
def State.placeAt (s : State) (owner : Tag) (priv : Bool) (acc : Access) (va : DWord) (first i : Nat) : Nat :=
  if va.toNat % 65536 + i < 65536 then first + i
  else match s.translate owner priv acc (va + BitVec.ofNat 64 i) with
    | .ok loc _ _ _ => loc
    | _ => first + i

variable {k : Bool} {s0 : State}

/-- A translation that proceeds is cached (R189); a host page enters the ATC (R185). -/
def Sim.cacheEntry (m : Sim k s0) (owner : Tag) (va : DWord) : Sim k s0 :=
  match m.now.entry owner va with
  | .leaf level pte =>
    let page := va.toNat % 2 ^ 57 / 2 ^ levelShift level
    let t : TlbEntry := { owner := owner, page := page, level := level, pte := BitVec.ofNat 64 pte }
    let m := if (m.now.cached owner va).isSome then
        if m.now.choice then
          m.act (.tlb (t :: m.now.tlb.filter (fun x => !(x.owner == owner && x.page == page && x.level == level))))
        else m
      else m.act (.tlb (t :: m.now.tlb))
    if pteKind pte == 1 then m.act (.atc (placeOf owner va level pte % 2 ^ 64 / 4096) true) else m
  | _ => m

/-! ## The home of a line (R417) -/

/-- The exclusive or of bits of a line number, two at a time from four places. -/
def fold2 (l a b c d : Nat) : Nat :=
  Nat.xor (Nat.xor (l / 2 ^ a % 4) (l / 2 ^ b % 4)) (Nat.xor (l / 2 ^ c % 4) (l / 2 ^ d % 4))

/-- The home base die and the home slice of a line, from its line number and the die of an unbacked entry. -/
def homeOf (loc : Nat) (unbackedDie : Nat) : Nat × Nat :=
  let l := loc / 128 % 2 ^ 36
  let b :=
    if 2 ^ 80 ≤ loc then unbackedDie
    else if 2 ^ 64 ≤ loc then fold2 l 0 8 16 24
    else if localPa loc < 2 ^ 40 then fold2 l 0 8 16 24
    else portOf (localPa loc) / 2
  let c := Nat.xor (Nat.xor (l / 16 % 8) (l / 2 ^ 12 % 8)) (Nat.xor (l / 2 ^ 20 % 8) (l / 2 ^ 28 % 8))
  (b, 10 * c + l % 10)

/-- The LPDDR-6 module of a line, on its base die (R417). -/
def moduleOf (loc : Nat) : Nat := fold2 (loc / 128 % 2 ^ 36) 2 10 18 26

/-- The compute die of a core (R414). -/
def dieOf (core : Nat) : Nat := core / 64
/-- The core cluster, over the package, of a core (R389, R414). -/
def clusterOf (core : Nat) : Nat := core / 8

/-- The unloaded latency of the home slice of a line from a core (R171, R178). -/
def sliceLatency (core : Nat) (home : Nat × Nat) : Nat :=
  if dieOf core != home.1 then 340
  else if core % 64 / 8 == home.2 / 10 then 180 else 260

end Sys2Proof.Machine
end

