-- ==== Sys2Proof/Machine/Records.lean ====
section
/-! DEFINITION. What the package reports: event rings (R437–R439), fault records (R365), tickets as words of memory
(R314), the gates of a ticket's rows (R321, R325), and the runs of task graphs (R282, R283). -/

namespace Sys2Proof.Machine

variable {k : Bool} {s0 : State}

/-! ## Rings in host memory (R437, R438) -/

/-- The number under which a function files its mailbox. -/
def fnIx : HostFn → Nat
  | .pf false => 0
  | .pf true => 1
  | .vf n => 2 + n.toNat

/-- The function of a mailbox number. -/
def fnOf (i : Nat) : HostFn := if i = 0 then .pf false else if i = 1 then .pf true else .vf (BitVec.ofNat 6 (i - 2))

/-- A ring of a mailbox: 0 command, 1 completion, 2 event, 3 outbox. -/
def Mailbox.ring (b : Mailbox) (n : Nat) : Ring := b.rings.getD n Ring.clear

/-- The entry count of a ring; 0 when SIZE disables it (R437). -/
def Ring.count (r : Ring) : Nat := if 4 ≤ r.size % 32 ∧ r.size % 32 ≤ 16 then 2 ^ (r.size % 32) else 0

/-- Whether a ring is full (R438); a disabled ring takes no entry. -/
def Ring.full (r : Ring) : Bool := r.count ≤ (r.prod - r.cons).toNat

/-- The address of a ring: the low 12 bits of BASE address nothing. DESIGN CHOICE (log 100). -/
def Ring.addr (r : Ring) : Nat := r.base.toNat / 4096 * 4096

/-- An entry written at PROD of a device-written ring, of entries of size bytes, and PROD advanced after it. -/
def Sim.pushRing (m : Sim k s0) (f n size : Nat) (entry : List Byte) : Sim k s0 :=
  let b := m.now.box f
  let r := b.ring n
  let m := m.store (hostLoc (r.addr + size * (r.prod.toNat % r.count))) entry
  m.act (.box f { b with rings := b.rings.set n { r with prod := r.prod + 1 } })

/-- The event interrupt of a function (R437): vector 0 of a physical function, the IRQ of a virtual one. -/
def Sim.eventIrq (m : Sim k s0) (f : Nat) : Sim k s0 :=
  m.act (.irq (fnOf f) (if f < 2 then 0
    else match Keyed.find m.now.vfs (f - 2) with | some v => v.desc.irq.toNat | none => 0))

/-- Whether an entry would find room in the event ring or the event buffer of a function (R438). -/
def State.eventRoom (s : State) (f : Nat) : Bool :=
  ((s.box f).events.isEmpty && !((s.box f).ring 2).full) || (s.box f).events.length < 256

/-- An entry of the event ring (R438, R439): written, or kept in order in the buffer; with both full a FAULT entry is
dropped and LOST counts it, and any other is dropped. -/
def Sim.postEvent (m : Sim k s0) (f : Nat) (kind : Nat) (body : List Byte) : Sim k s0 :=
  let e := (body ++ List.replicate 60 0).take 60 ++ [0, 0, 0, BitVec.ofNat 8 kind]
  let b := m.now.box f
  if b.events.isEmpty && !(b.ring 2).full then (m.pushRing f 2 64 e).eventIrq f
  else if b.events.length < 256 then m.act (.box f { b with events := b.events ++ [e] })
  else if kind = 1 then m.act (.box f { b with lost := b.lost + 1 })
  else m

/-- Buffered entries written while the ring has room (R438). -/
def Sim.drainEvents (m : Sim k s0) (f : Nat) : Nat → Sim k s0
  | 0 => m
  | n + 1 =>
    let b := m.now.box f
    match b.events with
    | [] => m
    | e :: es =>
      if (b.ring 2).full then m
      else ((((m.act (.box f { b with events := es })).pushRing f 2 64 e).eventIrq f).drainEvents f n)

/-- An entry posted to the event ring of the virtual function that a tag belongs to (R365, R318). -/
def Sim.postFor (m : Sim k s0) (tag : Tag) (kind : Nat) (body : List Byte) : Sim k s0 :=
  match (m.now.owner tag).vf with
  | some v => m.postEvent (2 + v.toNat) kind body
  | none => m

/-- A completion of a command written to the completion ring of its function; the command leaves the command ring
(R437, R444). -/
def Sim.complete (m : Sim k s0) (h : CmdHeader) (status : Nat) (v0 v1 : Word) : Sim k s0 :=
  let f := fnIx h.fn
  let m := m.pushRing f 1 16 (leBytes 4 h.seq.toNat ++ leBytes 4 status ++ wordBytes v0 ++ wordBytes v1)
  let b := m.now.box f
  let r := b.ring 0
  if r.cons = r.prod then m else m.act (.box f { b with rings := b.rings.set 0 { r with cons := r.cons + 1 } })

/-! ## Tickets (R314) -/

/-- Instance i. -/
def State.inst? (s : State) (i : BitVec 4) : Option Inst := Keyed.find s.insts i.toNat

/-- Word n of a ticket. -/
def State.tk (s : State) (x : Inst) (tkid n : Nat) : Word := bytesWord (s.bytes (physLoc (x.tkbase + 256 * tkid + 4 * n)) 4)

/-- A word of a ticket written. -/
def Sim.tkSet (m : Sim k s0) (x : Inst) (tkid n : Nat) (w : Word) : Sim k s0 :=
  m.store (physLoc (x.tkbase + 256 * tkid + 4 * n)) (wordBytes w)

/-- Bits [hi:lo] of a word replaced. -/
def setBits (w : Word) (hi lo v : Nat) : Word :=
  BitVec.ofNat 32 (w.toNat - bits w.toNat hi lo * 2 ^ lo + v % 2 ^ (hi - lo + 1) * 2 ^ lo)

/-- A field of a ticket. -/
def State.tkField (s : State) (x : Inst) (tkid n hi lo : Nat) : Nat := bits (s.tk x tkid n).toNat hi lo
/-- A field of a ticket written. -/
def Sim.tkSetField (m : Sim k s0) (x : Inst) (tkid n hi lo v : Nat) : Sim k s0 :=
  m.tkSet x tkid n (setBits (m.now.tk x tkid n) hi lo v)
/-- STATE of a ticket: 0 FREE, 1 QUEUED, 2 ACTIVE, 3 PAUSED, 4 WATCHED, 5 FAULTED, 6 DONE. -/
def State.tkState (s : State) (x : Inst) (tkid : Nat) : Nat := s.tkField x tkid 0 31 28

/-- GSTRIDE (R311). -/
def Inst.gstride (x : Inst) : Nat := (x.rowbudget + 15) / 16 * 16

/-- Bytes of Market memory written under an owner: those in granules that carry its tag (R311). DEDUCED (log 61). -/
def Sim.marketPut (m : Sim k s0) (owner : Tag) (x : Nat) : List Byte → Sim k s0
  | [] => m
  | b :: bs =>
    Sim.marketPut (m.when (Cells.get 0 m.now.mktTag (x / 64) == owner.toNat + 1) (fun m => m.act (.store (marketLoc x) b)))
      owner (x + 1) bs

/-- The gate of a row in a vector written (R296). -/
def Sim.setGate (m : Sim k s0) (x : Inst) (v r : Nat) (g : Byte) : Sim k s0 :=
  m.marketPut x.owner (x.gatebase + v * x.gstride + r) [g]

/-- The gates of rows of every gate vector written with one state (R321, R325). -/
def Sim.setGates (m : Sim k s0) (x : Inst) (rows : List Nat) (g : Byte) : Sim k s0 :=
  m.each (List.range x.ngate) (fun m v => m.each rows (fun m r => m.setGate x v r g))

/-- The rows of a ticket in the current step. -/
def State.rowsOf (s : State) (x : Inst) (tkid : Nat) : List Nat :=
  (List.range (s.tkField x tkid 3 31 16)).map (· + s.tkField x tkid 3 15 0)

/-- A fault attributed to a ticket (R325, R346): an ACTIVE or WATCHED ticket becomes FAULTED, the gates of its rows
SKIP, and its pending watches end; from QUEUED and PAUSED it becomes FAULTED too (R315). -/
def Sim.faultTicket (m : Sim k s0) (i : BitVec 4) (tkid reason : Nat) : Sim k s0 :=
  match m.now.inst? i with
  | none => m
  | some x =>
    let st := m.now.tkState x tkid
    if st = 2 ∨ st = 4 ∨ st = 1 ∨ st = 3 then
      let rows := if st = 2 ∨ st = 4 then m.now.rowsOf x tkid else []
      let m := (m.tkSetField x tkid 0 31 28 5).tkSetField x tkid 0 27 20 reason
      let m := m.setGates x rows 2
      m.act (.watches (m.now.watches.filter (fun w => !(w.inst == i && w.tkid == tkid))))
    else m

/-- The REASON of a trap cause, with the STATUS of an engine fault (R319); none for TIMER. -/
def reasonOf (cause : Nat) (tval : Word) : Option Nat :=
  if cause = 0x09 ∨ cause = 0x0A then some 0x10
  else if cause = 0x08 then some 0x11
  else if cause = 0x0C then some 0x12
  else if cause = 0x07 then some 0x13
  else if cause = 0x0D then
    match bits tval.toNat 31 24 with
    | 2 => some 0x10
    | 3 => some 0x11
    | 4 => some 0x12
    | 7 => some (if bits tval.toNat 23 20 = 3 then 0x12 else 0x14)
    | _ => some 0x14
  else if cause = 0x0B then some 0x15
  else if cause = 0x0E then none
  else some 0x16

/-- The ticket that a fault of a workgroup is attributed to, before STEP_DONE (R325, R366). -/
def State.ticketOf (s : State) (wg : Nat) : Option (BitVec 4 × Nat) :=
  match (s.wg wg).bound with
  | some (i, _, t) =>
    match s.inst? i with
    | some x => if x.state == .running && !x.stepDone then some (i, t) else none
    | none => none
  | none => none

/-- A fault to report (R365). -/
structure FaultInfo where
  cause : Nat
  late : Bool := false
  exited : Bool := false
  double : Bool := false
  killed : Bool := false
  warp : Nat
  lanes : Word
  tval : Word
  pc : DWord
  va : DWord := 0

/-- The fault record, 64 bytes of which 52 are not zero (R365, R366). -/
def State.faultRecord (s : State) (f : FaultInfo) : List Byte :=
  let w := s.warp f.warp
  let g := s.wg w.wg
  let gang := s.gang g.gang
  let l := s.launch gang.launch
  let gone := gang.state == .retired
  let t := s.ticketOf w.wg
  let flag (b : Bool) (i : Nat) : Nat := if b then 2 ^ i else 0
  let impr := 0x0A ≤ f.cause && f.cause ≤ 0x0E
  leBytes 4 (f.cause * 2 ^ 24 + flag impr 16 + flag f.late 17 + flag f.exited 18 + flag gone 19 + flag f.double 20 +
    flag f.killed 21 + flag t.isSome 22) ++
  leBytes 4 (l.id % 2 ^ 24) ++
  leBytes 4 (if gone then 0xFFFFFFFF else gang.index) ++
  leBytes 4 (g.wgid * 2 ^ 13 + w.num * 2 ^ 8 + w.core) ++
  wordBytes f.lanes ++ wordBytes f.tval ++ leBytes 8 f.pc.toNat ++ leBytes 8 f.va.toNat ++
  (match t with
   | some (i, tk) =>
     leBytes 4 (i.toNat * 65536 + tk) ++ leBytes 4 (((s.inst? i).elim 0 (·.mstep.toNat)) % 2 ^ 32)
   | none => leBytes 4 0xFFFFFFFF ++ leBytes 4 0) ++
  leBytes 4 (l.owner.toNat * 65536 + l.vf.toNat)

/-- A fault record posted, and the fault attributed to the slot's ticket (R325, R365, R366). -/
def Sim.report (m : Sim k s0) (f : FaultInfo) : Sim k s0 :=
  m.postFor (m.now.ownerOf f.warp) 1 (m.now.faultRecord f)

/-- A fault of a slot-bound warp attributed to its ticket (R325). DEDUCED (log 39). -/
def Sim.blame (m : Sim k s0) (wi cause : Nat) (tval : Word) : Sim k s0 :=
  match m.now.ticketOf (m.now.warp wi).wg, reasonOf cause tval with
  | some (i, t), some r => m.faultTicket i t r
  | _, _ => m

/-! ## Runs of task graphs (R282, R283) -/

/-- A little-endian field of a graph image. -/
def Graph.field (g : Graph) (at_ n : Nat) : Nat := leNat ((g.image.drop at_).take n)
/-- KIND of node i: 0 KERNEL, 1 COND, 2 WHILE, 3 SIGNAL, 4 STEP. -/
def Graph.kind (g : Graph) (i : Nat) : Nat := g.field (32 * i) 1
/-- NPRED of node i. -/
def Graph.npred (g : Graph) (i : Nat) : Nat := g.field (32 * i + 2) 2
/-- ARG32 of node i. -/
def Graph.arg32 (g : Graph) (i : Nat) : Nat := g.field (32 * i + 12) 4
/-- ARG64 of node i. -/
def Graph.arg64 (g : Graph) (i : Nat) : Nat := g.field (32 * i + 16) 8
/-- Successor list 0 or 1 of node i. -/
def Graph.succ (g : Graph) (i : Nat) (second : Bool) : List Nat :=
  let o := 32 * i + (if second then 8 else 4)
  (List.range (g.field (o + 2) 2)).map (fun e => g.field (32 * g.nodes + 2 * (g.field o 2 + e)) 2)

/-- Whether a successor list reaches past the array or names no node (R282). -/
def Graph.listBad (g : Graph) (i : Nat) (second : Bool) : Bool :=
  let o := 32 * i + (if second then 8 else 4)
  g.succs < g.field o 2 + g.field (o + 2) 2 || (g.succ i second).any (fun n => g.nodes ≤ n)

/-- Whether a node is malformed (R282). -/
def Graph.nodeBad (g : Graph) (i : Nat) : Bool :=
  4 < g.kind i || g.field (32 * i + 1) 1 != 0 || g.field (32 * i + 24) 8 != 0 || g.listBad i false || g.listBad i true ||
  ((g.kind i == 1 || g.kind i == 2) && g.arg64 i % 8 != 0) || (g.kind i == 2 && g.arg32 i % 65536 == 0)

/-- A node that has not started (R283). -/
def NodeRun.fresh : NodeRun := { state := .waiting, signals := 0, back := 0, passes := 0, counted := 0 }

/-- Node i of a run. -/
def Run.node (r : Run) (i : Nat) : NodeRun := r.nodes.getD i NodeRun.fresh
/-- Node i of a run changed. -/
def Run.mod (r : Run) (i : Nat) (f : NodeRun → NodeRun) : Run := { r with nodes := r.nodes.set i (f (r.node i)) }

/-- The nodes reachable from a list without passing through a node (R283, the body of a WHILE). -/
def Graph.reach (g : Graph) (avoid : Nat) : Nat → List Nat → List Nat → List Nat
  | 0, _, seen => seen
  | _ + 1, [], seen => seen
  | n + 1, i :: todo, seen =>
    if i = avoid ∨ seen.contains i then Graph.reach g avoid n todo seen
    else Graph.reach g avoid n (g.succ i false ++ g.succ i true ++ todo) (i :: seen)

/-- The body of a WHILE node. -/
def Graph.body (g : Graph) (i : Nat) : List Nat :=
  g.reach i ((g.nodes + 1) * (2 * g.succs + g.nodes + 2)) (g.succ i false) []

/-- Graph i. -/
def State.graph? (s : State) (i : BitVec 6) : Option Graph := Keyed.find s.graphs i.toNat

/-- A run of a graph changed. -/
def Sim.setRun (m : Sim k s0) (gi : BitVec 6) (g : Graph) (r : Run) : Sim k s0 :=
  m.act (.graph gi.toNat { g with run := some r })

/-- One signal to a node (R283): a back-edge signal to a WHILE from its body, or one toward NPRED. -/
def Sim.signal (m : Sim k s0) (gi : BitVec 6) (src node : Nat) : Sim k s0 :=
  match m.now.graph? gi with
  | none => m
  | some g =>
    match g.run with
    | none => m
    | some r =>
      if g.kind node = 2 ∧ (g.body node).contains src then
        m.setRun gi g (r.mod node (fun n => { n with back := n.back + 1 }))
      else m.setRun gi g (r.mod node (fun n => { n with signals := n.signals + 1 }))

/-- Whether a node of a run may start, or a WHILE read its word again (R283). -/
def Graph.ready (g : Graph) (r : Run) (i : Nat) : Bool :=
  let n := r.node i
  (n.state == .waiting && g.npred i ≤ n.signals) ||
  (n.state == .running && g.kind i == 2 && g.arg32 i % 65536 ≤ n.back)

/-- Whether a run has ended: stopped, or no node is running and none can start (R283). -/
def Graph.over (g : Graph) (r : Run) : Bool :=
  r.ended || (List.range g.nodes).all (fun i => (r.node i).state != .running && !g.ready r i)

/-- Whether the run of a graph goes on. -/
def Graph.live (g : Graph) : Bool := match g.run with | some r => !g.over r | none => false

/-- A node completes and signals each node of its chosen list once (R283). -/
def Sim.completeNode (m : Sim k s0) (gi : BitVec 6) (node : Nat) (second : Bool) : Sim k s0 :=
  match m.now.graph? gi with
  | none => m
  | some g =>
    match g.run with
    | none => m
    | some r =>
      if r.ended then m else
      let m := m.setRun gi g (r.mod node (fun n => { n with state := .done }))
      m.each (g.succ node second) (fun m t => m.signal gi node t)

end Sys2Proof.Machine
end

