-- ==== Sys2Proof/Machine/Lines.lean ====
section
/-! DEFINITION. Aborting a try region (R253–R255), the address check of each space (R172), the places of a lane, and the
entries of try buffers (R251, R256). -/

namespace Sys2Proof.Machine

variable {k : Bool} {s0 : State}

/-! ## Aborting a try region (R253–R255) -/

/-- The region of a thread aborts: buffered stores and read set go at once, and the rollback follows when its
operations have completed, no earlier than 8 ac on (R255). -/
def Sim.abortRegion (m : Sim k s0) (wi l : Nat) (code : Nat) (user : BitVec 8 := 0) (addr : DWord := 0) : Sim k s0 :=
  let ac := m.now.ac
  let t := m.now.thread wi l
  match t.region, t.aborting with
  | some r, none =>
    let m := m.count (m.now.schedOf wi) 0x007 (m.now.ownerOf wi) 1
    m.modThread wi l (fun t =>
      { t with region := some { r with reads := [], buffer := [], places := [] }
               order := none
               aborting := some { code := BitVec.ofNat 8 code, user := user, addr := addr, decided := ac }
               hold := .rollback (ac + 8) })
  | _, _ => m

/-- Every thread of a warp in a region aborts (OVERFLOW, PREEMPT). -/
def Sim.abortWarp (m : Sim k s0) (wi code : Nat) : Sim k s0 :=
  m.each (List.range 32) (fun m l => m.abortRegion wi l code)

/-- Another agent writes lines: every thread with one of them in its read set aborts with CONFLICT (R254). except_ names a
thread whose own write it is; tells says of a core whether the write is one to its threads, or reached them before. -/
def Sim.conflict (m : Sim k s0) (lines : List Nat) (except_ : Option (Nat × Nat)) (tells : Nat → Bool := fun _ => true) :
    Sim k s0 :=
  m.each m.now.warps (fun m w =>
    if tells w.2.core then
      m.each (List.range 32) (fun m l =>
        match (m.now.thread w.1 l).region with
        | some r =>
          if except_ != some (w.1, l) && r.reads.any (fun x => lines.contains x) then m.abortRegion w.1 l 4 else m
        | none => m)
    else m)

/-! ## Spaces (R172) -/

/-- The bytes of a range of places in granules of 2^j. -/
def unitsOf (j loc n : Nat) : List Nat :=
  if n = 0 then [] else (List.range ((loc + n - 1) / 2 ^ j - loc / 2 ^ j + 1)).map (· + loc / 2 ^ j)

/-- The workgroup of a gang with a number. -/
def State.memberOf (s : State) (gi wgid : Nat) : Option Nat := (s.gang gi).wgs.find? (fun w => (s.wg w).wgid == wgid)

/-- Whether every Market granule of a range carries a tag (R172, R180). -/
def State.marketOwned (s : State) (owner : Tag) (x n : Nat) : Bool :=
  (unitsOf 6 x n).all (fun g => Cells.get 0 s.mktTag g == owner.toNat + 1)

/-- The place that the address check of a space gives (R172). -/
def State.locate (s : State) (wi : Nat) (priv : Bool) (acc : Access) (sp : Nat) (x : DWord) (n : Nat) : Xlat :=
  let w := s.warp wi
  let a := x.toNat
  match sp with
  | 0 => s.translateRange (s.ownerOf wi) priv acc x n
  | 1 => if a + n ≤ (s.wg w.wg).localSize then .ok (localLoc w.wg a) 0 0 0 else .refused
  | 2 =>
    match s.memberOf (s.wg w.wg).gang (a / 0x60000) with
    | some g => if a % 0x60000 + n ≤ (s.wg g).localSize then .ok (localLoc g (a % 0x60000)) 0 0 0 else .refused
    | none => .refused
  | 3 =>
    if a + n ≤ 2 ^ 27 && s.loaded (s.ownerOf wi) && s.marketOwned (s.ownerOf wi) a n then .ok (marketLoc a) 0 0 0
    else .refused
  | _ =>
    let li := s.launchIx wi
    if a + n ≤ (s.launch li).psize then .ok (paramLoc li a) 0 0 0 else .refused

/-- The place of byte i of a lane's access. -/
def State.laneLoc (s : State) (owner : Tag) (ln : LaneOp) (i : Nat) : Nat :=
  if ln.pte = 0 then ln.loc.getD 0 + i else s.placeAt owner true .read ln.addr (ln.loc.getD 0) i
/-- The places of a lane's access. -/
def State.laneLocs (s : State) (owner : Tag) (ln : LaneOp) : List Nat := (List.range ln.size).map (s.laneLoc owner ln)

/-- Whether a place is cached in lines: generic memory. -/
def isGeneric (loc : Nat) : Bool := loc < 2 ^ 84

/-- Whether a lane has nothing left to do. -/
def LaneOp.final (l : LaneOp) : Bool := l.state == .done || l.state == .refused || l.state == .dead

/-- Whether a pmig that has begun is moving a page that a range of an owner touches (R198). -/
def State.moving (s : State) (owner : Tag) (va : DWord) (n : Nat) : Bool :=
  s.ops.any (fun o => (match o.ins with | .pmig .. => true | _ => false) && s.ownerOf o.warp == owner &&
    o.lanes.any (fun x => x.part != 0 && !x.final &&
      (pagesOf va.toNat n).any (fun p => p % 2 ^ 41 == x.addr.toNat % 2 ^ 57 / 65536)))

/-! ## Try buffers (R251, R256) -/

/-- The lines of a region's write set. -/
def Region.writeLines (g : Region) : List Nat := (g.buffer.map (fun e => lineOf e.1)).eraseDups
/-- The entries that a region takes. -/
def Region.entries (g : Region) : Nat := g.writeLines.length + g.reads.length
/-- The try-buffer entries of a warp as it stands, with published lines not yet performed of the operations below a
number (R256). DEDUCED (log 31). -/
def State.tbufBelow (s : State) (w : Warp) (wi n : Nat) : Nat :=
  (w.threads.map (fun t => t.region.elim 0 Region.entries)).foldl (· + ·) 0 +
  ((s.ops.flatMap (fun o =>
    match o.ins with
    | .commit .. => if o.kind = .store ∧ o.warp = wi ∧ o.id < n then
        (o.lanes.filter (fun x => !x.final)).map (fun x => x.lane + 32 * lineOf (x.loc.getD 0)) else []
    | _ => [])).eraseDups).length
/-- The try-buffer entries of a warp: those of its open regions, and published lines not yet performed (R256). -/
def State.tbuf (s : State) (wi : Nat) : Nat := s.tbufBelow (s.warp wi) wi s.nextId
/-- The entries in use in a core's pool (R177, R251): an ended warp keeps those of its published lines. -/
def State.poolUse (s : State) (core : Nat) : Nat :=
  (s.warps.filter (fun w => w.2.core == core)).foldl (fun n w => n + s.tbuf w.1) 0
/-- Whether a warp has room for some more entries. -/
def State.tryRoom (s : State) (wi n : Nat) : Bool :=
  n == 0 || (s.tbuf wi + n ≤ 32 && s.poolUse (s.warp wi).core + n ≤ 512)

end Sys2Proof.Machine
end

