-- ==== Sys2Proof/Machine/Caches.lean ====
section
/-! DEFINITION. The caches (R177–R182, R193), the state of a line (R368, R393), and writes at the home slice (R179, R202,
R203, R254). Bytes stand in storage alone: of L2, the stacked cache and a read duplicate the state keeps which lines they
hold, and an L1 line has its own bytes, which may be stale. -/

namespace Sys2Proof.Machine

variable {k : Bool} {s0 : State}

/-! ## Units of unbacked pages (R194, R195) -/

/-- The units of an owner's reservation on a die. -/
def State.resUnits (s : State) (owner : Tag) (die : Nat) : Nat :=
  ((s.reserved.filter (fun r => r.owner == owner && r.die == die)).map (·.units)).foldl (· + ·) 0
/-- Pages charged to an owner on a die. -/
def State.chargedUnits (s : State) (owner : Tag) (die : Nat) : Nat :=
  (s.charged.filter (fun c => c.owner == owner && c.die == die)).length
/-- Free units of an owner on a die. -/
def State.freeUnits (s : State) (owner : Tag) (die : Nat) : Nat := s.resUnits owner die - s.chargedUnits owner die
/-- Whether a page of an owner is charged. -/
def State.isCharged (s : State) (owner : Tag) (page : Nat) : Bool := s.charged.any (fun c => c.owner == owner && c.page == page)
/-- The reservations of all owners on a die. -/
def State.dieUnits (s : State) (die : Nat) : Nat :=
  ((s.reserved.filter (fun r => r.die == die)).map (·.units)).foldl (· + ·) 0

/-- The pages of a write that would be charged: page numbers of the owner's space with their dies and UFP. -/
def State.toCharge (s : State) (owner : Tag) (va : DWord) (n : Nat) : List (Nat × Nat × Bool) :=
  (pagesOf va.toNat n).filterMap (fun p =>
    match s.entry owner (pageStart va.toNat p) with
    | .leaf _ pte =>
      if pteKind pte = 3 ∧ !s.isCharged owner (p % 2 ^ 41) then some (p % 2 ^ 41, pteDie pte, pteBit pte 7) else none
    | _ => none)

/-- Whether an owner's free units cover some pages (R194). -/
def State.unitsCover (s : State) (owner : Tag) (ps : List (Nat × Nat × Bool)) : Bool :=
  ps.all (fun p => (ps.filter (fun q => q.2.1 == p.2.1)).length ≤ s.freeUnits owner p.2.1)

/-- The pages of a write that find no unit, where the others take those that are free in order (R196). -/
def State.noUnit (s : State) (owner : Tag) (ps : List (Nat × Nat × Bool)) : List (Nat × Nat × Bool) :=
  ((ps.zip (List.range ps.length)).filter (fun q =>
    s.freeUnits owner q.1.2.1 ≤ ((ps.take q.2).filter (fun p => p.2.1 == q.1.2.1)).length)).map (·.1)

/-- Whether a write that finds too few units waits for the MMP: every page without one is under LATE_FRAME (R196). -/
def State.unitsWait (s : State) (owner : Tag) (ps : List (Nat × Nat × Bool)) : Bool := (s.noUnit owner ps).all (·.2.2)

/-- Pages charged (R194). -/
def Sim.chargePages (m : Sim k s0) (owner : Tag) (ps : List (Nat × Nat × Bool)) : Sim k s0 :=
  m.act (.charged (ps.map (fun p => { owner := owner, page := p.1, die := p.2.1 }) ++ m.now.charged))

/-- Whether an engine may write some places now (R210, R294): no other command owns a line of theirs, and no matrix operation
has pinned one. -/
def State.writable (s : State) (cmd : Option Nat) (locs : List Nat) : Bool :=
  let gen := locs.filter isGeneric
  s.cmds.all (fun c => some c.id == cmd || c.owned.isEmpty || !gen.any (fun p => c.owned.contains (lineOf p))) &&
  s.mops.all (fun q => q.seen.isEmpty || !gen.any (fun p => (Keyed.find q.seen p).isSome))

/-! ## L1 (R177, R203) -/

/-- The L1 line of a core. -/
def State.l1Line (s : State) (core line : Nat) : Option L1Line := s.l1.find? (fun e => e.core == core && e.line == line)

/-- The lanes of stores of a core that its L1 holds and its home slices do not (R203), oldest first. -/
def State.l1Stores (s : State) (core : Nat) : List (Nat × Tag × LaneOp) :=
  s.ops.flatMap (fun o => if (s.warp o.warp).core = core then
    (o.lanes.filter (fun l => l.state == .written)).map (fun l => (o.id, s.ownerOf o.warp, l)) else [])

/-- Whether the L1 of a core holds a store to a line not yet performed at the home slice. -/
def State.l1Pending (s : State) (core line : Nat) : Bool :=
  (s.l1Stores core).any (fun x => (s.laneLocs x.2.1 x.2.2).any (fun loc => lineOf loc == line))

/-- Whether the L1 of a core holds a line as it stands: no write of another agent is missing in it. -/
def State.l1Fresh (s : State) (core line : Nat) : Bool := (s.l1Line core line).any (fun e => e.since.isNone)

/-- Whether a load at a scope is served by the L1 (R203): a line that misses no write, one that holds a store of its own
core, or, at scope core within 2,048 ac of the mark, a stale one where the choice takes it, unless the write it misses came
before an acquire of the thread (R206), of which fresh is the next ac. DESIGN CHOICE (log 13). -/
def State.l1Serves (s : State) (core line : Nat) (scope : BitVec 3) (fresh : Nat) : Bool :=
  match s.l1Line core line with
  | none => false
  | some e =>
    match e.since, e.stale with
    | none, _ => true
    | some _, none => true
    | some w, some t => scope == 0 && fresh ≤ w && s.ac < t + 2048 && s.choice

/-- The bytes of a line as its home slice holds them, with the stores that this core's L1 holds (R203). -/
def State.fillBytes (s : State) (core line : Nat) : List Byte :=
  let own := s.l1Stores core
  (List.range 128).map (fun i =>
    let loc := line * 128 + i
    own.foldl (fun b x =>
      match (s.laneLocs x.2.1 x.2.2).findIdx? (· == loc) with
      | some j => x.2.2.data.getD j b
      | none => b) (s.byte loc))

/-- Among keys with a priority, one of the lowest: the line that a full cache gives up. DESIGN CHOICE (log 13). -/
def victim (free : Nat) (xs : List (Nat × Nat)) : Option Nat :=
  let low := xs.filter (fun x => xs.all (fun y => x.2 ≤ y.2))
  (low[(Config.freeWord free).toNat % low.length]?).map (·.1)

/-- A victim has been drawn. -/
def Sim.drawn (m : Sim k s0) : Sim k s0 := m.act (.free (m.now.free + 1))

/-- Lines that an L1 may hold: 1,024, less the entries in use in the pool of the core's try buffers (R171, R177). -/
def State.l1Room (s : State) (core : Nat) : Nat := 1024 - s.poolUse core

/-- Lines that a core has published and not yet performed: they stand in the entries of its pool (R256). -/
def State.published (s : State) (core : Nat) : List Nat :=
  s.ops.flatMap (fun o => match o.ins with
    | .commit .. => if o.kind = .store ∧ (s.warp o.warp).core = core then
        (o.lanes.filter (fun x => !x.final)).map (fun x => lineOf (x.loc.getD 0)) else []
    | _ => [])

/-- The lines of an L1 that its capacity counts. -/
def State.l1Counted (s : State) (core : Nat) : List L1Line :=
  let out := s.published core
  s.l1.filter (fun e => e.core == core && !out.contains e.line)

/-- A line removed from the L1 of a core. -/
def Sim.dropL1 (m : Sim k s0) (core line : Nat) : Sim k s0 :=
  m.act (.l1 (m.now.l1.filter (fun e => !(e.core == core && e.line == line))))

/-- An L1 gives up lines, at most n, until it fits its capacity; none that holds a store of its own core. -/
def Sim.trimL1 (m : Sim k s0) (core : Nat) : Nat → Sim k s0
  | 0 => m
  | n + 1 =>
    let held := m.now.l1Counted core
    if held.length ≤ m.now.l1Room core then m
    else
      match victim m.now.free ((held.filter (fun e => !m.now.l1Pending core e.line)).map (fun e => (e.line, e.prio))) with
      | some x => (m.drawn.dropL1 core x).trimL1 core n
      | none => m

/-- The L1 of a core brought within its capacity. -/
def Sim.fitL1 (m : Sim k s0) (core : Nat) : Sim k s0 := m.trimL1 core m.now.l1.length

/-- A line put into the L1 of a core with a priority. -/
def Sim.fillL1 (m : Sim k s0) (core line prio : Nat) : Sim k s0 :=
  (m.act (.l1 ({ core := core, line := line, bytes := m.now.fillBytes core line, since := none, stale := none, prio := prio } ::
    m.now.l1.filter (fun e => !(e.core == core && e.line == line))))).fitL1 core

/-- Bytes of the L1 lines of one core replaced. -/
def L1Line.patch (e : L1Line) (locs : List Nat) (bytes : List Byte) : L1Line :=
  { e with bytes := (locs.zip bytes).foldl (fun bs p => if lineOf p.1 = e.line then bs.set (p.1 % 128) p.2 else bs) e.bytes }

/-- Lines of an L1 that wait for the stores of their own core take their stale mark once none is left (R203). -/
def Sim.markL1 (m : Sim k s0) (core : Nat) : Sim k s0 :=
  let ac := m.now.ac
  m.act (.l1 (m.now.l1.map (fun e =>
    if e.core == core && e.since.isSome && e.stale.isNone && !m.now.l1Pending core e.line then { e with stale := some ac } else e)))

/-! ## What each level allocates (R193) -/

/-- L1 allocation. -/
def allocL1 (pte hint : Nat) : Bool := pteCache pte == 0 && hint != 3
/-- L2 allocation. -/
def allocL2 (pte hint : Nat) : Bool :=
  match pteCache pte with
  | 0 => hint != 3 || pteKind pte == 3
  | 2 => hint != 3
  | _ => false
/-- Stacked-cache allocation (R192, R193). -/
def allocSc (pte : Nat) : Bool := pteCache pte == 0 && pteKind pte != 1
/-- The replacement priority of a line: 0 stream, 1 normal, 2 keep. -/
def prioOf (pte hint : Nat) : Nat :=
  if pteCache pte = 2 then 0 else match hint with | 0 => 1 | 1 => 2 | _ => 0

/-! ## The stacked cache (R181, R182, R194) -/

/-- Whether a line is one of an unbacked page: it is pinned while its page is charged (R194). -/
def isPinned (line : Nat) : Bool := 2 ^ 73 ≤ line && line < 2 ^ 77

/-- The lines of backed pages that a stacked cache may hold: what 4 GiB leaves beside the reservations of its die (R181). -/
def State.scRoom (s : State) (die : Nat) : Nat := 2 ^ 25 - 512 * s.dieUnits die

/-- The lines of backed pages that a stacked cache holds. -/
def State.scLines (s : State) (die : Nat) : List (Nat × CacheLine) := s.sc.filter (fun e => !isPinned e.1 && e.2.home / 80 == die)

/-- A stacked cache gives up lines, at most n, until it has room for some more. -/
def Sim.trimSc (m : Sim k s0) (die more : Nat) : Nat → Sim k s0
  | 0 => m
  | n + 1 =>
    let held := m.now.scLines die
    if held.length + more ≤ m.now.scRoom die then m
    else match victim m.now.free (held.map (fun e => (e.1, e.2.prio))) with
      | some x => (m.drawn.act (.sc x CacheLine.absent)).trimSc die more n
      | none => m

/-- A line put into the stacked cache of its die. -/
def Sim.fillSc (m : Sim k s0) (line : Nat) (c : CacheLine) : Sim k s0 :=
  let m := if isPinned line || (Cells.get CacheLine.absent m.now.sc line).held then m else m.trimSc (c.home / 80) 1 m.now.sc.length
  m.act (.sc line c)

/-- Whether a line holds only zero bytes. -/
def State.zeroBytes (s : State) (line : Nat) : Bool := (List.range 128).all (fun i => s.byte (line * 128 + i) == 0)

/-- Whether the memory side gives a line as zero (R182, R194): a zero line of the stacked cache, or a line of an unbacked
page that nothing has written since the page was charged. -/
def State.zeroSc (s : State) (line : Nat) : Bool :=
  let c := Cells.get CacheLine.absent s.sc line
  if c.held then c.zero else isPinned line

/-! ## L2 and read duplicates (R178, R179, R193) -/

/-- The home of a line under an entry: 80 × die + slice. -/
def homeIx (line pte : Nat) : Nat := let h := homeOf (128 * line) (pteDie pte); 80 * h.1 + h.2

/-- A housekeeping event of a line counted at the schedulers of a compute die that hold a counter (R399). -/
def Sim.countDie (m : Sim k s0) (die code : Nat) (owner : Tag) : Sim k s0 :=
  m.each (m.now.scheds.filter (fun x => x.1 / 256 == die && x.2.counters.any (·.claimed))) (fun m x => m.count x.1 code owner 1)

/-- A line written back by L2 (R178, R182): into the stacked cache where its policy has it there. -/
def Sim.writeBack (m : Sim k s0) (line : Nat) : Sim k s0 :=
  let c := Cells.get CacheLine.absent m.now.l2 line
  if !c.dirty then m
  else
    let m := m.when c.back (fun m => m.fillSc line { c with zero := m.now.zeroBytes line, prio := 1 })
    m.act (.l2 line { c with dirty := false })

/-- A line leaves L2, written back where it is modified (R178). -/
def Sim.evictL2 (m : Sim k s0) (line : Nat) : Sim k s0 :=
  let c := Cells.get CacheLine.absent m.now.l2 line
  ((m.writeBack line).act (.l2 line CacheLine.absent)).countDie (c.home / 80) 0x112 c.owner

/-- A slice of 1 MiB makes room for one more line (R171, R193): where it is full, a line or a duplicate leaves it. -/
def Sim.sliceRoom (m : Sim k s0) (home : Nat) : Sim k s0 :=
  let own := (m.now.l2.filter (fun e => e.2.home == home)).map (fun e => (2 * e.1, e.2.prio))
  let far := (m.now.dups.filter (fun e => e.2.home == home)).map (fun e => (2 * e.1 + 1, e.2.prio))
  if own.length + far.length < 8192 then m
  else match victim m.now.free (own ++ far) with
    | some x =>
      if x % 2 = 0 then m.drawn.evictL2 (x / 2)
      else
        let c := Cells.get CacheLine.absent m.now.dups (x / 2)
        (m.drawn.act (.dup (x / 2) CacheLine.absent)).countDie (home / 80) 0x112 c.owner
    | none => m

/-- A request that reaches L2 for a line under an entry and a hint (R178, R182, R193); write says that it has written it.
DEDUCED (log 88). -/
def Sim.reachL2 (m : Sim k s0) (owner : Tag) (pte hint : Nat) (write : Bool) (line : Nat) : Sim k s0 :=
  let c := Cells.get CacheLine.absent m.now.l2 line
  let home := homeIx line pte
  let zero := m.now.zeroSc line
  let fresh : CacheLine :=
    { held := true, home := home, owner := owner, dirty := false, back := allocSc pte, zero := false, prio := prioOf pte hint }
  if c.held then
    m.when write (fun m => m.act (.l2 line { c with owner := owner, dirty := true, zero := c.zero && m.now.zeroBytes line }))
  else
    let m := m.when (allocSc pte && !isPinned line && !(Cells.get CacheLine.absent m.now.sc line).held)
      (fun m => m.fillSc line { fresh with back := false, prio := 1 })
    if allocL2 pte hint then
      (m.sliceRoom home).act (.l2 line { fresh with dirty := write, zero := zero && (!write || m.now.zeroBytes line) })
    else m.when (write && allocSc pte) (fun m => m.fillSc line { fresh with dirty := true, back := false, zero := m.now.zeroBytes line, prio := 1 })

/-- The read duplicates of some lines dropped (R179). -/
def Sim.dropDups (m : Sim k s0) (lines : List Nat) : Sim k s0 :=
  m.each (m.now.dups.filter (fun e => lines.contains (e.1 / 4))) (fun m e => m.act (.dup e.1 CacheLine.absent))

/-- A line that an agent other than a thread has written, in the caches that hold it, or in its pinned line. -/
def Sim.wroteLine (m : Sim k s0) (owner : Tag) (line : Nat) : Sim k s0 :=
  let c := Cells.get CacheLine.absent m.now.l2 line
  let e := Cells.get CacheLine.absent m.now.sc line
  if c.held then m.act (.l2 line { c with owner := owner, dirty := true, zero := c.zero && m.now.zeroBytes line })
  else m.when (e.held || isPinned line) (fun m =>
    m.act (.sc line { e with held := true, owner := owner, dirty := true, zero := m.now.zeroBytes line }))

/-! ## The state of a line (R368, R393) -/

/-- Whether a place lies in a line that stands under another key than an owner's: an integrity failure (R393). -/
def State.keyFault (s : State) (owner : Tag) (loc : Nat) : Bool :=
  loc < 2 ^ 52 && Cells.get 0 s.lineKey (lineOf loc) != 0 && Cells.get 0 s.lineKey (lineOf loc) != (s.owner owner).key + 1

/-- Whether an access of an owner to a place meets an uncorrectable error: a failed location, or an integrity failure. -/
def State.lineFault (s : State) (owner : Tag) (loc : Nat) : Bool := Cells.get false s.bad (lineOf loc) || s.keyFault owner loc

/-- Whether a line is in CXL memory (R183). -/
def isCxlLine (line : Nat) : Bool := line < 2 ^ 45 && !isLpddr (128 * line)

/-- The lines of CXL memory that a read fetches from their device: one that it reports as poisoned is in error (R184).
DESIGN CHOICE (log 97). -/
def Sim.askDevice (m : Sim k s0) (locs : List Nat) : Sim k s0 :=
  let asked (n : Nat) : Bool := isCxlLine n && !(Cells.get CacheLine.absent m.now.l2 n).held && !(Cells.get CacheLine.absent m.now.sc n).held
  m.each (((locs.map lineOf).eraseDups).filter asked) (fun m n =>
    let f := m.now.free
    (m.act (.free (f + 1))).when (Config.poison f n) (fun m => m.act (.bad n true)))

/-- The line stands under the key of the owner that writes it, where it had none or is written whole.
DESIGN CHOICE (log 9). -/
def Sim.rekey (m : Sim k s0) (owner : Tag) (locs : List Nat) : Sim k s0 :=
  m.each ((locs.map lineOf).eraseDups) (fun m line =>
    m.when (line < 2 ^ 45 && (Cells.get 0 m.now.lineKey line == 0 || (locs.filter (fun p => lineOf p == line)).length == 128))
      (fun m => (m.act (.lineKey line ((m.now.owner owner).key + 1))).act (.bad line false)))

/-- Whether a write of these places meets an uncorrectable error (R368): a line in error that it does not cover whole. -/
def State.writeFault (s : State) (owner : Tag) (locs : List Nat) : Bool :=
  locs.any (fun p => s.lineFault owner p && (locs.filter (fun q => lineOf q == lineOf p)).length != 128)

/-! ## A write at the home slice (R179, R202, R203, R254) -/

/-- An L1 line after a write performed at home, by a thread of core, if one made it: the writing core's copy takes the bytes
that no store still to be performed covers; any other copy misses the write, and goes stale once it holds no store of its
own core (R203). -/
def State.l1After (s : State) (core : Option Nat) (locs : List Nat) (bytes : List Byte) (e : L1Line) : L1Line :=
  if core = some e.core then
    let newer := (s.l1Stores e.core).flatMap (fun x => s.laneLocs x.2.1 x.2.2)
    let keep := (locs.zip bytes).filter (fun p => !newer.contains p.1)
    e.patch (keep.map (·.1)) (keep.map (·.2))
  else
    { e with since := some (e.since.getD s.ac), stale := if s.l1Pending e.core e.line then e.stale else some (e.stale.getD s.ac) }

/-- A write performed at its ordering point. core and who name the thread that wrote, if one did; tells gives the cores
whose regions have not been told of it already. The copies in L1 follow, duplicates go, and regions that have read the lines
abort. -/
def Sim.homeWrite (m : Sim k s0) (core : Option Nat) (who : Option (Nat × Nat)) (owner : Tag) (locs : List Nat)
    (bytes : List Byte) (tells : Nat → Bool := fun _ => true) : Sim k s0 :=
  let m := m.each (locs.zip bytes) (fun m p => m.act (.store p.1 p.2))
  let lines := ((locs.filter isGeneric).map lineOf).eraseDups
  if lines.isEmpty then m
  else
    let m := m.act (.l1 (m.now.l1.map (fun e => if lines.contains e.line then m.now.l1After core locs bytes e else e)))
    ((m.dropDups lines).rekey owner locs).conflict lines who tells

/-- Bytes that an engine writes as a store of a thread (R351): the copy in L1 of the thread's core takes them. -/
def Sim.threadWrite (m : Sim k s0) (wi l : Nat) (owner : Tag) (locs : List Nat) (bytes : List Byte) : Sim k s0 :=
  (m.homeWrite (some (m.now.warp wi).core) (some (wi, l)) owner locs bytes).each (((locs.filter isGeneric).map lineOf).eraseDups)
    (fun m n => m.wroteLine owner n)

/-- Bytes written by an agent that is no thread: an engine, the MMP, the mailbox engine. A Market word so written signals
its completion (R212). told is true where taking ownership was the write that aborts regions (R254). -/
def Sim.agentWrite (m : Sim k s0) (owner : Tag) (locs : List Nat) (bytes : List Byte) (told : Bool := false) : Sim k s0 :=
  let m := m.homeWrite none none owner locs bytes (fun _ => !told)
  let ac := m.now.ac
  let m := m.each (((locs.filter isGeneric).map lineOf).eraseDups) (fun m n => m.wroteLine owner n)
  m.each (((locs.filter (fun p => marketLoc 0 ≤ p && p < marketLoc 0 + 2 ^ 27)).map (· / 4)).eraseDups) (fun m w =>
    m.act (.signalled w (ac + 1)))

end Sys2Proof.Machine
end

