-- ==== Sys2Proof/Machine/Ops.lean ====
section
/-! DEFINITION. The shared operations on threads: packet addresses and sequencing (R16–R19), the end of threads,
warps, gangs and launches (R127, R138, R168, R280), convergence (R150–R154), taking a trap (R360–R364) and returning from one (R374). -/

namespace Sys2Proof.Machine

variable {k : Bool} {s0 : State}

/-! ## Packets (R14–R19) -/

/-- The line base of a packet address. -/
def lineBase (pc : DWord) : DWord := pc &&& ~~~ 63#64

/-- The number k of a packet in its line, where the address has the form of R16. -/
def packetIx (pc : DWord) : Option Nat :=
  let o := pc.toNat % 64
  if 4 ≤ o ∧ (o - 4) % 12 = 0 ∧ (o - 4) / 12 < 5 then some ((o - 4) / 12) else none

/-- The packet number P of an address (R16), modulo 5 × 2^58. -/
def packetNo (pc : DWord) : Int := 5 * ((pc.toNat / 64 : Nat) : Int) + ((pc.toNat % 64 - 4) / 12 : Nat)

/-- The address of packet P, modulo 2^64 (R16). -/
def packetAddr (p : Int) : DWord :=
  BitVec.ofInt 64 (64 * (p / 5)) + BitVec.ofInt 64 (4 + 12 * (p % 5))

/-- The packet at a signed displacement (R18). -/
def displaced (pc : DWord) (disp : BitVec 19) : DWord := packetAddr (packetNo pc + disp.toInt)

/-- NPK of a header (R15). -/
def headerNpk (h : Word) : Nat := bits h.toNat 11 9

/-- The packet that follows by R19, under the header of the line. -/
def nextPacket (h : Word) (pc : DWord) : DWord :=
  match packetIx pc with
  | some i => if i + 1 < headerNpk h then pc + 12#64 else lineBase pc + 68#64
  | none => pc

/-! ## Convergence (R150–R154) -/

/-- Lanes leave every record of their warp (R153, R168). -/
def Warp.leaveAll (w : Warp) (lane : Nat) : Warp :=
  { w with rejoin := w.rejoin.map (fun r => { r with mask := r.mask &&& ~~~ BitVec.ofNat 32 (2 ^ lane) }) }

/-- A thread whose next word is word 1 of a packet arrives there (R151): it parks where the packet is its mt. The ac
of arrival is notBefore. -/
def arrive (t : Thread) : Thread := if t.mt ≠ 0 ∧ t.pc = t.mt ∧ t.pos = 1 ∧ (packetIx t.pc).isSome then { t with hold := .parked } else t

/-- A parked thread released in this ac (R152). -/
def unpark (ac : Nat) (t : Thread) : Thread :=
  { t with hold := .none, mt := 0, notBefore := ac + 1, lastIssue := ac }

/-- Whether a thread is parked at a packet, and has arrived there. -/
def parkedAt (ac : Nat) (t : Thread) (l : DWord) : Bool :=
  t.life == .live && t.hold == .parked && t.pc == l && t.notBefore ≤ ac

/-- The records of a warp examined at the end of an ac (R152): a record all of whose threads are parked at L is
released with every thread parked at L; a thread parked where no record stands is released alone, and MEETDROP
counts it. -/
def Sim.rejoinCheck (m : Sim k s0) (wi : Nat) : Sim k s0 :=
  let ac := m.now.ac
  let w := m.now.warp wi
  let done := w.rejoin.filter (fun r => (lanesOf r.mask).all (fun l => parkedAt ac (w.thread l) r.addr))
  let keep := w.rejoin.filter (fun r => !(lanesOf r.mask).all (fun l => parkedAt ac (w.thread l) r.addr))
  let free (l : Nat) : Bool :=
    let t := w.thread l
    parkedAt ac t t.pc && (done.any (fun r => r.addr == t.pc) || !keep.any (fun r => r.addr == t.pc))
  let drops := ((List.range 32).filter (fun l => free l && !done.any (fun r => r.addr == (w.thread l).pc))).length
  let m := m.modWarp wi (fun w =>
    { w with rejoin := keep
             threads := (List.range 32).map (fun l => if free l then unpark ac (w.thread l) else w.thread l) })
  m.when (drops != 0) (fun m => m.count (m.now.schedOf wi) 0x005 (m.now.ownerOf wi) drops)

/-! ## Threads end (R127, R168, R258, R280, R363, R375) -/

/-- Flag f of a warp counted up or down by one (R25). -/
def Warp.flagAdd (w : Warp) (f : Nat) (up : Bool) : Warp :=
  let v := w.flags.getD f 0
  { w with flags := w.flags.set f (if up then v + 1 else if v = 0 then 0 else v - 1) }

/-- The atomic add of 1 to the completion counter of a complete launch (R280), after which its DONE is 0: performed once its
page is there and free to be written, and a unit covers it (R190, R194, R294); one that is refused, that meets an
uncorrectable error (R368), or that finds no unit under FAULT performs nothing. -/
def Sim.countDone (m : Sim k s0) (li : Nat) : Sim k s0 :=
  let s := m.now
  let l := s.launch li
  let counted (m : Sim k s0) : Sim k s0 := m.modLaunch li (fun l => { l with done := 0 })
  if !l.complete || l.done == 0 then m else
  match s.translate l.owner false .write l.done with
  | .ok loc _ _ _ =>
    let locs := (List.range 8).map (loc + ·)
    let ps := s.toCharge l.owner l.done 8
    if locs.any (s.lineFault l.owner) then counted m
    else if !s.unitsCover l.owner ps then (if s.unitsWait l.owner ps then m else counted m)
    else if s.moving l.owner l.done 8 || !s.writable none locs then m
    else counted ((m.chargePages l.owner ps).agentWrite l.owner locs (leBytes 8 (s.readNat loc 8 + 1)))
  | .refused => counted m
  | _ => m

/-- A launch completes (R280, R283, R346): DONE is counted, a node of a graph completes, a watch handler ends. -/
def Sim.launchDone (m : Sim k s0) (li : Nat) : Sim k s0 :=
  let l := m.now.launch li
  if l.complete then m else
  let m := (m.modLaunch li (fun l => { l with complete := true })).countDone li
  match l.origin with
  | .node g run node =>
    match (m.now.graph? g).bind (·.run) with
    | some r => if r.number = run then m.completeNode g node false else m
    | none => m
  | .watch wid => m.later [.watchHandlerEnd wid]
  | _ => m

/-- Whether every gang of a launch has retired, or none remains and no more is placed, with every access of its threads
performed (R212, R280, R375). -/
def State.launchOver (s : State) (li : Nat) : Bool :=
  let l := s.launch li
  let gs := s.gangs.filter (fun g => g.2.launch == li)
  gs.all (fun g => g.2.state == .retired) && (l.killed || l.ngang ≤ l.nextGang) &&
    (0 < gs.length || l.killed) && !s.ops.any (fun o => s.launchIx o.warp == li)

/-- What waits on core-local memory that is released, of threads that have all ended, completes without effect (R138, R375).
DEDUCED (log 34). -/
def Sim.dropLocal (m : Sim k s0) (gi : Nat) : Sim k s0 :=
  m.act (.ops (m.now.ops.map (fun o =>
    if m.now.gangOf o.warp = gi then
      { o with lanes := o.lanes.map (fun x => if (x.loc.getD 0) < 2 ^ 128 then x else { x with state := .dead }) }
    else o)))

/-- A gang retires when every thread of it has ended (R138): its core-local memory is released. -/
def Sim.retireCheck (m : Sim k s0) (gi : Nat) : Sim k s0 :=
  let g := m.now.gang gi
  if g.state = .placed ∧ g.wgs.all (fun w => (m.now.wg w).warps.all (fun i => (m.now.warp i).ended)) then
    let m := (m.modGang gi (fun g => { g with state := .retired })).dropLocal gi
    let m := m.each g.wgs (fun m w =>
      (m.act (.clearMem (localLoc w 0) (localLoc w 0 + 2 ^ 20))).act
        (.clearFe (granuleOf (localLoc w 0)) (granuleOf (localLoc w 0) + 2 ^ 16)))
    m.when (m.now.launchOver g.launch) (fun m => m.launchDone g.launch)
  else m

/-- The bindings of a warp that ends (R268, R270): entries of a pop side are discarded and ring pins released; what a push
side has reserved is still received or delivered. -/
def Sim.closeQueues (m : Sim k s0) (wi : Nat) : Sim k s0 :=
  let m := m.each (m.now.warp wi).queues (fun m q => m.pinAll q.2.pins false)
  m.modWarp wi (fun w =>
    { w with queues := (w.queues.filter (fun q => q.2.kind ≤ 5 || q.2.kind == 7 || q.2.kind == 9)).map (fun q => (q.1, { q.2 with pins := [] })) })

/-- A warp whose last thread has ended (R140, R168): slot, registers and token return, an unreported enabled exception
is posted (R167) with PC 0, and bindings end. DESIGN CHOICE (log 87). -/
def Sim.warpCheck (m : Sim k s0) (wi : Nat) : Sim k s0 :=
  let w := m.now.warp wi
  if !w.ended && w.threads.all (fun t => t.life != .live) then
    let m := m.modWarp wi (fun w => { w with ended := true, resident := false, rejoin := [] })
    let m := m.modSched (m.now.schedOf wi) (fun x => { x with token := if x.token = some wi then none else x.token })
    let m := m.when (w.lxst != 0) (fun m => (m.report
      { cause := 0x0B, exited := true, warp := wi, lanes := w.lxst, tval := w.lxst, pc := 0 }).blame wi 0x0B w.lxst)
    let m := m.closeQueues wi
    m.retireCheck (m.now.gangOf wi)
  else m

/-- A thread ends (R127, R168, R363): it leaves every record; a pending STORE, UNCORRECTABLE or ENGINE is posted with
EXITED, a pending TIMER dropped; its region ends without commit (R258). DEDUCED (log 54). -/
def Sim.endThread (m : Sim k s0) (wi l : Nat) : Sim k s0 :=
  let t := m.now.thread wi l
  if t.life != .live then m else
  let m := m.each t.pend (fun m p =>
    let c := p.cause.toNat
    m.when (c == 0x0A || c == 0x0C || c == 0x0D) (fun m => (m.report
      { cause := c, late := p.late, exited := true, warp := wi, lanes := maskOf [l], tval := p.tval, pc := p.pc
        va := p.va }).blame wi c p.tval))
  let m := m.modWarp wi (fun w => (w.mod l (fun t =>
    { t with life := .exited, hold := .none, region := none, aborting := none, pend := [], priv := false
             busy := [], late := [], order := none })).leaveAll l)
  m.warpCheck wi

/-- Held operand-log lanes of a killed thread are discarded (R375). -/
def Sim.dropHeld (m : Sim k s0) (wi l : Nat) : Sim k s0 :=
  m.act (.ops (m.now.ops.map (fun o =>
    if o.warp = wi then
      { o with lanes := o.lanes.map (fun x => if x.lane = l ∧ x.state = .held then { x with state := .dead } else x) }
    else o)))

/-- Kill of one thread (R375). -/
def Sim.killThread (m : Sim k s0) (wi l : Nat) : Sim k s0 := (m.dropHeld wi l).endThread wi l

/-- Kill of every thread of a warp. -/
def Sim.killWarp (m : Sim k s0) (wi : Nat) : Sim k s0 := m.each (List.range 32) (fun m l => m.killThread wi l)

/-- Kill of every thread of a gang (R375, kill.g). -/
def Sim.killGang (m : Sim k s0) (gi : Nat) : Sim k s0 :=
  m.each (m.now.gang gi).wgs (fun m w => m.each (m.now.wg w).warps (fun m i => m.killWarp i))

/-- Kill of every placed gang of a launch, and no more placed (R375, kill.l). A saved gang of it retires. -/
def Sim.killLaunch (m : Sim k s0) (li : Nat) : Sim k s0 :=
  let m := m.modLaunch li (fun l => { l with killed := true })
  let m := m.each (m.now.gangs.filter (fun g => g.2.launch == li && g.2.state != .retired)) (fun m g =>
    let m := m.modGang g.1 (fun g => { g with state := if g.state = .flushed then .retired else .placed })
    (m.killGang g.1).retireCheck g.1)
  m.when (m.now.launchOver li) (fun m => m.launchDone li)

/-! ## Taking a trap (R360–R364) -/

/-- The trap vector of a warp's virtual function (R360). -/
def State.tvec (s : State) (wi : Nat) : DWord :=
  match Keyed.find s.vfs (s.launchOf wi).vf.toNat with
  | some v => v.desc.tvec
  | none => 0

/-- Whether a privileged word of a thread, or one that names a privileged index, takes PRIVILEGE (R12, R373, R395). -/
def State.denied (s : State) (wi : Nat) (t : Thread) : Bool := !t.priv || (s.boot.conf && s.tvec wi == 0)

/-- The value of tcause (R359, R360). -/
def tcauseOf (cause : Nat) (late : Bool) : Word :=
  BitVec.ofBool (0x0A ≤ cause && cause ≤ 0x0E) ++ BitVec.ofBool late ++ 0#22 ++ BitVec.ofNat 8 cause

/-- The thread that takes a trap: the resume address, cause and value saved, PRIV set, PC at TVEC; it is unparked and
leaves a collective or barrier as though it had not arrived (R360, R362). -/
def trapEntry (t : Thread) (ac : Nat) (tvec epc : DWord) (cause : Nat) (late : Bool) (tval : Word) : Thread :=
  { t with epc := epc, tcause := tcauseOf cause late, tval := tval, priv := true, pc := tvec, pos := 1
           line := [], entered := false, hold := .none, order := none, notBefore := ac + 1 }

/-- One thread takes a trap (R360–R365); base is the thread as it was before the word, with nothing of the word done.
A precise trap in a handler kills it (DOUBLE); with TVEC 0 its gang is killed
(KILLED); otherwise it enters the handler, and an imprecise trap is also posted. post is false where a report shared
by several threads has been posted already. -/
def Sim.takeTrap (m : Sim k s0) (wi l : Nat) (base : Thread) (x : TrapInfo) (post : Bool := true) : Sim k s0 :=
  let precise := x.cause ≤ 0x09
  let info : FaultInfo :=
    { cause := x.cause, late := x.late, warp := wi, lanes := x.lanes, tval := x.tval, pc := x.pc, va := x.va }
  if (m.now.thread wi l).life != .live then m
  else if precise && base.priv then
    let m := m.report { info with double := true }
    (m.blame wi x.cause x.tval).killThread wi l
  else if m.now.tvec wi = 0 then
    let tag := m.now.ownerOf wi
    let record := m.now.faultRecord { info with killed := true }
    let m := (m.blame wi x.cause x.tval).killGang (m.now.gangOf wi)
    m.when post (fun m => m.postFor tag 1 record)
  else
    let tvec := m.now.tvec wi
    let ac := m.now.ac
    let m := m.when (post && !precise && x.cause != 0x0E) (fun m => m.report info)
    let m := m.modThread wi l (fun _ => trapEntry base ac tvec x.epc x.cause x.late x.tval)
    m.blame wi x.cause x.tval

/-- A trap decided after its word issued becomes pending (R362). -/
def Sim.pendTrap (m : Sim k s0) (wi l : Nat) (p : Pending) : Sim k s0 :=
  m.modThread wi l (fun t => { t with pend := t.pend ++ [p] })

/-! ## The words of a line, and return from a trap (R374) -/

/-- The 16 words of a line in storage. -/
def State.lineWords (s : State) (loc : Nat) : List Word :=
  (List.range 16).map (fun i => bytesWord (s.bytes (loc + 4 * i) 4))

/-- The place of the line that a fetch reaches (R189, R191); one that meets a page on the move is held (R198). -/
def State.fetchPlace (s : State) (wi : Nat) (priv : Bool) (pc : DWord) : Xlat :=
  match s.translate (s.ownerOf wi) priv .fetch (lineBase pc) with
  | .refused => .refused
  | x => if s.moving (s.ownerOf wi) (lineBase pc) 64 then .migration else x

/-- A line as a core fetches it: the cached copy, unless a choice takes memory as it stands (R27). -/
def State.fetchWords (s : State) (core loc : Nat) : List Word :=
  match s.icache.find? (fun c => c.core == core && c.loc == loc) with
  | some c => if s.choice then s.lineWords loc else c.words
  | none => s.lineWords loc

/-- An instruction cache of 64 KiB makes room for one more line (R27). DESIGN CHOICE (log 13). -/
def Sim.icRoom (m : Sim k s0) (core : Nat) : Sim k s0 :=
  let held := m.now.icache.filter (fun c => c.core == core)
  if held.length < 1024 then m
  else match victim m.now.free (held.map (fun c => (c.loc, 0))) with
    | some x => m.drawn.act (.icache (m.now.icache.filter (fun c => !(c.core == core && c.loc == x))))
    | none => m

/-- A fetched line enters the instruction cache of its core. -/
def Sim.cacheLine (m : Sim k s0) (core loc : Nat) (ws : List Word) : Sim k s0 :=
  let m := m.act (.icache (m.now.icache.filter (fun c => !(c.core == core && c.loc == loc))))
  let m := m.icRoom core
  m.act (.icache ({ core := core, loc := loc, words := ws } :: m.now.icache))

/-- Where a thread issues next after a transfer taken now: arrival is 3 ac on (R126, R151). -/
def transferred (ac : Nat) (t : Thread) (target : DWord) : Thread :=
  arrive { t with pc := target, pos := 1, line := [], entered := false, notBefore := ac + 3 }

/-- The packet and the word position that an rfe target names (R374). -/
def wordAddr (t : DWord) : Option (DWord × Nat) :=
  let o := t.toNat % 64
  if 4 ≤ o ∧ o % 4 = 0 then some (t - BitVec.ofNat 64 ((o - 4) % 12), (o - 4) % 12 / 4 + 1) else none

/-- Whether a word is a PFX word (R59). -/
def isPfx (w : Word) : Bool := fMaj w == 31

/-- Whether word w of packet ix of a line is no word at which issue may begin, for the word before it (R374). -/
def midChain (ws : List Word) (ix w : Nat) : Bool :=
  let before := wordAt ws (1 + 3 * ix + w - 2)
  1 < w && (bitC before || isPfx before)

/-- The return from a trap (R374): PRIV is cleared, and the thread resumes at the word that epc names; a target that
is no such word traps again, as a trap of the resumed thread. -/
def Sim.returnTrap (m : Sim k s0) (wi l : Nat) (base : Thread) : Sim k s0 :=
  let t := base.epc
  let ac := m.now.ac
  let b := { base with priv := false }
  let go (m : Sim k s0) (b : Thread) := m.modThread wi l (fun _ => b)
  match wordAddr t with
  | none => (go m b).takeTrap wi l b { cause := 0x02, tval := 0, epc := t, pc := t, lanes := maskOf [l] }
  | some (p, w) =>
    let resume := if w = 1 then transferred ac b p else { transferred ac b p with pos := w, hold := .none }
    match m.now.fetchPlace wi false p with
    | .ok loc _ _ _ =>
      let ws := m.now.fetchWords (m.now.warp wi).core (loc - loc % 64)
      let ix := (packetIx p).getD 0
      if headerNpk (wordAt ws 0) ≤ ix then
        (go m b).takeTrap wi l b
          { cause := 0x01, tval := BitVec.ofNat 32 (9 * 2 ^ 24 + 1 + 3 * ix), epc := p, pc := p, lanes := maskOf [l] }
      else if midChain ws ix w then
        (go m b).takeTrap wi l b { cause := 0x02, tval := 0, epc := t, pc := t, lanes := maskOf [l] }
      else go m resume
    | _ => go m resume

end Sys2Proof.Machine
end

