-- ==== Sys2Proof/Machine/Operands.lean ====
section
/-! DEFINITION. Operands: registers and their quota (R6, R163), predicates (R8), guards (R57, R58), the B operand
(R96), queue registers as sources and destinations (R260–R268), results and the scoreboard (R24), flags (R25), and the
frame in which every word issues for its group (R22, R252, R265, R361). -/

namespace Sys2Proof.Machine

variable {k : Bool} {s0 : State}

/-! ## Registers and predicates -/

/-- A general register of a thread under a quota (R163). -/
def readReg (quota : Nat) (t : Thread) (code : Nat) : Word := if code < quota then Cells.get 0 t.regs code else 0

/-- A predicate; p7 reads true (R6, R8). -/
def readPred (t : Thread) (i : Nat) : Bool := i == 7 || t.preds.getLsbD i

/-- A predicate written; a write of p7 is discarded (R8). -/
def Thread.setPred (t : Thread) (i : Nat) (b : Bool) : Thread :=
  if i < 7 then { t with preds := if b then t.preds ||| BitVec.ofNat 8 (2 ^ i) else t.preds &&& ~~~ BitVec.ofNat 8 (2 ^ i) }
  else t

/-- A register written: discarded at or above the quota (R163). -/
def Thread.setReg (t : Thread) (quota code : Nat) (v : Word) : Thread :=
  if code < quota ∧ code < 112 then { t with regs := Cells.set 0 t.regs code v } else t

/-- When a result of an interlocked word may be read (R24): registers by code, predicate i as 128 + i. -/
def Thread.setBusy (t : Thread) (key until_ : Nat) : Thread :=
  { t with busy := Cells.set 0 t.busy key (Nat.max (Cells.get 0 t.busy key) until_) }

/-- Whether the guard of a word is true for a thread (R57). -/
def guardTrue (g : Option Guard) (t : Thread) : Bool :=
  match g with
  | none => true
  | some g => xor g.ng (readPred t g.pg.toNat)

/-- Whether a guard is the guard never (R57). -/
def guardNever (g : Option Guard) : Bool :=
  match g with
  | none => false
  | some g => g.ng && g.pg == 7

/-- A thread of the group as the chain found it (R22). -/
def Issue.thread (c : Issue) (l : Nat) : Thread := c.old.thread l

/-- The lanes of the group for which a guard is true, and that have not trapped at a word of the chain. -/
def State.performing (s : State) (g : Option Guard) : List Nat :=
  s.cur.lanes.filter (fun l => guardTrue g (s.cur.thread l) && !s.cur.traps.any (fun t => t.1 == l))

/-- The address of the word that issues. -/
def Issue.wordAddr (c : Issue) : DWord := c.pc + BitVec.ofNat 64 (4 * (c.pos - 1))
/-- The address of the first word of its chain, or of its PFX word (R361). -/
def Issue.chainAddr (c : Issue) : DWord := c.pc + BitVec.ofNat 64 (4 * (c.chain - 1))

/-- Where a word reads its sources: by lane and register code. -/
abbrev Src := Nat → Nat → Word

/-- A pair of sources (R7). -/
def Src.pair (r : Src) (l code : Nat) : DWord := cat64 (r l (code + 1)) (r l code)

/-- The immediate of an IMM24 prefix, sign-extended (R59). -/
def immOf : Pfx → Option Word
  | .imm24 i => some (i.signExtend 32)
  | _ => none

/-- The B operand (R96): the immediate of a prefix, or V[B]. -/
def State.bOperand (s : State) (r : Src) (l : Nat) (b : Reg) : Word :=
  match immOf s.cur.pfx with
  | some v => v
  | none => r l b.toNat

/-- The B operand of add64 and sub64, widened (R96, R106). -/
def State.bOperand64 (s : State) (r : Src) (l : Nat) (b : Reg) : DWord :=
  match s.cur.pfx with
  | .imm24 i => i.signExtend 64
  | _ => r.pair l b.toNat

/-! ## Precise traps at a word (R361) -/

/-- A precise trap of one thread at the word that issues: nothing of its chain takes effect for that thread. -/
def Sim.trapWord (m : Sim k s0) (l cause : Nat) (tval : Word) (va : DWord := 0) (epc : Option DWord := none) : Sim k s0 :=
  let c := m.now.cur
  let x : TrapInfo :=
    { cause := cause, tval := tval, epc := epc.getD c.chainAddr, pc := c.wordAddr, va := va, lanes := maskOf [l] }
  (m.takeTrap c.warp l (c.thread l) x).modCur (fun c => { c with traps := c.traps ++ [(l, x)] })

/-- The group is held at the word: its threads stand as the chain found them. -/
def Sim.stayAll (m : Sim k s0) : Sim k s0 :=
  let c := m.now.cur
  (m.each c.lanes (fun m l => m.modThread c.warp l (fun _ => c.thread l))).modCur (fun c => { c with stay := c.lanes })

/-! ## Queues (R260–R268) -/

/-- The binding of a queue register of a warp. -/
def Warp.queue (w : Warp) (q : Nat) : Binding := Keyed.get Binding.none w.queues q
/-- The binding changed. -/
def Warp.setQueue (w : Warp) (q : Nat) (b : Binding) : Warp := { w with queues := Keyed.put w.queues q b }

/-- Whether a kind is push side (R260). -/
def pushSide (kind : Nat) : Bool := (1 ≤ kind && kind ≤ 5) || kind == 7 || kind == 9
/-- Whether a kind is pop side. -/
def popSide (kind : Nat) : Bool := kind == 6 || kind == 8 || kind == 10

/-- Entries reserved in a queue, hardware and ring together. -/
def Binding.total (b : Binding) : Nat := b.hw.length + b.ring.length

/-- The warp that a PEER binding names: its record, in the same gang, and its register (R260, R270). -/
def State.peerOf (s : State) (wi : Nat) (b : Binding) : Option (Nat × Nat) :=
  match (s.gang (s.gangOf wi)).wgs.find? (fun g => (s.wg g).wgid == b.pwg) with
  | some g =>
    match (s.wg g).warps.find? (fun i => (s.warp i).num == b.pwarp) with
    | some i => if !(s.warp i).ended ∧ ((s.warp i).queue b.preg).kind = 8 then some (i, b.preg) else none
    | none => none
  | none => none

/-- Where an entry pushed to a register is stored: its own queue, or the INBOX of the target (R266); none when it is
dropped (R268). -/
def State.storeOf (s : State) (wi q : Nat) : Option (Nat × Nat) :=
  let b := (s.warp wi).queue q
  if b.kind = 7 then s.peerOf wi b else some (wi, q)

/-- Whether a push would be held, with a queue full and no spill (R264, R266). -/
def State.pushHeld (s : State) (wi q : Nat) : Bool :=
  match s.storeOf wi q with
  | some (i, r) => let b := (s.warp i).queue r; b.qs == 0 && 8 ≤ b.total
  | none => false

/-- Whether a push would take QUEUE_QUOTA (R267). -/
def State.pushFaults (s : State) (wi q : Nat) : Bool :=
  match s.storeOf wi q with
  | some (i, r) => let b := (s.warp i).queue r; b.qs != 0 && 8 + b.qs ≤ b.total
  | none => false

/-- Whether a pop would be held (R264): the entry at the head is not there, or not yet written. -/
def State.popHeld (s : State) (wi q : Nat) : Bool :=
  match ((s.warp wi).queue q).hw with
  | e :: _ => !(e.written && e.readyAt ≤ s.ac)
  | [] => true

/-- Whether naming a code as a source pops: it is bound to the pop side (R262). -/
def State.pops (s : State) (wi code : Nat) : Bool := 112 ≤ code && popSide ((s.warp wi).queue (code - 112)).kind
/-- Whether naming a code as a destination pushes (R261). -/
def State.pushes (s : State) (wi code : Nat) : Bool := 112 ≤ code && pushSide ((s.warp wi).queue (code - 112)).kind

/-- The bytes of a ring slot (R266). -/
def slotBytes (mask : Word) (words : List Word) : List Byte :=
  (List.range 32).flatMap (fun i => wordBytes (wordAt words i)) ++ wordBytes mask ++ List.replicate 124 0

/-- A ring slot written under the launch's owner (R266). -/
def Sim.writeSlot (m : Sim k s0) (wi : Nat) (b : Binding) (k_ : Nat) (e : QEntry) : Sim k s0 :=
  match m.now.translate (m.now.ownerOf wi) false .write (b.base + BitVec.ofNat 64 (256 * (k_ % b.qs))) with
  | .ok loc _ _ _ => m.agentWrite (m.now.ownerOf wi) ((List.range 256).map (loc + ·)) (slotBytes e.mask e.words)
  | _ => m

/-- An entry reserved at the tail of a queue (R261, R266): in hardware, or in the ring when the hardware holds eight
or the ring holds one. -/
def Sim.reserve (m : Sim k s0) (wi q : Nat) (e : QEntry) : Sim k s0 :=
  let b := (m.now.warp wi).queue q
  if b.hw.length < 8 ∧ b.ring.isEmpty then
    m.modWarp wi (fun w => w.setQueue q { b with hw := b.hw ++ [e] })
  else
    let m := m.modWarp wi (fun w => w.setQueue q { b with ring := b.ring ++ [(b.nextK, e)], nextK := b.nextK + 1 })
    m.when e.written (fun m => m.writeSlot wi b b.nextK e)

/-- The distance at which an entry becomes poppable (R263): 8 ac within a scheduler, 24 ac to another. -/
def State.peerDelay (s : State) (wi ti : Nat) : Nat := if s.schedOf wi = s.schedOf ti then 8 else 24

/-- One entry pushed by the group of a warp (R261, R268): written says whether its value is ready, at readyAt. An entry
to an INBOX that is gone sets LOST. -/
def Sim.pushEntry (m : Sim k s0) (wi q : Nat) (mask : Word) (words : List Word) (written : Bool) (readyAt : Nat) : Sim k s0 :=
  let b := (m.now.warp wi).queue q
  match m.now.storeOf wi q with
  | some (ti, r) =>
    let id := m.now.nextId
    let m := m.fresh
    if b.kind = 7 then
      (m.reserve ti r { id := id, origin := (wi, q), mask := mask, words := words, written := false
                        readyAt := if written then readyAt + m.now.peerDelay wi ti else 0 })
    else
      let m := m.reserve wi q { id := id, origin := (wi, q), mask := mask, words := words, written := written, readyAt := readyAt }
      m.when (b.kind ≤ 5) (fun m => m.modWarp wi (fun w => { w with unreceived := w.unreceived + 1 }))
  | none => m.modWarp wi (fun w => w.setQueue q { b with lost := true })

/-- The head entry taken by the group (R262). -/
def Sim.popEntry (m : Sim k s0) (wi q : Nat) : Sim k s0 :=
  m.modWarp wi (fun w => let b := w.queue q; w.setQueue q { b with hw := b.hw.tail })

/-- The head entry popped by some lanes: of an INBOX or a RESULT queue, an acquire by each of them (R211, R212). -/
def Sim.popFor (m : Sim k s0) (wi q : Nat) (lanes : List Nat) : Sim k s0 :=
  let kind := ((m.now.warp wi).queue q).kind
  let ac := m.now.ac
  (m.popEntry wi q).when (kind == 6 || kind == 8) (fun m =>
    m.each lanes (fun m l => m.modThread wi l (fun t => { t with fresh := ac + 1 })))

/-- The head entry of a queue. -/
def State.headEntry (s : State) (wi q : Nat) : QEntry :=
  ((s.warp wi).queue q).hw.headD { id := 0, origin := (0, 0), mask := 0, words := [], written := true, readyAt := 0 }

/-- Where the word reads: registers of the thread as the chain found it, the popped entry for a bound pop-side code, and
zero for any other queue code (R9, R262). -/
def State.source (s : State) : Src := fun l code =>
  if code < 112 then readReg (s.warp s.cur.warp).quota (s.cur.thread l) code
  else if s.pops s.cur.warp code then
    let e := s.headEntry s.cur.warp (code - 112)
    if laneBit e.mask l then wordAt e.words l else 0
  else 0

/-! ## Results (R24, R261) -/

/-- A register result of one thread, written at an ac: what lands above the quota is kept in case the quota rises before
that ac (R163). -/
def Thread.result (t : Thread) (quota code : Nat) (v : Word) (at_ ac : Nat) : Thread :=
  let t := (t.setReg quota code v).setBusy code at_
  if quota ≤ code ∧ code < 112 then { t with late := (code, at_, v) :: t.late.filter (fun r => ac ≤ r.2.1 && r.1 != code) } else t

/-- A register result of one thread at a latency. -/
def Sim.setResult (m : Sim k s0) (wi l code : Nat) (v : Word) (lat : Nat) : Sim k s0 :=
  let q := (m.now.warp wi).quota
  let ac := m.now.ac
  m.modThread wi l (fun t => t.result q code v (ac + lat) ac)

/-- A register written when an operation completes: a thread that has ended takes none (R127, R375). -/
def Sim.landResult (m : Sim k s0) (wi l code : Nat) (v : Word) : Sim k s0 :=
  let q := (m.now.warp wi).quota
  m.modThread wi l (fun t => if t.life = .live then t.setReg q code v else t)

/-- A predicate result of one thread of a warp at a latency. -/
def Sim.setPredResult (m : Sim k s0) (wi l i : Nat) (b : Bool) (lat : Nat) : Sim k s0 :=
  let ac := m.now.ac
  m.modThread wi l (fun t => (t.setPred i b).setBusy (128 + i) (ac + lat))

/-- A register result of one thread of the group that issues. -/
def Sim.writeReg (m : Sim k s0) (l code : Nat) (v : Word) (lat : Nat) : Sim k s0 :=
  m.setResult m.now.cur.warp l code v lat

/-- A predicate result of one thread of the group that issues. -/
def Sim.writePred (m : Sim k s0) (l i : Nat) (b : Bool) (lat : Nat) : Sim k s0 :=
  m.setPredResult m.now.cur.warp l i b lat

/-- The word of every lane: its value in the lanes given, zero elsewhere. -/
def laneWords (lanes : List Nat) (f : Nat → Word) : List Word :=
  (List.range 32).map (fun l => if lanes.contains l then f l else 0)

/-- A result of every performing lane to a destination: a register, an entry pushed to a bound queue, or discarded
(R9, R261). -/
def Sim.writeAll (m : Sim k s0) (lanes : List Nat) (d : Reg) (f : Nat → Word) (lat : Nat := 4) : Sim k s0 :=
  let code := d.toNat
  if code < 112 then m.each lanes (fun m l => m.writeReg l code (f l) lat)
  else if m.now.pushes m.now.cur.warp code then
    m.pushEntry m.now.cur.warp (code - 112) (maskOf lanes) (laneWords lanes f) true (m.now.ac + lat)
  else m

/-- A 64-bit result to a pair (R7). -/
def Sim.writePair (m : Sim k s0) (lanes : List Nat) (d : Reg) (f : Nat → DWord) (lat : Nat := 4) : Sim k s0 :=
  m.each lanes (fun m l => (m.writeReg l d.toNat (lo32 (f l)) lat).writeReg l (d.toNat + 1) (hi32 (f l)) lat)

/-! ## Flags of long-latency words (R15, R25) -/

/-- The flag that FS selects in the header of the word's line: SETA or SETB; 15 is none. -/
def flagOf (header : Word) (fs : Bool) : Option Nat :=
  let f := if fs then bits header.toNat 15 12 else bits header.toNat 19 16
  if f < 12 then some f else none

/-- The flag of a word in the group that issues. -/
def State.flagFor (s : State) (i : Instr) : Option Nat :=
  if (shapeOf i).long then flagOf s.cur.header (shapeOf i).fs else none

/-- The latency of an operation: its nominal figure, and what the model's own delays add.
DESIGN CHOICE (log 12). DEDUCED (log 30). -/
def State.dueIn (s : State) (lat : Nat) : Nat := s.ac + lat + s.delays.headD 0

/-- When an operation is due: one whose latency alone completes it takes no other delay (R25, R58). -/
def State.dueOf (s : State) (kind : OpKind) (lat : Nat) : Nat := if kind = .fixed then s.ac + lat else s.dueIn lat

/-- An operation of the group that issues, as it goes in flight (R25). -/
def State.opOf (s : State) (i : Instr) (kind : OpKind) (lanes : List LaneOp) (lat : Nat) (writes : List RegWrite) (scope : BitVec 3)
    (fem : BitVec 2) (push : Option (Nat × Nat)) (sample acks : Bool) (level : Nat) : Op :=
  { id := s.nextId, kind := kind, ins := i, pfx := s.cur.pfx, warp := s.cur.warp, pc := s.cur.pc, pos := s.cur.pos
    lanes := lanes, flag := s.flagFor i, issued := s.ac, due := s.dueOf kind lat, scope := scope, fem := fem
    writes := writes, push := push, level := level, sample := sample, acks := acks }

/-- An operation of the group in flight, its flag counted once for the group (R25, R141). -/
def Sim.launchOp (m : Sim k s0) (i : Instr) (kind : OpKind) (lanes : List LaneOp) (lat : Nat) (writes : List RegWrite := [])
    (scope : BitVec 3 := 3) (fem : BitVec 2 := 0) (push : Option (Nat × Nat) := none) (sample : Bool := false) (acks : Bool := false)
    (level : Nat := 0) : Sim k s0 :=
  let c := m.now.cur
  let f := m.now.flagFor i
  let o := m.now.opOf i kind lanes lat writes scope fem push sample acks level
  let m := m.fresh
  let m := m.act (.delays m.now.delays.tail)
  let m := m.act (.ops (m.now.ops ++ [o]))
  match f with
  | some f => m.modWarp c.warp (fun w => w.flagAdd f true)
  | none => m

/-! ## The frame of every word -/

/-- Whether a word aborts a thread in a try region with ILLEGAL (R252), apart from queue codes. -/
def regionIllegal (i : Instr) (p : Pfx) : Bool :=
  let maj := (fMaj (encode i)).toNat
  let fem := match p with | .memq _ _ _ f _ => f != 0 | _ => false
  maj == 15 || maj == 16 || (19 ≤ maj && maj ≤ 24) || maj == 27 || fem ||
  (match i with
   | .stm .. | .feset .. | .feclr .. | .fepoll .. | .bar .. | .gbar .. => true
   | .fenceAcq _ _ s | .fenceRel _ _ s | .fenceAr _ _ s => s != 0
   | _ => false)

/-- The queue codes that a word names as sources and destinations. -/
def queueReads (i : Instr) (p : Pfx) : List Nat := ((readsWith i p).filter (112 ≤ ·)).eraseDups
/-- The queue codes that a word writes. -/
def queueWrites (i : Instr) : List Nat := ((shapeOf i).writes.filter (112 ≤ ·)).eraseDups

/-- QNB with EN (R59, R265). -/
def qnbOf : Pfx → Option Nat
  | .qnb qp true => some qp.toNat
  | _ => none

/-- The frame of every word (R22, R58, R252, R261–R267): the lanes whose guard is true perform it; a thread in a region
aborts on a word that R252 names; a queue access that would be held holds the group, or with QNB sets P[QP]; a push
past its quota traps; then sources are popped and read, and body does the rest. -/
def issueWord (i : Instr) (s : State) (body : List Nat → Src → Sim false s → Sim false s) : Out :=
  let c := s.cur
  let wi := c.warp
  let m := begin_ false s
  let all := s.performing (shapeOf i).guard
  let qr := queueReads i c.pfx
  let qw := queueWrites i
  let inRegion (l : Nat) : Bool := (c.thread l).region.isSome
  let bad := all.filter (fun l => inRegion l && (regionIllegal i c.pfx || !qr.isEmpty || !qw.isEmpty))
  let lanes := all.filter (fun l => !bad.contains l)
  let m := m.each bad (fun m l => m.abortRegion wi l 8)
  if lanes.isEmpty then
    ran (m.when ((shapeOf i).long && !guardNever (shapeOf i).guard) (fun m => m.launchOp i .fixed [] 1))
  else
    let popq := qr.filter (s.pops wi)
    let pushq := qw.filter (s.pushes wi)
    let held := popq.any (fun x => s.popHeld wi (x - 112)) || pushq.any (fun x => s.pushHeld wi (x - 112))
    let excess := pushq.find? (fun x => s.pushFaults wi (x - 112))
    match qnbOf c.pfx with
    | some qp =>
      if held || excess.isSome then ran (m.each lanes (fun m l => m.writePred l qp true 4))
      else
        let m := m.each lanes (fun m l => m.writePred l qp false 4)
        let src := s.source
        ran (body lanes src (m.each popq (fun m x => m.popFor wi (x - 112) lanes)))
    | none =>
      if held then ran m.stayAll
      else match excess with
      | some x => ran (m.each lanes (fun m l => m.trapWord l 0x07 (BitVec.ofNat 32 (x - 112))))
      | none =>
        let src := s.source
        ran (body lanes src (m.each popq (fun m x => m.popFor wi (x - 112) lanes)))

end Sys2Proof.Machine
end

