-- ==== Sys2Proof/Machine/Fetch.lean ====
section
/-! DEFINITION. The decoding of a code line: header, words, prefixes and chains, with the failure that R75 reports
(R14–R21, R59–R63, R74, R75). -/

namespace Sys2Proof.Machine

/-! ## The header (R15) -/

/-- WAIT of a header, as flags. -/
def headerWait (h : Word) : List Nat := (List.range 12).filter (fun i => h.getLsbD (20 + i))

/-- Whether a header is legal (R15). -/
def headerOk (h : Word) : Bool :=
  let seta := bits h.toNat 19 16
  let setb := bits h.toNat 15 12
  (seta < 12 || seta == 15) && (setb < 12 || setb == 15) && 1 ≤ headerNpk h && headerNpk h ≤ 5 &&
  bits h.toNat 7 4 == 0 && bits h.toNat 3 0 == 5

/-! ## Prefixes (R59–R63) -/

/-- The payload of a PFX word, where its kind and its own fields are legal (R59, R63). -/
def parsePfx (p : Word) : Option Pfx :=
  match bits p.toNat 25 24 with
  | 0 => some (.imm24 (p.extractLsb' 0 24))
  | 1 =>
    if 5 < bits p.toNat 7 5 then none
    else some (.memq (p.extractLsb' 8 16) (p.extractLsb' 5 3) (p.extractLsb' 3 2) (p.extractLsb' 1 2) (p.getLsbD 0))
  | 2 =>
    if bits p.toNat 19 0 != 0 || (!p.getLsbD 20 && bits p.toNat 23 21 != 0) then none
    else some (.qnb (p.extractLsb' 21 3) (p.getLsbD 20))
  | _ => none

/-- Whether a word accepts IMM24 with the fields that the prefix replaces at zero (R61). -/
def acceptsImm (w : Word) : Bool :=
  let fn := (rrrFn w).toNat
  let b0 := rrrB w == 0
  match (fMaj w).toNat with
  | 1 => b0 && (fn ≤ 13 || (18 ≤ fn && fn ≤ 21))
  | 3 => b0 && fn ≤ 5
  | 9 => b0 && (fn ≤ 5 || (8 ≤ fn && fn ≤ 13))
  | 10 => b0 && fn ≤ 8
  | 26 => b0 && fn ≤ 3
  | 2 => (rriOp w).toNat ≤ 3 && rriImm w == 0
  | _ => false

/-- Whether a word accepts a MEMQ prefix with an FE mode and .spec (R61, R62). -/
def acceptsMemq (w : Word) (fem : BitVec 2) (spec : Bool) : Bool :=
  let maj := (fMaj w).toNat
  let sp := (mSp w).toNat
  13 ≤ maj && maj ≤ 16 && (!spec || maj == 13) &&
  (fem == 0 || ((sp == 1 || sp == 2) && maj ≤ 14)) && !(maj == 13 && fem == 3) && !(maj == 14 && fem == 2)

/-- The codes in the register fields of a word, by its format (R53). -/
def fieldCodes (w : Word) : List Nat :=
  let maj := (fMaj w).toNat
  if maj = 2 then [(immD w).toNat, (rriA w).toNat]
  else if maj = 4 then [(immD w).toNat]
  else if 13 ≤ maj && maj ≤ 16 then [(mT w).toNat, (mA w).toNat]
  else if 17 ≤ maj && maj ≤ 25 || maj = 27 then [(eD w).toNat, (eA w).toNat]
  else [(rrrD w).toNat, (rrrA w).toNat, (rrrB w).toNat]

/-- Whether a register field of a word names a queue code; 127 for live in a member mask names none (R54, R69).
DEDUCED (log 85). -/
def namesQueue (w : Word) (i : Instr) : Bool :=
  match i with
  | .qflush _ _ _ d a _ => 112 ≤ d.toNat || 112 ≤ a.toNat
  | .mma _ _ _ m a => (112 ≤ m.toNat && m.toNat != 127) || 112 ≤ a.toNat
  | _ => ((shapeOf i).reads ++ (shapeOf i).breg.toList ++ (shapeOf i).writes).any (fun c => 112 ≤ c && (fieldCodes w).contains c)

/-- Whether a word accepts a QNB prefix: it names a queue code in a register field, or is qstat (R61); no collective
accepts a prefix (R157). -/
def acceptsQnb (w : Word) : Bool :=
  match parseWord w with
  | .ok { ins := .qstat .., .. } => true
  | .ok p => fMaj w != 12 && namesQueue w p.ins
  | .error _ => false

/-- Whether a PFX word and the word that follows it make a legal pair, C apart (R60–R63). -/
def pairOk (p w : Word) : Bool :=
  w.toNat % 2 ^ 31 != 0 && !isPfx w &&
  (match parseWord w with | .error .major | .error .minor => false | _ => true) &&
  (match parsePfx p with
   | some (.imm24 _) => acceptsImm w
   | some (.memq _ _ _ fem spec) => acceptsMemq w fem spec
   | some (.qnb _ _) => acceptsQnb w
   | _ => false)

/-! ## Packets (R20, R21) -/

/-- A word of a packet with its PFX word; pos is the word position of the first of the two, wpos that of the word. -/
structure PacketUnit where
  pos : Nat
  wpos : Nat
  pfx : Option Word
  word : Word
  deriving DecidableEq, Repr

/-- The units of the words of a packet from a position on. A PFX word that modifies none stands alone. -/
def unitsFrom (pos : Nat) : List Word → List PacketUnit
  | [] => []
  | [w] => [{ pos := pos, wpos := pos, pfx := none, word := w }]
  | p :: w :: ws =>
    if isPfx p && !isPfx w then { pos := pos, wpos := pos + 1, pfx := some p, word := w } :: unitsFrom (pos + 2) ws
    else { pos := pos, wpos := pos, pfx := none, word := p } :: unitsFrom (pos + 1) (w :: ws)

/-- The units cut into chains: a chain ends at the first word with C = 0. A PFX word that stands alone ends one. -/
def chainsFrom : List PacketUnit → List (List PacketUnit)
  | [] => []
  | u :: us =>
    if bitC u.word && !isPfx u.word then
      match chainsFrom us with
      | [] => [[u]]
      | c :: cs => (u :: c) :: cs
    else [u] :: chainsFrom us

/-- The words of packet k of a line. -/
def packetWords (ws : List Word) (k_ : Nat) : List Word := [wordAt ws (1 + 3 * k_), wordAt ws (2 + 3 * k_), wordAt ws (3 + 3 * k_)]

/-- The chains of a packet. -/
def packetChains (ws : List Word) (k_ : Nat) : List (List PacketUnit) := chainsFrom (unitsFrom 1 (packetWords ws k_))

/-- Whether the word of a unit is a nop, which belongs to no pipe (R21, R56). -/
def PacketUnit.isNop (u : PacketUnit) : Bool := u.word.toNat % 2 ^ 31 == 0

/-- The slot of a unit that decodes. -/
def PacketUnit.slot? (u : PacketUnit) : Option Slot :=
  match decodeWord u.word with
  | .ok i => some { ins := i, pfx := (u.pfx.bind parsePfx).getD .none, pos := u.wpos }
  | .error _ => none

/-- The instruction that the codes of a unit's word name, legal or not. -/
def PacketUnit.named? (u : PacketUnit) : Option Instr :=
  match parseWord u.word with
  | .ok p => some p.ins
  | .error _ => none

/-- Whether some element stands twice in a list. -/
def hasDup : List Nat → Bool
  | [] => false
  | x :: xs => xs.contains x || hasDup xs

/-- Whether a chain is illegal (R20): it runs past word 3, or two of its words share a pipe, a result register or a
result predicate, also where one of them is illegal by itself (R75). DEDUCED (log 17). -/
def chainBad (c : List PacketUnit) : Bool :=
  let us := c.filter (fun u => !u.isNop && !isPfx u.word)
  let pipes := (us.map (fun u => pipeOfMajor (fMaj u.word).toNat)).filter (fun p => p != .none)
  (match c.getLast? with | some u => bitC u.word && !isPfx u.word | none => false) ||
  hasDup (pipes.map Pipe.num) ||
  hasDup (us.flatMap (fun u => u.named?.elim [] (fun i => (shapeOf i).writes.eraseDups))) ||
  hasDup (us.flatMap (fun u => u.named?.elim [] (fun i => (pwritesWith i ((u.pfx.bind parsePfx).getD .none)).eraseDups)))

/-- The failures of a packet: REASON code and word index (R75). DEDUCED (log 18). -/
def packetFailures (ws : List Word) (k_ : Nat) : List (Nat × Nat) :=
  let base := 3 * k_
  let words := (unitsFrom 1 (packetWords ws k_)).flatMap (fun u =>
    let pre : List (Nat × Nat) :=
      match u.pfx with
      | some p =>
        (if bitC p then [(2, base + u.pos)] else []) ++ (if pairOk p u.word then [] else [(3, base + u.pos)])
      | none => []
    let own : List (Nat × Nat) :=
      if isPfx u.word then (if bitC u.word then [(2, base + u.wpos)] else []) ++ [(3, base + u.wpos)]
      else match decodeWord u.word with
        | .ok _ => []
        | .error r => [(r.code, base + u.wpos)]
    pre ++ own)
  let chains := (packetChains ws k_).filterMap (fun c =>
    if chainBad c then c.head?.map (fun u => (2, base + u.pos)) else none)
  words ++ chains

/-- The failure of lower word index, then of lower REASON. -/
def worse (a b : Nat × Nat) : Nat × Nat := if a.2 < b.2 ∨ (a.2 = b.2 ∧ a.1 ≤ b.1) then a else b

/-- The failure that a line reports (R74, R75), if any: the header first, then the words of packets below NPK. -/
def lineFailure (ws : List Word) : Option (Nat × Nat) :=
  let h := wordAt ws 0
  if !headerOk h then some (1, 0)
  else match (List.range (headerNpk h)).flatMap (packetFailures ws) with
    | [] => none
    | f :: fs => some (fs.foldl worse f)

/-- The trap value of an illegal-encoding trap (R75). -/
def encodingTval (f : Nat × Nat) : Word := BitVec.ofNat 32 (f.1 * 2 ^ 24 + f.2 % 16)

/-! ## The bundle at a packet and position -/

/-- A bundle: where its chain begins, its slots, and the position after it; nopOnly when it issues in no ac (R21). -/
structure Bundle where
  chain : Nat
  slots : List Slot
  after : Nat
  nopOnly : Bool
  deriving DecidableEq, Repr

/-- The chain that holds position pos of packet k, from that position on. A thread that stands in the middle of a
packet stands at the first word of a chain, save after an rfe to a word (R374), which checks it. -/
def bundleAt (ws : List Word) (k_ pos : Nat) : Bundle :=
  let cs := chainsFrom ((unitsFrom 1 (packetWords ws k_)).filter (fun u => pos ≤ u.pos))
  match cs with
  | [] => { chain := pos, slots := [{ ins := .nop false, pfx := .none, pos := pos }], after := 4, nopOnly := true }
  | c :: _ =>
    let us := c.filter (fun u => !u.isNop)
    let after := (c.getLast?).elim 4 (fun u => u.wpos + 1)
    let nop := us.isEmpty
    { chain := (c.head?).elim pos (fun u => u.pos), slots := (if nop then c.take 1 else us).filterMap PacketUnit.slot?
      after := after, nopOnly := nop }

/-- The bundle that a thread issues next, from the line it has entered. -/
def nextBundle (t : Thread) : Bundle := bundleAt t.line ((packetIx t.pc).getD 0) t.pos

/-! ## Sequencing (R19) -/

/-- The address of the word at which a thread stands. -/
def Thread.wordAddr (t : Thread) : DWord := t.pc + BitVec.ofNat 64 (4 * (t.pos - 1))

/-- Whether a thread stands at a line that it has yet to enter (R15, R74). -/
def Thread.enters (ac : Nat) (t : Thread) : Bool :=
  t.life == .live && !t.entered && (t.hold == .none || t.hold == .commit) && t.notBefore ≤ ac

/-- A thread moved past a chain that ends before position after: to the next word of its packet, or to the packet that
follows. A line that it leaves is no longer entered. -/
def Thread.advance (t : Thread) (after : Nat) : Thread :=
  if after ≤ 3 then { t with pos := after }
  else
    let n := nextPacket (wordAt t.line 0) t.pc
    if lineBase n = lineBase t.pc then { t with pc := n, pos := 1 }
    else { t with pc := n, pos := 1, line := [], entered := false }

end Sys2Proof.Machine
end

