-- ==== Sys2Proof/Machine/Float.lean ====
section
/-! DEFINITION. The floating formats and their rounding (R76–R86). Every value is exact: a NaN, an infinity, or a
signed m × 2^e. -/

namespace Sys2Proof.Machine

/-- A format of R76: exponent bits, mantissa bits, and whether it lacks infinities (E4M3). -/
structure Fmt where
  eb : Nat
  mb : Nat
  noInf : Bool
  deriving DecidableEq, Repr

/-- FP32. -/
def fp32 : Fmt := ⟨8, 23, false⟩
/-- FP16. -/
def fp16 : Fmt := ⟨5, 10, false⟩
/-- BF16. -/
def bf16 : Fmt := ⟨8, 7, false⟩
/-- E4M3. -/
def e4m3 : Fmt := ⟨4, 3, true⟩
/-- E5M2. -/
def e5m2 : Fmt := ⟨5, 2, false⟩

/-- The width of an encoding. -/
def Fmt.width (f : Fmt) : Nat := 1 + f.eb + f.mb
/-- The exponent bias. -/
def Fmt.bias (f : Fmt) : Nat := 2 ^ (f.eb - 1) - 1
/-- The exponent of the least subnormal. -/
def Fmt.qmin (f : Fmt) : Int := 1 - (f.bias : Int) - f.mb
/-- The largest biased exponent of a finite value. -/
def Fmt.emax (f : Fmt) : Nat := if f.noInf then 2 ^ f.eb - 1 else 2 ^ f.eb - 2
/-- The exponent of the last place of the largest finite value. -/
def Fmt.qmax (f : Fmt) : Int := (f.emax : Int) - f.bias - f.mb
/-- The largest finite value, in units of its last place. -/
def Fmt.maxM (f : Fmt) : Nat := if f.noInf then 2 ^ (f.mb + 1) - 2 else 2 ^ (f.mb + 1) - 1
/-- The encoding of the largest finite value. -/
def Fmt.maxBits (f : Fmt) : Nat := f.emax * 2 ^ f.mb + (f.maxM - 2 ^ f.mb)
/-- The canonical NaN (R76). -/
def Fmt.nan (f : Fmt) : Nat :=
  if f.noInf then 2 ^ (f.eb + f.mb) - 1 else (2 ^ f.eb - 1) * 2 ^ f.mb + 2 ^ (f.mb - 1)
/-- The encoding of infinity, where there is one; otherwise the canonical NaN. -/
def Fmt.infBits (f : Fmt) : Nat := if f.noInf then f.nan else (2 ^ f.eb - 1) * 2 ^ f.mb
/-- The sign bit of an encoding. -/
def Fmt.sign (f : Fmt) (neg : Bool) : Nat := if neg then 2 ^ (f.eb + f.mb) else 0

/-- The value of an encoding. -/
inductive FVal where
  | nan (signalling : Bool)
  | inf (neg : Bool)
  | fin (neg : Bool) (m : Nat) (e : Int)
  deriving DecidableEq, Repr

/-- val(x, fmt) (R51, R76, R77). -/
def val (f : Fmt) (x : Nat) : FVal :=
  let neg := x / 2 ^ (f.eb + f.mb) % 2 == 1
  let e := x / 2 ^ f.mb % 2 ^ f.eb
  let m := x % 2 ^ f.mb
  if f.noInf ∧ e = 2 ^ f.eb - 1 ∧ m = 2 ^ f.mb - 1 then .nan false
  else if !f.noInf ∧ e = 2 ^ f.eb - 1 then
    if m = 0 then .inf neg else .nan (f.mb > 3 && m < 2 ^ (f.mb - 1))
  else if e = 0 then .fin neg m f.qmin
  else .fin neg (2 ^ f.mb + m) (f.qmin + (e : Int) - 1)

/-- A rounding mode (R65, R67, R82, R83); rs carries the width and the random value. -/
inductive RMode where
  | rne | rz | ru | rd
  | rs (n u : Nat)
  deriving DecidableEq, Repr

/-- The mode of a two-bit or three-bit rounding field below 4. -/
def modeOf (r : Nat) : RMode := match r with | 0 => .rne | 1 => .rz | 2 => .ru | _ => .rd

/-- The flags of R87: NV 4, DZ 3, OF 2, UF 1, NX 0. -/
abbrev FFlags := BitVec 5
/-- Invalid. -/
def flagNV : FFlags := 16
/-- Division by zero. -/
def flagDZ : FFlags := 8
/-- Overflow. -/
def flagOF : FFlags := 4
/-- Underflow. -/
def flagUF : FFlags := 2
/-- Inexact. -/
def flagNX : FFlags := 1
/-- A flag raised when a condition holds. -/
def flagIf (b : Bool) (f : FFlags) : FFlags := if b then f else 0

/-- A result: its encoding and the flags it raises. -/
structure FRes where
  bits : Nat
  flags : FFlags
  deriving DecidableEq, Repr

/-- Whether a magnitude n + rem/2^sh, with more beyond when sticky, rounds up to n + 1. -/
def roundsUp (mode : RMode) (neg : Bool) (n rem sh : Nat) (sticky : Bool) : Bool :=
  match mode with
  | .rne => 2 ^ sh < 2 * rem || (2 * rem == 2 ^ sh && (sticky || n % 2 == 1))
  | .rz => false
  | .ru => !neg && (rem != 0 || sticky)
  | .rd => neg && (rem != 0 || sticky)
  | .rs w u => 2 ^ w ≤ 2 ^ w * rem / 2 ^ sh + u

/-- A magnitude m × 2^e rounded to a multiple of 2^q: the multiple, and whether it is inexact. sticky says that the
exact magnitude lies between m × 2^e and (m + 1) × 2^e; m then has more bits than the format keeps, so that e < q. -/
def roundAt (mode : RMode) (neg : Bool) (m : Nat) (e : Int) (sticky : Bool) (q : Int) : Nat × Bool :=
  if q ≤ e then
    (m * 2 ^ (e - q).toNat, sticky)
  else
    let sh := (q - e).toNat
    let n := m / 2 ^ sh
    let rem := m % 2 ^ sh
    (if roundsUp mode neg n rem sh sticky then n + 1 else n, rem != 0 || sticky)

/-- The overflow value (R82, R84). -/
def overflowBits (f : Fmt) (mode : RMode) (neg sat : Bool) : Nat :=
  let toInf := match mode with | .rne | .rs .. => true | .rz => false | .ru => !neg | .rd => neg
  if toInf && !sat then (if f.noInf then f.nan else f.sign neg + f.infBits) else f.sign neg + f.maxBits

/-- round(x, fmt) of a finite exact value, with its flags (R82–R84, R86). m × 2^e is the magnitude; sticky says that
the exact value lies strictly between it and the next multiple of 2^e. -/
def roundFin (f : Fmt) (mode : RMode) (sat neg : Bool) (m : Nat) (e : Int) (sticky : Bool := false) : FRes :=
  if m = 0 ∧ sticky = false then { bits := f.sign neg, flags := 0 }
  else
    let top := e + (Nat.log2 m : Int)
    let qu := top - f.mb
    let q := max qu f.qmin
    let (n, inexact) := roundAt mode neg m e sticky q
    let excess := (f.maxM + 1) * 2 ^ (f.qmax - q).toNat ≤ n * 2 ^ (q - f.qmax).toNat
    if excess then { bits := overflowBits f mode neg sat, flags := flagOF ||| flagNX }
    else
      let tiny := decide (qu < f.qmin) && decide ((roundAt mode neg m e sticky qu).1 < 2 ^ (f.mb + (f.qmin - qu).toNat))
      { bits := f.sign neg + (q - f.qmin).toNat * 2 ^ f.mb + n
        flags := flagIf inexact flagNX ||| flagIf (tiny && inexact) flagUF }

/-- round(x, fmt) of any value (R77, R82, R84). sat replaces infinities by ±max. -/
def roundVal (f : Fmt) (mode : RMode) (sat : Bool) : FVal → FRes
  | .nan sig => { bits := f.nan, flags := flagIf sig flagNV }
  | .inf neg =>
    if sat then { bits := f.sign neg + f.maxBits, flags := 0 }
    else if f.noInf then { bits := f.nan, flags := flagNV } else { bits := f.sign neg + f.infBits, flags := 0 }
  | .fin neg m e => roundFin f mode sat neg m e

/-- Whether a value is a signalling NaN. -/
def FVal.signalling : FVal → Bool
  | .nan s => s
  | _ => false
/-- Whether a value is a NaN. -/
def FVal.isNan : FVal → Bool
  | .nan _ => true
  | _ => false
/-- The sign of a value. -/
def FVal.neg : FVal → Bool
  | .nan _ => false
  | .inf n => n
  | .fin n _ _ => n
/-- Whether a value is a zero. -/
def FVal.isZero : FVal → Bool
  | .fin _ m _ => m == 0
  | _ => false
/-- Whether a value is an infinity. -/
def FVal.isInf : FVal → Bool
  | .inf _ => true
  | _ => false
/-- The value with its sign inverted; a NaN stays. -/
def FVal.negate : FVal → FVal
  | .nan s => .nan s
  | .inf n => .inf (!n)
  | .fin n m e => .fin (!n) m e

/-- The exact product, and whether it is invalid (0 × ∞). -/
def mulVal (a b : FVal) : FVal × Bool :=
  let neg := a.neg != b.neg
  match a, b with
  | .nan s, .nan t => (.nan (s || t), false)
  | .nan s, _ => (.nan s, false)
  | _, .nan s => (.nan s, false)
  | .fin _ m _, .inf _ => if m = 0 then (.nan false, true) else (.inf neg, false)
  | .inf _, .fin _ m _ => if m = 0 then (.nan false, true) else (.inf neg, false)
  | .inf _, .inf _ => (.inf neg, false)
  | .fin _ m e, .fin _ n g => (.fin neg (m * n) (e + g), false)

/-- A finite value as an integer multiple of 2^q, for q at most its exponent. -/
def unitsAt (q : Int) : FVal → Int
  | .fin neg m e => let n : Int := ((m * 2 ^ (e - q).toNat : Nat) : Int); if neg then -n else n
  | _ => 0

/-- The least exponent among values. -/
def lowExp : List FVal → Int
  | [] => 0
  | [.fin _ _ e] => e
  | .fin _ _ e :: vs => min e (lowExp vs)
  | _ :: vs => lowExp vs

/-- The exact sum of several values, and whether it is invalid (R78, R110): infinities of both signs. -/
def sumVals (mode : RMode) (vs : List FVal) : FVal × Bool :=
  let nan := vs.any FVal.isNan
  let pos := vs.any (fun v => v.isInf && !v.neg)
  let negInf := vs.any (fun v => v.isInf && v.neg)
  if nan then (.nan (vs.any FVal.signalling), pos && negInf)
  else if pos && negInf then (.nan false, true)
  else if pos then (.inf false, false)
  else if negInf then (.inf true, false)
  else
    let q := lowExp vs
    let n := (vs.map (unitsAt q)).foldl (· + ·) 0
    if n = 0 then
      if vs.all (fun v => v.isZero && v.neg) then (.fin true 0 q, false)
      else if vs.all (fun v => v.isZero && !v.neg) then (.fin false 0 q, false)
      else (.fin (mode == .rd) 0 q, false)
    else (.fin (n < 0) n.natAbs q, false)

/-- A result with NV added where the operation is invalid or an operand signals. -/
def FRes.invalid (r : FRes) (nv : Bool) : FRes := { r with flags := r.flags ||| flagIf nv flagNV }

/-- x + y rounded once (R107). -/
def addF (f : Fmt) (mode : RMode) (x y : FVal) : FRes :=
  let (v, nv) := sumVals mode [x, y]
  (roundVal f mode false v).invalid nv

/-- x × y rounded once (R107). -/
def mulF (f : Fmt) (mode : RMode) (x y : FVal) : FRes :=
  let (v, nv) := mulVal x y
  (roundVal f mode false v).invalid nv

/-- The sum of exact products and a third operand, rounded once (R110). -/
def dotF (f : Fmt) (mode : RMode) (ps : List (FVal × FVal)) (d : FVal) : FRes :=
  let qs := ps.map (fun p => mulVal p.1 p.2)
  let (v, nv) := sumVals mode (qs.map (·.1) ++ [d])
  let sig := ps.any (fun p => p.1.signalling || p.2.signalling) || d.signalling
  (roundVal f mode false v).invalid (nv || sig || qs.any (·.2))

/-- The order of two values that are no NaN, with −0 equal to +0. -/
def cmpVal (x y : FVal) : Ordering :=
  match x, y with
  | .inf a, .inf b => if a = b then .eq else if a then .lt else .gt
  | .inf a, _ => if a then .lt else .gt
  | _, .inf b => if b then .gt else .lt
  | x, y =>
    let q := lowExp [x, y]
    compare (unitsAt q x) (unitsAt q y)

/-- A FP32 register's value. -/
def fval (w : Word) : FVal := val fp32 w.toNat
/-- An FP32 result as a word. -/
def FRes.word (r : FRes) : Word := BitVec.ofNat 32 r.bits

/-- A result in RNE FP32 without its flags, for the engines (R88). -/
def addR (x y : Word) : Word := (addF fp32 .rne (fval x) (fval y)).word
/-- A product in RNE FP32 without its flags. -/
def mulR (x y : Word) : Word := (mulF fp32 .rne (fval x) (fval y)).word

/-! ## The two-lane formats (R109, R110, R116) -/

/-- The 16-bit lane j of a word. -/
def half (w : Word) (j : Nat) : Nat := w.toNat / 2 ^ (16 * j) % 65536

/-- Two lane results packed, their flags joined. -/
def pack2 (r0 r1 : FRes) : Word × FFlags := (BitVec.ofNat 32 (r0.bits + 65536 * r1.bits), r0.flags ||| r1.flags)

/-- A two-lane operation (R109). -/
def lanes2 (f : Fmt) (op : FVal → FVal → FRes) (a b : Word) : Word × FFlags :=
  pack2 (op (val f (half a 0)) (val f (half b 0))) (op (val f (half a 1)) (val f (half b 1)))

/-- A two-lane fused multiply-add (R110). -/
def fma2 (f : Fmt) (mode : RMode) (a b d : Word) : Word × FFlags :=
  let lane (j : Nat) := dotF f mode [(val f (half a j), val f (half b j))] (val f (half d j))
  pack2 (lane 0) (lane 1)

/-! ## Integers (R113–R115) -/

/-- A finite value rounded to an integer (R113, R115): the magnitude and whether it is inexact. -/
def toInteger (mode : RMode) : FVal → Nat × Bool
  | .fin neg m e => roundAt mode neg m e false 0
  | _ => (0, false)

/-- Conversion to a 32-bit integer (R113). -/
def cvtInt (uns : Bool) (mode : RMode) (sat : Bool) (x : FVal) : Word × FFlags :=
  let lo : Int := if uns then 0 else -2 ^ 31
  let hi : Int := if uns then 2 ^ 32 - 1 else 2 ^ 31 - 1
  let bad : Word := if uns then 0xFFFFFFFF else 0x80000000
  match x with
  | .nan _ => (if sat then 0 else bad, flagNV)
  | .inf neg => if sat then (BitVec.ofInt 32 (if neg then lo else hi), 0) else (bad, flagNV)
  | .fin neg _ _ =>
    let (n, inexact) := toInteger mode x
    let w : Int := if neg then -(n : Int) else n
    if lo ≤ w ∧ w ≤ hi then (BitVec.ofInt 32 w, flagIf inexact flagNX)
    else if sat then (BitVec.ofInt 32 (if w < lo then lo else hi), flagNX)
    else (bad, flagNV)

/-- An integer as a value. -/
def ofInteger (n : Int) : FVal := .fin (n < 0) n.natAbs 0

/-- frnd (R115). -/
def frndF (mode : RMode) (x : FVal) : FRes :=
  match x with
  | .fin neg _ _ =>
    let (n, inexact) := toInteger mode x
    { bits := (roundFin fp32 .rne false neg n 0).bits, flags := flagIf inexact flagNX }
  | v => roundVal fp32 mode false v

/-! ## Minimum, maximum, comparison and class (R108, R120, R121) -/

/-- fmin or fmax of two encodings (R108). -/
def minMaxF (max_ : Bool) (a b : Word) : Word × FFlags :=
  let x := fval a
  let y := fval b
  let fl := flagIf (x.signalling || y.signalling) flagNV
  if x.isNan && y.isNan then (BitVec.ofNat 32 fp32.nan, fl)
  else if x.isNan then (b, fl)
  else if y.isNan then (a, fl)
  else
    let less := match cmpVal x y with
      | .lt => true
      | .gt => false
      | .eq => x.neg
    (if less != max_ then a else b, fl)

/-- fcmp (R120): conditions 0–5 eq, ne, lt, le, gt, ge, and 6 un. -/
def fcmpF (cond : Nat) (x y : FVal) : Bool × FFlags :=
  let un := x.isNan || y.isNan
  let sig := x.signalling || y.signalling
  let fl := flagIf (sig || (un && 2 ≤ cond && cond ≤ 5)) flagNV
  if cond = 6 then (un, fl)
  else if un then (cond == 1, fl)
  else
    let o := cmpVal x y
    (match cond with
     | 0 => o == .eq
     | 1 => o != .eq
     | 2 => o == .lt
     | 3 => o != .gt
     | 4 => o == .gt
     | _ => o != .lt, fl)

/-- The class of an FP32 value (R121). -/
def fclassOf (w : Word) : Nat :=
  match fval w with
  | .nan s => if s then 0 else 1
  | .inf n => if n then 2 else 9
  | .fin n m e =>
    if m = 0 then (if n then 5 else 6)
    else if m < 2 ^ 23 ∧ e = fp32.qmin then (if n then 4 else 7)
    else (if n then 3 else 8)

end Sys2Proof.Machine
end

