-- ==== Sys2Proof/Machine/Flags.lean ====
section
/-! DEFINITION. The IEEE flags of the warp (R86–R88, R141, R166). -/

namespace Sys2Proof.Machine

variable {k : Bool} {s0 : State}

/-- The flags that the lanes of a group raise (R166): ORed into fpst; a lane whose own flag is enabled sets its bit of
lxst. -/
def Sim.raise (m : Sim k s0) (lanes : List Nat) (fl : Nat → FFlags) : Sim k s0 :=
  let en := m.now.cur.fpen
  let all := lanes.foldl (fun f l => f ||| fl l) 0
  let hit := maskOf (lanes.filter (fun l => fl l &&& en != 0))
  let m := m.modWarp m.now.cur.warp (fun w => { w with fpst := w.fpst ||| all, lxst := w.lxst ||| hit })
  m.modCur (fun c => { c with raised := c.raised ||| all })

/-- Every lane's result written to D with its flags raised. -/
def Sim.writeF (m : Sim k s0) (lanes : List Nat) (d : Reg) (f : Nat → Word × FFlags) (lat : Nat := 4) : Sim k s0 :=
  (m.writeAll lanes d (fun l => (f l).1) lat).raise lanes (fun l => (f l).2)

/-- A result as a word with its flags. -/
def FRes.out (r : FRes) : Word × FFlags := (r.word, r.flags)

end Sys2Proof.Machine
end

