-- ==== Sys2Proof/Machine/Access.lean ====
section
/-! DEFINITION. Latencies (R171, R175, R226), and the order in which the accesses of a thread may be performed (R135,
R201–R209, R221–R225, R232). -/

namespace Sys2Proof.Machine

variable {k : Bool} {s0 : State}

/-! ## Latencies (R171, R175, R226) -/

/-- The level of a slice seen from a core: 2 near, 3 far on the same die, 4 on another. -/
def sliceLevel (core : Nat) (home : Nat × Nat) : Nat :=
  if dieOf core != home.1 then 4 else if sliceLatency core home = 180 then 2 else 3

/-- The read duplicate of a line in the die of a core (R179). -/
def State.dupOf (s : State) (core line : Nat) : CacheLine := Cells.get CacheLine.absent s.dups (4 * line + dieOf core)

/-- The slice that answers a load of a core for a line: a read duplicate of its die, or the home slice (R178, R179). -/
def State.servingSlice (s : State) (core loc pte : Nat) : Nat × Nat :=
  let d := s.dupOf core (lineOf loc)
  if d.held then (d.home / 80, d.home % 80) else homeOf loc (pteDie pte)

/-- The level at which the home slice of a line has it: 2 near L2, 3 far, 4 another die, 5 stacked cache, 6 LPDDR-6, 7 CXL,
8 host, 9 a zero line (R171, R182, R194). -/
def State.homeLevel (s : State) (core loc pte : Nat) : Nat :=
  let line := lineOf loc
  if (Cells.get CacheLine.absent s.l2 line).held then sliceLevel core (homeOf loc (pteDie pte))
  else if pteKind pte = 1 then 8
  else if s.zeroSc line then 9
  else if pteKind pte = 3 || (Cells.get CacheLine.absent s.sc line).held then 5
  else if pteKind pte = 2 then 7 else 6

/-- The level beyond L1 that serves a load: a read duplicate of the die, or what the home slice has (R179). -/
def State.lineLevel (s : State) (core loc pte : Nat) : Nat :=
  if (s.dupOf core (lineOf loc)).held then sliceLevel core (s.servingSlice core loc pte) else s.homeLevel core loc pte

/-- The unloaded latency of a level (R171). -/
def levelLatency (core : Nat) (home : Nat × Nat) (level : Nat) : Nat :=
  match level with
  | 1 => 36
  | 2 | 3 | 4 => sliceLatency core home
  | 5 | 9 => 420
  | 6 => 900
  | 7 => 1600
  | _ => 4800

/-- Passes of a core-local access (R175): the most distinct granules in one of 32 banks. -/
def passesOf (granules : List Nat) : Nat :=
  let d := granules.eraseDups
  ((List.range 32).map (fun b => (d.filter (fun g => g % 32 == b)).length)).foldl Nat.max 1

/-- Whether a place lies in the core-local allocation of a workgroup. -/
def inLocal (wg loc : Nat) : Bool := localLoc wg 0 ≤ loc && loc < localLoc wg 0 + 2 ^ 20

/-- The workgroup in whose allocation a core-local place lies. -/
def localWg (loc : Nat) : Nat := loc / 2 ^ 129

/-- What the passes of a group add to a core-local latency: the most of any array that it reaches (R175, R176). -/
def passDelay (lanes : List LaneOp) : Nat :=
  let gs := lanes.flatMap (fun ln => ln.loc.elim [] (fun loc => (unitsOf 4 loc ln.size).map (fun g => (localWg loc, g))))
  let arrays := (gs.map (·.1)).eraseDups
  2 * ((arrays.map (fun a => passesOf ((gs.filter (fun g => g.1 == a)).map (·.2)))).foldl Nat.max 1 - 1)

/-- Whether an access of SP 2 stays in the issuing workgroup's own allocation (R176). -/
def State.ownGang (s : State) (wi : Nat) (lanes : List LaneOp) : Bool :=
  lanes.all (fun ln => ln.loc.elim true (inLocal (s.warp wi).wg))

/-- The compute die of a Market address (R172). -/
def marketDie (loc : Nat) : Nat := loc % 2 ^ 27 / 2 ^ 25

/-- The largest of some latencies. -/
def maxOf (xs : List Nat) : Nat := xs.foldl Nat.max 0

/-! ## Order within a thread -/

/-- Whether an operation only reads its location. -/
def Op.isLoad (o : Op) : Bool := o.kind == .load
/-- Whether a word of an engine reads memory as a load at its place in program order (R307, R336, R351). -/
def Op.reads (o : Op) : Bool := match o.ins with | .dsel .. | .rot .. | .frd .. => true | _ => false
/-- Whether an operation is the store of a sample record, which belongs to no thread (R408). -/
def Op.isSample (o : Op) : Bool := match o.ins with | .cntselSmp .. => true | _ => false
/-- Whether an operation stores as a plain store in its thread's order: a store, pdisc (R220), fwr (R351). -/
def Op.stores (o : Op) : Bool := o.kind == .store || (match o.ins with | .pdisc .. | .fwr .. => true | _ => false)
/-- Whether an operation is an acquire by the FE bits that it reads: a load that waits on them, or fepoll (R209). -/
def Op.readsFe (o : Op) : Bool :=
  (o.kind == .load && (o.fem == 1 || o.fem == 2)) || (match o.ins with | .fepoll .. => true | _ => false)
/-- Whether an operation returns words of Market memory, by which an engine may signal (R212). -/
def Op.readsMarket (o : Op) : Bool :=
  match o.ins with
  | .ldm .. | .atomMkt .. | .mred .. | .mamax .. | .mscale .. => true
  | .cas _ _ _ sp _ _ | .casB64 _ _ _ sp _ _ => sp == 3
  | _ => false
/-- Whether an operation is an acquire by its own access. A read of Market memory is taken as one, since what it finds there
may be a signal. DEDUCED (log 91). -/
def Op.acquires (o : Op) : Bool := o.readsFe || o.readsMarket
/-- Whether an operation is a release by its own access: a store that sets FE bits, or feset (R209). -/
def Op.releases (o : Op) : Bool :=
  (o.kind == .store && (o.fem == 1 || o.fem == 3)) || (match o.ins with | .feset .. => true | _ => false)
/-- Whether an operation returns what it reads: what fence.acq waits for (R232). -/
def Op.returns (o : Op) : Bool :=
  match o.kind with
  | .load | .atomic => true
  | .engine => o.reads
  | .market => (match o.ins with | .madd .. => false | _ => true)
  | .fe => (match o.ins with | .fepoll .. => true | _ => false)
  | _ => false
/-- Whether an operation is a memory access in program order (R135, R221). -/
def Op.accesses (o : Op) : Bool := o.kind == .load || o.kind == .store || o.kind == .atomic || o.kind == .market || o.kind == .fe || o.kind == .page ||
  (o.kind == .engine && (o.reads || o.stores))

/-- The earlier or later accesses of one thread that satisfy a test. -/
def State.threadLanes (s : State) (wi l : Nat) (p : Op → Bool) : List (Op × LaneOp) :=
  s.ops.flatMap (fun o => if o.warp = wi ∧ o.accesses ∧ p o then (o.lanes.filter (fun x => x.lane == l)).map (fun x => (o, x)) else [])

/-- Whether two lanes touch a byte in common. A lane not yet translated is judged by its address. -/
def State.overlap (s : State) (owner : Tag) (a b : LaneOp) : Bool :=
  match a.loc, b.loc with
  | some _, some _ => let bs := s.laneLocs owner b; (s.laneLocs owner a).any (fun p => bs.contains p)
  | _, _ => a.addr.toNat < b.addr.toNat + b.size && b.addr.toNat < a.addr.toNat + a.size

/-- Whether two lanes lie in one group of spaces: generic, core-local, or Market (R222, note 1). -/
def sameSpaces (a b : LaneOp) : Bool :=
  match a.loc, b.loc with
  | some x, some y => isGeneric x == isGeneric y && (2 ^ 128 ≤ x) == (2 ^ 128 ≤ y)
  | some x, none | none, some x => isGeneric x
  | none, none => true

/-- Whether an access is performed at a scope (R202): done, or at scope core in the L1 of its core. -/
def performedAt (scope : BitVec 3) (x : LaneOp) : Bool := x.final || (scope == 0 && x.state == .written)

/-- Whether every access that a thread made before operation n, and every store that it may have read through its core's
L1, is performed at a scope (R207). -/
def State.performedBefore (s : State) (wi l n : Nat) (scope : BitVec 3) : Bool :=
  (s.threadLanes wi l (fun o => o.id < n)).all (fun x => performedAt scope x.2) &&
  (scope == 0 || (s.l1Stores (s.warp wi).core).all (fun x => n ≤ x.1))

/-- Whether every entry that a thread pushed before operation n has been received, or may be popped by the warp it was
pushed to (R222–R225, the push row). -/
def State.pushesDone (s : State) (wi l n : Nat) : Bool :=
  (s.warp wi).queues.all (fun q =>
    if q.2.kind = 7 then
      (match s.peerOf wi q.2 with
       | some (ti, r) =>
         let t := (s.warp ti).queue r
         (t.hw ++ t.ring.map (·.2)).all (fun e => e.origin != (wi, q.1) || n ≤ e.id || !laneBit e.mask l || e.written)
       | none => true)
    else !pushSide q.2.kind || (q.2.hw ++ q.2.ring.map (·.2)).all (fun e => n ≤ e.id || !laneBit e.mask l))

/-- Whether a release of a thread at a scope, issued when the next operation number was n, is fulfilled (R207, R232). -/
def State.released (s : State) (wi l n : Nat) (scope : BitVec 3) : Bool :=
  s.performedBefore wi l n scope && s.pushesDone wi l n

/-- Whether a release of a thread holds what it pushed or stored as operation n (R232). -/
def State.relHolds (s : State) (wi l n : Nat) : Bool :=
  (s.thread wi l).relUpTo.any (fun r => r.1 ≤ n && !s.released wi l r.1 r.2)

/-- Whether every earlier load, atomic and returning operation of a thread has completed (R232). -/
def State.acquired (s : State) (wi l n : Nat) : Bool :=
  (s.threadLanes wi l (fun o => o.id < n && o.returns)).all (fun x => x.2.final)

/-- Whether a release of the thread still holds an access of it that writes, or the release that the access itself is
(R209, R232). -/
def State.releaseHolds (s : State) (o : Op) (l : Nat) : Bool :=
  (!o.isLoad && !o.reads && s.relHolds o.warp l o.id) || (o.releases && !s.released o.warp l o.id 1)

/-- Whether an acquire of the thread holds an access that its chain issued behind it (R207, R232). -/
def State.acquireHolds (s : State) (o : Op) (l : Nat) : Bool :=
  let t := s.thread o.warp l
  t.acqUpTo ≤ o.id && !s.acquired o.warp l t.acqUpTo

/-- Whether a thread has an earlier store, below operation n, that the MMP has yet to decide (R367, R371). -/
def State.storeWaits (s : State) (wi l n : Nat) : Bool :=
  (s.threadLanes wi l (fun o => o.kind == .store && o.id < n)).any (fun x => x.2.state == .held)

/-- Whether a thread has still to take the trap of a refused store (R363, R367). -/
def State.storeTrap (s : State) (wi l : Nat) : Bool :=
  let t := s.thread wi l
  !t.priv && t.pend.any (fun p => p.cause == 0x0A)

/-- Whether a thread must still stand at a word that it has issued (R232, R256, R367). -/
def State.stands (s : State) (wi l : Nat) : Bool :=
  match (s.thread wi l).order with
  | none => false
  | some o => match o.what with
    | .ar scope => !s.acquired wi l o.below || !s.released wi l o.below scope || s.storeTrap wi l
    | .rel => s.storeWaits wi l o.below || s.storeTrap wi l
    | .commit => true

/-- Whether the vote of the mma, or the barrier, at which the thread stands keeps an access of the same chain from being
performed (R208, R361). -/
def State.standHolds (s : State) (o : Op) (l : Nat) : Bool :=
  match (s.thread o.warp l).hold with
  | .coll a => a.pc == o.pc && a.first ≤ o.id && (match a.ins with | .mma .. => true | _ => false)
  | .barrier _ _ below => below ≤ o.id
  | _ => false

/-- The generic lines that engines own (R210). -/
def State.ownedLines (s : State) : List Nat := s.cmds.flatMap (fun c => c.owned)

/-- Whether the recall of an engine's line holds a lane (R210). -/
def State.recalled (s : State) (owner : Tag) (x : LaneOp) : Bool :=
  let own := s.ownedLines
  !own.isEmpty && (s.laneLocs owner x).any (fun p => own.contains (lineOf p))

/-- Whether a later write to some places must wait for a matrix operation that has not yet copied its parameter block (R289). -/
def State.blockHolds (s : State) (n : Nat) (locs : List Nat) : Bool :=
  s.mops.any (fun p => p.waits && p.block.isEmpty && p.id < n &&
    (let base := localLoc (s.warp p.warp).wg (128 * bits p.ctl.toNat 11 0)
     locs.any (fun q => decide (base ≤ q) && decide (q < base + 128))))

/-- Whether a write is held by a line that a matrix operation has pinned, or by one that has not yet copied its parameter
block (R289, R294). -/
def State.pinHolds (s : State) (o : Op) (x : LaneOp) : Bool :=
  !o.isLoad && !o.reads && (s.blockHolds o.id (s.laneLocs (s.ownerOf o.warp) x) || s.mops.any (fun p =>
    (!p.seen.isEmpty && (s.laneLocs (s.ownerOf o.warp) x).any (fun q =>
      isGeneric q && (Keyed.find p.seen q).isSome)) ||
    (p.block.isEmpty && (match p.src with
      | .mma lanes ops => p.warp == o.warp && laneBit lanes x.lane && ops.any (fun e => e < o.id)
      | _ => false))))

/-- Whether the L1 of a core holds every line of a lane. -/
def State.inL1 (s : State) (core : Nat) (owner : Tag) (x : LaneOp) : Bool :=
  ((s.laneLocs owner x).map lineOf).eraseDups.all (fun n => (s.l1Line core n).isSome)

/-- Whether an earlier access of the same thread keeps a lane from being performed: an overlapping one that is not
complete (a load passes a store that its L1 holds), an acquire (R209), or for a store an earlier store of the same spaces
(R222, note 1) that is neither in L1 nor performed. -/
def State.orderHolds (s : State) (o : Op) (x : LaneOp) : Bool :=
  let owner := s.ownerOf o.warp
  let core := (s.warp o.warp).core
  (s.threadLanes o.warp x.lane (fun e => e.id < o.id)).any (fun e =>
    !e.2.final &&
    ((s.overlap owner e.2 x && !(o.isLoad && e.2.state == .written && s.inL1 core owner x)) || e.1.acquires ||
     (o.stores && e.1.stores && (e.2.state == .going || e.2.state == .held) && sameSpaces e.2 x)))

/-- Whether a store that the L1 of the core took earlier keeps an access from its home slice (R202): what threads of the core
may have read there comes first. -/
def State.coreHolds (s : State) (o : Op) (x : LaneOp) : Bool :=
  let owner := s.ownerOf o.warp
  let core := (s.warp o.warp).core
  !(o.isLoad && s.inL1 core owner x) &&
  (s.l1Stores core).any (fun y =>
    !(y.1 == o.id && y.2.2.lane == x.lane) &&
    (x.state != .written || y.1 < o.id || (y.1 == o.id && y.2.2.lane < x.lane)) &&
    (let ls := s.laneLocs owner x; (s.laneLocs y.2.1 y.2.2).any (fun p => ls.contains p)))

/-- Whether a lane stands in its thread's order so that its access may be performed: no earlier access, acquire, release or
vote holds it, no store in the L1 of its core, and no engine's line (R202–R210, R294). -/
def State.inOrder (s : State) (o : Op) (x : LaneOp) : Bool :=
  !s.orderHolds o x && !s.acquireHolds o x.lane && !s.standHolds o x.lane && !s.releaseHolds o x.lane && !s.coreHolds o x &&
  !s.recalled (s.ownerOf o.warp) x && !s.pinHolds o x

/-- Whether a load would read an L1 line that misses a write which came before an acquire of its thread, and that cannot be
fetched again before a store of its own core is performed (R203, R206). -/
def State.staleHolds (s : State) (o : Op) (x : LaneOp) : Bool :=
  o.isLoad && (((s.laneLocs (s.ownerOf o.warp) x).filter isGeneric).map lineOf).any (fun n =>
    match s.l1Line (s.warp o.warp).core n with
    | some e => e.stale.isNone && e.since.any (fun w => w < (s.thread o.warp x.lane).fresh)
    | none => false)

/-! ## FE bits (R174) -/

/-- The FE mode of an operation that waits, and whether it waits for FULL. -/
def Op.waitsFull (o : Op) : Option Bool :=
  match o.kind, o.fem.toNat with
  | .load, 1 | .load, 2 => some true
  | .store, 1 => some false
  | _, _ => none

/-- Whether the FE condition of a lane holds. -/
def State.feReady (s : State) (o : Op) (x : LaneOp) : Bool :=
  match o.waitsFull, x.loc with
  | some full, some loc => (unitsOf 4 loc x.size).all (fun g => s.full g == full)
  | _, _ => true

/-- Whether two core-local lanes touch a granule in common. -/
def overlapUnits (x y : LaneOp) : Bool :=
  match x.loc, y.loc with
  | some a, some b => let us := unitsOf 4 a x.size; (unitsOf 4 b y.size).any (fun u => us.contains u)
  | _, _ => false

/-- The FE bits afterwards. -/
def Sim.feAfter (m : Sim k s0) (o : Op) (x : LaneOp) : Sim k s0 :=
  let set (b : Bool) (m : Sim k s0) := m.each (unitsOf 4 (x.loc.getD 0) x.size) (fun m g => m.act (.fe g b))
  match o.kind, o.fem.toNat with
  | .load, 2 => set false m
  | .store, 1 | .store, 3 => set true m
  | _, _ => m

/-- Whether a lane may reach its ordering point now, FE bits apart. DEDUCED (log 29). -/
def State.mayReach (s : State) (o : Op) (x : LaneOp) : Bool :=
  x.state != .held && x.loc.isSome && s.inOrder o x && !o.acks && !s.staleHolds o x

/-- Whether one lane reached its bank before another: in order of the nominal arrival, then of issue. -/
def reachedFirst (p : Op) (y : LaneOp) (o : Op) (x : LaneOp) : Bool :=
  p.due < o.due || (p.due == o.due && (p.id < o.id || (p.id == o.id && y.lane < x.lane)))

/-- Whether no waiting access that reached the bank earlier, and whose condition holds too, takes the granules first
(R174). DEDUCED (log 89). -/
def State.feTurn (s : State) (o : Op) (x : LaneOp) : Bool :=
  o.waitsFull.isNone || !s.ops.any (fun p => p.waitsFull.isSome && p.due ≤ s.ac && p.lanes.any (fun y =>
    !y.final && reachedFirst p y o x && overlapUnits x y && s.feReady p y && s.mayReach p y))

/-- Whether a lane may be performed now. -/
def State.mayPerform (s : State) (o : Op) (x : LaneOp) : Bool := s.mayReach o x && s.feReady o x && s.feTurn o x

end Sys2Proof.Machine
end

