-- ==== Sys2Proof/Machine/Memory.lean ====
section
/-! DEFINITION. Memory words: their issue (R133, R172, R190, R191, R194–R196, R251, R370), and the performing and
completion of their lanes (R25, R133, R174, R203, R237, R239–R243, R368, R371, R372). -/

namespace Sys2Proof.Machine

variable {k : Bool} {s0 : State}

/-! ## The qualifiers of an access (R59, R60) -/

/-- OFF16 of a word, sign-extended. -/
def memOff : Pfx → DWord
  | .memq off _ _ _ _ => off.signExtend 64
  | _ => 0
/-- SCOPE. -/
def memScope : Pfx → BitVec 3
  | .memq _ sc _ _ _ => sc
  | _ => 3
/-- HINT. -/
def memHint : Pfx → Nat
  | .memq _ _ h _ _ => h.toNat
  | _ => 0
/-- FEM. -/
def memFem : Pfx → BitVec 2
  | .memq _ _ _ f _ => f
  | _ => 0
/-- SPEC. -/
def memSpec : Pfx → Bool
  | .memq _ _ _ _ b => b
  | _ => false

/-- Bytes that a load of a width code touches (R70). -/
def loadSize (fn : BitVec 4) : Nat := match fn.toNat with | 0 => 4 | 1 | 2 => 1 | 3 | 4 => 2 | 5 => 8 | _ => 16
/-- Bytes that a store of a width code touches. -/
def storeSize (fn : BitVec 4) : Nat := match fn.toNat with | 0 => 4 | 1 => 1 | 2 => 2 | 3 => 8 | _ => 16
/-- Bytes of the location of an atomic (R236). -/
def atomSize (fn : Nat) : Nat := if fn = 10 ∨ fn = 12 then 8 else 4

/-- The words that a load of a width code writes (R132). -/
def loadWords (fn : BitVec 4) (bs : List Byte) : List Word :=
  match fn.toNat with
  | 2 => [(bs.getD 0 0).signExtend 32]
  | 4 => [(bs.getD 1 0 ++ bs.getD 0 0).signExtend 32]
  | 5 => [bytesWord (bs.take 4), bytesWord (bs.drop 4)]
  | 6 => (List.range 4).map (fun i => bytesWord ((bs.drop (4 * i)).take 4))
  | _ => [bytesWord bs]

/-- The bytes of consecutive source registers of a lane. -/
def regBytes (r : Src) (l t n : Nat) : List Byte := (List.range n).flatMap (fun i => wordBytes (r l (t + i)))
/-- The bytes that a store reads from T (R132). -/
def storeBytes (fn : BitVec 4) (r : Src) (l : Nat) (t : Reg) : List Byte :=
  match fn.toNat with
  | 1 => (wordBytes (r l t.toNat)).take 1
  | 2 => (wordBytes (r l t.toNat)).take 2
  | 0 => wordBytes (r l t.toNat)
  | 3 => regBytes r l t.toNat 2
  | _ => regBytes r l t.toNat 4

/-! ## Try buffers (R251) -/

/-- The bytes that a try buffer holds for an access from a place on, each after its offset. -/
def Region.overlay (g : Region) (locs : List Nat) : List Byte :=
  (locs.zip (List.range locs.length)).flatMap (fun p =>
    match Keyed.find g.buffer p.1 with
    | some b => [BitVec.ofNat 8 p.2, b]
    | none => [])

/-- Overlay bytes laid over those read. -/
def applyOverlay (bs : List Byte) : List Byte → List Byte
  | off :: b :: rest => applyOverlay (bs.set off.toNat b) rest
  | _ => bs

/-- How each line of a lane's access is reached: the line, the entry that it is translated by, and the address of its
first byte. -/
def State.linePlaces (s : State) (owner : Tag) (x : LaneOp) (locs : List Nat) : List (Nat × Nat × DWord) :=
  (locs.zip (List.range locs.length)).foldl (fun r p =>
    if r.any (fun e => e.1 == lineOf p.1) then r
    else
      let va := x.addr + BitVec.ofNat 64 p.2
      let pte := if x.pte = 0 then 0 else match s.translate owner true .read va with
        | .ok _ _ e _ => e
        | _ => x.pte
      r ++ [(lineOf p.1, pte, va - BitVec.ofNat 64 (p.1 % 128))]) []

/-- A store placed in the try buffer of a thread (R251, R253): ALIAS on a line of its own read set, OVERFLOW where the
warp has no room. -/
def Sim.bufferStore (m : Sim k s0) (wi : Nat) (x : LaneOp) (locs : List Nat) : Sim k s0 :=
  match (m.now.thread wi x.lane).region with
  | none => m
  | some g =>
    let lines := (locs.map lineOf).eraseDups
    if lines.any (fun n => g.reads.contains n) then m.abortRegion wi x.lane 3
    else if !m.now.tryRoom wi (lines.filter (fun n => !g.writeLines.contains n)).length then m.abortWarp wi 2
    else
      let new := (m.now.linePlaces (m.now.ownerOf wi) x locs).filter (fun e => !g.places.any (fun f => f.1 == e.1))
      (m.modThread wi x.lane (fun t =>
        { t with region := some { g with buffer := (locs.zip x.data).foldl (fun b p => Keyed.put b p.1 p.2) g.buffer
                                         places := g.places ++ new } })).fitL1 (m.now.warp wi).core

/-- A .spec load enters the read set of a thread in a region (R251). -/
def Sim.readSet (m : Sim k s0) (wi l : Nat) (locs : List Nat) : Sim k s0 :=
  match (m.now.thread wi l).region with
  | none => m
  | some g =>
    let new := ((locs.map lineOf).eraseDups).filter (fun n => !g.writeLines.contains n && !g.reads.contains n)
    if !m.now.tryRoom wi new.length then m.abortWarp wi 2
    else (m.modThread wi l (fun t => { t with region := some { g with reads := g.reads ++ new } })).fitL1 (m.now.warp wi).core

/-! ## Unbacked pages (R194–R196) -/

/-- An owner's reservation on a die set. -/
def Sim.setRes (m : Sim k s0) (owner : Tag) (die n : Nat) : Sim k s0 :=
  m.act (.reserved ((if n = 0 then [] else [{ owner := owner, die := die, units := n }]) ++
    m.now.reserved.filter (fun r => !(r.owner == owner && r.die == die))))

/-! ## Admission of one lane -/

/-- The answer that decides a lane at issue: it proceeds, is refused, waits for the MMP or the host, or finds no unit
for the page that it would charge. -/
inductive Admit where
  | go (loc pte : Nat)
  | refused
  | held
  | full
  deriving DecidableEq, Repr

/-- What becomes of one lane's access (R172, R189–R191, R194, R196, R198, R237). aligned is false where the access breaks
an alignment that its word requires. -/
def State.admitAccess (s : State) (wi : Nat) (priv : Bool) (acc : Access) (sp : Nat) (x : DWord) (n : Nat) (aligned atomic : Bool) : Admit :=
  if !aligned then .refused else
  match s.locate wi priv acc sp x n with
  | .refused => .refused
  | .ok loc _ pte _ =>
    if atomic ∧ sp = 0 ∧ pteKind pte = 1 ∧ pteCache pte = 1 then .refused
    else if sp = 0 && s.moving (s.ownerOf wi) x n then .held
    else if sp = 0 ∧ acc.writes then
      let ps := s.toCharge (s.ownerOf wi) x n
      if s.unitsCover (s.ownerOf wi) ps then .go loc pte
      else if s.unitsWait (s.ownerOf wi) ps then .held else .full
    else .go loc pte
  | _ => .held

/-! ## Operations -/

/-- An operation changed. -/
def Sim.modOp (m : Sim k s0) (id : Nat) (f : Op → Op) : Sim k s0 :=
  m.act (.ops (m.now.ops.map (fun o => if o.id = id then f o else o)))
/-- A lane of an operation changed. -/
def Sim.modLane (m : Sim k s0) (id lane : Nat) (f : LaneOp → LaneOp) : Sim k s0 :=
  m.modOp id (fun o => { o with lanes := o.lanes.map (fun x => if x.lane = lane then f x else x) })
/-- The operation of a number. -/
def State.op? (s : State) (id : Nat) : Option Op := s.ops.find? (fun o => o.id == id)
/-- The address of the word of an operation. -/
def Op.wordAddr (o : Op) : DWord := o.pc + BitVec.ofNat 64 (4 * (o.pos - 1))

/-- A trap decided after issue (R362): pending in the thread, or, when it has ended, a record with EXITED (R366). -/
def Sim.lateTrap (m : Sim k s0) (wi l : Nat) (p : Pending) : Sim k s0 :=
  if (m.now.thread wi l).life == .live then m.pendTrap wi l p
  else (m.report { cause := p.cause.toNat, late := p.late, exited := true, warp := wi, lanes := maskOf [l]
                   tval := p.tval, pc := p.pc, va := p.va }).blame wi p.cause.toNat p.tval

/-- An uncorrectable error for one lane of an operation (R368); one of integrity is counted (R401). -/
def Sim.uncorrectable (m : Sim k s0) (o : Op) (x : LaneOp) : Sim k s0 :=
  let owner := m.now.ownerOf o.warp
  let m := m.when ((m.now.laneLocs owner x).any (m.now.keyFault owner)) (fun m => m.count (m.now.schedOf o.warp) 0x142 owner 1)
  m.lateTrap o.warp x.lane { cause := 0x0C, late := false, tval := lo32 x.addr, pc := o.wordAddr, va := x.addr }

/-- A lane of an access refused after its word issued: a store is reported as STORE, any other as ACCESS with LATE; a
sample record is dropped (R408). DEDUCED (log 44). -/
def Sim.refuseLane (m : Sim k s0) (o : Op) (x : LaneOp) : Sim k s0 :=
  let p : Pending :=
    { cause := if o.kind == .store then 0x0A else 0x09, late := o.kind != .store, tval := lo32 x.addr, pc := o.wordAddr, va := x.addr }
  let m := if o.isSample then m.count (m.now.schedOf o.warp) 0x211 (m.now.ownerOf o.warp) 1 else m.lateTrap o.warp x.lane p
  m.modLane o.id x.lane (fun x => { x with state := .refused })

/-- A lane that finds no unit for the page that it would charge, after its word issued (R196). -/
def Sim.fullLane (m : Sim k s0) (o : Op) (x : LaneOp) : Sim k s0 :=
  if o.isSample then m.refuseLane o x
  else
    (m.lateTrap o.warp x.lane { cause := 0x08, late := true, tval := lo32 x.addr, pc := o.wordAddr, va := x.addr }).modLane o.id x.lane
      (fun x => { x with state := .refused })

/-- The queue entry of an operation that pushes: word of a lane set. -/
def Sim.fillEntry (m : Sim k s0) (wi q id lane : Nat) (w : Word) : Sim k s0 :=
  match m.now.storeOf wi q with
  | none => m
  | some (ti, r) =>
    let set (e : QEntry) : QEntry := if e.id = id then { e with words := e.words.set lane w } else e
    m.modWarp ti (fun v => let b := v.queue r
      v.setQueue r { b with hw := b.hw.map set, ring := b.ring.map (fun p => (p.1, set p.2)) })

/-- The queue entry of an operation becomes visible (R261, R263). -/
def Sim.finishEntry (m : Sim k s0) (wi q id : Nat) : Sim k s0 :=
  match m.now.storeOf wi q with
  | none => m
  | some (ti, r) =>
    let ac := m.now.ac
    let peer := ((m.now.warp wi).queue q).kind == 7
    let at_ := if peer then ac + m.now.peerDelay wi ti else ac
    let set (e : QEntry) : QEntry :=
      if e.id = id then { e with written := !peer, readyAt := at_ } else e
    let b := (m.now.warp ti).queue r
    let m := m.modWarp ti (fun v => v.setQueue r { b with hw := b.hw.map set, ring := b.ring.map (fun p => (p.1, set p.2)) })
    m.each b.ring (fun m p => m.when (p.2.id == id) (fun m => m.writeSlot ti b p.1 p.2))

/-! ## Performing one lane -/

/-- Result words to consecutive registers of a lane, or to the entry of a push. -/
def Sim.landWords (m : Sim k s0) (o : Op) (lane t : Nat) (ws : List Word) : Sim k s0 :=
  match o.push with
  | some (q, id) => m.fillEntry o.warp q id lane (wordAt ws 0)
  | none => (ws.zip (List.range ws.length)).foldl (fun m p => m.landResult o.warp lane (t + p.2) p.1) m

/-- The bytes that a load reads (R203): from the L1 where it serves the line, otherwise from the ordering point. -/
def State.loadBytes (s : State) (core : Nat) (scope : BitVec 3) (fresh : Nat) (locs : List Nat) : List Byte :=
  locs.map (fun p =>
    if isGeneric p && s.l1Serves core (lineOf p) scope fresh then
      (s.l1Line core (lineOf p)).elim 0 (fun e => e.bytes.getD (p % 128) 0)
    else s.byte p)

/-- Whether a write to a line waits for the acknowledges of its invalidates (R179). -/
def State.ackWaits (s : State) (line : Nat) : Bool :=
  s.ops.any (fun o => o.acks && o.lanes.any (fun x =>
    !x.final && (s.laneLocs (s.ownerOf o.warp) x).any (fun p => lineOf p == line)))

/-- A read duplicate of a line in a near slice of the die of a core, where a choice places one (R179). DESIGN CHOICE (log 92). -/
def Sim.placeDup (m : Sim k s0) (owner : Tag) (core pte hint line : Nat) : Sim k s0 :=
  let die := dieOf core
  if pteBit pte 10 && allocL2 pte hint && homeIx line pte / 80 != die && !m.now.ackWaits line then
    let yes := m.now.choice
    let near := 80 * die + 10 * (core % 64 / 8) + line % 10
    m.chosen.when yes (fun m => (m.sliceRoom near).act (.dup (4 * line + die)
      { held := true, home := near, owner := owner, dirty := false, back := false
        zero := m.now.zeroBytes line, prio := prioOf pte hint }))
  else m

/-- The caches after a load (R177–R179, R193): a line that its L1 did not serve is filled, or a stale copy of it dropped. -/
def Sim.afterLoad (m : Sim k s0) (owner : Tag) (core pte hint : Nat) (scope : BitVec 3) (fresh : Nat) (locs : List Nat) : Sim k s0 :=
  let lines := ((locs.filter isGeneric).map lineOf).eraseDups
  let missed := lines.filter (fun n => !m.now.l1Serves core n scope fresh)
  let asked := lines.any (fun n => (m.now.l1Line core n).elim false (fun e => e.stale.isSome))
  (m.when (asked && scope == 0) Sim.chosen).each missed (fun m n =>
    let m := if (m.now.dupOf core n).held then m else (m.reachL2 owner pte hint false n).placeDup owner core pte hint n
    if allocL1 pte hint then m.fillL1 core n (prioOf pte hint) else m.dropL1 core n)

/-- The generic lines of some places, as a store or an atomic has written them at their home slices. -/
def Sim.afterWrite (m : Sim k s0) (owner : Tag) (pte hint : Nat) (locs : List Nat) : Sim k s0 :=
  m.each (((locs.filter isGeneric).map lineOf).eraseDups) (fun m n => m.reachL2 owner pte hint true n)

/-- FN and T of a memory word. -/
def fnT : Instr → Nat × Nat
  | .ld _ _ _ fn t _ | .ldl _ _ _ fn t _ | .ldlGang _ _ _ fn t _ | .ldm _ _ _ fn t _ | .ldc _ _ _ fn t _
  | .st _ _ _ fn t _ | .stl _ _ _ fn t _ | .stlGang _ _ _ fn t _ | .stm _ _ _ fn t _
  | .atom _ _ _ fn t _ | .atoml _ _ _ fn t _ | .atomGang _ _ _ fn t _ | .atomMkt _ _ _ fn t _ => (fn.toNat, t.toNat)
  | .cas _ _ _ _ t _ => (11, t.toNat)
  | .casB64 _ _ _ _ t _ => (12, t.toNat)
  | .madd _ _ _ t _ | .mamax _ _ _ t _ | .mred _ _ _ t _ | .mscale _ _ _ t _ => (0, t.toNat)
  | .fepoll _ _ _ d _ _ => (0, d.toNat)
  | _ => (0, 0)

/-- Where an access of Market memory that crosses into a second stall is cut: its bytes in the first; none otherwise (R180). -/
def stallCut (x : LaneOp) : Option Nat :=
  let loc := x.loc.getD 0
  if marketLoc 0 ≤ loc ∧ loc < marketLoc 0 + 2 ^ 27 ∧ 65536 < loc % 65536 + x.size then some (65536 - loc % 65536) else none

/-- A load performed for one lane. An access is one indivisible action in generic memory, whatever its address and size
(R134); in Market memory it is one at each stall (R180). DESIGN CHOICE (log 90). -/
def Sim.loadLane (m : Sim k s0) (o : Op) (x : LaneOp) : Sim k s0 :=
  let owner := m.now.ownerOf o.warp
  let core := (m.now.warp o.warp).core
  let (fn, t) := fnT o.ins
  let fn4 := BitVec.ofNat 4 fn
  let locs := m.now.laneLocs owner x
  let fresh := (m.now.thread o.warp x.lane).fresh
  let m := m.askDevice (locs.filter (fun p => !m.now.l1Serves core (lineOf p) o.scope fresh))
  if locs.any (m.now.lineFault owner) then
    (m.landWords o x.lane t (List.replicate (loadWords fn4 []).length 0xFFFFFFFF)).uncorrectable o x
  else
    let bs := applyOverlay (m.now.loadBytes core o.scope fresh locs) x.data
    let m := m.afterLoad owner core x.pte (memHint o.pfx) o.scope fresh locs
    (m.landWords o x.lane t (loadWords fn4 bs)).feAfter o x

/-- A store performed for one lane at its ordering point, as one indivisible action (R134); regions of its own core heard of one
that its L1 had taken. DESIGN CHOICE (log 90). -/
def Sim.storeLane (m : Sim k s0) (o : Op) (x : LaneOp) : Sim k s0 :=
  let owner := m.now.ownerOf o.warp
  let core := (m.now.warp o.warp).core
  let locs := (m.now.laneLocs owner x).drop x.part
  if m.now.writeFault owner locs then m.uncorrectable o x
  else
    let m := m.homeWrite (some core) (some (o.warp, x.lane)) owner locs (x.data.drop x.part)
      (fun c => x.state != .written || c != core)
    (m.afterWrite owner x.pte (memHint o.pfx) locs).feAfter o x

/-- The first piece of an access of Market memory that crosses into a second stall: the bytes that a load read stay with
its lane. -/
def Sim.firstPiece (m : Sim k s0) (o : Op) (x : LaneOp) (cut : Nat) : Sim k s0 :=
  let loc := x.loc.getD 0
  match o.kind with
  | .store => (m.store loc (x.data.take cut)).modLane o.id x.lane (fun x => { x with part := cut })
  | _ =>
    let read := (List.range cut).flatMap (fun i => [BitVec.ofNat 8 i, m.now.byte (loc + i)])
    m.modLane o.id x.lane (fun x => { x with part := cut, data := x.data ++ read })

/-- The value that an atomic writes, from the old value and its operands (R236). -/
def atomNew (fn : Nat) (old : List Byte) (data : List Byte) : List Byte :=
  let o := bytesWord old
  let v := bytesWord (data.take 4)
  match fn with
  | 0 => wordBytes (o + v)
  | 1 => wordBytes (if v.slt o then v else o)
  | 2 => wordBytes (if o.slt v then v else o)
  | 3 => wordBytes (if v.ult o then v else o)
  | 4 => wordBytes (if o.ult v then v else o)
  | 5 => wordBytes (o &&& v)
  | 6 => wordBytes (o ||| v)
  | 7 => wordBytes (o ^^^ v)
  | 8 => wordBytes v
  | 9 => wordBytes (addR o v)
  | 10 => leBytes 8 (leNat old + leNat (data.take 8))
  | 11 => if old = data.take 4 then (data.drop 4).take 4 else old
  | _ => if old = data.take 8 then (data.drop 8).take 8 else old

/-- An atomic performed for one lane (R237). -/
def Sim.atomLane (m : Sim k s0) (o : Op) (x : LaneOp) : Sim k s0 :=
  let owner := m.now.ownerOf o.warp
  let core := (m.now.warp o.warp).core
  let (fn, t) := fnT o.ins
  let locs := m.now.laneLocs owner x
  let words (bs : List Byte) : List Word := if x.size = 8 then [bytesWord (bs.take 4), bytesWord (bs.drop 4)] else [bytesWord bs]
  let m := m.askDevice locs
  if locs.any (m.now.lineFault owner) then
    (m.landWords o x.lane t ((words []).map (fun _ => 0xFFFFFFFF))).uncorrectable o x
  else
    let old := locs.map m.now.byte
    let m := m.homeWrite (some core) (some (o.warp, x.lane)) owner locs (atomNew fn old x.data)
    (m.afterWrite owner x.pte (memHint o.pfx) locs).landWords o x.lane t (words old)

/-- The magnitude of an FP32 encoding: bit 31 cleared. -/
def absWord (w : Word) : Word := w &&& 0x7FFFFFFF

/-- The larger of two magnitudes, infinity where either is a NaN (R242). -/
def amaxOf (c x : Word) : Word :=
  if (fval (absWord c)).isNan || (fval (absWord x)).isNan then 0x7F800000
  else if (absWord c).ult (absWord x) then absWord x else absWord c

/-- floor(log2(fmax / A)) for a finite A above 0 (R243). -/
def floorLog2Ratio (fmax : Nat) (a : Word) : Int :=
  match fval a with
  | .fin _ m e =>
    -- the largest j with m × 2^(e + j) ≤ fmax
    let j0 : Int := (Nat.log2 fmax : Int) - ((Nat.log2 m : Int) + e)
    let lhs := m * 2 ^ (e + j0 + 400).toNat
    if lhs ≤ fmax * 2 ^ 400 then j0 else j0 - 1
  | _ => 0

/-- The tensor scale of mscale (R243). -/
def scaleOf (ring : List Byte) (v : Word) : Word :=
  let w (i : Nat) : Word := bytesWord ((ring.drop (4 * i)).take 4)
  let ctl := (w 17).toNat
  let head := bits ctl 3 0
  let cnt := Nat.min (bits ctl 8 4) 16
  let es := (List.range cnt).map (fun j => absWord (w ((head + 15 - j) % 16)))
  let a := if es.any (fun e => (fval e).isNan) then 0x7FC00000 else es.foldl (fun m e => if m.ult e then e else m) 0
  if (fval a).isNan || (fval a).isInf then 0x7FC00000
  else if a = 0 then 0x3F800000
  else
    let g : Int := (v.extractLsb' 8 8).toInt
    let kk := floorLog2Ratio (if v.getLsbD 0 then 57344 else 448) a - g
    let kc := max (-126) (min 127 kk)
    BitVec.ofNat 32 ((kc + 127).toNat * 2 ^ 23)

/-- A stall operation performed for one lane (R239, R240, R242, R243), or that meets an uncorrectable error (R368). -/
def Sim.marketLane (m : Sim k s0) (o : Op) (x : LaneOp) : Sim k s0 :=
  let loc := x.loc.getD 0
  let t := (fnT o.ins).2
  if (m.now.laneLocs (m.now.ownerOf o.warp) x).any (m.now.lineFault (m.now.ownerOf o.warp)) then
    (match o.ins with
     | .madd .. => m
     | .mred .. => m.landWords o x.lane t [0xFFFFFFFF, 0xFFFFFFFF]
     | _ => m.landWords o x.lane t [0xFFFFFFFF]).uncorrectable o x
  else
  let v := bytesWord (x.data.take 4)
  let word (i : Nat) : Word := bytesWord (m.now.bytes (loc + 4 * i) 4)
  match o.ins with
  | .madd .. =>
    let new := (List.range 4).flatMap (fun i => wordBytes (addR (word i) (bytesWord ((x.data.drop (4 * i)).take 4))))
    m.store loc new
  | .mred .. =>
    let sum := addR (word 0) v
    let cnt := word 1 + 1
    let excess := word 2 != 0 && cnt == word 2
    let m := m.store loc (if excess then leBytes 8 0 else wordBytes sum ++ wordBytes cnt)
    m.landWords o x.lane t [sum, cnt]
  | .mamax .. =>
    let ctl := (word 17).toNat
    let head := bits ctl 3 0
    let cnt := Nat.min (Nat.min (bits ctl 8 4) 16 + 1) 16
    let mx := amaxOf (word 16) v
    let m := m.store (loc + 4 * head) (wordBytes mx)
    let m := m.store (loc + 64) (wordBytes 0 ++ leBytes 4 ((head + 1) % 16 + 16 * cnt))
    m.landWords o x.lane t [mx]
  | _ => m.landWords o x.lane t [scaleOf (m.now.bytes loc 128) v]

/-- feset, feclr or fepoll performed for one lane (R234, R235): size is 16 bytes a granule. -/
def Sim.feLane (m : Sim k s0) (o : Op) (x : LaneOp) : Sim k s0 :=
  let g := granuleOf (x.loc.getD 0)
  match o.ins with
  | .feset .. => m.each (List.range (x.size / 16)) (fun m i => m.act (.fe (g + i) true))
  | .feclr .. => m.each (List.range (x.size / 16)) (fun m i => m.act (.fe (g + i) false))
  | _ =>
    let n := leNat x.data
    let w := maskOf ((List.range 32).filter (fun i => i < n && m.now.full (g + i)))
    m.landWords o x.lane (fnT o.ins).2 [w]

/-- Whether the granules of Market memory that a lane still has to reach have come to another owner (R388, R448). -/
def State.marketLost (s : State) (o : Op) (x : LaneOp) : Bool :=
  match x.loc with
  | some loc =>
    marketLoc 0 ≤ loc && loc < marketLoc 0 + 2 ^ 27 &&
      !s.marketOwned (s.ownerOf o.warp) (loc - marketLoc 0 + x.part) (x.size - x.part)
  | none => false

/-- The ac after the last engine write among the Market words that a lane reads (R212). -/
def State.signalAt (s : State) (o : Op) (x : LaneOp) : Nat :=
  if o.readsMarket then maxOf ((unitsOf 2 (x.loc.getD 0) x.size).map (fun w => Cells.get 0 s.signalled w)) else 0

/-- An acquire of a thread wider than core, of what was performed before an ac (R206). -/
def Sim.raiseFresh (m : Sim k s0) (wi l n : Nat) : Sim k s0 :=
  m.when ((m.now.thread wi l).fresh < n) (fun m => m.modThread wi l (fun t => { t with fresh := n }))

/-- What a lane acquires by being performed: an FE bit, an engine's signal, or what an earlier fence.acq waits for (R207,
R209, R212). -/
def Sim.acquiredBy (m : Sim k s0) (o : Op) (x : LaneOp) : Sim k s0 :=
  let t := m.now.thread o.warp x.lane
  let n := if o.readsFe || (o.returns && o.id < t.acqUpTo && t.acqScope != 0) then m.now.ac + 1 else 0
  m.raiseFresh o.warp x.lane (Nat.max n (m.now.signalAt o x))

/-- One lane performed at its ordering point. -/
def Sim.performLane (m : Sim k s0) (o : Op) (x : LaneOp) : Sim k s0 :=
  let cut := if x.part = 0 ∧ (o.kind = .load ∨ o.kind = .store) then stallCut x else none
  let later := cut.isSome && m.now.choice
  let m := m.when cut.isSome Sim.chosen
  if m.now.marketLost o x then m.refuseLane o x
  else if later then m.firstPiece o x (cut.getD 0)
  else
    let m := m.acquiredBy o x
    let m := match o.kind with
      | .load => m.loadLane o x
      | .store => m.storeLane o x
      | .atomic => m.atomLane o x
      | .market => m.marketLane o x
      | .fe => m.feLane o x
      | _ => m
    let m := m.modLane o.id x.lane (fun x => { x with state := .done })
    m.when (x.state == .written) (fun m => m.markL1 (m.now.warp o.warp).core)

/-! ## Completion (R25, R141, R372, R408) -/

/-- Whether the last access of an ended gang leaves its launch complete (R212, R280). -/
def Sim.launchCheck (m : Sim k s0) (wi : Nat) : Sim k s0 :=
  let li := m.now.launchIx wi
  m.when ((m.now.warp wi).ended && m.now.launchOver li) (fun m => m.launchDone li)

/-- FABVIS of the virtual function that an owner tag belongs to. -/
def State.fabvis (s : State) (t : Tag) : Bool :=
  match (s.owner t).vf with
  | some v => (Keyed.find s.vfs v.toNat).elim false (fun x => x.desc.fabvis)
  | none => false

/-- The sample record of an access (R408): its seven waits are free values, the last 0 without FABVIS.
DESIGN CHOICE (log 68). -/
def State.sampleRecord (s : State) (o : Op) (n : Nat) : List Byte :=
  leBytes 8 o.wordAddr.toNat ++ leBytes 8 ((o.lanes.head?).elim 0 (fun x => x.addr.toNat)) ++
  leBytes 4 (o.level + 16 * (match o.kind with | .load => 0 | .store => 1 | _ => 2)) ++
  leBytes 4 (s.ac - o.issued) ++
  (List.range 7).flatMap (fun i => wordBytes (if i = 6 ∧ s.fabvis (s.ownerOf o.warp) = false then 0 else Config.freeWord (s.free + i))) ++
  leBytes 4 ((s.launchOf o.warp).id % 2 ^ 24) ++ leBytes 8 n

/-- A sample written as a plain store (R408): held where its page is serviced, as the store of no lane, and dropped where
it is refused, finds no unit, or meets a line in error. DESIGN CHOICE (log 93). -/
def Sim.writeSample (m : Sim k s0) (o : Op) : Sim k s0 :=
  let q := (m.now.warp o.warp).sampling
  let owner := m.now.ownerOf o.warp
  let va := q.base + BitVec.ofNat 64 (64 * (q.next % Nat.max q.entries 1))
  let rec_ := m.now.sampleRecord o q.next
  let m := m.act (.free (m.now.free + 7))
  let m := m.modWarp o.warp (fun w => { w with sampling := { w.sampling with next := w.sampling.next + 1 } })
  let x : LaneOp := { lane := 32, addr := va, loc := none, size := 64, pte := 0, data := rec_, state := .held }
  let drop (m : Sim k s0) := m.count (m.now.schedOf o.warp) 0x211 owner 1
  match m.now.admitAccess o.warp false .write 0 va 64 true false with
  | .go loc pte =>
    let y := { x with loc := some loc, pte := pte }
    let locs := m.now.laneLocs owner y
    let m := m.chargePages owner (m.now.toCharge owner va 64)
    if m.now.writeFault owner locs then drop m else m.agentWrite owner locs rec_
  | .held => m.fresh.act (.ops (m.now.ops ++ [{ o with
      id := m.now.nextId, kind := .store, ins := .cntselSmp false { pg := 7, ng := false } 0 0, pfx := .none, lanes := [x]
      flag := none, writes := [], push := none, sample := false, acks := false, fem := 0, scope := 3 }]))
  | _ => drop m

/-- A flag counted down by work of an engine that has completed: who passes it acquires what came before (R212). -/
def Warp.signal (w : Warp) (f ac : Nat) : Warp := { w.flagAdd f false with signals := w.signals.set f (ac + 1) }

/-- A flag counted down at the end of an operation; that of a word of an engine signals it (R25, R212). -/
def Sim.flagDone (m : Sim k s0) (o : Op) (f : Nat) : Sim k s0 :=
  let ac := m.now.ac
  m.modWarp o.warp (fun w => if o.kind = .engine ∨ o.kind = .page then w.signal f ac else w.flagAdd f false)

/-- An operation whose lanes are all final completes: its results land, its flag counts down, its entry becomes
visible. -/
def Sim.settle (m : Sim k s0) (id : Nat) : Sim k s0 :=
  match m.now.op? id with
  | none => m
  | some o =>
    if !o.lanes.all LaneOp.final then m
    else
      let m := m.act (.ops (m.now.ops.filter (fun o => o.id != id)))
      let m := m.each o.writes (fun m w => m.landResult o.warp w.lane w.reg w.value)
      let m := match o.flag with
        | some f => m.flagDone o f
        | none => m
      let m := match o.push with
        | some (q, e) => m.finishEntry o.warp q e
        | none => m
      let m := m.when o.sample (fun m => m.writeSample o)
      m.launchCheck o.warp

/-- Every lane of an operation that may be performed is, in lane order; then it settles. -/
def Sim.progress (m : Sim k s0) (id : Nat) : Sim k s0 :=
  match m.now.op? id with
  | none => m
  | some o =>
    let m := m.each (o.lanes.map (·.lane)) (fun m l =>
      match m.now.op? id with
      | none => m
      | some o =>
        match o.lanes.find? (fun x => x.lane == l) with
        | some x => if !x.final && (o.kind != .engine && o.kind != .page) && m.now.mayPerform o x then m.performLane o x else m
        | none => m)
    m.settle id

/-! ## Issue -/

/-- How a memory word accesses: kind, space, access, bytes touched, alignment required (1: none). -/
structure MemWord where
  kind : OpKind
  sp : Nat
  acc : Access
  size : Nat
  align : Nat := 1

/-- One lane of a memory word at issue: what it leaves in flight, if anything. A thread whose region has aborted in this
chain leaves nothing. -/
def Sim.memLane (m : Sim k s0) (w : MemWord) (x : DWord) (l : Nat) (data : List Byte) : Sim k s0 × List LaneOp :=
  let c := m.now.cur
  let wi := c.warp
  let t := m.now.thread wi l
  let p := c.pfx
  let inRegion := t.region.isSome
  let owner := m.now.ownerOf wi
  let base : LaneOp :=
    { lane := l, addr := x, loc := none, size := w.size, pte := 0, data := data, state := .held, priv := (c.thread l).priv }
  if t.aborting.isSome then (m, [])
  else match m.now.admitAccess wi (c.thread l).priv w.acc w.sp x w.size (x.toNat % w.align == 0) (w.kind == .atomic) with
  | .refused =>
    if inRegion && w.sp != 3 then (m.abortRegion wi l 5 0 x, [])
    else if w.kind == .store then
      (m.pendTrap wi l { cause := 0x0A, late := false, tval := lo32 x, pc := c.wordAddr, va := x },
       [{ base with state := .refused }])
    else (m.trapWord l 0x09 (lo32 x) x, [])
  | .full => if inRegion then (m.abortRegion wi l 5 0 x, []) else (m.trapWord l 0x08 (lo32 x) x, [])
  | .held =>
    if inRegion then (m.abortRegion wi l 5 0 x, [])
    else (m.count (m.now.schedOf wi) 0x141 owner 1, [base])
  | .go loc pte =>
    let m := if w.sp = 0 then
        let ps := if w.acc.writes then m.now.toCharge owner x w.size else []
        let m := m.when (m.now.cached owner x).isNone (fun m => m.count (m.now.schedOf wi) 0x140 owner 1)
        (m.cacheEntry owner x).when (!ps.isEmpty) (fun m => m.chargePages owner ps)
      else m
    let ln := { base with loc := some loc, pte := pte, state := .going }
    let locs := m.now.laneLocs owner ln
    if !inRegion then (m, [ln])
    else
      let buffered := w.kind == .store && memFem p == 0
      let m :=
        if buffered then m.bufferStore wi ln locs
        else m.when (w.kind == .load && memSpec p && w.sp == 0) (fun m => m.readSet wi l locs)
      let t := m.now.thread wi l
      if t.aborting.isSome then (m, [])
      else if buffered then (m, [{ ln with state := .done }])
      else (m, [{ ln with data := if w.kind == .load then t.region.elim [] (fun g => g.overlay locs) else data }])

/-- The lanes of a memory word at issue. -/
def Sim.memLanes (m : Sim k s0) (w : MemWord) (a : Reg) (lanes : List Nat) (src : Src) (data : Nat → List Byte) :
    Sim k s0 × List LaneOp :=
  lanes.foldl (fun r l =>
    let q := r.1.memLane w (src.pair l a.toNat + memOff r.1.now.cur.pfx) l (data l)
    (q.1, r.2 ++ q.2)) (m, [])

/-- The level and the unloaded latency of a lane (R171, R226). -/
def State.laneCost (s : State) (wi : Nat) (w : MemWord) (scope : BitVec 3) (x : LaneOp) : Nat × Nat :=
  let core := (s.warp wi).core
  match x.loc with
  | none => (15, 1)
  | some loc =>
    match w.sp with
    | 0 =>
      let home := homeOf loc (pteDie x.pte)
      let lv := s.homeLevel core loc x.pte
      let slice := sliceLatency core home
      (match w.kind with
       | .load =>
         if s.l1Serves core (lineOf loc) scope (s.thread wi x.lane).fresh then (1, 36)
         else
           let lv := s.lineLevel core loc x.pte
           (lv, levelLatency core (s.servingSlice core loc x.pte) lv)
       | .store => (sliceLevel core home, slice)
       | _ => (lv, slice + 16 + (if 5 ≤ lv then levelLatency core home lv - 180 else 0)))
    | 3 => (0, (if marketDie loc = dieOf core then 160 else 240) + (match w.kind with | .load | .store => 0 | _ => 16))
    | 4 => (0, 36)
    | _ => (0, (match w.kind with | .load | .store => 24 | .fe => 26 | _ => 32))

/-- Whether this SP 0 group is one that the warp samples (R408), and the count taken. -/
def Sim.sampleStep (m : Sim k s0) (w : MemWord) : Sim k s0 × Bool :=
  let wi := m.now.cur.warp
  let q := (m.now.warp wi).sampling
  if w.sp = 0 ∧ q.on then
    let hit := (q.seen + 1) % 2 ^ q.shift == 0
    (m.modWarp wi (fun v => { v with sampling := { v.sampling with seen := q.seen + 1 } }), hit)
  else (m, false)

/-- Whether a thread has an mma behind the word that issues, in the same chain: its vote may still undo the word (R361). -/
def State.voteFollows (s : State) (l : Nat) : Bool :=
  let t := s.cur.thread l
  (nextBundle t).slots.any (fun x => match x.ins with | .mma _ g _ _ _ => guardTrue (some g) t | _ => false)

/-- A store of one lane that its core's L1 takes at once (R203): its lines are there and miss no write, and no order holds
it. -/
def Sim.takeL1 (m : Sim k s0) (o : Op) (x : LaneOp) : Sim k s0 × LaneOp :=
  let s := m.now
  let owner := s.ownerOf o.warp
  let core := (s.warp o.warp).core
  let locs := s.laneLocs owner x
  if x.state == .going && locs.all isGeneric && (locs.map lineOf).all (s.l1Fresh core) && s.inOrder o x && !s.voteFollows x.lane && !s.writeFault owner locs then
    let m := m.act (.l1 (m.now.l1.map (fun e => if e.core = core then e.patch locs x.data else e)))
    (m.conflict ((locs.map lineOf).eraseDups) (some (o.warp, x.lane)) (· == core), { x with state := .written })
  else (m, x)

/-- The stores of a group that the L1 takes at once, lane by lane. -/
def Sim.takeAll (m : Sim k s0) (o : Op) : List LaneOp → Sim k s0 × List LaneOp
  | [] => (m, [])
  | x :: xs =>
    let r := m.takeL1 o x
    let q := Sim.takeAll r.1 o xs
    (q.1, r.2 :: q.2)

/-- Whether a place is in memory of another package (R399, R419). -/
def State.elsewhere (s : State) (loc : Nat) : Bool := loc < 2 ^ 52 && packageOf loc != s.config.pkg.toNat

/-- The level whose events a lane of SP 0 counts (R399, R401), if it counts any: what serves it, or for a write what the
home slice has of its line. -/
def State.countLevel (s : State) (wi : Nat) (w : MemWord) (scope : BitVec 3) (x : LaneOp) : Option Nat :=
  match x.loc with
  | none => some 15
  | some loc =>
    let lv := if w.kind == .store then s.homeLevel (s.warp wi).core loc x.pte else (s.laneCost wi w scope x).1
    if lv != 1 && s.elsewhere loc then none else some lv

/-- The events of requests that reach L2, by level (R401). -/
def Sim.countLevels (m : Sim k s0) (wi : Nat) (levels : List Nat) : Sim k s0 :=
  let sc := m.now.schedOf wi
  let owner := m.now.ownerOf wi
  let n (p : Nat → Bool) := (levels.filter p).length
  let one (m : Sim k s0) (code n : Nat) := m.when (n != 0) (fun m => m.count sc code owner n)
  let m := one m 0x110 (n (fun v => 2 ≤ v && v ≤ 9))
  let m := one m 0x111 (n (fun v => 5 ≤ v && v ≤ 9))
  let m := one m 0x120 (n (· == 5))
  let m := one m 0x121 (n (fun v => v == 6 || v == 7))
  one m 0x122 (n (· == 9))

/-- The flits of requests that another package serves, and the die-to-die beats of those that leave the core's compute die
(R401). DESIGN CHOICE (log 96). -/
def Sim.countLinks (m : Sim k s0) (wi : Nat) (far cross : Bool) : Sim k s0 :=
  let sc := m.now.schedOf wi
  let owner := m.now.ownerOf wi
  let ac := m.now.ac
  let one (m : Sim k s0) (b : Bool) (code : Nat) := m.when b (fun m => m.count sc code owner (Config.fabricUnits code ac))
  one (one (one m far 0x300) far 0x301) cross 0x303

/-- Whether a lane's request goes to another package, and whether it goes to another compute die. -/
def State.lanePath (s : State) (wi : Nat) (w : MemWord) (scope : BitVec 3) (x : LaneOp) : Bool × Bool :=
  match x.loc with
  | none => (false, false)
  | some loc =>
    if (s.laneCost wi w scope x).1 = 1 then (false, false)
    else (s.elsewhere loc, !s.elsewhere loc && dieOf (s.warp wi).core != (s.servingSlice (s.warp wi).core loc x.pte).1)

/-- The cache events of a group (R401): loads hit or miss L1, and requests reach L2. -/
def Sim.countCache (m : Sim k s0) (w : MemWord) (scope : BitVec 3) (ops : List LaneOp) : Sim k s0 :=
  let wi := m.now.cur.warp
  let sc := m.now.schedOf wi
  let owner := m.now.ownerOf wi
  if w.sp = 3 then m.when (w.kind == .atomic || w.kind == .market) (fun m => m.count sc 0x130 owner 1)
  else if w.sp != 0 then m
  else
    let levels := ops.filterMap (m.now.countLevel wi w scope)
    let paths := ops.map (m.now.lanePath wi w scope)
    let m := m.countLinks wi (paths.any (·.1)) (paths.any (·.2))
    let m := m.when (w.kind == .load && !levels.isEmpty) (fun m =>
      m.count sc (if levels.all (· == 1) then 0x100 else 0x101) owner 1)
    m.countLevels wi levels

/-- The queue entry that a load reserves for the lanes that perform it (R261), and its number. -/
def Sim.pushFor (m : Sim k s0) (ops : List LaneOp) : Option Nat → Sim k s0 × Option (Nat × Nat)
  | none => (m, none)
  | some q =>
    let lanes := ops.map (·.lane)
    (m.pushEntry m.now.cur.warp q (maskOf lanes) (laneWords lanes (fun _ => 0)) false 0, some (q, m.now.nextId))

/-- A memory word for its lanes: each lane is admitted, refused or held; what is in flight is one operation (R25, R133,
R251, R370). -/
def Sim.memWord (m : Sim k s0) (i : Instr) (w : MemWord) (a : Reg) (lanes : List Nat) (src : Src) (data : Nat → List Byte)
    (queue : Option Nat := none) : Sim k s0 :=
  let wi := m.now.cur.warp
  let p := m.now.cur.pfx
  let (m, ops) := m.memLanes w a lanes src data
  if ops.isEmpty then m
  else
    let (m, push) := m.pushFor ops queue
    let scope := memScope p
    let costs := ops.map (m.now.laneCost wi w scope)
    let local_ := w.sp == 1 || w.sp == 2
    let extra := if local_ then passDelay ops + (if w.sp = 2 ∧ !m.now.ownGang wi ops then 40 else 0) else 0
    let rdup := w.kind != .load && ops.any (fun x => x.state == .going && x.pte != 0 && pteBit x.pte 10)
    let (m, hit) := m.sampleStep w
    let m := m.countCache w scope ops
    let lat := maxOf (costs.map (·.2)) + extra
    let level := maxOf (costs.map (·.1))
    let r := if w.kind == .store then
        m.takeAll (m.now.opOf i w.kind ops lat [] scope (memFem p) push hit rdup level) ops
      else (m, ops)
    r.1.launchOp i w.kind r.2 lat (scope := scope) (fem := memFem p) (push := push) (sample := hit) (acks := rdup) (level := level)

/-- A load word (R132, R133, R227–R229, R261). -/
def loadWord (i : Instr) (sp : Nat) (fn : BitVec 4) (t a : Reg) (s : State) : Out :=
  issueWord i s (fun lanes src m =>
    let w : MemWord := { kind := .load, sp := sp, acc := .read, size := loadSize fn }
    let wi := m.now.cur.warp
    m.memWord i w a lanes src (fun _ => []) (if m.now.pushes wi t.toNat then some (t.toNat - 112) else none))

/-- A store word (R132, R133, R227–R229, R262). -/
def storeWord (i : Instr) (sp : Nat) (fn : BitVec 4) (t a : Reg) (s : State) : Out :=
  issueWord i s (fun lanes src m =>
    m.memWord i { kind := .store, sp := sp, acc := .write, size := storeSize fn } a lanes src
      (fun l => storeBytes fn src l t))

/-- ld. -/
def execLd (c : Bool) (g : Guard) (fs : Bool) (fn : BitVec 4) (t a : Reg) (s : State) : Out :=
  loadWord (.ld c g fs fn t a) 0 fn t a s
/-- ldl in core-local memory. -/
def execLdl (c : Bool) (g : Guard) (fs : Bool) (fn : BitVec 4) (t a : Reg) (s : State) : Out :=
  loadWord (.ldl c g fs fn t a) 1 fn t a s
/-- ldl in the gang window. -/
def execLdlGang (c : Bool) (g : Guard) (fs : Bool) (fn : BitVec 4) (t a : Reg) (s : State) : Out :=
  loadWord (.ldlGang c g fs fn t a) 2 fn t a s
/-- ldm. -/
def execLdm (c : Bool) (g : Guard) (fs : Bool) (fn : BitVec 4) (t a : Reg) (s : State) : Out :=
  loadWord (.ldm c g fs fn t a) 3 fn t a s
/-- ldc. -/
def execLdc (c : Bool) (g : Guard) (fs : Bool) (fn : BitVec 4) (t a : Reg) (s : State) : Out :=
  loadWord (.ldc c g fs fn t a) 4 fn t a s
/-- st. -/
def execSt (c : Bool) (g : Guard) (fs : Bool) (fn : BitVec 4) (t a : Reg) (s : State) : Out :=
  storeWord (.st c g fs fn t a) 0 fn t a s
/-- stl in core-local memory. -/
def execStl (c : Bool) (g : Guard) (fs : Bool) (fn : BitVec 4) (t a : Reg) (s : State) : Out :=
  storeWord (.stl c g fs fn t a) 1 fn t a s
/-- stl in the gang window. -/
def execStlGang (c : Bool) (g : Guard) (fs : Bool) (fn : BitVec 4) (t a : Reg) (s : State) : Out :=
  storeWord (.stlGang c g fs fn t a) 2 fn t a s
/-- stm. -/
def execStm (c : Bool) (g : Guard) (fs : Bool) (fn : BitVec 4) (t a : Reg) (s : State) : Out :=
  storeWord (.stm c g fs fn t a) 3 fn t a s

/-- An atomic word (R236, R237): its operands are regs registers from T. -/
def atomWord (i : Instr) (sp fn regs : Nat) (t a : Reg) (s : State) : Out :=
  issueWord i s (fun lanes src m =>
    m.memWord i { kind := .atomic, sp := sp, acc := .write, size := atomSize fn, align := atomSize fn } a lanes src
      (fun l => regBytes src l t.toNat regs))

/-- Operand registers of an atomic. -/
def atomRegs (fn : BitVec 4) : Nat := if fn.toNat = 10 then 2 else 1

/-- atom in SP 0. -/
def execAtom (c : Bool) (g : Guard) (fs : Bool) (fn : BitVec 4) (t a : Reg) (s : State) : Out :=
  atomWord (.atom c g fs fn t a) 0 fn.toNat (atomRegs fn) t a s
/-- atoml. -/
def execAtoml (c : Bool) (g : Guard) (fs : Bool) (fn : BitVec 4) (t a : Reg) (s : State) : Out :=
  atomWord (.atoml c g fs fn t a) 1 fn.toNat (atomRegs fn) t a s
/-- atom in the gang window. -/
def execAtomGang (c : Bool) (g : Guard) (fs : Bool) (fn : BitVec 4) (t a : Reg) (s : State) : Out :=
  atomWord (.atomGang c g fs fn t a) 2 fn.toNat (atomRegs fn) t a s
/-- atom in Market memory. -/
def execAtomMkt (c : Bool) (g : Guard) (fs : Bool) (fn : BitVec 4) (t a : Reg) (s : State) : Out :=
  atomWord (.atomMkt c g fs fn t a) 3 fn.toNat (atomRegs fn) t a s
/-- cas in the space SP 0–3. -/
def execCas (c : Bool) (g : Guard) (fs : Bool) (sp : BitVec 3) (t a : Reg) (s : State) : Out :=
  atomWord (.cas c g fs sp t a) sp.toNat 11 2 t a s
/-- cas.b64 in the space SP 0–3. -/
def execCasB64 (c : Bool) (g : Guard) (fs : Bool) (sp : BitVec 3) (t a : Reg) (s : State) : Out :=
  atomWord (.casB64 c g fs sp t a) sp.toNat 12 4 t a s

/-- A stall word (R238): bytes touched, alignment and operand registers. -/
def marketWord (i : Instr) (size align regs : Nat) (acc : Access) (t a : Reg) (s : State) : Out :=
  issueWord i s (fun lanes src m =>
    m.memWord i { kind := .market, sp := 3, acc := acc, size := size, align := align } a lanes src
      (fun l => regBytes src l t.toNat regs))

/-- madd. -/
def execMadd (c : Bool) (g : Guard) (fs : Bool) (t a : Reg) (s : State) : Out :=
  marketWord (.madd c g fs t a) 16 16 4 .write t a s
/-- mamax. -/
def execMamax (c : Bool) (g : Guard) (fs : Bool) (t a : Reg) (s : State) : Out :=
  marketWord (.mamax c g fs t a) 128 128 1 .write t a s
/-- mred. -/
def execMred (c : Bool) (g : Guard) (fs : Bool) (t a : Reg) (s : State) : Out :=
  marketWord (.mred c g fs t a) 16 16 1 .write t a s
/-- mscale. -/
def execMscale (c : Bool) (g : Guard) (fs : Bool) (t a : Reg) (s : State) : Out :=
  marketWord (.mscale c g fs t a) 128 128 1 .read t a s

/-! ## FE management (R233–R235) -/

/-- A word of FE management over n granules from that of its address; fepoll needs only the first. -/
def feWord (i : Instr) (gang : Bool) (n : Nat) (poll : Bool) (a : Reg) (s : State) : Out :=
  issueWord i s (fun lanes src m =>
    let wi := m.now.cur.warp
    let sp := if gang then 2 else 1
    let r := lanes.foldl (fun r l =>
      let m := r.1
      let x := src.pair l a.toNat &&& ~~~ 15#64
      match m.now.locate wi false .write sp x (16 * n) with
      | .ok loc _ _ _ =>
        let w := m.now.warp wi
        let size := match (if gang then m.now.memberOf (m.now.wg w.wg).gang (x.toNat / 0x60000) else some w.wg) with
          | some g => (m.now.wg g).localSize
          | none => 0
        let left := (size - x.toNat % 0x60000) / 16
        (m, r.2 ++ [({ lane := l, addr := x, loc := some loc, size := 16 * n, pte := 0
                       data := leBytes 4 (if poll then Nat.min left 32 else 0), state := .going } : LaneOp)])
      | _ => (m.trapWord l 0x09 (lo32 (src.pair l a.toNat)) (src.pair l a.toNat), r.2)) (m, [])
    if r.2.isEmpty then r.1
    else r.1.launchOp i .fe r.2 (if gang && !r.1.now.ownGang wi r.2 then 66 else 26))

/-- feset: D is n − 1. -/
def execFeset (c : Bool) (g : Guard) (fs : Bool) (n : BitVec 7) (a : Reg) (gang : Bool) (s : State) : Out :=
  feWord (.feset c g fs n a gang) gang (n.toNat + 1) false a s
/-- feclr. -/
def execFeclr (c : Bool) (g : Guard) (fs : Bool) (n : BitVec 7) (a : Reg) (gang : Bool) (s : State) : Out :=
  feWord (.feclr c g fs n a gang) gang (n.toNat + 1) false a s
/-- fepoll. -/
def execFepoll (c : Bool) (g : Guard) (fs : Bool) (d a : Reg) (gang : Bool) (s : State) : Out :=
  feWord (.fepoll c g fs d a gang) gang 1 true a s

/-! ## The events of completion -/

/-- The lanes of an mma whose threads no longer stand at it, and that no sequencer has received, count no more: a trap,
a kill or the end of the thread took them out as though they had not arrived (R156, R362, R375). -/
def Sim.dropArrivals (m : Sim k s0) (o : Op) : Sim k s0 :=
  let at_ (l : Nat) : Bool :=
    match (m.now.thread o.warp l).life, (m.now.thread o.warp l).hold with
    | .live, .coll a => a.pc == o.pc && a.pos == o.pos
    | _, _ => false
  let received (l : Nat) : Bool := m.now.mops.any (fun p =>
    match p.src with
    | .mma lanes ops => p.warp == o.warp && laneBit lanes l && ops.contains o.id
    | _ => false)
  match o.ins with
  | .mma .. => m.modOp o.id (fun o =>
      { o with lanes := o.lanes.map (fun x => if at_ x.lane || received x.lane then x else { x with state := .dead }) })
  | _ => m

/-- FE_WAIT_PERFORM (R174): a waiting access whose condition holds is performed. -/
def execFeWaitPerform (op : Nat) (s : State) : Out :=
  let m := begin_ true s
  match s.op? op with
  | some o => if o.waitsFull.isSome then ran (m.progress op) else ran m
  | none => ran m

/-- RDUP_INVALIDATE_ACK (R179): the last invalidate of a held write is acknowledged, and it may be performed.
DEDUCED (log 33). -/
def execRdupInvalidateAck (op : Nat) (s : State) : Out :=
  let m := begin_ true s
  let m := m.modOp op (fun o => { o with acks := false })
  match s.op? op with
  | some o => if o.due ≤ s.ac then ran (m.progress op) else ran m
  | none => ran m

/-- ENGINE_RECALL_RELEASE (R210): an access held by the recall of an engine's line is performed once the engine has
written that line. -/
def execEngineRecallRelease (op : Nat) (s : State) : Out :=
  let m := begin_ true s
  match s.op? op with
  | some o =>
    if o.due ≤ s.ac && o.lanes.any (fun x => !x.final) && !o.lanes.any (fun x => s.recalled (s.ownerOf o.warp) x) then
      ran (m.progress op)
    else ran m
  | none => ran m

end Sys2Proof.Machine
end

