-- ==== Sys2Proof/Machine/Control.lean ====
section
/-! DEFINITION. The words of majors 0 and 11: nop, special registers, fwait, yield, brk, trap (R12, R13, R56, R128–R131,
R142–R144, R148, R216, R259, R260, R324, R359, R415) and transfers of control, exit, meet, unmeet (R124–R127,
R150–R154, R167). -/

namespace Sys2Proof.Machine

variable {k : Bool} {s0 : State}

/-! ## Special registers -/

/-- The instance whose step run a launch belongs to (R324). -/
def State.stepOf (s : State) (l : Launch) : Option (BitVec 4 × Inst) :=
  match l.origin with
  | .node g run _ =>
    match s.insts.find? (fun x => x.2.stepgraph == g && x.2.state != .idle &&
        ((s.graph? g).bind (·.run)).any (fun r => r.number == run)) with
    | some x => some (BitVec.ofNat 4 x.1, x.2)
    | none => none
  | _ => none

/-- The instance whose step run a warp belongs to. -/
def State.stepInst (s : State) (wi : Nat) : Option (BitVec 4 × Inst) := s.stepOf (s.launchOf wi)

/-- prtok as a warp reads it (R143). -/
def State.prtok (s : State) (wi : Nat) : Word :=
  match (s.sched (s.schedOf wi)).token with
  | none => 0x80000000
  | some h => if (s.warp h).wg = (s.warp wi).wg then BitVec.ofNat 32 ((s.warp h).num % 32) else 0x40000000

/-- One bit for each element that satisfies a test. -/
def bitsOf (n : Nat) (p : Nat → Bool) : Word := maskOf ((List.range n).filter p)

/-- The value of a special register for a thread of the group, as its chain found it (R12, R22, R142, R259, R324, R359, R415); none where the index
is reserved. -/
def State.special (s : State) (l idx : Nat) : Option Word :=
  let wi := s.cur.warp
  let t := s.cur.thread l
  let w := s.cur.old
  let g := s.wg w.wg
  let gang := s.gang g.gang
  let lr := s.launchOf wi
  let n (v : Nat) : Option Word := some (BitVec.ofNat 32 v)
  match idx with
  | 0x00 => some 0
  | 0x01 => some 0x08800000
  | 0x02 => some (lo32 s.cur.pc)
  | 0x03 => some (hi32 s.cur.pc)
  | 0x04 => some (lo32 t.lk)
  | 0x05 => some (hi32 t.lk)
  | 0x06 => some (lo32 t.mt)
  | 0x07 => some (hi32 t.mt)
  | 0x08 => n (t.preds.toNat % 128)
  | 0x09 => some (bitsOf 12 (fun i => w.flags.getD i 0 != 0))
  | 0x0A => n w.fpst.toNat
  | 0x0B => n w.fpen.toNat
  | 0x0C => n s.ac
  | 0x0D => n (s.ac / 2 ^ 32)
  | 0x10 => n (32 * w.num + l)
  | 0x11 => n g.size
  | 0x12 => n w.num
  | 0x13 => n l
  | 0x14 => n g.wgid
  | 0x15 => n (2 ^ lr.gangl)
  | 0x16 => n gang.index
  | 0x17 => n lr.ngang
  | 0x18 => n lr.stage
  | 0x19 => n w.core
  | 0x1A => n w.sched
  | 0x1B => n w.quota
  | 0x1C => some (s.prtok wi)
  | 0x1D => some w.lxst
  | 0x30 => n t.tabc.toNat
  | 0x31 => n t.tusr.toNat
  | 0x32 => some (lo32 t.tfa)
  | 0x33 => some (hi32 t.tfa)
  | 0x34 => n (s.tbufBelow w wi s.cur.firstOp)
  | 0x35 => n (if s.config.mailbox then 1 else 0)
  | 0x40 => some (match g.bound with | some b => BitVec.ofNat 32 b.2.1 | none => 0xFFFFFFFF)
  | 0x41 => some (match g.bound with | some b => BitVec.ofNat 32 b.2.2 | none => 0xFFFFFFFF)
  | 0x42 => some (match s.stepInst wi with | some x => x.1.setWidth 32 | none => 0xFFFFFFFF)
  | 0x43 => some (match s.stepInst wi with | some x => lo32 x.2.mstep | none => 0)
  | 0x44 => some (bitsOf 16 (fun i => (w.queue i).kind != 0))
  | 0x50 => some t.tcause
  | 0x52 => some (lo32 t.epc)
  | 0x53 => some (hi32 t.epc)
  | 0x54 => some t.tval
  | 0x55 => n lr.owner.toNat
  | 0x56 => n lr.vf.toNat
  | 0x57 => let x := s.sched (s.schedOf wi); n (x.tper % 2 ^ 16 * 2 ^ 16 + x.frz.toNat)
  | 0x60 => some lr.gen
  | 0x61 => n s.config.pkg.toNat
  | 0x62 => n (w.core / 64)
  | 0x63 => n s.config.domsz.toNat
  | _ => none

/-- The indices that only a privileged handler names (R12). -/
def privilegedIx (idx : Nat) : Bool := idx == 0x50 || idx == 0x52 || idx == 0x53 || idx == 0x54 || idx == 0x57

/-- The trap value of PRIVILEGE (R358). -/
def privilegeTval (maj fn idx : Nat) : Word := BitVec.ofNat 32 (maj * 2 ^ 27 + fn * 2 ^ 16 + idx % 128)

/-- The low or the high half of a 64-bit register replaced (R13). -/
def setHalf (x : DWord) (high : Bool) (v : Word) : DWord := if high then cat64 v (lo32 x) else cat64 (hi32 x) v

/-- sset of one thread (R12, R13): the registers of the thread; any other index changes nothing here. -/
def Thread.setSpecial (t : Thread) (idx : Nat) (v : Word) : Thread :=
  match idx with
  | 0x04 => { t with lk := setHalf t.lk false v }
  | 0x05 => { t with lk := setHalf t.lk true v }
  | 0x06 => { t with mt := setHalf t.mt false v }
  | 0x07 => { t with mt := setHalf t.mt true v }
  | 0x08 => { t with preds := 0#1 ++ v.extractLsb' 0 7 }
  | 0x52 => { t with epc := setHalf t.epc false v }
  | 0x53 => { t with epc := setHalf t.epc true v }
  | _ => t

/-- The trap of a reserved index, should one reach issue (R12, R75). -/
def Sim.specialTrap (m : Sim k s0) (l : Nat) : Sim k s0 :=
  let c := m.now.cur
  m.trapWord l 0x01 (encodingTval (8, 3 * (packetIx c.pc).getD 0 + c.pos)) (epc := some c.pc)

/-- sget (R12, R128). -/
def execSget (c : Bool) (d a : Reg) (s : State) : Out :=
  issueWord (.sget c d a) s (fun lanes _ m =>
    m.each lanes (fun m l =>
      if privilegedIx a.toNat && m.now.denied m.now.cur.warp (m.now.cur.thread l) then m.trapWord l 0x03 (privilegeTval 0 1 a.toNat)
      else match m.now.special l a.toNat with
        | some v => m.writeReg l d.toNat v 4
        | none => m.specialTrap l))

/-- sset (R12, R13, R128, R144, R359); where every thread traps, its queue source stays (R361). -/
def execSset (c : Bool) (d a : Reg) (s : State) : Out :=
  issueWord (.sset c d a) s (fun lanes src m =>
    let wi := m.now.cur.warp
    let idx := d.toNat
    let denied (l : Nat) : Bool := privilegedIx idx && m.now.denied m.now.cur.warp (m.now.cur.thread l)
    let ok := lanes.filter (fun l => !denied l && (m.now.special l idx).isSome)
    let m := m.when ok.isEmpty (fun m => m.modWarp wi (fun w => { w with queues := (s.warp wi).queues }))
    let m := m.each ok (fun m l => m.modThread wi l (fun t => t.setSpecial idx (src l a.toNat)))
    let m := match ok.head? with
      | none => m
      | some l =>
        let v := src l a.toNat
        let x := v.extractLsb' 0 5
        match idx with
        | 0x0A => let r := m.now.cur.raised; m.modWarp wi (fun w => { w with fpst := x ||| r })
        | 0x0B => m.modWarp wi (fun w => { w with fpen := x })
        | 0x57 =>
          let vf := (m.now.launchOf wi).vf
          m.modSched (m.now.schedOf wi) (fun q =>
            { q with tper := v.toNat / 2 ^ 16, frz := v.extractLsb' 0 8, cntcVf := some vf, tick := 0 })
        | _ => m
    m.each (lanes.filter (fun l => !ok.contains l)) (fun m l =>
      if denied l then m.trapWord l 0x03 (privilegeTval 0 2 idx) else m.specialTrap l))

/-! ## nop, fwait, yield, brk, trap -/

/-- nop (R21, R56). -/
def execNop (_c : Bool) (s : State) : Out := ran (begin_ false s)

/-- Whether a flag mask holds a warp (R129). -/
def Warp.waits (w : Warp) (mask : BitVec 12) : Bool := (List.range 12).any (fun i => mask.getLsbD i && w.flags.getD i 0 != 0)

/-- Whether a flag mask holds a warp (R129, R273): a flag is counted, or a pushed command has not been received. -/
def Warp.maskHolds (w : Warp) (mask : BitVec 12) : Bool := mask != 0 && (w.waits mask || w.unreceived != 0)

/-- Threads that pass a flag mask acquire what engines signalled by its flags (R212). -/
def Sim.passFlags (m : Sim k s0) (wi : Nat) (lanes : List Nat) (mask : BitVec 12) : Sim k s0 :=
  let w := m.now.warp wi
  let n := maxOf (((List.range 12).filter (fun i => mask.getLsbD i)).map (fun i => w.signals.getD i 0))
  m.each lanes (fun m l => m.raiseFresh wi l n)

/-- fwait (R129): the group is held while its mask holds the warp. Behind a word of its own chain that mask was
examined before the chain issued (R145), and the flags that the chain counts do not hold it (R22). DEDUCED (log 20). -/
def execFwait (c : Bool) (mask : BitVec 12) (s : State) : Out :=
  issueWord (.fwait c mask) s (fun lanes _ m =>
    if m.now.cur.pos == m.now.cur.chain && (m.now.warp m.now.cur.warp).maskHolds mask then m.stayAll
    else m.passFlags m.now.cur.warp lanes mask)

/-- yield (R130, R148): the wait of each thread is zero in the next ac. DESIGN CHOICE (log 23). -/
def execYield (c : Bool) (s : State) : Out :=
  issueWord (.yield c) s (fun lanes _ m =>
    let ac := m.now.ac
    m.each lanes (fun m l => m.modThread m.now.cur.warp l (fun t => { t with lastIssue := ac + 1 })))

/-- A trap that the word takes with the words of its chain in effect (R131). -/
def Sim.softTrap (m : Sim k s0) (lanes : List Nat) (cause : Nat) (tval : Word) (epc : DWord) : Sim k s0 :=
  let c := m.now.cur
  m.each lanes (fun m l =>
    m.takeTrap c.warp l (m.now.thread c.warp l)
      { cause := cause, tval := tval, epc := epc, pc := c.wordAddr, lanes := maskOf lanes })

/-- tval of brk and trap (R131). -/
def softTval (c : Issue) (n : BitVec 7) : Word := BitVec.ofNat 32 (n.toNat + 256 * (c.pos % 16))

/-- brk (R131); in confidential mode, of a function without TVEC, PRIVILEGE (R395). -/
def execBrk (c : Bool) (n : BitVec 7) (s : State) : Out :=
  issueWord (.brk c n) s (fun lanes _ m =>
    let i := m.now.cur
    if m.now.boot.conf && m.now.tvec i.warp == 0 then m.each lanes (fun m l => m.trapWord l 0x03 (privilegeTval 0 5 0))
    else m.softTrap lanes 0x04 (softTval i n) i.pc)

/-- trap (R131). -/
def execTrap (c : Bool) (n : BitVec 7) (s : State) : Out :=
  issueWord (.trap c n) s (fun lanes _ m =>
    let i := m.now.cur
    m.softTrap lanes 0x05 (softTval i n) (nextPacket i.header i.pc))

/-! ## Transfers (R124–R126) -/

/-- A taken transfer of the lanes given. -/
def Sim.goTo (m : Sim k s0) (lanes : List Nat) (target : Nat → DWord) : Sim k s0 :=
  let ac := m.now.ac
  m.each lanes (fun m l => m.modThread m.now.cur.warp l (fun t => transferred ac t (target l)))

/-- lk of the lanes given set to the packet that follows (R124). -/
def Sim.link (m : Sim k s0) (lanes : List Nat) : Sim k s0 :=
  let c := m.now.cur
  m.each lanes (fun m l => m.modThread c.warp l (fun t => { t with lk := nextPacket c.header c.pc }))

/-- br. -/
def execBr (c : Bool) (g : Guard) (disp : BitVec 19) (s : State) : Out :=
  issueWord (.br c g disp) s (fun lanes _ m => m.goTo lanes (fun _ => displaced m.now.cur.pc disp))
/-- call. -/
def execCall (c : Bool) (g : Guard) (disp : BitVec 19) (s : State) : Out :=
  issueWord (.call c g disp) s (fun lanes _ m => (m.link lanes).goTo lanes (fun _ => displaced m.now.cur.pc disp))
/-- brx. -/
def execBrx (c : Bool) (g : Guard) (a : Reg) (s : State) : Out :=
  issueWord (.brx c g a) s (fun lanes src m => m.goTo lanes (fun l => src.pair l a.toNat))
/-- callx. -/
def execCallx (c : Bool) (g : Guard) (a : Reg) (s : State) : Out :=
  issueWord (.callx c g a) s (fun lanes src m => (m.link lanes).goTo lanes (fun l => src.pair l a.toNat))
/-- ret: lk as the chain found it. -/
def execRet (c : Bool) (g : Guard) (s : State) : Out :=
  issueWord (.ret c g) s (fun lanes _ m => m.goTo lanes (fun l => (m.now.cur.thread l).lk))

/-! ## exit, meet, unmeet -/

/-- The ARITH report of a warp, taken together by the lanes given (R167): lxst is the trap value and is then clear. -/
def Sim.arithTrap (m : Sim k s0) (wi : Nat) (lanes : List Nat) (epc : Nat → DWord) (pc : DWord) : Sim k s0 :=
  let x := (m.now.warp wi).lxst
  let m := m.modWarp wi (fun w => { w with lxst := 0 })
  (lanes.zip (List.range lanes.length)).foldl (fun m p =>
    m.takeTrap wi p.1 (m.now.thread wi p.1)
      { cause := 0x0B, tval := x, epc := epc p.1, pc := pc, lanes := x } (p.2 == 0)) m

/-- exit (R127, R167, R168). -/
def execExit (c : Bool) (g : Guard) (s : State) : Out :=
  issueWord (.exit c g) s (fun lanes _ m =>
    let i := m.now.cur
    let low := lanes.filter (fun l => !(i.thread l).priv)
    if !low.isEmpty && lanes.any (fun l => laneBit (m.now.warp i.warp).lxst l) then
      let m := m.arithTrap i.warp low (fun _ => i.wordAddr) i.wordAddr
      m.each (lanes.filter (fun l => (i.thread l).priv)) (fun m l => m.endThread i.warp l)
    else m.each lanes (fun m l => m.endThread i.warp l))

/-- The rejoin table after meet L by some lanes (R150). -/
def Warp.meet (w : Warp) (l : DWord) (lanes : List Nat) : Warp :=
  if w.rejoin.any (fun r => r.addr == l) then
    { w with rejoin := w.rejoin.map (fun r => if r.addr = l then { r with mask := r.mask ||| maskOf lanes } else r) }
  else if w.rejoin.length < 16 then { w with rejoin := w.rejoin ++ [{ addr := l, mask := maskOf lanes }] }
  else w

/-- meet (R150, R154). -/
def execMeet (c : Bool) (g : Guard) (disp : BitVec 19) (s : State) : Out :=
  issueWord (.meet c g disp) s (fun lanes _ m =>
    let i := m.now.cur
    let t := displaced i.pc disp
    let m := m.each lanes (fun m l => m.modThread i.warp l (fun x => { x with mt := t }))
    m.modWarp i.warp (fun w => w.meet t lanes))

/-- unmeet (R153). -/
def execUnmeet (c : Bool) (g : Guard) (disp : BitVec 19) (s : State) : Out :=
  issueWord (.unmeet c g disp) s (fun lanes _ m =>
    let i := m.now.cur
    let t := displaced i.pc disp
    let m := m.each lanes (fun m l => m.modThread i.warp l (fun x => if x.mt = t then { x with mt := 0 } else x))
    m.modWarp i.warp (fun w =>
      { w with rejoin := w.rejoin.map (fun r => if r.addr = t then { r with mask := r.mask &&& ~~~ maskOf lanes } else r) }))

end Sys2Proof.Machine
end

