-- ==== Sys2Proof/Machine/Gather.lean ====
section
/-! DEFINITION. Gathering the threads of a collective or an mma (R156, R289), and barriers (R165, R167). -/

namespace Sys2Proof.Machine

variable {k : Bool} {s0 : State}

/-- Threads held at the word that issues: they stand at it, as not having passed it. DEDUCED (log 21). -/
def Sim.holdAt (m : Sim k s0) (lanes : List Nat) (h : Nat → Hold) : Sim k s0 :=
  let c := m.now.cur
  m.each lanes (fun m l => m.modThread c.warp l (fun t =>
    { t with pc := c.pc, pos := c.pos, line := (c.thread l).line, entered := (c.thread l).entered, hold := h l }))

/-- A held thread passes its word: it may issue its next word delay ac later, and in that ac it arrives at the packet that
follows, if that is its mt. DEDUCED (log 22). -/
def resumed (ac delay : Nat) (t : Thread) : Thread :=
  arrive { (t.advance (nextBundle t).after) with hold := .none, notBefore := ac + delay }

/-! ## Arrivals (R156, points 1 to 5) -/

/-- The member mask of a word: its value at issue, and whether it is live. -/
def memberMask (src : Src) (l : Nat) (m : Reg) : Word × Bool :=
  if m.toNat < 112 then (src l m.toNat, false) else (0, true)

/-- The performing threads arrive at a word and are held (R156, point 2). -/
def Sim.arrival (m : Sim k s0) (i : Instr) (lanes : List Nat) (src : Src) (mask : Reg) (a ctl : Nat → Word) (pa : Nat) : Sim k s0 :=
  let c := m.now.cur
  m.holdAt lanes (fun l =>
    let (w, live) := memberMask src l mask
    .coll { pc := c.pc, pos := c.pos, mask := w, live := live, src := a l, ctl := ctl l
            pred := readPred (c.thread l) pa, ins := i, fpen := c.fpen, first := c.firstOp
            before := { regs := (c.thread l).regs, preds := (c.thread l).preds, lk := (c.thread l).lk, mt := (c.thread l).mt } })

/-- The arrival of a lane. -/
def Warp.arrival (w : Warp) (l : Nat) : Option Arrival :=
  match (w.thread l).life, (w.thread l).hold with
  | .live, .coll a => some a
  | _, _ => .none

/-- The lanes whose threads have not exited. -/
def Warp.live (w : Warp) : Word := maskOf ((List.range 32).filter (fun l => (w.thread l).life == .live))
/-- The lanes that have held a thread. -/
def Warp.held (w : Warp) : Word := maskOf ((List.range 32).filter (fun l => (w.thread l).life != .empty))

/-- The effective mask of an arrival (R156, point 1). -/
def Warp.effective (w : Warp) (l : Nat) (a : Arrival) : Word :=
  if a.live then w.live else (a.mask ||| BitVec.ofNat 32 (2 ^ l)) &&& w.held

/-- Whether two arrivals stand at one word. -/
def sameWord (a b : Arrival) : Bool := a.pc == b.pc && a.pos == b.pos

/-- The set S of the operation that a lane's arrival belongs to (R156, points 3 and 5). -/
def Warp.members (w : Warp) (l : Nat) (a : Arrival) : List Nat :=
  (List.range 32).filter (fun j =>
    match w.arrival j with
    | some b => sameWord a b && w.effective j b == w.effective l a
    | .none => false)

/-- Whether a lane's false guard took it past the word (R289). -/
def Warp.hasPassed (w : Warp) (pc : DWord) (pos l : Nat) : Bool := w.passed.any (fun p => p == (pc, pos, l))

/-- Whether an operation is performed (R156, point 4; R289). -/
def Warp.ready (w : Warp) (l : Nat) (a : Arrival) : Bool :=
  (lanesOf (w.effective l a)).all (fun j =>
    (w.thread j).life != .live || w.hasPassed a.pc a.pos j || (match w.arrival j with | some b => sameWord a b | .none => false))

/-- The operations of a warp that are ready: each with its lowest lane's arrival and its set S. -/
def Warp.gathered (w : Warp) : List (Arrival × List Nat) :=
  (List.range 32).filterMap (fun l =>
    match w.arrival l with
    | some a => if w.ready l a && (w.members l a).head? == some l then some (a, w.members l a) else .none
    | .none => .none)

/-- The threads of S go on (R156, point 6). DEDUCED (log 22). -/
def Sim.release (m : Sim k s0) (wi : Nat) (lanes : List Nat) : Sim k s0 :=
  let ac := m.now.ac
  m.each lanes (fun m l => m.modThread wi l (resumed ac 1))

/-- Flags that an operation of a warp raises, by every lane of S (R161, R166); en is fpen at the issue of each lane. -/
def Sim.raiseAll (m : Sim k s0) (wi : Nat) (lanes : List Nat) (en : Nat → BitVec 5) (fl : FFlags) : Sim k s0 :=
  m.modWarp wi (fun w =>
    { w with fpst := w.fpst ||| fl, lxst := w.lxst ||| maskOf (lanes.filter (fun l => fl &&& en l != 0)) })

/-! ## Barriers (R165, R167) -/

/-- The threads whose guard is true arrive at a barrier, behind every operation that they have issued (R208). -/
def barWord (i : Instr) (gang : Bool) (n : BitVec 2) (s : State) : Out :=
  issueWord i s (fun lanes _ m => m.holdAt lanes (fun _ => .barrier gang n m.now.nextId))

/-- bar. -/
def execBar (c : Bool) (g : Guard) (n : BitVec 2) (s : State) : Out := barWord (.bar c g n) false n s
/-- gbar. -/
def execGbar (c : Bool) (g : Guard) (n : BitVec 2) (s : State) : Out := barWord (.gbar c g n) true n s

/-- The warps of a barrier instance: of a workgroup, or of every workgroup of its gang. -/
def State.barrierWarps (s : State) (wg : Nat) (gang : Bool) : List Nat :=
  if gang then (s.gang (s.wg wg).gang).wgs.flatMap (fun g => (s.wg g).warps) else (s.wg wg).warps

/-- Whether a thread is held at a barrier. -/
def Thread.waitsAt (t : Thread) (gang : Bool) (n : BitVec 2) : Bool :=
  match t.hold with
  | .barrier g k _ => g == gang && k == n
  | _ => false

/-- The lanes of a warp held at a barrier. -/
def Warp.atBarrier (w : Warp) (gang : Bool) (n : BitVec 2) : List Nat :=
  (List.range 32).filter (fun l => (w.thread l).life == .live && (w.thread l).waitsAt gang n)

/-- Whether a barrier at which a thread is held orders it (R208, R367): what it issued before is as behind fence.ar at core
scope, or at gang scope for gbar, and no store of it has been refused. -/
def State.barrierOrders (s : State) (wi l : Nat) : Bool :=
  match (s.thread wi l).hold with
  | .barrier gang _ below =>
    s.acquired wi l below && s.released wi l below (if gang then 1 else 0) && !s.storeTrap wi l
  | _ => true

/-- Whether an instance is complete (R165): some thread has arrived, and every thread that has not exited has, in the order
of R208. -/
def State.barrierReady (s : State) (wg : Nat) (gang : Bool) (n : BitVec 2) : Bool :=
  let ws := s.barrierWarps wg gang
  ws.any (fun i => !((s.warp i).atBarrier gang n).isEmpty) &&
  ws.all (fun i => (List.range 32).all (fun l =>
    (s.thread i l).life != .live || ((s.thread i l).waitsAt gang n && s.barrierOrders i l)))

/-- BARRIER_COMPLETE (R165): the threads go on, after gbar with an acquire at gang scope (R208); a warp with an unreported enabled exception reports it (R167). -/
def execBarrierComplete (wg : Nat) (gang : Bool) (n : BitVec 2) (s : State) : Out :=
  let m := begin_ true s
  if !s.barrierReady wg gang n then ran m
  else
    ran (m.each (s.barrierWarps wg gang) (fun m i =>
      let lanes := (s.warp i).atBarrier gang n
      let ac := s.ac
      let m := m.each lanes (fun m l =>
        (m.modThread i l (fun t => if t.life = .live then resumed ac (if gang then 40 else 4) t else t)).when gang
          (fun m => m.raiseFresh i l (ac + 1)))
      let low := lanes.filter (fun l => (m.now.thread i l).life == .live && !(m.now.thread i l).priv)
      if (m.now.warp i).lxst != 0 && !low.isEmpty then
        let at_ := m.now
        m.arithTrap i low (fun l => (at_.thread i l).wordAddr) ((s.thread i (low.headD 0)).wordAddr)
      else m))

end Sys2Proof.Machine
end

