-- ==== Sys2Proof/Machine/Replay.lean ====
section
/-! DEFINITION. Accesses tried again: when the MMP has decided a page (R371, R372), and when a saved gang is restored
(R381). -/

namespace Sys2Proof.Machine

variable {k : Bool} {s0 : State}

/-- The 64 KiB page number of an address, in the 57-bit space. -/
def pageNo (va : DWord) : Nat := va.toNat % 2 ^ 57 / 65536

/-- Whether n bytes from an address touch a page. -/
def touches (va : DWord) (n page : Nat) : Bool := (pagesOf va.toNat n).any (fun p => p % 2 ^ 41 == page)

/-- Whether an operation is an access by lanes, not a word of an engine. -/
def Op.byLanes (o : Op) : Bool :=
  match o.kind with
  | .load | .store | .atomic | .market => true
  | _ => false

/-- The held lanes of some accesses: the operation and the lane, in order of issue. -/
def State.heldLanes (s : State) (ofOp : Op → Bool) (ofLane : LaneOp → Bool) : List (Op × LaneOp) :=
  s.ops.flatMap (fun o =>
    if o.byLanes && ofOp o then (o.lanes.filter (fun x => x.state == .held && ofLane x)).map (fun x => (o, x)) else [])

/-- The lanes of accesses of an owner that are held for a page. Those of a gang that is saved wait for its restore (R381). -/
def State.heldAt (s : State) (owner : Tag) (page : Nat) : List (Op × LaneOp) :=
  s.heldLanes (fun o => s.ownerOf o.warp == owner && (s.gang (s.gangOf o.warp)).state != .saved) (fun x => touches x.addr x.size page)

/-- The memory word that an operation of generic memory issued. -/
def Op.memWord (o : Op) : MemWord :=
  { kind := o.kind, sp := 0, acc := if o.isLoad then .read else .write, size := 0 }

/-- A held lane tried again: it proceeds with a latency, a level and cache events of its own, is refused, finds no unit, or
stays held. -/
def Sim.replayLane (m : Sim k s0) (o : Op) (x : LaneOp) : Sim k s0 :=
  let owner := m.now.ownerOf o.warp
  let w := o.memWord
  match m.now.admitAccess o.warp x.priv w.acc 0 x.addr x.size true (o.kind == .atomic) with
  | .held => m
  | .refused => (m.refuseLane o x).settle o.id
  | .full => (m.fullLane o x).settle o.id
  | .go loc pte =>
    let ps := if w.acc.writes then m.now.toCharge owner x.addr x.size else []
    let m := (m.cacheEntry owner x.addr).when (!ps.isEmpty) (fun m => m.chargePages owner ps)
    let y := { x with loc := some loc, pte := pte, state := LaneState.going }
    let cost := m.now.laneCost o.warp w o.scope y
    let level := maxOf ((o.lanes.filter (fun z => z.lane != x.lane && z.loc.isSome)).map (fun z => (m.now.laneCost o.warp w o.scope z).1))
    let m := m.countLevels o.warp (m.now.countLevel o.warp w o.scope y).toList
    let ac := m.now.ac
    (m.modLane o.id x.lane (fun _ => y)).modOp o.id (fun o =>
      { o with due := Nat.max o.due (ac + cost.2), acks := o.acks || (!o.isLoad && pteBit pte 10), level := Nat.max level cost.1 })

/-- Lanes tried again, in order of issue. -/
def Sim.replayAll (m : Sim k s0) (xs : List (Op × LaneOp)) : Sim k s0 := m.each xs (fun m p => m.replayLane p.1 p.2)

/-- The operand-log entries of a gang replayed, as at its restore (R381). -/
def Sim.replayGang (m : Sim k s0) (gi : Nat) : Sim k s0 :=
  m.replayAll (m.now.heldLanes (fun o => m.now.gangOf o.warp == gi) (fun _ => true))

/-- Every lane held for a page tried again, in order of issue. -/
def Sim.replayPage (m : Sim k s0) (owner : Tag) (va : DWord) : Sim k s0 := m.replayAll (m.now.heldAt owner (pageNo va))

end Sys2Proof.Machine
end

