-- ==== Sys2Proof/Machine/Engine.lean ====
section
/-! DEFINITION. What every engine shares: pins (R277), engine faults (R273, R299, R369), and operations of words that an
engine completes (R25). -/

namespace Sys2Proof.Machine

variable {k : Bool} {s0 : State}

/-- Whether a page is pinned. -/
def State.pinned (s : State) (page : Nat) : Bool := Cells.get 0 s.pins page != 0

/-- The base dies in whose page-lock tables a page is held (R277, R417): those where its lines have their homes. -/
def State.pageDies (s : State) (p : Nat) : List Nat :=
  if 2 ^ 80 ≤ p then
    (match s.entry (BitVec.ofNat 12 ((p - 2 ^ 80) / 2 ^ 64)) (BitVec.ofNat 64 (p % 2 ^ 57)) with
     | .leaf _ pte => [pteDie pte]
     | _ => [0])
  else if 2 ^ 64 ≤ p || isLpddr p then [0, 1, 2, 3]
  else [portOf (localPa p) / 2]

/-- Whether the page-lock tables have room for new pins of some pages (R277); a page already pinned takes no entry. -/
def State.pinRoom (s : State) (pages : List Nat) : Bool :=
  let new := pages.eraseDups.filter (fun p => !s.pinned p)
  new.isEmpty || (List.range 4).all (fun d =>
    ((s.pins.filter (fun p => (s.pageDies p.1).contains d)).length + (new.filter (fun p => (s.pageDies p).contains d)).length)
      ≤ Config.pinEntries)

/-- The pages of some ranges of addresses of an owner, each once, by the place of its first byte. -/
def State.pagesIn (s : State) (owner : Tag) (rs : List (DWord × Nat)) : List Nat :=
  (rs.flatMap (fun r => (pagesOf r.1.toNat r.2).filterMap (fun p =>
    match s.translate owner false .read (pageStart r.1.toNat p) with | .ok _ page _ _ => some page | _ => none))).eraseDups

/-- The kind of leaf that reaches a line (R187): DEV, HOST, CXL or UNBACKED. -/
def kindOfLine (line : Nat) : Nat :=
  if isPinned line then 3 else if 2 ^ 45 ≤ line then 1 else if isLpddr (128 * line) then 0 else 2

/-- The requests of a command for some generic places, counted as those of the warp that pushed it (R399). -/
def Sim.countLines (m : Sim k s0) (wi : Nat) (locs : List Nat) : Sim k s0 :=
  let core := (m.now.warp wi).core
  let lines := ((locs.filter isGeneric).map lineOf).eraseDups
  let here := lines.filter (fun n => !m.now.elsewhere (128 * n))
  let pte (n : Nat) : Nat := 8192 * kindOfLine n
  (m.countLinks wi (here != lines) (here.any (fun n => dieOf core != (m.now.servingSlice core (128 * n) (pte n)).1))).countLevels wi
    (here.map (fun n => m.now.homeLevel core (128 * n) (pte n)))

/-- The trap value of ENGINE (R358). -/
def engineTval (status eng : Nat) (tag : Nat) : Word := BitVec.ofNat 32 (status * 2 ^ 24 + eng * 2 ^ 20 + tag % 2 ^ 16)

/-- An engine fault delivered to the lowest live lane of some lanes of a warp, or recorded with EXITED (R369). -/
def Sim.engineFault (m : Sim k s0) (wi : Nat) (lanes : List Nat) (status eng tag : Nat) (pc : DWord) : Sim k s0 :=
  let tv := engineTval status eng tag
  match lanes.find? (fun l => (m.now.thread wi l).life == .live) with
  | some l => m.pendTrap wi l { cause := 0x0D, late := false, tval := tv, pc := pc, va := 0 }
  | none =>
    (m.report { cause := 0x0D, exited := true, warp := wi, lanes := maskOf lanes, tval := tv, pc := pc }).blame wi 0x0D tv

/-- Lanes of an operation of an engine word done; the operation completes when none is left. -/
def Sim.finishLanes (m : Sim k s0) (id : Nat) (lanes : List Nat) : Sim k s0 :=
  (m.modOp id (fun o =>
    { o with lanes := o.lanes.map (fun x => if lanes.contains x.lane then { x with state := .done } else x) })).settle id

/-- A whole operation of an engine word done, with the registers that it writes. -/
def Sim.finishOp (m : Sim k s0) (id : Nat) (writes : List RegWrite) : Sim k s0 :=
  match m.now.op? id with
  | none => m
  | some o => (m.modOp id (fun o => { o with writes := o.writes ++ writes })).finishLanes id (o.lanes.map (·.lane))

/-- A lane of an engine word: it holds the operation open until the engine completes it. -/
def engineLane (l : Nat) (addr : DWord := 0) : LaneOp :=
  { lane := l, addr := addr, loc := none, size := 0, pte := 0, data := [], state := .going }

/-- A command changed. -/
def Sim.modCmd (m : Sim k s0) (id : Nat) (f : Cmd → Cmd) : Sim k s0 :=
  m.act (.cmds (m.now.cmds.map (fun c => if c.id = id then f c else c)))
/-- The command of a number. -/
def State.cmd? (s : State) (id : Nat) : Option Cmd := s.cmds.find? (fun c => c.id == id)
/-- A command decided: its STATUS, the bytes it wrote, and its own words of the result (R274). It stands behind those
decided before it, so that results are posted in order of completion (R276). -/
def Sim.decide_ (m : Sim k s0) (id status bytes extra0 extra3 : Nat) : Sim k s0 :=
  match m.now.cmd? id with
  | none => m
  | some c =>
    let others := m.now.cmds.filter (fun e => e.id != id)
    m.act (.cmds (others.filter (fun e => e.status.isSome) ++
      [{ c with status := some status, bytes := bytes, extra0 := extra0, extra3 := extra3, owned := [] }] ++
      others.filter (fun e => e.status.isNone)))

end Sys2Proof.Machine
end

