-- ==== Sys2Proof/Machine/Launch.lean ====
section
/-! DEFINITION. The launch path: launch packets and their acceptance (R279, R280), runs of task graphs (R282, R283) and
gsignal (R284). -/

namespace Sys2Proof.Machine

variable {k : Bool} {s0 : State}

/-! ## Launch packets (R279) -/

/-- The fields of a launch packet. -/
structure Packet where
  entry : DWord
  param : DWord
  done : DWord
  ngang : Nat
  idem : Bool
  stage : Nat
  gangl : Nat
  wgsize : Nat
  lmem : Nat
  quota : Nat
  prio : Nat
  psize : Nat
  deriving DecidableEq, Repr

/-- A packet read from 64 bytes; none where it is MALFORMED. -/
def packetOf (bytes : List Byte) : Option Packet :=
  let n := leNat bytes
  let psize := bits n 268 256
  if bits n 511 269 != 0 || bits n 224 224 != 0 || bits n 223 212 != 0 || 10 < bits n 252 249 || 96 < bits n 248 242 ||
     4096 < psize || bits n 191 128 % 8 != 0 || (psize != 0 && bits n 127 64 % 16 != 0) then none
  else some
    { entry := BitVec.ofNat 64 (bits n 63 0), param := BitVec.ofNat 64 (bits n 127 64), done := BitVec.ofNat 64 (bits n 191 128)
      ngang := bits n 211 192 + 1, idem := bits n 225 225 == 1, stage := bits n 229 226, gangl := bits n 231 230
      wgsize := bits n 241 232 + 1, lmem := bits n 248 242, quota := 32 + 8 * bits n 252 249, prio := bits n 255 253
      psize := psize }

/-- Packets that a launch queue holds (R280): those with gangs still to place. DESIGN CHOICE (log 106). -/
def State.queued (s : State) (prio : Nat) : Nat :=
  (s.launches.filter (fun l => l.2.prio == prio && !l.2.killed && !l.2.complete && l.2.nextGang < l.2.ngang)).length

/-- A packet accepted into its queue, with its parameter block (R280). The launch takes the next ID. -/
def Sim.accept (m : Sim k s0) (owner : Tag) (vf : BitVec 6) (p : Packet) (param : List Byte) (origin : Origin) (gen : Word)
    (held : Bool) : Sim k s0 :=
  let li := m.now.nextId
  let l : Launch :=
    { id := m.now.launchCount.toNat, owner := owner, vf := vf, prio := p.prio, quota := p.quota, lmem := p.lmem
      wgsize := p.wgsize, gangl := p.gangl, stage := p.stage, idem := p.idem, ngang := p.ngang, done := p.done
      psize := p.psize, entry := p.entry, origin := origin, gen := gen, nextGang := 0, retired := 0, killed := false
      complete := false, held := held, passedSince := none, blocking := false }
  ((m.fresh.act (.launchCount (m.now.launchCount + 1))).act (.launch li l)).store (paramLoc li 0) param

/-- What becomes of a submission (R280): a STATUS, or a page fault that the MMP services first. -/
inductive Submitted where
  | wait (va : DWord)
  | status (n : Nat)
  | ok (p : Packet) (param : List Byte)
  deriving DecidableEq, Repr

/-- The reading of a packet and its parameter block under an owner (R280). Bytes in error are read as they stand.
DESIGN CHOICE (log 104). -/
def State.readPacket (s : State) (owner : Tag) (priv : Bool) (va : DWord) : Submitted :=
  if va.toNat % 64 ≠ 0 then .status 1
  else match s.translate owner priv .read va with
    | .refused => .status 2
    | .ok loc _ _ _ =>
      (match packetOf (s.bytes loc 64) with
       | none => .status 1
       | some p =>
         if p.psize = 0 then (if 1024 ≤ s.queued p.prio then .status 3 else .ok p [])
         else match s.translateRange owner priv .read p.param p.psize with
           | .refused => .status 2
           | .ok .. =>
             if 1024 ≤ s.queued p.prio then .status 3
             else .ok p ((s.placesOf owner priv .read p.param p.psize).map s.byte)
           | _ => .wait p.param)
    | _ => .wait va

/-- The launch status word (R280). -/
def launchWord (status id : Nat) : Word := BitVec.ofNat 32 (status * 2 ^ 28 + id % 2 ^ 24)

/-! ## Words of an engine, lane by lane -/

/-- A word performed by its engine for each lane, in its own time (R25): the lanes hold what the engine needs. -/
def engineWord (i : Instr) (lat : Nat) (s : State) (lane : Src → Nat → LaneOp) : Out :=
  issueWord i s (fun lanes src m => m.launchOp i .engine (lanes.map (lane src)) lat)

/-- A lane of an operation completes with the registers that it writes from D on. -/
def Sim.laneDone (m : Sim k s0) (o : Op) (l d : Nat) (ws : List Word) : Sim k s0 :=
  m.modOp o.id (fun o =>
    { o with writes := o.writes ++ (ws.zip (List.range ws.length)).map (fun p => { lane := l, reg := d + p.2, value := p.1 })
             lanes := o.lanes.map (fun x => if x.lane = l then { x with state := .done } else x) })

/-- Whether the draw unit of a core has received an earlier draw that is still to be performed (R307): a dsel of a lane by its
issue and its lane, a DRAW command by its receipt. -/
def State.drawWaits (s : State) (core id lane : Nat) : Bool :=
  s.ops.any (fun e => (match e.ins with | .dsel .. => true | _ => false) && (s.warp e.warp).core == core &&
    e.lanes.any (fun x => !x.final && (e.id < id || (e.id == id && x.lane < lane)))) ||
  s.cmds.any (fun c => c.port == 4 && (s.warp c.warp).core == core && c.status.isNone && c.id < id)

/-- Whether an earlier word of the same engine for the lane is still to be performed: the words of the Grinder wait for none
of its own (R348). -/
def State.wordWaits (s : State) (o : Op) (l : Nat) : Bool :=
  fMaj (encode o.ins) != 21 && s.ops.any (fun e => e.warp == o.warp && e.id < o.id && e.kind == .engine &&
    fMaj (encode e.ins) == fMaj (encode o.ins) && e.lanes.any (fun x => x.lane == l && !x.final))

/-- Whether the engine may act for a lane: a dsel at the turn of its draw unit, as a load in its thread's order (R307);
another word once every earlier access of its thread is performed at dev scope, as a push, and every earlier word of the
same engine for it has been performed (R211, R327, R348). -/
def State.laneFree (s : State) (o : Op) (x : LaneOp) : Bool :=
  match o.ins with
  | .dsel .. => s.inOrder o x && !s.drawWaits (s.warp o.warp).core o.id x.lane
  | _ => s.performedBefore o.warp x.lane o.id 3 && !s.relHolds o.warp x.lane o.id && !s.wordWaits o x.lane &&
      (!(o.reads || o.stores) || s.inOrder o x)

/-- A word of an engine performed for each of its lanes that may be, in lane order; f performs one, and leaves the
lane open where it must wait. A thread that has ended takes no result (R127, R375). -/
def Sim.eachLane (m : Sim k s0) (o : Op) (f : Sim k s0 → LaneOp → Sim k s0) : Sim k s0 :=
  (m.each (o.lanes.filter (fun x => !x.final)) (fun m x =>
    if m.now.laneFree o x then f m x else m)).settle o.id

/-! ## launch (R280) -/

/-- launch. -/
def execLaunch (c : Bool) (g : Guard) (fs : Bool) (d a : Reg) (s : State) : Out :=
  engineWord (.launch c g fs d a) 200 s (fun src l => { engineLane l (src.pair l a.toNat) with size := 64 })

/-- launch performed. DEDUCED (log 36). -/
def Sim.launchDo (m : Sim k s0) (o : Op) (d : Reg) : Sim k s0 :=
  m.eachLane o (fun m x =>
    let owner := m.now.ownerOf o.warp
    let priv := (m.now.thread o.warp x.lane).priv
    let done (m : Sim k s0) (w : Word) := m.laneDone o x.lane d.toNat [w]
    if x.state = .denied then done m (launchWord 2 0)
    else match m.now.readPacket owner priv x.addr with
      | .wait _ => m
      | .status n => done m (launchWord n 0)
      | .ok p param =>
        let id := m.now.launchCount.toNat
        done (m.accept owner (m.now.launchOf o.warp).vf p param .program 0 false) (launchWord 0 id))

/-! ## gsignal (R284) -/

/-- gsignal. -/
def execGsignal (c : Bool) (g : Guard) (fs : Bool) (d a : Reg) (s : State) : Out :=
  engineWord (.gsignal c g fs d a) 200 s (fun src l =>
    { engineLane l with data := wordBytes (src l a.toNat) ++ wordBytes (src l (a.toNat + 1)) })

/-- One gsignal of an owner (R283, R284): 0 COUNTED, 1 STALE, 2 BADNODE. DEDUCED (log 50). Bits that must be zero and are not
name no node: BADNODE. DESIGN CHOICE (log 105). -/
def Sim.gsignalOne (m : Sim k s0) (owner : Tag) (w run : Word) : Sim k s0 × Nat :=
  let gi := BitVec.ofNat 6 (bits w.toNat 21 16)
  let node := bits w.toNat 15 0
  match m.now.graph? gi with
  | none => (m, 2)
  | some g =>
    if bits w.toNat 31 22 ≠ 0 ∨ g.owner ≠ owner ∨ g.nodes ≤ node ∨ g.kind node ≠ 3 then (m, 2)
    else match g.run with
      | none => (m, 1)
      | some r =>
        if r.number ≠ run ∨ g.over r then (m, 1)
        else
          let c := (r.node node).counted + 1
          let m := m.setRun gi g (r.mod node (fun n => { n with counted := c }))
          (m.when ((r.node node).state == .running && g.arg32 node ≤ c) (fun m => m.completeNode gi node false), 0)

/-- gsignal performed. -/
def Sim.gsignalDo (m : Sim k s0) (o : Op) (d : Reg) : Sim k s0 :=
  m.eachLane o (fun m x =>
    let r := m.gsignalOne (m.now.ownerOf o.warp) (bytesWord (x.data.take 4)) (bytesWord (x.data.drop 4))
    r.1.laneDone o x.lane d.toNat [BitVec.ofNat 32 r.2])

/-! ## Runs (R282, R283) -/

/-- A run begun: the number after the last, skipping 0. -/
def Sim.startRun (m : Sim k s0) (gi : BitVec 6) : Sim k s0 :=
  match m.now.graph? gi with
  | none => m
  | some g =>
    let n := if (g.runs + 1) % 2 ^ 32 = 0 then 1 else (g.runs + 1) % 2 ^ 32
    m.act (.graph gi.toNat
      { g with runs := n, run := some { number := BitVec.ofNat 32 n, nodes := List.replicate g.nodes NodeRun.fresh, ended := false, failed := false } })

/-- A malformed node stops the run, and the error is reported (R282); so does a packet that is not accepted, and a condition
word that is refused. The report stands beside the graph. DESIGN CHOICE (log 102). -/
def Sim.stopRun (m : Sim k s0) (gi : BitVec 6) (node : Nat) : Sim k s0 :=
  match m.now.graph? gi with
  | some g =>
    match g.run with
    | some r => m.setRun gi { g with reports := g.reports ++ [(r.number, node)] } { r with ended := true, failed := true }
    | none => m
  | none => m

/-- A node of the current run changed. -/
def Sim.modNode (m : Sim k s0) (gi : BitVec 6) (node : Nat) (f : NodeRun → NodeRun) : Sim k s0 :=
  match m.now.graph? gi with
  | some g =>
    match g.run with
    | some r => m.setRun gi g (r.mod node f)
    | none => m
  | none => m

/-- The condition word of a node (R282): its value, none while its page is serviced, and a refusal; a word in error is read as
it stands. DESIGN CHOICE (log 104). -/
def State.condition (s : State) (g : Graph) (node : Nat) : Option (Option Nat) :=
  match s.translate g.owner false .read (BitVec.ofNat 64 (g.arg64 node)) with
  | .ok loc _ _ _ => some (some (s.readNat loc 8))
  | .refused => some none
  | _ => none

/-- A KERNEL node submits its packet (R283): bytes 0–3 of the parameter space hold the run number. DEDUCED (log 51). -/
def Sim.kernelNode (m : Sim k s0) (gi : BitVec 6) (g : Graph) (r : Run) (node : Nat) : Sim k s0 :=
  match m.now.readPacket g.owner false (BitVec.ofNat 64 (g.arg64 node)) with
  | .wait _ => m
  | .status _ => m.stopRun gi node
  | .ok p param =>
    let m := m.modNode gi node (fun n => { n with state := .running })
    m.accept g.owner g.vf p ((wordBytes r.number ++ param.drop 4).take param.length) (.node gi r.number node) 0 false

/-- A body node of a WHILE at the start of a pass (R283): its count of signals is zero, and one that is not running may start
again, with the signals of gsignal that it has counted. One of no predecessor is left. DESIGN CHOICE (log 103). -/
def Graph.bodyNode (g : Graph) (i : Nat) (n : NodeRun) : NodeRun :=
  if g.npred i = 0 then n
  else if n.state = .running then { n with signals := 0 }
  else { NodeRun.fresh with counted := n.counted }

/-- A WHILE node reads its word (R283). -/
def Sim.whileNode (m : Sim k s0) (gi : BitVec 6) (g : Graph) (r : Run) (node : Nat) : Sim k s0 :=
  let limit := g.arg32 node / 65536
  match m.now.condition g node with
  | none => m
  | some none => m.stopRun gi node
  | some (some v) =>
    if v = 0 ∨ (limit ≠ 0 ∧ limit ≤ (r.node node).passes) then
      (m.modNode gi node (fun n => { n with state := .running })).completeNode gi node true
    else
      let body := g.body node
      let m := m.each body (fun m i => m.modNode gi i (g.bodyNode i))
      let m := m.modNode gi node (fun n => { n with state := .running, back := 0, passes := n.passes + 1 })
      m.each (g.succ node false) (fun m t => m.signal gi node t)

/-- GRAPH_NODE_START (R283). A STEP node completes at once here; that of an instance's STEPGRAPH is the Barista's
(Machine/Barista.lean). A malformed node is met as it would start. DESIGN CHOICE (log 102). -/
def Sim.nodeStart (m : Sim k s0) (gi : BitVec 6) (node : Nat) (step : Sim k s0 → Option (Sim k s0)) : Sim k s0 :=
  match m.now.graph? gi with
  | none => m
  | some g =>
    match g.run with
    | none => m
    | some r =>
      if r.ended || g.nodes ≤ node || !g.ready r node then m
      else if g.nodeBad node then m.stopRun gi node
      else match g.kind node with
        | 0 => m.kernelNode gi g r node
        | 1 =>
          (match m.now.condition g node with
           | none => m
           | some none => m.stopRun gi node
           | some (some v) =>
             (m.modNode gi node (fun n => { n with state := .running })).completeNode gi node (v == 0))
        | 2 => m.whileNode gi g r node
        | 3 =>
          let m := m.modNode gi node (fun n => { n with state := .running })
          m.when (g.arg32 node ≤ (r.node node).counted) (fun m => m.completeNode gi node false)
        | _ =>
          (match step m with
           | some m => m
           | none => (m.modNode gi node (fun n => { n with state := .running })).completeNode gi node false)

end Sys2Proof.Machine
end

