-- ==== Sys2Proof/Machine/Place.lean ====
section
/-! DEFINITION. The placement of gangs (R28, R138, R140, R173, R281, R287, R324, R383, R389). -/

namespace Sys2Proof.Machine

variable {k : Bool} {s0 : State}

/-! ## What a core has free -/

/-- An element put into a sorted list, before the first that it precedes. -/
def insertBy {α : Type} (lt : α → α → Bool) (x : α) : List α → List α
  | [] => [x]
  | y :: ys => if lt x y then x :: y :: ys else y :: insertBy lt x ys

/-- A list sorted, equal elements in their order. -/
def sortBy {α : Type} (lt : α → α → Bool) (xs : List α) : List α := xs.foldl (fun acc x => insertBy lt x acc) []

/-- Whether a gang stands on its cores. -/
def GangState.onCores (x : GangState) : Bool := x == .placed || x == .saving

/-- The core-local units that workgroups hold on a core: first unit and count (R138, R173). -/
def State.localHeld (s : State) (core : Nat) : List (Nat × Nat) :=
  (s.gangs.filter (fun g => g.2.state.onCores)).flatMap (fun g =>
    (g.2.wgs.filter (fun w => (s.wg w).core == core && (s.wg w).localSize != 0)).map (fun w =>
      ((s.wg w).localBase / 4096, (s.wg w).localSize / 4096)))

/-- The lowest free place of some units on a core, of 96. -/
def State.localPlace (s : State) (core units : Nat) : Option Nat :=
  let held := s.localHeld core
  (List.range (97 - units)).find? (fun b => held.all (fun h => h.1 + h.2 ≤ b || b + units ≤ h.1))

/-- The warps resident on a scheduler. -/
def State.residents (s : State) (sc : Nat) : List Nat :=
  (s.warps.filter (fun w => w.2.resident && !w.2.ended && 4 * w.2.core + w.2.sched == sc)).map (·.1)

/-- The lowest free slots of a scheduler (R140). -/
def State.freeSlots (s : State) (sc : Nat) : List Nat :=
  let used := (s.residents sc).map (fun i => (s.warp i).slot)
  (List.range 16).filter (fun i => !used.contains i)

/-- The schedulers of the warps of a workgroup, with the quotas of the warps on each: warp w is at distance w / 8 from
s0 (R140). -/
def quotasAt (quotas : List Nat) (j : Nat) : List Nat := (quotas.drop (8 * j)).take 8

/-- Whether a scheduler takes warps of the quotas given, of one owner (R140, R287, R383). -/
def State.schedFits (s : State) (sc : Nat) (owner : Tag) (alone : Bool) (quotas : List Nat) : Bool :=
  let rs := s.residents sc
  (quotas.filter (· != 0)).length ≤ (s.freeSlots sc).length &&
  (rs.map (fun i => (s.warp i).quota)).sum + quotas.sum ≤ 1024 &&
  rs.all (fun i => s.ownerOf i == owner) && (!alone || rs.isEmpty)

/-- s0 of a workgroup on a core (R281). -/
def State.firstSched (s : State) (core : Nat) (owner : Tag) (alone : Bool) (quotas : List Nat) : Option Nat :=
  (List.range 4).find? (fun s0 =>
    (List.range 4).all (fun j =>
      (quotasAt quotas j).all (· == 0) || s.schedFits (4 * core + (s0 + j) % 4) owner alone (quotasAt quotas j)))

/-- Where a workgroup goes: core, first unit of core-local memory, s0. -/
structure Seat where
  core : Nat
  unit : Nat
  s0 : Nat
  deriving DecidableEq, Repr

/-- A seat on a core, if it can hold a workgroup. -/
def State.seat (s : State) (core : Nat) (owner : Tag) (units : Nat) (alone : Bool) (quotas : List Nat) : Option Seat :=
  match s.localPlace core units, s.firstSched core owner alone quotas with
  | some u, some s0 => some { core := core, unit := u, s0 := s0 }
  | _, _ => none

/-- Whether a launch of a virtual function may be placed on a cluster (R389). -/
def State.clusterOk (s : State) (vf : BitVec 6) (c : Nat) : Bool :=
  match Keyed.find s.vfs vf.toNat with
  | some v =>
    if v.desc.spatial then laneBit v.desc.clusters c
    else s.vfs.all (fun x => !x.2.desc.spatial || !laneBit x.2.desc.clusters c)
  | none => false

/-- The seats of a gang, one for each workgroup, with its cluster (R138, R281). quotas lists those of each workgroup. -/
def State.seats (s : State) (l : Launch) (alone : Bool) (quotas : List (List Nat)) : Option (Nat × List Seat) :=
  let g := quotas.length
  (List.range 32).findSome? (fun i =>
    let c := (s.lastCluster + 1 + i) % 32
    if !s.clusterOk l.vf c || g = 0 then none
    else (List.range (8 / g)).findSome? (fun m =>
      let xs := (quotas.zip (List.range g)).map (fun q => s.seat (8 * c + g * m + q.2) l.owner l.lmem alone q.1)
      if xs.all Option.isSome then some (c, xs.filterMap id) else none))

/-! ## What is placed next -/

/-- Whether a stop request names a launch (R378). -/
def jobNames (j : StopJob) (l : Launch) : Bool :=
  match j with
  | .run g n => (match l.origin with | .node g' n' _ => g == g' && n == n' | _ => false)
  | .launch id => l.id == id.toNat
  | .vf v => l.vf == v

/-- Whether a stop in progress holds the placement of a launch (R378, R383). -/
def State.stopped (s : State) (l : Launch) : Bool := s.stops.any (fun x => jobNames x.job l)

/-- Whether gangs of a launch may be placed: not killed, its owner LOADED, its virtual function in, no stop and no start
barrier holding it, and the package not overheated (R378, R384, R391, R420, R447). -/
def State.mayPlace (s : State) (l : Launch) : Bool :=
  !l.killed && !l.complete && !l.held && s.loaded l.owner && !s.stopped l && s.boot.ready &&
  (match Keyed.find s.vfs l.vf.toNat with | some v => !v.out | none => false)

/-- The next gang of a launch: a halted one by its record, or a new one (R281, R383). -/
def State.nextGang (s : State) (li : Nat) : Option (Option Nat) :=
  let inState (st : GangState) : List (Nat × Gang) :=
    sortBy (fun a b => a.2.index < b.2.index) (s.gangs.filter (fun g => g.2.launch == li && g.2.state == st))
  match inState GangState.saved, inState GangState.flushed with
  | g :: _, _ => some (some g.1)
  | [], g :: _ => some (some g.1)
  | [], [] => if (s.launch li).nextGang < (s.launch li).ngang then some none else none

/-- Whether a launch comes before another: highest PRIO, lowest STAGE, earliest acceptance (R281). -/
def placeBefore (a b : Nat × Launch) : Bool :=
  b.2.prio < a.2.prio || (a.2.prio == b.2.prio && (a.2.stage < b.2.stage || (a.2.stage == b.2.stage && a.1 < b.1)))

/-- Launches with a gang to place, in order of PRIO, STAGE and acceptance (R281). -/
def State.placeOrder (s : State) : List Nat :=
  (sortBy placeBefore (s.launches.filter (fun l => s.mayPlace l.2 && (s.nextGang l.1).isSome))).map (·.1)

/-- Whether a launch that has been passed over too long keeps another from being placed (R281). Of several passed over
so long, the first in the order is kept back by none of the others. DEDUCED (log 52). -/
def State.placeBlocked (s : State) (li : Nat) : Bool :=
  (s.launches.filter (fun b => b.2.blocking && b.1 != li && s.mayPlace b.2)).any (fun b =>
    (s.launch li).prio ≤ b.2.prio && (!(s.launch li).blocking || placeBefore b (li, s.launch li)))

/-- The quotas of the warps of a gang: as saved, or those of the launch. -/
def State.gangQuotas (s : State) (li : Nat) (old : Option Nat) : List (List Nat) :=
  let l := s.launch li
  let fresh := List.replicate (2 ^ l.gangl) (List.replicate ((l.wgsize + 31) / 32) l.quota)
  match old with
  | some gi =>
    if (s.gang gi).state == GangState.saved then
      (s.gang gi).wgs.map (fun w => (s.wg w).warps.map (fun i => if (s.warp i).ended then 0 else (s.warp i).quota))
    else fresh
  | none => fresh

/-- Where the next gang of a launch fits now. -/
def State.fits (s : State) (li : Nat) : Option (Option Nat × Nat × List Seat) :=
  match s.nextGang li with
  | none => none
  | some old =>
    let alone := old.elim false (fun gi => (s.gang gi).state == GangState.saved)
    (s.seats (s.launch li) alone (s.gangQuotas li old)).map (fun x => (old, x.1, x.2))

/-! ## Starting and restoring a gang -/

/-- A thread that begins (R28). -/
def Thread.start (entry : DWord) (ac : Nat) : Thread :=
  { Thread.empty with life := .live, pc := entry, lastIssue := ac, notBefore := ac + 1 }

/-- The slot and ticket of a new workgroup, from the order board (R324). -/
def State.bindingOf (s : State) (l : Launch) (index : Nat) : Option (BitVec 4 × Nat × Nat) :=
  match s.stepOf l with
  | some (i, x) =>
    let e := s.readNat (marketLoc (x.board + 64 + 16 * index)) 4
    if index < x.maxslot ∧ bits e 31 31 = 1 then some (i, index, bits e 15 0) else none
  | none => none

/-- The accumulator bank of a scheduler set to +0 where no warp is resident (R287). -/
def Sim.freshBank (m : Sim k s0) (sc : Nat) : Sim k s0 :=
  m.when (m.now.residents sc).isEmpty (fun m => m.act (.clearTiles (tileKey sc 0 0 0) (tileKey (sc + 1) 0 0 0)))

/-- A new warp of a workgroup (R28, R137, R140, R142). -/
def Sim.startWarp (m : Sim k s0) (wgi num : Nat) : Sim k s0 :=
  let g := m.now.wg wgi
  let l := m.now.launch (m.now.gang g.gang).launch
  let sched := (g.s0 + num / 8) % 4
  let slot := (m.now.freeSlots (4 * g.core + sched)).headD 0
  let wi := m.now.nextId
  let ac := m.now.ac
  let threads := (List.range 32).map (fun i => if 32 * num + i < g.size then Thread.start l.entry ac else Thread.empty)
  let w : Warp :=
    { Warp.none with wg := wgi, num := num, core := g.core, sched := sched, slot := slot, resident := true, ended := false
                     threads := threads, quota := l.quota }
  (m.fresh.act (.warp wi w)).act (.wg wgi { g with warps := g.warps ++ [wi] })

/-- A new workgroup of a gang on its seat (R173, R287). -/
def Sim.startWg (m : Sim k s0) (gi wgid : Nat) (x : Seat) : Sim k s0 :=
  let gang := m.now.gang gi
  let l := m.now.launch gang.launch
  let wgi := m.now.nextId
  let nw := (l.wgsize + 31) / 32
  let g : Workgroup :=
    { gang := gi, wgid := wgid, core := x.core, s0 := x.s0, size := l.wgsize, localBase := 4096 * x.unit
      localSize := 4096 * l.lmem, warps := [], bound := m.now.bindingOf l gang.index }
  let m := (m.fresh.act (.wg wgi g)).modGang gi (fun g => { g with wgs := g.wgs ++ [wgi] })
  let m := m.each (List.range ((nw + 7) / 8)) (fun m j => m.freshBank (4 * x.core + (x.s0 + j) % 4))
  m.each (List.range nw) (fun m n => m.startWarp wgi n)

/-- A gang started from its entry (R28, R138). -/
def Sim.startGang (m : Sim k s0) (gi li index cluster : Nat) (seats : List Seat) : Sim k s0 :=
  let g : Gang := { Gang.none with launch := li, index := index, state := .placed, cluster := cluster, started := m.now.fc }
  (seats.zip (List.range seats.length)).foldl (fun m x => m.startWg gi x.2 x.1) (m.act (.gang gi g))

/-- A saved warp resident again (R383). -/
def Sim.restoreWarp (m : Sim k s0) (wi core sched : Nat) : Sim k s0 :=
  if (m.now.warp wi).ended then m.modWarp wi (fun w => { w with core := core, sched := sched })
  else
    let slot := (m.now.freeSlots (4 * core + sched)).headD 0
    let ac := m.now.ac
    m.modWarp wi (fun w =>
      { w with core := core, sched := sched, slot := slot, resident := true
               threads := w.threads.map (fun t => { t with lastIssue := ac, notBefore := Nat.max t.notBefore (ac + 1) }) })

/-- A saved workgroup on its new seat, with its banks (R381, R383). -/
def Sim.restoreWg (m : Sim k s0) (gang : Gang) (wgi : Nat) (x : Seat) : Sim k s0 :=
  let m := m.act (.wg wgi { m.now.wg wgi with core := x.core, s0 := x.s0, localBase := 4096 * x.unit })
  let m := m.each (List.range 4) (fun m j =>
    let sc := 4 * x.core + (x.s0 + j) % 4
    match Keyed.find gang.tiles (4 * wgi + j) with
    | some bank =>
      (m.act (.clearTiles (tileKey sc 0 0 0) (tileKey (sc + 1) 0 0 0))).each bank (fun m (p : Nat × Word) =>
        m.act (.tile (tileKey sc 0 0 0 + p.1) p.2))
    | none => m)
  let m := m.each (m.now.wg wgi).warps (fun m wi => m.restoreWarp wi x.core ((x.s0 + (m.now.warp wi).num / 8) % 4))
  m.each ((m.now.wg wgi).warps.filter (fun wi => gang.tokens.contains wi)) (fun m wi =>
    m.modSched (m.now.schedOf wi) (fun q => { q with token := some wi }))

/-- A saved gang restored (R383): the matrix operations that the save abandoned are received again (R382), and its held
accesses replay (R381). -/
def Sim.restoreGang (m : Sim k s0) (gi cluster : Nat) (seats : List Seat) : Sim k s0 :=
  let g := m.now.gang gi
  let m := (g.wgs.zip seats).foldl (fun m x => m.restoreWg g x.1 x.2) m
  let mine (p : Mop) : Bool := m.now.gangOf p.warp == gi
  let m := m.act (.mops (m.now.mops.filter (fun p => !mine p) ++
    (m.now.mops.filter mine).map (fun p => { p with sched := m.now.schedOf p.warp })))
  let fc := m.now.fc
  let m := m.modGang gi (fun g =>
    { g with state := .placed, cluster := cluster, started := fc, drainBy := none, tiles := [], tokens := [] })
  m.replayGang gi

/-- The next gang of a launch placed on its seats (R281). -/
def Sim.placeGang (m : Sim k s0) (li : Nat) (old : Option Nat) (cluster : Nat) (seats : List Seat) : Sim k s0 :=
  let m := match old with
    | some gi =>
      if (m.now.gang gi).state == GangState.saved then m.restoreGang gi cluster seats
      else m.startGang gi li (m.now.gang gi).index cluster seats
    | none =>
      let gi := m.now.nextId
      let n := (m.now.launch li).nextGang
      (m.fresh.modLaunch li (fun l => { l with nextGang := n + 1 })).startGang gi li n cluster seats
  (m.act (.lastCluster cluster)).modLaunch li (fun l => { l with passedSince := none, blocking := false })

/-- The first launch in the order that has a fitting gang, and those that the walker passes over on the way. -/
def State.placePlan (s : State) : List Nat × Option (Nat × Option Nat × Nat × List Seat) :=
  (s.placeOrder.filter (fun li => !s.placeBlocked li)).foldl (fun acc li =>
    match acc.2 with
    | some _ => acc
    | none =>
      match s.fits li with
      | some x => (acc.1, some (li, x))
      | none => (acc.1 ++ [li], none)) ([], none)

/-- Whether GANG_PLACE has something to do: a gang fits, a launch is passed over for the first time, or the walker has a
completion still to count (R280). -/
def State.placeDue (s : State) : Bool :=
  let p := s.placePlan
  p.2.isSome || p.1.any (fun li => (s.launch li).passedSince.isNone) || s.launches.any (fun l => l.2.complete && l.2.done != 0)

/-- GANG_PLACE (R280, R281). -/
def execGangPlace (s : State) : Out :=
  let m := (begin_ true s).each s.launches (fun m l => m.countDone l.1)
  let p := s.placePlan
  let fc := s.fc
  let m := m.each p.1 (fun m li => m.modLaunch li (fun l => { l with passedSince := some (l.passedSince.getD fc) }))
  match p.2 with
  | some (li, old, c, seats) => ran (m.placeGang li old c seats)
  | none => ran m

/-- LAUNCH_STARVATION (R281): a launch passed over for 4,096 fc. -/
def execLaunchStarvation (li : Nat) (s : State) : Out :=
  let m := begin_ true s
  match (s.launch li).passedSince with
  | some t => ran (m.when (t + 4096 ≤ s.fc) (fun m => m.modLaunch li (fun l => { l with blocking := true })))
  | none => ran m

end Sys2Proof.Machine
end

