-- ==== Sys2Proof/Machine/Real.lean ====
section
/-! DEFINITION. The real functions of R117 (and of the draw unit, R308), as integers in units of 2^-256 by their
series. Each is off by less than 2^-200; the bounds of R117 are far wider. -/

namespace Sys2Proof.Machine

/-- The unit of these values. -/
def fxOne : Nat := 2 ^ 256
/-- A product. -/
def fxMul (a b : Nat) : Nat := a * b / fxOne
/-- A signed product. -/
def fxMulI (a b : Int) : Int := a * b / (fxOne : Int)

/-- n terms of Σ x^k / k!, from the k-th on. -/
def expTerms (x : Nat) : Nat → Nat → Nat → Nat
  | 0, _, _ => 0
  | n + 1, k, t => t + expTerms x n (k + 1) (fxMul t x / k)
/-- e^x for x below 1. -/
def fxExp (x : Nat) : Nat := expTerms x 70 1 fxOne

/-- n terms of Σ 1 / (k 2^k), from the k-th on. -/
def ln2Terms : Nat → Nat → Nat
  | 0, _ => 0
  | n + 1, k => fxOne / (k * 2 ^ k) + ln2Terms n (k + 1)
/-- ln 2. -/
def fxLn2 : Nat := ln2Terms 255 1

/-- n terms of Σ y^(2k+1) / (2k+1), t being y^(2k+1) and y2 the square of y. -/
def atanhTerms (y2 : Nat) : Nat → Nat → Nat → Nat
  | 0, _, _ => 0
  | n + 1, k, t => t / (2 * k + 1) + atanhTerms y2 n (k + 1) (fxMul t y2)
/-- ln m for m from 1 to 2, m in units. -/
def fxLn (m : Nat) : Nat :=
  let y := (m - fxOne) * fxOne / (m + fxOne)
  2 * atanhTerms (fxMul y y) 90 0 y

/-- n terms of the arc tangent of 1 / d in units of 2^-400, from the k-th on, t being 1 / d^(2k+1). -/
def atanTerms (d : Nat) : Nat → Nat → Nat → Int
  | 0, _, _ => 0
  | n + 1, k, t => (if k % 2 = 0 then 1 else -1) * ((t / (2 * k + 1) : Nat) : Int) + atanTerms d n (k + 1) (t / (d * d))
/-- π in units of 2^-400. -/
def pi400 : Nat :=
  (16 * atanTerms 5 100 0 (2 ^ 400 / 5) - 4 * atanTerms 239 100 0 (2 ^ 400 / 239)).toNat

/-- n terms of the sine or cosine of r, t being the k-th term. -/
def sinTerms (r2 : Int) : Nat → Nat → Int → Int
  | 0, _, _ => 0
  | n + 1, k, t => t + sinTerms r2 n (k + 2) (-(fxMulI t r2) / (((k + 1) * (k + 2) : Nat) : Int))
/-- sin of m × 2^e, a magnitude, or its cosine. -/
def fxSin (cosine : Bool) (m : Nat) (e : Int) : Int :=
  let x := if 0 ≤ e + 400 then m * 2 ^ (e + 400).toNat else m / 2 ^ (-(e + 400)).toNat
  let r : Int := ((x % (2 * pi400) / 2 ^ 144 : Nat) : Int)
  let r2 := fxMulI r r
  if cosine then sinTerms r2 40 0 (fxOne : Int) else sinTerms r2 40 1 r

/-- The largest n with n × n ≤ x, from an upper bound by bits. -/
def sqrtBits (x : Nat) : Nat → Nat → Nat
  | 0, acc => acc
  | n + 1, acc => sqrtBits x n (if (acc + 2 ^ n) * (acc + 2 ^ n) ≤ x then acc + 2 ^ n else acc)
/-- The integer square root of a number below 2^600. -/
def isqrt (x : Nat) : Nat := sqrtBits x 300 0

/-- A finite value in units of 2^-256. -/
def unitsOf256 (v : FVal) : Int :=
  match v with
  | .fin neg m e =>
    let n : Int := if 0 ≤ e + 256 then ((m * 2 ^ (e + 256).toNat : Nat) : Int) else ((m / 2 ^ (-(e + 256)).toNat : Nat) : Int)
    if neg then -n else n
  | _ => 0

/-- Whether a value lies within a bound of another, with a little to spare for the error of the series. -/
def near (r y bound : Int) : Bool := decide (((r - y).natAbs : Int) ≤ bound - bound / 2 ^ 40)

/-- The spacing of FP32 at a magnitude in units of 2^-256. -/
def ulp256 (y : Nat) : Nat := Nat.max (2 ^ (Nat.log2 y - 23)) (2 ^ 107)

end Sys2Proof.Machine
end

