-- ==== Sys2Proof/Machine/Xfn.lean ====
section
/-! DEFINITION. The transcendental functions (R117, R118). Where R117 leaves the delivered value open, it is the free
value Config.xfn of the function and the operand, provided that it lies within the bound; otherwise the exact value
rounded to nearest, which does. -/

namespace Sys2Proof.Machine

/-- A special result with its flags (R118). -/
abbrev XRes := Word × FFlags

/-- The canonical NaN with NV. -/
def xInvalid : XRes := (0x7FC00000, flagNV)
/-- The FP32 infinity of a sign. -/
def infWord (neg : Bool) : Word := if neg then 0xFF800000 else 0x7F800000
/-- The FP32 zero of a sign. -/
def zeroWord (neg : Bool) : Word := if neg then 0x80000000 else 0

/-- The flags of a delivered result that differs from the exact value, which does not overflow (R118). -/
def deliveredFlags (w : Word) : FFlags :=
  flagNX ||| flagIf (w.toNat % 2 ^ 31 < 2 ^ 23) flagUF

/-- The delivered value: the free value f of operand a where ok accepts it, else the value given. -/
def deliver (f : Nat) (a : Word) (ok : Word → Bool) (rne : Word) : XRes :=
  let c := Config.xfn f a
  let w := if ok c then c else rne
  (w, deliveredFlags w)

/-- Whether a word is a finite FP32 value v with a test of its units. -/
def finiteAnd (c : Word) (p : Int → Bool) : Bool :=
  match fval c with
  | .fin .. => p (unitsOf256 (fval c))
  | _ => false

/-- exp2 of a finite nonzero operand. -/
def exp2Of (a : Word) (neg : Bool) (m : Nat) (e : Int) : XRes :=
  let whole := e ≥ 0 || m % 2 ^ (-e).toNat = 0
  let n : Int := if e ≥ 0 then ((m * 2 ^ e.toNat : Nat) : Int) else ((m / 2 ^ (-e).toNat : Nat) : Int)
  let fl : Int := if neg then (if whole then -n else -n - 1) else n
  if whole && -149 ≤ fl && fl < 128 then (roundFin fp32 .rne false false 1 fl).out
  else if 128 ≤ fl then (roundFin fp32 .rne false false 1 128).out
  else if fl < -200 then deliver 0 a (fun c => finiteAnd c (fun r => near r 0 (2 * 2 ^ 107) && 0 ≤ r)) 0
  else
    let frac0 := (m % 2 ^ (-e).toNat) * fxOne / 2 ^ (-e).toNat
    let frac := if whole then 0 else if neg then fxOne - frac0 else frac0
    let p := fxExp (fxMul frac fxLn2)
    let y := if 0 ≤ fl then p * 2 ^ fl.toNat else p / 2 ^ (-fl).toNat
    let r := roundFin fp32 .rne false false p (fl - 256) (!whole)
    if r.flags &&& flagOF != 0 then r.out
    else deliver 0 a (fun c => finiteAnd c (fun r => near r y (2 * ulp256 y))) r.word

/-- log2 of a positive finite operand. -/
def log2Of (a : Word) (m : Nat) (e : Int) : XRes :=
  let top := Nat.log2 m
  let n := e + top
  if m = 2 ^ top then (roundVal fp32 .rne false (ofInteger n)).out
  else
    let l := fxLn (m * fxOne / 2 ^ top) * fxOne / fxLn2
    let y : Int := n * (fxOne : Int) + l
    let r := roundFin fp32 .rne false (decide (y < 0)) y.natAbs (-256) true
    let mid := n = -1 || n = 0
    deliver 1 a (fun c => finiteAnd c (fun v =>
      near v y (if mid then 2 ^ 234 else 2 * ulp256 y.natAbs))) r.word

/-- 1 / x of a nonzero finite operand, rounded (R117). -/
def rcpOf (neg : Bool) (m : Nat) (e : Int) : XRes :=
  let q := 2 ^ 128 / m
  (roundFin fp32 .rne false neg q (-128 - e) (2 ^ 128 % m != 0)).out

/-- √x of a positive finite operand, as m' × 2^e' and whether more follows. -/
def sqrtParts (m : Nat) (e : Int) : Nat × Int × Bool :=
  let odd := e % 2 != 0
  let m2 := (if odd then 2 * m else m) * 2 ^ 128
  let e2 := (if odd then e - 1 else e) - 128
  let r := isqrt m2
  (r, e2 / 2, r * r != m2)

/-- √x, rounded (R117). -/
def sqrtOf (m : Nat) (e : Int) : XRes :=
  let (r, h, more) := sqrtParts m e
  (roundFin fp32 .rne false false r h more).out

/-- 1 / √x of a positive finite operand (R117): within 1 ulp, exact where it is representable. -/
def rsqOf (a : Word) (m : Nat) (e : Int) : XRes :=
  let odd := e % 2 != 0
  let m2 := if odd then 2 * m else m
  let e2 := if odd then e - 1 else e
  -- 1/√x = √(2^512 / m2) × 2^(-256 - e2/2)
  let q := 2 ^ 512 / m2
  let r := isqrt q
  let exact := 2 ^ 512 % m2 = 0 && r * r == q
  let res := roundFin fp32 .rne false false r (-256 - e2 / 2) (!exact)
  if exact && res.flags = 0 then res.out
  else
    let sh := -(e2 / 2)
    let y := if 0 ≤ sh then r * 2 ^ sh.toNat else r / 2 ^ (-sh).toNat
    deliver 3 a (fun c => finiteAnd c (fun v => near v y (ulp256 y))) res.word

/-- sin or cos of a nonzero finite operand (R117). -/
def sinOf (cosine : Bool) (a : Word) (neg : Bool) (m : Nat) (e : Int) : XRes :=
  let s := fxSin cosine m e
  let y := if neg && !cosine then -s else s
  let r := roundFin fp32 .rne false (decide (y < 0)) y.natAbs (-256) true
  let small := decide (m * 2 ^ (e + 149).toNat ≤ 2 ^ 169)
  deliver (if cosine then 6 else 5) a (fun c => finiteAnd c (fun v =>
    near v y (if small then 2 ^ 235 else 2 ^ 246) && v.natAbs ≤ fxOne)) r.word

/-- tanh of a nonzero finite operand (R117). -/
def tanhOf (a : Word) (neg : Bool) (m : Nat) (e : Int) : XRes :=
  if m * 2 ^ (e + 149).toNat ≤ 2 ^ 137 then (a, deliveredFlags a)
  else if m * 2 ^ (e + 149).toNat ≥ 2 ^ 155 then
    let one : Word := if neg then 0xBF800000 else 0x3F800000
    let y : Int := if neg then -(fxOne : Int) else fxOne
    deliver 7 a (fun c => finiteAnd c (fun v => near v y (2 * 2 ^ 232) && v.natAbs ≤ fxOne)) one
  else
    -- e^(2x) = 2^n × e^f
    let x2 := if 0 ≤ e + 257 then m * 2 ^ (e + 257).toNat else m / 2 ^ (-(e + 257)).toNat
    let n := x2 / fxLn2
    let p := fxExp (x2 - n * fxLn2) * 2 ^ n
    let t := (p - fxOne) * fxOne / (p + fxOne)
    let y : Int := if neg then -(t : Int) else t
    let r := roundFin fp32 .rne false neg t (-256) true
    deliver 7 a (fun c => finiteAnd c (fun v => near v y (2 * ulp256 t) && v.natAbs ≤ fxOne)) r.word

/-- The function of FN 0–7 at an operand (R117, R118). -/
def xfnOf (f : Nat) (a : Word) : XRes :=
  match fval a with
  | .nan s => (0x7FC00000, flagIf s flagNV)
  | .inf neg =>
    (match f with
     | 0 => (if neg then 0 else infWord false, 0)
     | 1 => if neg then xInvalid else (infWord false, 0)
     | 2 => (zeroWord neg, 0)
     | 3 => if neg then xInvalid else (0, 0)
     | 4 => if neg then xInvalid else (infWord false, 0)
     | 7 => (if neg then 0xBF800000 else 0x3F800000, 0)
     | _ => xInvalid)
  | .fin neg m e =>
    if m = 0 then
      (match f with
       | 0 => (0x3F800000, 0)
       | 1 => (infWord true, flagDZ)
       | 2 => (infWord neg, flagDZ)
       | 3 => (infWord neg, flagDZ)
       | 6 => (0x3F800000, 0)
       | _ => (zeroWord neg, 0))
    else
      (match f with
       | 0 => exp2Of a neg m e
       | 1 => if neg then xInvalid else log2Of a m e
       | 2 => rcpOf neg m e
       | 3 => if neg then xInvalid else rsqOf a m e
       | 4 => if neg then xInvalid else sqrtOf m e
       | 5 => sinOf false a neg m e
       | 6 => sinOf true a neg m e
       | _ => tanhOf a neg m e)

/-- An XFN word: the function of V[A] of each lane, at the latency of R97. -/
def xfnWord (i : Instr) (f : Nat) (d a : Reg) (s : State) : Out :=
  issueWord i s (fun lanes src m => m.writeF lanes d (fun l => xfnOf f (src l a.toNat)) 12)

/-- exp2. -/
def execExp2 (c : Bool) (d a : Reg) (s : State) : Out := xfnWord (.exp2 c d a) 0 d a s
/-- log2. -/
def execLog2 (c : Bool) (d a : Reg) (s : State) : Out := xfnWord (.log2 c d a) 1 d a s
/-- rcp. -/
def execRcp (c : Bool) (d a : Reg) (s : State) : Out := xfnWord (.rcp c d a) 2 d a s
/-- rsq. -/
def execRsq (c : Bool) (d a : Reg) (s : State) : Out := xfnWord (.rsq c d a) 3 d a s
/-- sqrt. -/
def execSqrt (c : Bool) (d a : Reg) (s : State) : Out := xfnWord (.sqrt c d a) 4 d a s
/-- sin. -/
def execSin (c : Bool) (d a : Reg) (s : State) : Out := xfnWord (.sin c d a) 5 d a s
/-- cos. -/
def execCos (c : Bool) (d a : Reg) (s : State) : Out := xfnWord (.cos c d a) 6 d a s
/-- tanh. -/
def execTanh (c : Bool) (d a : Reg) (s : State) : Out := xfnWord (.tanh c d a) 7 d a s

end Sys2Proof.Machine
end

