-- ==== Sys2Proof/Machine/Draw.lean ====
section
/-! DEFINITION. The draw unit: dsel, DRAW commands, rng and rngk (R306–R310). -/

namespace Sys2Proof.Machine

variable {k : Bool} {s0 : State}

/-! ## Choosing an entry (R308, R309) -/

/-- Whether entry a ranks above entry b (R308); each is an index with its value. -/
def ranksAbove (a b : Nat × FVal) : Bool :=
  match a.2.isNan, b.2.isNan with
  | true, true => a.1 < b.1
  | true, false => false
  | false, true => true
  | false, false => (match cmpVal a.2 b.2 with | .gt => true | .lt => false | .eq => a.1 < b.1)

/-- The entry that ranks above all others. -/
def topEntry : List (Nat × FVal) → Nat × FVal
  | [] => (0, .nan false)
  | [x] => x
  | x :: xs => let y := topEntry xs; if ranksAbove x y then x else y

/-- rne(x / y) of FP32 values, y positive and finite. -/
def divR (x y : FVal) : FVal :=
  match x, y with
  | .fin neg m e, .fin _ n g =>
    if m = 0 ∨ n = 0 then .fin neg 0 0
    else fval (roundFin fp32 .rne false neg (m * 2 ^ 80 / n) (e - g - 80) (m * 2 ^ 80 % n != 0)).word
  | .inf neg, _ => .inf neg
  | v, _ => v

/-- e^y rounded to nearest, for y at most 0 (R309, step 3). -/
def expR (y : FVal) : FVal :=
  match y with
  | .fin _ m e =>
    let x := if 0 ≤ e + 256 then m * 2 ^ (e + 256).toNat else m / 2 ^ (-(e + 256)).toNat
    if m = 0 then .fin false 1 0
    else if 128 * fxOne ≤ x then .fin false 0 0
    else
      let n := x / fxLn2 + 1
      fval (roundFin fp32 .rne false false (fxExp (n * fxLn2 - x)) (-256 - (n : Int)) true).word
  | _ => .fin false 0 0

/-- A sum in FP32. -/
def sumR (x y : FVal) : FVal := fval (addF fp32 .rne x y).word
/-- A product in FP32. -/
def prodR (x y : FVal) : FVal := fval (mulF fp32 .rne x y).word

/-- The running sums of some weights. -/
def runningSums (acc : FVal) : List FVal → List FVal
  | [] => []
  | w :: ws => let c := sumR acc w; c :: runningSums c ws

/-- Whether x is at least y. -/
def geVal (x y : FVal) : Bool := cmpVal x y != .lt

/-- SAMPLE (R309) over a pool that is not empty. -/
def sampleEntry (pool : List (Nat × FVal)) (topk topp : Nat) (temp : FVal) (u : Nat) : Nat :=
  let ranked := sortBy ranksAbove pool
  let cand := if topk = 0 ∨ pool.length < topk then ranked else ranked.take topk
  let lmax := (cand.headD (0, .nan false)).2
  let weight (l : FVal) : FVal :=
    if lmax.isInf then (if l == lmax then .fin false 1 0 else .fin false 0 0)
    else expR (divR (sumR l lmax.negate) temp)
  let ws := sortBy (fun (a b : Nat × FVal) => match cmpVal a.2 b.2 with | .gt => true | .lt => false | .eq => a.1 < b.1)
    (cand.map (fun c => (c.1, weight c.2)))
  let cs := runningSums (.fin false 0 0) (ws.map (·.2))
  let p : FVal := .fin false (if topp = 0 then 65536 else topp) (-16)
  let h := prodR p (cs.getLastD (.fin false 0 0))
  let kept := (cs.takeWhile (fun c => !geVal c h)).length + 1
  let t := prodR (.fin false u (-24)) (cs.getD (kept - 1) (.fin false 0 0))
  let at_ := ((cs.take kept).findIdx? (fun c => !geVal t c)).getD (kept - 1)
  (ws.getD at_ (0, .fin false 0 0)).1

/-! ## dsel (R307) -/

/-- A draw as its eight descriptor words give it. -/
structure Draw where
  addr : DWord
  sample : Bool
  fmt : Fmt
  size : Nat
  isLocal : Bool
  len : Nat
  topp : Nat
  topk : Nat
  temp : FVal
  u : Nat
  deriving DecidableEq, Repr

/-- The draw of a descriptor; none where it is MALFORMED. -/
def drawOf (v : List Word) : Option Draw :=
  let a := (wordAt v 2).toNat
  let b := (wordAt v 3).toNat
  let temp := fval (wordAt v 4)
  let lf := bits a 29 28
  let tempBad : Bool := match temp with | .fin neg _ _ => neg | _ => true
  if 2 ≤ bits a 31 30 ∨ lf = 3 ∨ bits a 26 22 ≠ 0 ∨ bits a 21 0 = 0 ∨ bits b 15 11 ≠ 0 ∨ 1024 < bits b 10 0 ∨ tempBad = true then none
  else some
    { addr := cat64 (wordAt v 1) (wordAt v 0), sample := bits a 31 30 == 1 && !temp.isZero
      fmt := match lf with | 0 => fp32 | 1 => fp16 | _ => bf16
      size := if lf = 0 then 4 else 2, isLocal := bits a 27 27 == 1, len := bits a 21 0
      topp := bits b 31 16, topk := bits b 10 0, temp := temp, u := bits (wordAt v 7).toNat 31 8 }

/-- The entries of a draw, each with its index. -/
def Draw.entries (d : Draw) (bytes : List Byte) : List (Nat × FVal) :=
  (List.range d.len).map (fun i => (i, val d.fmt (leNat ((bytes.drop (d.size * i)).take d.size))))

/-- The chosen index, and whether some entry was a NaN. -/
def Draw.choose (d : Draw) (es : List (Nat × FVal)) : Nat × Bool :=
  let pool := es.filter (fun e => !e.2.isNan)
  let nan := es.any (fun e => e.2.isNan)
  if !d.sample || pool.isEmpty then ((topEntry es).1, nan) else (sampleEntry pool d.topk d.topp d.temp d.u, nan)

/-- Where the vector of a draw stands, as the pushing warp or the issuing thread reaches it; priv says that the thread is
in its handler (R189). -/
def State.drawPlace (s : State) (wi : Nat) (priv : Bool) (d : Draw) : Xlat :=
  s.locate wi priv .read (if d.isLocal then 1 else 0) d.addr (d.size * d.len)

/-- The places of a draw's bytes. -/
def State.drawLocs (s : State) (wi : Nat) (priv : Bool) (d : Draw) : List Nat :=
  match s.drawPlace wi priv d with
  | .ok loc _ _ _ =>
    if d.isLocal then (List.range (d.size * d.len)).map (loc + ·)
    else s.placesOf (s.ownerOf wi) priv .read d.addr (d.size * d.len)
  | _ => []

/-- A draw performed (R307): STATUS, index and NAN; none while a page is serviced. DEDUCED (log 28). -/
def State.draw (s : State) (wi : Nat) (priv : Bool) (v : List Word) : Option (Nat × Word × Bool) :=
  match drawOf v with
  | none => some (1, 0xFFFFFFFF, false)
  | some d =>
    match s.drawPlace wi priv d with
    | .refused => some (2, 0xFFFFFFFF, false)
    | .ok .. =>
      let locs := s.drawLocs wi priv d
      if locs.any (s.lineFault (s.ownerOf wi)) then some (4, 0xFFFFFFFF, false)
      else
        let r := d.choose (d.entries (locs.map s.byte))
        some (0, BitVec.ofNat 32 r.1, r.2)
    | _ => none

/-- The nominal time of a draw. -/
def drawTime (v : List Word) : Nat :=
  match drawOf v with
  | some d => 40 + (if d.sample then (d.len + 7) / 8 else (d.len + 15) / 16)
  | none => 40

/-- The lane of a dsel: its descriptor, and the vector that it reads at its place in program order. -/
def State.drawLane (s : State) (wi l : Nat) (priv : Bool) (v : List Word) : LaneOp :=
  let x := engineLane l (cat64 (wordAt v 1) (wordAt v 0))
  match drawOf v with
  | some d =>
    let at_ : Option Nat × Nat := match s.drawPlace wi priv d with | .ok loc _ pte _ => (some loc, pte) | _ => (none, 0)
    { x with size := d.size * d.len, loc := at_.1, pte := at_.2, priv := priv, data := v.flatMap wordBytes }
  | none => { x with priv := priv, data := v.flatMap wordBytes }

/-- The words that a lane of an engine word holds. -/
def LaneOp.word (x : LaneOp) (i : Nat) : Word := bytesWord ((x.data.drop (4 * i)).take 4)
/-- n words of a lane. -/
def LaneOp.wordList (x : LaneOp) (n : Nat) : List Word := (List.range n).map x.word

/-- dsel. -/
def execDsel (c : Bool) (g : Guard) (fs : Bool) (d a : Reg) (s : State) : Out :=
  let i := Instr.dsel c g fs d a
  issueWord i s (fun lanes src m =>
    let v (l : Nat) : List Word := (List.range 8).map (fun n => src l (a.toNat + n))
    m.launchOp i .engine (lanes.map (fun l => m.now.drawLane m.now.cur.warp l (m.now.cur.thread l).priv (v l)))
      (maxOf (lanes.map (fun l => drawTime (v l)))))

/-- A draw counted, with the requests that it sent (R399, R401). -/
def Sim.countDraw (m : Sim k s0) (wi : Nat) (priv : Bool) (v : List Word) : Sim k s0 :=
  (m.count (m.now.schedOf wi) 0x203 (m.now.ownerOf wi) 1).countLines wi ((drawOf v).elim [] (m.now.drawLocs wi priv))

/-- dsel performed: the index and the status word. -/
def Sim.dselDo (m : Sim k s0) (o : Op) (d : Reg) : Sim k s0 :=
  m.eachLane o (fun m x =>
    let r := if x.state = .denied then some (2, 0xFFFFFFFF#32, false) else m.now.draw o.warp x.priv (x.wordList 8)
    match r with
    | none => m
    | some (st, ix, nan) => (m.countDraw o.warp x.priv (x.wordList 8)).laneDone o x.lane d.toNat [ix, BitVec.ofNat 32 (st * 2 ^ 28 + (if nan then 1 else 0))])

/-- A DRAW command performed (R306). -/
def Sim.drawCmd (m : Sim k s0) (cmd : Nat) : Sim k s0 :=
  let s := m.now
  match s.cmd? cmd with
  | none => m
  | some c =>
    let w0 := (wordAt c.words 0).toNat
    if c.port != 4 || c.status.isSome then m
    else if bits w0 31 28 ≠ 0 ∨ bits w0 27 23 ≠ 0 ∨ bits w0 21 20 ≠ 0 ∨ c.mask &&& 0x1FF ≠ 0x1FF then
      (m.decide_ cmd 1 0 0 0xFFFFFFFF)
    else if s.drawWaits (s.warp c.warp).core c.id 0 then m
    else
      let v := (List.range 8).map (fun i => wordAt c.words (i + 1))
      match s.draw c.warp false v with
      | none => m
      | some (st, ix, nan) => (m.countDraw c.warp false v).decide_ cmd st 0 (if nan then 1 else 0) ix.toNat

/-- DRAW_DSEL: a DRAW command (R306). -/
def execDrawDsel (cmd : Nat) (s : State) : Out := ran ((begin_ true s).drawCmd cmd)

/-! ## rng, rngk (R310) -/

/-- The rounds of the counter-based value. -/
def rngRounds : Nat → DWord → DWord → DWord
  | 0, x, _ => x
  | n + 1, x, key =>
    let y := (x ^^^ key) * 0xD6E8FEB86659FD93
    rngRounds n (y ^^^ (y >>> 32)) (key + 0x9E3779B97F4A7C15)

/-- The value of a key, a position and a counter. -/
def rngOf (key : DWord) (pos ctr : Word) : DWord := rngRounds 6 (cat64 pos ctr) key

/-- The ticket of a warp's slot, while its workgroup is bound (R324). -/
def State.slotTicket (s : State) (wi : Nat) : Option (BitVec 4 × Inst × Nat) :=
  match (s.wg (s.warp wi).wg).bound with
  | some (i, _, t) => (s.inst? i).map (fun x => (i, x, t))
  | none => none

/-- The key of rng: SEED of the slot's ticket, or 0. -/
def State.rngKey (s : State) (wi : Nat) : DWord :=
  match s.slotTicket wi with
  | some (_, x, t) => cat64 (s.tk x t 11) (s.tk x t 10)
  | none => 0

/-- rng: the value is that of the seed at issue. -/
def execRng (c : Bool) (g : Guard) (fs : Bool) (d a : Reg) (s : State) : Out :=
  let i := Instr.rng c g fs d a
  issueWord i s (fun lanes src m =>
    let key := m.now.rngKey m.now.cur.warp
    m.launchOp i .fixed [] 200 (lanes.flatMap (fun l =>
      let v := rngOf key (src l a.toNat) (src l (a.toNat + 1))
      [{ lane := l, reg := d.toNat, value := lo32 v }, { lane := l, reg := d.toNat + 1, value := hi32 v }])))

/-- rngk. -/
def execRngk (c : Bool) (g : Guard) (d a : Reg) (s : State) : Out :=
  issueWord (.rngk c g d a) s (fun lanes src m =>
    m.writePair lanes d (fun l => rngOf (src.pair l a.toNat) (src l (a.toNat + 2)) (src l (a.toNat + 3))) 8)

end Sys2Proof.Machine
end

