-- ==== Sys2Proof/Machine/Page.lean ====
section
/-! DEFINITION. Page operations (R195–R198, R244–R248). -/

namespace Sys2Proof.Machine

variable {k : Bool} {s0 : State}

/-! ## pres and prel (R245) -/

/-- The status word of pres and prel. -/
def reserveWord (status units : Nat) : Word := BitVec.ofNat 32 (status * 2 ^ 28 + units % 65536)

/-- One pres or prel of an owner: its status word. What pres reserves is lost to the stacked cache (R181). -/
def Sim.reserveOne (m : Sim k s0) (owner : Tag) (add : Bool) (w : Word) : Sim k s0 × Word :=
  let n := bits w.toNat 15 0
  let die := bits w.toNat 17 16
  let have_ := m.now.resUnits owner die
  let st :=
    if n = 0 then 3
    else if add then
      (if (m.now.owner owner).ucap.getD die 0 < have_ + n then 2
       else if 49152 < m.now.dieUnits die + n then 1 else 0)
    else if m.now.freeUnits owner die < n then 4 else 0
  if st = 0 then
    let units := if add then have_ + n else have_ - n
    ((m.setRes owner die units).trimSc die 0 m.now.sc.length, reserveWord 0 units)
  else (m, reserveWord st have_)

/-- pres. -/
def execPres (c : Bool) (g : Guard) (fs : Bool) (d a : Reg) (s : State) : Out :=
  engineWord (.pres c g fs d a) 400 s (fun src l => { engineLane l with data := wordBytes (src l a.toNat) })
/-- prel. -/
def execPrel (c : Bool) (g : Guard) (fs : Bool) (d a : Reg) (s : State) : Out :=
  engineWord (.prel c g fs d a) 400 s (fun src l => { engineLane l with data := wordBytes (src l a.toNat) })

/-- pres or prel performed. -/
def Sim.reserveDo (m : Sim k s0) (o : Op) (add : Bool) (d : Reg) : Sim k s0 :=
  m.eachLane o (fun m x =>
    let r := m.reserveOne (m.now.ownerOf o.warp) add (x.word 0)
    r.1.laneDone o x.lane d.toNat [r.2])

/-! ## The pages of a range (R244) -/

/-- The page operations. -/
inductive PageOp where
  | disc
  | flush (inv : Bool)
  | mig
  deriving DecidableEq, Repr

/-- What the checks of a page operation answer. -/
inductive PageAns where
  | go | refused | wait | full
  deriving DecidableEq, Repr

/-- The bytes that an operation names: the whole range, or for pmig the page of its address. -/
def PageOp.range (p : PageOp) (x : DWord) (n : Nat) : DWord × Nat :=
  match p with
  | .mig => (x - BitVec.ofNat 64 (x.toNat % 65536), 65536)
  | _ => (x, n)

/-- The checks of a page operation on the range from x (R244, R246–R248); die is the target of pmig. -/
def State.pageAnswer (s : State) (owner : Tag) (priv : Bool) (p : PageOp) (x : DWord) (n die : Nat) : PageAns :=
  let r := p.range x n
  let acc := match p with | .flush _ => Access.read | _ => Access.write
  let xs := (pagesOf r.1.toNat r.2).map (fun g => s.translate owner priv acc (pageStart r.1.toNat g))
  let bad (v : Xlat) : Bool := match v with
    | .refused => true
    | .ok _ _ pte _ => (match p with | .flush _ => false | _ => pteKind pte != 3)
    | _ => false
  if p != .mig && (x.toNat % 128 != 0 || n % 128 != 0) then .refused
  else if xs.any bad then .refused
  else if anyWait xs then .wait
  else match p, xs with
    | .mig, .ok _ _ pte _ :: _ =>
      if pteDie pte != die && s.isCharged owner (r.1.toNat % 2 ^ 57 / 65536) && s.freeUnits owner die = 0 then .full else .go
    | _, _ => .go
where
  anyWait (xs : List Xlat) : Bool := xs.any (fun v => match v with | .ok .. | .refused => false | _ => true)

/-- A page operation of each thread: refused or full precisely at issue, otherwise in flight. -/
def pageWord (i : Instr) (p : PageOp) (d a : Reg) (s : State) : Out :=
  issueWord i s (fun lanes src m =>
    let c := m.now.cur
    let owner := m.now.ownerOf c.warp
    let die (l : Nat) : Nat := (src l d.toNat).toNat % 4
    let len (l : Nat) : Nat := match p with | .mig => 0 | _ => (src l d.toNat).toNat
    let ans (l : Nat) : PageAns := m.now.pageAnswer owner (c.thread l).priv p (src.pair l a.toNat) (len l) (die l)
    let ok := lanes.filter (fun l => ans l != .refused && ans l != .full)
    let m := m.each lanes (fun m l =>
      let x := src.pair l a.toNat
      match ans l with
      | .refused => m.trapWord l 0x09 (lo32 x) x
      | .full => m.trapWord l 0x08 (lo32 x) x
      | _ => m)
    let lane (l : Nat) : LaneOp :=
      let r := p.range (src.pair l a.toNat) (len l)
      { engineLane l r.1 with
        size := r.2, data := [BitVec.ofNat 8 (if (c.thread l).priv then 1 else 0), BitVec.ofNat 8 (die l)] }
    if ok.isEmpty then m
    else m.launchOp i .page (ok.map lane)
      (maxOf (ok.map (fun l => 600 * (pagesOf (lane l).addr.toNat (lane l).size).length + 2 * ((lane l).size / 128)))))

/-- pdisc. -/
def execPdisc (c : Bool) (g : Guard) (fs : Bool) (d a : Reg) (s : State) : Out := pageWord (.pdisc c g fs d a) .disc d a s
/-- pflush. -/
def execPflush (c : Bool) (g : Guard) (fs : Bool) (d a : Reg) (inv : Bool) (s : State) : Out :=
  pageWord (.pflush c g fs d a inv) (.flush inv) d a s
/-- pmig. -/
def execPmig (c : Bool) (g : Guard) (fs : Bool) (d a : Reg) (s : State) : Out := pageWord (.pmig c g fs d a) .mig d a s

/-! ## Their effects -/

/-- The place of the leaf that maps an address (R186). -/
def State.leafFrom (s : State) (va : Nat) : Nat → Nat → Option Nat
  | level, table =>
    let at_ := physLoc (table + 8 * walkIndex level va)
    let e := s.readNat at_ 8
    match pteType e with
    | 2 => some at_
    | 1 =>
      (match level with
       | 0 => none
       | l + 1 => State.leafFrom s va l (bits e 51 12 * 4096))
    | _ => none

/-- The place of an owner's leaf. -/
def State.leafPlace (s : State) (owner : Tag) (va : DWord) : Option Nat := s.leafFrom va.toNat 4 (s.owner owner).ptbase

/-- Cached translations of an owner that overlap some 64 KiB pages removed (R376). -/
def Sim.dropTlb (m : Sim k s0) (owner : Tag) (va : DWord) (pages : Nat) : Sim k s0 :=
  let lo := va.toNat % 2 ^ 57 / 65536
  m.act (.tlb (m.now.tlb.filter (fun t =>
    !(t.owner == owner && lo < (t.page + 1) * 2 ^ levelShift t.level / 65536 && t.page * 2 ^ levelShift t.level / 65536 < lo + pages))))

/-- A page-table entry of an owner rewritten, and its cached translation removed. -/
def Sim.setLeaf (m : Sim k s0) (owner : Tag) (va : DWord) (f : Nat → Nat) : Sim k s0 :=
  match m.now.leafPlace owner va with
  | some p => (m.agentWrite owner ((List.range 8).map (p + ·)) (leBytes 8 (f (m.now.readNat p 8)))).dropTlb owner va 1
  | none => m

/-- Pages of an owner that are charged no longer (R195). -/
def Sim.uncharge (m : Sim k s0) (owner : Tag) (pages : List Nat) : Sim k s0 :=
  m.act (.charged (m.now.charged.filter (fun c => !(c.owner == owner && pages.any (fun p => p % 2 ^ 41 == c.page)))))

/-- The 64 KiB pages that a range covers whole. -/
def wholePages (va : DWord) (n : Nat) : List Nat :=
  (pagesOf va.toNat n).filter (fun p => va.toNat ≤ p * 65536 && (p + 1) * 65536 ≤ va.toNat + n)

/-- Lines of unbacked pages dropped by a thread (R197): they read zero, as zero lines where their page stays charged (R182),
and a charged page that the range covers whole is uncharged (R246). -/
def Sim.zeroRange (m : Sim k s0) (core : Option Nat) (who : Option (Nat × Nat)) (owner : Tag) (va : DWord) (n : Nat) :
    Sim k s0 :=
  let locs := (List.range n).map (fun i => unbackedLoc owner.toNat (va.toNat + i))
  let m := m.homeWrite core who owner locs (List.replicate n 0)
  let m := m.uncharge owner (wholePages va n)
  m.each ((locs.map lineOf).eraseDups) (fun m line =>
    let page := line * 128 % 2 ^ 57 / 65536
    let c : CacheLine :=
      match m.now.charged.find? (fun c => c.owner == owner && c.page == page) with
      | some e => { CacheLine.absent with held := true, home := homeIx line (e.die * 65536), owner := owner, zero := true }
      | none => CacheLine.absent
    (m.act (.l2 line CacheLine.absent)).act (.sc line c))

/-- pdisc as a word of a thread (R246). -/
def Sim.discardRange (m : Sim k s0) (wi l : Nat) (va : DWord) (n : Nat) : Sim k s0 :=
  m.zeroRange (some (m.now.warp wi).core) (some (wi, l)) (m.now.ownerOf wi) va n

/-- Every L1 and L2 copy of some lines removed, what L2 had modified written back, but for a store that an L1 still holds
(R247). -/
def Sim.dropLines (m : Sim k s0) (lines : List Nat) : Sim k s0 :=
  let m := m.act (.l1 (m.now.l1.filter (fun e => !lines.contains e.line || m.now.l1Pending e.core e.line)))
  (m.each (lines.filter (fun n => (Cells.get CacheLine.absent m.now.l2 n).held)) (fun m x =>
    (m.writeBack x).act (.l2 x CacheLine.absent))).dropDups lines

/-- The lines of some read sets within a range. -/
def State.readWithin (s : State) (lo hi : Nat) : List Nat :=
  s.warps.flatMap (fun w => w.2.threads.flatMap (fun t => t.region.elim [] (fun g => g.reads.filter (fun n => lo ≤ n && n < hi))))

/-- The lines of a page that the MMP moves leave every cache, and regions that have read one of them abort (R217, R254). -/
def Sim.leaveCaches (m : Sim k s0) (lo hi : Nat) : Sim k s0 :=
  let within (n : Nat) : Bool := lo ≤ n && n < hi
  let held : List Nat := List.map Prod.fst m.now.l2 ++ List.map L1Line.line m.now.l1 ++ List.map (fun e => e.1 / 4) m.now.dups
  let m := m.dropLines (held.filter within).eraseDups
  let m := m.each ((m.now.sc.map (·.1)).filter within) (fun m n => m.act (.sc n CacheLine.absent))
  let m := m.act (.icache (m.now.icache.filter (fun e => !within (lineOf e.loc))))
  m.conflict (m.now.readWithin lo hi) none

/-- A page moved to another base die (R198, R248): its pinned lines have their home there, and regions that have read one of
its lines abort (R254). -/
def Sim.migratePage (m : Sim k s0) (owner : Tag) (va : DWord) (die : Nat) : Sim k s0 :=
  let page := pageNo va
  let lo := lineOf (unbackedLoc owner.toNat (65536 * page))
  let kept := m.now.sc.filter (fun e => lo ≤ e.1 && e.1 < lo + 512)
  let m := (m.setLeaf owner va (fun e => e - bits e 17 16 * 65536 + die * 65536)).leaveCaches lo (lo + 512)
  let m := m.each kept (fun m e => m.act (.sc e.1 { e.2 with home := homeIx e.1 (die * 65536) }))
  let m := m.each m.now.warps (fun m w => m.when (w.2.threads.any (fun t => t.region.isSome)) (fun m => m.modWarp w.1 (fun v =>
    { v with threads := v.threads.map (fun t => { t with region := t.region.map (fun g =>
      { g with places := g.places.map (fun e =>
          if lo ≤ e.1 ∧ e.1 < lo + 512 then (e.1, e.2.1 - bits e.2.1 17 16 * 65536 + die * 65536, e.2.2) else e) }) }) })))
  m.act (.charged (m.now.charged.map (fun c => if c.owner = owner ∧ c.page = page then { c with die := die } else c)))

/-- The places of a range in the pages of an owner. -/
def State.rangeLocs (s : State) (owner : Tag) (va : DWord) (n : Nat) : List Nat := s.placesOf owner true .read va n

/-- Whether an operation in flight has translated by a page: its lane has a place there and is not complete. -/
def State.inFlight (s : State) (page : Nat) : Bool :=
  s.ops.any (fun o => o.lanes.any (fun x => !x.final && (x.loc.elim false (fun p => p - p % 65536 == page))))

/-- Whether a write to a page that it charged is still to be performed, or stands in a try buffer (R194). -/
def State.writesDue (s : State) (id lo : Nat) : Bool :=
  let within (n : Nat) : Bool := lo ≤ n && n < lo + 512
  s.ops.any (fun o => o.id != id && !o.isLoad && o.lanes.any (fun x =>
    !x.final && (s.laneLocs (s.ownerOf o.warp) x).any (fun p => within (lineOf p)))) ||
  s.warps.any (fun w => w.2.threads.any (fun t => t.region.any (fun g => g.places.any (fun e => within e.1))))

/-- Whether a pdisc must wait for writes to a page that it would uncharge. DESIGN CHOICE (log 94). -/
def State.discWaits (s : State) (o : Op) (x : LaneOp) : Bool :=
  let owner := s.ownerOf o.warp
  (wholePages x.addr x.size).any (fun p =>
    s.isCharged owner (p % 2 ^ 41) && s.writesDue o.id (lineOf (unbackedLoc owner.toNat (65536 * p))))

/-- One page operation performed, once its checks hold: waiting where it must (R197, R198, R210, R277). A pmig that waits
has begun: the page's cached translations go, and accesses that meet it are held until it is done (R198). -/
def Sim.pageOne (m : Sim k s0) (o : Op) (p : PageOp) (x : LaneOp) : Sim k s0 :=
  let s := m.now
  let owner := s.ownerOf o.warp
  let priv := (x.data.headD 0) != 0
  let die := (x.data.getD 1 0).toNat
  let done (m : Sim k s0) := m.laneDone o x.lane 0 []
  let late (m : Sim k s0) (cause : Nat) :=
    (m.lateTrap o.warp x.lane { cause := BitVec.ofNat 8 cause, late := true, tval := lo32 x.addr, pc := o.wordAddr, va := x.addr }).laneDone o
      x.lane 0 []
  let after (m : Sim k s0) := m.when (p == .mig) (fun m => m.replayPage owner x.addr)
  if x.state = .denied then after (late m 0x09)
  else match s.pageAnswer owner priv p x.addr x.size die with
    | .refused => after (late m 0x09)
    | .full => after (late m 0x08)
    | .wait => m
    | .go =>
      let locs := s.rangeLocs owner x.addr x.size
      let lines := (locs.map lineOf).eraseDups
      if lines.any (fun n => s.ownedLines.contains n) then m
      else match p with
        | .disc => if s.discWaits o x then m else done (m.discardRange o.warp x.lane x.addr x.size)
        | .flush inv =>
          let m := m.each lines (fun m n => m.writeBack n)
          done (m.when inv (fun m => m.dropLines lines))
        | .mig =>
          let page := (locs.headD 0)
          if s.pinned page || s.inFlight page then
            (m.modLane o.id x.lane (fun y => { y with part := 1 })).dropTlb owner x.addr 1
          else after (done (m.migratePage owner x.addr die))

/-- Whether an earlier access of a thread keeps a page operation from being performed. DEDUCED (log 37). -/
def State.pageHeld (s : State) (o : Op) (x : LaneOp) : Bool := s.orderHolds o x || s.releaseHolds o x.lane

/-- The lanes of a page operation that may be are performed. -/
def Sim.pageDo (m : Sim k s0) (o : Op) (p : PageOp) : Sim k s0 :=
  (m.each (o.lanes.filter (fun x => !x.final)) (fun m x => if m.now.pageHeld o x then m else m.pageOne o p x)).settle o.id

end Sys2Proof.Machine
end

