-- ==== Sys2Proof/Machine/Ticket.lean ====
section
/-! DEFINITION. Tickets: handles (R313), the key-value pool and the swap area (R311, R320), staged updates (R317), and the
TKT words (R326–R336). -/

namespace Sys2Proof.Machine

variable {k : Bool} {s0 : State}

/-! ## Fields -/

/-- An instance changed. -/
def Sim.modInst (m : Sim k s0) (i : BitVec 4) (f : Inst → Inst) : Sim k s0 :=
  match m.now.inst? i with
  | some x => m.act (.inst i.toNat (f x))
  | none => m

/-- Doing something with an instance, if it is configured. -/
def Sim.withInst (m : Sim k s0) (i : BitVec 4) (f : Sim k s0 → Inst → Sim k s0) : Sim k s0 :=
  match m.now.inst? i with
  | some x => f m x
  | none => m

/-- POS of a ticket. -/
def State.tkPos (s : State) (x : Inst) (t : Nat) : Nat := (s.tk x t 1).toNat
/-- PEND of a ticket. -/
def State.tkPend (s : State) (x : Inst) (t : Nat) : Nat := (s.tk x t 2).toNat
/-- FORKPOS of a ticket. -/
def State.tkFork (s : State) (x : Inst) (t : Nat) : Nat := (s.tk x t 6).toNat
/-- CHILDREN of a ticket. -/
def State.tkChildren (s : State) (x : Inst) (t : Nat) : Nat := s.tkField x t 5 31 18
/-- PRIO of a ticket. -/
def State.tkPrio (s : State) (x : Inst) (t : Nat) : Nat := s.tkField x t 8 31 29
/-- The tickets of an instance that are not FREE, ascending: those whose STATE, the top of byte 3, memory lists. -/
def State.tickets (s : State) (x : Inst) : List Nat :=
  s.mem.filterMap (fun e =>
    if physLoc x.tkbase ≤ e.1 ∧ e.1 < physLoc x.tkbase + 2 ^ 24 ∧ (e.1 - physLoc x.tkbase) % 256 = 3 ∧ 16 ≤ e.2.toNat then
      some ((e.1 - physLoc x.tkbase) / 256)
    else none)

/-- The bits of word n of a ticket that updates write (R314, R339). -/
def rwMask (n : Nat) : Word :=
  if n < 8 ∨ n = 15 then 0 else if n = 16 then 0xFFFFFFF0 else if n = 20 then 0x00FFFFFF else 0xFFFFFFFF

/-! ## The key-value pool (R311, R320) -/

/-- The pages of a block of a ticket: in the pool, or in the swap area. -/
def Inst.block (x : Inst) (t b : Nat) : List KvPage := x.pages.filter (fun p => p.tkid == t && p.block == b)
/-- Pool pages that no ticket holds or reserves. -/
def Inst.freePages (x : Inst) : Nat :=
  x.kvpages - (x.pages.filter (fun p => !p.swapped)).length - (x.reserved.map (·.2)).sum
/-- The reservation of a ticket. -/
def Inst.reservation (x : Inst) (t : Nat) : Nat := ((x.reserved.filter (fun r => r.1 == t)).map (·.2)).sum
/-- The reservation of a ticket set. -/
def Inst.setReservation (x : Inst) (t n : Nat) : Inst :=
  { x with reserved := x.reserved.filter (fun r => r.1 != t) ++ (if n = 0 then [] else [(t, n)]) }
/-- The blocks below an end, at or above the fork, that a ticket does not hold. -/
def State.missing (s : State) (x : Inst) (t end_ : Nat) : List Nat :=
  let lo := s.tkFork x t / 64
  let hi := (end_ + 63) / 64
  ((List.range (hi - lo)).map (· + lo)).filter (fun b => (x.block t b).isEmpty)
/-- The lowest pages of an area of n that are free. -/
def lowestFree (used : List Nat) (limit n : Nat) : List Nat := ((List.range limit).filter (fun p => !used.contains p)).take n
/-- Pool pages in use. -/
def Inst.poolUsed (x : Inst) : List Nat := (x.pages.filter (fun p => !p.swapped)).map (·.page)
/-- Swap pages in use. -/
def Inst.swapUsed (x : Inst) : List Nat := (x.pages.filter (fun p => p.swapped)).map (·.page)
/-- The virtual address of a pool page. -/
def Inst.kvAddr (x : Inst) (p : Nat) : DWord := x.kvbase + BitVec.ofNat 64 (65536 * p)
/-- The virtual address of a swap page. -/
def Inst.swapAddr (x : Inst) (p : Nat) : DWord := x.swapbase + BitVec.ofNat 64 (65536 * p)

/-- Pages taken from the pool for some blocks of a ticket: the lowest free ones. -/
def Inst.take (x : Inst) (t : Nat) (blocks : List Nat) : Inst :=
  let ps := lowestFree x.poolUsed x.kvpages (x.nlayer * blocks.length)
  let want := blocks.flatMap (fun b => (List.range x.nlayer).map (fun l => (b, l)))
  { x with pages := x.pages ++ (ps.zip want).map (fun q =>
      { page := q.1, tkid := t, layer := q.2.2, block := q.2.1, step := x.mstep.toNat, swapped := false }) }

/-- A pool page that reads zero when it is next taken: an unbacked page loses its lines (R197, R320). -/
def Sim.wipePage (m : Sim k s0) (x : Inst) (p : Nat) : Sim k s0 :=
  let va := x.kvAddr p
  match m.now.translate x.owner true .read va with
  | .ok loc _ pte _ =>
    if pteKind pte = 3 then m.zeroRange none none x.owner va 65536
    else m.agentWrite x.owner ((List.range 65536).map (loc + ·)) (List.replicate 65536 0)
  | _ => m

/-- Pages of a ticket that satisfy a test return to the pool or the swap area. -/
def Sim.dropPages (m : Sim k s0) (i : BitVec 4) (t : Nat) (p : KvPage → Bool) : Sim k s0 :=
  m.withInst i (fun m x =>
    let gone := x.pages.filter (fun q => q.tkid == t && p q)
    let m := m.each (gone.filter (fun q => !q.swapped)) (fun m q => m.wipePage x q.page)
    m.modInst i (fun x => { x with pages := x.pages.filter (fun q => !(q.tkid == t && p q)) }))

/-- Pages taken in the current step whose positions all lie at or above an end (R332). -/
def Sim.trimPages (m : Sim k s0) (i : BitVec 4) (t end_ : Nat) : Sim k s0 :=
  m.withInst i (fun m x => m.dropPages i t (fun q => q.step == x.mstep.toNat && !q.swapped && end_ ≤ 64 * q.block))

/-- Whether a copy between two pages must wait for the MMP or the host. -/
def State.copyWaits (s : State) (owner : Tag) (src dst : DWord) : Bool :=
  anyWait (s.translate owner true .read src) || anyWait (s.translate owner true .write dst)
where
  anyWait (x : Xlat) : Bool := match x with | .ok .. | .refused => false | _ => true

/-- The bytes of one page copied to another, both under an owner; false where either is refused or the source is in
error. -/
def Sim.copyPage (m : Sim k s0) (owner : Tag) (src dst : DWord) (n : Nat) : Sim k s0 × Bool :=
  match m.now.translate owner true .read src, m.now.translate owner true .write dst with
  | .ok a _ _ _, .ok b _ _ _ =>
    let from_ := (List.range n).map (a + ·)
    if from_.any (m.now.lineFault owner) then (m, false)
    else
      let ps := m.now.toCharge owner dst n
      if m.now.unitsCover owner ps then
        ((m.chargePages owner ps).agentWrite owner ((List.range n).map (b + ·)) (from_.map m.now.byte), true)
      else (m, false)
  | _, _ => (m, false)

/-! ## Handles (R313) -/

/-- Whether a TKT word uses BAND or CHUNK of its handle. -/
def usesBand : Instr → Bool
  | .rot .. => true
  | _ => false
/-- Whether a TKT word uses CHUNK. -/
def usesChunk : Instr → Bool
  | .tkrd .. | .tkwr .. => true
  | _ => false

/-- The instance and ticket that a handle names; none where it is refused. -/
def State.handle (s : State) (wi : Nat) (i : Instr) (h : Word) : Option (BitVec 4 × Nat) :=
  let v := h.toNat
  if bits v 31 30 ≠ 0 ∨ (bits v 29 24 ≠ 0 ∧ usesBand i = false) ∨ (bits v 22 20 ≠ 0 ∧ usesChunk i = false) then none
  else
    let named : Option (BitVec 4 × Nat) :=
      if bits v 23 23 = 1 then (s.slotTicket wi).map (fun t => (t.1, t.2.2))
      else some (BitVec.ofNat 4 (bits v 19 16), bits v 15 0)
    match named with
    | some (n, t) =>
      (match s.inst? n with
       | some x => if x.owner == s.ownerOf wi then some (n, t) else none
       | none => none)
    | none => none

/-- A TKT word: a refused handle is a precise ACCESS fault with the handle as trap value; the others reach the Barista
with their operands from A on, behind the instance and the ticket. h is the register of the handle. DEDUCED (log 40). -/
def ticketWord (i : Instr) (a h : Reg) (n lat : Nat) (s : State) : Out :=
  issueWord i s (fun lanes src m =>
    let wi := m.now.cur.warp
    let named (l : Nat) := m.now.handle wi i (src l h.toNat)
    let m := m.each (lanes.filter (fun l => (named l).isNone)) (fun m l => m.trapWord l 0x09 (src l h.toNat))
    let ok := lanes.filter (fun l => (named l).isSome)
    let data (l : Nat) : List Byte :=
      let t := (named l).getD (0, 0)
      leBytes 4 t.1.toNat ++ leBytes 4 t.2 ++ (List.range n).flatMap (fun j => wordBytes (src l (a.toNat + j)))
    if ok.isEmpty then m else m.launchOp i .engine (ok.map (fun l => { engineLane l with data := data l })) lat)

/-- The instance, the ticket and the operands that a lane carries. -/
def LaneOp.ticket (x : LaneOp) : BitVec 4 × Nat := (BitVec.ofNat 4 (x.word 0).toNat, (x.word 1).toNat)
/-- Operand V[A + i] of a lane. -/
def LaneOp.operand (x : LaneOp) (i : Nat) : Word := x.word (i + 2)

/-- A status word (R328). -/
def tkStatus (n : Nat) : Word := BitVec.ofNat 32 (n * 2 ^ 28)

/-- The ticket that holds a block of a ticket: itself, or the ancestor it forked from (R335); at most four levels. -/
def State.holder (s : State) (v : Inst) (b : Nat) : Nat → Nat → Option Nat
  | 0, _ => none
  | n + 1, t => if s.tkFork v t / 64 ≤ b then some t else s.holder v b n (s.tkField v t 5 15 0)

/-- The pages of a partial block that a fork copies, each with the page of its child: the lowest free ones (R334). -/
def State.forkPairs (s : State) (v : Inst) (parent fork : Nat) : List (DWord × DWord) :=
  let b := fork / 64
  let from_ := (s.holder v b 4 parent).getD parent
  if fork % 64 = 0 then []
  else ((List.range v.nlayer).zip (lowestFree v.poolUsed v.kvpages v.nlayer)).filterMap (fun q =>
    ((v.block from_ b).find? (fun p => p.layer == q.1 && !p.swapped)).map (fun p => (v.kvAddr p.page, v.kvAddr q.2)))

/-- The pages of a fork that its copy would charge. -/
def State.forkCharges (s : State) (v : Inst) (parent fork : Nat) : List (Nat × Nat × Bool) :=
  (s.forkPairs v parent fork).flatMap (fun p => s.toCharge v.owner p.2 (1024 * (fork % 64)))

/-- Whether a fork waits for the MMP or the host to service a page of its copy (R190, R196). -/
def State.forkWaits (s : State) (v : Inst) (parent fork : Nat) : Bool :=
  (s.forkPairs v parent fork).any (fun p => s.copyWaits v.owner p.1 p.2) ||
  (!s.unitsCover v.owner (s.forkCharges v parent fork) && s.unitsWait v.owner (s.forkCharges v parent fork))

/-- Whether the block of a fork can be copied: no page of it is refused or in error, and the units suffice. -/
def State.forkCopies (s : State) (v : Inst) (parent fork : Nat) : Bool :=
  (s.forkPairs v parent fork).all (fun p =>
    match s.translate v.owner true .read p.1, s.translate v.owner true .write p.2 with
    | .ok a _ _ _, .ok .. => !(List.range (1024 * (fork % 64))).any (fun n => s.lineFault v.owner (a + n))
    | _, _ => false) &&
  s.unitsCover v.owner (s.forkCharges v parent fork)

/-- Whether a TKT word must wait for a page before it is performed: a fork, for its copy. -/
def State.ticketWaits (s : State) (i : Instr) (x : LaneOp) (v : Inst) (t : Nat) : Bool :=
  match i with
  | .tkfork .. => s.forkWaits v t (x.operand 1).toNat
  | _ => false

/-- A TKT word performed for each lane (R327): one answers with the registers from D on; an instance removed meanwhile
refuses the word. -/
def Sim.ticketDo (m : Sim k s0) (o : Op) (d : Reg) (one : Sim k s0 → LaneOp → BitVec 4 → Inst → Nat → Sim k s0 × List Word) : Sim k s0 :=
  m.eachLane o (fun m x =>
    let (i, t) := x.ticket
    match m.now.inst? i with
    | some v =>
      if m.now.ticketWaits o.ins x v t then m else
      let r := one m x i v t
      r.1.laneDone o x.lane d.toNat r.2
    | none =>
      (m.lateTrap o.warp x.lane { cause := 0x09, late := true, tval := x.operand 0, pc := o.wordAddr, va := 0 }).laneDone o x.lane 0 [])

/-! ## tkrd, tkwr (R329, R330) -/

/-- tkrd. -/
def execTkrd (c : Bool) (g : Guard) (fs : Bool) (d a : Reg) (s : State) : Out := ticketWord (.tkrd c g fs d a) a a 1 200 s
/-- tkrd performed. -/
def Sim.tkrdOne (m : Sim k s0) (x : LaneOp) (v : Inst) (t : Nat) : Sim k s0 × List Word :=
  (m, (List.range 8).map (fun j => m.now.tk v t (8 * bits (x.operand 0).toNat 22 20 + j)))

/-- An update staged; the next step may begin (R316, R317). -/
def Sim.stage (m : Sim k s0) (i : BitVec 4) (u : Staged) : Sim k s0 :=
  m.modInst i (fun x => { x with staged := x.staged ++ [u], dirty := true })

/-- tkwr. -/
def execTkwr (c : Bool) (g : Guard) (fs : Bool) (d a : Reg) (s : State) : Out := ticketWord (.tkwr c g fs d a) a a 9 200 s
/-- tkwr performed. -/
def Sim.tkwrOne (m : Sim k s0) (x : LaneOp) (i : BitVec 4) (v : Inst) (t : Nat) : Sim k s0 × List Word :=
  let s := m.now
  let chunk := bits (x.operand 0).toNat 22 20
  if chunk = 0 then (m, [tkStatus 1])
  else if s.tkState v t = 0 ∨ v.removing.isSome then (m, [tkStatus 2])
  else if chunk = 2 ∧ x.operand 2 ≠ 0xFFFFFFFF ∧ (x.operand 2).toNat < s.tkPos v t + s.tkPend v t then (m, [tkStatus 3])
  else
    (m.stage i { tkid := t, chunk := some chunk, enqseq := s.tk v t 4
                 bytes := (List.range 8).flatMap (fun j => wordBytes (x.operand (j + 1))) }, [tkStatus 0])

/-! ## tkappend, tktrunc, tkret (R331–R333) -/

/-- tkappend. -/
def execTkappend (c : Bool) (g : Guard) (fs : Bool) (d a : Reg) (s : State) : Out := ticketWord (.tkappend c g fs d a) a a 3 400 s
/-- tkappend performed. -/
def Sim.tkappendOne (m : Sim k s0) (x : LaneOp) (i : BitVec 4) (v : Inst) (t : Nat) : Sim k s0 × List Word :=
  let s := m.now
  let n := (x.operand 1).toNat
  let p0 := s.tkPos v t + s.tkPend v t
  let st := s.tkState v t
  let blocks := s.missing v t (p0 + n)
  let pages := v.nlayer * blocks.length
  if n = 0 ∨ 65536 < n ∨ 0xFFFFFFFF < p0 + n then (m, [tkStatus 1, 0])
  else if st ≠ 2 ∧ st ≠ 4 then (m, [tkStatus 2, 0])
  else if v.reservation t + v.freePages < pages then (m, [tkStatus 4, 0])
  else
    let m := m.modInst i (fun v => (v.take t blocks).setReservation t (v.reservation t - pages))
    let m := ((m.tkSet v t 2 (BitVec.ofNat 32 (s.tkPend v t + n))).tkSet v t 15 (x.operand 2)).tkSetField v t 0 19 19 0
    (m, [tkStatus 0, BitVec.ofNat 32 p0])

/-- tktrunc. -/
def execTktrunc (c : Bool) (g : Guard) (fs : Bool) (d a : Reg) (s : State) : Out := ticketWord (.tktrunc c g fs d a) a a 3 400 s
/-- tktrunc performed. -/
def Sim.tktruncOne (m : Sim k s0) (x : LaneOp) (i : BitVec 4) (v : Inst) (t : Nat) : Sim k s0 × List Word :=
  let s := m.now
  let end_ := (x.operand 1).toNat
  let st := s.tkState v t
  if st ≠ 2 ∧ st ≠ 4 then (m, [tkStatus 2])
  else if end_ < s.tkPos v t ∨ s.tkPos v t + s.tkPend v t < end_ then (m, [tkStatus 3])
  else
    let pend := end_ - s.tkPos v t
    let m := m.tkSet v t 2 (BitVec.ofNat 32 pend)
    let m := if x.operand 2 = 0xFFFFFFFF then m else m.tkSet v t 15 (x.operand 2)
    (m.trimPages i t end_, [BitVec.ofNat 32 (pend % 2 ^ 28)])

/-- tkret. -/
def execTkret (c : Bool) (g : Guard) (fs : Bool) (d a : Reg) (s : State) : Out := ticketWord (.tkret c g fs d a) a a 2 200 s
/-- tkret performed. -/
def Sim.tkretOne (m : Sim k s0) (x : LaneOp) (v : Inst) (t : Nat) : Sim k s0 × List Word :=
  let reason := (x.operand 1).toNat % 256
  let st := m.now.tkState v t
  if reason < 0x80 then (m, [tkStatus 1])
  else if st = 0 ∨ st = 6 ∨ st = 5 then (m, [tkStatus 2])
  else ((m.tkSetField v t 0 17 17 1).tkSetField v t 0 27 20 reason, [tkStatus 0])

/-! ## tkfork (R334) -/

/-- Word n of a forked child (R314, R334). DEDUCED (log 60). -/
def State.childWord (s : State) (v : Inst) (parent fork enq n : Nat) (w : Word) : Word :=
  match n with
  | 0 => 0x1000FFFF
  | 1 | 6 => BitVec.ofNat 32 fork
  | 2 | 3 | 7 => 0
  | 4 => BitVec.ofNat 32 enq
  | 5 => BitVec.ofNat 32 ((s.tkField v parent 5 17 16 + 1) * 65536 + parent)
  | 8 => BitVec.ofNat 32 (bits w.toNat 31 29 * 2 ^ 29 + bits w.toNat 15 0)
  | 9 => s.tk v parent 9 &&& 0x80000000
  | 15 => 0xFFFFFFFF
  | 16 => s.tk v parent 16 &&& 0xFF
  | 20 => s.tk v parent 20 &&& 0x1FF
  | _ => if 26 ≤ n ∧ n < 32 then 0 else s.tk v parent n

/-- tkfork. -/
def execTkfork (c : Bool) (g : Guard) (fs : Bool) (d a : Reg) (s : State) : Out := ticketWord (.tkfork c g fs d a) a a 3 2000 s
/-- The first bytes of a block of every layer copied into new pages of the child. -/
def Sim.forkBlock (m : Sim k s0) (i : BitVec 4) (parent child fork : Nat) : Sim k s0 :=
  m.withInst i (fun m v =>
    let b := fork / 64
    let from_ := (m.now.holder v b 4 parent).getD parent
    let m := m.modInst i (fun v => v.take child [b])
    m.withInst i (fun m v =>
      m.each (List.range v.nlayer) (fun m l =>
        match (v.block from_ b).find? (fun p => p.layer == l), (v.block child b).find? (fun p => p.layer == l) with
        | some p, some q => (m.copyPage v.owner (v.kvAddr p.page) (v.kvAddr q.page) (1024 * (fork % 64))).1
        | _, _ => m)))

/-- tkfork performed; a block that cannot be copied gives NOKV, as a pool that lacks the pages. DESIGN CHOICE (log 99). -/
def Sim.tkforkOne (m : Sim k s0) (x : LaneOp) (i : BitVec 4) (v : Inst) (t : Nat) : Sim k s0 × List Word :=
  let s := m.now
  let fork := (x.operand 1).toNat
  let st := s.tkState v t
  if (st ≠ 2 ∧ st ≠ 4 ∧ st ≠ 6) ∨ s.tkField v t 0 18 18 = 1 ∨ v.removing.isSome then (m, [tkStatus 2])
  else if s.tkPos v t < fork then (m, [tkStatus 3])
  else if s.tkField v t 5 17 16 = 3 then (m, [tkStatus 5])
  else match (List.range 65536).find? (fun n => s.tkState v n == 0) with
    | none => (m, [tkStatus 6])
    | some child =>
      if (fork % 64 ≠ 0 ∧ v.freePages < v.nlayer) ∨ s.forkCopies v t fork = false then (m, [tkStatus 4])
      else
        let enq := (v.created + 1).toNat
        let m := m.each (List.range 64) (fun m n => m.tkSet v child n (s.childWord v t fork enq n (x.operand 2)))
        let m := m.tkSetField v t 5 31 18 (s.tkChildren v t + 1)
        let m := m.modInst i (fun v => { v with created := v.created + 1, dirty := true })
        (m.when (fork % 64 != 0) (fun m => m.forkBlock i t child fork), [BitVec.ofNat 32 child])

/-! ## kvmap, rot (R335, R336) -/

/-- kvmap. -/
def execKvmap (c : Bool) (g : Guard) (fs : Bool) (d a : Reg) (s : State) : Out := ticketWord (.kvmap c g fs d a) a a 3 200 s
/-- The address that kvmap gives, or a STATUS in its low bits. -/
def State.kvAddress (s : State) (v : Inst) (t p l : Nat) : DWord :=
  if s.tkState v t = 0 then 2
  else if v.nlayer ≤ l ∨ s.tkPos v t + s.tkPend v t ≤ p then 3
  else match s.holder v (p / 64) 4 t with
    | none => 3
    | some h =>
      if s.tkState v h = 0 then 2
      else match (v.block h (p / 64)).find? (fun q => q.layer == l && !q.swapped) with
        | some q => v.kvAddr q.page + BitVec.ofNat 64 (1024 * (p % 64))
        | none => 2
/-- kvmap performed. -/
def Sim.kvmapOne (m : Sim k s0) (x : LaneOp) (v : Inst) (t : Nat) : Sim k s0 × List Word :=
  let r := m.now.kvAddress v t (x.operand 1).toNat (x.operand 2).toNat
  (m, [lo32 r, hi32 r])

/-- The place of the table entry that rot reads: by the ticket's tables and the position (R336). -/
def State.rotAddr (s : State) (v : Inst) (t : Nat) (p h : Word) : DWord :=
  let sw := s.tk v t 17
  let n := if sw = 0xFFFFFFFF ∨ p.toNat < sw.toNat then s.tkField v t 16 3 0 else s.tkField v t 16 7 4
  v.rotbase + BitVec.ofNat 64 (256 * n + 4 * bits h.toNat 29 24)

/-- The rotation of a pair by the table entry w at a position (R336). -/
def rotate (x0 x1 p w : Word) : Word × Word :=
  let th := mulR (roundVal fp32 .rne false (ofInteger p.toNat)).word w
  let c := fval (cosW th)
  let s := fval (sinW th)
  ((dotF fp32 .rne [(fval x0, c), ((fval x1).negate, s)] (.fin true 0 0)).word,
   (dotF fp32 .rne [(fval x0, s), (fval x1, c)] (.fin true 0 0)).word)
where
  cosW (a : Word) : Word := (xfnOf 6 a).1
  sinW (a : Word) : Word := (xfnOf 5 a).1

/-- The address of the element that a rot names: of a ticket that is not FREE. -/
def State.rotEntry (s : State) (wi : Nat) (i : Instr) (v2 v3 : Word) : Option DWord :=
  (s.handle wi i v3).bind (fun t => (s.inst? t.1).bind (fun v =>
    if s.tkState v t.2 = 0 then none else some (s.rotAddr v t.2 v2 v3)))

/-- rot: refused precisely where that is decided at issue. -/
def execRot (c : Bool) (g : Guard) (fs : Bool) (d a : Reg) (s : State) : Out :=
  let i := Instr.rot c g fs d a
  issueWord i s (fun lanes src m =>
    let wi := m.now.cur.warp
    let named (l : Nat) := m.now.handle wi i (src l (a.toNat + 3))
    let addr (l : Nat) : Option DWord := m.now.rotEntry wi i (src l (a.toNat + 2)) (src l (a.toNat + 3))
    let priv (l : Nat) : Bool := (m.now.cur.thread l).priv
    let refused (l : Nat) : Bool := (addr l).any (fun x => m.now.translate (m.now.ownerOf wi) (priv l) .read x == .refused)
    let m := m.each lanes (fun m l =>
      if (named l).isNone then m.trapWord l 0x09 (src l (a.toNat + 3))
      else if refused l then m.trapWord l 0x09 (lo32 ((addr l).getD 0)) ((addr l).getD 0) else m)
    let ok := lanes.filter (fun l => (named l).isSome && !refused l)
    let lane (l : Nat) : LaneOp :=
      let t := (named l).getD (0, 0)
      let x := engineLane l ((addr l).getD 0)
      let at_ : Option Nat × Nat := match m.now.translate (m.now.ownerOf wi) (priv l) .read x.addr with
        | .ok loc _ pte _ => (some loc, pte)
        | _ => (none, 0)
      let data := leBytes 4 t.1.toNat ++ leBytes 4 t.2 ++
        (List.range 4).flatMap (fun j => wordBytes (src l (a.toNat + j))) ++ [BitVec.ofNat 8 (if priv l then 1 else 0)]
      if (addr l).isSome then { x with size := 4, loc := at_.1, pte := at_.2, data := data } else { x with data := data }
    if ok.isEmpty then m else m.launchOp i .engine (ok.map lane) 260)

/-- rot performed: a FREE ticket gives the canonical NaN; a table page that is refused after service faults with LATE; an
uncorrectable error gives the NaN and raises UNCORRECTABLE. -/
def Sim.rotDo (m : Sim k s0) (o : Op) (d : Reg) : Sim k s0 :=
  m.eachLane o (fun m x =>
    let (i, t) := x.ticket
    let nan : Word := 0x7FC00000
    let late (m : Sim k s0) (va : DWord) :=
      (m.lateTrap o.warp x.lane { cause := 0x09, late := true, tval := lo32 va, pc := o.wordAddr, va := va }).laneDone o x.lane 0 []
    match m.now.inst? i with
    | none => late m x.addr
    | some v =>
      if m.now.tkState v t = 0 then m.laneDone o x.lane d.toNat [nan, nan]
      else
        let va := m.now.rotAddr v t (x.operand 2) (x.operand 3)
        let owner := m.now.ownerOf o.warp
        if x.state = .denied then late m va
        else match m.now.translate owner ((x.data.getD 24 0) != 0) .read va with
          | .refused => late m va
          | .ok loc _ _ _ =>
            if m.now.lineFault owner loc then
              (m.uncorrectable o { x with addr := va }).laneDone o x.lane d.toNat [nan, nan]
            else
              let r := rotate (x.operand 0) (x.operand 1) (x.operand 2) (bytesWord (m.now.bytes loc 4))
              m.laneDone o x.lane d.toNat [r.1, r.2]
          | _ => m)

end Sys2Proof.Machine
end

