-- ==== Sys2Proof/Machine/Barista.lean ====
section
/-! DEFINITION. The Barista: the step of a model instance (R316–R323, R325), its removal (R312), and the ends of watches
(R346, R347). -/

namespace Sys2Proof.Machine

variable {k : Bool} {s0 : State}

/-! ## Watches (R346, R347) -/

/-- The pending watch of an identifier: one of the step in progress of its instance (R346). -/
def State.watch? (s : State) (wid : Word) : Option Watch :=
  s.watches.find? (fun w => w.wid == wid &&
    (match s.inst? w.inst with | some x => x.state == .running && (lo32 x.mstep).extractLsb' 0 16 == wid.extractLsb' 16 16 | none => false))

/-- A watch no longer pending. -/
def Sim.dropWatch (m : Sim k s0) (wid : Word) : Sim k s0 := m.act (.watches (m.now.watches.filter (fun w => w.wid != wid)))

/-- frel with RESUME (R347): the ticket is ACTIVE and the gate of its row OPEN. -/
def Sim.resumeWatch (m : Sim k s0) (w : Watch) : Sim k s0 :=
  m.withInst w.inst (fun m x =>
    let m := (m.dropWatch w.wid).when (m.now.tkState x w.tkid == 4) (fun m => m.tkSetField x w.tkid 0 31 28 2)
    m.setGate x w.vector w.row 1)

/-- frel with RETIRE (R347): the ticket is ACTIVE and asks to retire, the gates of its rows are SKIP, and its later rows
are left. -/
def Sim.retireWatch (m : Sim k s0) (w : Watch) (reason : Nat) : Sim k s0 :=
  m.withInst w.inst (fun m x =>
    let t := w.tkid
    let rows := m.now.rowsOf x t
    let m := (m.dropWatch w.wid).when (m.now.tkState x t == 4) (fun m => m.tkSetField x t 0 31 28 2)
    let m := ((m.tkSetField x t 0 17 17 1).tkSetField x t 0 27 20 4).tkSetField x t 20 31 24 reason
    let m := m.setGates x rows 2
    m.act (.taps (m.now.taps.map (fun p =>
      if p.inst = w.inst then { p with todo := p.todo.filter (fun r => !rows.contains r) } else p))))

/-- WATCH_HANDLER_END (R346): a handler that completed without frel retires its own watch; one that a later row has pending
under the same identifier stays. -/
def execWatchHandlerEnd (wid : Word) (s : State) : Out :=
  let m := begin_ true s
  match s.watch? wid with
  | some w => if w.handler.any (fun li => (s.launch li).complete) then ran (m.retireWatch w 0) else ran m
  | none => ran m

/-! ## The mark (R317) -/

/-- Word n of an image of bytes. -/
def imageWord (bs : List Byte) (n : Nat) : Word := bytesWord ((bs.drop (4 * n)).take 4)

/-- Word n of a ticket that a TKUPD creates (R314, R317). -/
def createdWord (img : List Byte) (enq : Word) (n : Nat) : Word :=
  let w := imageWord img n
  match n with
  | 0 => 0x1000FFFF
  | 4 => enq
  | 5 => 0xFFFF
  | 8 => w &&& 0xE000FFFF
  | 9 => w &&& 0x80000000
  | 15 => 0xFFFFFFFF
  | 16 => w &&& 0xFF
  | 20 => w &&& 0x1FF
  | _ => if n < 8 ∨ (26 ≤ n ∧ n < 32) then 0 else w

/-- Some words of a ticket updated in their RW bits; SWPOS and ROTB stand where R317 says so. -/
def Sim.updateWords (m : Sim k s0) (x : Inst) (t : Nat) (ns : List Nat) (w : Nat → Word) : Sim k s0 :=
  let s := m.now
  let pos := s.tkPos x t
  let fixed : Bool := ns.contains 17 && (decide ((w 17).toNat < pos) ||
    (bits (w 16).toNat 7 4 != s.tkField x t 16 7 4 && decide ((s.tk x t 17).toNat ≤ pos)))
  m.each ns (fun m n =>
    let mask := if fixed then (if n = 17 then 0 else if n = 16 then 0xFFFFFF00 else rwMask n) else rwMask n
    m.tkSet x t n ((m.now.tk x t n &&& ~~~ mask) ||| (w n &&& mask)))

/-- A staged update applied (R317). -/
def Sim.applyStaged (m : Sim k s0) (i : BitVec 4) (u : Staged) : Sim k s0 :=
  m.withInst i (fun m x =>
    let t := u.tkid
    match u.chunk with
    | none =>
      if m.now.tkState x t = 0 then
        let enq := x.created + 1
        let m := m.modInst i (fun x => { x with created := x.created + 1 })
        m.each (List.range 64) (fun m n => m.tkSet x t n (createdWord u.bytes enq n))
      else m.updateWords x t (List.range 64) (imageWord u.bytes)
    | some c =>
      if m.now.tkState x t = 0 ∨ m.now.tk x t 4 ≠ u.enqseq then m
      else m.updateWords x t ((List.range 8).map (· + 8 * c)) (fun n => imageWord u.bytes (n - 8 * c)))

/-- The snapshot mark (R316, R317, R333): mstep counts, staged updates are applied in order of arrival, and a QUEUED or
PAUSED ticket that asks to retire is DONE. Watches of the step before name nothing any more. -/
def Sim.mark (m : Sim k s0) (i : BitVec 4) : Sim k s0 :=
  m.withInst i (fun m x =>
    let m := m.act (.watches (m.now.watches.filter (fun w => w.inst != i)))
    let m := m.modInst i (fun x => { x with mstep := x.mstep + 1, stepDone := false, lost := [], marks := [], staged := [], dirty := false })
    let m := m.each x.staged (fun m u => m.applyStaged i u)
    m.each (m.now.tickets x) (fun m t =>
      let st := m.now.tkState x t
      m.when ((st == 1 || st == 3) && m.now.tkField x t 0 17 17 == 1) (fun m => m.tkSetField x t 0 31 28 6)))

/-! ## Retirement (R318, R323) -/

/-- The function whose event ring takes the records of an instance. -/
def State.instFn (s : State) (x : Inst) : Option Nat := ((s.owner x.owner).vf).map (fun v => 2 + v.toNat)
/-- Whether a record of an instance finds room (R438). -/
def State.recordRoom (s : State) (x : Inst) : Bool := match s.instFn x with | some f => s.eventRoom f | none => true

/-- The completion record of a ticket (R318). -/
def State.retireRecord (s : State) (i : BitVec 4) (x : Inst) (t : Nat) : List Byte :=
  let reason := s.tkField x t 0 27 20
  leBytes 4 (reason * 2 ^ 24 + i.toNat * 2 ^ 16 + t) ++ leBytes 4 (s.tkPos x t) ++ wordBytes (lo32 x.mstep) ++
  leBytes 4 (if reason = 4 then s.tkField x t 20 31 24 else 0) ++ wordBytes (s.tk x t 24) ++ wordBytes (s.tk x t 25) ++
  List.replicate 8 0

/-- A ticket becomes FREE and its pages return; its parent has one child less, and a parent that waited for its last child
becomes FREE with it. Fork depth is at most three. -/
def Sim.freeTicket (m : Sim k s0) (i : BitVec 4) : Nat → Nat → Sim k s0
  | 0, _ => m
  | n + 1, t =>
    m.withInst i (fun m x =>
      let parent := m.now.tkField x t 5 15 0
      let m := m.dropPages i t (fun _ => true)
      let m := m.modInst i (fun x => { x.setReservation t 0 with kept := x.kept.filter (· != t) })
      let m := ((m.tkSetField x t 0 31 28 0).tkSetField x t 0 18 17 0).tkSetField x t 0 15 0 0xFFFF
      if parent = 0xFFFF then m
      else
        let c := m.now.tkChildren x parent - 1
        let m := m.tkSetField x parent 5 31 18 c
        if c = 0 ∧ x.kept.contains parent then Sim.freeTicket m i n parent else m)

/-- Whether a ticket is retired at step 2 (R323): one that R323 keeps for its children has been. -/
def State.retires (s : State) (x : Inst) (t : Nat) : Bool :=
  let st := s.tkState x t
  st != 0 && !x.kept.contains t && (st == 5 || st == 6 || s.tkField x t 9 30 30 == 1)

/-- One ticket retired: its record is posted, and it is FREE, or DONE while it has children. -/
def Sim.retireOne (m : Sim k s0) (i : BitVec 4) (t : Nat) (keep : Bool) : Sim k s0 :=
  m.withInst i (fun m x =>
    let st := m.now.tkState x t
    let m := m.when (st != 5 && st != 6) (fun m => m.tkSetField x t 0 27 20 3)
    let m := m.tkSetField x t 0 15 0 0xFFFF
    let m := m.postFor x.owner 2 (m.now.retireRecord i x t)
    let m := m.tkSetField x t 0 17 17 0
    if keep ∧ m.now.tkChildren x t ≠ 0 then
      (m.tkSetField x t 0 31 28 6).modInst i (fun x => { x with kept := x.kept ++ [t] })
    else m.freeTicket i 5 t)

/-- Step 2 (R323): the tickets to retire in ascending order, deferred while their record finds no room; whether one was.
DEDUCED (log 57). -/
def Sim.retireAll (m : Sim k s0) (i : BitVec 4) : Sim k s0 × Bool :=
  match m.now.inst? i with
  | none => (m, false)
  | some x =>
    (m.now.tickets x).foldl (fun r t =>
      match r.1.now.inst? i with
      | some x => if r.1.now.retires x t && r.1.now.recordRoom x then (r.1.retireOne i t true, true) else r
      | none => r) (m, false)

/-! ## Admission (R320) -/

/-- NROWS of a ticket as it is read. -/
def State.tkRows (s : State) (x : Inst) (t : Nat) : Nat := Nat.min (Nat.max (s.tkField x t 8 15 0) 1) 16384
/-- ADMSEQ of a ticket. -/
def State.tkAdm (s : State) (x : Inst) (t : Nat) : Nat := (s.tk x t 7).toNat
/-- need(t, r). DEDUCED (log 56). -/
def State.need (s : State) (x : Inst) (t r : Nat) : Nat :=
  x.nlayer * (s.missing x t (s.tkPos x t + r)).length + (x.pages.filter (fun p => p.tkid == t && p.swapped)).length
/-- The tickets of an instance in a state. -/
def State.inState (s : State) (x : Inst) (st : Nat) : List Nat := (s.tickets x).filter (fun t => s.tkState x t == st)

/-- The victim that is chosen beside a ticket. -/
def State.victim (s : State) (x : Inst) (t : Nat) : Option Nat :=
  (sortBy (fun a b => decide (s.tkPrio x a < s.tkPrio x b) || (s.tkPrio x a == s.tkPrio x b && decide (s.tkAdm x b < s.tkAdm x a)))
    ((s.inState x 2).filter (fun v => v != t && s.tkChildren x v == 0))).head?

/-- A step in progress: what the rows left, the tickets evicted, whether one was admitted, and whether a page of the
instance must be serviced by the MMP first. -/
structure Stepping (k : Bool) (s0 : State) where
  m : Sim k s0
  left : Nat
  evicted : List Nat := []
  admitted : Bool := false
  waits : Bool := false

/-- Pages of a ticket moved between the pool and the swap area, to the places given: whether every copy succeeded, and
whether one must wait. Pool pages left are wiped. -/
def Sim.movePages (m : Sim k s0) (i : BitVec 4) (x : Inst) (ps : List KvPage) (tgt : List Nat) (out : Bool) : Sim k s0 × Bool × Bool :=
  (ps.zip tgt).foldl (fun r p =>
    let src := if out then x.kvAddr p.1.page else x.swapAddr p.1.page
    let dst := if out then x.swapAddr p.2 else x.kvAddr p.2
    let waits := r.1.now.copyWaits x.owner src dst
    let c := r.1.copyPage x.owner src dst 65536
    if c.2 then
      let m := c.1.modInst i (fun x => { x with pages := x.pages.map (fun q =>
        if q = p.1 then { q with page := p.2, swapped := out } else q) })
      (m.when out (fun m => m.wipePage x p.1.page), r.2.1, r.2.2 || waits)
    else (c.1, false, r.2.2 || waits)) (m, true, false)

/-- evict(v) (R320). -/
def Stepping.evict (r : Stepping k s0) (i : BitVec 4) (v : Nat) : Stepping k s0 :=
  match r.m.now.inst? i with
  | none => r
  | some x =>
    let s := r.m.now
    let left := r.left + s.tkField x v 3 31 16
    let m := (r.m.tkSetField x v 0 31 28 3).tkSetField x v 0 15 0 0xFFFF
    let m := (m.tkSet x v 3 0).modInst i (fun x => x.setReservation v 0)
    let held := x.pages.filter (fun p => p.tkid == v && !p.swapped)
    let room := lowestFree x.swapUsed x.swappages held.length
    let swap := s.tkField x v 9 31 31 == 0 && held.length ≤ room.length
    let c := if swap then m.movePages i x held room true else (m, false, false)
    let m := if c.2.1 then c.1.tkSetField x v 0 18 18 1
      else
        let m := c.1.dropPages i v (fun _ => true)
        ((m.tkSet x v 1 (s.tk x v 6)).tkSet x v 2 0).tkSetField x v 0 19 19 1
    { r with m := m, left := left, evicted := r.evicted ++ [v], waits := r.waits || c.2.2 }

/-- Tickets evicted for t while it needs more pages than are free, as far as the chosen victim may be. -/
def Stepping.evictFor (r : Stepping k s0) (i : BitVec 4) (t rows : Nat) (below : State → Inst → Nat → Bool) : Nat → Stepping k s0
  | 0 => r
  | n + 1 =>
    match r.m.now.inst? i with
    | none => r
    | some x =>
      if r.m.now.need x t rows ≤ x.freePages then r
      else match r.m.now.victim x t with
        | some v => if below r.m.now x v then Stepping.evictFor (r.evict i v) i t rows below n else r
        | none => r

/-- Rows and pages given to a ticket. -/
def Stepping.give (r : Stepping k s0) (i : BitVec 4) (x : Inst) (t rows : Nat) : Stepping k s0 :=
  let need := r.m.now.need x t rows
  let m := (r.m.modInst i (fun x => x.setReservation t need)).tkSet x t 3 (BitVec.ofNat 32 (rows * 65536))
  { r with m := m, left := r.left - rows }

/-- The rows of an ACTIVE ticket. -/
def Stepping.grant (r : Stepping k s0) (i : BitVec 4) (t : Nat) : Stepping k s0 :=
  match r.m.now.inst? i with
  | none => r
  | some x =>
    if r.m.now.tkState x t ≠ 2 then r
    else
      let rows := Nat.min (r.m.now.tkRows x t) r.left
      let ranks (s : State) (x : Inst) (v : Nat) : Bool :=
        decide (s.tkPrio x v < s.tkPrio x t) || (s.tkPrio x v == s.tkPrio x t && decide (s.tkAdm x t < s.tkAdm x v))
      let r := r.evictFor i t rows ranks 1024
      match r.m.now.inst? i with
      | none => r
      | some x =>
        let fit := ((List.range (rows + 1)).reverse.find? (fun n => r.m.now.need x t n ≤ x.freePages)).getD 0
        r.give i x t fit

/-- The slots that tickets occupy. -/
def State.slotsUsed (s : State) (x : Inst) : List Nat :=
  (s.tickets x).filterMap (fun t => let n := s.tkField x t 0 15 0; if n = 0xFFFF then none else some n)

/-- QUEUED and PAUSED tickets admitted in order, until one stops the loop. -/
def Stepping.admitAll (r : Stepping k s0) (i : BitVec 4) : List Nat → Stepping k s0
  | [] => r
  | t :: ts =>
    match r.m.now.inst? i with
    | none => r
    | some x =>
      let used := r.m.now.slotsUsed x
      match (List.range x.maxslot).find? (fun n => !used.contains n) with
      | none => r
      | some _ =>
        if r.left = 0 then r
        else
          let rows := Nat.min (r.m.now.tkRows x t) r.left
          let r := r.evictFor i t rows (fun s x v => decide (s.tkPrio x v < s.tkPrio x t)) 1024
          match r.m.now.inst? i with
          | none => r
          | some x =>
            let used := r.m.now.slotsUsed x
            let slot := ((List.range x.maxslot).find? (fun n => !used.contains n)).getD 0
            if x.freePages < r.m.now.need x t rows then r
            else
              let adm := x.admitted + 1
              let m := (r.m.tkSetField x t 0 15 0 slot).tkSetField x t 0 31 28 2
              let m := (m.tkSet x t 7 adm).modInst i (fun x => { x with admitted := adm })
              Stepping.admitAll ({ { r with m := m } with admitted := true }.give i x t rows) i ts

/-- Step 3 (R320). -/
def Sim.admitTickets (m : Sim k s0) (i : BitVec 4) : Stepping k s0 :=
  match m.now.inst? i with
  | none => { m := m, left := 0 }
  | some x =>
    let s := m.now
    let active := sortBy (fun a b => decide (s.tkPrio x b < s.tkPrio x a) ||
      (s.tkPrio x a == s.tkPrio x b && decide (s.tkAdm x a < s.tkAdm x b))) (s.inState x 2)
    let r : Stepping k s0 := active.foldl (fun r t => r.grant i t) { m := m, left := x.rowbudget }
    let s := r.m.now
    let enq (t : Nat) : Nat := (s.tk x t 4).toNat
    let w := sortBy (fun a b => decide (s.tkPrio x b < s.tkPrio x a) || (s.tkPrio x a == s.tkPrio x b && decide (enq a < enq b)))
      ((s.tickets x).filter (fun t => (s.tkState x t == 1 || s.tkState x t == 3) && !r.evicted.contains t))
    r.admitAll i w

/-- Blocks of the SWAPPED tickets that are ACTIVE copied back (R316, R319): a block that cannot be read back faults the
ticket, which has no rows. -/
def Stepping.swapIn (r : Stepping k s0) (i : BitVec 4) : Stepping k s0 :=
  match r.m.now.inst? i with
  | none => r
  | some x =>
    ((r.m.now.inState x 2).filter (fun t => r.m.now.tkField x t 0 18 18 == 1)).foldl (fun r t =>
      match r.m.now.inst? i with
      | none => r
      | some x =>
        let ps := x.pages.filter (fun p => p.tkid == t && p.swapped)
        let c := r.m.movePages i x ps (lowestFree x.poolUsed x.kvpages ps.length) false
        let m := c.1.modInst i (fun x => x.setReservation t (x.reservation t - ps.length))
        let m := if c.2.1 then m.tkSetField x t 0 18 18 0 else (m.tkSet x t 3 0).faultTicket i t 0x18
        { r with m := m, waits := r.waits || c.2.2 }) r

/-! ## The order board and the run (R321, R283, R429) -/

/-- The order board written and the gates initialised (R321). -/
def Sim.writeBoard (m : Sim k s0) (i : BitVec 4) : Sim k s0 :=
  m.withInst i (fun m x =>
    let by_ := (m.now.tickets x).filterMap (fun t => let n := m.now.tkField x t 0 15 0; if n = 0xFFFF then none else some (n, t))
    let rowsAt (s : State) (n : Nat) : Nat := (((by_.filter (fun p => decide (p.1 < n) && s.tkState x p.2 == 2)).map
      (fun p => s.tkField x p.2 3 31 16))).foldl (· + ·) 0
    let m := m.each by_ (fun m p => m.when (m.now.tkState x p.2 == 2) (fun m => m.tkSetField x p.2 3 15 0 (rowsAt m.now p.1)))
    let s := m.now
    let active := (by_.filter (fun p => s.tkState x p.2 == 2)).map (·.1)
    let nslot := if active.isEmpty then 0 else (by_.map (fun p => p.1 + 1)).foldl Nat.max 0
    let nrows := rowsAt s x.maxslot
    let entry (n : Nat) : List Byte :=
      match by_.find? (fun p => p.1 == n) with
      | some p => leBytes 4 (2 ^ 31 + i.toNat * 2 ^ 16 + p.2) ++ leBytes 4 (s.tkField x p.2 3 15 0) ++
          leBytes 4 (s.tkField x p.2 3 31 16) ++ leBytes 4 (s.tkPos x p.2)
      | none => List.replicate 16 0
    let m := m.marketPut x.owner x.board (wordBytes (lo32 x.mstep) ++ leBytes 4 nslot ++ leBytes 4 nrows ++ List.replicate 52 0 ++
      (List.range x.maxslot).flatMap entry)
    m.each (List.range x.ngate) (fun m v => m.marketPut x.owner (x.gatebase + v * x.gstride)
      ((List.range x.gstride).map (fun r => if r < nrows then 0 else 2))))

/-- Every ACTIVE and WATCHED ticket in the bound slots of a ring marked lost (R430). DEDUCED (log 59). -/
def Sim.markLost (m : Sim k s0) (g : Group) : Sim k s0 :=
  m.withInst g.inst (fun m x =>
    let ts := (m.now.tickets x).filter (fun t => (m.now.tkState x t == 2 || m.now.tkState x t == 4) &&
      decide (g.slot0 ≤ m.now.tkField x t 0 15 0) && decide (m.now.tkField x t 0 15 0 < g.slot0 + g.nslots))
    m.modInst g.inst (fun x => { x with lost := (x.lost ++ ts).eraseDups }))

/-- The groups that are rings bound to an instance (R429). -/
def State.ringsOf (s : State) (i : BitVec 4) : List (Nat × Group) := s.groups.filter (fun g => g.2.ring && g.2.inst == i)

/-- The revolution of each ring of an instance begins with its run; that of a ring which a member has left is abandoned. -/
def Sim.beginRings (m : Sim k s0) (i : BitVec 4) : Sim k s0 :=
  m.each (m.now.ringsOf i) (fun m p =>
    let m := m.act (.group p.1 { p.2 with abandoned := p.2.broken, closed := false, started := none, first := [], numbered := [] })
    m.when p.2.broken (fun m => m.markLost p.2))

/-- Whether a step may begin its run: its graph is resident, and no run of it goes on. -/
def State.graphFree (s : State) (x : Inst) : Bool := match s.graph? x.stepgraph with | some g => !g.live | none => false

/-- The run of a step begins (R316, action 5); LASTTOK at the mark is kept for R322. -/
def Sim.startStep (m : Sim k s0) (i : BitVec 4) : Sim k s0 :=
  m.withInst i (fun m x =>
    let marks := (m.now.inState x 2).map (fun t => (t, m.now.tk x t 15))
    let m := m.modInst i (fun x => { x with state := .running, marks := marks })
    (m.startRun x.stepgraph).beginRings i)

/-! ## The end of a step -/

/-- The workgroups that a run has bound are bound no more (R324). -/
def Sim.unbindSlots (m : Sim k s0) (i : BitVec 4) : Sim k s0 :=
  m.each m.now.wgs (fun m g => match (m.now.wg g.1).bound with
    | some b => m.when (b.1 == i) (fun m => m.act (.wg g.1 { m.now.wg g.1 with bound := none }))
    | none => m)

/-- The run is over: rows and reservations end with the step (R322), and the next step begins at once (R316). -/
def Sim.endStep (m : Sim k s0) (i : BitVec 4) : Sim k s0 :=
  m.withInst i (fun m x =>
    let m := m.unbindSlots i
    let m := m.each (m.now.tickets x) (fun m t => m.when (m.now.tk x t 3 != 0) (fun m => m.tkSet x t 3 0))
    let m := m.act (.taps (m.now.taps.map (fun p => if p.inst = i then { p with todo := [] } else p)))
    m.modInst i (fun x => { x with state := .idle, reserved := [], dirty := true }))

/-- Whether the run of a step is over. -/
def State.runOver (s : State) (x : Inst) : Bool := match s.graph? x.stepgraph with | some g => !g.live | none => true

/-- Whether an instance holds a ticket that a step serves, or a staged image that creates one (R316). -/
def State.steppable (s : State) (x : Inst) : Bool :=
  x.staged.any (fun u => u.chunk.isNone && s.tkState x u.tkid == 0) || (s.tickets x).any (fun t => !x.kept.contains t)

/-- Whether the virtual function of an instance's owner is switched out (R384). -/
def State.instOut (s : State) (x : Inst) : Bool :=
  match (s.owner x.owner).vf with
  | some v => (match Keyed.find s.vfs v.toNat with | some d => d.out | none => false)
  | none => false

/-- Whether the Barista may begin a step of an idle instance. DEDUCED (log 58). -/
def State.mayStep (s : State) (x : Inst) : Bool :=
  x.removing.isNone && x.dirty && s.graphFree x && !s.instOut x && s.loaded x.owner && s.steppable x

/-- The actions 1 to 5 of a step (R316); none where the MMP must service a page first. -/
def Sim.stepBegin (m : Sim k s0) (i : BitVec 4) : Option (Sim k s0) :=
  match m.now.inst? i with
  | none => none
  | some x =>
    let m := m.mark i
    let d := m.retireAll i
    let r := (d.1.admitTickets i).swapIn i
    if r.waits then none
    else
      let m := r.m.writeBoard i
      if (m.now.inState x 2).isEmpty then
        some (m.modInst i (fun x => { x with reserved := [], dirty := d.2 || r.admitted }))
      else some (m.startStep i)

/-! ## Removal of an instance (R312) -/

/-- The appends of a ticket in the current step discarded (R322). -/
def Sim.loseAppends (m : Sim k s0) (i : BitVec 4) (x : Inst) (t reason : Nat) : Sim k s0 :=
  let m := (m.tkSet x t 2 0).tkSetField x t 0 27 20 reason
  let m := match x.marks.find? (fun p => p.1 == t) with
    | some p => m.tkSet x t 15 p.2
    | none => m
  m.dropPages i t (fun q => q.step == x.mstep.toNat && !q.swapped)

/-- IMMEDIATE removal: the gangs of the run are killed, the run ends and its appends are discarded. -/
def Sim.cancelStep (m : Sim k s0) (i : BitVec 4) : Sim k s0 :=
  m.withInst i (fun m x =>
    if x.state = .idle then m
    else
      let run := (m.now.graph? x.stepgraph).bind (·.run)
      let mine (l : Launch) : Bool := match l.origin, run with
        | .node g n _, some r => g == x.stepgraph && n == r.number
        | _, _ => false
      let m := m.each (m.now.launches.filter (fun l => mine l.2 && !l.2.complete)) (fun m l => m.killLaunch l.1)
      let m := match m.now.graph? x.stepgraph with
        | some g => (match g.run with | some r => m.setRun x.stepgraph g { r with ended := true } | none => m)
        | none => m
      let ts := (m.now.tickets x).filter (fun t => m.now.tkState x t == 2 || m.now.tkState x t == 4)
      (m.each ts (fun m t => m.when (!x.stepDone) (fun m => m.loseAppends i x t 3))).endStep i)

/-- Action 2: one ticket retired with CANCELLED, unless it holds a reason. -/
def Sim.removeTicket (m : Sim k s0) (i : BitVec 4) (t : Nat) : Sim k s0 :=
  m.withInst i (fun m x =>
    let reason := m.now.tkField x t 0 27 20
    let m := m.when (reason == 0) (fun m => m.tkSetField x t 0 27 20 3)
    let m := m.when (!x.kept.contains t) (fun m => m.postFor x.owner 2 (m.now.retireRecord i x t))
    ((m.dropPages i t (fun _ => true)).tkSetField x t 0 31 28 0).tkSetField x t 0 18 17 0)

/-- The lines of the unbacked pages of a pool dropped: those that hold anything are charged (R194). -/
def Sim.dropPool (m : Sim k s0) (x : Inst) : Sim k s0 :=
  let first := x.kvbase.toNat % 2 ^ 57 / 65536
  m.each (m.now.charged.filter (fun c => c.owner == x.owner && decide (first ≤ c.page) && decide (c.page < first + x.kvpages)))
    (fun m c => m.zeroRange none none x.owner (x.kvAddr (c.page - first)) 65536)

/-- Actions 1 to 4 of a removal, as far as the event ring lets them go. -/
def Sim.removeInst (m : Sim true s0) (i : BitVec 4) : Sim true s0 :=
  match m.now.inst? i with
  | none => m
  | some x =>
    let m := m.each (m.now.watches.filter (fun w => w.inst == i)) (fun m w => m.retireWatch w 0)
    let m := m.each (m.now.tickets x) (fun m t =>
      match m.now.inst? i with
      | some x => if m.now.recordRoom x || x.kept.contains t then m.removeTicket i t else m
      | none => m)
    match m.now.inst? i with
    | none => m
    | some x =>
      if !(m.now.tickets x).isEmpty then m
      else
        let m := m.marketPut x.owner x.board (List.replicate (64 + 16 * x.maxslot) 0)
        let m := m.marketPut x.owner x.gatebase (List.replicate (x.ngate * x.gstride) 0)
        let m := m.dropPool x
        let m := m.act (.taps (m.now.taps.map (fun p => if p.inst = i then { p with todo := [] } else p)))
        let m := m.sys (.noInst i.toNat)
        match x.reply with
        | some h => m.complete h 0 0 0
        | none => m

/-- The Barista's run in progress ends, and the next step begins or a removal goes on (R312, R316). -/
def Sim.baristaStep (m : Sim true s0) (i : BitVec 4) : Sim true s0 :=
  match m.now.inst? i with
  | none => m
  | some x =>
    if x.state = .running ∧ m.now.runOver x = false then m
    else
      let m := if x.state = .running then m.endStep i else m
      match m.now.inst? i with
      | none => m
      | some x =>
        if x.removing.isSome then m.removeInst i
        else if m.now.mayStep x then (m.stepBegin i).getD m
        else m

/-- BARISTA_STEP (R316, R312). -/
def execBaristaStep (i : BitVec 4) (s : State) : Out := ran ((begin_ true s).baristaStep i)

/-! ## STEP_DONE (R322) and the STEP node (R283) -/

/-- The first stop condition that holds for a ticket: its REASON. -/
def State.stopReason (s : State) (x : Inst) (t : Nat) (lost : Bool) : Option Nat :=
  let last := s.tk x t 15
  if s.tkField x t 0 17 17 = 1 then some (s.tkField x t 0 27 20)
  else if lost then none
  else if last ≠ 0xFFFFFFFF ∧ (last = s.tk x t 13 ∨ last = s.tk x t 14) then some 1
  else if s.tk x t 12 ≠ 0 ∧ (s.tk x t 12).toNat ≤ s.tkPos x t then some 2
  else none

/-- STEP_DONE for one ticket. -/
def Sim.stepDoneOne (m : Sim k s0) (i : BitVec 4) (x : Inst) (t : Nat) : Sim k s0 :=
  let lost := x.lost.contains t
  let st := m.now.tkState x t
  let asked := m.now.tkField x t 0 17 17 == 1
  let code := m.now.tkField x t 0 27 20
  let m := if lost then m.loseAppends i x t 0x17
    else (m.tkSet x t 1 (BitVec.ofNat 32 (m.now.tkPos x t + m.now.tkPend x t))).tkSet x t 2 0
  let done (m : Sim k s0) (reason : Nat) := (m.tkSetField x t 0 27 20 reason).tkSetField x t 0 31 28 6
  if st = 4 then done m 5
  else if lost ∧ asked then done m code
  else match m.now.stopReason x t lost with
    | some r => done m r
    | none => m

/-- The STEP node of an instance's run that has started and not completed. -/
def State.stepNode (s : State) (x : Inst) : Option Nat :=
  match s.graph? x.stepgraph with
  | some g =>
    (match g.run with
     | some r => if r.ended then none else (List.range g.nodes).find? (fun n => g.kind n == 4 && (r.node n).state == .running)
     | none => none)
  | none => none

/-- Whether the rings of an instance let its STEP node complete (R429). -/
def State.ringsOver (s : State) (i : BitVec 4) : Bool := (s.ringsOf i).all (fun g => g.2.closed || g.2.abandoned)

/-- STEP_DONE (R322): the appends of the step are committed or discarded, the stop conditions evaluated, and the STEP
node completes. -/
def execStepDone (i : BitVec 4) (s : State) : Out :=
  let m := begin_ true s
  match s.inst? i with
  | none => ran m
  | some x =>
    match s.stepNode x with
    | none => ran m
    | some n =>
      if x.state ≠ .running ∨ x.stepDone ∨ !s.ringsOver i then ran m
      else
        let ts := sortBy (fun a b => decide (s.tkField x a 0 15 0 < s.tkField x b 0 15 0))
          ((s.tickets x).filter (fun t => s.tkState x t == 2 || s.tkState x t == 4))
        let m := m.each ts (fun m t => m.stepDoneOne i x t)
        let m := m.act (.watches (m.now.watches.filter (fun w => w.inst != i)))
        let m := m.modInst i (fun x => { x with stepDone := true })
        ran (m.completeNode x.stepgraph n false)

/-- The STEP node of a run that belongs to an instance waits for the Barista (R316); the rings of the instance count the
time from it (R430). -/
def Sim.stepNodeStart (m : Sim k s0) (gi : BitVec 6) (node : Nat) : Option (Sim k s0) :=
  match m.now.insts.find? (fun x => x.2.stepgraph == gi && x.2.state == .running && !x.2.stepDone) with
  | some x =>
    let fc := m.now.fc
    let m := m.modNode gi node (fun n => { n with state := .running })
    some (m.each (m.now.ringsOf (BitVec.ofNat 4 x.1)) (fun m g =>
      m.act (.group g.1 { g.2 with started := some (g.2.started.getD fc) })))
  | none => none

/-- GRAPH_NODE_START (R283). -/
def execGraphNodeStart (gi : BitVec 6) (node : Nat) (s : State) : Out :=
  ran ((begin_ true s).nodeStart gi node (fun m => m.stepNodeStart gi node))

end Sys2Proof.Machine
end

