-- ==== Sys2Proof/Machine/Quant.lean ====
section
/-! DEFINITION. The block quantiser (R79–R81, R91) and the QUANT words (R92–R95). -/

namespace Sys2Proof.Machine

/-- Twice the magnitude of an E2M1 code (R79). -/
def e2m1Twice (c : Nat) : Nat := match c % 8 with | 0 => 0 | 1 => 1 | 2 => 2 | 3 => 3 | 4 => 4 | 5 => 6 | 6 => 8 | _ => 12

/-- The value of a UE8M0 byte, as an exponent (R80). -/
def ue8m0 (e : Nat) : Option Int := if e = 255 then none else some ((e : Int) - 127)

/-- A finite value times 2^e; others stay. -/
def FVal.scale (v : FVal) (e : Int) : FVal := match v with | .fin n m x => .fin n m (x + e) | v => v

/-- Element c (4 bits) of a block of SCALE and SPARE, decoded (R81). -/
def e2m1sValue (scale spare c : Nat) : FVal :=
  match ue8m0 scale with
  | none => .nan false
  | some e =>
    if c % 16 = 8 then (val e4m3 spare).scale e
    else .fin (8 ≤ c % 16) (e2m1Twice c) (e - 1)

/-- A value in units of 2^q, as a magnitude. -/
def magAt (q : Int) (v : FVal) : Nat := (unitsAt q v).natAbs

/-- The least integer e with a magnitude amax × 2^q at most 6 × 2^e, within −127 to 127 (R91, step 2). -/
def blockExp (amax : Nat) (q : Int) : Int :=
  if amax = 0 then -127
  else
    let t := (Nat.log2 amax : Int) + q - 3
    let fits (e : Int) : Bool := decide (amax * 2 ^ (q - e).toNat ≤ 6 * 2 ^ (e - q).toNat)
    let e := if fits t then t else if fits (t + 1) then t + 1 else t + 2
    max (-127) (min 127 e)

/-- The code nearest a magnitude in units of 2^u, u at most −1, ties to the even code (R79, R91 step 3). -/
def e2m1Nearest (m : Nat) (u : Nat) : Nat :=
  let grid (c : Nat) : Nat := e2m1Twice c * 2 ^ (u - 1)
  let dist (c : Nat) : Nat := if m ≤ grid c then grid c - m else m - grid c
  (List.range 8).foldl (fun b c => if dist c < dist b ∨ (dist c = dist b ∧ c % 2 = 0) then c else b) 0

/-- A block: SCALE, SPARE and the 32 element codes. -/
structure Block where
  scale : Nat
  spare : Nat
  elems : List Nat
  deriving DecidableEq, Repr

/-- The block of 32 values (R91), with its flags. -/
def quantBlock (xs : List FVal) : Block × FFlags :=
  if xs.any (fun x => x.isNan || x.isInf) then ({ scale := 255, spare := 0, elems := List.replicate 32 0 }, flagNV)
  else
    let q := min (lowExp xs) (-300)
    let amax := (xs.map (magAt q)).foldl Nat.max 0
    let e := blockExp amax q
    -- y in units of 2^-u
    let u : Nat := (e - q).toNat
    let ys := xs.map (fun x => (x.neg, magAt q x))
    let code (y : Bool × Nat) : Nat := let c := e2m1Nearest y.2 u; if c ≠ 0 ∧ y.1 then 8 + c else c
    let codes := ys.map code
    let valueOf (c : Nat) : Int := let n : Int := ((e2m1Twice c * 2 ^ (u - 1) : Nat) : Int); if 8 ≤ c then -n else n
    let signed (y : Bool × Nat) : Int := if y.1 then -(y.2 : Int) else y.2
    let errs := (ys.zip codes).map (fun p => (signed p.1 - valueOf p.2).natAbs)
    let worst := errs.foldl Nat.max 0
    let j := (errs.findIdx? (· == worst)).getD 0
    let yj := ys.getD j (false, 0)
    let sp0 := (roundFin e4m3 .rne false yj.1 yj.2 (-(u : Int))).bits
    let sp := if sp0 = 0x80 then 0 else sp0
    let spv := unitsAt (-(u : Int)) (val e4m3 sp)
    let final := (ys.zip (codes.zip errs)).map (fun p => if (signed p.1 - spv).natAbs < p.2.2 then 8 else p.2.1)
    let decoded (c : Nat) : Int := if c = 8 then spv else valueOf c
    let inexact := (ys.zip final).any (fun p => signed p.1 != decoded p.2)
    ({ scale := (e + 127).toNat, spare := sp, elems := final }, flagIf inexact flagNX)

/-- The 144 bits of a block (R81). -/
def Block.bits (b : Block) : Nat :=
  (List.range 32).foldl (fun n i => n + (b.elems.getD i 0 % 16) * 2 ^ (4 * i)) 0 + b.scale * 2 ^ 128 + b.spare * 2 ^ 136
/-- Element i of the 144 bits of a block, decoded (R81). -/
def blockElem (blk i : Nat) : FVal := e2m1sValue (bits blk 135 128) (bits blk 143 136) (blk / 2 ^ (4 * i) % 16)

/-- Element i of the sources of qblk: type 0 FP32, 1 FP16, 2 BF16 (R93). -/
def qblkSource (r : Src) (l a x i : Nat) : FVal :=
  if x = 0 then fval (r l (a + i)) else val (if x = 1 then fp16 else bf16) (half (r l (a + i / 2)) (i % 2))

/-- Results to consecutive registers of one lane. -/
def Sim.writeRange {k : Bool} {s0 : State} (m : Sim k s0) (l d : Nat) (ws : List Word) (lat : Nat) : Sim k s0 :=
  (ws.zip (List.range ws.length)).foldl (fun m w => m.writeReg l (d + w.2) w.1 lat) m

/-- qblk (R93). -/
def execQblk (c : Bool) (g : Guard) (d a : Reg) (x : BitVec 2) (s : State) : Out :=
  issueWord (.qblk c g d a x) s (fun lanes r m =>
    let q (l : Nat) := quantBlock ((List.range 32).map (qblkSource r l a.toNat x.toNat))
    (m.each lanes (fun m l =>
      let b := (q l).1.bits
      m.writeRange l d.toNat ((List.range 4).map (fun j => BitVec.ofNat 32 (b / 2 ^ (32 * j))) ++
        [BitVec.ofNat 32 (b / 2 ^ 128 % 65536)]) 16)).raise lanes (fun l => (q l).2))

/-- dqblk (R94). -/
def execDqblk (c : Bool) (g : Guard) (d a : Reg) (x : BitVec 2) (s : State) : Out :=
  issueWord (.dqblk c g d a x) s (fun lanes r m =>
    let fmt := if x = 0 then fp32 else if x = 1 then fp16 else bf16
    let out (l : Nat) : List FRes :=
      let blk := ((List.range 5).map (fun j => (r l (a.toNat + j)).toNat * 2 ^ (32 * j))).foldl (· + ·) 0
      (List.range 32).map (fun i => roundVal fmt .rne false (blockElem blk i))
    let words (rs : List FRes) : List Word :=
      if x = 0 then rs.map FRes.word
      else (List.range 16).map (fun j =>
        BitVec.ofNat 32 ((rs.getD (2 * j) ⟨0, 0⟩).bits + 65536 * (rs.getD (2 * j + 1) ⟨0, 0⟩).bits))
    (m.each lanes (fun m l => m.writeRange l d.toNat (words (out l)) 8)).raise lanes
      (fun l => (out l).foldl (fun f q => f ||| q.flags) 0))

/-- A byte of qfp8: the exact product rounded with saturation (R95). -/
def qfp8Byte (f : Fmt) (mode : RMode) (x s : FVal) : FRes :=
  let (v, nv) := mulVal x s
  let sig := x.signalling || s.signalling
  (roundVal f mode true v).invalid (nv || sig)

/-- qfp8 (R95). -/
def execQfp8 (c : Bool) (g : Guard) (d a : Reg) (x : BitVec 2) (s : State) : Out :=
  issueWord (.qfp8 c g d a x) s (fun lanes r m =>
    let f := if x.getLsbD 0 then e5m2 else e4m3
    let at_ (l i : Nat) := r l (a.toNat + i)
    let out (l : Nat) : List FRes := (List.range 4).map (fun i =>
      qfp8Byte f (if x.getLsbD 1 then .rs 8 ((at_ l 5).toNat / 2 ^ (8 * i) % 256) else .rne)
        (fval (at_ l i)) (fval (at_ l 4)))
    m.writeF lanes d (fun l =>
      ((BitVec.ofNat 32 (((out l).zip (List.range 4)).foldl (fun n p => n + p.1.bits * 2 ^ (8 * p.2)) 0)),
       (out l).foldl (fun fl q => fl ||| q.flags) 0)))

end Sys2Proof.Machine
end

