-- ==== Sys2Proof/Machine/Mma.lean ====
section
/-! DEFINITION. The matrix sequencer (R285–R306): format words and parameter blocks, operand fetch, gates, seeded
sparsity, products by the sum order of R89, drains and zeroing. -/

namespace Sys2Proof.Machine

variable {k : Bool} {s0 : State}

/-! ## Formats, headers and blocks (R290–R293) -/

/-- An operand format (R290): 0 FP16, 1 BF16, 2 E4M3, 3 E5M2. -/
def operandFmt (n : Nat) : Fmt := match n with | 0 => fp16 | 1 => bf16 | 2 => e4m3 | _ => e5m2

/-- An operand header (R292). -/
structure OpHeader where
  loc : Bool
  fem : Nat
  fl : Bool
  sparse : Bool
  kg0 : Nat
  rg0 : Nat
  addr : Nat
  stride : Nat
  scale : Word
  seed : Nat
  deriving DecidableEq, Repr

/-- The header whose first word is word o of a block. -/
def opHeader (ws : List Word) (o : Nat) : OpHeader :=
  let w0 := (wordAt ws o).toNat
  { loc := bits w0 0 0 == 1, fem := bits w0 2 1, fl := bits w0 3 3 == 1, sparse := bits w0 4 4 == 1
    kg0 := bits w0 15 5, rg0 := bits w0 31 16
    addr := (wordAt ws (o + 1)).toNat + 2 ^ 32 * (wordAt ws (o + 2)).toNat, stride := (wordAt ws (o + 3)).toNat
    scale := wordAt ws (o + 4), seed := (wordAt ws (o + 5)).toNat }

/-- Whether a header breaks R292, for a format, as A or B. -/
def OpHeader.bad (h : OpHeader) (fmt : Nat) (isB : Bool) : Bool :=
  let sp := isB && h.sparse
  (h.sparse && (!isB || 4 ≤ fmt)) || (!sp && (h.seed != 0 || h.rg0 != 0 || h.kg0 != 0)) ||
  (fmt < 4 && ((fval h.scale).isNan || (fval h.scale).isInf)) || (h.loc && 2 ^ 32 ≤ h.addr) ||
  (if h.loc then h.fem == 3 else h.fem != 0)

/-- A product as its format word and block give it (R290, R291). -/
structure Product where
  af : Nat
  bf : Nat
  zero : Bool
  acc : Nat
  mt : Nat
  nt : Nat
  steps : Nat
  gate : Option Nat
  a : OpHeader
  b : OpHeader
  deriving DecidableEq, Repr

/-- The words of a parameter block. -/
def blockWords (block : List Byte) : List Word := (List.range 32).map (fun i => bytesWord ((block.drop (4 * i)).take 4))

/-- The product of a format word and a block. -/
def productOf (ctl : Word) (block : List Byte) : Product :=
  let ws := blockWords block
  let w0 := (wordAt ws 0).toNat
  { af := bits ctl.toNat 31 29, bf := bits ctl.toNat 28 26, zero := ctl.getLsbD 25, acc := bits ctl.toNat 24 19
    mt := bits w0 3 0, nt := bits w0 7 4, steps := bits w0 18 8 + 1
    gate := if bits w0 19 19 = 1 then some (wordAt ws 13).toNat else none, a := opHeader ws 1, b := opHeader ws 7 }

/-- Whether a format word is MALFORMED (R290). -/
def formatBad (ctl : Word) : Bool :=
  let a := bits ctl.toNat 31 29
  let b := bits ctl.toNat 28 26
  bits ctl.toNat 18 12 != 0 ||
  !((a == 0 && b == 0) || (a == 1 && b == 1) || ((a == 2 || a == 3) && (b == 2 || b == 3)) || (a == 4 && b == 4))

/-- Whether a block is MALFORMED (R291, R292). -/
def blockBad (ctl : Word) (block : List Byte) : Bool :=
  let p := productOf ctl block
  let ws := blockWords block
  (ws.drop 14).any (· != 0) || bits (wordAt ws 0).toNat 31 20 != 0 || p.a.bad p.af false || p.b.bad p.bf true ||
  64 < p.acc + (p.mt + 1) * (p.nt + 1) || (match p.gate with | some g => g % 16 != 0 | none => false)

/-- Bytes of a row of an operand (R293). -/
def rowBytes (fmt steps : Nat) (sparse : Bool) : Nat :=
  let n := if sparse then 16 * steps else 32 * steps
  if fmt = 4 then 18 * steps else if fmt ≤ 1 then 2 * n else n

/-- Rows of A and of B. -/
def Product.m (p : Product) : Nat := 16 * (p.mt + 1)
/-- Rows of B. -/
def Product.n (p : Product) : Nat := 16 * (p.nt + 1)
/-- Bytes of a row of A. -/
def Product.aBytes (p : Product) : Nat := rowBytes p.af p.steps false
/-- Bytes of a row of B. -/
def Product.bBytes (p : Product) : Nat := rowBytes p.bf p.steps p.b.sparse
/-- The address of row r of an operand. -/
def OpHeader.row (h : OpHeader) (r : Nat) : Nat := h.addr + r * h.stride

/-! ## Receipt (R289, R294, R299) -/

/-- The answers of translation or allocation to the rows of an operand. -/
def State.rowAnswers (s : State) (wg : Nat) (owner : Tag) (h : OpHeader) (rows len : Nat) : List Xlat :=
  (List.range rows).map (fun r =>
    if h.loc then (if h.row r + len ≤ (s.wg wg).localSize then .ok (localLoc wg (h.row r)) 0 0 0 else .refused)
    else s.translateRange owner false .read (BitVec.ofNat 64 (h.row r)) len)

/-- The STATUS of a product at receipt, 0 when it may run; none while a page fault is serviced (R294, R299). -/
def State.productStatus (s : State) (wi : Nat) (ctl : Word) (block : List Byte) : Option Nat :=
  let wg := (s.warp wi).wg
  let owner := s.ownerOf wi
  if formatBad ctl then some 1
  else if (s.wg wg).localSize < 128 * bits ctl.toNat 11 0 + 128 then some 2
  else if blockBad ctl block then some 1
  else
    let p := productOf ctl block
    let xs := s.rowAnswers wg owner p.a p.m p.aBytes ++ s.rowAnswers wg owner p.b p.n p.bBytes
    let gate := match p.gate with
      | some g => g + p.m ≤ 2 ^ 27 && s.loaded owner && s.marketOwned owner g p.m
      | none => true
    if !gate || xs.any (fun x => x == .refused) then some 2
    else if xs.any (fun x => match x with | .ok .. => false | _ => true) then none
    else some 0

/-- The pages that the generic rows of an operand touch, by the place of each page. -/
def State.rowPages (s : State) (owner : Tag) (h : OpHeader) (rows len : Nat) : List Nat :=
  if h.loc then [] else
    ((List.range rows).flatMap (fun r => (pagesOf (h.row r) len).filterMap (fun p =>
      match s.translate owner false .read (pageStart (h.row r) p) with
      | .ok _ page _ _ => some page
      | _ => none))).eraseDups

/-- The STATUS of a drain word (R302–R305). -/
def State.drainStatus (s : State) (wi : Nat) (regs : Bool) (ctl : Word) (args : List Word) : Nat :=
  let w := ctl.toNat
  let nt := bits w 13 10
  let mt := bits w 9 6
  let size := match bits w 16 14 with | 0 => 4 | 1 | 2 => 2 | _ => 1
  if bits w 31 21 != 0 || 4 < bits w 16 14 || 64 < bits w 5 0 + (mt + 1) * (nt + 1) ||
     (regs && (bits w 20 20 != 0 || nt != 0 || mt != 0)) then 1
  else if !regs && (List.range (16 * (mt + 1))).any (fun r =>
      (s.wg (s.warp wi).wg).localSize < (wordAt args 0).toNat + r * (wordAt args 1).toNat + size * 16 * (nt + 1)) then 2
  else 0

/-- The STATUS of an mzero word (R305). -/
def zeroStatus (ctl : Word) : Nat :=
  if bits ctl.toNat 31 12 != 0 || 63 < bits ctl.toNat 5 0 + bits ctl.toNat 11 6 then 1 else 0

/-- The nominal time of an operation from receipt (R300, R301). -/
def mopTime (what : MopWhat) (ctl : Word) (block : List Byte) : Nat :=
  match what with
  | .drainLocal => 40 + 16 * (bits ctl.toNat 9 6 + 1) * (bits ctl.toNat 13 10 + 1)
  | .product =>
    let p := productOf ctl block
    let rate := (if p.af ≤ 1 then 1024 else if p.af ≤ 3 then 2048 else 4096) * (if p.b.sparse then 2 else 1)
    40 + (p.m * p.n * 32 * p.steps + rate - 1) / rate
  | _ => 40

/-- Whether every access that a thread of S issued before its own mma, and every store that it may have read, has been
performed at dev scope (R211, R289). -/
def State.mopClear (s : State) (wi : Nat) (src : MopFrom) : Bool :=
  match src with
  | .mma lanes ops => (lanesOf lanes).all (fun l =>
      let own := (ops.find? (fun id => (s.op? id).any (fun o => o.lanes.any (fun x => x.lane == l)))).getD (ops.headD 0)
      s.performedBefore wi l own 3 && !s.relHolds wi l own)
  | _ => true

/-- The parameter block of an operation (R289). -/
def State.blockBytes (s : State) (wi : Nat) (ctl : Word) : List Byte :=
  s.bytes (localLoc (s.warp wi).wg (128 * bits ctl.toNat 11 0)) 128

/-- An operation received at the end of its sequencer's line (R286). A product copies its block at receipt, or
once every earlier access of its threads has been performed (R289). -/
def Sim.receive (m : Sim k s0) (wi : Nat) (what : MopWhat) (src : MopFrom) (ctl : Word) (args : List Word) : Sim k s0 :=
  let status := match what with
    | .product => 0
    | .drainLocal => m.now.drainStatus wi false ctl args
    | .drainRegs => m.now.drainStatus wi true ctl args
    | .zero => zeroStatus ctl
  let p : Mop :=
    { id := m.now.nextId, sched := m.now.schedOf wi, warp := wi, what := what, src := src, ctl := ctl, args := args
      block := if what = .product ∧ m.now.mopClear wi src then m.now.blockBytes wi ctl else []
      status := status, taken := [], done := [], gates := [], seen := [], before := [], waits := what == .product
      pins := [], due := m.now.ac + mopTime what ctl [] }
  m.fresh.act (.mops (m.now.mops ++ [p]))

/-- A matrix operation changed. -/
def Sim.modMop (m : Sim k s0) (id : Nat) (f : Mop → Mop) : Sim k s0 :=
  m.act (.mops (m.now.mops.map (fun p => if p.id = id then f p else p)))
/-- The matrix operation of a number. -/
def State.mop? (s : State) (id : Nat) : Option Mop := s.mops.find? (fun p => p.id == id)
/-- Whether an operation is the next of its sequencer (R286). -/
def State.heads (s : State) (p : Mop) : Bool := (s.mops.find? (fun q => q.sched == p.sched)).any (fun q => q.id == p.id)

/-- A product that waits copies its block, takes its checks, and pins its pages once all translate and
the page-lock tables have room (R277, R289, R294, R299). -/
def Sim.resolve (m : Sim k s0) (id : Nat) : Sim k s0 :=
  match m.now.mop? id with
  | none => m
  | some p =>
    if !p.waits || !m.now.mopClear p.warp p.src || (m.now.gang (m.now.gangOf p.warp)).state == GangState.saved then m
    else
      let owner := m.now.ownerOf p.warp
      let block := if p.block.isEmpty then m.now.blockBytes p.warp p.ctl else p.block
      match m.now.productStatus p.warp p.ctl block with
      | none => m.modMop id (fun p => { p with block := block })
      | some st =>
        let q := productOf p.ctl block
        let pages := if st = 0 then
            (m.now.rowPages owner q.a q.m q.aBytes ++ m.now.rowPages owner q.b q.n q.bBytes).eraseDups else []
        let ac := m.now.ac
        if !m.now.pinRoom pages then m.modMop id (fun p => { p with block := block }) else
        (m.modMop id (fun p => { p with block := block, status := st, waits := false, pins := pages
                                        due := ac + mopTime .product p.ctl block })).pinAll pages true

/-! ## Elements (R293, R298) -/

/-- One step of the pattern generator's selection: a position taken from the list. -/
def pickPositions : Nat → Nat → List Nat → List Nat
  | 0, _, _ => []
  | n + 1, h, l => let c := l.length; l.getD (h % c) 0 :: pickPositions n (h / c) (l.eraseIdx (h % c))

/-- The positions chosen in a k-group (R298). -/
def pattern (seed rg kg : Nat) : List Nat :=
  let x := BitVec.ofNat 32 seed ^^^ BitVec.ofNat 32 (rg * 0x9E3779B9) ^^^ BitVec.ofNat 32 (kg * 0x85EBCA6B)
  let x := x ^^^ (x >>> 16)
  let x := x * 0x7FEB352D#32
  let x := x ^^^ (x >>> 15)
  let x := x * 0x846CA68B#32
  let x := x ^^^ (x >>> 16)
  pickPositions 4 x.toNat (List.range 8)

/-- An element's encoding, a subnormal of an FP8 format flushed where the header says so (R85, R292). -/
def flushBits (f : Fmt) (fl : Bool) (x : Nat) : Nat :=
  if fl && bits x (f.eb + f.mb - 1) f.mb == 0 then x / 2 ^ (f.eb + f.mb) * 2 ^ (f.eb + f.mb) else x

/-- Element e of the bytes of a row, with its scale (R293). -/
def rowElem (fmt : Nat) (h : OpHeader) (row : List Byte) (e : Nat) : FVal :=
  if fmt = 4 then blockElem (leNat ((row.drop (18 * (e / 32))).take 18)) (e % 32)
  else
    let n := if fmt ≤ 1 then 2 else 1
    let x := leNat ((row.drop (n * e)).take n)
    (mulVal (val (operandFmt fmt) (flushBits (operandFmt fmt) (h.fl && 2 ≤ fmt) x)) (fval h.scale)).1

/-- The value at position p of row r of B; none where the pattern does not choose it (R298). -/
def sparseElem (fmt : Nat) (h : OpHeader) (row : List Byte) (r p : Nat) : Option FVal :=
  if h.sparse then
    let ch := pattern h.seed (h.rg0 + r / 16) (4 * (h.kg0 + p / 32) + p % 32 / 8)
    if ch.contains (p % 8) then some (rowElem fmt h row (4 * (p / 8) + (ch.filter (· < p % 8)).length)) else none
  else some (rowElem fmt h row p)

/-! ## The sum order of R89 -/

/-- Neighbouring values added. -/
def sumPairs : List Word → List Word
  | a :: b :: r => addR a b :: sumPairs r
  | l => l

/-- One K-step accumulated. -/
def kStep (acc : Word) (a : List FVal) (b : List (Option FVal)) : Word :=
  let p := (a.zip b).map (fun x => match x.2 with
    | some y => (roundVal fp32 .rne false (mulVal x.1 y).1).word
    | none => 0)
  addR acc ((sumPairs (sumPairs (sumPairs (sumPairs (sumPairs p))))).headD 0)

/-- Every K-step of an output element. -/
def kSteps : Nat → Word → List FVal → List (Option FVal) → Word
  | 0, acc, _, _ => acc
  | n + 1, acc, a, b => kSteps n (kStep acc (a.take 32) (b.take 32)) (a.drop 32) (b.drop 32)

/-! ## Row groups (R295–R297) -/

/-- The places of a row of an operand. -/
def State.rowLocs (s : State) (wg : Nat) (owner : Tag) (h : OpHeader) (r len : Nat) : List Nat :=
  if h.loc then (List.range len).map (fun i => localLoc wg (h.row r) + i)
  else s.placesOf owner false .read (BitVec.ofNat 64 (h.row r)) len

/-- The units, granules or lines, of places that an operation has not read yet. -/
def Mop.unread (p : Mop) (loc : Bool) (locs : List Nat) : List Nat :=
  ((locs.filter (fun q => (Keyed.find p.seen q).isNone)).map (fun q => if loc then q / 16 else q / 128)).eraseDups

/-- The state of the gate of row r (R296): 0 CLOSED, 1 OPEN, 2 SKIP. -/
def State.gateOf (s : State) (p : Product) (r : Nat) : BitVec 2 :=
  match p.gate with
  | none => 1
  | some g => let x := (s.byte (marketLoc (g + r))).extractLsb' 0 2; if x = 3 then 0 else x

/-- The open rows of a row group. -/
def State.openRows (s : State) (p : Product) (i : Nat) : List Nat :=
  ((List.range 16).map (· + 16 * i)).filter (fun r => s.gateOf p r == 1)

/-- The rows of a taken group whose gates were open. -/
def Mop.openRows (q : Mop) (i : Nat) : List Nat := ((List.range 16).map (· + 16 * i)).filter (fun r => q.gates.any (fun g => g.1 == r && g.2 == 1))

/-- What a taken row group reads: of A its open rows, of B every row; nothing where no row is open. -/
def State.takeLocs (s : State) (q : Mop) (i : Nat) : List Nat × List Nat :=
  let p := productOf q.ctl q.block
  let wg := (s.warp q.warp).wg
  let owner := s.ownerOf q.warp
  let rows := q.openRows i
  if rows.isEmpty then ([], [])
  else (rows.flatMap (fun r => s.rowLocs wg owner p.a r p.aBytes),
        (List.range p.n).flatMap (fun r => s.rowLocs wg owner p.b r p.bBytes))

/-- Whether row group i of a product is ready (R296): none of its gates is CLOSED. -/
def State.groupReady (s : State) (p : Product) (i : Nat) : Bool := (List.range 16).all (fun r => s.gateOf p (16 * i + r) != 0)

/-- Whether the sequencer may take row group i now (R286, R297). -/
def State.takes (s : State) (q : Mop) (i : Nat) : Bool :=
  let p := productOf q.ctl q.block
  q.what == .product && !q.waits && s.heads q && (q.status == 0 || q.status == 4) && i ≤ p.mt && !q.taken.contains i && s.groupReady p i

/-- The granules of A and of B that a taken row group has still to read, and the lines. -/
def State.toRead (s : State) (q : Mop) (i : Nat) : List Nat × List Nat × List Nat :=
  let p := productOf q.ctl q.block
  let l := s.takeLocs q i
  let a := q.unread p.a.loc l.1
  let b := q.unread p.b.loc l.2
  (if p.a.loc then a else [], if p.b.loc then b else [], ((if p.a.loc then [] else a) ++ (if p.b.loc then [] else b)).eraseDups)

/-- Whether a granule may be read now (R174, R295): one of an operand that waits must be FULL. -/
def State.granuleReady (s : State) (p : Product) (a b : List Nat) (g : Nat) : Bool :=
  s.full g || !((p.a.fem != 0 && a.contains g) || (p.b.fem != 0 && b.contains g))

/-- Whether everything that a taken row group has still to read may be read now. -/
def State.readable (s : State) (q : Mop) (i : Nat) : Bool :=
  let r := s.toRead q i
  (r.1 ++ r.2.1).all (s.granuleReady (productOf q.ctl q.block) r.1 r.2.1)

/-- The bytes of units read: of granules or lines. -/
def State.unitBytes (s : State) (loc : Bool) (us : List Nat) : List (Nat × Byte) :=
  let n := if loc then 16 else 128
  us.flatMap (fun u => (List.range n).map (fun i => (u * n + i, s.byte (u * n + i))))

/-- The bytes of a row as the operation has read them. -/
def Mop.rowData (q : Mop) (locs : List Nat) : List Byte := locs.map (fun p => (Keyed.find q.seen p).getD 0)

/-- A row group taken (R297): its gates are read, and later changes to them have no effect. -/
def Sim.takeGroup (m : Sim k s0) (q : Mop) (i : Nat) : Sim k s0 :=
  let s := m.now
  let p := productOf q.ctl q.block
  m.modMop q.id (fun x =>
    { x with taken := x.taken ++ [i], gates := x.gates ++ (List.range 16).map (fun r => (16 * i + r, s.gateOf p (16 * i + r))) })

/-- The units of a taken row group read, each once (R294, R295): those granules whose FE condition holds, made EMPTY where an
operand says wait-clear, and the lines. -/
def Sim.readUnits (m : Sim k s0) (q : Mop) (i : Nat) : Sim k s0 :=
  let p := productOf q.ctl q.block
  let r := m.now.toRead q i
  let gs := ((r.1 ++ r.2.1).eraseDups).filter (m.now.granuleReady p r.1 r.2.1)
  let places := r.2.2.map (128 * ·)
  let m := (m.countLines q.warp places).askDevice places
  let s := m.now
  let failed := places.any (s.lineFault (s.ownerOf q.warp))
  let seen := s.unitBytes true gs ++ s.unitBytes false r.2.2
  let m := m.each gs (fun m g =>
    m.when ((p.a.fem == 2 && r.1.contains g) || (p.b.fem == 2 && r.2.1.contains g)) (fun m => m.act (.fe g false)))
  m.modMop q.id (fun x => { x with seen := x.seen ++ seen, status := if failed then 4 else x.status })

/-- The open rows of a row group computed, once all that it reads has been read (R299). DEDUCED (log 48). -/
def Sim.computeGroup (m : Sim k s0) (q : Mop) (i : Nat) : Sim k s0 :=
  let s := m.now
  let p := productOf q.ctl q.block
  let wg := (s.warp q.warp).wg
  let owner := s.ownerOf q.warp
  let rows := q.openRows i
  let key (r c : Nat) : Nat := tileKey q.sched (p.acc + r / 16 * (p.nt + 1) + c / 16) (r % 16) (c % 16)
  let bs := (List.range p.n).map (fun c =>
    let row := q.rowData (s.rowLocs wg owner p.b c p.bBytes)
    (List.range (32 * p.steps)).map (sparseElem p.bf p.b row c))
  let old := rows.flatMap (fun r => (List.range p.n).map (fun c => (key r c, s.tile (key r c))))
  let m := m.each rows (fun m r =>
    let row := q.rowData (s.rowLocs wg owner p.a r p.aBytes)
    let a := (List.range (32 * p.steps)).map (rowElem p.af p.a row)
    m.each (bs.zip (List.range p.n)) (fun m b =>
      m.act (.tile (key r b.2) (kSteps p.steps (if p.zero then 0 else s.tile (key r b.2)) a b.1))))
  m.modMop q.id (fun x => { x with done := x.done ++ [i], before := x.before ++ old })

/-- Whether a row group has been taken and not computed yet. -/
def Mop.open_ (q : Mop) (i : Nat) : Bool := q.taken.contains i && !q.done.contains i

/-- A change of the operation of a number, as it stands now. -/
def Sim.onMop (m : Sim k s0) (id : Nat) (f : Sim k s0 → Mop → Sim k s0) : Sim k s0 :=
  match m.now.mop? id with
  | some q => f m q
  | none => m

/-- ROW_GROUP_TAKE (R295, R297): a product that waits is checked again; the group is taken when it is ready; what of a taken
group may be read is read, and it is computed once all of it is. -/
def execRowGroupTake (mop i : Nat) (s : State) : Out :=
  let m := (begin_ true s).resolve mop
  let m := m.onMop mop (fun m q => if m.now.takes q i then m.takeGroup q i else m)
  let m := m.onMop mop (fun m q => if q.open_ i then m.readUnits q i else m)
  ran (m.onMop mop (fun m q =>
    if q.open_ i && (let r := m.now.toRead q i; (r.1 ++ r.2.1).isEmpty && r.2.2.isEmpty) then m.computeGroup q i else m))

/-! ## Completion (R299, R302–R306) -/

/-- A drained accumulator converted into OFMT (R302). -/
def drainBits (ctl : Word) (w : Word) : Nat :=
  let f := match bits ctl.toNat 16 14 with | 0 => fp32 | 1 => fp16 | 2 => bf16 | 3 => e4m3 | _ => e5m2
  let r := (roundVal f .rne (ctl.getLsbD 18) (fval w)).bits
  flushBits f (ctl.getLsbD 17 && 3 ≤ bits ctl.toNat 16 14) r

/-- Bytes of an element of OFMT. -/
def drainSize (ctl : Word) : Nat := match bits ctl.toNat 16 14 with | 0 => 4 | 1 | 2 => 2 | _ => 1

/-- mdrain to core-local memory (R304). -/
def Sim.drainLocal (m : Sim k s0) (q : Mop) : Sim k s0 :=
  let ctl := q.ctl
  let nt := bits ctl.toNat 13 10
  let rows := 16 * (bits ctl.toNat 9 6 + 1)
  let cols := 16 * (nt + 1)
  let key (r c : Nat) : Nat := tileKey q.sched (bits ctl.toNat 5 0 + r / 16 * (nt + 1) + c / 16) (r % 16) (c % 16)
  let wg := (m.now.warp q.warp).wg
  let base (r : Nat) : Nat := localLoc wg ((wordAt q.args 0).toNat + r * (wordAt q.args 1).toNat)
  let size := drainSize ctl
  let data (r : Nat) : List Byte := (List.range cols).flatMap (fun c => leBytes size (drainBits ctl (m.now.tile (key r c))))
  let m := m.each ((List.range rows).map (fun r => (base r, data r))) (fun m x => m.store x.1 x.2)
  let m := m.when (ctl.getLsbD 19) (fun m => m.each (List.range rows) (fun m r =>
    m.each (List.range cols) (fun m c => m.act (.tile (key r c) 0))))
  m.when (ctl.getLsbD 20) (fun m => m.each (List.range rows) (fun m r =>
    m.each (unitsOf 4 (base r) (size * cols)) (fun m g => m.act (.fe g true))))

/-- The words that mdrain.r gives a lane (R303). -/
def State.fragment (s : State) (q : Mop) (l : Nat) : List Word :=
  let n := match drainSize q.ctl with | 4 => 8 | 2 => 4 | _ => 2
  let per := 8 / n
  let size := drainSize q.ctl
  (List.range n).map (fun i => bytesWord ((List.range per).flatMap (fun j =>
    leBytes size (drainBits q.ctl (s.tile (tileKey q.sched (bits q.ctl.toNat 5 0) (l / 2) (8 * (l % 2) + per * i + j)))))))

/-- mdrain to registers (R303): the registers of the operation's lanes. -/
def Sim.drainRegs (m : Sim k s0) (q : Mop) (lanes : List Nat) (d : Nat) : Sim k s0 × List RegWrite :=
  let ws := lanes.flatMap (fun l =>
    let f := m.now.fragment q l
    (f.zip (List.range f.length)).map (fun x => ({ lane := l, reg := d + x.2, value := x.1 } : RegWrite)))
  let m := m.when (q.ctl.getLsbD 19) (fun m => m.each lanes (fun m l => m.each (List.range 8) (fun m c =>
    m.act (.tile (tileKey q.sched (bits q.ctl.toNat 5 0) (l / 2) (8 * (l % 2) + c)) 0))))
  (m, ws)

/-- mzero (R305). -/
def Sim.zeroTiles (m : Sim k s0) (q : Mop) : Sim k s0 :=
  let first := bits q.ctl.toNat 5 0
  m.act (.clearTiles (tileKey q.sched first 0 0) (tileKey q.sched (first + bits q.ctl.toNat 11 6 + 1) 0 0))

/-- The rows of a product that are not SKIP read NaN after an uncorrectable error (R299). -/
def Sim.nanRows (m : Sim k s0) (q : Mop) : Sim k s0 :=
  let p := productOf q.ctl q.block
  m.each (q.gates.filter (fun g => g.2 == 1)) (fun m g => m.each (List.range p.n) (fun m c =>
    m.act (.tile (tileKey q.sched (p.acc + g.1 / 16 * (p.nt + 1) + c / 16) (g.1 % 16) (c % 16)) 0x7FC00000)))

/-- Whether an operation may complete now. -/
def State.completes (s : State) (q : Mop) : Bool :=
  s.heads q && !q.waits && q.due ≤ s.ac && (s.gang (s.gangOf q.warp)).state != GangState.saved &&
  (q.what != .product || q.status == 1 || q.status == 2 || (productOf q.ctl q.block).mt < q.done.length)

/-- The outcome of an operation written, with the registers that an mdrain.r writes and the bytes that a drain writes. -/
def Sim.outcome (m : Sim k s0) (q : Mop) : Sim k s0 × List RegWrite × Nat :=
  let op := match q.src with | .word id => m.now.op? id | _ => none
  match q.what with
  | .product => (m.when (q.status == 4) (fun m => m.nanRows q), [], 0)
  | .zero => (m.when (q.status == 0) (fun m => m.zeroTiles q), [], 0)
  | .drainLocal =>
    (m.when (q.status == 0) (fun m => m.drainLocal q), [],
     if q.status = 0 then drainSize q.ctl * 256 * (bits q.ctl.toNat 9 6 + 1) * (bits q.ctl.toNat 13 10 + 1) else 0)
  | .drainRegs =>
    match op with
    | some o =>
      if q.status = 0 then
        let d := match o.ins with | .mdrainR _ _ _ d _ => d.toNat | _ => 0
        let r := m.drainRegs q (o.lanes.map (·.lane)) d
        (r.1, r.2, 0)
      else (m, [], 0)
    | none => (m, [], 0)

/-- MATRIX_OP_COMPLETE (R299, R305, R306): the outcome is written, pages are unpinned, the flags count down, and a STATUS
other than OK is reported. -/
def execMatrixOpComplete (mop : Nat) (s : State) : Out :=
  let m := begin_ true s
  match s.mop? mop with
  | none => ran m
  | some q =>
    if !s.completes q then ran m
    else
      let (m, writes, bytes) := m.outcome q
      let m := m.act (.mops (m.now.mops.filter (fun p => p.id != mop)))
      let m := m.pinAll q.pins false
      let p := productOf q.ctl q.block
      let m := m.when (q.what == .product && q.status == 0) (fun m =>
        m.count q.sched 0x201 (m.now.ownerOf q.warp) (p.m * p.n * 32 * p.steps / 1024))
      let lanesOfOp (id : Nat) : List Nat := (m.now.op? id).elim [] (fun o => o.lanes.map (·.lane))
      let pcOf (id : Nat) : DWord := (m.now.op? id).elim 0 Op.wordAddr
      match q.src with
      | .cmd id =>
        ran (m.decide_ id q.status bytes (if q.what = .product then q.taken.length else 0)
          ((q.gates.filter (fun g => g.2 == 2)).length))
      | .word id =>
        let lanes := lanesOfOp id
        let pc := pcOf id
        ran ((m.finishOp id writes).when (q.status != 0) (fun m => m.engineFault q.warp lanes q.status 2 0 pc))
      | .mma lanes ops =>
        let pc := pcOf (ops.headD 0)
        let m := m.each ops (fun m id => m.finishLanes id (lanesOf lanes))
        ran (m.when (q.status != 0) (fun m => m.engineFault q.warp (lanesOf lanes) q.status 2 0 pc))

/-! ## mma (R288, R289) -/

/-- Lanes whose false guard takes them past an mma (R289). A pass is forgotten when every lane of its own mask has
passed or ended with none arrived: that operation has no thread. -/
def Warp.pass (w : Warp) (pc : DWord) (pos : Nat) (ls : List (Nat × Word)) : Warp :=
  let keep := w.passed.filter (fun (p : DWord × Nat × Nat) => !(p.1 == pc && p.2.1 == pos && ls.any (fun (x : Nat × Word) => x.1 == p.2.2)))
  let w := { w with passed := ls.map (fun (x : Nat × Word) => (pc, pos, x.1)) ++ keep }
  let empty (mask : Word) : Bool := (lanesOf mask).all (fun j => (w.thread j).life != .live || w.hasPassed pc pos j)
  let gone := ls.filter (fun x => empty x.2)
  let keep := w.passed.filter (fun (p : DWord × Nat × Nat) => !(p.1 == pc && p.2.1 == pos && gone.any (fun (x : Nat × Word) => laneBit x.2 p.2.2)))
  { w with passed := keep }

/-- Passes forgotten. -/
def Warp.unpass (w : Warp) (p : DWord × Nat × Nat → Bool) : Warp := { w with passed := w.passed.filter (fun x => !p x) }

/-- mma (R288, R289): the group's flag is counted, the threads whose guard is true arrive, the others pass. -/
def execMma (c : Bool) (g : Guard) (fs : Bool) (mask a : Reg) (s : State) : Out :=
  let i := Instr.mma c g fs mask a
  let r := issueWord i s (fun lanes src m =>
    let m := m.launchOp i .engine (lanes.map (fun l => engineLane l)) 1
    let m := m.arrival i lanes src mask (fun l => src l a.toNat) (fun _ => 0) 7
    let u := m.now.cur
    m.modWarp u.warp (fun w => w.unpass (fun p => p.1 == u.pc && p.2.1 == u.pos && lanes.contains p.2.2)))
  match r with
  | .next t =>
    let u := s.cur
    let off := u.lanes.filter (fun l => !guardTrue (some g) (u.thread l) && !u.traps.any (fun x => x.1 == l))
    let w := t.warp u.warp
    let eff (l : Nat) : Word :=
      let (v, live) := memberMask (fun l code => readReg w.quota (u.thread l) code) l mask
      if live then w.live else (v ||| BitVec.ofNat 32 (2 ^ l)) &&& w.held
    ran ((begin_ false t).modWarp u.warp (fun w => w.pass u.pc u.pos (off.map (fun l => (l, eff l)))))
  | other => other

/-- Whether a number is that of an operation or entry of the chain of an arrival. -/
def Arrival.inChain (a : Arrival) (pc : DWord) (o : Op) : Bool := o.pc == pc && a.first ≤ o.id

/-- A queue without the words that a lane has pushed from a number on. -/
def Binding.unpushed (b : Binding) (origin : Nat × Nat) (l from_ : Nat) : Binding :=
  let cut (e : QEntry) : QEntry :=
    if e.origin == origin && from_ ≤ e.id then
      { e with mask := e.mask &&& ~~~ BitVec.ofNat 32 (2 ^ l), words := e.words.set l 0 } else e
  let gone (e : QEntry) : Bool := e.origin == origin && from_ ≤ e.id && e.mask == 0
  { b with hw := (b.hw.map cut).filter (fun e => !gone e)
           ring := (b.ring.map (fun p => (p.1, cut p.2))).filter (fun p => !gone p.2) }

/-- The chain of an mma whose vote differs takes no effect in a lane (R361): its registers, predicates, lk and mt are those of
before the chain, its other words of the chain are not performed, and what they pushed is gone. DEDUCED (log 21). -/
def Sim.undoChain (m : Sim k s0) (wi l : Nat) (a : Arrival) : Sim k s0 :=
  let m := m.modThread wi l (fun t => { t with regs := a.before.regs, preds := a.before.preds, lk := a.before.lk, mt := a.before.mt })
  let ids := (m.now.ops.filter (fun o => o.warp == wi && a.inChain a.pc o)).map (·.id)
  let m := m.each ids (fun m id => (m.modOp id (fun o =>
    { o with lanes := o.lanes.map (fun x => if x.lane == l && !x.final then { x with state := .dead } else x)
             writes := o.writes.filter (fun w => w.lane != l) })).settle id)
  let peers := (m.now.warp wi).queues.filterMap (fun q => if q.2.kind = 7 then (m.now.peerOf wi q.2).map (fun t => (q.1, t)) else none)
  let m := m.modWarp wi (fun w => { w with queues := w.queues.map (fun q =>
    if pushSide q.2.kind then (q.1, q.2.unpushed (wi, q.1) l a.first) else q) })
  m.each peers (fun m p => m.modWarp p.2.1 (fun w => { w with queues := w.queues.map (fun q =>
    if q.1 = p.2.2 then (q.1, q.2.unpushed (wi, p.1) l a.first) else q) }))

/-- An mma performed (R289): received by the sequencer when every thread of S offers one word, and otherwise a
FORMAT_DIVERGENCE of every thread of S, with nothing of its chain done and each flag counted down again (R361). -/
def Sim.performMma (m : Sim k s0) (wi : Nat) (a : Arrival) (lanes : List Nat) : Sim k s0 :=
  let w := m.now.warp wi
  let word (l : Nat) : Word := (w.arrival l).elim 0 (·.src)
  let first := word (lanes.headD 0)
  let mine := (m.now.ops.filter (fun o => o.warp == wi && o.pc == a.pc && o.pos == a.pos &&
    (match o.ins with | .mma .. => true | _ => false) && o.lanes.any (fun x => lanes.contains x.lane && !x.final) &&
    !m.now.mops.any (fun p => match p.src with
      | .mma ls ops => p.warp == wi && ops.contains o.id && lanes.any (laneBit ls)
      | _ => false))).map (·.id)
  let mask := w.effective (lanes.headD 0) a
  let m := m.modWarp wi (fun w => w.unpass (fun p => p.1 == a.pc && p.2.1 == a.pos && laneBit mask p.2.2))
  if lanes.all (fun l => word l == first) then
    (m.receive wi .product (.mma (maskOf lanes) mine) first []).release wi lanes
  else
    let tv := maskOf (lanes.filter (fun l => word l != first))
    let m := m.each mine (fun m id => m.finishLanes id lanes)
    let m := m.each lanes (fun m l => match w.arrival l with | some b => m.undoChain wi l b | none => m)
    m.each lanes (fun m l =>
      let t := m.now.thread wi l
      let start := ((packetChains t.line ((packetIx t.pc).getD 0)).find? (fun ch => ch.any (fun u => u.wpos == t.pos))).bind
        (fun ch => (ch.head?).map (·.pos))
      m.takeTrap wi l t { cause := 0x06, tval := tv, epc := t.pc + BitVec.ofNat 64 (4 * (start.getD t.pos - 1))
                          pc := t.wordAddr, lanes := maskOf lanes })

/-! ## mdrain, mzero and MATRIX commands (R301, R306) -/

/-- A word that the sequencer receives at issue, once per group, with the sources of its lowest lane. -/
def drainWord (i : Instr) (what : MopWhat) (a : Reg) (s : State) : Out :=
  issueWord i s (fun lanes src m =>
    let l := lanes.headD 0
    let id := m.now.nextId
    let m := m.launchOp i .engine (lanes.map (fun l => engineLane l)) 1
    m.receive m.now.cur.warp what (.word id) (src l a.toNat)
      (if what = .drainLocal then [src l (a.toNat + 1), src l (a.toNat + 2)] else []))

/-- mdrain.l. -/
def execMdrainL (c : Bool) (g : Guard) (fs : Bool) (a : Reg) (s : State) : Out := drainWord (.mdrainL c g fs a) .drainLocal a s
/-- mdrain.r. -/
def execMdrainR (c : Bool) (g : Guard) (fs : Bool) (d a : Reg) (s : State) : Out := drainWord (.mdrainR c g fs d a) .drainRegs a s
/-- mzero. -/
def execMzero (c : Bool) (g : Guard) (fs : Bool) (a : Reg) (s : State) : Out := drainWord (.mzero c g fs a) .zero a s

/-- A MATRIX command handed to the sequencer (R306); MALFORMED is decided at once. -/
def Sim.matrixCmd (m : Sim k s0) (cmd : Nat) (what : MopWhat) : Sim k s0 :=
  match m.now.cmd? cmd with
  | none => m
  | some c =>
    let w0 := (wordAt c.words 0).toNat
    let need : Word := if what = .drainLocal then 15 else 3
    let op := match what with | .product => 0 | .drainLocal => 1 | _ => 2
    if c.port != 2 || c.status.isSome || bits w0 31 28 != op ||
       m.now.mops.any (fun p => p.src == .cmd cmd) then m
    else if bits w0 27 23 != 0 || bits w0 21 20 != 0 || c.mask &&& need != need then m.decide_ cmd 1 0 0 0
    else m.receive c.warp what (.cmd cmd) (wordAt c.words 1) [wordAt c.words 2, wordAt c.words 3]

/-- MATRIX_MMA. -/
def execMatrixMma (cmd : Nat) (s : State) : Out := ran ((begin_ true s).matrixCmd cmd .product)
/-- MATRIX_DRAIN. -/
def execMatrixDrain (cmd : Nat) (s : State) : Out := ran ((begin_ true s).matrixCmd cmd .drainLocal)
/-- MATRIX_ZERO. -/
def execMatrixZero (cmd : Nat) (s : State) : Out := ran ((begin_ true s).matrixCmd cmd .zero)

end Sys2Proof.Machine
end

