-- ==== Sys2Proof/Machine/Coll.lean ====
section
/-! DEFINITION. The collectives (R156–R164): each word arrives; the operation is performed when every lane of its mask
is accounted for. -/

namespace Sys2Proof.Machine

variable {k : Bool} {s0 : State}

/-! ## Arrival -/

/-- A collective word: its threads offer V[A] or P[pA], and V[D] for shfl. -/
def collWord (i : Instr) (mask : Reg) (a ctl : Option Reg) (pa : Nat) (s : State) : Out :=
  issueWord i s (fun lanes src m =>
    m.arrival i lanes src mask (fun l => a.elim 0 (fun r => src l r.toNat)) (fun l => ctl.elim 0 (fun r => src l r.toNat)) pa)

/-- voteAnd. -/
def execVoteAnd (c : Bool) (p pa : BitVec 3) (m : Reg) (s : State) : Out := collWord (.voteAnd c p pa m) m none none pa.toNat s
/-- voteOr. -/
def execVoteOr (c : Bool) (p pa : BitVec 3) (m : Reg) (s : State) : Out := collWord (.voteOr c p pa m) m none none pa.toNat s
/-- voteSame. -/
def execVoteSame (c : Bool) (p pa : BitVec 3) (m : Reg) (s : State) : Out := collWord (.voteSame c p pa m) m none none pa.toNat s
/-- ballot. -/
def execBallot (c : Bool) (d : Reg) (pa : BitVec 3) (m : Reg) (s : State) : Out := collWord (.ballot c d pa m) m none none pa.toNat s
/-- shflLane. -/
def execShflLane (c : Bool) (d a m : Reg) (s : State) : Out := collWord (.shflLane c d a m) m (some a) (some d) 7 s
/-- shflRot. -/
def execShflRot (c : Bool) (d a m : Reg) (s : State) : Out := collWord (.shflRot c d a m) m (some a) (some d) 7 s
/-- shflOff. -/
def execShflOff (c : Bool) (d a m : Reg) (s : State) : Out := collWord (.shflOff c d a m) m (some a) (some d) 7 s
/-- shflSwap. -/
def execShflSwap (c : Bool) (d a m : Reg) (s : State) : Out := collWord (.shflSwap c d a m) m (some a) (some d) 7 s
/-- gredAdd. -/
def execGredAdd (c : Bool) (d a m : Reg) (s : State) : Out := collWord (.gredAdd c d a m) m (some a) none 7 s
/-- gredMin. -/
def execGredMin (c : Bool) (d a m : Reg) (s : State) : Out := collWord (.gredMin c d a m) m (some a) none 7 s
/-- gredMax. -/
def execGredMax (c : Bool) (d a m : Reg) (s : State) : Out := collWord (.gredMax c d a m) m (some a) none 7 s
/-- gredArgmin. -/
def execGredArgmin (c : Bool) (d a m : Reg) (s : State) : Out := collWord (.gredArgmin c d a m) m (some a) none 7 s
/-- gredArgmax. -/
def execGredArgmax (c : Bool) (d a m : Reg) (s : State) : Out := collWord (.gredArgmax c d a m) m (some a) none 7 s
/-- gscan. -/
def execGscan (c : Bool) (d a m : Reg) (s : State) : Out := collWord (.gscan c d a m) m (some a) none 7 s
/-- matchEq. -/
def execMatchEq (c : Bool) (d a m : Reg) (s : State) : Out := collWord (.matchEq c d a m) m (some a) none 7 s
/-- regq. -/
def execRegq (c : Bool) (d a m : Reg) (s : State) : Out := collWord (.regq c d a m) m (some a) none 7 s
/-- prio. -/
def execPrio (c : Bool) (d a m : Reg) (s : State) : Out := collWord (.prio c d a m) m (some a) none 7 s
/-- elect. -/
def execElect (c : Bool) (p : BitVec 3) (m : Reg) (s : State) : Out := collWord (.elect c p m) m none none 7 s

/-! ## Values (R158–R161) -/

/-- What an operation reads: the values of the lanes of S, each read at its own thread's issue. -/
structure Offered where
  lanes : List Nat
  src : Nat → Word
  ctl : Nat → Word
  pred : Nat → Bool
  fpen : Nat → BitVec 5

/-- The source lane of a shfl for thread t (R159); t itself where it lies outside the warp or S. -/
def Offered.from_ (o : Offered) (t : Nat) (s : Int) : Nat :=
  if 0 ≤ s ∧ s < 32 ∧ o.lanes.contains s.toNat then s.toNat else t

/-- The least or greatest signed value of S and the lowest lane that holds it (R160). -/
def Offered.extreme (o : Offered) (max_ : Bool) : Word × Nat :=
  match o.lanes with
  | [] => (0, 0)
  | l :: ls => ls.foldl (fun b j =>
      if (if max_ then b.1.slt (o.src j) else (o.src j).slt b.1) then (o.src j, j) else b) (o.src l, l)

/-- A sum of two present or absent values with its flags (R161). -/
def addOpt (a b : Option (Word × FFlags)) : Option (Word × FFlags) :=
  match a, b with
  | some x, some y => let r := addF fp32 .rne (fval x.1) (fval y.1); some (r.word, x.2 ||| y.2 ||| r.flags)
  | some x, none => some x
  | none, y => y

/-- One level of the tree of R161. -/
def addLevel : List (Option (Word × FFlags)) → List (Option (Word × FFlags))
  | a :: b :: r => addOpt a b :: addLevel r
  | l => l

/-- gred.add (R161). -/
def Offered.total (o : Offered) : Word × FFlags :=
  let q : List (Option (Word × FFlags)) := (List.range 32).map (fun i => if o.lanes.contains i then some (o.src i, 0) else none)
  (((addLevel (addLevel (addLevel (addLevel (addLevel q))))).headD none).getD (0, 0))

/-- The result of gred.add as it is written: a NaN is canonical (R77, R161). -/
def canonWord (w : Word) : Word := if (fval w).isNan then 0x7FC00000 else w

/-- gscan (R161): the prefix sums in ascending lane order, and the flags that the whole operation raises. -/
def Offered.scan (o : Offered) : List (Nat × Word) × FFlags :=
  match o.lanes with
  | [] => ([], 0)
  | l :: ls =>
    let r := ls.foldl (fun (acc : List (Nat × Word) × Word × FFlags) j =>
      let x := addF fp32 .rne (fval acc.2.1) (fval (o.src j))
      (acc.1 ++ [(j, x.word)], x.word, acc.2.2 ||| x.flags)) ([(l, o.src l)], o.src l, 0)
    (r.1, r.2.2)

/-! ## regq and prio (R162, R164) -/

/-- The warp of a workgroup with a number, if it has not ended. -/
def State.mateOf (s : State) (wi n : Nat) : Option Nat :=
  (s.wg (s.warp wi).wg).warps.find? (fun i => (s.warp i).num == n && !(s.warp i).ended)

/-- Free warp registers of a scheduler (R140). -/
def State.freeRegs (s : State) (sc : Nat) : Nat :=
  1024 - ((s.warps.filter (fun w => w.2.resident && !w.2.ended && 4 * w.2.core + w.2.sched == sc)).map (·.2.quota)).foldl (· + ·) 0

/-- The reason for which a regq moves nothing; 0 when it succeeds (R162). -/
def State.regqReason (s : State) (wi : Nat) (y : Word) : Nat :=
  let n := bits y.toNat 15 8
  match s.mateOf wi (bits y.toNat 4 0) with
  | none => 1
  | some j =>
    if j = wi then 1
    else if n % 8 ≠ 0 ∨ n < 8 ∨ 80 < n then 2
    else if (s.warp wi).quota < n + 32 then 3
    else if 112 < (s.warp j).quota + n then 4
    else if s.schedOf j ≠ s.schedOf wi ∧ s.freeRegs (s.schedOf j) < n then 5
    else 0

/-- Whether a long-latency result bound for a register from lo to hi of a warp is still to be written. -/
def State.resultsDue (s : State) (wi lo hi : Nat) : Bool :=
  s.ops.any (fun o => o.warp == wi &&
    (o.writes.any (fun w => lo ≤ w.reg && w.reg ≤ hi) ||
     (o.lanes.any (fun x => !x.final) && ((shapeOf o.ins).writes.any (fun r => lo ≤ r && r ≤ hi)))))

/-- The issue ac of a gathered operation: the latest of its threads, which issued in acs of their own.
DESIGN CHOICE (log 86). -/
def Warp.issuedAt (w : Warp) (lanes : List Nat) : Nat := maxOf (lanes.map (fun l => (w.thread l).lastIssue))

/-- Whether a regq of some lanes of a warp may be performed now (R162): no result is due for the registers that it gives up,
and no earlier regq of the core waits, of this warp or another. DEDUCED (log 49). -/
def State.regqMay (s : State) (wi : Nat) (y : Word) (lanes : List Nat) : Bool :=
  let w := s.warp wi
  let n := bits y.toNat 15 8
  let at_ := w.issuedAt lanes
  !(s.regqReason wi y == 0 && s.resultsDue wi (w.quota - n) (w.quota - 1)) &&
  !s.warps.any (fun v => v.2.core == w.core && v.2.gathered.any (fun g =>
    match g.1.ins with
    | .regq .. =>
      let b := v.2.issuedAt g.2
      !(v.1 == wi && g.2 == lanes) &&
      (b < at_ || (b == at_ && (v.2.sched < w.sched || (v.2.sched == w.sched && v.2.slot < w.slot))))
    | _ => false))

/-- A thread whose quota falls to a number: what is in flight to the registers that it loses lands later, if at all. -/
def Thread.lower (t : Thread) (quota ac : Nat) : Thread :=
  let gone := t.regs.filter (fun r => quota ≤ r.1 && ac ≤ Cells.get 0 t.busy r.1)
  { t with late := gone.map (fun r => (r.1, Cells.get 0 t.busy r.1, r.2)) ++ t.late }

/-- A thread whose quota rises: the registers granted read zero, but for results that are written from now on (R162,
R163). -/
def Thread.grant (t : Thread) (quota n ac : Nat) : Thread :=
  let (now, keep) := t.late.partition (fun r => quota ≤ r.1 && r.1 < quota + n && ac ≤ r.2.1)
  { t with regs := now.foldr (fun r m => Cells.set 0 m r.1 r.2.2) (Cells.clear t.regs quota (quota + n))
           late := keep }

/-- regq performed (R162): the quota moves, and the registers granted read zero. DEDUCED (log 49). -/
def Sim.moveQuota (m : Sim k s0) (wi : Nat) (y : Word) : Sim k s0 :=
  let n := bits y.toNat 15 8
  match m.now.mateOf wi (bits y.toNat 4 0) with
  | none => m
  | some j =>
    if m.now.regqReason wi y ≠ 0 then m
    else
      let ac := m.now.ac
      let m := m.modWarp wi (fun w =>
        { w with quota := w.quota - n, threads := w.threads.map (fun t => t.lower (w.quota - n) ac) })
      m.modWarp j (fun w =>
        { w with quota := w.quota + n, threads := w.threads.map (fun t => t.grant w.quota n ac) })

/-- prio performed (R164). -/
def Sim.passToken (m : Sim k s0) (wi n : Nat) : Sim k s0 :=
  let sc := m.now.schedOf wi
  let tok := (m.now.sched sc).token
  match m.now.mateOf wi n with
  | none => m
  | some j => m.when ((tok == none || tok == some wi) && m.now.schedOf j == sc) (fun m =>
      m.modSched sc (fun q => { q with token := some j }))

/-! ## Performing (R156) -/

/-- A register result of the threads of S. -/
def Sim.collReg (m : Sim k s0) (wi : Nat) (lanes : List Nat) (d : Reg) (f : Nat → Word) (lat : Nat) : Sim k s0 :=
  m.each lanes (fun m l => m.setResult wi l d.toNat (f l) lat)

/-- A predicate result of the threads of S. -/
def Sim.collPred (m : Sim k s0) (wi : Nat) (lanes : List Nat) (p : BitVec 3) (f : Nat → Bool) : Sim k s0 :=
  m.each lanes (fun m l => m.setPredResult wi l p.toNat (f l) 4)

/-- One operation performed: its results are written in the threads of S (R158–R164). -/
def Sim.perform (m : Sim k s0) (wi : Nat) (i : Instr) (o : Offered) : Sim k s0 :=
  let s := o.lanes
  let y := o.src (s.headD 0)
  match i with
  | .voteAnd _ p _ _ => m.collPred wi s p (fun _ => s.all o.pred)
  | .voteOr _ p _ _ => m.collPred wi s p (fun _ => s.any o.pred)
  | .voteSame _ p _ _ => m.collPred wi s p (fun _ => s.all o.pred || !s.any o.pred)
  | .ballot _ d _ _ => m.collReg wi s d (fun _ => maskOf (s.filter o.pred)) 4
  | .matchEq _ d _ _ => m.collReg wi s d (fun t => maskOf (s.filter (fun j => o.src j == o.src t))) 6
  | .elect _ p _ => m.collPred wi s p (fun t => t == s.headD 0)
  | .shflLane _ d _ _ => m.collReg wi s d (fun t => o.src (o.from_ t ((o.ctl t).toNat % 64))) 6
  | .shflRot _ d _ _ => m.collReg wi s d (fun t => o.src (o.from_ t ((t + (o.ctl t).toNat % 32) % 32))) 6
  | .shflOff _ d _ _ => m.collReg wi s d (fun t => o.src (o.from_ t (t + ((o.ctl t).extractLsb' 0 6).toInt))) 6
  | .shflSwap _ d _ _ => m.collReg wi s d (fun t => o.src (o.from_ t (Nat.xor t ((o.ctl t).toNat % 32)))) 6
  | .gredAdd _ d _ _ => (m.collReg wi s d (fun _ => canonWord o.total.1) 10).raiseAll wi s o.fpen o.total.2
  | .gredMin _ d _ _ => m.collReg wi s d (fun _ => (o.extreme false).1) 10
  | .gredMax _ d _ _ => m.collReg wi s d (fun _ => (o.extreme true).1) 10
  | .gredArgmin _ d _ _ =>
    (m.collReg wi s d (fun _ => (o.extreme false).1) 10).collReg wi s (d + 1) (fun _ => BitVec.ofNat 32 (o.extreme false).2) 10
  | .gredArgmax _ d _ _ =>
    (m.collReg wi s d (fun _ => (o.extreme true).1) 10).collReg wi s (d + 1) (fun _ => BitVec.ofNat 32 (o.extreme true).2) 10
  | .gscan _ d _ _ =>
    (m.collReg wi s d (fun t => canonWord ((Keyed.find o.scan.1 t).getD 0)) 10).raiseAll wi s o.fpen o.scan.2
  | .regq _ d _ _ =>
    let r := m.now.regqReason wi y
    let m := m.moveQuota wi y
    let q := (m.now.warp wi).quota
    m.collReg wi s d (fun _ => BitVec.ofNat 32 (r * 256 + q)) 16
  | .prio _ d _ _ =>
    let m := m.passToken wi (bits y.toNat 4 0)
    let v := m.now.prtok wi
    m.collReg wi s d (fun _ => v) 4
  | _ => m

/-- COLLECTIVE_PERFORM (R156): every operation of the warp that is ready is performed, and its threads go on. An mma is
received by its sequencer (R289). A regq that has waited for results is judged anew when the wait ends.
DESIGN CHOICE (log 86). -/
def execCollectivePerform (wi : Nat) (s : State) : Out :=
  let w := s.warp wi
  let m := begin_ true s
  ran (m.each w.gathered (fun m g =>
    let at_ (l : Nat) : Option Arrival := w.arrival l
    let o : Offered :=
      { lanes := g.2, src := fun l => (at_ l).elim 0 (·.src), ctl := fun l => (at_ l).elim 0 (·.ctl)
        pred := fun l => (at_ l).elim false (·.pred), fpen := fun l => (at_ l).elim 0 (·.fpen) }
    match g.1.ins with
    | .mma .. => m.performMma wi g.1 g.2
    | .regq .. =>
      if m.now.regqMay wi (o.src (g.2.headD 0)) g.2 then
        (m.perform wi g.1.ins o).release wi g.2
      else m
    | i => (m.perform wi i o).release wi g.2))

end Sys2Proof.Machine
end

