-- ==== Sys2Proof/Machine/Queue.lean ====
section
/-! DEFINITION. qbind, qstat and qflush (R269–R272), and the movement of entries: refill from a ring (R266) and delivery
to a peer (R263). -/

namespace Sys2Proof.Machine

variable {k : Bool} {s0 : State}

/-! ## qbind (R270) -/

/-- qbnd of a warp (R260). -/
def Warp.qbnd (w : Warp) : Nat := (bitsOf 16 (fun i => (w.queue i).kind != 0)).toNat

/-- The pages of a ring, where every one translates to a writable DEV or UNBACKED page. -/
def State.ringPages (s : State) (owner : Tag) (base : DWord) (qs : Nat) : Option (List Nat) :=
  let xs := (pagesOf base.toNat (256 * qs)).map (fun p => s.translate owner false .write (pageStart base.toNat p))
  if xs.all (fun x => match x with | .ok _ _ pte _ => pteKind pte == 0 || pteKind pte == 3 | _ => false) then
    some ((xs.map (fun x => match x with | .ok _ page _ _ => page | _ => 0)).eraseDups)
  else none

/-- The STATUS of qbind, and the pages of its ring (R270). DEDUCED (log 35). -/
def State.qbindStatus (s : State) (wi : Nat) (desc : Word) (qs : Nat) (base : DWord) : Nat × List Nat :=
  let w := s.warp wi
  let d := desc.toNat
  let kind := bits d 31 28
  let eng := bits d 19 16
  let pwg := bits d 15 13
  let pwarp := bits d 12 8
  let ring := if qs = 0 then some [] else s.ringPages (s.ownerOf wi) base qs
  if (w.queue (bits d 27 24)).kind ≠ 0 then (1, [])
  else if kind = 0 ∨ 10 < kind then (2, [])
  else if bits d 23 20 ≠ 0 ∨ bits d 7 0 ≠ 0 ∨ (kind = 6 ∧ (eng = 0 ∨ 5 < eng)) ∨ (kind ≠ 6 ∧ kind ≠ 7 ∧ eng ≠ 0) ∨
          (kind ≠ 7 ∧ (pwg ≠ 0 ∨ pwarp ≠ 0)) then (3, [])
  else if kind = 7 ∧ (s.peerOf wi { Binding.none with pwg := pwg, pwarp := pwarp, preg := eng }).isNone then (4, [])
  else if 65536 < qs ∨ (kind = 7 ∧ qs ≠ 0) ∨ (qs ≠ 0 ∧ base.toNat % 256 ≠ 0) then (5, [])
  else match ring with
    | none => (6, [])
    | some pages =>
      if kind = 6 ∧ w.queues.any (fun q => q.2.kind == 6 && q.2.eng == eng) then (7, []) else (0, pages)

/-- qbind: once per group, with the sources of its lowest lane. -/
def execQbind (c : Bool) (g : Guard) (d a : Reg) (s : State) : Out :=
  issueWord (.qbind c g d a) s (fun lanes src m =>
    let wi := m.now.cur.warp
    let l := lanes.headD 0
    let desc := src l a.toNat
    let qs := (src l (a.toNat + 1)).toNat
    let base := src.pair l (a.toNat + 2)
    let (st, pages) := m.now.qbindStatus wi desc qs base
    let q := bits desc.toNat 27 24
    let b : Binding :=
      { kind := bits desc.toNat 31 28, eng := if bits desc.toNat 31 28 = 6 then bits desc.toNat 19 16 else 0
        pwg := bits desc.toNat 15 13, pwarp := bits desc.toNat 12 8
        preg := if bits desc.toNat 31 28 = 7 then bits desc.toNat 19 16 else 0
        qs := qs, base := base, hw := [], ring := [], nextK := 0, lost := false, pins := pages }
    let ac := m.now.ac
    let m := m.when (st == 0) (fun m => ((m.modWarp wi (fun w => w.setQueue q b)).pinAll pages true).each (List.range 32)
      (fun m l => m.modThread wi l (fun t => t.setBusy (112 + q) (ac + 8))))
    let r := BitVec.ofNat 32 (st * 2 ^ 28 + (m.now.warp wi).qbnd)
    m.writeAll lanes d (fun _ => r) 8)

/-! ## qstat (R271) -/

/-- Entries that a warp has pushed to a register and that have not been received (R272). -/
def State.unreceived (s : State) (wi q : Nat) : List QEntry :=
  let b := (s.warp wi).queue q
  if b.kind = 7 then
    match s.peerOf wi b with
    | some (ti, r) =>
      let t := (s.warp ti).queue r
      (t.hw ++ t.ring.map (·.2)).filter (fun e => e.origin == (wi, q) && !e.written)
    | none => []
  else b.hw ++ b.ring.map (·.2)

/-- Whether a pop of a register would be held. -/
def State.blockPop (s : State) (wi q : Nat) : Bool := popSide ((s.warp wi).queue q).kind && s.popHeld wi q

/-- The status word of a queue register (R271). -/
def State.queueStat (s : State) (wi q : Nat) : Word :=
  let b := (s.warp wi).queue q
  let f (x : Bool) (i : Nat) : Nat := if x then 2 ^ i else 0
  let push := pushSide b.kind
  BitVec.ofNat 32 (b.kind * 2 ^ 28 + f (b.kind == 7 && b.lost) 23 + f (b.qs != 0) 22 + f (s.blockPop wi q) 21 +
    f (push && (s.pushHeld wi q || s.pushFaults wi q)) 20 +
    (if popSide b.kind then b.total else if push then (s.unreceived wi q).length else 0) % 2 ^ 17)

/-- qstat; with a QNB prefix it also writes P[QP] := BLOCKPOP. -/
def execQstat (c : Bool) (g : Guard) (d a : Reg) (s : State) : Out :=
  issueWord (.qstat c g d a) s (fun lanes _ m =>
    let wi := m.now.cur.warp
    let q := a.toNat - 112
    let v := m.now.queueStat wi q
    let b := m.now.blockPop wi q
    let m := match qnbOf m.now.cur.pfx with
      | some p => m.each lanes (fun m l => m.writePred l p b 4)
      | none => m
    m.writeAll lanes d (fun _ => v))

/-! ## qflush (R272) -/

/-- A register becomes unbound and its ring pins are released. -/
def Sim.unbind (m : Sim k s0) (wi q : Nat) : Sim k s0 :=
  let b := (m.now.warp wi).queue q
  (m.pinAll b.pins false).modWarp wi (fun w => { w with queues := Keyed.del w.queues q })

/-- Whether the value of an entry of a warp's queue is already written (R272): an entry on its way to an INBOX was written as
long ago as its way takes (R263). -/
def State.entryWritten (s : State) (wi : Nat) (e : QEntry) : Bool :=
  if e.written then e.readyAt ≤ s.ac else e.readyAt != 0 && e.readyAt ≤ s.ac + s.peerDelay e.origin.1 wi

/-- qflush: a push side waits for its entries to be received; a pop side discards at issue. -/
def execQflush (c : Bool) (g : Guard) (fs : Bool) (d a : Reg) (unbind : Bool) (s : State) : Out :=
  let i := Instr.qflush c g fs d a unbind
  issueWord i s (fun lanes _ m =>
    let wi := m.now.cur.warp
    let q := a.toNat - 112
    let b := (m.now.warp wi).queue q
    let out (n : Nat) : List RegWrite := lanes.map (fun l => { lane := l, reg := d.toNat, value := BitVec.ofNat 32 n })
    if pushSide b.kind then
      m.launchOp i .engine (lanes.map (fun l => engineLane l)) 4 (out (m.now.unreceived wi q).length)
    else
      let ready (e : QEntry) : Bool := s.entryWritten wi e
      let gone := (b.hw ++ b.ring.map (·.2)).filter ready
      let m := m.when (popSide b.kind) (fun m => m.modWarp wi (fun w => w.setQueue q
        { b with hw := b.hw.filter (fun e => !ready e), ring := b.ring.filter (fun e => !ready e.2) }))
      let m := m.when unbind (fun m => m.unbind wi q)
      m.launchOp i .fixed [] 4 (out (if popSide b.kind then gone.length else 0)))

/-- A qflush of a push side completes when every entry pushed before it has been received. -/
def Sim.qflushDone (m : Sim k s0) (o : Op) : Sim k s0 :=
  match o.ins with
  | .qflush _ _ _ _ a unbind =>
    let q := a.toNat - 112
    if (m.now.unreceived o.warp q).any (fun e => e.id < o.id) then m
    else (m.finishOp o.id []).when unbind (fun m => m.unbind o.warp q)
  | _ => m

/-! ## Entries on the move -/

/-- A ring slot as memory holds it (R266): the mask and the words. -/
def State.readSlot (s : State) (owner : Tag) (b : Binding) (n : Nat) (e : QEntry) : QEntry :=
  match s.translate owner false .read (b.base + BitVec.ofNat 64 (256 * (n % b.qs))) with
  | .ok loc _ _ _ =>
    { e with words := (List.range 32).map (fun i => bytesWord (s.bytes (loc + 4 * i) 4)), mask := bytesWord (s.bytes (loc + 128) 4) }
  | _ => e

/-- AWNING_REFILL (R266): the oldest ring entry moves to the hardware when it has room. -/
def execAwningRefill (wi : Nat) (q : BitVec 4) (s : State) : Out :=
  let m := begin_ true s
  let b := (s.warp wi).queue q.toNat
  match b.ring with
  | (n, e) :: rest =>
    if b.hw.length < 8 then
      let e := if e.written && b.qs != 0 then s.readSlot (s.ownerOf wi) b n e else e
      ran (m.modWarp wi (fun w => w.setQueue q.toNat { b with hw := b.hw ++ [e], ring := rest }))
    else ran m
  | [] => ran m

/-- Whether a push to a peer is the release at gang scope that it must be (R211, R222): all that its threads issued before
it is performed there, and no release of theirs holds it. -/
def State.pushReleased (s : State) (e : QEntry) : Bool :=
  (lanesOf e.mask).all (fun l => s.performedBefore e.origin.1 l e.id 1 && !s.relHolds e.origin.1 l e.id)

/-- PEER_DELIVER (R211, R263): entries of an INBOX whose time has come are poppable. -/
def execPeerDeliver (wi : Nat) (q : BitVec 4) (s : State) : Out :=
  let m := begin_ true s
  let b := (s.warp wi).queue q.toNat
  let due (e : QEntry) : Bool := !e.written && e.readyAt != 0 && e.readyAt ≤ s.ac && s.pushReleased e
  let set (e : QEntry) : QEntry := if due e then { e with written := true } else e
  if b.kind ≠ 8 then ran m
  else
    let m := m.modWarp wi (fun w => w.setQueue q.toNat { b with hw := b.hw.map set, ring := b.ring.map (fun p => (p.1, set p.2)) })
    ran (m.each b.ring (fun m p => m.when (due p.2) (fun m => m.writeSlot wi b p.1 (set p.2))))

end Sys2Proof.Machine
end

