-- ==== Sys2Proof/Machine/Commands.lean ====
section
/-! DEFINITION. Commands pushed to engines: receipt and results (R273, R274, R267, R369), the copy engine (R275–R277,
R210), and the outbox (R445). -/

namespace Sys2Proof.Machine

variable {k : Bool} {s0 : State}

/-! ## Receipt (R273, R211) -/

/-- Whether an entry pushed toward the package's engines, or to the host, may be taken: its value is written, every access
before the push is performed at dev scope, and no release of its threads holds it (R211, R426, R445). -/
def State.taken_ (s : State) (wi : Nat) (e : QEntry) : Bool :=
  e.written && e.readyAt ≤ s.ac && (lanesOf e.mask).all (fun l => s.performedBefore wi l e.id 3 && !s.relHolds wi l e.id)

/-- Whether the entry at the head of a port may be received: its flag has room besides. -/
def State.receivable (s : State) (wi q : Nat) : Bool :=
  let b := (s.warp wi).queue q
  match b.hw with
  | e :: _ =>
    let f := bits (wordAt e.words 0).toNat 19 16
    1 ≤ b.kind && b.kind ≤ 5 && s.taken_ wi e &&
    !(f < 12 && (s.warp wi).flags.getD f 0 == 63)
  | [] => false

/-- The operation code of a command. -/
def Cmd.op (c : Cmd) : Nat := bits (wordAt c.words 0).toNat 31 28

/-- A MATRIX command goes to its sequencer at receipt, in order (R286, R306). -/
def Sim.toSequencer (m : Sim k s0) (c : Cmd) : Sim k s0 :=
  if c.port ≠ 2 ∨ c.status.isSome then m
  else match c.op with
    | 0 => m.matrixCmd c.id .product
    | 1 => m.matrixCmd c.id .drainLocal
    | 2 => m.matrixCmd c.id .zero
    | _ => m.decide_ c.id 1 0 0 0

/-! ## Results (R273, R274) -/

/-- The register of a warp bound RESULT for an engine. -/
def State.resultReg (s : State) (wi port : Nat) : Option Nat :=
  if (s.warp wi).ended then none
  else ((s.warp wi).queues.find? (fun q => q.2.kind == 6 && q.2.eng == port)).map (·.1)

/-- RES of a command. -/
def Cmd.res (c : Cmd) : Bool := bits (wordAt c.words 0).toNat 22 22 == 1
/-- TAG of a command. -/
def Cmd.tag (c : Cmd) : Nat := bits (wordAt c.words 0).toNat 15 0

/-- The words of a result entry. -/
def Cmd.resultWords (c : Cmd) : List Word :=
  [BitVec.ofNat 32 (c.status.getD 0 * 2 ^ 24 + c.port * 2 ^ 20 + c.extra0 % 2 ^ 20), BitVec.ofNat 32 c.tag,
   BitVec.ofNat 32 c.bytes, BitVec.ofNat 32 c.extra3] ++ List.replicate 28 0

/-- Whether a result may be posted: an earlier result of the same queue is not held, and the queue has room (R267). -/
def State.postable (s : State) (c : Cmd) : Bool :=
  c.status.isSome &&
  (match c.res, s.resultReg c.warp c.port with
   | true, some q =>
     let b := (s.warp c.warp).queue q
     b.total < 8 + b.qs &&
       ((s.cmds.filter (fun e => e.warp == c.warp && e.port == c.port && e.status.isSome && e.res)).head?.map (·.id)) == some c.id
   | _, _ => true)

/-- The flag of a command counted down, once (R212, R273). -/
def Sim.cmdFlag (m : Sim k s0) (c : Cmd) : Sim k s0 :=
  let ac := m.now.ac
  match c.flag with
  | some f => (m.modWarp c.warp (fun w => w.signal f ac)).modCmd c.id (fun c => { c with flag := none })
  | none => m

/-- RESULT_POST (R273, R274, R369): a command that is decided counts its flag down and posts its result, or its error as
an engine fault; its pins end (R277). -/
def execResultPost (cmd : Nat) (s : State) : Out :=
  let m := begin_ true s
  match s.cmd? cmd with
  | none => ran m
  | some c =>
    if c.status.isNone then ran m
    else
      let m := (m.pinAll c.pins false).modCmd cmd (fun c => { c with pins := [], owned := [] })
      let m := m.cmdFlag c
      if !m.now.postable c then ran m
      else
        let m := m.act (.cmds (m.now.cmds.filter (fun e => e.id != cmd)))
        match c.res, m.now.resultReg c.warp c.port with
        | true, some q =>
          let id := m.now.nextId
          let ac := m.now.ac
          ran (m.fresh.reserve c.warp q
            { id := id, origin := (c.warp, q), mask := 15, words := c.resultWords, written := true, readyAt := ac })
        | true, none => ran m
        | false, _ =>
          if c.status = some 0 then ran m
          else ran (m.engineFault c.warp (lanesOf c.mask) (c.status.getD 0) c.port c.tag 0)

/-! ## The copy engine (R275, R276) -/

/-- A copy or zero command as its lanes give it. -/
structure Copy where
  zero : Bool
  srcSp : Nat
  dstSp : Nat
  fe : Bool
  src : DWord
  dst : DWord
  rows : Nat
  len : Nat
  sstride : Word
  dstride : Word
  deriving DecidableEq, Repr

/-- The command of an entry; none where it is MALFORMED. -/
def copyOf (c : Cmd) : Option Copy :=
  let w (i : Nat) : Word := wordAt c.words i
  let w0 := (w 0).toNat
  let ssp := bits w0 27 26
  let dsp := bits w0 25 24
  let fe := bits w0 23 23 == 1
  if 1 < c.op ∨ bits w0 21 20 ≠ 0 ∨ c.mask &&& 0xFF ≠ 0xFF ∨ (fe = true ∧ dsp ≠ 1 ∧ dsp ≠ 2) ∨
     (c.op = 0 ∧ ssp ≠ 0 ∧ w 2 ≠ 0) ∨ (dsp ≠ 0 ∧ w 4 ≠ 0) then none
  else some
    { zero := c.op == 1, srcSp := ssp, dstSp := dsp, fe := fe, src := cat64 (w 2) (w 1), dst := cat64 (w 4) (w 3)
      rows := bits (w 5).toNat 31 17 + 1, len := bits (w 5).toNat 16 0 + 1, sstride := w 6, dstride := w 7 }

/-- The address of row r. -/
def rowAddr (base : DWord) (stride : Word) (r : Nat) : DWord := base + BitVec.ofNat 64 r * stride.signExtend 64

/-- The answer of the address checks to every row, as one of a list (R276). A workgroup whose gang has retired has no
core-local memory. -/
def State.rowChecks (s : State) (wi : Nat) (acc : Access) (sp : Nat) (base : DWord) (stride : Word) (rows len : Nat) : List Xlat :=
  if (sp = 1 ∨ sp = 2) ∧ (s.gang (s.gangOf wi)).state = .retired then [.refused]
  else (List.range rows).map (fun r => s.locate wi false acc sp (rowAddr base stride r) len)

/-- The places of row r. -/
def State.rowPlaces (s : State) (wi : Nat) (acc : Access) (sp : Nat) (base : DWord) (stride : Word) (len r : Nat) : List Nat :=
  let x := rowAddr base stride r
  match s.locate wi false acc sp x len with
  | .ok loc _ _ _ => if sp = 0 then s.placesOf (s.ownerOf wi) false acc x len else (List.range len).map (loc + ·)
  | _ => []

/-- The places of every row. -/
def State.allPlaces (s : State) (wi : Nat) (acc : Access) (sp : Nat) (base : DWord) (stride : Word) (rows len : Nat) : List Nat :=
  (List.range rows).flatMap (s.rowPlaces wi acc sp base stride len)

/-- Whether some answer keeps a command waiting for the MMP or the host. -/
def anyWaits (xs : List Xlat) : Bool := xs.any (fun x => match x with | .ok .. | .refused => false | _ => true)

/-- The pages of a destination that a command would charge, each once (R194). -/
def State.chargesOf (s : State) (wi : Nat) (sp : Nat) (base : DWord) (stride : Word) (rows len : Nat) : List (Nat × Nat × Bool) :=
  if sp ≠ 0 then []
  else ((List.range rows).flatMap (fun r => s.toCharge (s.ownerOf wi) (rowAddr base stride r) len)).eraseDups

/-- The pages of the generic rows of a command, by the place of each page's first byte. -/
def pagesOfPlaces (sp : Nat) (locs : List Nat) : List Nat :=
  if sp = 0 then ((locs.map (fun p => p - p % 65536)).eraseDups) else []

/-- The first part of a copy (R276): its checks, its charges and pins, and the ownership of its lines, which waits for a free
line (R210, R277, R294) and is the write that aborts regions (R254). -/
def Sim.copyBegin (m : Sim k s0) (c : Cmd) (d : Copy) : Sim k s0 :=
  let s := m.now
  let owner := s.ownerOf c.warp
  let srcs := if d.zero then [] else s.rowChecks c.warp .read d.srcSp d.src d.sstride d.rows d.len
  let dsts := s.rowChecks c.warp .write d.dstSp d.dst d.dstride d.rows d.len
  if (srcs ++ dsts).contains .refused then m.decide_ c.id 2 0 0 0
  else if anyWaits (srcs ++ dsts) then m
  else
    let ps := s.chargesOf c.warp d.dstSp d.dst d.dstride d.rows d.len
    if !s.unitsCover owner ps then
      if s.unitsWait owner ps then m else m.decide_ c.id 3 0 0 0
    else if d.dstSp = 0 ∧ (List.range d.rows).any (fun r => s.moving owner (rowAddr d.dst d.dstride r) d.len) then m
    else
      let tgt := s.allPlaces c.warp .write d.dstSp d.dst d.dstride d.rows d.len
      let frm := if d.zero then [] else s.allPlaces c.warp .read d.srcSp d.src d.sstride d.rows d.len
      let pins := (pagesOfPlaces d.srcSp frm ++ pagesOfPlaces d.dstSp tgt).eraseDups
      let lines := ((tgt.filter isGeneric).map lineOf).eraseDups
      if !s.pinRoom pins || !s.writable (some c.id) tgt || s.blockHolds c.id tgt then m
      else
        (((m.chargePages owner ps).pinAll pins true).conflict lines none).modCmd c.id (fun c =>
          { c with pins := pins, owned := lines, begun := true })

/-- One row moved: the number of its bytes that no error precedes. -/
def Sim.copyRow (m : Sim k s0) (c : Cmd) (d : Copy) (before : State) (r : Nat) : Sim k s0 × Nat :=
  let owner := m.now.ownerOf c.warp
  let tgt := m.now.rowPlaces c.warp .write d.dstSp d.dst d.dstride d.len r
  let frm := if d.zero then [] else m.now.rowPlaces c.warp .read d.srcSp d.src d.sstride d.len r
  let good := if d.zero then d.len else (frm.takeWhile (fun p => !m.now.lineFault owner p)).length
  let good := if m.now.writeFault owner (tgt.take good) then
      Nat.min good (tgt.takeWhile (fun p => !m.now.lineFault owner p)).length else good
  let data := if d.zero then List.replicate good 0 else (frm.take good).map before.byte
  (m.agentWrite owner (tgt.take good) data (told := true), good)

/-- The rows moved in order, until an error. Every byte reads the source as it was before the command, or, where the
choice takes it, with what the command has written so far (R276). -/
def Sim.copyRows (m : Sim k s0) (c : Cmd) (d : Copy) (early : Option State) : List Nat → Nat → Sim k s0 × Nat × Bool
  | [], n => (m, n, true)
  | r :: rs, n =>
    let x := m.copyRow c d (early.getD m.now) r
    if x.2 = d.len then Sim.copyRows x.1 c d early rs (n + x.2) else (x.1, n + x.2, false)

/-- FE bits set FULL: the destination granules all of whose written bytes are written (R276). -/
def Sim.copyFe (m : Sim k s0) (d : Copy) (tgt : List Nat) (n : Nat) : Sim k s0 :=
  if !d.fe then m
  else
    let left := (tgt.drop n).map granuleOf
    m.each (((tgt.take n).map granuleOf).eraseDups.filter (fun g => !left.contains g)) (fun m g => m.act (.fe g true))

/-- The lines that a command releases and at which its recall holds an access: each counts L2_RECALL (R210, R399). -/
def Sim.countRecalls (m : Sim k s0) (owned : List Nat) : Sim k s0 :=
  let s := m.now
  let held := s.ops.flatMap (fun o => if s.ac < o.due then [] else (o.lanes.filter (fun x => !x.final)).flatMap (fun x =>
    (s.laneLocs (s.ownerOf o.warp) x).map lineOf))
  m.each (owned.filter (fun n => held.contains n)) (fun m n =>
    let c := Cells.get CacheLine.absent s.l2 n
    m.countDie ((if c.held then c.home else homeIx n 0) / 80) 0x113 c.owner)

/-- The second part of a copy: the bytes are moved, and its lines released (R210, R276); refused where its owner's key has
been revoked meanwhile (R394). DEDUCED (log 47). -/
def Sim.copyMove (m : Sim k s0) (c : Cmd) (d : Copy) : Sim k s0 :=
  let s := m.now
  let srcs := if d.zero then [] else s.rowChecks c.warp .read d.srcSp d.src d.sstride d.rows d.len
  if (srcs ++ s.rowChecks c.warp .write d.dstSp d.dst d.dstride d.rows d.len).contains .refused then m.decide_ c.id 2 0 0 0
  else
  let tgt := s.allPlaces c.warp .write d.dstSp d.dst d.dstride d.rows d.len
  let early := if s.choice then none else some s
  let frm := if d.zero then [] else s.allPlaces c.warp .read d.srcSp d.src d.sstride d.rows d.len
  let r := (((m.countRecalls c.owned).countLines c.warp (frm ++ tgt)).chosen).copyRows c d early (List.range d.rows) 0
  let m := r.1.when (1024 ≤ r.2.1) (fun m => m.count (m.now.schedOf c.warp) 0x200 (m.now.ownerOf c.warp) (r.2.1 / 1024))
  (m.copyFe d tgt r.2.1).decide_ c.id (if r.2.2 then 0 else 4) r.2.1 0 0

/-- A command of the copy engine: it begins, and when it has begun it moves its bytes. -/
def Sim.copyCmd (m : Sim k s0) (cmd op : Nat) : Sim k s0 :=
  match m.now.cmd? cmd with
  | none => m
  | some c =>
    if c.port ≠ 1 ∨ c.status.isSome ∨ (c.op ≠ op ∧ ¬(op = 0 ∧ 1 < c.op)) then m
    else match copyOf c with
      | none => m.decide_ cmd 1 0 0 0
      | some d => if c.begun then m.copyMove c d else m.copyBegin c d

/-- COPY (R276). -/
def execCopy (cmd : Nat) (s : State) : Out := ran ((begin_ true s).copyCmd cmd 0)
/-- COPY_ZERO (R275). -/
def execCopyZero (cmd : Nat) (s : State) : Out := ran ((begin_ true s).copyCmd cmd 1)

/-! ## The outbox (R438, R445) -/

/-- An outbox entry. -/
def State.outEntry (s : State) (wi q : Nat) (e : QEntry) (n : Word) : List Byte :=
  let w := s.warp wi
  let g := s.wg w.wg
  let gang := s.gang g.gang
  (List.range 32).flatMap (fun i => wordBytes (wordAt e.words i)) ++ wordBytes e.mask ++
  leBytes 4 ((s.launchOf wi).id % 2 ^ 24) ++ leBytes 4 gang.index ++ leBytes 4 (g.wgid * 2 ^ 13 + w.num * 2 ^ 8 + q) ++
  wordBytes n ++ List.replicate 108 0

/-- Whether the entry at the head of an MBOUT queue may be written to the outbox ring. -/
def State.outReady (s : State) (wi q : Nat) : Bool :=
  let b := (s.warp wi).queue q
  match b.hw with
  | e :: _ =>
    b.kind == 9 && s.taken_ wi e &&
    !((s.box (2 + (s.launchOf wi).vf.toNat)).ring 3).full
  | [] => false

/-- OUTBOX_WRITE (R445). -/
def execOutboxWrite (wi : Nat) (q : BitVec 4) (s : State) : Out :=
  let m := begin_ true s
  if !s.outReady wi q.toNat then ran m
  else
    let f := 2 + (s.launchOf wi).vf.toNat
    let b := s.box f
    let m := m.act (.box f { b with outIndex := b.outIndex + 1 })
    let m := m.pushRing f 3 256 (s.outEntry wi q.toNat (s.headEntry wi q.toNat) b.outIndex)
    ran ((m.popEntry wi q.toNat).eventIrq f)

end Sys2Proof.Machine
end

