-- ==== Sys2Proof/Machine/Grinder.lean ====
section
/-! DEFINITION. The Grinder: dictionary descriptors and features (R337, R338), rules (R339–R341), tap operations and their
rows (R342–R345, R350), and the FEAT words (R348–R352). -/

namespace Sys2Proof.Machine

variable {k : Bool} {s0 : State}

/-! ## Reading (R189, R368) -/

/-- What a read of the Grinder meets: bytes, a refusal, an uncorrectable error, or a page that is serviced first. -/
inductive Got where
  | bytes (bs : List Byte)
  | refused | poisoned | waits
  deriving DecidableEq, Repr

/-- n bytes read under an owner. -/
def State.got (s : State) (owner : Tag) (va : DWord) (n : Nat) : Got :=
  if n = 0 then .bytes []
  else match s.translateRange owner false .read va n with
    | .ok .. =>
      let locs := s.placesOf owner false .read va n
      if locs.any (s.lineFault owner) then .poisoned else .bytes (locs.map s.byte)
    | .refused => .refused
    | _ => .waits

/-- The bytes read; none of them where there are none. -/
def Got.get (g : Got) : List Byte := match g with | .bytes bs => bs | _ => []

/-- The worst of several answers: a refusal, then a wait, then an error. -/
def worstGot (gs : List Got) : Option Got :=
  if gs.contains .refused then some .refused
  else if gs.contains .waits then some .waits
  else if gs.contains .poisoned then some .poisoned else none

/-- A 16-bit element of some bytes. -/
def elem16 (bs : List Byte) (i : Nat) : Nat := leNat ((bs.drop (2 * i)).take 2)

/-! ## Descriptors (R337) -/

/-- A dictionary descriptor. -/
structure Desc where
  xf : Fmt
  ef : Fmt
  layer : Nat
  tap : Nat
  d : Nat
  f : Nat
  e : DWord
  bias : DWord
  pre : DWord
  theta : DWord
  dec : DWord
  deriving DecidableEq, Repr

/-- The descriptor of 16 words; none where it is MALFORMED. -/
def descOf (ws : List Word) : Option Desc :=
  let w (i : Nat) : Nat := (wordAt ws i).toNat
  let a (i : Nat) : DWord := cat64 (wordAt ws (i + 1)) (wordAt ws i)
  if bits (w 0) 31 18 ≠ 0 ∨ bits (w 0) 7 6 ≠ 0 ∨ bits (w 1) 31 15 ≠ 0 ∨ bits (w 2) 31 20 ≠ 0 ∨ w 3 ≠ 0 ∨ w 14 ≠ 0 ∨ w 15 ≠ 0 then none
  else some
    { xf := if bits (w 0) 17 17 = 1 then bf16 else fp16, ef := if bits (w 0) 16 16 = 1 then bf16 else fp16
      layer := bits (w 0) 15 8, tap := bits (w 0) 5 0, d := bits (w 1) 14 0 + 1, f := bits (w 2) 19 0 + 1
      e := a 4, bias := a 6, pre := a 8, theta := a 10, dec := a 12 }

/-- The words of 64 bytes. -/
def wordsOf (bs : List Byte) (n : Nat) : List Word := (List.range n).map (imageWord bs)

/-- The dictionary arrays of a descriptor: address and bytes. -/
def Desc.arrays (d : Desc) : List (DWord × Nat) :=
  [(d.e, 2 * d.d * d.f), (d.bias, 4 * d.f), (d.pre, 4 * d.d), (d.theta, 4 * d.f), (d.dec, 2 * d.d * d.f)]

/-- Row r of an activation buffer. -/
def actRow (buf : DWord) (stride r : Nat) : DWord := buf + BitVec.ofNat 64 (stride * r)

/-! ## Features (R338) -/

/-- Whether x > y, false for a NaN. -/
def gtF (x y : Word) : Bool := (fcmpF 4 (fval x) (fval y)).1

/-- The sum of a feature's products, in ascending order. -/
def featSum : List (FVal × FVal × FVal) → Word → Word
  | [], acc => acc
  | (x, p, e) :: r, acc =>
    let u := (addF fp32 .rne x p.negate).word
    featSum r (dotF fp32 .rne [(e, fval u)] (fval acc)).word

/-- z of a feature from the row, the pre-bias, the encoder row and the bias. -/
def featZ (d : Desc) (row pre enc : List Byte) (bias : Word) : Word :=
  let xs := (List.range d.d).map (fun i =>
    (val d.xf (elem16 row i), fval (imageWord pre i), val d.ef (elem16 enc i)))
  addR (featSum xs 0) bias

/-- f from z and the threshold. -/
def featOf (z theta : Word) : Word := if gtF z theta then z else 0

/-! ## Rules (R340, R341) -/

/-- A rule entry with its index. -/
structure Rule where
  ix : Nat
  hits : Word
  hi : Word
  lo : Word
  res : Nat
  trap : Bool
  kind : Nat
  tap : Nat
  feat : Nat
  deriving DecidableEq, Repr

/-- Rule i of a rule area. DEDUCED (log 62). -/
def ruleOf (bs : List Byte) (i : Nat) : Rule :=
  let w (j : Nat) : Word := imageWord bs (4 * i + j)
  let w0 := (w 0).toNat
  { ix := i, hits := w 3, hi := w 2, lo := w 1, res := bits w0 31 29, trap := bits w0 28 28 == 1, kind := bits w0 27 26
    tap := bits w0 25 20, feat := bits w0 19 0 }

/-- Whether the rules of a tap pass the checks of R341. -/
def rulesOk (d : Desc) (rs : List Rule) : Bool :=
  rs.length ≤ 32 && rs.all (fun r =>
    r.kind ≤ 2 && r.feat < d.f && r.res == 0 && (r.kind == 1 || r.hi == 0) && (r.kind == 0 || !r.trap) &&
    !(fval r.lo).isNan && !(fval r.hi).isNan && (r.kind != 1 || !gtF r.lo r.hi))

/-- The rule area of a ticket: NRULE, and the entries that it counts. -/
def State.ruleArea (s : State) (x : Inst) (t : Nat) : Nat × DWord :=
  (s.tkField x t 20 8 0, cat64 (s.tk x t 19) (s.tk x t 18))

/-- Whether a ticket is ruled at a tap (R342); none while a page of its rules is serviced. -/
def State.ruled (s : State) (x : Inst) (t tap : Nat) : Option Bool :=
  let a := s.ruleArea x t
  if a.1 = 0 then some false
  else if 256 < a.1 then some true
  else match s.got x.owner a.2 (16 * a.1) with
    | .bytes bs => some ((List.range a.1).any (fun i => (ruleOf bs i).tap == tap))
    | .waits => none
    | _ => some true

/-! ## Rows on the order board (R342) -/

/-- The slot, ticket and position of a row on the order board. -/
def State.rowOn (s : State) (x : Inst) (r : Nat) : Option (Nat × Nat × Nat) :=
  (List.range x.maxslot).findSome? (fun n =>
    let w (j : Nat) : Nat := s.readNat (marketLoc (x.board + 64 + 16 * n + 4 * j)) 4
    if bits (w 0) 31 31 = 1 ∧ w 1 ≤ r ∧ r < w 1 + w 2 then some (n, bits (w 0) 15 0, w 3 + (r - w 1)) else none)

/-- The gate of a row: 0 CLOSED, 1 OPEN, 2 SKIP (R296). -/
def State.gate (s : State) (x : Inst) (v r : Nat) : Nat :=
  let g := (s.byte (marketLoc (x.gatebase + v * x.gstride + r))).toNat % 4
  if g = 3 then 0 else g

/-- Whether a row is eligible: CLOSED, on the board, and of an ACTIVE or WATCHED ticket. -/
def State.eligible (s : State) (x : Inst) (v r : Nat) : Bool :=
  s.gate x v r == 0 &&
  (match s.rowOn x r with | some (_, t, _) => s.tkState x t == 2 || s.tkState x t == 4 | none => false)

/-! ## Taking a tap operation (R350, R342, R343) -/

/-- What the checks of a tap answer. -/
inductive TapAns where
  | status (n : Nat)
  | waits
  | go (i : BitVec 4) (x : Inst) (d : Desc) (ws : List Word) (rows : List Nat)

/-- The descriptor at an address, in the order of R350; the ranges that must translate besides are given. -/
def State.descAnswer (s : State) (owner : Tag) (va : DWord) (more : Desc → List (DWord × Nat)) : Nat ⊕ Option (Desc × List Word) :=
  match s.got owner va 64 with
  | .refused => .inl 2
  | .poisoned => .inl 7
  | .waits => .inr none
  | .bytes bs =>
    match descOf (wordsOf bs 16) with
    | none => .inl 5
    | some d =>
      let xs := ((more d ++ d.arrays).filter (fun p => p.2 != 0)).map (fun p => s.translateRange owner false .read p.1 p.2)
      if xs.contains .refused then .inl 2
      else if xs.any (fun x => match x with | .ok .. => false | _ => true) then .inr none
      else .inr (some (d, wordsOf bs 16))

/-- The checks of a tap with its eight operands. -/
def State.tapAnswer (s : State) (wi : Nat) (v : List Word) : TapAns :=
  let w5 := (wordAt v 5).toNat
  let first := bits w5 13 0
  let count := bits w5 29 16 + 1
  let vec := (wordAt v 6).toNat
  let desc := cat64 (wordAt v 1) (wordAt v 0)
  let buf := cat64 (wordAt v 3) (wordAt v 2)
  let rows := (List.range count).map (· + first)
  if bits w5 31 30 ≠ 0 ∨ bits w5 15 14 ≠ 0 ∨ 128 ≤ vec ∨ 16384 < first + count ∨ desc.toNat % 64 ≠ 0 then .status 1
  else match s.stepInst wi with
    | none => .status 6
    | some (i, x) =>
      if x.ngate ≤ vec then .status 1
      else match s.descAnswer (s.ownerOf wi) desc (fun d => rows.map (fun r => (actRow buf (wordAt v 4).toNat r, 2 * d.d))) with
        | .inl n => .status n
        | .inr none => .waits
        | .inr (some (d, ws)) =>
          let on := rows.filter (s.eligible x vec)
          if on.any (fun r => match s.rowOn x r with | some (_, t, _) => (s.ruled x t d.tap).isNone | none => false) then .waits
          else .go i x d ws on

/-- The ranges that a tap names: its descriptor, its rows and the dictionary arrays. -/
def tapRanges (v : List Word) (d : Desc) : List (DWord × Nat) :=
  let w5 := (wordAt v 5).toNat
  [(cat64 (wordAt v 1) (wordAt v 0), 64)] ++
  (List.range (bits w5 29 16 + 1)).map (fun r => (actRow (cat64 (wordAt v 3) (wordAt v 2)) (wordAt v 4).toNat (bits w5 13 0 + r), 2 * d.d)) ++
  d.arrays

/-- A tap operation received: unruled rows are opened at once, ruled ones wait their turn (R343). -/
def Sim.tapStart (m : Sim k s0) (wi : Nat) (v : List Word) (i : BitVec 4) (x : Inst) (d : Desc) (ws : List Word) (rows : List Nat)
    (op cmd : Option Nat) : Sim k s0 :=
  let s := m.now
  let vec := (wordAt v 6).toNat
  let isRuled (r : Nat) : Bool := match s.rowOn x r with | some (_, t, _) => (s.ruled x t d.tap).getD true | none => true
  let ruled := rows.filter isRuled
  let m := m.each (rows.filter (fun r => !isRuled r)) (fun m r => m.setGate x vec r 1)
  let p : Tap :=
    { id := m.now.nextId, inst := i, owner := m.now.ownerOf wi, desc := ws, buf := cat64 (wordAt v 3) (wordAt v 2)
      stride := (wordAt v 4).toNat, vector := vec, todo := ruled, ntrap := 0, nruled := 0
      bytes := rows.length - ruled.length, op := op, cmd := cmd }
  m.fresh.act (.taps (m.now.taps ++ [p]))

/-- A status word of this chapter. DEDUCED (log 63). -/
def featStatus (st low : Nat) : Word := BitVec.ofNat 32 (st * 2 ^ 28 + low)

/-- An engine word performed once for its group: every lane takes the registers given. -/
def Sim.groupDone (m : Sim k s0) (o : Op) (d : Nat) (ws : List Word) : Sim k s0 :=
  m.finishOp o.id (o.lanes.flatMap (fun x => (ws.zip (List.range ws.length)).map (fun p => { lane := x.lane, reg := d + p.2, value := p.1 })))

/-- The operands of a group's word: those of its lowest lane. -/
def Op.operands (o : Op) : List Word := (o.lanes.head?).elim [] (fun x => x.wordList 8)

/-- A group's word of the Grinder at issue, with the sources of its lowest lane. -/
def groupWord (i : Instr) (a : Reg) (lat : State → Nat → List Word → Nat) (s : State) : Out :=
  issueWord i s (fun lanes src m =>
    let l := lanes.headD 0
    let v := (List.range 8).map (fun n => src l (a.toNat + n))
    m.launchOp i .engine (lanes.map (fun l => { engineLane l (cat64 (wordAt v 1) (wordAt v 0)) with size := 64, data := v.flatMap wordBytes }))
      (lat m.now m.now.cur.warp v))

/-- tap. -/
def execTap (c : Bool) (g : Guard) (fs : Bool) (d a : Reg) (s : State) : Out :=
  groupWord (.tap c g fs d a) a (fun _ _ _ => 1) s

/-- A tap operation goes on: it is received, and it completes when no row of it is left (R350). -/
def Sim.tapDo (m : Sim k s0) (o : Op) (d : Reg) : Sim k s0 :=
  match m.now.taps.find? (fun p => p.op == some o.id) with
  | some p =>
    if p.todo.isEmpty then
      (m.act (.taps (m.now.taps.filter (fun q => q.id != p.id)))).groupDone o d.toNat [featStatus 0 (p.ntrap % 32768)]
    else m
  | none =>
    if o.lanes.any (fun x => x.state == .denied) then m.groupDone o d.toNat [featStatus 2 0]
    else if !o.lanes.all (fun x => m.now.laneFree o x) then m
    else match m.now.tapAnswer o.warp o.operands with
      | .status n => m.groupDone o d.toNat [featStatus n 0]
      | .waits => m
      | .go i x ds ws rows => m.tapStart o.warp o.operands i x ds ws rows (some o.id) none

/-- A FEATURE command received or completed (R350): its pages are pinned while it runs (R277). DEDUCED (log 98). -/
def Sim.featureCmd (m : Sim k s0) (cmd : Nat) : Sim k s0 :=
  let s := m.now
  match s.cmd? cmd with
  | none => m
  | some c =>
    let v := (List.range 8).map (fun i => wordAt c.words (i + 1))
    if c.port ≠ 3 ∨ c.status.isSome then m
    else if c.mask &&& 0x1FF ≠ 0x1FF then (m.decide_ cmd 1 0 0 0)
    else match s.taps.find? (fun p => p.cmd == some cmd) with
      | some p =>
        if p.todo.isEmpty then
          ((m.act (.taps (s.taps.filter (fun q => q.id != p.id)))).decide_ cmd 0 p.bytes (p.ntrap % 32768) p.nruled)
        else m
      | none =>
        match s.tapAnswer c.warp v with
        | .status n => (m.decide_ cmd n 0 0 0)
        | .waits => m
        | .go i x d ws rows =>
          let pages := s.pagesIn (s.ownerOf c.warp) (tapRanges v d)
          if !s.pinRoom pages then m
          else ((m.pinAll pages true).modCmd cmd (fun c => { c with pins := pages })).tapStart c.warp v i x d ws rows none (some cmd)

/-- FEATURE_TAP (R350): a FEATURE command is received, and it completes when no row of it is left. -/
def execFeatureTap (cmd : Nat) (s : State) : Out := ran ((begin_ true s).featureCmd cmd)

/-! ## A ruled row (R343) -/

/-- What the Grinder reads for a row: the row, the pre-bias, for each feature its encoder row, bias and threshold, and
the decoder columns of the features that the rules change. -/
structure RowData where
  row : List Byte
  pre : List Byte
  feats : List (Nat × List Byte × Word × Word)
  cols : List (Nat × List Byte)

/-- The ranges that the features of a row read under the owner of the tap. -/
def Desc.rowRanges (d : Desc) (row : DWord) (feats : List Nat) : List (DWord × Nat) :=
  [(row, 2 * d.d), (d.pre, 4 * d.d)] ++ feats.flatMap (fun n =>
    [(d.e + BitVec.ofNat 64 (2 * d.d * n), 2 * d.d), (d.bias + BitVec.ofNat 64 (4 * n), 4), (d.theta + BitVec.ofNat 64 (4 * n), 4)])
/-- The decoder column of a feature. -/
def Desc.column (d : Desc) (n : Nat) : DWord × Nat := (d.dec + BitVec.ofNat 64 (2 * d.d * n), 2 * d.d)

/-- f of each feature named. -/
def RowData.features (x : RowData) (d : Desc) : List (Nat × Word) :=
  x.feats.map (fun q => (q.1, featOf (featZ d x.row x.pre q.2.1 q.2.2.1) q.2.2.2))

/-- The value of a feature in a list. -/
def featAt (fs : List (Nat × Word)) (n : Nat) : Word := Keyed.get 0 fs n

/-- f′ after the CLAMP and ADD rules in order (R343, step 3). -/
def clampAll (rs : List Rule) (fs : List (Nat × Word)) : List (Nat × Word) :=
  rs.foldl (fun fs r =>
    let v := featAt fs r.feat
    if r.kind = 1 then Keyed.put fs r.feat (minMaxF false (minMaxF true v r.lo).1 r.hi).1
    else if r.kind = 2 then Keyed.put fs r.feat (addR v r.lo) else fs) fs

/-- The features whose value the rules changed, by the lowest rule that names each. -/
def changedFeats (rs : List Rule) (f f' : List (Nat × Word)) : List Nat :=
  ((rs.map (·.feat)).eraseDups).filter (fun n => featAt f n != featAt f' n)

/-- The row as rewritten (R343, step 4). -/
def RowData.rewrite (x : RowData) (d : Desc) (f f' : List (Nat × Word)) (ks : List Nat) : List Byte :=
  (List.range d.d).flatMap (fun i =>
    let acc := ks.foldl (fun (acc : FVal) n =>
      let delta := (addF fp32 .rne (fval (featAt f' n)) (fval (featAt f n)).negate).word
      let col := Keyed.get [] x.cols n
      fval (dotF fp32 .rne [(fval delta, val d.ef (elem16 col i))] acc).word) (val d.xf (elem16 x.row i))
    leBytes 2 (roundVal d.xf .rne false acc).bits)

/-- The scheduler and the owner whose counters a tap concerns. -/
def State.tapWarp (s : State) (p : Tap) : Option Nat :=
  match p.op, p.cmd with
  | some o, _ => (s.op? o).map (·.warp)
  | none, some c => (s.cmd? c).map (·.warp)
  | none, none => none

/-- A row of a tap disposed, with the bytes written for it. -/
def Sim.rowDone (m : Sim k s0) (p : Tap) (row : Nat) (nruled : Nat) (bytes : Nat := 0) : Sim k s0 :=
  m.act (.taps (m.now.taps.map (fun q =>
    if q.id = p.id then { q with todo := q.todo.filter (· != row), nruled := q.nruled + nruled, bytes := q.bytes + bytes } else q)))

/-- The trap record (R345). -/
def State.watchRecord (s : State) (i : BitVec 4) (x : Inst) (d : Desc) (w : Watch) (slot pos : Nat) (r : Rule) (nfired : Nat)
    (before after : Word) : List Byte :=
  leBytes 4 (i.toNat * 2 ^ 16 + w.tkid) ++ leBytes 4 (nfired % 256 * 2 ^ 24 + r.ix % 256 * 2 ^ 16 + slot % 2 ^ 16) ++
  leBytes 4 pos ++ leBytes 4 (d.layer * 256 + d.tap) ++ leBytes 4 r.feat ++ wordBytes before ++ wordBytes after ++
  leBytes 4 w.row ++ wordBytes w.wid ++ wordBytes (s.tk x w.tkid 23) ++ leBytes 8 w.addr.toNat ++ wordBytes (lo32 x.mstep) ++
  List.replicate 12 0

/-- The handler's packet as the Grinder submits it (R344): PRIO 7, and a PSIZE below 64 is 64, for the checks of PARAM too;
none while a page is serviced. -/
def State.handlerPacket (s : State) (owner : Tag) (va : DWord) : Option (Option (Packet × List Byte)) :=
  if va.toNat % 64 ≠ 0 then some none
  else match s.got owner va 64 with
    | .waits => none
    | .bytes bs =>
      (match packetOf bs with
       | none => some none
       | some p =>
         let n := Nat.max p.psize 64
         if p.param.toNat % 16 ≠ 0 then some none
         else match s.translateRange owner false .read p.param n with
         | .ok .. => some (if 1024 ≤ s.queued 7 then none else
             some ({ p with prio := 7, psize := n }, (s.placesOf owner false .read p.param n).map s.byte))
         | .refused => some none
         | _ => none)
    | _ => some none

/-- The watch trap (R344): the ticket is WATCHED, the watch pending, and the handler launched; without a packet, or where
the launch is not accepted, the watch retires with reason 0. -/
def Sim.watchTrap (m : Sim k s0) (p : Tap) (x : Inst) (d : Desc) (w : Watch) (slot pos : Nat) (rs : List Rule) (before : Word)
    (after : Word) (packet : Option (Packet × List Byte)) : Sim k s0 :=
  let m := m.tkSetField x w.tkid 0 31 28 4
  let handler := if packet.isSome then some m.now.nextId else none
  let m := m.act (.watches (m.now.watches ++ [{ w with handler := handler }]))
  match packet, rs with
  | some (pk, param), r :: _ =>
    let rec_ := m.now.watchRecord w.inst x d w slot pos r rs.length before after
    let vf := ((m.now.owner x.owner).vf).getD 0
    let m := m.accept x.owner vf pk (rec_ ++ param.drop 64) (.watch w.wid) 0 false
    m.act (.taps (m.now.taps.map (fun q => if q.id = p.id then { q with ntrap := q.ntrap + 1 } else q)))
  | _, _ => m.retireWatch w 0

/-- Rules of a ticket at a tap that the Grinder may apply, or the REASON of its fault; none while a page is serviced. -/
def State.tapRules (s : State) (x : Inst) (d : Desc) (t : Nat) : Option (Nat ⊕ List Rule) :=
  let a := s.ruleArea x t
  if 256 < a.1 then some (.inl 0x14)
  else match s.got x.owner a.2 (16 * a.1) with
    | .refused => some (.inl 0x10)
    | .poisoned => some (.inl 0x12)
    | .waits => none
    | .bytes bs =>
      let rs := ((List.range a.1).map (ruleOf bs)).filter (fun r => r.tap == d.tap)
      some (if rulesOk d rs then .inr rs else .inl 0x14)

/-- The address of the state word of rule i. -/
def stateWord (area : DWord) (i : Nat) : DWord := area + BitVec.ofNat 64 (4096 + 4 * i)

/-- Bytes written at an address under an owner, where it translates for a write. -/
def Sim.putBytes (m : Sim k s0) (owner : Tag) (va : DWord) (bs : List Byte) : Sim k s0 :=
  m.agentWrite owner (m.now.placesOf owner false .write va bs.length) bs

/-- The pages that writes of an owner would charge (R194), and whether its units cover them. -/
def State.writeUnits (s : State) (owner : Tag) (rs : List (DWord × Nat)) : List (Nat × Nat × Bool) × Bool :=
  let ps := (rs.flatMap (fun p => s.toCharge owner p.1 p.2)).eraseDups
  (ps, s.unitsCover owner ps)

/-- The value of a rule's state word before a row (R343, step 2). -/
def State.prevOf (s : State) (x : Inst) (t pos : Nat) (r : Rule) : Word :=
  if pos = 0 then 0xFF800000 else imageWord (s.got x.owner (stateWord (s.ruleArea x t).2 r.ix) 4).get 0

/-- Whether a WATCH rule fires on a row whose features are given (R343, step 2). -/
def State.fires (s : State) (x : Inst) (t pos : Nat) (f : List (Nat × Word)) (r : Rule) : Bool :=
  r.kind == 0 && gtF (featAt f r.feat) r.lo && !gtF (s.prevOf x t pos r) r.lo

/-- What the Grinder writes of a ticket's rule area for a row: the state words, and HITS of the rules that fire. -/
def State.ruleWrites (s : State) (x : Inst) (t pos : Nat) (rs : List Rule) (f : List (Nat × Word)) : List (DWord × Nat) :=
  let area := (s.ruleArea x t).2
  (rs.filter (fun r => r.kind == 0)).flatMap (fun r =>
    [(stateWord area r.ix, 4)] ++ (if s.fires x t pos f r then [(area + BitVec.ofNat 64 (16 * r.ix + 12), 4)] else []))

/-- A fault of the ticket of a row that is processed: the row and its later rows are left (R341, R350). -/
def Sim.rowFault (m : Sim k s0) (p : Tap) (t : Nat) (reason : Nat) : Sim k s0 :=
  m.withInst p.inst (fun m x =>
    let rows := m.now.rowsOf x t
    let m := m.faultTicket p.inst t reason
    m.act (.taps (m.now.taps.map (fun q => if q.inst = p.inst then { q with todo := q.todo.filter (fun r => !rows.contains r) } else q))))

/-- A ruled row processed, once its rules and data are read (R343, R344). -/
def Sim.processRow (m : Sim k s0) (p : Tap) (x : Inst) (d : Desc) (row slot t pos : Nat) (rs : List Rule) (data : RowData) : Sim k s0 :=
  let s := m.now
  let area := (s.ruleArea x t).2
  let f := data.features d
  let watches := rs.filter (fun r => r.kind == 0)
  let fires := s.fires x t pos f
  let fired := watches.filter fires
  let traps := fired.filter (·.trap)
  let f' := clampAll rs f
  let ks := changedFeats rs f f'
  let at_ := actRow p.buf p.stride row
  let put (m : Sim k s0) := m.each watches (fun m r =>
    let m := m.putBytes x.owner (stateWord area r.ix) (wordBytes (featAt f r.feat))
    m.when (fires r) (fun m => m.putBytes x.owner (area + BitVec.ofNat 64 (16 * r.ix + 12)) (wordBytes (r.hits + 1))))
  let m := (put m).when (!ks.isEmpty) (fun m => m.putBytes p.owner at_ (data.rewrite d f f' ks))
  let m := match m.now.tapWarp p with
    | some wi => m.count (m.now.schedOf wi) 0x202 (m.now.ownerOf wi) 1
    | none => m
  let m := m.rowDone p row 1 (4 * watches.length + 4 * fired.length + (if ks.isEmpty then 0 else 2 * d.d) + (if traps.isEmpty then 1 else 0))
  match traps with
  | [] => m.setGate x p.vector row 1
  | r :: _ =>
    let w : Watch :=
      { wid := BitVec.ofNat 32 (x.mstep.toNat % 65536 * 65536 + p.inst.toNat * 4096 + slot % 1024), inst := p.inst, tkid := t
        row := row, tap := p.id, vector := p.vector, addr := at_, d := d.d
        vals := rs.map (fun q => (q.ix, featAt f q.feat, featAt f' q.feat)), handler := none }
    let hpkt := cat64 (m.now.tk x t 22) (m.now.tk x t 21)
    let packet := if hpkt = 0 then none else (m.now.handlerPacket x.owner hpkt).getD none
    m.watchTrap p x d w slot pos traps (s.prevOf x t pos r) (featAt f r.feat) packet

/-- What a row writes, by owner: the row, where it is rewritten, under that of the tap, and the rule area under the
instance's. -/
def State.rowWrites (s : State) (p : Tap) (x : Inst) (d : Desc) (row t pos : Nat) (rs : List Rule) (f : List (Nat × Word))
    (ks : List Nat) : List (Tag × List (DWord × Nat)) :=
  let own := if ks.isEmpty then [] else [(actRow p.buf p.stride row, 2 * d.d)]
  let area := s.ruleWrites x t pos rs f
  if p.owner = x.owner then [(p.owner, own ++ area)] else [(p.owner, own), (x.owner, area)]

/-- Whether writes meet no line in error, no other command's line and no pinned one; and the places written. -/
def State.writesClear (s : State) (ws : List (Tag × List (DWord × Nat))) : Bool × Bool :=
  let locs (w : Tag × List (DWord × Nat)) : List Nat := w.2.flatMap (fun r => s.placesOf w.1 false .write r.1 r.2)
  (ws.all (fun w => w.2.all (fun r => !s.writeFault w.1 (s.placesOf w.1 false .write r.1 r.2))), ws.all (fun w => s.writable none (locs w)))

/-- The rules, the data and the writes of a row checked: a REASON of a fault, a wait, or what to process. -/
def State.rowAnswer (s : State) (p : Tap) (x : Inst) (d : Desc) (row t pos : Nat) : Option (Nat ⊕ (List Rule × RowData)) :=
  match s.tapRules x d t with
  | none => none
  | some (.inl n) => some (.inl n)
  | some (.inr rs) =>
    let area := (s.ruleArea x t).2
    let feats := sortBy (fun a b => decide (a < b)) ((rs.map (·.feat)).eraseDups)
    let at_ := actRow p.buf p.stride row
    let reads := (d.rowRanges at_ feats).map (fun q => s.got p.owner q.1 q.2)
    let watches := rs.filter (fun r => r.kind == 0)
    let states := if pos = 0 then [] else watches.map (fun r => s.got x.owner (stateWord area r.ix) 4)
    let outs := watches.flatMap (fun r => [stateWord area r.ix, area + BitVec.ofNat 64 (16 * r.ix + 12)])
    match worstGot (reads ++ states) with
    | some .refused => some (.inl 0x10)
    | some .poisoned => some (.inl 0x12)
    | some _ => none
    | none =>
      let data : RowData :=
        { row := (reads.getD 0 .refused).get, pre := (reads.getD 1 .refused).get
          feats := (feats.zip (List.range feats.length)).map (fun q =>
            let r (j : Nat) : List Byte := (reads.getD (2 + 3 * q.2 + j) .refused).get
            (q.1, r 0, imageWord (r 1) 0, imageWord (r 2) 0))
          cols := [] }
      let f := data.features d
      let ks := changedFeats rs f (clampAll rs f)
      let cols := ks.map (fun n => (n, s.got p.owner (d.column n).1 (d.column n).2))
      let wr := outs.map (fun v => s.translateRange x.owner false .write v 4) ++
        (if ks.isEmpty then [] else [s.translateRange p.owner false .write at_ (2 * d.d)])
      let ws := s.rowWrites p x d row t pos rs f ks
      let units := ws.map (fun w => s.writeUnits w.1 w.2)
      let clear := s.writesClear ws
      let hpkt := cat64 (s.tk x t 22) (s.tk x t 21)
      let handlerWaits := rs.any (·.trap) && hpkt != 0 && (s.handlerPacket x.owner hpkt).isNone
      match worstGot (cols.map (·.2)) with
      | some .refused => some (.inl 0x10)
      | some .poisoned => some (.inl 0x12)
      | some _ => none
      | none =>
        if wr.contains .refused then some (.inl 0x10)
        else if wr.any (fun v => match v with | .ok .. => false | _ => true) || handlerWaits then none
        else if !clear.1 then some (.inl 0x12)
        else if !units.all (·.2) then (if ws.all (fun w => s.unitsWait w.1 (s.writeUnits w.1 w.2).1) then none else some (.inl 0x11))
        else if !clear.2 then none
        else some (.inr (rs, { data with cols := cols.map (fun q => (q.1, q.2.get)) }))

/-- Whether the row of a tap is the next of its ticket. -/
def State.rowNext (s : State) (p : Tap) (x : Inst) (row t : Nat) : Bool :=
  p.todo.contains row &&
  p.todo.all (fun r => decide (row ≤ r) || (match s.rowOn x r with | some (_, u, _) => u != t | none => true))

/-- A row of a tap processed or left (R343). -/
def Sim.grinderRow (m : Sim k s0) (tap row : Nat) : Sim k s0 :=
  let s := m.now
  match s.taps.find? (fun p => p.id == tap) with
  | none => m
  | some p =>
    match s.inst? p.inst, descOf p.desc with
    | some x, some d =>
      (match s.rowOn x row with
       | none => (m.rowDone p row 0)
       | some (slot, t, pos) =>
         if !s.rowNext p x row t then m
         else if s.watches.any (fun w => w.inst == p.inst && w.tkid == t) then m
         else if s.tkState x t ≠ 2 then (m.rowDone p row 0)
         else match s.rowAnswer p x d row t pos with
           | none => m
           | some (.inl reason) => ((m.rowFault p t reason).rowDone p row 0)
           | some (.inr (rs, data)) =>
             let f := data.features d
             let ws := s.rowWrites p x d row t pos rs f (changedFeats rs f (clampAll rs f))
             ((m.each ws (fun m w => m.chargePages w.1 (m.now.writeUnits w.1 w.2).1)).processRow p x d row slot t pos rs data))
    | _, _ => (m.rowDone p row 0)

/-- GRINDER_ROW (R343): a row whose ticket has no watch pending is processed, whatever its gate has become since the receipt
(R342); one whose ticket is no longer ACTIVE is left. -/
def execGrinderRow (tap row : Nat) (s : State) : Out := ran ((begin_ true s).grinderRow tap row)

/-! ## fget, frd, fwr, frel (R351) -/

/-- fget. -/
def execFget (c : Bool) (g : Guard) (fs : Bool) (d a : Reg) (s : State) : Out :=
  engineWord (.fget c g fs d a) 200 s (fun src l =>
    { engineLane l with data := wordBytes (src l a.toNat) ++ wordBytes (src l (a.toNat + 1)) })
/-- fget performed. -/
def Sim.fgetDo (m : Sim k s0) (o : Op) (d : Reg) : Sim k s0 :=
  m.eachLane o (fun m x =>
    let nan : Word := 0x7FC00000
    let r := (x.word 1).toNat
    let out := match m.now.watch? (x.word 0) with
      | some w => if 256 ≤ r then [nan, nan] else (match Keyed.find w.vals r with | some v => [v.1, v.2] | none => [nan, nan])
      | none => [nan, nan]
    m.laneDone o x.lane d.toNat out)

/-- The checks of frd and fwr on the element: a STATUS, or the watch with the address and the bytes of the elements. -/
def State.elemAnswer (s : State) (wid e : Word) : Nat ⊕ (DWord × Nat) :=
  match s.watch? wid with
  | none => .inl 3
  | some w =>
    if e.toNat % 2 = 1 ∨ w.d ≤ e.toNat then .inl 4
    else .inr (w.addr + BitVec.ofNat 64 (2 * e.toNat), if e.toNat + 1 < w.d then 4 else 2)

/-- A lane of frd or fwr at issue: the row's elements where its watch is pending. -/
def State.elemLane (s : State) (l : Nat) (wid e v : Word) : LaneOp :=
  let x := engineLane l
  let data := wordBytes wid ++ wordBytes e ++ wordBytes v
  match s.elemAnswer wid e with
  | .inr (va, n) => { x with addr := va, size := n, data := data }
  | .inl _ => { x with data := data }

/-- frd. -/
def execFrd (c : Bool) (g : Guard) (fs : Bool) (d a : Reg) (s : State) : Out :=
  engineWord (.frd c g fs d a) 200 s (fun src l => s.elemLane l (src l a.toNat) (src l (a.toNat + 1)) 0)
/-- frd performed. -/
def Sim.frdDo (m : Sim k s0) (o : Op) (d : Reg) : Sim k s0 :=
  m.eachLane o (fun m x =>
    let out (m : Sim k s0) (v : Word) (st : Nat) := m.laneDone o x.lane d.toNat [v, featStatus st 0]
    match m.now.elemAnswer (x.word 0) (x.word 1) with
    | .inl n => out m 0 n
    | .inr (va, n) =>
      if x.state = .denied then out m 0 2
      else match m.now.got (m.now.ownerOf o.warp) va n with
        | .refused => out m 0 2
        | .poisoned => out m 0 7
        | .waits => m
        | .bytes bs => out m (bytesWord bs) 0)

/-- fwr. -/
def execFwr (c : Bool) (g : Guard) (fs : Bool) (d a : Reg) (s : State) : Out :=
  engineWord (.fwr c g fs d a) 200 s (fun src l => s.elemLane l (src l a.toNat) (src l (a.toNat + 1)) (src l (a.toNat + 2)))
/-- fwr performed. -/
def Sim.fwrDo (m : Sim k s0) (o : Op) (d : Reg) : Sim k s0 :=
  m.eachLane o (fun m x =>
    let owner := m.now.ownerOf o.warp
    let out (m : Sim k s0) (st : Nat) := m.laneDone o x.lane d.toNat [featStatus st 0]
    match m.now.elemAnswer (x.word 0) (x.word 1) with
    | .inl n => out m n
    | .inr (va, n) =>
      if x.state = .denied then out m 2
      else match m.now.translateRange owner false .write va n with
        | .refused => out m 2
        | .ok .. =>
          let locs := m.now.placesOf owner false .write va n
          let units := m.now.writeUnits owner [(va, n)]
          if m.now.writeFault owner locs then out m 7
          else if !units.2 then (if m.now.unitsWait owner units.1 then m else out m 2)
          else out ((m.chargePages owner units.1).threadWrite o.warp x.lane owner locs
            ((wordBytes (x.word 2)).take n)) 0
        | _ => m)

/-- frel. -/
def execFrel (c : Bool) (g : Guard) (fs : Bool) (d a : Reg) (s : State) : Out :=
  engineWord (.frel c g fs d a) 200 s (fun src l =>
    { engineLane l with data := wordBytes (src l a.toNat) ++ wordBytes (src l (a.toNat + 1)) })
/-- frel performed (R347). -/
def Sim.frelDo (m : Sim k s0) (o : Op) (d : Reg) : Sim k s0 :=
  m.eachLane o (fun m x =>
    let v := (x.word 1).toNat
    let out (m : Sim k s0) (st : Nat) := m.laneDone o x.lane d.toNat [featStatus st 0]
    match m.now.watch? (x.word 0) with
    | none => out m 3
    | some w =>
      if bits v 30 8 ≠ 0 then out m 1
      else out (if bits v 31 31 = 1 then m.retireWatch w (v % 256) else m.resumeWatch w) 0)

/-! ## fdec (R352) -/

/-- The nominal time of a decomposition, from the descriptor as it stands at issue. -/
def fdecTime (s : State) (wi : Nat) (v : List Word) : Nat :=
  match descOf (wordsOf (s.got (s.ownerOf wi) (cat64 (wordAt v 1) (wordAt v 0)) 64).get 16) with
  | some d => 400 + (d.f * d.d + 2047) / 2048
  | none => 400

/-- fdec. -/
def execFdec (c : Bool) (g : Guard) (fs : Bool) (d a : Reg) (s : State) : Out :=
  groupWord (.fdec c g fs d a) a fdecTime s

/-- One output of a decomposition: its value, whether f is nonzero, and whether it read a poisoned location. -/
def fdecOut (d : Desc) (zmode : Bool) (row pre enc bias theta : Got) : Word × Bool × Bool :=
  let bad := [row, pre, enc, bias].contains .poisoned
  let noTheta := theta == .poisoned
  if bad || (noTheta && !zmode) then (0x7FC00000, false, true)
  else
    let n := (d.d + 31) / 32
    let pad (xs : List FVal) : List FVal := xs ++ List.replicate (32 * n - d.d) (.fin false 0 0)
    let a := pad ((List.range d.d).map (fun i => val d.ef (elem16 enc.get i)))
    let b := pad ((List.range d.d).map (fun i =>
      val d.ef (addF d.ef .rne (val d.xf (elem16 row.get i)) (fval (imageWord pre.get i)).negate).bits))
    let z := addR (kSteps n 0 a (b.map some)) (imageWord bias.get 0)
    let f := featOf z (imageWord theta.get 0)
    (if zmode then z else f, f.toNat % 2 ^ 31 != 0 && !noTheta, noTheta)

/-- fdec performed. -/
def Sim.fdecDo (m : Sim k s0) (o : Op) (dr : Reg) : Sim k s0 :=
  let v := o.operands
  let s := m.now
  let owner := s.ownerOf o.warp
  let desc := cat64 (wordAt v 1) (wordAt v 0)
  let row := cat64 (wordAt v 3) (wordAt v 2)
  let out := cat64 (wordAt v 5) (wordAt v 4)
  let done (m : Sim k s0) (st n : Nat) := m.groupDone o dr.toNat [featStatus st (n % 2 ^ 21)]
  if o.lanes.any (fun x => x.state == .denied) then done m 2 0
  else if !o.lanes.all (fun x => s.laneFree o x) then m
  else if 2 ≤ (wordAt v 6).toNat ∨ desc.toNat % 64 ≠ 0 then done m 1 0
  else match s.descAnswer owner desc (fun d => [(row, 2 * d.d)]) with
    | .inl n => done m n 0
    | .inr none => m
    | .inr (some (d, _)) =>
      let n := 4 * d.f
      let units := s.writeUnits owner [(out, n)]
      match s.translateRange owner false .write out n with
      | .refused => done m 2 0
      | .ok .. =>
        if !units.2 then (if s.unitsWait owner units.1 then m else done m 2 0)
        else if !s.writable none (s.placesOf owner false .write out n) then m
        else
          let rowG := s.got owner row (2 * d.d)
          let preG := s.got owner d.pre (4 * d.d)
          let rs := (List.range d.f).map (fun n => fdecOut d ((wordAt v 6).getLsbD 0) rowG preG
            (s.got owner (d.e + BitVec.ofNat 64 (2 * d.d * n)) (2 * d.d)) (s.got owner (d.bias + BitVec.ofNat 64 (4 * n)) 4)
            (s.got owner (d.theta + BitVec.ofNat 64 (4 * n)) 4))
          let m := (m.chargePages owner units.1).putBytes owner out (rs.flatMap (fun r => wordBytes r.1))
          done m (if rs.any (·.2.2) then 7 else 0) ((rs.filter (·.2.1)).length)
      | _ => m

end Sys2Proof.Machine
end

