-- ==== Sys2Proof/Machine/Sys.lean ====
section
/-! DEFINITION. The SYS major (R373–R377): rfe, kill, tlbinv and icinv. -/

namespace Sys2Proof.Machine

variable {k : Bool} {s0 : State}

/-- The lanes of a privileged word that may run it; the others take PRIVILEGE (R361). -/
def Sim.privileged (m : Sim k s0) (fn : Nat) (lanes : List Nat) : Sim k s0 × List Nat :=
  let c := m.now.cur
  let bad := lanes.filter (fun l => m.now.denied c.warp (c.thread l))
  let ok := lanes.filter (fun l => !m.now.denied c.warp (c.thread l))
  (m.each bad (fun m l => m.trapWord l 0x03 (privilegeTval 24 fn 0)), ok)

/-! ## rfe and kill -/

/-- rfe (R374). -/
def execRfe (c : Bool) (g : Guard) (s : State) : Out :=
  issueWord (.rfe c g) s (fun lanes _ m =>
    let r := m.privileged 0 lanes
    r.1.each r.2 (fun m l => m.returnTrap m.now.cur.warp l (m.now.thread m.now.cur.warp l)))

/-- kill.w (R375): once per group, with the lane mask of the lowest lane. -/
def execKillW (c : Bool) (g : Guard) (a : Reg) (s : State) : Out :=
  issueWord (.killW c g a) s (fun lanes src m =>
    let mask := src (lanes.headD 0) a.toNat
    let wi := m.now.cur.warp
    m.each ((lanesOf mask).filter (fun l => (m.now.thread wi l).life == .live)) (fun m l => m.killThread wi l))

/-- kill.g. -/
def execKillG (c : Bool) (g : Guard) (s : State) : Out :=
  issueWord (.killG c g) s (fun _ _ m => m.killGang (m.now.gangOf m.now.cur.warp))

/-- kill.l. -/
def execKillL (c : Bool) (g : Guard) (s : State) : Out :=
  issueWord (.killL c g) s (fun lanes _ m =>
    let r := m.privileged 1 lanes
    r.1.when (!r.2.isEmpty) (fun m => m.killLaunch (m.now.launchIx m.now.cur.warp)))

/-! ## tlbinv and icinv: issue (R376, R377) -/

/-- A word of an engine for the lanes of a thread that may run it, each with what the engine needs. -/
def Sim.sysLong (m : Sim k s0) (i : Instr) (lat : Nat) (lanes : List Nat) (lane : Nat → LaneOp) : Sim k s0 :=
  if lanes.isEmpty then m else m.launchOp i .engine (lanes.map lane) lat

/-- tlbinv of a range. -/
def execTlbinv (c : Bool) (g : Guard) (fs : Bool) (d a : Reg) (s : State) : Out :=
  issueWord (.tlbinv c g fs d a) s (fun lanes src m =>
    let r := m.privileged 2 lanes
    r.1.sysLong (.tlbinv c g fs d a) 2000 r.2 (fun l =>
      { engineLane l (src.pair l a.toNat) with data := wordBytes (src l d.toNat) }))

/-- tlbinv.own. -/
def execTlbinvOwn (c : Bool) (g : Guard) (fs : Bool) (s : State) : Out :=
  issueWord (.tlbinvOwn c g fs) s (fun lanes _ m =>
    let r := m.privileged 2 lanes
    r.1.sysLong (.tlbinvOwn c g fs) 2000 r.2 (fun l => engineLane l))

/-- tlbinv.all. -/
def execTlbinvAll (c : Bool) (g : Guard) (fs : Bool) (s : State) : Out :=
  issueWord (.tlbinvAll c g fs) s (fun lanes _ m =>
    let r := m.privileged 2 lanes
    r.1.sysLong (.tlbinvAll c g fs) 2000 r.2 (fun l => engineLane l))

/-- icinv of a range: a refusal of its translation is a precise ACCESS. DEDUCED (log 41). -/
def execIcinv (c : Bool) (g : Guard) (fs : Bool) (d a : Reg) (s : State) : Out :=
  issueWord (.icinv c g fs d a) s (fun lanes src m =>
    let u := m.now.cur
    let owner := m.now.ownerOf u.warp
    let n (l : Nat) : Nat := (src l d.toNat).toNat
    let bad (l : Nat) : Bool :=
      n l != 0 && m.now.translateRange owner (u.thread l).priv .read (src.pair l a.toNat) (n l) == .refused
    let ok := lanes.filter (fun l => !bad l)
    let m := m.each (lanes.filter bad) (fun m l =>
      m.trapWord l 0x09 (lo32 (src.pair l a.toNat)) (src.pair l a.toNat))
    m.sysLong (.icinv c g fs d a) 400 ok (fun l =>
      { engineLane l (src.pair l a.toNat) with
        size := n l, data := [BitVec.ofNat 8 (if (u.thread l).priv then 1 else 0)] }))

/-- icinv.all. -/
def execIcinvAll (c : Bool) (g : Guard) (fs : Bool) (s : State) : Out :=
  issueWord (.icinvAll c g fs) s (fun lanes _ m =>
    let r := m.privileged 3 lanes
    r.1.sysLong (.icinvAll c g fs) 400 r.2 (fun l => engineLane l))

/-- icinv performed: once every earlier store is performed at dev scope, the lines that the range overlaps leave every
instruction cache (R377). -/
def Sim.icinvDo (m : Sim k s0) (o : Op) : Sim k s0 :=
  m.eachLane o (fun m x =>
    let owner := m.now.ownerOf o.warp
    let priv := (x.data.headD 0) != 0
    let done (m : Sim k s0) := m.laneDone o x.lane 0 []
    let late (m : Sim k s0) := done (m.lateTrap o.warp x.lane
      { cause := 0x09, late := true, tval := lo32 x.addr, pc := o.wordAddr, va := x.addr })
    match o.ins with
    | .icinvAll .. => done (m.act (.icache []))
    | _ =>
      if x.state = .denied then late m
      else if x.size = 0 then done m
      else match m.now.translateRange owner priv .read x.addr x.size with
        | .refused => late m
        | .ok .. =>
          let lines := ((m.now.placesOf owner priv .read x.addr x.size).map (fun p => p / 64)).eraseDups
          done (m.act (.icache (m.now.icache.filter (fun e => !lines.contains (e.loc / 64)))))
        | _ => m)

end Sys2Proof.Machine
end

