-- ==== Sys2Proof/Machine/Hold.lean ====
section
/-! DEFINITION. What keeps a thread from issuing, by the codes of R402, and the groups of a warp (R24, R25, R129, R145, R232,
R263, R264, R273, R367, R370). -/

namespace Sys2Proof.Machine

variable {k : Bool} {s0 : State}

/-- Whether an operation in flight is still to write one of some registers of a thread (R24). -/
def State.writeDue (s : State) (wi l : Nat) (codes : List Nat) : Bool :=
  codes != [] && s.ops.any (fun o => o.warp == wi &&
    (o.writes.any (fun x => x.lane == l && codes.contains x.reg) ||
     (o.push.isNone && o.lanes.any (fun x => x.lane == l && !x.final) &&
      (shapeOf o.ins).writes.any (fun r => codes.contains r))))

/-- The queue registers that a word names. -/
def queueNames (x : Slot) : List Nat :=
  queueReads x.ins x.pfx ++ queueWrites x.ins ++ (match x.ins with | .qstat _ _ _ a | .qflush _ _ _ _ a _ => [a.toNat] | _ => [])

/-- Whether an earlier qflush of the warp has still to unbind a queue register (R263). -/
def State.unbinding (s : State) (wi code : Nat) : Bool :=
  s.ops.any (fun o => o.warp == wi && (match o.ins with | .qflush _ _ _ _ a true => a.toNat == code && o.kind == .engine | _ => false))

/-- Whether the scoreboard holds a word (R24), or a queue register it names is changing (R263). DEDUCED (log 16). -/
def State.scored (s : State) (wi l : Nat) (t : Thread) (x : Slot) : Bool :=
  let busy (key : Nat) : Bool := s.ac < Cells.get 0 t.busy key
  (queueNames x).any (fun q => busy q || s.unbinding wi q) ||
  (readsWith x.ins x.pfx).any busy || (queueWrites x.ins).any busy ||
  ((predReads x.ins).filter (· < 7)).any (fun p => busy (128 + p)) ||
  s.writeDue wi l ((shapeOf x.ins).writes.filter (· < 112))

/-- Whether a pipe of a scheduler is occupied (R145). -/
def State.pipeBusy (s : State) (sc : Nat) (p : Pipe) : Bool :=
  p != .none && (s.sched sc).pipes.any (fun x => x.1 == p.num && s.ac < x.2)

/-- The flag that a word counts at issue, if any (R25, R58). -/
def countsFlag (header : Word) (i : Instr) : Option Nat :=
  if (shapeOf i).long && !guardNever (shapeOf i).guard then flagOf header (shapeOf i).fs else none

/-- Whether a flag would pass 63 with the words of a bundle counted (R25). -/
def Warp.flagFull (w : Warp) (header : Word) (b : List Slot) : Bool :=
  let fs := b.filterMap (fun x => countsFlag header x.ins)
  fs.any (fun f => 63 < (w.flags.getD f 0).toNat + fs.count f)

/-- Whether an acquire holds a word: after fence.acq the words of the pipes M and E and of major 17 (R232). -/
def State.fenced (s : State) (wi l : Nat) (t : Thread) (i : Instr) : Bool :=
  let maj := (fMaj (encode i)).toNat
  (maj == 17 || (shapeOf i).pipe == .M || (shapeOf i).pipe == .E) && !s.acquired wi l t.acqUpTo

/-- Whether a thread stands at its commit (R256), and whether at a fence (R232, R367). -/
def State.standsAt (s : State) (wi l : Nat) (commit : Bool) : Bool :=
  s.stands wi l && (s.thread wi l).order.any (fun o => (o.what == .commit) == commit)

/-- The words that a thread issues next, with nops left out. -/
def nextSlots (t : Thread) : List Slot := (nextBundle t).slots

/-- What holds a thread, by the lowest code of R402; none where it stands in a group. -/
def State.threadHold (s : State) (wi l : Nat) : Option Nat :=
  let w := s.warp wi
  let t := w.thread l
  let gone : Bool := (s.gang (s.gangOf wi)).state != GangState.placed
  if t.life != .live || gone then some 0x1D
  else match t.hold with
    | .coll _ | .barrier .. => some 0x17
    | .parked => some 0x18
    | .rollback _ => some 0x1D
    | h =>
      if s.ac < t.notBefore then some (if h == .commit then 0x1C else if t.entered then 0x1D else 0x1B)
      else if !t.entered then some (if t.line.isEmpty then 0x1B else 0x14)
      else
        let b := nextSlots t
        if b.any (s.scored wi l t) then some 0x12
        else if b.any (fun x => s.pipeBusy (s.schedOf wi) (shapeOf x.ins).pipe) then some 0x13
        else if b.any (fun x => match x.ins with | .fwait _ mask => w.maskHolds mask | _ => false) then some 0x14
        else if w.flagFull (wordAt t.line 0) b then some 0x15
        else if s.standsAt wi l false || b.any (fun x => s.fenced wi l t x.ins) then some 0x16
        else if s.standsAt wi l true then some 0x1C
        else none

/-- Whether two threads stand at one word of one line (R145). DEDUCED (log 15). -/
def sameGroup (a b : Thread) : Bool := a.pc == b.pc && a.pos == b.pos && a.line == b.line

/-- The groups of a warp: the threads that nothing holds, by the word at which they stand (R145). -/
def State.groups_ (s : State) (wi : Nat) : List (List Nat) :=
  let w := s.warp wi
  let free := (List.range 32).filter (fun l => (s.threadHold wi l).isNone)
  (free.filter (fun l => !free.any (fun j => j < l && sameGroup (w.thread j) (w.thread l)))).map (fun l =>
    free.filter (fun j => sameGroup (w.thread j) (w.thread l)))

/-- Whether a queue holds a word of a group (R264). -/
def State.queueHolds (s : State) (wi : Nat) (lanes : List Nat) (x : Slot) : Bool :=
  let w := s.warp wi
  (qnbOf x.pfx).isNone &&
  lanes.any (fun l => guardTrue (shapeOf x.ins).guard (w.thread l) && (w.thread l).region.isNone) &&
  ((queueReads x.ins x.pfx).any (fun q => s.pops wi q && s.popHeld wi (q - 112)) ||
   (queueWrites x.ins).any (fun q => s.pushes wi q && s.pushHeld wi (q - 112)))

/-- Whether a word reserves an entry of the operand log: majors 13–16 with SP 0 (R370). -/
def logs (i : Instr) : Bool :=
  match i with
  | .ld .. | .st .. | .atom .. => true
  | .cas _ _ _ sp _ _ | .casB64 _ _ _ sp _ _ => sp == 0
  | _ => false

/-- The operand-log entries of a warp: operations with a lane that the MMP has yet to decide (R370). DEDUCED (log 42). -/
def State.logUse (s : State) (wi : Nat) : Nat :=
  (s.ops.filter (fun o => o.warp == wi && !o.isSample && o.lanes.any (fun x => x.state == .held))).length

/-- The pages of the ring that a qbind of a group would pin (R270, R277). -/
def State.ringPins (s : State) (wi : Nat) (lanes : List Nat) (x : Slot) : List Nat :=
  match x.ins with
  | .qbind _ g _ a =>
    (match lanes.find? (fun l => guardTrue g (s.thread wi l)) with
     | some l =>
       let r (i : Nat) : Word := readReg (s.warp wi).quota (s.thread wi l) (a.toNat + i)
       (s.qbindStatus wi (r 0) (r 1).toNat (cat64 (r 3) (r 2))).2
     | none => [])
  | _ => []

/-- What holds a group as a whole (R264, R277, R370). -/
def State.groupHold (s : State) (wi : Nat) (lanes : List Nat) : Option Nat :=
  let b := nextSlots (s.thread wi (lanes.headD 0))
  if b.any (s.queueHolds wi lanes) then some 0x19
  else if b.any (fun x => logs x.ins) && 32 ≤ s.logUse wi then some 0x1A
  else if !s.pinRoom (b.flatMap (s.ringPins wi lanes)) then some 0x1D
  else none

/-- The candidates of a warp (R145). -/
def State.candidates (s : State) (wi : Nat) : List (List Nat) := (s.groups_ wi).filter (fun g => (s.groupHold wi g).isNone)

/-- The wait of a thread (R146). -/
def State.waitOf (s : State) (wi l : Nat) : Nat := s.ac - (s.thread wi l).lastIssue

/-- The longest-waiting thread of a warp, ties to the lowest lane (R402). -/
def State.longest (s : State) (wi : Nat) : Option Nat :=
  ((List.range 32).filter (fun l => (s.thread wi l).life == .live)).foldl (fun b l =>
    match b with
    | none => some l
    | some j => if s.waitOf wi j < s.waitOf wi l then some l else some j) none

/-- The stall reason of a thread. -/
def State.stallOf (s : State) (wi l : Nat) : Nat :=
  match s.threadHold wi l with
  | some r => r
  | none => (((s.groups_ wi).find? (fun g => g.contains l)).bind (s.groupHold wi)).getD 0x1D

/-- The R402 code of a resident warp in this ac; issued says that it issues. -/
def State.warpCode (s : State) (wi : Nat) (issued : Bool) : Nat :=
  if issued then 0x10
  else if !(s.candidates wi).isEmpty then 0x11
  else match s.longest wi with
    | some l => s.stallOf wi l
    | none => 0x1D

end Sys2Proof.Machine
end

