-- ==== Sys2Proof/Machine/Counters.lean ====
section
/-! DEFINITION. Counters, timer and sampling (R397–R408), and the passing of an ac (R5, R152, R398). -/

namespace Sys2Proof.Machine

variable {k : Bool} {s0 : State}

/-! ## cntsel (R403–R406, R408) -/

/-- Whether an event code is listed in R401. -/
def eventListed (e : Nat) : Bool :=
  e ≤ 7 || (0x10 ≤ e && e ≤ 0x1D) || e == 0x100 || e == 0x101 || (0x110 ≤ e && e ≤ 0x113) || (0x120 ≤ e && e ≤ 0x122) ||
  e == 0x130 || (0x140 ≤ e && e ≤ 0x142) || (0x200 ≤ e && e ≤ 0x203) || e == 0x210 || e == 0x211 || (0x300 ≤ e && e ≤ 0x303)

/-- Whether an event code is a fabric event (R399). -/
def fabricEvent (e : Nat) : Bool := 0x300 ≤ e && e ≤ 0x30F

/-- Counter i of a scheduler. -/
def Sched.counter (x : Sched) (i : Nat) : Counter := x.counters.getD i Counter.clear
/-- A slot of a counter. -/
def Counter.slot (c : Counter) (i : Nat) : CounterSlot := c.slots.getD i CounterSlot.clear
/-- A slot changed. -/
def Counter.setSlot (c : Counter) (i : Nat) (f : CounterSlot → CounterSlot) : Counter := { c with slots := c.slots.set i (f (c.slot i)) }

/-- CLR of a slot. -/
def CounterSlot.cleared (x : CounterSlot) (clr : Bool) : CounterSlot :=
  if clr then { x with value := 0, te := 0, tr := 0, ovf := false } else x

/-- The counter that a config word leaves (R404). -/
def Counter.programmed (c : Counter) (owner : Tag) (priv : Bool) (v : Nat) : Counter :=
  let i := bits v 4 3
  let bit (n : Nat) : Bool := bits v n n == 1
  let c1 := c.setSlot i (fun x => x.cleared (bit 28))
  if bit 29 && !bit 31 then { c1 with claimed := false, slots := c1.slots.map (fun x => { x with en := false }) }
  else
    { (c1.setSlot i (fun x => { x with en := bit 31, ovi := bit 30, event := bits v 23 12 })) with
      claimed := true, owner := if priv && c.claimed then c.owner else owner }

/-- The STATUS of cntsel (R404). -/
def Sched.cntselStatus (x : Sched) (owner : Tag) (priv : Bool) (v : Nat) : Nat :=
  let c := x.counter (bits v 2 0)
  if bits v 27 24 != 0 || bits v 11 5 != 0 then 3
  else if !eventListed (bits v 23 12) then 2
  else if x.nset ≤ bits v 4 3 then 4
  else if c.claimed && c.owner != owner && !priv then 1
  else 0

/-- The status word of cntsel: the OWNER of the counter after the operation. -/
def cntselWord (st : Nat) (c : Counter) : Word := BitVec.ofNat 32 (st * 2 ^ 28 + (if c.claimed then c.owner.toNat else 0))

/-- cntsel. -/
def execCntsel (c : Bool) (g : Guard) (d a : Reg) (s : State) : Out :=
  issueWord (.cntsel c g d a) s (fun lanes src m =>
    let u := m.now.cur
    let l := lanes.headD 0
    let v := (src l a.toNat).toNat
    let sc := m.now.schedOf u.warp
    let owner := m.now.ownerOf u.warp
    let priv := (u.thread l).priv
    let st := (m.now.sched sc).cntselStatus owner priv v
    let i := bits v 2 0
    let m := m.when (st == 0) (fun m => m.modSched sc (fun x =>
      { x with counters := x.counters.set i ((x.counter i).programmed owner priv v) }))
    let r := cntselWord st ((m.now.sched sc).counter i)
    m.writeAll lanes d (fun _ => r) 8)

/-- The config word that kind 3 reads. -/
def CounterSlot.config (x : CounterSlot) (slot ctr : Nat) : Word :=
  let f (b : Bool) (i : Nat) : Nat := if b then 2 ^ i else 0
  BitVec.ofNat 32 (f x.en 31 + f x.ovi 30 + f x.ovf 27 + x.event % 4096 * 2 ^ 12 + slot * 8 + ctr)

/-- Kinds 0 to 3 of cntsel.rd (R405); the value of a fabric event reads zero unless its OWNER has FABVIS (R399). -/
def State.readCounter (s : State) (sc : Nat) (owner : Tag) (priv : Bool) (v : Nat) : DWord :=
  let x := s.sched sc
  let c := x.counter (bits v 2 0)
  let q := c.slot (bits v 4 3)
  if !priv && (!c.claimed || c.owner != owner || (fabricEvent q.event && !s.fabvis owner)) then 0
  else match bits v 10 8 with
    | 0 => if fabricEvent q.event && !(c.claimed && s.fabvis c.owner) then 0 else q.value.setWidth 64
    | 1 => q.te.setWidth 64
    | 2 => q.tr.setWidth 64
    | _ =>
      cat64 (BitVec.ofNat 32 ((if c.claimed then 2 ^ 27 + c.owner.toNat else 0) + (x.nset - 1) * 2 ^ 14 + x.act % 4 * 2 ^ 12))
        (q.config (bits v 4 3) (bits v 2 0))

/-- Kinds 4 and 5: the state of a warp slot; issuing names the warp that issues in this ac. -/
def State.readSlotState (s : State) (sc slot issuing : Nat) (reason : Bool) : DWord :=
  match (s.residents sc).find? (fun i => (s.warp i).slot == slot) with
  | none => 0
  | some wi =>
    let l := s.longest wi
    if reason then
      cat64 (BitVec.ofNat 32 (Nat.min (l.elim 0 (s.waitOf wi)) (2 ^ 32 - 1)))
        (BitVec.ofNat 32 (2 ^ 31 + (s.ownerOf wi).toNat * 2 ^ 12 + s.warpCode wi (wi == issuing)))
    else l.elim 0 (fun l => (s.thread wi l).pc)

/-- cntsel.rd (R405): the state read is that of the ac of issue. DEDUCED (log 67). -/
def execCntselRd (c : Bool) (g : Guard) (d a : Reg) (s : State) : Out :=
  issueWord (.cntselRd c g d a) s (fun lanes src m =>
    let u := m.now.cur
    let sc := m.now.schedOf u.warp
    let owner := m.now.ownerOf u.warp
    m.each lanes (fun m l =>
      let v := (src l a.toNat).toNat
      let kind := bits v 10 8
      let priv := (u.thread l).priv
      if (kind == 4 || kind == 5) && m.now.denied u.warp (u.thread l) then m.trapWord l 0x03 (privilegeTval 24 4 0)
      else
        let r : DWord :=
          if kind ≤ 3 then (if bits v 31 11 != 0 || bits v 7 5 != 0 then 0 else m.now.readCounter sc owner priv v)
          else if kind ≤ 5 then (if bits v 31 11 != 0 || bits v 7 4 != 0 then 0
            else m.now.readSlotState sc (bits v 3 0) u.warp (kind == 5))
          else 0
        m.writePair [l] d (fun _ => r) 8))

/-- cntsel.smp (R408). -/
def execCntselSmp (c : Bool) (g : Guard) (d a : Reg) (s : State) : Out :=
  issueWord (.cntselSmp c g d a) s (fun lanes src m =>
    let u := m.now.cur
    let l := lanes.headD 0
    let base := src.pair l a.toNat
    let n := (src l (a.toNat + 2)).toNat
    let v := (src l (a.toNat + 3)).toNat
    let bad := base.toNat % 64 != 0 || n == 0 || 65536 < n || bits v 30 5 != 0
    let m := m.when (!bad) (fun m => m.modWarp u.warp (fun w =>
      { w with sampling := { base := base, entries := n, on := bits v 31 31 == 1, shift := bits v 4 0, seen := 0, next := 0 } }))
    m.writeAll lanes d (fun _ => BitVec.ofNat 32 (if bad then 3 * 2 ^ 28 else 0)) 8)

/-- cntsel.rot (R406): of the threads that may run it, once. -/
def execCntselRot (c : Bool) (g : Guard) (d a : Reg) (s : State) : Out :=
  issueWord (.cntselRot c g d a) s (fun lanes src m =>
    let r := m.privileged 4 lanes
    let m := r.1
    match r.2 with
    | [] => m
    | l :: _ =>
      let v := (src l a.toNat).toNat
      let bad := bits v 15 2 != 0
      let m := m.when (!bad) (fun m => m.modSched (m.now.schedOf m.now.cur.warp) (fun x =>
        { x with rper := bits v 31 16, nset := bits v 1 0 + 1, act := 0, period := 0 }))
      m.writeAll r.2 d (fun _ => BitVec.ofNat 32 (if bad then 3 * 2 ^ 28 else 0)) 8)

/-! ## The events of the counters -/

/-- Whether the virtual function of an owner tag is switched out (R384). -/
def State.ownerOut (s : State) (t : Tag) : Bool :=
  match (s.owner t).vf with
  | some v => (Keyed.find s.vfs v.toNat).elim false (·.out)
  | none => false

/-- The events of an ac that a slot counts (R399); link retries are no owner's, and count for each that may see them.
DESIGN CHOICE (log 96). -/
def State.slotEvents (s : State) (x : Sched) (c : Counter) (q : CounterSlot) : Nat :=
  if q.event = 1 then 1
  else if fabricEvent q.event && !s.fabvis c.owner then 0
  else ((x.events.filter (fun e => e.1 == q.event && (e.2.1 == c.owner || e.1 == 0x302))).map (fun e => e.2.2)).sum

/-- A slot after an ac (R398), and whether its value wrapped. -/
def State.slotAdvance (s : State) (x : Sched) (i : Nat) (c : Counter) (j : Nat) (q : CounterSlot) : CounterSlot × Bool :=
  if !c.claimed || !q.en then (q, false)
  else if s.ownerOut c.owner || laneBit (x.frz.setWidth 32) i || j != x.act then ({ q with te := q.te + 1 }, false)
  else
    let n := q.value.toNat + s.slotEvents x c q
    let wrap := decide (2 ^ 48 ≤ n)
    ({ q with te := q.te + 1, tr := q.tr + 1, value := BitVec.ofNat 48 n, ovf := q.ovf || wrap }, wrap && q.ovi)

/-- The counters of a scheduler after an ac, with the owners whose overflow interrupts are raised (R400). -/
def State.counterAdvance (s : State) (x : Sched) : List (Counter × List Tag) :=
  (x.counters.zip (List.range x.counters.length)).map (fun p =>
    let r := (p.1.slots.zip (List.range p.1.slots.length)).map (fun q => s.slotAdvance x p.2 p.1 q.2 q.1)
    ({ p.1 with slots := r.map (·.1) }, (r.filter (·.2)).map (fun _ => p.1.owner)))

/-- The counters, the rotation period and the timer of a scheduler after an ac. -/
def Sim.schedAdvance (m : Sim k s0) (i : Nat) : Sim k s0 :=
  let x := m.now.sched i
  let r := m.now.counterAdvance x
  let m := m.act (.sched i { x with counters := r.map (·.1), events := []
                                    period := if x.rper = 0 then 0 else x.period + 1
                                    tick := if x.tper = 0 then 0 else x.tick + 1 })
  m.each (r.flatMap (·.2)) (fun m t =>
    match (m.now.owner t).vf with
    | some v => m.act (.irq (.vf v) ((Keyed.find m.now.vfs v.toNat).elim 0 (fun x => x.desc.irq.toNat)))
    | none => m)

/-- Whether the rejoin table of a warp is to be examined: a thread is parked, or every thread has left the mask of a record. -/
def Warp.meets (w : Warp) : Bool :=
  !w.ended && (w.threads.any (fun t => t.hold == .parked) || w.rejoin.any (fun r => (lanesOf r.mask).isEmpty))

/-- The fc that an ac brings at a clock (R5): the fabric clock is 2,000 MHz. -/
def fcStep (fc part clock : Nat) : Nat × Nat := if clock ≤ part + 2000 then (fc + 1, part + 2000 - clock) else (fc, part + 2000)

/-- The operations that fall due in an ac, in order of issue. -/
def State.fallDue (s : State) (ac : Nat) : List Nat := (s.ops.filter (fun o => o.due == ac)).map (·.id)

/-- The schedulers that have a resident warp, ascending. -/
def State.busyScheds (s : State) : List Nat :=
  (List.range 1024).filter (fun i => s.warps.any (fun w => w.2.resident && !w.2.ended && 4 * w.2.core + w.2.sched == i))

/-- COUNTER_ADVANCE (R398): an ac ends. Records of the rejoin tables are examined (R152), the counters advance, time
passes, operations that fall due complete, and the schedulers take their turns anew. -/
def execCounterAdvance (s : State) : Out :=
  let m := begin_ true s
  let m := m.each (s.warps.filter (fun w => w.2.meets)) (fun m w => m.rejoinCheck w.1)
  let m := m.each (m.now.scheds.map (·.1)) (fun m i => m.schedAdvance i)
  let f := fcStep s.fc s.fcPart s.boot.clock
  let m := m.sys (.time (s.ac + 1) f.1 f.2)
  let m := m.act (.turns m.now.busyScheds)
  ran (m.later ((m.now.fallDue (s.ac + 1)).map Instr.longLatencyComplete))

/-- COUNTER_ROTATE (R397). -/
def execCounterRotate (i : Nat) (s : State) : Out :=
  let m := begin_ true s
  let x := s.sched i
  if x.rper ≠ 0 ∧ 1024 * x.rper ≤ x.period then
    ran (m.act (.sched i { x with act := (x.act + 1) % x.nset, period := x.period - 1024 * x.rper }))
  else ran m

/-- TIMER_TICK (R407): TIMER becomes pending in the lowest live lane of the chosen warp, or the tick is lost. -/
def execTimerTick (i : Nat) (s : State) : Out :=
  let m := begin_ true s
  let x := s.sched i
  if x.tper ≠ 0 ∧ 1024 * x.tper ≤ x.tick then
    let m := m.act (.sched i { x with tick := x.tick - 1024 * x.tper })
    let mine := (s.residents i).filter (fun w => some (s.launchOf w).vf == x.cntcVf)
    match mine.foldl (fun (b : Option Nat) w => match b with
      | Option.none => some w
      | some v => if (s.warp w).slot < (s.warp v).slot then some w else some v) Option.none with
    | Option.none =>
      let tags := (s.owners.filter (fun e => e.2.vf == x.cntcVf)).map (·.1)
      ran (m.each tags (fun m t => m.count i 0x210 (BitVec.ofNat 12 t) 1))
    | some w =>
      match (List.range 32).find? (fun l => (s.thread w l).life == .live) with
      | some l =>
        if (s.thread w l).pend.any (fun p => p.cause == 0x0E) then ran m
        else ran (m.pendTrap w l { cause := 0x0E, late := false, tval := 0, pc := 0, va := 0 })
      | Option.none => ran m
  else ran m

end Sys2Proof.Machine
end

