-- ==== Sys2Proof/Machine/Mailbox.lean ====
section
/-! DEFINITION. The host interface: the rings of the mailbox and the decoding of their commands (R437, R438, R441, R442,
R444), BAR 0 and its semaphores (R435–R437, R440), and the frame of every mailbox command. -/

namespace Sys2Proof.Machine

variable {k : Bool} {s0 : State}

/-! ## Status (R440) -/

/-- The status word. -/
def State.statusWord (s : State) : Word :=
  let b := s.boot
  let f (x : Bool) (i : Nat) : Nat := if x then 2 ^ i else 0
  BitVec.ofNat 32 (f b.ready 31 + f b.safe 30 + f b.conf 29 + f b.confReq 28 + f b.thermal 27 + f b.hot 26 +
    f s.config.applied 25 + f (s.config.applied && s.config.mailbox) 24 + b.phase % 256 * 2 ^ 16 + b.clock % 65536)

/-- TEMP, sampled anew each time it is read (R437): an open value. -/
def State.temp (s : State) : Word := Config.temperature s.free
/-- A sample taken. -/
def Sim.sampled (m : Sim k s0) : Sim k s0 := m.act (.free (m.now.free + 1))

/-! ## Commands in their 64 bytes (R442) -/

/-- A field of a command: word i, bits hi to lo. -/
def cmdField (ws : List Word) (i hi lo : Nat) : Nat := bits (wordAt ws i).toNat hi lo
/-- A 64-bit field of a command from word i. -/
def cmdWide (ws : List Word) (i : Nat) : DWord := cat64 (wordAt ws (i + 1)) (wordAt ws i)

/-- Whether every bit of words 1 to 15 outside the listed fields is zero; fields are (word, hi, lo). -/
def onlyFields (ws : List Word) (fs : List (Nat × Nat × Nat)) : Bool :=
  (List.range 15).all (fun j =>
    let i := j + 1
    let mask := (fs.filter (fun f => f.1 == i)).foldl (fun (a : Word) f => a ||| BitVec.ofNat 32 (2 ^ (f.2.1 + 1) - 2 ^ f.2.2)) 0
    wordAt ws i &&& ~~~ mask == 0)

/-- A word whole. -/
def wholeWord (i : Nat) : Nat × Nat × Nat := (i, 31, 0)

/-! ## The command ring (R437, R438, R444) -/

/-- Whether a function is a virtual function. -/
def isVf : HostFn → Bool
  | .vf _ => true
  | .pf _ => false

/-- Whether a command of a function is under way: a stop, a removal, a held key load or an open start barrier. -/
def State.underWay (s : State) (h : CmdHeader) : Bool :=
  s.stops.any (fun x => x.reply == some h) || s.insts.any (fun x => x.2.reply == some h) ||
  s.heldLoads.any (fun x => x.1 == h) || s.groups.any (fun x => x.2.reply == some h)

/-- Whether an OPC is one that a virtual function may issue (R441). -/
def vfOpc (opc : Nat) : Bool := opc == 1 || (8 ≤ opc && opc ≤ 10) || opc == 0x0C || opc == 0x0D
/-- Whether an OPC is listed. -/
def opcListed (opc : Nat) : Bool := 1 ≤ opc && opc ≤ 0x11

/-- The words of the command at the head of a command ring, if there is one. -/
def State.headCommand (s : State) (f : Nat) : Option (List Word) :=
  let r := (s.box f).ring 0
  if r.count = 0 ∨ r.cons = r.prod then none
  else some ((List.range 16).map (fun i =>
    bytesWord (s.bytes (hostLoc (r.addr + 64 * (r.cons.toNat % r.count) + 4 * i)) 4)))

/-! ## BAR 0 (R436, R437) -/

/-- The ring and the register of an offset in BAR 0. -/
def barRing (offset : BitVec 13) : Option (Nat × Nat) :=
  let o := offset.toNat
  if 0x100 ≤ o ∧ o < 0x200 then some ((o - 0x100) / 0x40, (o - 0x100) % 0x40) else none

/-- What a read of BAR 0 returns at an offset other than those of the semaphores (R437, R440). -/
def State.barReg (s : State) (fn : HostFn) (offset : BitVec 13) : Word :=
  if offset = 0 then s.statusWord
  else if offset = 4 then s.temp
  else match barRing offset with
    | none => 0
    | some (n, reg) =>
      let b := s.box (fnIx fn)
      let r := b.ring n
      match reg with
      | 0x00 => lo32 r.base
      | 0x04 => hi32 r.base
      | 0x08 => BitVec.ofNat 32 (r.size % 32)
      | 0x0C => r.prod.setWidth 32
      | 0x10 => r.cons.setWidth 32
      | 0x14 => if n = 2 then b.lost else 0
      | _ => 0

/-- A semaphore as a read without effect gives it (R436). -/
def semWord (got : Bool) (x : Option Bool) : Word :=
  match x with
  | none => 0
  | some portB => (if got then 0x80000000 else 0x40000000) + (if portB then 1 else 0)

/-- SEMAPHORE_READ (R436): a free semaphore is taken by the reading port. The value returned stands in barRead.
DESIGN CHOICE (log 79). -/
def execSemaphoreRead (portB : Bool) (i : BitVec 4) (s : State) : Out :=
  let m := begin_ true s
  match s.semaphores.getD i.toNat none with
  | none =>
    ran ((m.sys (.semaphores (s.semaphores.set i.toNat (some portB)))).sys
      (.barRead (0x80000000 + (if portB then 1 else 0))))
  | some h => ran (m.sys (.barRead (semWord false (some h))))

/-- SEMAPHORE_WRITE (R436): the holding port releases it; the other port's write is discarded. -/
def execSemaphoreWrite (portB : Bool) (i : BitVec 4) (s : State) : Out :=
  let m := begin_ true s
  if s.semaphores.getD i.toNat none = some portB then ran (m.sys (.semaphores (s.semaphores.set i.toNat none))) else ran m

/-! ## The frame of a mailbox command -/

/-- What every mailbox command shares (R433, R438, R441, R444): it waits while the completion ring of its function is full
or it is under way; the safe state serves only STATUS, FWLOAD and RESET; a virtual function issues only its own. -/
def mailboxWord (h : CmdHeader) (vfMay safeMay : Bool) (s : State) (f : Sim true s → Sim true s) : Out :=
  let m := begin_ true s
  if ((s.box (fnIx h.fn)).ring 1).full || s.underWay h then ran m
  else if isVf h.fn && !vfMay then ran (m.complete h 2 0 0)
  else if !s.boot.ready && !safeMay then ran (m.complete h 5 0 0)
  else ran (f m)

/-- Whether a function may name an owner tag: a physical function any, a virtual function its own (R441). -/
def State.mayName (s : State) (h : CmdHeader) (t : Tag) : Bool :=
  match h.fn with
  | .pf _ => true
  | .vf v => (s.owner t).vf == some v

/-- Bytes of host memory. -/
def State.hostBytes (s : State) (a : DWord) (n : Nat) : List Byte := (List.range n).map (fun i => s.byte (hostLoc (a.toNat + i)))

end Sys2Proof.Machine
end

