-- ==== Sys2Proof/Machine/Try.lean ====
section
/-! DEFINITION. Fences (R207, R231, R232) and try regions (R213–R215, R249–R258). -/

namespace Sys2Proof.Machine

variable {k : Bool} {s0 : State}

/-! ## Fences -/

/-- An acquire at a scope: later accesses wait for the earlier ones that return a value, and loads still in flight read
at that scope (R207, R232). -/
def Sim.fenceAcquire (m : Sim k s0) (lanes : List Nat) (scope : BitVec 3) : Sim k s0 :=
  let wi := m.now.cur.warp
  let n := m.now.nextId
  let ac := m.now.ac
  let m := m.each lanes (fun m l =>
    let t := m.now.thread wi l
    let sc := if !m.now.acquired wi l t.acqUpTo && scope.ult t.acqScope then t.acqScope else scope
    (m.modThread wi l (fun t => { t with acqUpTo := n, acqScope := sc })).when (scope != 0) (fun m => m.raiseFresh wi l (ac + 1)))
  m.act (.ops (m.now.ops.map (fun o =>
    if o.warp = wi ∧ o.isLoad ∧ o.scope.ult scope ∧ o.lanes.any (fun x => lanes.contains x.lane && !x.final) then
      { o with scope := scope } else o)))

/-- A release of a thread at a scope, of what it issued before operation n (R207, R232). Releases already fulfilled go. -/
def Sim.addRelease (m : Sim k s0) (wi l n : Nat) (scope : BitVec 3) : Sim k s0 :=
  let open_ := (m.now.thread wi l).relUpTo.filter (fun r => !m.now.released wi l r.1 r.2)
  m.modThread wi l (fun t => { t with relUpTo := open_ ++ [(n, scope)] })

/-- Threads that must stand at the word that issues. -/
def Sim.stand (m : Sim k s0) (lanes : List Nat) (what : Standing) : Sim k s0 :=
  let c := m.now.cur
  let o : Order := { word := c.wordAddr, below := m.now.nextId, what := what }
  m.each lanes (fun m l => m.modThread c.warp l (fun t => { t with order := some o }))

/-- A release at a scope: later writes wait for every earlier access (R207, R232), and the thread for the decision of its
earlier stores (R367). -/
def Sim.fenceRelease (m : Sim k s0) (lanes : List Nat) (scope : BitVec 3) : Sim k s0 :=
  let wi := m.now.cur.warp
  let n := m.now.nextId
  let m := m.each lanes (fun m l => m.addRelease wi l n scope)
  m.stand (lanes.filter (fun l => m.now.storeWaits wi l n || m.now.storeTrap wi l)) .rel

/-- fence.acq. -/
def execFenceAcq (c : Bool) (g : Guard) (scope : BitVec 3) (s : State) : Out :=
  issueWord (.fenceAcq c g scope) s (fun lanes _ m => m.fenceAcquire lanes scope)
/-- fence.rel. -/
def execFenceRel (c : Bool) (g : Guard) (scope : BitVec 3) (s : State) : Out :=
  issueWord (.fenceRel c g scope) s (fun lanes _ m => m.fenceRelease lanes scope)
/-- fence.ar: its thread stands at it until both its conditions hold. -/
def execFenceAr (c : Bool) (g : Guard) (scope : BitVec 3) (s : State) : Out :=
  issueWord (.fenceAr c g scope) s (fun lanes _ m =>
    ((m.fenceAcquire lanes scope).fenceRelease lanes scope).stand lanes (.ar scope))

/-! ## try, tabort, tstat (R249, R250, R257) -/

/-- try (R250): L is the packet P + 1 + m. -/
def execTryOpen (c : Bool) (g : Guard) (cnt : BitVec 5) (mm : BitVec 4) (n : Reg) (s : State) : Out :=
  issueWord (.tryOpen c g cnt mm n) s (fun lanes src m =>
    let u := m.now.cur
    m.each lanes (fun m l =>
      if (u.thread l).region.isSome then m.abortRegion u.warp l 7
      else
        let first := m.now.nextId
        let r : Region :=
          { first := first, count := cnt.toNat + 1, regs := (List.range (cnt.toNat + 1)).map (fun i => src l (n.toNat + i))
            preds := (u.thread l).preds, target := packetAddr (packetNo u.pc + 1 + mm.toNat), reads := [], buffer := []
            base := n.toNat, places := [] }
        m.modThread u.warp l (fun t => { t with region := some r, tabc := 0, tusr := 0 })))

/-- tabort k. -/
def execTabort (c : Bool) (g : Guard) (n : BitVec 8) (s : State) : Out :=
  issueWord (.tabort c g n) s (fun lanes _ m => m.each lanes (fun m l => m.abortRegion m.now.cur.warp l 1 n))

/-- tstat. -/
def execTstat (c : Bool) (g : Guard) (d : Reg) (s : State) : Out :=
  issueWord (.tstat c g d) s (fun lanes _ m =>
    m.writeAll lanes d (fun l => let t := m.now.cur.thread l; 0#16 ++ t.tusr ++ t.tabc))

/-! ## commit (R214, R256) -/

/-- Bytes at rising places, cut into runs. -/
def runsOf : List (Nat × Byte) → List (Nat × List Byte)
  | [] => []
  | (a, b) :: r =>
    match runsOf r with
    | (x, bs) :: rest => if x = a + 1 then (a, b :: bs) :: rest else (a, [b]) :: (x, bs) :: rest
    | [] => [(a, [b])]

/-- The buffered bytes of a line, ascending. -/
def Region.lineBytes (r : Region) (line : Nat) : List (Nat × Byte) :=
  (List.range 128).filterMap (fun i => (Keyed.find r.buffer (line * 128 + i)).map (fun b => (line * 128 + i, b)))

/-- One run of a line published, by the entry and from the address given: a store that the L1 of the core holds and its
home slice has yet to perform (R203); it waits there for invalidates (R179). o is the operation of the commit. -/
def Sim.publishRun (m : Sim k s0) (o : Op) (l pte : Nat) (va : DWord) (run : Nat × List Byte) : Sim k s0 :=
  let core := (m.now.warp o.warp).core
  let line := lineOf run.1
  let m := if m.now.l1Fresh core line then m else m.fillL1 core line 1
  let locs := (List.range run.2.length).map (· + run.1)
  let m := m.act (.l1 (m.now.l1.map (fun e => if e.core = core then e.patch locs run.2 else e)))
  let x : LaneOp := { lane := l, addr := va, loc := some run.1, size := run.2.length, pte := pte, data := run.2, state := .written }
  let p : Op :=
    { o with id := m.now.nextId, kind := .store, lanes := [x], issued := m.now.ac, scope := 3, acks := pteBit pte 10
             due := m.now.dueIn (sliceLatency core (homeOf run.1 (pteDie pte))) }
  let m := (m.fresh.act (.delays m.now.delays.tail)).act (.ops (m.now.ops ++ [p]))
  m.conflict [line] (some (o.warp, l)) (· == core)

/-- The commit of one thread in a region takes its step (R214, R256): every buffered store at core scope, at once, and then
the release that a wider scope adds. -/
def Sim.publish (m : Sim k s0) (o : Op) (l : Nat) : Sim k s0 :=
  let wi := o.warp
  match (m.now.thread wi l).region, (m.now.thread wi l).aborting with
  | some r, none =>
    let lines := r.writeLines
    let m := m.count (m.now.schedOf wi) 0x006 (m.now.ownerOf wi) 1
    let ac := m.now.ac
    let m := m.modThread wi l (fun t =>
      { t with region := none, order := none, hold := .commit, notBefore := Nat.max t.notBefore (ac + 6 + 2 * lines.length) })
    let m := m.each (lines.filter (fun n => !isGeneric (n * 128))) (fun m n =>
      m.each (r.lineBytes n) (fun m p => m.act (.store p.1 p.2)))
    let m := m.each (lines.filter (fun n => isGeneric (n * 128))) (fun m n =>
      let e := (r.places.find? (fun e => e.1 == n)).getD (n, 0, 0)
      m.each (runsOf (r.lineBytes n)) (fun m run => m.publishRun o l e.2.1 (e.2.2 + BitVec.ofNat 64 (run.1 % 128)) run))
    m.when (o.scope != 0) (fun m => m.addRelease wi l m.now.nextId o.scope)
  | _, _ => m

/-- Whether the commit of a thread, issued before operation n, may take its step: it is a release at core scope, behind the
releases of the thread (R207, R214, R232). -/
def State.mayPublish (s : State) (wi l n : Nat) : Bool :=
  s.released wi l n 0 && !s.relHolds wi l n && !s.storeTrap wi l

/-- commit (R256): a thread whose step cannot be taken yet stands at the word. DEDUCED (log 32). -/
def execCommit (c : Bool) (g : Guard) (scope : BitVec 3) (s : State) : Out :=
  issueWord (.commit c g scope) s (fun lanes _ m =>
    let i := Instr.commit c g scope
    let wi := m.now.cur.warp
    let n := m.now.nextId
    let inside (l : Nat) : Bool := (m.now.thread wi l).region.isSome && (m.now.thread wi l).aborting.isNone
    let out := lanes.filter (fun l => (m.now.thread wi l).region.isNone)
    let now_ := lanes.filter (fun l => inside l && m.now.mayPublish wi l n)
    let wait := lanes.filter (fun l => inside l && !m.now.mayPublish wi l n)
    let o := m.now.opOf i .engine (wait.map (fun l =>
      { lane := l, addr := 0, loc := none, size := 0, pte := 0, data := [], state := .going })) 1 [] scope 0 none false false 0
    let m := m.fenceRelease out scope
    let m := m.stand wait .commit
    let m := m.each now_ (fun m l => m.publish o l)
    m.when (!wait.isEmpty) (fun m => (m.act (.ops (m.now.ops ++ [{ o with id := m.now.nextId }]))).fresh))

/-- The commits that wait take their steps as they may; a thread that no longer waits in its region leaves the word. -/
def Sim.commitDo (m : Sim k s0) (o : Op) : Sim k s0 :=
  let done (m : Sim k s0) (l : Nat) := m.modLane o.id l (fun x => { x with state := .done })
  let m := m.each (o.lanes.filter (fun x => !x.final)) (fun m x =>
    let t := m.now.thread o.warp x.lane
    if t.life != .live || t.region.isNone || t.aborting.isSome then done m x.lane
    else if m.now.mayPublish o.warp x.lane o.id then done (m.publish o x.lane) x.lane
    else m)
  m.settle o.id

/-- A thread no longer waits at its commit: the trap of a refused store takes it from there (R367). -/
def Sim.dropCommit (m : Sim k s0) (wi l : Nat) : Sim k s0 :=
  m.act (.ops (m.now.ops.map (fun o =>
    if o.warp == wi && o.kind == .engine && (match o.ins with | .commit .. => true | _ => false) then
      { o with lanes := o.lanes.map (fun x => if x.lane = l then { x with state := .dead } else x) }
    else o)))

/-! ## Rollback (R255) -/

/-- Whether every operation that a thread issued in its region has completed. -/
def State.regionQuiet (s : State) (wi l first : Nat) : Bool :=
  s.ops.all (fun o => !(o.warp == wi && first ≤ o.id && o.lanes.any (fun x => x.lane == l && !x.final)))

/-- Whether a thread's rollback is due. -/
def State.rollbackDue (s : State) (wi l : Nat) : Bool :=
  let t := s.thread wi l
  match t.life, t.region, t.hold with
  | .live, some r, .rollback n => t.aborting.isSome && n ≤ s.ac + 1 && s.regionQuiet wi l r.first
  | _, _, _ => false

/-- A thread restored to its checkpoint, resuming at L (R255). -/
def Thread.rolledBack (t : Thread) (quota ac : Nat) : Thread :=
  match t.region, t.aborting with
  | some r, some a =>
    let t := (r.regs.zip (List.range r.regs.length)).foldl (fun t p => t.setReg quota (r.base + p.2) p.1) t
    { t with preds := r.preds, tabc := a.code, tusr := a.user, tfa := if a.code = 5 then a.addr else t.tfa
             region := none, aborting := none, order := none, hold := .none, pc := r.target, pos := 1, line := [], entered := false
             notBefore := ac + 1 }
  | _, _ => t

/-- TRY_ROLLBACK (R255). -/
def execTryRollback (wi l : Nat) (s : State) : Out :=
  let m := begin_ true s
  if s.rollbackDue wi l then ran (m.modThread wi l (fun t => t.rolledBack (s.warp wi).quota s.ac)) else ran m

end Sys2Proof.Machine
end

