-- ==== Sys2Proof/Machine/Preempt.lean ====
section
/-! DEFINITION. Delivery of traps decided after issue (R362, R363), stop requests and the halting of gangs (R378–R383), and
world switches (R384, R409–R411). -/

namespace Sys2Proof.Machine

variable {k : Bool} {s0 : State}

/-! ## Delivery (R362, R363) -/

/-- The pending trap of lowest CAUSE. -/
def lowestPending (ps : List Pending) : Option Pending :=
  ps.foldl (fun b p => match b with
    | none => some p
    | some q => if p.cause.toNat < q.cause.toNat then some p else some q) none

/-- Whether a pending trap of a thread is at its delivery point: the thread is held, or its next word may issue. A thread
that rolls back, or whose gang is off the cores, is at none. DEDUCED (log 55). -/
def State.deliverable (s : State) (wi l : Nat) : Bool :=
  let t := s.thread wi l
  t.life == .live && !t.priv && !t.pend.isEmpty && t.aborting.isNone && (s.gang (s.gangOf wi)).state == GangState.placed &&
  (match t.hold with
   | .none => t.notBefore ≤ s.ac
   | .rollback _ => false
   | _ => true)

/-- The word at which a thread that takes a trap stands: one that it has issued and must still stand at (R367), or its next. -/
def State.standingAt (s : State) (wi l : Nat) : DWord :=
  match s.stands wi l, (s.thread wi l).order with
  | true, some o => o.word
  | _, _ => (s.thread wi l).wordAddr

/-- A thread leaves the word at which it stands, as though it had not issued it (R367). -/
def Sim.unstand (m : Sim k s0) (wi l : Nat) : Sim k s0 :=
  match m.now.stands wi l, (m.now.thread wi l).order with
  | true, some o =>
    (m.modThread wi l (fun t => { t with order := none, relUpTo := t.relUpTo.filter (fun r => r.1 != o.below) })).dropCommit wi l
  | _, _ => m

/-- TRAP_DELIVERY (R362, R367): the trap of lowest CAUSE is taken; the resume address is the word that the thread stands at. -/
def execTrapDelivery (wi l : Nat) (s : State) : Out :=
  let m := begin_ true s
  let t := s.thread wi l
  match s.deliverable wi l, lowestPending t.pend with
  | true, some p =>
    let rest := t.pend.erase p
    let m := (m.unstand wi l).modThread wi l (fun t => { t with pend := rest })
    ran (m.takeTrap wi l (m.now.thread wi l)
      { cause := p.cause.toNat, late := p.late, tval := p.tval, epc := s.standingAt wi l, pc := p.pc, va := p.va, lanes := maskOf [l] })
  | _, _ => ran m

/-! ## What a stop request names, in producer order (R378) -/

/-- The depth of a node of a graph along its edges; the edges from the body of a WHILE back to it are left out. -/
def Graph.depth (g : Graph) : Nat → Nat → Nat
  | 0, _ => 0
  | n + 1, i =>
    let preds := (List.range g.nodes).filter (fun j =>
      (g.succ j false ++ g.succ j true).contains i && !(g.kind i == 2 && (g.body i).contains j))
    maxOf (preds.map (fun j => Graph.depth g n j + 1))

/-- The place of a gang in the order: runs of graphs by node, then launches by STAGE and acceptance. -/
def State.producerKey (s : State) (gi : Nat) : List Nat :=
  let g := s.gang gi
  let l := s.launch g.launch
  match l.origin with
  | .node gr _ node => [0, gr.toNat, (s.graph? gr).elim 0 (fun x => x.depth x.nodes node), g.launch, g.index]
  | _ => [1, l.stage, g.launch, g.index]

/-- The lexicographic order. -/
def lexLt : List Nat → List Nat → Bool
  | [], [] => false
  | [], _ :: _ => true
  | _ :: _, [] => false
  | a :: as, b :: bs => a < b || (a == b && lexLt as bs)

/-- The gangs on the cores that a job names, in producer order. DESIGN CHOICE (log 64). -/
def State.jobGangs (s : State) (j : StopJob) : List Nat :=
  sortBy (fun a b => lexLt (s.producerKey a) (s.producerKey b))
    ((s.gangs.filter (fun g => g.2.state.onCores && jobNames j (s.launch g.2.launch))).map (·.1))

/-! ## The choice of a mode (R379) -/

/-- The warps of a gang. -/
def State.gangWarps (s : State) (gi : Nat) : List Nat := (s.gang gi).wgs.flatMap (fun w => (s.wg w).warps)

/-- The schedulers on which a gang resides. -/
def State.gangScheds (s : State) (gi : Nat) : List Nat :=
  (((s.gangWarps gi).filter (fun i => !(s.warp i).ended)).map s.schedOf).eraseDups

/-- C, the context size of a gang. -/
def State.contextSize (s : State) (gi : Nat) : Nat :=
  let ws := s.gangWarps gi
  let threads (i : Nat) : Nat := ((s.warp i).threads.filter (fun t => t.life != .empty)).length
  (ws.map (fun i => threads i * (64 + 4 * (s.warp i).quota) + 512 +
    136 * ((s.warp i).queues.map (fun q => q.2.hw.length)).sum + 128 * s.logUse i)).sum +
  ((s.gang gi).wgs.map (fun w => 64 + 4128 * ((s.wg w).localSize / 4096))).sum + 65536 * (s.gangScheds gi).length

/-- The progress word of a gang. -/
def State.progressWord (s : State) (gi : Nat) : Nat :=
  match s.memberOf gi 0 with
  | some w => if (s.wg w).localSize = 0 then 0 else s.readNat (localLoc w 0) 4 % 65536
  | none => 0

/-- How a gang is halted. -/
inductive HaltMode where
  | drain | flush | save
  deriving DecidableEq, Repr

/-- The mode of a gang when its turn comes (R379). -/
def State.haltMode (s : State) (x : Stop) (gi : Nat) : HaltMode :=
  let idem := (s.launch (s.gang gi).launch).idem
  let prog := s.progressWord gi
  let e := s.fc - (s.gang gi).started
  match x.mode with
  | .save => .save
  | .flushRestart => if idem then .flush else .save
  | .adaptive =>
    if prog ≠ 0 ∧ e * (65536 - prog) ≤ x.drainMax * prog then .drain
    else if idem ∧ 32 * e ≤ s.contextSize gi then .flush
    else .save

/-! ## FLUSH_RESTART and SAVE (R380–R382) -/

/-- FLUSH_RESTART (R380): the gang ends as kill.g ends it, without a record; its regions count as aborted. -/
def Sim.flushGang (m : Sim k s0) (gi : Nat) : Sim k s0 :=
  let m := m.modGang gi (fun g => { g with state := .flushed })
  let m := m.each (m.now.gangWarps gi) (fun m i => m.abortWarp i 6)
  let m := (m.killGang gi).dropLocal gi
  m.each (m.now.gang gi).wgs (fun m w =>
    (m.act (.clearMem (localLoc w 0) (localLoc w 0 + 2 ^ 20))).act
      (.clearFe (granuleOf (localLoc w 0)) (granuleOf (localLoc w 0) + 2 ^ 16)))

/-- A thread of a gang that a save holds (R381): one held in a collective or a barrier has not arrived. -/
def Thread.unarrived (t : Thread) : Thread :=
  match t.hold with
  | .coll _ | .barrier .. => { t with hold := .none }
  | _ => t

/-- A save begins (R380): the regions of the gang abort with PREEMPT and its threads are held. -/
def Sim.beginSave (m : Sim k s0) (gi : Nat) : Sim k s0 :=
  let m := m.modGang gi (fun g => { g with state := .saving, drainBy := none })
  m.each (m.now.gangWarps gi) (fun m i =>
    (m.abortWarp i 6).modWarp i (fun w => { w with threads := w.threads.map Thread.unarrived }))

/-- Gangs of other jobs that are saved with a gang: those that share an accumulator bank with it, or with one of them. -/
def State.sharers (s : State) (j : StopJob) : Nat → List Nat → List Nat
  | 0, gs => gs
  | n + 1, gs =>
    let scs := gs.flatMap s.gangScheds
    let more := (s.gangs.filter (fun g => g.2.state == .placed && !gs.contains g.1 && !jobNames j (s.launch g.2.launch) &&
      (s.gangScheds g.1).any (fun c => scs.contains c))).map (·.1)
    if more.isEmpty then gs else State.sharers s j n (gs ++ more)

/-- A gang saved by a stop, with those that share its banks (R378). DEDUCED (log 65). -/
def Sim.saveGang (m : Sim k s0) (j : StopJob) (gi : Nat) : Sim k s0 :=
  m.each (m.now.sharers j m.now.gangs.length [gi]) (fun m g => m.beginSave g)

/-- Whether an operation goes on while its gang is saved (R382): an access that waits for FE, a queue flush, a tap, and a
matrix operation, which is treated by itself. -/
def Op.outlasts (o : Op) : Bool :=
  o.waitsFull.isSome ||
  (match o.ins with
   | .qflush .. | .tap .. | .mma .. | .mdrainL .. | .mdrainR .. | .mzero .. => true
   | _ => false)

/-- Whether a matrix operation can run to its end as things stand: every row group left is ready, and what it waits for is
its block, a page, or nothing. -/
def State.mopRuns (s : State) (q : Mop) : Bool :=
  let p := productOf q.ctl q.block
  q.what != .product || q.status == 1 || q.status == 2 || (q.waits && q.block.isEmpty) ||
  (List.range (p.mt + 1)).all (fun i => q.done.contains i ||
    ((q.taken.contains i || s.groupReady p i) && (q.waits || s.readable q i)))

/-- Whether a matrix operation and those before it on its sequencer can run to their ends as things stand. -/
def State.mopEnds (s : State) (q : Mop) : Bool :=
  s.mopRuns q && (s.mops.takeWhile (fun p => p.id != q.id)).all (fun p => p.sched != q.sched || s.mopRuns p)

/-- The matrix operations of a gang that are completed before its save. -/
def State.mopsToRun (s : State) (gi : Nat) : List Mop := s.mops.filter (fun q => s.gangOf q.warp == gi && s.mopEnds q)

/-- Whether a gang that a save holds has nothing left to complete (R380, R382). -/
def State.saveQuiet (s : State) (gi : Nat) : Bool :=
  let mine (wi : Nat) : Bool := s.gangOf wi == gi
  s.ops.all (fun o => !mine o.warp || o.outlasts || o.lanes.all (fun x => x.final || x.state == .held)) &&
  s.cmds.all (fun c => !mine c.warp || c.status.isSome || !(c.port == 1 || c.port == 4 || c.port == 5)) &&
  (s.gangWarps gi).all (fun i => (s.warp i).threads.all (fun t => t.aborting.isNone)) &&
  (s.mopsToRun gi).isEmpty

/-- A matrix operation abandoned (R382): its tiles hold what they held before it, and it stands to be received again. -/
def Sim.abandonMop (m : Sim k s0) (q : Mop) : Sim k s0 :=
  let m := m.each q.before (fun m p => m.act (.tile p.1 p.2))
  (m.pinAll q.pins false).modMop q.id (fun q =>
    { q with sched := 1024 + q.warp, status := if q.what = .product then 0 else q.status, taken := [], done := [], gates := [], seen := []
             before := [], waits := q.what == .product, pins := [] })

/-- The bank of a scheduler, by the distance of each accumulator from its first. -/
def State.bank (s : State) (sc : Nat) : List (Nat × Word) :=
  let lo := tileKey sc 0 0 0
  let hi := tileKey (sc + 1) 0 0 0
  (s.tiles.filter (fun p => lo ≤ p.1 && p.1 < hi)).map (fun p => (p.1 - lo, p.2))

/-- The distances from s0 of the schedulers that a workgroup resides on. -/
def State.wgScheds (s : State) (w : Nat) : List Nat :=
  let g := s.wg w
  (List.range 4).filter (fun j => g.warps.any (fun i => !(s.warp i).ended && (s.warp i).sched == (g.s0 + j) % 4))

/-- cntc of a scheduler as a word. -/
def Sched.cntc (x : Sched) : Word := BitVec.ofNat 32 (x.tper % 2 ^ 16 * 2 ^ 16 + x.frz.toNat)

/-- The cntc of each scheduler on which a gang resides, as a world switch saves it with the gang (R384). -/
def State.gangCntc (s : State) (gi : Nat) : List (Nat × Word) := (s.gangScheds gi).map (fun sc => (sc, (s.sched sc).cntc))

/-- A gang off the cores with its context saved (R381, R382); cntc goes with it in a world switch (R384). -/
def Sim.detach (m : Sim k s0) (gi : Nat) (cntc : Bool) : Sim k s0 :=
  let m := m.each ((m.now.mops.filter (fun q => m.now.gangOf q.warp == gi)).reverse) (fun m q => m.abandonMop q)
  let s := m.now
  let g := s.gang gi
  let spots := g.wgs.flatMap (fun w => (s.wgScheds w).map (fun j => (4 * w + j, 4 * (s.wg w).core + ((s.wg w).s0 + j) % 4)))
  let holders := (s.gangWarps gi).filter (fun i => (s.sched (s.schedOf i)).token == some i)
  let m := m.modGang gi (fun g =>
    { g with state := .saved, drainBy := none, tiles := spots.map (fun p => (p.1, s.bank p.2)), tokens := holders
             cntc := if cntc then s.gangCntc gi else [] })
  let m := m.each holders (fun m i => m.modSched (m.now.schedOf i) (fun x => { x with token := none }))
  m.each (m.now.gangWarps gi) (fun m i => m.modWarp i (fun w => { w with resident := false }))

/-! ## World switches (R384, R409–R411) -/

/-- The counters of the package in ascending order of scheduler and counter, with their claimed owners. -/
def State.claims (s : State) : List (Nat × Nat × Counter) :=
  (List.range 1024).flatMap (fun sc =>
    match Keyed.find s.scheds sc with
    | some x => (x.counters.zip (List.range 8)).filterMap (fun p => if p.1.claimed then some (sc, p.2, p.1) else none)
    | none => [])

/-- The save record of a counter (R410). -/
def counterRecord (sc i nset : Nat) (c : Counter) : List Byte :=
  leBytes 4 (2 ^ 31 + sc / 4 * 2 ^ 23 + sc % 4 * 2 ^ 21 + i * 2 ^ 18 + c.owner.toNat) ++ List.replicate 28 0 ++
  (List.range 4).flatMap (fun j =>
    if j < nset then
      let q := c.slot j
      wordBytes (q.config j i) ++ leBytes 4 0 ++ leBytes 8 q.value.toNat ++ leBytes 8 q.te.toNat ++ leBytes 8 q.tr.toNat
    else List.replicate 32 0)

/-- Bytes that the root controller writes to physical memory, at the ordering point of their lines. -/
def Sim.physWrite (m : Sim k s0) (pa : Nat) (bytes : List Byte) : Sim k s0 :=
  let lines := ((List.range bytes.length).map (fun i => lineOf (physLoc (pa + i)))).eraseDups
  let m := m.store (physLoc pa) bytes
  let m := m.act (.l1 (m.now.l1.map (fun e => if lines.contains e.line then m.now.l1After none [] [] e else e)))
  let m := (m.dropDups lines).conflict lines none
  m.each lines (fun m n => m.wroteLine (Cells.get CacheLine.absent m.now.l2 n).owner n)

/-- The virtual function of a tag. -/
def State.vfOf (s : State) (t : Tag) : Option (BitVec 6) := (s.owner t).vf

/-- A function switched out (R410): its counters' records, and the word of zero that ends them. DEDUCED (log 66). -/
def Sim.switchOut (m : Sim true s0) (v : BitVec 6) : Sim true s0 :=
  match Keyed.find m.now.vfs v.toNat with
  | none => m
  | some x =>
    let mine := m.now.claims.filter (fun c => m.now.vfOf c.2.2.owner == some v)
    let area := x.desc.saveArea.toNat
    let m := (mine.zip (List.range mine.length)).foldl (fun m p =>
      m.physWrite (area + 160 * p.2) (counterRecord p.1.1 p.1.2.1 (m.now.sched p.1.1).nset p.1.2.2)) m
    (m.physWrite (area + 160 * mine.length) (leBytes 4 0)).sys (.vf v.toNat { x with out := true })

/-- A slot restored from its part of a record (R411): TE keeps its count. -/
def CounterSlot.restored (q : CounterSlot) (bytes : List Byte) : CounterSlot :=
  let cfg := leNat (bytes.take 4)
  { q with en := bits cfg 31 31 == 1, ovi := bits cfg 30 30 == 1, ovf := bits cfg 27 27 == 1, event := bits cfg 23 12
           value := BitVec.ofNat 48 (leNat ((bytes.drop 8).take 8)), tr := BitVec.ofNat 48 (leNat ((bytes.drop 24).take 8)) }

/-- One record restored, or skipped (R411). -/
def Sim.restoreCounter (m : Sim k s0) (v : BitVec 6) (bytes : List Byte) : Sim k s0 :=
  let w := leNat (bytes.take 4)
  let sc := 4 * bits w 30 23 + bits w 22 21
  let i := bits w 20 18
  let owner : Tag := BitVec.ofNat 12 (bits w 11 0)
  let part (j : Nat) : List Byte := (bytes.drop (32 + 32 * j)).take 32
  let cfg (j : Nat) : Nat := leNat ((part j).take 4)
  let c := (m.now.sched sc).counter i
  let bad := (List.range 4).any (fun j => !eventListed (bits (cfg j) 23 12) || bits (cfg j) 26 24 != 0 || bits (cfg j) 11 5 != 0)
  if m.now.vfOf owner != some v || (c.claimed && m.now.vfOf c.owner != some v) || bad then m
  else
    m.modSched sc (fun x =>
      let c := (List.range x.nset).foldl (fun c j => c.setSlot j (fun q => q.restored (part j))) (x.counter i)
      { x with counters := x.counters.set i { c with claimed := true, owner := owner } })

/-- Records read up to the first that is not VALID. -/
def Sim.restoreCounters (m : Sim k s0) (v : BitVec 6) : Nat → Nat → Sim k s0
  | 0, _ => m
  | n + 1, area =>
    let bytes := m.now.bytes (physLoc area) 160
    if bits (leNat (bytes.take 4)) 31 31 = 0 then m
    else (m.restoreCounter v bytes).restoreCounters v n (area + 160)

/-- The cntc of the schedulers on which gangs of a function resided, as its switch-out saved them (R384). -/
def Sim.restoreCntc (m : Sim k s0) (v : BitVec 6) : Sim k s0 :=
  m.each (m.now.gangs.filter (fun g => (m.now.launch g.2.launch).vf == v)) (fun m g =>
    (m.each g.2.cntc (fun m p => m.modSched p.1 (fun q =>
      { q with tper := p.2.toNat / 2 ^ 16, frz := p.2.extractLsb' 0 8, cntcVf := some v, tick := 0 }))).modGang g.1
        (fun g => { g with cntc := [] }))

/-- A function switched in (R384, R411): its counters and cntc are as they were before any gang of it is placed. -/
def Sim.switchIn (m : Sim true s0) (v : BitVec 6) : Sim true s0 :=
  match Keyed.find m.now.vfs v.toNat with
  | none => m
  | some x =>
    if !x.out then m
    else ((m.restoreCounters v 8192 x.desc.saveArea.toNat).restoreCntc v).sys (.vf v.toNat { x with out := false })

/-! ## Stops (R378, R383) -/

/-- Whether a gang has halted. -/
def State.haltedGang (s : State) (gi : Nat) : Bool := !((s.gang gi).state.onCores)
/-- Whether a halted gang is one that the stop halted: not one that retired before its turn. -/
def State.countsHalted (s : State) (gi : Nat) : Bool := (s.gang gi).state != .retired || (s.gang gi).drainBy.isSome

/-- The stop with the halted gangs at its head taken off. -/
def Stop.advance (x : Stop) (s : State) : Nat → Stop
  | 0 => x
  | n + 1 =>
    match x.todo with
    | [] => x
    | g :: rest =>
      if s.haltedGang g then Stop.advance { x with todo := rest, halted := x.halted + (if s.countsHalted g then 1 else 0) } s n
      else x

/-- A stop complete (R383): the command is answered, or the world switch goes on. -/
def Sim.stopDone (m : Sim true s0) (x : Stop) : Sim true s0 :=
  let m := match x.reply with
    | some h => m.complete h 0 (BitVec.ofNat 32 x.halted) 0
    | none => m
  match x.switch, x.job with
  | some into, .vf v =>
    let m := m.switchOut v
    (match into with
     | some w => m.switchIn w
     | none => m)
  | _, _ => m

/-- Every stop advanced, and those complete taken off. -/
def Sim.stopsAdvance (m : Sim true s0) : Sim true s0 :=
  let xs := m.now.stops.map (fun x => x.advance m.now x.todo.length)
  let m := m.act (.stops (xs.filter (fun x => !x.todo.isEmpty)))
  m.each (xs.filter (fun x => x.todo.isEmpty)) (fun m x => m.stopDone x)

/-- A stop request begun (R378). -/
def Sim.startStop (m : Sim true s0) (job : StopJob) (mode : StopMode) (drainMax : Nat) (reply : Option CmdHeader)
    (switch : Option (Option (BitVec 6))) : Sim true s0 :=
  (m.act (.stops (m.now.stops ++
    [{ job := job, mode := mode, drainMax := drainMax, todo := m.now.jobGangs job, halted := 0, reply := reply, switch := switch }]))).stopsAdvance

/-- STOP (R378, R442). -/
def execStop (h : CmdHeader) (job : StopJob) (mode : StopMode) (drainMax : Nat) (s : State) : Out :=
  mailboxWord h false false s (fun m => m.startStop job mode drainMax (some h) none)

/-- GANG_HALT (R380): a gang whose turn has come begins to halt by its mode; a gang being saved leaves the cores once it is
quiet. -/
def execGangHalt (gi : Nat) (s : State) : Out :=
  let m := begin_ true s
  let g := s.gang gi
  if g.state = .saving then
    if s.saveQuiet gi then
      ran ((m.detach gi (s.stops.any (fun x => x.switch.isSome && jobNames x.job (s.launch g.launch)))).stopsAdvance)
    else ran m
  else match s.stops.find? (fun x => x.todo.head? == some gi) with
    | none => ran m
    | some x =>
      if s.haltedGang gi then ran m.stopsAdvance
      else if g.drainBy.isSome then ran m
      else match s.haltMode x gi with
        | .drain => ran (m.modGang gi (fun g => { g with drainBy := some (s.fc + 2 * x.drainMax) }))
        | .flush =>
          let cntc := if x.switch.isSome then s.gangCntc gi else []
          ran ((m.flushGang gi).modGang gi (fun g => { g with cntc := cntc })).stopsAdvance
        | .save => ran (m.saveGang x.job gi)

/-- DRAIN_TIMEOUT (R380): a draining gang not retired in time is saved. -/
def execDrainTimeout (gi : Nat) (s : State) : Out :=
  let m := begin_ true s
  let g := s.gang gi
  match g.state, g.drainBy with
  | .placed, some t =>
    if t ≤ s.fc then
      let job := (s.stops.find? (fun x => x.todo.contains gi)).elim (StopJob.launch 0) (·.job)
      ran (m.saveGang job gi)
    else ran m
  | _, _ => ran m

/-- WORLD_SWITCH (R384): every job of the function that goes out is stopped, in ADAPTIVE mode with DRAINMAX 0; then its
counters are saved, and the function that comes in is restored. -/
def execWorldSwitch (out into : Option (BitVec 6)) (s : State) : Out :=
  let m := begin_ true s
  let timed (v : BitVec 6) : Bool := (Keyed.find s.vfs v.toNat).elim false (fun x => !x.desc.spatial)
  match out with
  | some v =>
    if timed v && (Keyed.find s.vfs v.toNat).elim false (fun x => !x.out) &&
       !s.stops.any (fun x => x.switch.isSome && x.job == .vf v) && into.elim true timed && into != some v then
      ran (m.startStop (.vf v) .adaptive 0 none (some into))
    else ran m
  | none =>
    match into with
    | some w => if timed w then ran (m.switchIn w) else ran m
    | none => ran m

end Sys2Proof.Machine
end

