-- ==== Sys2Proof/Machine/Complete.lean ====
section
/-! DEFINITION. The completion of long-latency operations (R25): what each engine does with a word when it is due, and
the removal of cached translations (R376). -/

namespace Sys2Proof.Machine

variable {k : Bool} {s0 : State}

/-! ## tlbinv (R376) -/

/-- Whether a tlbinv covers some 64 KiB pages of an owner; own is the owner of its launch. -/
def Op.covers (o : Op) (own : Tag) (x : LaneOp) (owner : Tag) (first pages : Nat) : Bool :=
  match o.ins with
  | .tlbinvAll .. => true
  | .tlbinvOwn .. => owner == own
  | _ =>
    let lo := x.addr.toNat % 2 ^ 57 / 65536
    let n := (x.word 0).toNat
    owner == own && n != 0 && lo < first + pages && first < lo + n

/-- Whether a tlbinv covers a cached entry. -/
def Op.coversEntry (o : Op) (own : Tag) (x : LaneOp) (t : TlbEntry) : Bool :=
  o.covers own x t.owner (t.page * 2 ^ levelShift t.level / 65536) (2 ^ levelShift t.level / 65536)

/-- Whether a tlbinv covers a page of a range of addresses. -/
def Op.coversRange (o : Op) (own : Tag) (x : LaneOp) (owner : Tag) (va : DWord) (n : Nat) : Bool :=
  o.covers own x owner (va.toNat % 2 ^ 57 / 65536) ((va.toNat % 65536 + n + 65535) / 65536)

/-- Pages of the ATC removed, from a page of 4 KiB on (R185). -/
def Sim.dropAtc (m : Sim k s0) (lo n : Nat) : Sim k s0 :=
  m.each ((m.now.atc.filter (fun p => lo ≤ p.1 && p.1 < lo + n)).map (·.1)) (fun m p => m.act (.atc p false))

/-- The ATC pages of a HOST entry removed. -/
def Sim.dropHost (m : Sim k s0) (t : TlbEntry) : Sim k s0 :=
  let e := t.pte.toNat
  if pteKind e = 1 then m.dropAtc (pteFrame e / 4096) (2 ^ levelShift t.level / 4096) else m

/-- The covered translations removed; the lane notes the operations that came before (as the next number, plus one). -/
def Sim.invalidate (m : Sim k s0) (o : Op) (x : LaneOp) : Sim k s0 :=
  let own := m.now.ownerOf o.warp
  let gone := m.now.tlb.filter (o.coversEntry own x)
  let m := m.each gone (fun m t => m.dropHost t)
  let m := m.act (.tlb (m.now.tlb.filter (fun t => !o.coversEntry own x t)))
  let m := match o.ins with
    | .tlbinvAll .. => m.dropAtc 0 (2 ^ 52)
    | _ => m
  m.modLane o.id x.lane (fun x => { x with pte := m.now.nextId + 1 })

/-- The ranges of addresses whose pages are pinned, with their owners (R270, R277, R294). -/
def State.pinnedRanges (s : State) : List (Tag × DWord × Nat) :=
  s.warps.flatMap (fun w => (w.2.queues.filter (fun q => !q.2.pins.isEmpty)).map (fun q =>
    (s.ownerOf w.1, q.2.base, 256 * q.2.qs))) ++
  (s.cmds.filter (fun c => !c.pins.isEmpty)).flatMap (fun c =>
    let owner := s.ownerOf c.warp
    let w (i : Nat) : Word := wordAt c.words i
    if c.port = 5 then
      [(owner, cat64 (w 2) (w 1), (w 5).toNat), (owner, cat64 (w 4) (w 3), 64 * (w 5).toNat)]
    else if c.port = 3 then
      (match (s.taps.find? (fun p => p.cmd == some c.id)).bind (fun p => descOf p.desc) with
       | some d => (tapRanges ((List.range 8).map (fun i => w (i + 1))) d).map (fun r => (owner, r))
       | none => [])
    else match copyOf c with
      | some d =>
        (List.range d.rows).flatMap (fun r =>
          (if d.srcSp = 0 then [(owner, rowAddr d.src d.sstride r, d.len)] else []) ++
          (if d.dstSp = 0 then [(owner, rowAddr d.dst d.dstride r, d.len)] else []))
      | none => []) ++
  (s.mops.filter (fun q => !q.pins.isEmpty)).flatMap (fun q =>
    let p := productOf q.ctl q.block
    let owner := s.ownerOf q.warp
    (if p.a.loc then [] else (List.range p.m).map (fun r => (owner, BitVec.ofNat 64 (p.a.row r), p.aBytes))) ++
    (if p.b.loc then [] else (List.range p.n).map (fun r => (owner, BitVec.ofNat 64 (p.b.row r), p.bBytes))))

/-- Whether a tlbinv whose entries are removed is complete: no access under way used one of them, and no covered page is
pinned. -/
def State.invalidated (s : State) (o : Op) (x : LaneOp) : Bool :=
  let own := s.ownerOf o.warp
  s.ops.all (fun e => x.pte ≤ e.id + 1 || e.lanes.all (fun y =>
    y.final || y.pte == 0 || y.loc.isNone || !o.coversRange own x (s.ownerOf e.warp) y.addr y.size)) &&
  s.pinnedRanges.all (fun r => !o.coversRange own x r.1 r.2.1 r.2.2)

/-- tlbinv performed, once every earlier access of the thread is performed at dev scope. -/
def Sim.tlbinvDo (m : Sim k s0) (o : Op) : Sim k s0 :=
  m.eachLane o (fun m x =>
    let m := m.when (x.pte == 0) (fun m => m.invalidate o x)
    match (m.now.op? o.id).bind (fun o => o.lanes.find? (fun y => y.lane == x.lane)) with
    | some y => if m.now.invalidated o y then m.laneDone o x.lane 0 [] else m
    | none => m)

/-! ## Completion (R25) -/

/-- An operation that is due performs what it may, and completes when nothing of it is left: an access by its lanes, a
word of an engine by that engine. One whose results are known at issue, or that no lane performs, only completes. -/
def Sim.runOp (m : Sim k s0) (o : Op) : Sim k s0 :=
  if o.kind = .fixed then m.progress o.id
  else match o.ins with
  | .qflush .. => m.qflushDone o
  | .commit .. => if o.kind = .engine then m.commitDo o else m.progress o.id
  | .launch _ _ _ d _ => m.launchDo o d
  | .gsignal _ _ _ d _ => m.gsignalDo o d
  | .dsel _ _ _ d _ => m.dselDo o d
  | .tkrd _ _ _ d _ => m.ticketDo o d (fun m x _ v t => m.tkrdOne x v t)
  | .tkwr _ _ _ d _ => m.ticketDo o d Sim.tkwrOne
  | .tkappend _ _ _ d _ => m.ticketDo o d Sim.tkappendOne
  | .tktrunc _ _ _ d _ => m.ticketDo o d Sim.tktruncOne
  | .tkret _ _ _ d _ => m.ticketDo o d (fun m x _ v t => m.tkretOne x v t)
  | .tkfork _ _ _ d _ => m.ticketDo o d Sim.tkforkOne
  | .kvmap _ _ _ d _ => m.ticketDo o d (fun m x _ v t => m.kvmapOne x v t)
  | .rot _ _ _ d _ => m.rotDo o d
  | .tap _ _ _ d _ => m.tapDo o d
  | .fget _ _ _ d _ => m.fgetDo o d
  | .frd _ _ _ d _ => m.frdDo o d
  | .fwr _ _ _ d _ => m.fwrDo o d
  | .frel _ _ _ d _ => m.frelDo o d
  | .fdec _ _ _ d _ => m.fdecDo o d
  | .pres _ _ _ d _ => m.reserveDo o true d
  | .prel _ _ _ d _ => m.reserveDo o false d
  | .pdisc .. => m.pageDo o .disc
  | .pflush _ _ _ _ _ inv => m.pageDo o (.flush inv)
  | .pmig .. => m.pageDo o .mig
  | .tlbinv .. | .tlbinvOwn .. | .tlbinvAll .. => m.tlbinvDo o
  | .icinv .. | .icinvAll .. => m.icinvDo o
  | .mma .. => (m.dropArrivals o).settle o.id
  | _ => m.progress o.id

/-- LONG_LATENCY_COMPLETE (R25). -/
def execLongLatencyComplete (op : Nat) (s : State) : Out :=
  let m := begin_ true s
  match s.op? op with
  | none => ran m
  | some o => if s.ac < o.due then ran m else ran (m.runOp o)

end Sys2Proof.Machine
end

