-- ==== Sys2Proof/Machine/Fabric.lean ====
section
/-! DEFINITION. The receipt of commands (R273, R422), fabric collectives (R278, R422–R425), ring revolutions (R429, R430),
replicated launch (R420, R421), members that leave, and what arrives from other packages (R418, R419). -/

namespace Sys2Proof.Machine

variable {k : Bool} {s0 : State}

/-- Group i. -/
def State.group? (s : State) (i : BitVec 8) : Option Group := Keyed.find s.groups i.toNat

/-- The rank of a package in a group. -/
def Group.rank (g : Group) (pkg : BitVec 6) : Option Nat := g.members.findIdx? (· == pkg)

/-- A group with a field changed. -/
def Sim.modGroup (m : Sim k s0) (i : BitVec 8) (f : Group → Group) : Sim k s0 :=
  match m.now.group? i with
  | some g => m.act (.group i.toNat (f g))
  | none => m

/-! ## Revolutions (R429, R430) -/

/-- Whether a step of the instance bound to a ring runs. -/
def State.inStep (s : State) (g : Group) : Bool := g.ring && (s.inst? g.inst).elim false (fun x => x.state == .running)

/-- Whether the revolution of a ring is under way: neither closed nor abandoned. -/
def State.revolving (s : State) (g : Group) : Bool := s.inStep g && !g.closed && !g.abandoned

/-- Whether commands of a group complete with LOST at once (R430). -/
def State.lostAtOnce (s : State) (g : Group) : Bool := g.broken || (s.inStep g && g.abandoned)

/-- Commands of a group still pending that satisfy a test on their number complete with LOST. -/
def Sim.losePending (m : Sim k s0) (i : BitVec 8) (n : Nat) (p : Nat → Bool) : Sim k s0 :=
  m.each m.now.cmds (fun m c =>
    match c.status, c.group with
    | none, some (j, k) => if j = i ∧ p k then m.decide_ c.id 8 0 k n else m
    | _, _ => m)

/-- The revolution of a ring is abandoned (R430): its pending collectives are lost, and the ACTIVE tickets of the bound
slots are marked. -/
def Sim.abandonRing (m : Sim k s0) (i : BitVec 8) : Sim k s0 :=
  match m.now.group? i with
  | none => m
  | some g =>
    if !m.now.revolving g then m
    else
      let m := m.act (.group i.toNat { g with abandoned := true })
      (m.losePending i g.members.length (fun k => g.numbered.contains k)).markLost g

/-- Whether a deadline of a revolution has passed: of a collective since its first receipt, or of the close since the
first STEP node started. -/
def State.ringLate (s : State) (i : BitVec 8) (g : Group) : Bool :=
  g.dl != 0 &&
  (s.cmds.any (fun c => c.status.isNone && (match c.group with
      | some (j, k) => j == i && g.first.any (fun p => p.1 == k && decide (p.2 + g.dl ≤ s.fc))
      | none => false)) ||
   g.started.elim false (fun t => decide (t + g.dl ≤ s.fc)))

/-- REVOLUTION_ABANDON (R430): a deadline has passed, or another member reports a failed collective or its own deadline. -/
def execRevolutionAbandon (group : BitVec 8) (s : State) : Out := ran ((begin_ true s).abandonRing group)

/-- Whether a member sees the close of its revolution: its STEP node has started and no collective of it is pending. -/
def State.closable (s : State) (i : BitVec 8) (g : Group) : Bool :=
  s.revolving g && g.started.isSome &&
  !s.cmds.any (fun c => c.status.isNone && (match c.group with | some (j, k) => j == i && g.numbered.contains k | none => false))

/-- REVOLUTION_CLOSE (R429). -/
def execRevolutionClose (group : BitVec 8) (s : State) : Out :=
  let m := begin_ true s
  match s.group? group with
  | some g => if s.closable group g then ran (m.act (.group group.toNat { g with closed := true })) else ran m
  | none => ran m

/-! ## Fabric commands (R278, R422, R423) -/

/-- RED of a fabric command. -/
def Cmd.red (c : Cmd) : Nat := bits (wordAt c.words 0).toNat 27 24
/-- LEN. -/
def Cmd.len (c : Cmd) : Nat := (wordAt c.words 5).toNat
/-- ROOT. -/
def Cmd.root (c : Cmd) : BitVec 6 := (wordAt c.words 6).extractLsb' 8 6
/-- GROUP. -/
def Cmd.gid (c : Cmd) : BitVec 8 := (wordAt c.words 6).extractLsb' 0 8
/-- Whether an OP reduces, and so has a RED. -/
def reduces (op : Nat) : Bool := op == 0 || op == 3

/-- Whether a fabric command is MALFORMED (R278). -/
def fabricBad (c : Cmd) : Bool :=
  let w0 := (wordAt c.words 0).toNat
  c.mask &&& 0xFF != 0xFF || 5 ≤ c.op || (reduces c.op && 6 ≤ c.red) || bits w0 23 23 != 0 || bits w0 21 20 != 0 ||
  bits (wordAt c.words 6).toNat 31 14 != 0 || wordAt c.words 7 != 0 || 2 ^ 24 < c.len || c.len % 4 != 0 ||
  (reduces c.op && c.red == 5 && c.len % 8 != 0) || (c.op != 4 && c.len == 0)

/-- The number that a group gives a command at its receipt, with what a revolution under way notes of it. -/
def Sim.number (m : Sim k s0) (id : Nat) (i : BitVec 8) (g : Group) : Sim k s0 :=
  let n := g.next
  let inRev := m.now.revolving g && g.started.isNone
  let m := m.act (.group i.toNat
    { g with next := n + 1, numbered := if inRev then g.numbered ++ [n] else g.numbered
             first := if inRev then g.first ++ [(n, m.now.fc)] else g.first })
  m.modCmd id (fun c => { c with group := some (i, n) })

/-- A FABRIC command received: it takes its number in its group; one that is MALFORMED, of no group, or lost at once ends
here. A collective of a revolution that ends other than OK abandons the revolution. -/
def Sim.toFabric (m : Sim k s0) (c : Cmd) : Sim k s0 :=
  if c.port ≠ 5 then m
  else
    let bad := c.status.isSome || fabricBad c
    match m.now.group? c.gid with
    | some g =>
      if g.owner == m.now.ownerOf c.warp && (g.rank m.now.config.pkg).isSome then
        let lost := m.now.lostAtOnce g
        let m := m.number c.id c.gid g
        if bad then (m.decide_ c.id 1 0 g.next g.members.length).when ((m.now.group? c.gid).elim false (fun h => h.numbered.contains g.next))
          (fun m => m.abandonRing c.gid)
        else if lost then m.decide_ c.id 8 0 g.next g.members.length
        else m
      else m.decide_ c.id (if bad then 1 else 9) 0 0 0
    | none => m.decide_ c.id (if bad then 1 else 9) 0 0 0

/-! ## Receipt (R273) -/

/-- COMMAND_RECEIVE (R273): the command leaves its queue and counts its flag up; a FLAG of 12–14 is MALFORMED and counts
none. -/
def execCommandReceive (wi : Nat) (q : BitVec 4) (s : State) : Out :=
  let m := begin_ true s
  if !s.receivable wi q.toNat then ran m
  else
    let b := (s.warp wi).queue q.toNat
    let e := s.headEntry wi q.toNat
    let f := bits (wordAt e.words 0).toNat 19 16
    let c : Cmd :=
      { id := s.nextId, port := b.kind, warp := wi, mask := e.mask, words := e.words, flag := if f < 12 then some f else none
        status := if 12 ≤ f ∧ f ≤ 14 then some 1 else none, bytes := 0, extra0 := 0
        extra3 := if b.kind = 4 ∧ 12 ≤ f ∧ f ≤ 14 then 0xFFFFFFFF else 0, owned := [], pins := []
        begun := false, group := none }
    let m := (m.fresh.popEntry wi q.toNat).modWarp wi (fun w => { w with unreceived := w.unreceived - 1 })
    let m := if f < 12 then m.modWarp wi (fun w => w.flagAdd f true) else m
    ran (((m.act (.cmds (m.now.cmds ++ [c]))).toSequencer c).toFabric c)

/-! ## What a collective writes (R424, R425) -/

/-- A sum of the ranks' elements by the tree of R161, over 64 positions. -/
def rankSum (ws : List Word) : Word :=
  let q : List (Option (Word × FFlags)) := (List.range 64).map (fun i => (ws[i]?).map (fun w => (w, 0)))
  let r := addLevel (addLevel (addLevel (addLevel (addLevel (addLevel q)))))
  canonWord ((r.headD none).getD (0, 0)).1

/-- The elements of one position reduced, by rank. -/
def reduceWords (red : Nat) (ws : List Word) : Word :=
  let fold (f : Word → Word → Word) : Word := match ws with | [] => 0 | w :: r => r.foldl f w
  match red with
  | 0 => rankSum ws
  | 1 => fold (fun a b => (minMaxF true a b).1)
  | 2 => fold (fun a b => (minMaxF false a b).1)
  | 3 => fold (· + ·)
  | _ => fold (fun a b => if a.ult b then b else a)

/-- The pair that ranks above the others (R308). -/
def topPair (ps : List (Word × Word)) : Word × Word :=
  match ps with
  | [] => (0, 0)
  | p :: r => r.foldl (fun best q => if ranksAbove (q.2.toNat, fval q.1) (best.2.toNat, fval best.1) then q else best) p

/-- The element-wise reduction of the ranks' bytes. -/
def reduceBytes (red n : Nat) (srcs : List (List Byte)) : List Byte :=
  if red = 5 then
    (List.range (n / 8)).flatMap (fun i =>
      let p := topPair (srcs.map (fun b => (imageWord b (2 * i), imageWord b (2 * i + 1))))
      wordBytes p.1 ++ wordBytes p.2)
  else (List.range (n / 4)).flatMap (fun i => wordBytes (reduceWords red (srcs.map (fun b => imageWord b i))))

/-- The bytes that a member of rank i writes. -/
def collBytes (op red len rank root : Nat) (srcs : List (List Byte)) : List Byte :=
  match op with
  | 0 => reduceBytes red len srcs
  | 1 => (srcs.getD root []).take len
  | 2 => srcs.flatMap (fun b => b.take len)
  | 3 => reduceBytes red len (srcs.map (fun b => (b.drop (rank * len)).take len))
  | _ => []

/-- Bytes of SRC that a member reads, and of DST that it writes. -/
def collSizes (op len n : Nat) (isRoot : Bool) : Nat × Nat :=
  match op with
  | 0 => (len, len)
  | 1 => (if isRoot then len else 0, len)
  | 2 => (len, n * len)
  | 3 => (n * len, len)
  | _ => (0, 0)

/-! ## A collective performed (R423) -/

/-- The bytes of SRC that this member reads in a collective of n members. -/
def State.collSrc (s : State) (c : Cmd) (n : Nat) : DWord × Nat :=
  (cat64 (wordAt c.words 2) (wordAt c.words 1), (collSizes c.op c.len n (c.root == s.config.pkg)).1)
/-- The bytes of DST that this member writes in a collective of n members. -/
def State.collDst (s : State) (c : Cmd) (n : Nat) : DWord × Nat :=
  (cat64 (wordAt c.words 4) (wordAt c.words 3), (collSizes c.op c.len n (c.root == s.config.pkg)).2)
/-- The addresses that this member names in a collective. -/
def State.collRanges (s : State) (c : Cmd) (n : Nat) : List (DWord × Nat) :=
  [s.collSrc c n, s.collDst c n].filter (fun r => r.2 != 0)
/-- The places of DST that this member writes. -/
def State.collTarget (s : State) (c : Cmd) (n : Nat) : List Nat :=
  let r := s.collDst c n
  if r.2 = 0 then [] else s.placesOf (s.ownerOf c.warp) false .write r.1 r.2
/-- The pages of DST that this member would charge (R194). -/
def State.collCharges (s : State) (c : Cmd) (n : Nat) : List (Nat × Nat × Bool) :=
  let r := s.collDst c n
  if r.2 = 0 then [] else s.toCharge (s.ownerOf c.warp) r.1 r.2

/-- What this member's own addresses answer: a STATUS other than OK, a wait, or its SRC. extra0 of a command is 2 once the
MMP has refused a page of it. -/
def State.ownPart (s : State) (c : Cmd) (n : Nat) : Option (Nat ⊕ List Byte) :=
  let owner := s.ownerOf c.warp
  let src := s.collSrc c n
  let dst := s.collDst c n
  let xs := (if src.2 = 0 then [] else [s.translateRange owner false .read src.1 src.2]) ++
    (if dst.2 = 0 then [] else [s.translateRange owner false .write dst.1 dst.2])
  if c.extra0 = 2 ∨ xs.contains .refused then some (.inl 2)
  else if anyWaits xs then none
  else
    let ps := s.collCharges c n
    let locs := if src.2 = 0 then [] else s.placesOf owner false .read src.1 src.2
    if !s.unitsCover owner ps then (if s.unitsWait owner ps then none else some (.inl 3))
    else if locs.any (s.lineFault owner) || s.writeFault owner (s.collTarget c n) then
      some (.inl 4)
    else some (.inr (locs.map s.byte))

/-- Whether the other members' parts are one for each other rank. -/
def Group.partsOf (g : Group) (rank : Nat) (ps : List PeerPart) : Bool :=
  (List.range g.members.length).all (fun r => (ps.filter (fun p => p.rank == r)).length == (if r = rank then 0 else 1)) &&
  ps.length + 1 == g.members.length

/-- Whether a part differs from the command in OP, LEN, ROOT, or in RED where the OP has one. DEDUCED (log 80). -/
def Cmd.differs (c : Cmd) (p : PeerPart) : Bool :=
  p.op.toNat != c.op || p.len != c.len || p.root != c.root || (reduces c.op && p.red.toNat != c.red)

/-- The command of a collective ends with a STATUS; one numbered in a revolution that is not OK abandons it. -/
def Sim.endCollective (m : Sim k s0) (c : Cmd) (i : BitVec 8) (kn n st bytes : Nat) : Sim k s0 :=
  let m := m.decide_ c.id st bytes kn n
  m.when (st != 0 && (m.now.group? i).elim false (fun g => g.numbered.contains kn)) (fun m => m.abandonRing i)

/-- A collective begun on this member: once its addresses translate, its pages are pinned, where the tables have room
(R277). -/
def Sim.fabricBegin (m : Sim k s0) (c : Cmd) (n : Nat) : Sim k s0 :=
  let pages := m.now.pagesIn (m.now.ownerOf c.warp) (m.now.collRanges c n)
  match m.now.ownPart c n with
  | some (.inr _) =>
    if c.begun || !m.now.pinRoom pages then m
    else (m.pinAll pages true).modCmd c.id (fun c => { c with pins := pages, begun := true })
  | _ => m

/-- A collective of an OP performed on this member, once every other member's part is there (R423, R424), its pages are
pinned (R277), and its DST lines free to take (R210, R294, R426). -/
def Sim.fabricCmd (m : Sim k s0) (op cmd : Nat) (peers : List PeerPart) : Sim k s0 :=
  match m.now.cmd? cmd with
  | none => m
  | some c =>
    match c.status, c.group with
    | none, some (i, kn) =>
      (match m.now.group? i with
       | none => m
       | some g =>
         let n := g.members.length
         match g.rank m.now.config.pkg with
         | none => m
         | some rank =>
           if c.op ≠ op then m
           else if !g.partsOf rank peers then m.fabricBegin c n
           else if peers.any (·.malformed) then m.endCollective c i kn n 7 0
           else if peers.any c.differs || (op == 1 && (g.rank c.root).isNone) then m.endCollective c i kn n 6 0
           else match m.now.ownPart c n with
             | none => m
             | some (.inl st) => m.endCollective c i kn n st 0
             | some (.inr src) =>
               let m := m.fabricBegin c n
               let tgt := m.now.collTarget c n
               if peers.any (·.refused) then m.endCollective c i kn n 7 0
               else if peers.any (·.lost) then m.endCollective c i kn n 8 0
               else if !(m.now.cmd? cmd).elim false (·.begun) || !m.now.writable (some cmd) tgt then m
               else
                 let owner := m.now.ownerOf c.warp
                 let srcs := (List.range n).map (fun r =>
                   if r = rank then src else ((peers.find? (fun p => p.rank == r)).map (·.src)).getD [])
                 let out := collBytes op c.red c.len rank ((g.rank c.root).getD 0) srcs
                 let m := (m.countLines c.warp tgt).countLinks c.warp (1 < n) false
                 let m := if out.isEmpty then m else
                   (m.chargePages owner (m.now.collCharges c n)).agentWrite owner tgt out
                 m.endCollective c i kn n 0 out.length)
    | _, _ => m

/-- ALLREDUCE. DESIGN CHOICE (log 83). -/
def execAllreduce (cmd : Nat) (peers : List PeerPart) (s : State) : Out := ran ((begin_ true s).fabricCmd 0 cmd peers)
/-- BROADCAST. -/
def execBroadcast (cmd : Nat) (peers : List PeerPart) (s : State) : Out := ran ((begin_ true s).fabricCmd 1 cmd peers)
/-- ALLGATHER. -/
def execAllgather (cmd : Nat) (peers : List PeerPart) (s : State) : Out := ran ((begin_ true s).fabricCmd 2 cmd peers)
/-- REDUCESCATTER. -/
def execReducescatter (cmd : Nat) (peers : List PeerPart) (s : State) : Out := ran ((begin_ true s).fabricCmd 3 cmd peers)
/-- FABRIC_BARRIER. -/
def execFabricBarrier (cmd : Nat) (peers : List PeerPart) (s : State) : Out := ran ((begin_ true s).fabricCmd 4 cmd peers)

/-! ## Replicated launch (R420) -/

/-- The held copy of a group. -/
def State.copyOf_ (s : State) (i : BitVec 8) : Option (Nat × Launch) :=
  s.launches.find? (fun l => l.2.held && !l.2.complete && l.2.origin == .copy i)

/-- A copy checked and queued by a member, under its own launch counter: its STATUS. -/
def Sim.queueCopy (m : Sim k s0) (i : BitVec 8) (owner : Tag) (vf : BitVec 6) (packet param : List Byte) : Sim k s0 × Nat :=
  if !m.now.loaded owner then (m, 2)
  else match packetOf packet with
    | none => (m, 1)
    | some p =>
      if 1024 ≤ m.now.queued p.prio then (m, 3)
      else (m.accept owner vf p (param.take p.psize) (.copy i) 0 true, 0)

/-- LAUNCH_COPY_RECEIPT (R420). -/
def execLaunchCopyReceipt (r : LaunchCopy) (s : State) : Out :=
  let m := begin_ true s
  match s.group? r.group with
  | some g =>
    if g.owner == r.owner && (g.rank s.config.pkg).isSome && (s.copyOf_ r.group).isNone then
      ran (m.queueCopy r.group r.owner r.vf r.packet r.param).1
    else ran m
  | none => ran m

/-- The generation after one. -/
def nextGen (w : Word) : Word := if w + 1 = 0 then 1 else w + 1

/-- The held copy of a group dropped: it places no gang and counts no DONE. -/
def Sim.dropCopy (m : Sim k s0) (i : BitVec 8) : Sim k s0 :=
  match m.now.copyOf_ i with
  | some (li, _) => m.modLaunch li (fun l => { l with killed := true, complete := true, held := false, done := 0 })
  | none => m

/-- The reply to a replicated launch submitted here, with its launch status word. -/
def Sim.answerCopy (m : Sim k s0) (i : BitVec 8) (st id : Nat) : Sim k s0 :=
  match m.now.group? i with
  | some g =>
    (match g.reply with
     | some h => (m.modGroup i (fun g => { g with reply := none })).complete h 0 (launchWord st id) 0
     | none => m)
  | none => m

/-- START_BARRIER (R420): every member has reported its STATUS; statuses are those of the other members.
DEDUCED (log 82). -/
def execStartBarrier (group : BitVec 8) (statuses : List (BitVec 4)) (s : State) : Out :=
  let m := begin_ true s
  match s.group? group, s.copyOf_ group with
  | some g, some (li, l) =>
    if statuses.length + 1 ≠ g.members.length then ran m
    else match statuses.find? (· != 0) with
      | some st => ran ((m.dropCopy group).answerCopy group st.toNat 0)
      | none =>
        let gen := nextGen g.gen
        let m := m.modGroup group (fun g => { g with gen := gen })
        let m := m.modLaunch li (fun l => { l with gen := gen, held := false })
        ran (m.answerCopy group 0 l.id)
  | _, _ => ran m

/-! ## Members that leave (R421, R430) -/

/-- A group that a member has left: its pending collectives are lost, and an open start barrier fails. -/
def Sim.breakGroup (m : Sim k s0) (i : BitVec 8) (g : Group) : Sim k s0 :=
  let m := m.losePending i g.members.length (fun _ => true)
  let m := ((m.abandonRing i).modGroup i (fun g => { g with broken := true, reply := none })).dropCopy i
  match g.reply with
  | some h => m.complete h 5 0 0
  | none => m

/-- MEMBER_LEAVE (R421, R423, R430): every group with the package is broken; this package ends its own copies when it is
the one that leaves. -/
def execMemberLeave (pkg : BitVec 6) (s : State) : Out :=
  let m := begin_ true s
  let m := m.each (s.groups.filter (fun g => g.2.members.contains pkg && !g.2.broken)) (fun m g =>
    m.breakGroup (BitVec.ofNat 8 g.1) g.2)
  if pkg = s.config.pkg then
    ran (m.each (m.now.launches.filter (fun l => !l.2.complete && (match l.2.origin with | .copy _ => true | _ => false)))
      (fun m l => m.killLaunch l.1))
  else ran m

/-! ## Links and accesses of other packages (R418, R419) -/

/-- FLIT_RETRY (R418): a flit fails authentication and is sent again; each retry counts FAB_RETRY. -/
def execFlitRetry (link : Nat) (s : State) : Out :=
  let m := (begin_ true s).sys (.linkRetry link (Cells.get 0 s.linkRetries link + 1))
  ran (m.each (s.scheds.filter (fun x => x.2.counters.any (·.claimed))) (fun m x => m.count x.1 0x302 0 1))

/-- Whether an access of another package reaches n bytes here: its owner tag is LOADED in this package, and they are
backed. -/
def State.remoteOk (s : State) (owner : Tag) (pa n : Nat) : Bool :=
  s.loaded owner && packageOf pa == s.config.pkg.toNat && n != 0 && (isLpddr pa || s.isCxl pa) &&
  (isLpddr (pa + n - 1) || s.isCxl (pa + n - 1))

/-- REMOTE_ACCESS (R419): a read changes nothing here; a write or an atomic is performed at the line's home slice, unless
it is refused or meets an uncorrectable error. -/
def execRemoteAccess (r : RemoteReq) (s : State) : Out :=
  let m := begin_ true s
  let places (pa n : Nat) : List Nat := (List.range n).map (fun i => physLoc (pa + i))
  match r with
  | .read .. => ran m
  | .write _ owner pa bytes =>
    let locs := places pa bytes.length
    if s.remoteOk owner pa bytes.length && !s.writeFault owner locs then ran (m.agentWrite owner locs bytes) else ran m
  | .atomic _ owner pa fn operand =>
    let n := atomSize fn.toNat
    let locs := places pa n
    if s.remoteOk owner pa n && pa % n == 0 && fn.toNat ≤ 12 && !locs.any (s.lineFault owner) then
      ran (m.agentWrite owner locs (atomNew fn.toNat (locs.map s.byte) operand))
    else ran m

end Sys2Proof.Machine
end

