-- ==== Sys2Proof/Machine/Manage.lean ====
section
/-! DEFINITION. Bring-up, power and reset (R431–R434, R396, R447), and the mailbox commands (R441–R446) with what they
manage: virtual functions (R389), owner tags and keys (R391, R394), Market tags (R448), model instances (R311, R312,
R317), task graphs (R282), launches (R280, R420), host accesses (R218) and fabric groups (R418, R422). -/

namespace Sys2Proof.Machine

variable {k : Bool} {s0 : State}

/-! ## Bring-up (R431, R432, R396) -/

/-- Whether a staged image may run (R432). -/
def imageRuns (bytes : List Byte) : Bool := Config.imageVerified bytes && decide (Config.minVersion ≤ Config.imageVersion bytes)

/-- Whether the image of a kind, if one is staged, may run: the root controller's, or the MMP's. -/
def Boot.imageOk (b : Boot) (mmp : Bool) : Bool :=
  match b.images.find? (fun i => i.1 == mmp) with
  | some i => imageRuns i.2
  | none => true

/-- The first phase that fails, of phases 1 to 3. -/
def Boot.failing (b : Boot) : Option Nat :=
  if !Config.phasePasses b.boots 1 || !b.imageOk false then some 1
  else if !Config.phasePasses b.boots 2 || !b.imageOk true then some 2
  else if !Config.phasePasses b.boots 3 then some 3
  else none

/-- A receipt of the scrub (R396): its entries are the locations found, or the frames retired. -/
def receiptOf (seq : Nat) (found retired : List Nat) : List Byte :=
  let es := if found.isEmpty then retired.map (fun a => a / 65536 * 65536) else found.map (fun a => a / 65536 * 65536 + 1)
  let body := leBytes 4 1 ++ leBytes 4 (if found.isEmpty then 1 else 2) ++ leBytes 8 seq ++ leBytes 8 Config.serial.toNat ++
    leBytes 4 es.length ++ leBytes 4 0 ++ es.flatMap (fun e => leBytes 8 (e % 2 ^ 52))
  let digest := (Config.shake256 body ++ List.replicate 64 0).take 64
  body ++ digest ++ (Config.ed448Sign digest ++ List.replicate 114 0).take 114

/-- Phase 4: the sweep's findings, its receipt, and the mode that it enters or leaves; a sweep that finds errors refuses
confidential mode. The frames that the last sweep listed have been retired since (R396). DESIGN CHOICE (log 101). -/
def Boot.scrubbed (b : Boot) : Boot :=
  let retired := (b.retired ++ b.found.map (· / 65536)).eraseDups
  let found := (Config.scrubFinds b.boots).filter (fun a => !retired.contains (a / 65536))
  let seq := b.scrubSeq + 1
  let conf := if b.confReq then (!b.conf && found.isEmpty) else b.conf
  { b with scrubSeq := seq, found := found, clean := found.isEmpty, conf := conf, confReq := false, scrub := false
           retired := retired, receipts := b.receipts ++ [receiptOf seq found retired] }

/-- Bring-up to its end: phase 5, or the safe state in the phase that fails (R433). -/
def Boot.broughtUp (b : Boot) : Boot :=
  match b.failing with
  | some p => { b with phase := p, safe := true, ready := false, boots := b.boots + 1 }
  | none =>
    let b := if b.scrub || b.confReq then b.scrubbed else b
    { b with phase := 5, safe := false, ready := true, boots := b.boots + 1 }

/-- POWER_ON (R431): the phases in order. Locations that a sweep finds stay in error (R368, R396); in confidential mode
HOSTMODE is MAILBOX (R395). -/
def execPowerOn (s : State) : Out :=
  let m := begin_ true s
  if s.boot.ready then ran m
  else
    let b := s.boot.broughtUp
    let m := m.sys (.boot b)
    let m := m.when b.conf (fun m => m.sys (.config { m.now.config with mailbox := true }))
    ran (m.when (b.scrubSeq != s.boot.scrubSeq) (fun m => m.each b.found (fun m a => m.act (.bad (lineOf (physLoc a)) true))))

/-- The record of a package that enters reset: phase 1, with confidential mode, images and receipts as they were. -/
def Boot.entering (b : Boot) (scrub thermal : Bool) : Boot :=
  { b with phase := 1, ready := false, safe := false, clock := 4000, hot := false, scrub := scrub, thermal := thermal }

/-- Package reset (R434); the phases of R431 follow. -/
def Sim.resetPackage (m : Sim true s0) (scrub thermal : Bool) : Sim true s0 :=
  let b := m.now.boot.entering scrub thermal
  (m.sys (.wipe b (scrub || b.confReq))).sooner [.powerOn]

/-! ## Power and cooling (R447) -/

/-- GOVERNOR_STEP (R447): 100 µs pass with a power averaged over 10 ms; the clock moves by 125 MHz between 2.0 and 4.0 GHz, and
stays at the floor from 105 °C on. DEDUCED (log 70). -/
def execGovernorStep (milliwatt : Nat) (s : State) : Out :=
  let m := begin_ true s
  let b := s.boot
  if 1050 ≤ s.temp.toInt then ran (m.sampled.sys (.boot { b with clock := 2000, hot := true }))
  else
    let c := if b.limit < milliwatt then Nat.max 2000 (b.clock - 125)
      else if milliwatt * 100 ≤ b.limit * 95 then Nat.min 4000 (b.clock + 125) else b.clock
    ran (m.sampled.sys (.boot { b with clock := c, hot := false }))

/-- TEMP at a trip: at least 115 °C. -/
def tripTemp (t : Word) : Word := if t.toInt < 1150 then 1150 else t

/-- THERMAL_TRIP (R447): the report to each physical function, and the reset with THERMAL set. -/
def execThermalTrip (s : State) : Out :=
  let m := (begin_ true s).sampled
  let body := wordBytes (tripTemp s.temp) ++ wordBytes s.statusWord
  ran (((m.postEvent 0 3 body).postEvent 1 3 body).resetPackage false true)

/-! ## STATUS, FWLOAD, CONFIG, CONFMODE, RESET -/

/-- STATUS (R440). -/
def execStatus (h : CmdHeader) (s : State) : Out :=
  mailboxWord h true true s (fun m => m.sampled.complete h 0 s.statusWord s.temp)

/-- FWLOAD: the image is staged for R432. -/
def execFwload (h : CmdHeader) (addr : DWord) (len : Nat) (mmp : Bool) (s : State) : Out :=
  mailboxWord h false true s (fun m =>
    if 2 ^ 24 < len then m.complete h 1 0 0
    else
      let b := s.boot
      (m.sys (.boot { b with images := (mmp, s.hostBytes addr len) :: b.images.filter (fun i => i.1 != mmp) })).complete h 0 0 0)

/-- CONFIG (R446): the package id stays once the package has joined its domain (R418). -/
def execConfig (h : CmdHeader) (mailbox : Bool) (pkg : BitVec 6) (domsz : BitVec 7) (treeBase : DWord) (treeSize : Nat) (s : State) : Out :=
  mailboxWord h false false s (fun m =>
    if domsz = 0 ∨ 64 < domsz.toNat ∨ treeBase.toNat % 65536 ≠ 0 ∨ 1048576 < treeSize then m.complete h 1 0 0
    else if s.config.locked then m.complete h 3 0 0
    else if (s.boot.conf ∧ mailbox = false) ∨ (s.config.joined ∧ pkg ≠ s.config.pkg) then m.complete h 5 0 0
    else (m.sys (.config { s.config with
      applied := true, mailbox := mailbox, pkg := pkg, domsz := domsz, treeBase := treeBase.toNat, treeSize := treeSize })).complete h 0 0 0)

/-- Configuration closed by the first LAUNCH, GRAPH or INSTCFG (R446). -/
def Sim.lock (m : Sim true s0) : Sim true s0 := m.sys (.config { m.now.config with locked := true })

/-- CONFMODE (R395): the request takes effect at the next RESET; entry is refused after a PARTIAL sweep (R396).
DEDUCED (log 71). -/
def execConfmode (h : CmdHeader) (enter : Bool) (s : State) : Out :=
  mailboxWord h false false s (fun m =>
    if enter ∧ s.boot.conf = false ∧ s.boot.found ≠ [] then m.complete h 5 0 0
    else (m.sys (.boot { s.boot with confReq := enter != s.boot.conf })).complete h 0 0 0)

/-- Every command of a ring not yet applied completed with STATUS RESET, while the completion ring has room (R444). -/
def Sim.abandonRing0 (m : Sim k s0) (f : Nat) : Nat → Sim k s0
  | 0 => m
  | n + 1 =>
    match m.now.headCommand f with
    | none => m
    | some ws =>
      if ((m.now.box f).ring 1).full then m
      else (m.complete { fn := fnOf f, seq := (wordAt ws 0).extractLsb' 0 16 } 4 0 0).abandonRing0 f n

/-- RESET (R431, R434, R444). -/
def execReset (h : CmdHeader) (scrub : Bool) (s : State) : Out :=
  mailboxWord h false true s (fun m =>
    let m := m.complete h 0 0 0
    let m := m.each (m.now.boxes.map (·.1)) (fun m f => m.abandonRing0 f 65536)
    m.resetPackage scrub false)

/-! ## VFCFG, OWNER (R389, R391) -/

/-- Whether a packet address, or 0 for none. DEDUCED (log 78). -/
def vectorOk (a : DWord) : Bool := a == 0 || (packetIx a).isSome

/-- Whether a descriptor keeps R389 beside the other virtual functions. -/
def State.vfOk (s : State) (n : BitVec 6) (v : VfDesc) : Bool :=
  let others := (s.vfs.filter (fun x => x.1 != n.toNat && x.2.desc.spatial)).map (·.2.desc)
  v.share ≤ 64 && vectorOk v.tvec &&
  (!v.spatial || (others.all (fun o => o.clusters &&& v.clusters == 0) && (others.map (·.share)).sum + v.share ≤ 64))

/-- VFCFG. -/
def execVfcfg (h : CmdHeader) (vf : BitVec 6) (remove : Bool) (v : VfDesc) (s : State) : Out :=
  mailboxWord h false false s (fun m =>
    if v.saveArea.toNat % 64 ≠ 0 then m.complete h 1 0 0
    else if remove then (m.sys (.noVf vf.toNat)).complete h 0 0 0
    else if !s.vfOk vf v then m.complete h 5 0 0
    else (m.sys (.vf vf.toNat { desc := v, out := (Keyed.find s.vfs vf.toNat).elim false (·.out) })).complete h 0 0 0)

/-- OWNER. -/
def execOwner (h : CmdHeader) (tag : Tag) (vf : BitVec 6) (ptbase : DWord) (ucap : List Nat) (s : State) : Out :=
  mailboxWord h false false s (fun m =>
    if ptbase.toNat % 4096 ≠ 0 then m.complete h 1 0 0
    else if ucap.any (fun n => 49152 < n) then m.complete h 5 0 0
    else (m.sys (.owner tag.toNat { s.owner tag with vf := some vf, ptbase := ptbase.toNat, ucap := ucap })).complete h 0 0 0)

/-! ## KEYLOAD, KEYREVOKE (R394, R395, R443) -/

/-- The key of a blob: plain outside confidential mode, or wrapped where its tag verifies. -/
def State.keyOf (s : State) (blob : List Byte) : Option Nat :=
  if blob.length = 96 then (if s.boot.conf then none else some (leNat blob))
  else (Config.unwrapKey blob).map leNat

/-- A blob loaded into an EMPTY slot, or the command failed. -/
def Sim.loadKey (m : Sim true s0) (h : CmdHeader) (tag : Tag) (blob : List Byte) : Sim true s0 :=
  let e := m.now.owner tag
  match e.kstate, m.now.keyOf blob with
  | .empty, some key => (m.sys (.owner tag.toNat { e with kstate := .loaded, key := key })).complete h 0 0 0
  | _, _ => m.complete h 5 0 0

/-- KEYLOAD: one that meets a REVOKING slot is held (R394). -/
def execKeyload (h : CmdHeader) (tag : Tag) (addr : DWord) (len : Nat) (s : State) : Out :=
  mailboxWord h false false s (fun m =>
    if len ≠ 96 ∧ len ≠ 180 then m.complete h 1 0 0
    else
      let blob := s.hostBytes addr len
      if (s.owner tag).kstate = .revoking then m.sys (.heldLoads (s.heldLoads ++ [(h, tag, blob)]))
      else m.loadKey h tag blob)

/-- KEYREVOKE, step 1 (R394): the slot is REVOKING, and every access of the tag that is not performed is refused.
DEDUCED (log 72). -/
def execKeyrevoke (h : CmdHeader) (tag : Tag) (discard : Bool) (s : State) : Out :=
  mailboxWord h false false s (fun m =>
    let e := s.owner tag
    if e.kstate ≠ .loaded then m.complete h 5 0 0
    else
      let m := m.sys (.owner tag.toNat { e with kstate := .revoking, discard := discard })
      let mine := m.now.ops.filter (fun o => o.byLanes && m.now.ownerOf o.warp == tag)
      let m := m.each mine (fun m o => (m.each (o.lanes.filter (fun x => !x.final && (x.loc.getD 0) < 2 ^ 128))
        (fun m x => m.refuseLane o x)).settle o.id)
      m.complete h 0 0 0)

/-- A word that the spec does not give: a free value. -/
def Sim.open_ (m : Sim k s0) : Sim k s0 × Word := (m.act (.free (m.now.free + 1)), Config.freeWord m.now.free)

/-- The record of a launch none of whose gangs is left: it names the launch alone (R366). -/
def launchRecord (l : Launch) (cause : Nat) (place lanes tval : Word) : List Byte :=
  leBytes 4 (cause * 2 ^ 24 + (if 0x0A ≤ cause && cause ≤ 0x0E then 2 ^ 16 else 0) + 2 ^ 19 + 2 ^ 21) ++ leBytes 4 (l.id % 2 ^ 24) ++
  leBytes 4 0xFFFFFFFF ++ leBytes 4 (place.toNat % 2 ^ 16) ++ wordBytes lanes ++ wordBytes tval ++ List.replicate 16 0 ++
  leBytes 4 0xFFFFFFFF ++ leBytes 4 0 ++ leBytes 4 (l.owner.toNat * 65536 + l.vf.toNat)

/-- A launch killed by a revocation, and then its record; its CAUSE, lanes and tval are not given.
DESIGN CHOICE (log 73). -/
def Sim.killRevoked (m : Sim k s0) (li : Nat) : Sim k s0 :=
  let a := m.open_
  let b := a.1.open_
  let c := b.1.open_
  let d := c.1.open_
  let s := m.now
  let l := s.launch li
  let gang := s.gangs.find? (fun g => g.2.launch == li && g.2.state != .retired)
  let record := match gang.bind (fun g => (s.gangWarps g.1).head?) with
    | some wi => s.faultRecord { cause := a.2.toNat % 256, killed := true, warp := wi, lanes := b.2, tval := c.2, pc := 0 }
    | none => launchRecord l (a.2.toNat % 256) d.2 b.2 c.2
  (d.1.killLaunch li).postFor l.owner 1 record

/-- A command of a revoked tag that no engine has begun is refused with ACCESS (R191, R394), and a tap command goes no
further. -/
def Sim.refuseCmd (m : Sim k s0) (c : Cmd) : Sim k s0 :=
  match c.status, c.port, c.group with
  | some _, _, _ => m
  | none, 1, _ => if c.begun then m else m.decide_ c.id 2 0 0 0
  | none, 2, _ => m
  | none, 3, _ =>
    let p := m.now.taps.find? (fun p => p.cmd == some c.id)
    (m.act (.taps (m.now.taps.filter (fun p => p.cmd != some c.id)))).decide_ c.id 2 (p.elim 0 (·.bytes)) 0 0
  | none, 4, _ => m.decide_ c.id 2 0 0 0xFFFFFFFF
  | none, _, some (i, n) =>
    (match m.now.group? i with
     | some g => m.endCollective c i n g.members.length 2 0
     | none => m.decide_ c.id 2 0 0 0)
  | none, _, none => m.decide_ c.id 2 0 0 0

/-- Whether an engine command of a tag is still to complete, to be refused, or to report its fault (R394, step 2). -/
def State.tagBusy (s : State) (tag : Tag) : Bool :=
  s.cmds.any (fun c => s.ownerOf c.warp == tag && (if c.status.isSome then !c.res else c.port == 1)) ||
  s.mops.any (fun q => s.ownerOf q.warp == tag && s.mopEnds q)

/-- What is still in flight for a revoked tag ends: operations, commands, matrix operations and taps. -/
def Sim.dropTag (m : Sim k s0) (tag : Tag) : Sim k s0 :=
  let mine (s : State) (wi : Nat) : Bool := s.ownerOf wi == tag
  let s := m.now
  let m := m.each (s.ops.filter (fun o => mine s o.warp)) (fun m o =>
    (m.modOp o.id (fun o => { o with lanes := o.lanes.map (fun x => if x.final then x else { x with state := .dead }) })).settle o.id)
  let m := m.each (s.cmds.filter (fun c => mine s c.warp)) (fun m c => m.pinAll c.pins false)
  let m := m.act (.cmds (m.now.cmds.filter (fun c => !mine s c.warp)))
  let m := m.each (s.mops.filter (fun q => mine s q.warp)) (fun m q => m.pinAll q.pins false)
  let m := m.act (.mops (m.now.mops.filter (fun q => !mine s q.warp)))
  let m := m.act (.taps (m.now.taps.filter (fun p => p.owner != tag)))
  m.each (s.warps.filter (fun w => mine s w.1)) (fun m w =>
    (m.closeQueues w.1).modWarp w.1 (fun w => { w with queues := [] }))

/-- A line whose modified bytes are dropped (R394): it holds what memory holds of it. DESIGN CHOICE (log 74). -/
def Sim.forgetLine (m : Sim k s0) (line : Nat) : Sim k s0 :=
  m.each (List.range 32) (fun m i =>
    let w := m.open_
    w.1.store (128 * line + 4 * i) (wordBytes w.2))

/-- The storage of a revoked tag (R394, step 3): cached lines leave the caches, and DISCARD drops what is modified in them;
unbacked lines are discarded, reservations return to zero, and its Market granules and accumulator banks are written with
zero. -/
def Sim.wipeTag (m : Sim k s0) (tag : Tag) : Sim k s0 :=
  let key := (m.now.owner tag).key + 1
  let lo := unbackedLoc tag.toNat 0
  let mine (line : Nat) : Bool := (lineOf lo ≤ line && line < lineOf (lo + 2 ^ 64)) || Cells.get 0 m.now.lineKey line == key
  let dirty := (((m.now.l2 ++ m.now.sc).filter (fun e => e.2.dirty && mine e.1)).map (·.1)).eraseDups
  let m := m.when (m.now.owner tag).discard (fun m => m.each dirty (fun m n => m.forgetLine n))
  let m := m.act (.l1 (m.now.l1.filter (fun e => !mine e.line)))
  let m := m.act (.icache (m.now.icache.filter (fun e => !mine (lineOf e.loc))))
  let m := m.dropDups ((m.now.dups.map (fun e => e.1 / 4)).filter mine)
  let m := m.each ((m.now.l2.map (·.1)).filter mine) (fun m x => m.act (.l2 x CacheLine.absent))
  let m := m.each ((m.now.sc.map (·.1)).filter mine) (fun m x => m.act (.sc x CacheLine.absent))
  let m := m.act (.clearMem lo (lo + 2 ^ 64))
  let m := m.act (.charged (m.now.charged.filter (fun c => c.owner != tag)))
  let m := m.act (.reserved (m.now.reserved.filter (fun r => r.owner != tag)))
  let m := m.each (m.now.mktTag.filter (fun g => g.2 == tag.toNat + 1)) (fun m g =>
    m.act (.clearMem (marketLoc (64 * g.1)) (marketLoc (64 * g.1) + 64)))
  let s := m.now
  let scs := ((s.warps.filter (fun w => s.ownerOf w.1 == tag)).map (fun w => s.schedOf w.1)).eraseDups
  let free := scs.filter (fun c => !s.warps.any (fun w => w.2.resident && !w.2.ended && s.schedOf w.1 == c))
  m.each free (fun m c => m.act (.clearTiles (tileKey c 0 0 0) (tileKey (c + 1) 0 0 0)))

/-- REVOCATION_DRAIN (R394, steps 2 to 4): once every engine command of the tag has completed or been refused, every gang of
it is killed, its storage wiped, and the slot EMPTY; key loads held for it are applied. -/
def execRevocationDrain (tag : Tag) (s : State) : Out :=
  let m := begin_ true s
  if (s.owner tag).kstate ≠ .revoking then ran m
  else
    let m := m.each (s.cmds.filter (fun c => s.ownerOf c.warp == tag)) (fun m c => m.refuseCmd c)
    if m.now.tagBusy tag then ran m
    else
    let ls := (m.now.launches.filter (fun l => l.2.owner == tag && !l.2.complete)).map (·.1)
    let m := m.each ls (fun m li => m.killRevoked li)
    let m := (m.dropTag tag).wipeTag tag
    let m := m.sys (.owner tag.toNat { m.now.owner tag with kstate := .empty, key := 0, discard := false })
    let held := m.now.heldLoads.filter (fun x => x.2.1 == tag)
    let m := m.sys (.heldLoads (m.now.heldLoads.filter (fun x => x.2.1 != tag)))
    ran (m.each held (fun m x => m.loadKey x.1 x.2.1 x.2.2))

/-! ## MKTOWN (R448) -/

/-- MKTOWN. DEDUCED (log 75). -/
def execMktown (h : CmdHeader) (tag : Tag) (unassign : Bool) (addr : Word) (count : Nat) (s : State) : Out :=
  mailboxWord h false false s (fun m =>
    let a := addr.toNat
    if a % 64 ≠ 0 ∨ 2 ^ 27 ≤ a ∨ count = 0 ∨ 2 ^ 27 < a + 64 * count then m.complete h 1 0 0
    else
      let v := if unassign then 0 else tag.toNat + 1
      (m.each ((List.range count).map (· + a / 64)) (fun m g =>
        let old := Cells.get 0 m.now.mktTag g
        (m.when (!unassign && old != v) (fun m => m.act (.clearMem (marketLoc (64 * g)) (marketLoc (64 * g) + 64)))).sys
          (.mktTag g v))).complete h 0 0 0)

/-! ## INSTCFG, TKUPD (R311, R312, R317, R443) -/

/-- The instance of a descriptor of 64 bytes; none where a parameter breaks its limits. -/
def instOf (bs : List Byte) : Option Inst :=
  let f (at_ n : Nat) : Nat := leNat ((bs.drop at_).take n)
  let owner := f 0 2
  let nlayer := f 2 2
  let maxslot := f 4 2
  let rows := f 6 2
  let tkbase := f 8 8
  let kvbase := f 16 8
  let kvpages := f 24 4
  let swappages := f 28 4
  let swapbase := f 32 8
  let board := f 40 4
  let gatebase := f 44 4
  let rotbase := f 48 8
  let ngate := f 56 1
  let stepgraph := f 57 1
  if 4096 ≤ owner ∨ nlayer = 0 ∨ 256 < nlayer ∨ maxslot = 0 ∨ 1024 < maxslot ∨ rows = 0 ∨ 16384 < rows ∨ tkbase % 65536 ≠ 0 ∨
     !(isLpddr tkbase && isLpddr (tkbase + 2 ^ 24 - 1)) ∨ 2 ^ 52 ≤ tkbase ∨ kvbase % 65536 ≠ 0 ∨ kvpages = 0 ∨ 2 ^ 24 < kvpages ∨
     swapbase % 65536 ≠ 0 ∨ 2 ^ 24 < swappages ∨ board % 64 ≠ 0 ∨ 2 ^ 27 ≤ board ∨ gatebase % 16 ≠ 0 ∨ 2 ^ 27 ≤ gatebase ∨
     rotbase % 256 ≠ 0 ∨ ngate = 0 ∨ 65 < ngate ∨ 64 ≤ stepgraph ∨ f 58 6 ≠ 0 then none
  else some
    { owner := BitVec.ofNat 12 owner, nlayer := nlayer, maxslot := maxslot, rowbudget := rows, tkbase := tkbase
      kvbase := BitVec.ofNat 64 kvbase, kvpages := kvpages, swapbase := BitVec.ofNat 64 swapbase, swappages := swappages
      board := board, gatebase := gatebase, ngate := ngate, rotbase := BitVec.ofNat 64 rotbase
      stepgraph := BitVec.ofNat 6 stepgraph, mstep := 0, state := .idle, created := 0, admitted := 0, staged := [], pages := []
      reserved := [], marks := [], lost := [], kept := [], stepDone := false, dirty := true, removing := none, reply := none }

/-- INSTCFG. -/
def execInstcfg (h : CmdHeader) (inst : BitVec 4) (addr : DWord) (s : State) : Out :=
  mailboxWord h false false s (fun m =>
    match s.inst? inst, instOf (s.hostBytes addr 64) with
    | none, some x => (m.lock.act (.inst inst.toNat x)).complete h 0 0 0
    | _, _ => m.complete h 5 0 0)

/-- INSTCFG with REMOVE (R312): the command completes when the instance is unconfigured. -/
def execInstcfgRemove (h : CmdHeader) (inst : BitVec 4) (immediate : Bool) (s : State) : Out :=
  mailboxWord h false false s (fun m =>
    match s.inst? inst with
    | none => m.complete h 5 0 0
    | some x =>
      if x.removing.isSome then m.complete h 5 0 0
      else
        let m := m.lock.act (.inst inst.toNat { x with removing := some immediate, reply := some h })
        m.when immediate (fun m => m.cancelStep inst))

/-- TKUPD (R317). -/
def execTkupd (h : CmdHeader) (handle : Word) (addr : DWord) (s : State) : Out :=
  mailboxWord h true false s (fun m =>
    if bits handle.toNat 31 20 ≠ 0 then m.complete h 1 0 0
    else
      let i : BitVec 4 := handle.extractLsb' 16 4
      match s.inst? i with
      | none => m.complete h 5 0 0
      | some x =>
        if !s.mayName h x.owner then m.complete h 2 0 0
        else if x.removing.isSome then m.complete h 5 0 0
        else (m.stage i { tkid := bits handle.toNat 15 0, chunk := none, enqseq := 0, bytes := s.hostBytes addr 256 }).complete h 0 0 0)

/-! ## GRAPH (R282) -/

/-- GRAPH, INSTALL: a resident graph is replaced when no run of it goes on. Its nodes are not looked at: a malformed one stops
the run that meets it (R282). DEDUCED (log 76). -/
def execGraphInstall (h : CmdHeader) (graph : BitVec 6) (owner : Tag) (addr : DWord) (nodes succs : Nat) (s : State) : Out :=
  mailboxWord h true false s (fun m =>
    if nodes = 0 ∨ 4096 < nodes ∨ 65535 < succs then m.complete h 1 0 0
    else if !s.mayName h owner then m.complete h 2 0 0
    else match (s.owner owner).vf with
      | none => m.lock.complete h 5 0 0
      | some v =>
        if (s.graph? graph).elim false Graph.live then m.lock.complete h 3 0 0
        else (m.lock.act (.graph graph.toNat
          { owner := owner, vf := v, nodes := nodes, succs := succs, image := s.hostBytes addr (32 * nodes + 2 * succs)
            runs := 0, run := none, reports := [] })).complete h 0 0 0)

/-- What START and REMOVE share: the graph must be resident under the owner tag given. -/
def graphWord (h : CmdHeader) (graph : BitVec 6) (owner : Tag) (s : State) (f : Sim true s → Graph → Sim true s) : Out :=
  mailboxWord h true false s (fun m =>
    if !s.mayName h owner then m.complete h 2 0 0
    else match s.graph? graph with
      | some g =>
        if g.owner ≠ owner then m.lock.complete h 5 0 0 else if g.live then m.lock.complete h 3 0 0 else f m.lock g
      | none => m.lock.complete h 5 0 0)

/-- GRAPH, START: VALUE0 is the run number. -/
def execGraphStart (h : CmdHeader) (graph : BitVec 6) (owner : Tag) (s : State) : Out :=
  graphWord h graph owner s (fun m _ =>
    let m := m.startRun graph
    m.complete h 0 (((m.now.graph? graph).bind (·.run)).elim 0 (·.number)) 0)

/-- GRAPH, REMOVE. -/
def execGraphRemove (h : CmdHeader) (graph : BitVec 6) (owner : Tag) (s : State) : Out :=
  graphWord h graph owner s (fun m _ => (m.sys (.noGraph graph.toNat)).complete h 0 0 0)

/-! ## LAUNCH (R280, R420) -/

/-- The packet's 64 bytes as they are read, and its parameter block, for a replicated launch. -/
def Sim.submitCopy (m : Sim k s0) (h : CmdHeader) (group : BitVec 8) (owner : Tag) (vf : BitVec 6) (addr : DWord) : Sim k s0 :=
  match m.now.group? group with
  | none => m.complete h 5 0 0
  | some g =>
    if g.owner ≠ owner ∨ g.broken ∨ (g.rank m.now.config.pkg).isNone then m.complete h 5 0 0
    else if (m.now.copyOf_ group).isSome then m
    else match m.now.readPacket owner false addr with
      | .wait _ => m
      | .status n => m.complete h 0 (launchWord n 0) 0
      | .ok p param =>
        (m.accept owner vf p param (.copy group) 0 true).modGroup group (fun g => { g with reply := some h })

/-- The LAUNCH command applied; a page fault of the packet leaves it at the head of its ring. -/
def Sim.hostLaunch (m : Sim true s0) (h : CmdHeader) (owner : Tag) (replicated : Bool) (group : BitVec 8) (addr : DWord) : Sim true s0 :=
  if !m.now.mayName h owner then m.complete h 2 0 0
  else match (m.now.owner owner).vf with
    | none => m.lock.complete h 5 0 0
    | some v =>
      if replicated then m.lock.submitCopy h group owner v addr
      else match m.now.readPacket owner false addr with
        | .wait _ => m
        | .status n => m.lock.complete h 0 (launchWord n 0) 0
        | .ok p param =>
          let id := m.now.launchCount.toNat
          (m.lock.accept owner v p param .host 0 false).complete h 0 (launchWord 0 id) 0

/-- MAILBOX_LAUNCH. -/
def execMailboxLaunch (h : CmdHeader) (owner : Tag) (replicated : Bool) (group : BitVec 8) (addr : DWord) (s : State) : Out :=
  mailboxWord h true false s (fun m => m.hostLaunch h owner replicated group addr)

/-! ## MEMWR, MEMRD (R218) -/

/-- A host access of some bytes of device memory; a page fault leaves it at the head of its ring. DEDUCED (log 77). -/
def Sim.hostAccess (m : Sim k s0) (h : CmdHeader) (write : Bool) (owner : Tag) (va : DWord) (len : Nat) (host : DWord) : Sim k s0 :=
  let s := m.now
  if len = 0 ∨ 4096 < len then m.complete h 1 0 0
  else if !s.config.mailbox ∨ !s.mayName h owner then m.complete h 2 0 0
  else
    let acc := if write then Access.write else Access.read
    match s.translateRange owner false acc va len with
    | .refused => m.complete h 5 0 0
    | .ok .. =>
      let locs := s.placesOf owner false acc va len
      let far := (List.range len).map (fun i => hostLoc (host.toNat + i))
      if write then
        let ps := s.toCharge owner va len
        if s.writeFault owner locs then m.complete h 5 0 0
        else if !s.unitsCover owner ps then (if s.unitsWait owner ps then m else m.complete h 5 0 0)
        else if s.moving owner va len || !s.writable none locs then m
        else ((m.chargePages owner ps).agentWrite owner locs (far.map s.byte)).complete h 0 0 0
      else if locs.any (s.lineFault owner) then m.complete h 5 0 0
      else (m.agentWrite owner far (locs.map s.byte)).complete h 0 0 0
    | _ => m

/-- MEMWR. -/
def execMemwr (h : CmdHeader) (owner : Tag) (va : DWord) (len : Nat) (host : DWord) (s : State) : Out :=
  mailboxWord h true false s (fun m => m.hostAccess h true owner va len host)
/-- MEMRD. -/
def execMemrd (h : CmdHeader) (owner : Tag) (va : DWord) (len : Nat) (host : DWord) (s : State) : Out :=
  mailboxWord h true false s (fun m => m.hostAccess h false owner va len host)

/-! ## POST (R445) -/

/-- The warp that a POST names: of the latest launch with the ID, the gang, the workgroup and the warp. -/
def State.postWarp (s : State) (launch : BitVec 24) (gang wgid warp : Nat) : Option Nat :=
  let ok (w : Nat × Warp) : Bool :=
    let g := s.wg w.2.wg
    let x := s.gang g.gang
    w.2.num == warp && g.wgid == wgid && x.index == gang && (s.launch x.launch).id == launch.toNat
  ((s.warps.filter ok).getLast?).map (·.1)

/-- POST. -/
def execPost (h : CmdHeader) (launch : BitVec 24) (gang : Nat) (wgid : BitVec 3) (warp : BitVec 5) (q : BitVec 4) (mask : Word)
    (addr : DWord) (s : State) : Out :=
  mailboxWord h true false s (fun m =>
    match s.postWarp launch gang wgid.toNat warp.toNat with
    | none => m.complete h 5 0 0
    | some wi =>
      let b := (s.warp wi).queue q.toNat
      if !s.mayName h (s.ownerOf wi) then m.complete h 2 0 0
      else if (s.warp wi).ended ∨ b.kind ≠ 10 then m.complete h 5 0 0
      else if 8 + b.qs ≤ b.total then m.complete h 3 0 0
      else
        let bs := s.hostBytes addr 128
        (m.fresh.reserve wi q.toNat
          { id := s.nextId, origin := (wi, q.toNat), mask := mask, words := (List.range 32).map (imageWord bs)
            written := true, readyAt := s.ac }).complete h 0 0 0)

/-! ## FABRIC (R418, R422, R443) -/

/-- FABRIC, JOIN: the domain is formed once CONFIG has given the package its id. -/
def execFabricJoin (h : CmdHeader) (s : State) : Out :=
  mailboxWord h false false s (fun m =>
    if s.config.applied then (m.sys (.config { s.config with joined := true })).complete h 0 0 0 else m.complete h 5 0 0)

/-- The group of a descriptor of 128 bytes, with the generation of the group that it forms again. -/
def groupOf (bs : List Byte) (gen : Word) : Option Group :=
  let f (at_ n : Nat) : Nat := leNat ((bs.drop at_).take n)
  let n := f 2 1
  let ids := (List.range n).map (fun i => f (16 + i) 1)
  let ring := f 3 1 == 1
  if 4096 ≤ f 0 2 ∨ n = 0 ∨ 64 < n ∨ 1 < f 3 1 ∨ ids.any (fun x => 64 ≤ x) ∨ ids.eraseDups.length ≠ n ∨
     (ring ∧ (16 ≤ f 8 1 ∨ 1024 < f 10 2 + f 12 2)) ∨ f 9 1 ≠ 0 ∨ f 14 2 ≠ 0 ∨ f (16 + n) (112 - n) ≠ 0 then none
  else some
    { owner := BitVec.ofNat 12 (f 0 2), members := ids.map (BitVec.ofNat 6), ring := ring, dl := if ring then f 4 4 else 0
      inst := BitVec.ofNat 4 (f 8 1), slot0 := f 10 2, nslots := f 12 2, next := 0, gen := gen, broken := false
      abandoned := false, closed := false, started := none, first := [], numbered := [], reply := none }

/-- FABRIC, GROUP: a group that is formed stays as it is until it is ungrouped or a member has left it (R418, R430).
DEDUCED (log 81). -/
def execFabricGroup (h : CmdHeader) (group : BitVec 8) (addr : DWord) (s : State) : Out :=
  mailboxWord h false false s (fun m =>
    let old := s.group? group
    match groupOf (s.hostBytes addr 128) (old.elim 0 (·.gen)) with
    | none => m.complete h 5 0 0
    | some g =>
      if !s.config.joined || old.elim false (fun o => !o.broken) then m.complete h 5 0 0
      else (m.act (.group group.toNat g)).complete h 0 0 0)

/-- FABRIC, UNGROUP: commands of the group still pending are lost, and an open start barrier fails. -/
def execFabricUngroup (h : CmdHeader) (group : BitVec 8) (s : State) : Out :=
  mailboxWord h false false s (fun m =>
    match s.group? group with
    | none => m.complete h 5 0 0
    | some g => ((m.breakGroup group g).sys (.noGroup group.toNat)).complete h 0 0 0)

/-! ## HDM decoders (R183, R184) -/

/-- HDM_DECODER_COMMIT: the capacity attached to a port, at most its window of 896 GiB. -/
def execHdmDecoderCommit (port : BitVec 3) (size : Nat) (s : State) : Out :=
  ran ((begin_ true s).sys (.hdm (s.hdm.set port.toNat (Nat.min size (896 * 2 ^ 30)))))

end Sys2Proof.Machine
end

