-- ==== Sys2Proof/Machine/Command.lean ====
section
/-! DEFINITION. The decoding of the 64 bytes of a mailbox command (R441, R442), and the writes of the host to BAR 0 that
move the rings (R437, R438). -/

namespace Sys2Proof.Machine

variable {k : Bool} {s0 : State}

/-- The command that 64 bytes encode; none where it gets BADCMD for its OPC, its FLAGS or a bit that must be zero. -/
def commandOf (fn : HostFn) (ws : List Word) : Option (State → Out) :=
  let opc := cmdField ws 0 31 24
  let flags := cmdField ws 0 23 16
  let h : CmdHeader := { fn := fn, seq := (wordAt ws 0).extractLsb' 0 16 }
  let f := cmdField ws
  let x := cmdWide ws
  let w := wholeWord
  let tag (i : Nat) : Tag := (wordAt ws i).extractLsb' 0 12
  let ok (fs : List (Nat × Nat × Nat)) (i : State → Out) : Option (State → Out) := if flags = 0 ∧ onlyFields ws fs then some i else none
  match opc with
  | 0x01 => ok [] (execStatus h)
  | 0x02 => ok [w 1, w 2, w 3, (4, 0, 0)] (execFwload h (x 1) (f 3 31 0) (f 4 0 0 == 1))
  | 0x03 => ok [(1, 0, 0), (2, 5, 0), (3, 6, 0), w 4, w 5, w 6]
      (execConfig h (f 1 0 0 == 1) (BitVec.ofNat 6 (f 2 5 0)) (BitVec.ofNat 7 (f 3 6 0)) (x 4) (f 6 31 0))
  | 0x04 => ok [(1, 5, 0), (1, 31, 31), (2, 1, 0), (2, 8, 8), (2, 22, 16), w 3, w 4, w 5, (6, 10, 0), w 7, w 8]
      (execVfcfg h (BitVec.ofNat 6 (f 1 5 0)) (f 1 31 31 == 1)
        { spatial := f 2 0 0 == 1, fabvis := f 2 1 1 == 1, portB := f 2 8 8 == 1, share := f 2 22 16, clusters := wordAt ws 3
          tvec := x 4, irq := BitVec.ofNat 11 (f 6 10 0), saveArea := x 7 })
  | 0x05 => ok [(1, 11, 0), (2, 5, 0), w 3, w 4, w 5, w 6]
      (execOwner h (tag 1) (BitVec.ofNat 6 (f 2 5 0)) (x 3) [f 5 15 0, f 5 31 16, f 6 15 0, f 6 31 16])
  | 0x06 =>
    if flags = 0 then (if onlyFields ws [(1, 11, 0), w 2, w 3, w 4] then some (execKeyload h (tag 1) (x 2) (f 4 31 0)) else none)
    else if flags = 2 ∨ flags = 3 then (if onlyFields ws [(1, 11, 0)] then some (execKeyrevoke h (tag 1) (flags == 3)) else none)
    else none
  | 0x07 =>
    if f 1 31 31 = 1 then ok [(1, 3, 0), (1, 31, 30), w 2, w 3] (execInstcfgRemove h (BitVec.ofNat 4 (f 1 3 0)) (f 1 30 30 == 1))
    else ok [(1, 3, 0), w 2, w 3] (execInstcfg h (BitVec.ofNat 4 (f 1 3 0)) (x 2))
  | 0x08 => ok [w 1, w 2, w 3] (execTkupd h (wordAt ws 1) (x 2))
  | 0x09 =>
    let g := BitVec.ofNat 6 (f 1 13 8)
    (match f 1 1 0 with
     | 0 => ok [(1, 13, 8), (2, 11, 0), w 3, w 4, w 5, w 6] (execGraphInstall h g (tag 2) (x 3) (f 5 31 0) (f 6 31 0))
     | 1 => ok [(1, 0, 0), (1, 13, 8), (2, 11, 0)] (execGraphStart h g (tag 2))
     | 2 => ok [(1, 1, 1), (1, 13, 8), (2, 11, 0)] (execGraphRemove h g (tag 2))
     | _ => none)
  | 0x0A => ok [(1, 12, 0), (1, 23, 16), w 2, w 3] (execMailboxLaunch h (tag 1) (f 1 12 12 == 1) (BitVec.ofNat 8 (f 1 23 16)) (x 2))
  | 0x0B =>
    let mode : Option StopMode := match f 1 3 2 with | 0 => some .adaptive | 1 => some .save | 2 => some .flushRestart | _ => none
    let job : Option StopJob :=
      match f 1 1 0 with
      | 0 => some (.run (BitVec.ofNat 6 (f 1 13 8)) (wordAt ws 2))
      | 1 => if f 2 31 24 = 0 then some (.launch (BitVec.ofNat 24 (f 2 23 0))) else none
      | 2 => if f 2 31 6 = 0 then some (.vf (BitVec.ofNat 6 (f 2 5 0))) else none
      | _ => none
    (match mode, job with
     | some mo, some j => ok [(1, 3, 0), (1, 13, 8), w 2, w 3] (execStop h j mo (f 3 31 0))
     | _, _ => none)
  | 0x0C =>
    if flags ≤ 1 ∧ onlyFields ws [(1, 11, 0), w 2, w 3, w 4, w 5, w 6] then
      some (if flags = 0 then execMemwr h (tag 1) (x 2) (f 4 31 0) (x 5) else execMemrd h (tag 1) (x 2) (f 4 31 0) (x 5))
    else none
  | 0x0D => ok [(1, 23, 0), w 2, (3, 15, 8), (3, 3, 0), w 4, w 5, w 6]
      (execPost h (BitVec.ofNat 24 (f 1 23 0)) (f 2 31 0) (BitVec.ofNat 3 (f 3 15 13)) (BitVec.ofNat 5 (f 3 12 8)) (BitVec.ofNat 4 (f 3 3 0))
        (wordAt ws 4) (x 5))
  | 0x0E =>
    (match f 1 1 0 with
     | 0 => ok [(1, 15, 8)] (execFabricJoin h)
     | 1 => ok [(1, 0, 0), (1, 15, 8), w 2, w 3] (execFabricGroup h (BitVec.ofNat 8 (f 1 15 8)) (x 2))
     | 2 => ok [(1, 1, 1), (1, 15, 8)] (execFabricUngroup h (BitVec.ofNat 8 (f 1 15 8)))
     | _ => none)
  | 0x0F => ok [(1, 0, 0)] (execConfmode h (f 1 0 0 == 1))
  | 0x10 => ok [(1, 0, 0)] (execReset h (f 1 0 0 == 1))
  | 0x11 => ok [(1, 11, 0), (1, 31, 31), w 2, w 3] (execMktown h (tag 1) (f 1 31 31 == 1) (wordAt ws 2) (f 3 31 0))
  | _ => none

/-- Whether the mailbox engine takes no command of a function: its completion ring is full, or a command of it is under
way (R438, R444). -/
def State.mailBusy (s : State) (f : Nat) : Bool :=
  ((s.box f).ring 1).full || s.stops.any (fun x => x.reply.elim false (fun h => fnIx h.fn == f)) ||
  s.insts.any (fun x => x.2.reply.elim false (fun h => fnIx h.fn == f)) || s.heldLoads.any (fun x => fnIx x.1.fn == f) ||
  s.groups.any (fun x => x.2.reply.elim false (fun h => fnIx h.fn == f))

/-- The command that a function's ring gives the mailbox engine next. DEDUCED (log 69). -/
def State.nextCommand (s : State) (f : Nat) : Option (State → Out) :=
  if s.mailBusy f then none else (s.headCommand f).bind (commandOf (fnOf f))

/-- Commands at the head of a ring that encode none complete with BADCMD, or with DENIED where they are not the function's
to issue, while the completion ring has room. -/
def Sim.badCommands (m : Sim k s0) (f : Nat) : Nat → Sim k s0
  | 0 => m
  | n + 1 =>
    match m.now.headCommand f with
    | none => m
    | some ws =>
      if m.now.mailBusy f || (commandOf (fnOf f) ws).isSome then m
      else
        let opc := cmdField ws 0 31 24
        let st := if isVf (fnOf f) && opcListed opc && !vfOpc opc then 2 else 1
        (m.complete { fn := fnOf f, seq := (wordAt ws 0).extractLsb' 0 16 } st 0 0).badCommands f n

/-- PROD of a ring read as at most the entry count ahead of CONS, while the ring is enabled (R438). -/
def Ring.clamped (r : Ring) : Ring :=
  if r.count != 0 && decide (r.count < (r.prod - r.cons).toNat) then { r with prod := r.cons + BitVec.ofNat 16 r.count } else r

/-- DOORBELL (R437, R438): PROD of the command ring is written. -/
def execDoorbell (fn : HostFn) (prod : BitVec 16) (s : State) : Out :=
  let m := begin_ true s
  let f := fnIx fn
  let b := s.box f
  let m := m.act (.box f { b with rings := b.rings.set 0 ({ b.ring 0 with prod := prod } : Ring).clamped })
  ran (m.badCommands f 65536)

/-- CONSUMER_INDEX_WRITE (R438): the host advances CONS of a ring that the device writes; buffered events follow. -/
def execConsumerIndexWrite (fn : HostFn) (ring : BitVec 2) (cons : BitVec 16) (s : State) : Out :=
  let m := begin_ true s
  let f := fnIx fn
  let n := ring.toNat
  if n = 0 then ran m
  else
    let b := s.box f
    let m := m.act (.box f { b with rings := b.rings.set n { b.ring n with cons := cons } })
    ran ((m.drainEvents f 256).badCommands f 65536)

/-- REGISTER_WRITE (R437): BASEL, BASEH and SIZE; BASE holds while the ring is enabled. Other offsets discard, but for
those that are the doorbell and a consumer index. -/
def execRegisterWrite (fn : HostFn) (offset : BitVec 13) (value : Word) (s : State) : Out :=
  let m := begin_ true s
  let f := fnIx fn
  let b := s.box f
  match barRing offset with
  | none => ran m
  | some (n, reg) =>
    let r := b.ring n
    let put (r : Ring) : Out := ran (m.act (.box f { b with rings := b.rings.set n r }))
    match reg with
    | 0x00 => if r.count = 0 then put { r with base := cat64 (hi32 r.base) value } else ran m
    | 0x04 => if r.count = 0 then put { r with base := cat64 value (lo32 r.base) } else ran m
    | 0x08 =>
      let q : Ring := { r with size := value.toNat % 32 }
      put (if n = 0 then q.clamped else q)
    | 0x0C => if n = 0 then execDoorbell fn (value.extractLsb' 0 16) s else ran m
    | 0x10 => if n = 0 then ran m else execConsumerIndexWrite fn (BitVec.ofNat 2 n) (value.extractLsb' 0 16) s
    | _ => ran m


end Sys2Proof.Machine
end

