-- ==== Sys2Proof/Machine/Fp.lean ====
section
/-! DEFINITION. Floating words: FP32 (R107–R109), FMA (R110), CVT (R111–R116), and comparisons, predicate logic and
moves: CMP (R119–R122), SEL (R123). -/

namespace Sys2Proof.Machine

/-- A word that writes a result with flags from its lane's sources to D. -/
def fpWord (i : Instr) (d : Reg) (f : Src → Nat → Word × FFlags) (s : State) : Out :=
  issueWord i s (fun lanes src m => m.writeF lanes d (f src))

/-- The rounding of FN[4:3] (R65). -/
def modeOfFn (r : BitVec 2) : RMode := modeOf r.toNat

/-! ## FP32 -/

/-- fadd. -/
def execFadd (c : Bool) (q : BitVec 2) (d a b : Reg) (s : State) : Out :=
  fpWord (.fadd c q d a b) d (fun r l => (addF fp32 (modeOfFn q) (fval (r l a.toNat)) (fval (r l b.toNat))).out) s
/-- fsub. -/
def execFsub (c : Bool) (q : BitVec 2) (d a b : Reg) (s : State) : Out :=
  fpWord (.fsub c q d a b) d (fun r l => (addF fp32 (modeOfFn q) (fval (r l a.toNat)) (fval (r l b.toNat)).negate).out) s
/-- fmul. -/
def execFmul (c : Bool) (q : BitVec 2) (d a b : Reg) (s : State) : Out :=
  fpWord (.fmul c q d a b) d (fun r l => (mulF fp32 (modeOfFn q) (fval (r l a.toNat)) (fval (r l b.toNat))).out) s
/-- hadd2. -/
def execHadd2 (c : Bool) (q : BitVec 2) (d a b : Reg) (s : State) : Out :=
  fpWord (.hadd2 c q d a b) d (fun r l => lanes2 fp16 (addF fp16 (modeOfFn q)) (r l a.toNat) (r l b.toNat)) s
/-- hmul2. -/
def execHmul2 (c : Bool) (q : BitVec 2) (d a b : Reg) (s : State) : Out :=
  fpWord (.hmul2 c q d a b) d (fun r l => lanes2 fp16 (mulF fp16 (modeOfFn q)) (r l a.toNat) (r l b.toNat)) s
/-- badd2. -/
def execBadd2 (c : Bool) (q : BitVec 2) (d a b : Reg) (s : State) : Out :=
  fpWord (.badd2 c q d a b) d (fun r l => lanes2 bf16 (addF bf16 (modeOfFn q)) (r l a.toNat) (r l b.toNat)) s
/-- bmul2. -/
def execBmul2 (c : Bool) (q : BitVec 2) (d a b : Reg) (s : State) : Out :=
  fpWord (.bmul2 c q d a b) d (fun r l => lanes2 bf16 (mulF bf16 (modeOfFn q)) (r l a.toNat) (r l b.toNat)) s
/-- fmin. -/
def execFmin (c : Bool) (d a b : Reg) (s : State) : Out :=
  fpWord (.fmin c d a b) d (fun r l => minMaxF false (r l a.toNat) (r l b.toNat)) s
/-- fmax. -/
def execFmax (c : Bool) (d a b : Reg) (s : State) : Out :=
  fpWord (.fmax c d a b) d (fun r l => minMaxF true (r l a.toNat) (r l b.toNat)) s
/-- fneg. -/
def execFneg (c : Bool) (d a : Reg) (s : State) : Out :=
  fpWord (.fneg c d a) d (fun r l => (r l a.toNat ^^^ 0x80000000, 0)) s
/-- fabs. -/
def execFabs (c : Bool) (d a : Reg) (s : State) : Out :=
  fpWord (.fabs c d a) d (fun r l => (r l a.toNat &&& 0x7FFFFFFF, 0)) s

/-! ## FMA -/

/-- ffma. -/
def execFfma (c : Bool) (q : BitVec 2) (d a b : Reg) (s : State) : Out :=
  fpWord (.ffma c q d a b) d (fun r l => (dotF fp32 (modeOfFn q) [((fval (r l a.toNat)), (fval (r l b.toNat)))] (fval (r l d.toNat))).out) s
/-- ffms. -/
def execFfms (c : Bool) (q : BitVec 2) (d a b : Reg) (s : State) : Out :=
  fpWord (.ffms c q d a b) d (fun r l => (dotF fp32 (modeOfFn q) [((fval (r l a.toNat)), (fval (r l b.toNat)))] (fval (r l d.toNat)).negate).out) s
/-- hfma2. -/
def execHfma2 (c : Bool) (q : BitVec 2) (d a b : Reg) (s : State) : Out :=
  fpWord (.hfma2 c q d a b) d (fun r l => fma2 fp16 (modeOfFn q) (r l a.toNat) (r l b.toNat) (r l d.toNat)) s
/-- bfma2. -/
def execBfma2 (c : Bool) (q : BitVec 2) (d a b : Reg) (s : State) : Out :=
  fpWord (.bfma2 c q d a b) d (fun r l => fma2 bf16 (modeOfFn q) (r l a.toNat) (r l b.toNat) (r l d.toNat)) s
/-- hdot2. -/
def execHdot2 (c : Bool) (q : BitVec 2) (d a b : Reg) (s : State) : Out :=
  fpWord (.hdot2 c q d a b) d (fun r l => (dotF fp32 (modeOfFn q) [(val fp16 (half (r l a.toNat) 0), val fp16 (half (r l b.toNat) 0)),
      (val fp16 (half (r l a.toNat) 1), val fp16 (half (r l b.toNat) 1))] (fval (r l d.toNat))).out) s

/-! ## CVT -/

/-- The rounding of B[6:4] (R67), with V[A+1] as the random value under stochastic rounding. -/
def cvtMode (r : Src) (l : Nat) (a : Reg) (q : BitVec 3) : RMode :=
  if q = 4 then .rs 32 (r l (a.toNat + 1)).toNat else modeOf q.toNat
/-- The narrow format of a two-bit code (R67). -/
def narrowFmt (f : BitVec 2) : Fmt := match f.toNat with | 0 => fp16 | 1 => bf16 | 2 => e4m3 | _ => e5m2
/-- The value of a narrow source in the low bits of a word. -/
def narrowVal (f : Fmt) (w : Word) : FVal := val f (w.toNat % 2 ^ f.width)

/-- CVT, FP32 to a narrow format. -/
def execCvtF32ToNarrow (c : Bool) (f : BitVec 2) (d a : Reg) (q : BitVec 3) (sat : Bool) (s : State) : Out :=
  fpWord (.cvtF32ToNarrow c f d a q sat) d
    (fun r l => (roundVal (narrowFmt f) (cvtMode r l a q) sat (fval (r l a.toNat))).out) s
/-- CVT, a narrow format to FP32, exact. -/
def execCvtNarrowToF32 (c : Bool) (f : BitVec 2) (d a : Reg) (s : State) : Out :=
  fpWord (.cvtNarrowToF32 c f d a) d
    (fun r l => (roundVal fp32 .rne false (narrowVal (narrowFmt f) (r l a.toNat))).out) s
/-- CVT, FP32 to an integer. -/
def execCvtF32ToInt (c : Bool) (uns : Bool) (d a : Reg) (q : BitVec 3) (sat : Bool) (s : State) : Out :=
  fpWord (.cvtF32ToInt c uns d a q sat) d (fun r l => cvtInt uns (modeOf q.toNat) sat (fval (r l a.toNat))) s
/-- CVT, an integer to FP32. -/
def execCvtIntToF32 (c : Bool) (uns : Bool) (d a : Reg) (q : BitVec 3) (s : State) : Out :=
  fpWord (.cvtIntToF32 c uns d a q) d (fun r l =>
    (roundVal fp32 (modeOf q.toNat) false
      (ofInteger (if uns then ((r l a.toNat).toNat : Int) else (r l a.toNat).toInt))).out) s
/-- CVT between the 16-bit formats: f false is FP16 to BF16. -/
def execCvtF16Bf16 (c : Bool) (f : Bool) (d a : Reg) (q : BitVec 3) (sat : Bool) (s : State) : Out :=
  fpWord (.cvtF16Bf16 c f d a q sat) d (fun r l =>
    (roundVal (if f then fp16 else bf16) (cvtMode r l a q) sat
      (narrowVal (if f then bf16 else fp16) (r l a.toNat))).out) s
/-- CVT, FP16 to FP8: f false is E4M3. -/
def execCvtF16ToFp8 (c : Bool) (f : Bool) (d a : Reg) (q : BitVec 3) (sat : Bool) (s : State) : Out :=
  fpWord (.cvtF16ToFp8 c f d a q sat) d (fun r l =>
    (roundVal (if f then e5m2 else e4m3) (cvtMode r l a q) sat (narrowVal fp16 (r l a.toNat))).out) s
/-- frnd. -/
def execFrnd (c : Bool) (d a : Reg) (q : BitVec 3) (s : State) : Out :=
  fpWord (.frnd c d a q) d (fun r l => (frndF (modeOf q.toNat) (fval (r l a.toNat))).out) s
/-- Two FP32 values packed into two lanes (R116). -/
def packVals (f : Fmt) (q : BitVec 3) (sat : Bool) (x y : Word) : Word × FFlags :=
  pack2 (roundVal f (modeOf q.toNat) sat (fval x)) (roundVal f (modeOf q.toNat) sat (fval y))
/-- pack2.f16. -/
def execPack2F16 (c : Bool) (d a : Reg) (q : BitVec 3) (sat : Bool) (s : State) : Out :=
  fpWord (.pack2F16 c d a q sat) d (fun r l => packVals fp16 q sat (r l a.toNat) (r l (a.toNat + 1))) s
/-- pack2.bf16. -/
def execPack2Bf16 (c : Bool) (d a : Reg) (q : BitVec 3) (sat : Bool) (s : State) : Out :=
  fpWord (.pack2Bf16 c d a q sat) d (fun r l => packVals bf16 q sat (r l a.toNat) (r l (a.toNat + 1))) s

/-! ## CMP -/

/-- A word that writes a predicate from its lane's sources. -/
def predWord (i : Instr) (p : BitVec 3) (f : State → Src → Nat → Bool) (s : State) : Out :=
  issueWord i s (fun lanes src m => m.each lanes (fun m l => m.writePred l p.toNat (f s src l) 4))

/-- The condition 0–5 of an order (R66, R119). -/
def condOf (cond : Nat) (o : Ordering) : Bool :=
  match cond with
  | 0 => o == .eq
  | 1 => o != .eq
  | 2 => o == .lt
  | 3 => o != .gt
  | 4 => o == .gt
  | _ => o != .lt

/-- icmp. -/
def execIcmp (c : Bool) (cond : BitVec 3) (p : BitVec 3) (a b : Reg) (s : State) : Out :=
  predWord (.icmp c cond p a b) p
    (fun s r l => condOf cond.toNat (compare (r l a.toNat).toInt (s.bOperand r l b).toInt)) s
/-- icmpu. -/
def execIcmpu (c : Bool) (cond : BitVec 3) (p : BitVec 3) (a b : Reg) (s : State) : Out :=
  predWord (.icmpu c cond p a b) p
    (fun s r l => condOf cond.toNat (compare (r l a.toNat).toNat (s.bOperand r l b).toNat)) s
/-- fcmp. -/
def execFcmp (c : Bool) (cond : BitVec 3) (p : BitVec 3) (a b : Reg) (s : State) : Out :=
  issueWord (.fcmp c cond p a b) s (fun lanes r m =>
    let f (l : Nat) := fcmpF cond.toNat (fval (r l a.toNat)) (fval (r l b.toNat))
    (m.each lanes (fun m l => m.writePred l p.toNat (f l).1 4)).raise lanes (fun l => (f l).2))
/-- fclass. -/
def execFclass (c : Bool) (p : BitVec 3) (a b : Reg) (s : State) : Out :=
  predWord (.fclass c p a b) p (fun _ r l => (r l b.toNat).getLsbD (fclassOf (r l a.toNat))) s
/-- plop. -/
def execPlop (c : Bool) (p : BitVec 3) (tt : BitVec 4) (pa pb : BitVec 3) (s : State) : Out :=
  predWord (.plop c p tt pa pb) p (fun s _ l =>
    let t := s.cur.thread l
    tt.getLsbD (2 * (readPred t pa.toNat).toNat + (readPred t pb.toNat).toNat)) s

/-! ## SEL -/

/-- sel. -/
def execSel (c : Bool) (n : BitVec 3) (d a b : Reg) (s : State) : Out :=
  issueWord (.sel c n d a b) s (fun lanes r m => m.writeAll lanes d (fun l =>
    if readPred (s.cur.thread l) n.toNat then r l a.toNat else s.bOperand r l b))
/-- mov. -/
def execMov (c : Bool) (d b : Reg) (s : State) : Out :=
  issueWord (.mov c d b) s (fun lanes r m => m.writeAll lanes d (fun l => s.bOperand r l b))
/-- movp. -/
def execMovp (c : Bool) (d b : Reg) (s : State) : Out :=
  issueWord (.movp c d b) s (fun lanes r m => m.writePair lanes d (fun l => r.pair l b.toNat))
/-- pmov. -/
def execPmov (c : Bool) (p : BitVec 3) (a : Reg) (s : State) : Out :=
  predWord (.pmov c p a) p (fun _ r l => r l a.toNat != 0) s

end Sys2Proof.Machine
end

