-- ==== Sys2Proof/Machine/Ialu.lean ====
section
/-! DEFINITION. Integer words: IALU (R98–R101), IALUI (R102), IMUL (R103), LI (R104, R105), ALU64 (R106). -/

namespace Sys2Proof.Machine

/-! ## The operations on values -/

/-- A shift count c := b[7:0] (R98). -/
def shiftCount (b : Word) : Nat := b.toNat % 256
/-- shl. -/
def shlV (a b : Word) : Word := if shiftCount b < 32 then a <<< shiftCount b else 0
/-- shr. -/
def shrV (a b : Word) : Word := if shiftCount b < 32 then a >>> shiftCount b else 0
/-- sra. -/
def sraV (a b : Word) : Word := a.sshiftRight (Nat.min (shiftCount b) 32)
/-- rotl. -/
def rotlV (a b : Word) : Word := a.rotateLeft (shiftCount b % 32)
/-- min. -/
def minV (a b : Word) : Word := if a.slt b then a else b
/-- max. -/
def maxV (a b : Word) : Word := if a.slt b then b else a
/-- minu. -/
def minuV (a b : Word) : Word := if a.ult b then a else b
/-- maxu. -/
def maxuV (a b : Word) : Word := if a.ult b then b else a
/-- abs. -/
def absV (a : Word) : Word := if a.msb then 0 - a else a
/-- clz (R99). -/
def clzV (a : Word) : Word := BitVec.ofNat 32 (if a = 0 then 32 else 31 - Nat.log2 a.toNat)
/-- popc. -/
def popcV (a : Word) : Word := BitVec.ofNat 32 ((List.range 32).filter (fun i => a.getLsbD i)).length
/-- A word with bit i at 31 − i. -/
def brevV (a : Word) : Word :=
  (List.range 32).foldl (fun r i => if a.getLsbD i then r ||| BitVec.ofNat 32 (2 ^ (31 - i)) else r) 0
/-- The low bound of a bit field (R100). -/
def fieldLo (b : Word) : Nat := b.toNat % 32
/-- The high bound. -/
def fieldHi (b : Word) : Nat := b.toNat / 256 % 32
/-- bfe. -/
def bfeV (a b : Word) : Word :=
  if fieldHi b < fieldLo b then 0 else BitVec.ofNat 32 (bits a.toNat (fieldHi b) (fieldLo b))
/-- bfx. -/
def bfxV (a b : Word) : Word :=
  if fieldHi b < fieldLo b then 0
  else
    let n := fieldHi b - fieldLo b + 1
    ((BitVec.ofNat n (a.toNat / 2 ^ fieldLo b)).signExtend 32)
/-- bfi: the field of d replaced by the low bits of a. -/
def bfiV (d a b : Word) : Word :=
  if fieldHi b < fieldLo b then d
  else
    let mask := BitVec.ofNat 32 ((2 ^ (fieldHi b - fieldLo b + 1) - 1) * 2 ^ fieldLo b)
    (d &&& ~~~ mask) ||| ((a <<< fieldLo b) &&& mask)
/-- A byte with bit j at 7 − j. -/
def revByte (y : Nat) : Nat := (List.range 8).foldl (fun r j => if y / 2 ^ j % 2 = 1 then r + 2 ^ (7 - j) else r) 0
/-- A result byte of prmb (R101) under its selector. -/
def prmbByte (d a : Word) (g : Nat) : Nat :=
  let y := (d.toNat * 2 ^ 32 + a.toNat) / 2 ^ (8 * (g % 8)) % 256
  match g / 8 % 4 with
  | 0 => y
  | 1 => 0
  | 2 => if 128 ≤ y then 255 else 0
  | _ => revByte y
/-- prmb. -/
def prmbV (d a b : Word) : Word :=
  BitVec.ofNat 32 ((List.range 4).foldl (fun r i => r + prmbByte d a (b.toNat / 2 ^ (8 * i) % 256) * 2 ^ (8 * i)) 0)
/-- mulhi (R103). -/
def mulhiV (a b : Word) : Word := BitVec.ofInt 32 (a.toInt * b.toInt / 2 ^ 32)
/-- mulhiu. -/
def mulhiuV (a b : Word) : Word := BitVec.ofNat 32 (a.toNat * b.toNat / 2 ^ 32)
/-- divu: all ones when b is zero. DEDUCED (log 27). -/
def divuV (a b : Word) : Word := if b = 0 then 0xFFFFFFFF else a / b
/-- remu: a when b is zero. -/
def remuV (a b : Word) : Word := if b = 0 then a else a % b
/-- shl64 (R106). -/
def shl64V (a : DWord) (b : Word) : DWord := if shiftCount b < 64 then a <<< shiftCount b else 0
/-- shr64. -/
def shr64V (a : DWord) (b : Word) : DWord := if shiftCount b < 64 then a >>> shiftCount b else 0
/-- madw. -/
def madwV (a b : Word) (d : DWord) : DWord := a.setWidth 64 * b.setWidth 64 + d
/-- adpc (R105). -/
def adpcV (pc : DWord) (imm : BitVec 17) : DWord := pc + 4#64 * imm.signExtend 64
/-- lih (R104). -/
def lihV (imm : BitVec 17) (d : Word) : Word := imm ++ d.extractLsb' 0 15

/-! ## The shapes of the words -/

/-- A word that writes f of its lane's sources to D. -/
def aluWord (i : Instr) (d : Reg) (lat : Nat) (f : State → Src → Nat → Word) (s : State) : Out :=
  issueWord i s (fun lanes src m => m.writeAll lanes d (f s src) lat)

/-- A word that writes f of its lane's sources to the pair D. -/
def aluPair (i : Instr) (d : Reg) (lat : Nat) (f : State → Src → Nat → DWord) (s : State) : Out :=
  issueWord i s (fun lanes src m => m.writePair lanes d (f s src) lat)

/-- The immediate of an IALUI word: its 9 bits, or that of a prefix (R102). -/
def State.imm9 (s : State) (imm : BitVec 9) : Word := (immOf s.cur.pfx).getD (imm.signExtend 32)

/-! ## IALU -/

/-- add. -/
def execAdd (c : Bool) (d a b : Reg) (s : State) : Out :=
  aluWord (.add c d a b) d 4 (fun s r l => (r l a.toNat) + (s.bOperand r l b)) s
/-- sub. -/
def execSub (c : Bool) (d a b : Reg) (s : State) : Out :=
  aluWord (.sub c d a b) d 4 (fun s r l => (r l a.toNat) - (s.bOperand r l b)) s
/-- and. -/
def execAnd (c : Bool) (d a b : Reg) (s : State) : Out :=
  aluWord (.and c d a b) d 4 (fun s r l => (r l a.toNat) &&& (s.bOperand r l b)) s
/-- or. -/
def execOr (c : Bool) (d a b : Reg) (s : State) : Out :=
  aluWord (.or c d a b) d 4 (fun s r l => (r l a.toNat) ||| (s.bOperand r l b)) s
/-- xor. -/
def execXor (c : Bool) (d a b : Reg) (s : State) : Out :=
  aluWord (.xor c d a b) d 4 (fun s r l => (r l a.toNat) ^^^ (s.bOperand r l b)) s
/-- andn. -/
def execAndn (c : Bool) (d a b : Reg) (s : State) : Out :=
  aluWord (.andn c d a b) d 4 (fun s r l => (r l a.toNat) &&& ~~~ (s.bOperand r l b)) s
/-- shl. -/
def execShl (c : Bool) (d a b : Reg) (s : State) : Out :=
  aluWord (.shl c d a b) d 4 (fun s r l => shlV (r l a.toNat) (s.bOperand r l b)) s
/-- shr. -/
def execShr (c : Bool) (d a b : Reg) (s : State) : Out :=
  aluWord (.shr c d a b) d 4 (fun s r l => shrV (r l a.toNat) (s.bOperand r l b)) s
/-- sra. -/
def execSra (c : Bool) (d a b : Reg) (s : State) : Out :=
  aluWord (.sra c d a b) d 4 (fun s r l => sraV (r l a.toNat) (s.bOperand r l b)) s
/-- rotl. -/
def execRotl (c : Bool) (d a b : Reg) (s : State) : Out :=
  aluWord (.rotl c d a b) d 4 (fun s r l => rotlV (r l a.toNat) (s.bOperand r l b)) s
/-- min. -/
def execMin (c : Bool) (d a b : Reg) (s : State) : Out :=
  aluWord (.min c d a b) d 4 (fun s r l => minV (r l a.toNat) (s.bOperand r l b)) s
/-- max. -/
def execMax (c : Bool) (d a b : Reg) (s : State) : Out :=
  aluWord (.max c d a b) d 4 (fun s r l => maxV (r l a.toNat) (s.bOperand r l b)) s
/-- minu. -/
def execMinu (c : Bool) (d a b : Reg) (s : State) : Out :=
  aluWord (.minu c d a b) d 4 (fun s r l => minuV (r l a.toNat) (s.bOperand r l b)) s
/-- maxu. -/
def execMaxu (c : Bool) (d a b : Reg) (s : State) : Out :=
  aluWord (.maxu c d a b) d 4 (fun s r l => maxuV (r l a.toNat) (s.bOperand r l b)) s
/-- bfe. -/
def execBfe (c : Bool) (d a b : Reg) (s : State) : Out :=
  aluWord (.bfe c d a b) d 4 (fun s r l => bfeV (r l a.toNat) (s.bOperand r l b)) s
/-- bfx. -/
def execBfx (c : Bool) (d a b : Reg) (s : State) : Out :=
  aluWord (.bfx c d a b) d 4 (fun s r l => bfxV (r l a.toNat) (s.bOperand r l b)) s
/-- bfi. -/
def execBfi (c : Bool) (d a b : Reg) (s : State) : Out :=
  aluWord (.bfi c d a b) d 4 (fun s r l => bfiV (r l d.toNat) (r l a.toNat) (s.bOperand r l b)) s
/-- prmb. -/
def execPrmb (c : Bool) (d a b : Reg) (s : State) : Out :=
  aluWord (.prmb c d a b) d 4 (fun s r l => prmbV (r l d.toNat) (r l a.toNat) (s.bOperand r l b)) s
/-- abs. -/
def execAbs (c : Bool) (d a : Reg) (s : State) : Out :=
  aluWord (.abs c d a) d 4 (fun _ r l => absV (r l a.toNat)) s
/-- clz. -/
def execClz (c : Bool) (d a : Reg) (s : State) : Out :=
  aluWord (.clz c d a) d 4 (fun _ r l => clzV (r l a.toNat)) s
/-- popc. -/
def execPopc (c : Bool) (d a : Reg) (s : State) : Out :=
  aluWord (.popc c d a) d 4 (fun _ r l => popcV (r l a.toNat)) s
/-- brev. -/
def execBrev (c : Bool) (d a : Reg) (s : State) : Out :=
  aluWord (.brev c d a) d 4 (fun _ r l => brevV (r l a.toNat)) s

/-! ## IALUI -/

/-- addi. -/
def execAddi (c : Bool) (d a : Reg) (imm : BitVec 9) (s : State) : Out :=
  aluWord (.addi c d a imm) d 4 (fun s r l => (r l a.toNat) + s.imm9 imm) s
/-- andi. -/
def execAndi (c : Bool) (d a : Reg) (imm : BitVec 9) (s : State) : Out :=
  aluWord (.andi c d a imm) d 4 (fun s r l => (r l a.toNat) &&& s.imm9 imm) s
/-- ori. -/
def execOri (c : Bool) (d a : Reg) (imm : BitVec 9) (s : State) : Out :=
  aluWord (.ori c d a imm) d 4 (fun s r l => (r l a.toNat) ||| s.imm9 imm) s
/-- xori. -/
def execXori (c : Bool) (d a : Reg) (imm : BitVec 9) (s : State) : Out :=
  aluWord (.xori c d a imm) d 4 (fun s r l => (r l a.toNat) ^^^ s.imm9 imm) s
/-- shli. -/
def execShli (c : Bool) (d a : Reg) (cnt : BitVec 5) (s : State) : Out :=
  aluWord (.shli c d a cnt) d 4 (fun _ r l => shlV (r l a.toNat) (cnt.setWidth 32)) s
/-- shri. -/
def execShri (c : Bool) (d a : Reg) (cnt : BitVec 5) (s : State) : Out :=
  aluWord (.shri c d a cnt) d 4 (fun _ r l => shrV (r l a.toNat) (cnt.setWidth 32)) s
/-- srai. -/
def execSrai (c : Bool) (d a : Reg) (cnt : BitVec 5) (s : State) : Out :=
  aluWord (.srai c d a cnt) d 4 (fun _ r l => sraV (r l a.toNat) (cnt.setWidth 32)) s

/-! ## IMUL -/

/-- mul. -/
def execMul (c : Bool) (d a b : Reg) (s : State) : Out :=
  aluWord (.mul c d a b) d 6 (fun s r l => (r l a.toNat) * (s.bOperand r l b)) s
/-- mulhi. -/
def execMulhi (c : Bool) (d a b : Reg) (s : State) : Out :=
  aluWord (.mulhi c d a b) d 6 (fun s r l => mulhiV (r l a.toNat) (s.bOperand r l b)) s
/-- mulhiu. -/
def execMulhiu (c : Bool) (d a b : Reg) (s : State) : Out :=
  aluWord (.mulhiu c d a b) d 6 (fun s r l => mulhiuV (r l a.toNat) (s.bOperand r l b)) s
/-- mad. -/
def execMad (c : Bool) (d a b : Reg) (s : State) : Out :=
  aluWord (.mad c d a b) d 6 (fun s r l => (r l a.toNat) * (s.bOperand r l b) + (r l d.toNat)) s
/-- divu. -/
def execDivu (c : Bool) (d a b : Reg) (s : State) : Out :=
  aluWord (.divu c d a b) d 24 (fun s r l => divuV (r l a.toNat) (s.bOperand r l b)) s
/-- remu. -/
def execRemu (c : Bool) (d a b : Reg) (s : State) : Out :=
  aluWord (.remu c d a b) d 24 (fun s r l => remuV (r l a.toNat) (s.bOperand r l b)) s

/-! ## LI -/

/-- lil. -/
def execLil (c : Bool) (d : Reg) (imm : BitVec 17) (s : State) : Out :=
  aluWord (.lil c d imm) d 4 (fun _ _ _ => imm.signExtend 32) s
/-- lih. -/
def execLih (c : Bool) (d : Reg) (imm : BitVec 17) (s : State) : Out :=
  aluWord (.lih c d imm) d 4 (fun _ r l => lihV imm (r l d.toNat)) s
/-- adpc. -/
def execAdpc (c : Bool) (d : Reg) (imm : BitVec 17) (s : State) : Out :=
  aluPair (.adpc c d imm) d 4 (fun s _ _ => adpcV s.cur.pc imm) s

/-! ## ALU64 -/

/-- add64. -/
def execAdd64 (c : Bool) (d a b : Reg) (s : State) : Out :=
  aluPair (.add64 c d a b) d 4 (fun s r l => r.pair l a.toNat + s.bOperand64 r l b) s
/-- sub64. -/
def execSub64 (c : Bool) (d a b : Reg) (s : State) : Out :=
  aluPair (.sub64 c d a b) d 4 (fun s r l => r.pair l a.toNat - s.bOperand64 r l b) s
/-- shl64. -/
def execShl64 (c : Bool) (d a b : Reg) (s : State) : Out :=
  aluPair (.shl64 c d a b) d 4 (fun s r l => shl64V (r.pair l a.toNat) (s.bOperand r l b)) s
/-- shr64. -/
def execShr64 (c : Bool) (d a b : Reg) (s : State) : Out :=
  aluPair (.shr64 c d a b) d 4 (fun s r l => shr64V (r.pair l a.toNat) (s.bOperand r l b)) s
/-- madw. -/
def execMadw (c : Bool) (d a b : Reg) (s : State) : Out :=
  aluPair (.madw c d a b) d 6 (fun _ r l => madwV (r l a.toNat) (r l b.toNat) (r.pair l d.toNat)) s
/-- sext64. -/
def execSext64 (c : Bool) (d a : Reg) (s : State) : Out :=
  aluPair (.sext64 c d a) d 4 (fun _ r l => (r l a.toNat).signExtend 64) s

end Sys2Proof.Machine
end

