-- ==== Sys2Proof/Machine/Mmp.lean ====
section
/-! DEFINITION. What the MMP and the host's translation agent do: page and migration faults serviced (R190, R371), late
frames (R196), page requests and invalidations of the ATC (R185), and pages that move (R217, R219). -/

namespace Sys2Proof.Machine

variable {k : Bool} {s0 : State}

/-! ## What else waits for a page (R190, R276, R299) -/

/-- The command at the head of a ring that waits for a page is applied again: LAUNCH, MEMWR or MEMRD. -/
def Sim.hostRetry (m : Sim true s0) (f : Nat) : Sim true s0 :=
  match m.now.headCommand f with
  | none => m
  | some ws =>
    let fn := fnOf f
    let h : CmdHeader := { fn := fn, seq := (wordAt ws 0).extractLsb' 0 16 }
    let tag : Tag := (wordAt ws 1).extractLsb' 0 12
    if ((m.now.box f).ring 1).full || m.now.underWay h || !m.now.boot.ready || (commandOf fn ws).isNone then m
    else match cmdField ws 0 31 24 with
      | 0x0A => m.hostLaunch h tag (cmdField ws 1 12 12 == 1) (BitVec.ofNat 8 (cmdField ws 1 23 16)) (cmdWide ws 2)
      | 0x0C => m.hostAccess h (cmdField ws 0 23 16 == 0) tag (cmdWide ws 2) (cmdField ws 4 31 0) (cmdWide ws 5)
      | _ => m

/-- Whatever besides lanes may wait for a page goes on as far as it can: words of engines and page operations that are
due, commands, matrix operations, rows of taps, nodes of runs, instances, and mailbox commands. -/
def Sim.retryAll (m : Sim true s0) : Sim true s0 :=
  let m := m.each m.now.ops (fun m o =>
    if (o.kind == .engine || o.kind == .page) && o.due ≤ m.now.ac then
      (match m.now.op? o.id with
       | some o => m.runOp o
       | none => m)
    else m)
  let m := m.each m.now.cmds (fun m c =>
    match c.port with
    | 1 => if c.begun then m else m.copyCmd c.id (if c.op = 1 then 1 else 0)
    | 3 => m.featureCmd c.id
    | 4 => m.drawCmd c.id
    | 5 =>
      (match c.group.bind (fun g => m.now.group? g.1) with
       | some g => if m.now.ownPart c g.members.length == some (.inl 2) then m.modCmd c.id (fun c => { c with extra0 := 2 }) else m
       | none => m)
    | _ => m)
  let m := m.each m.now.mops (fun m q => m.resolve q.id)
  let m := m.each m.now.taps (fun m p => m.each p.todo (fun m r => m.grinderRow p.id r))
  let m := m.each m.now.graphs (fun m g => m.each (List.range g.2.nodes) (fun m n =>
    m.nodeStart (BitVec.ofNat 6 g.1) n (fun m => m.stepNodeStart (BitVec.ofNat 6 g.1) n)))
  let m := m.each (m.now.insts.map (·.1)) (fun m i => m.baristaStep (BitVec.ofNat 4 i))
  let m := m.each (m.now.launches.map (·.1)) (fun m li => m.countDone li)
  m.each (m.now.boxes.map (·.1)) (fun m f => m.hostRetry f)

/-- Threads that wait to enter a line of a page take ACCESS, as their fetch is refused (R191). DEDUCED (log 26). -/
def Sim.refuseFetch (m : Sim k s0) (owner : Tag) (page : Nat) : Sim k s0 :=
  m.each m.now.warps (fun m w =>
    if w.2.resident && !w.2.ended && m.now.ownerOf w.1 == owner then
      m.each (List.range 32) (fun m l =>
        let t := m.now.thread w.1 l
        if t.enters m.now.ac && touches (lineBase t.pc) 64 page then
          m.takeTrap w.1 l t { cause := 0x09, tval := lo32 t.pc, epc := t.wordAddr, pc := t.pc, va := t.pc, lanes := maskOf [l] }
        else m)
    else m)

/-- What waits goes on while an address answers by an entry given for it, and no later. -/
def Sim.under (m : Sim true s0) (e : TlbEntry) (f : Sim true s0 → Sim true s0) : Sim true s0 :=
  let cs := m.now.choices
  let m := f ((m.act (.tlb (e :: m.now.tlb))).act (.choices []))
  (m.act (.tlb (m.now.tlb.filter (· != e)))).act (.choices cs)

/-- An entry that refuses every access of an owner to a page: a leaf of another owner. -/
def refusing (owner : Tag) (va : DWord) : TlbEntry :=
  { owner := owner, page := pageNo va, level := 0, pte := BitVec.ofNat 64 ((owner ^^^ 1).toNat * 2 ^ 52 + 2) }

/-- Every access that waits for a page is refused (R190, R362, R371). -/
def Sim.refusePage (m : Sim true s0) (owner : Tag) (va : DWord) : Sim true s0 :=
  let m := m.each (m.now.heldAt owner (pageNo va)) (fun m p => (m.refuseLane p.1 p.2).settle p.1.id)
  (m.refuseFetch owner (pageNo va)).under (refusing owner va) Sim.retryAll

/-! ## Page faults (R190) -/

/-- The address of a 64 KiB page of the 57-bit space. -/
def pageVa (page : Nat) : DWord := (BitVec.ofNat 57 (65536 * page)).signExtend 64

/-- The pages charged that their owners' tables map no longer. -/
def State.unmapped (s : State) : List Charged :=
  s.charged.filter (fun c => match s.walk c.owner (pageVa c.page) with
    | .leaf _ e => pteKind e != 3 || pteDie e != c.die
    | _ => true)

/-- Whether a charged page may be unmapped now: no write of it is due and nothing pins it (R194, R277). -/
def State.unmaps (s : State) (c : Charged) : Bool :=
  let lo := unbackedLoc c.owner.toNat (65536 * c.page)
  !s.pinned lo && !s.inFlight lo && !s.writesDue s.nextId (lineOf lo)

/-- The frames out of service (R396), and those given already: the MMP puts no page into them. -/
def State.frameTaken (s : State) (f : Nat) : Bool := s.boot.retired.contains f || s.lateFrames.contains f

/-- Whether the MMP may install some entries: in tables of LPDDR-6, mapping no frame that has been retired (R396). -/
def State.installs (s : State) (es : List (Nat × BitVec 64)) : Bool :=
  es.all (fun e => isLpddr e.1 && e.1 % 8 == 0 &&
    !(pteType e.2.toNat == 2 && (pteKind e.2.toNat == 0 || pteKind e.2.toNat == 4) && s.boot.retired.contains (pteFrame e.2.toNat / 65536)))

/-- MMP_FAULT_SERVICE (R190): an entry is installed under which the page translates, and held accesses are performed; or
the access is refused, be it for a page fault or for a migration fault. A charged page that the entries unmap gives its unit
back, and its lines are gone (R195). DESIGN CHOICE (log 43). -/
def execMmpFaultService (owner : Tag) (va : DWord) (ans : MmpAnswer) (s : State) : Out :=
  let m := begin_ true s
  match ans with
  | .install es =>
    if !s.installs es then ran m
    else
      let m' := m.each es (fun m e => m.physWrite e.1 (leBytes 8 e.2.toNat))
      let gone := m'.now.unmapped
      let m' := m'.each gone (fun m c => (m.zeroRange none none c.owner (pageVa c.page) 65536).dropTlb c.owner (pageVa c.page) 1)
      (match s.walk owner va, m'.now.walk owner va with
       | .fault, .leaf .. => if gone.all s.unmaps then ran (m'.replayPage owner va) else ran m
       | .leaf .., _ => if !gone.isEmpty && gone.all s.unmaps then ran m' else ran m
       | _, _ => ran m)
  | .refuse =>
    match s.walk owner va with
    | .fault => ran (m.refusePage owner va)
    | .leaf _ e => if pteBit e 8 && pteOwner e == owner.toNat then ran (m.refusePage owner va) else ran m
    | .refused => ran m

/-! ## Late frames (R196) -/

/-- The leaf that an owner's tables give an address, with its level. -/
def State.leaf (s : State) (owner : Tag) (va : DWord) : Option (Nat × Nat) :=
  match s.walk owner va with
  | .leaf level e => some (level, e)
  | _ => none

/-- The pages that each write under way would charge, with its owner: of held lanes, of copies and collectives to begin, of
forks, of MEMWR commands and of the rows of taps. -/
def State.unitDemands (s : State) : List (Tag × List (Nat × Nat × Bool)) :=
  s.ops.flatMap (fun o =>
    let owner := s.ownerOf o.warp
    (o.lanes.filter (fun x => !x.final)).flatMap (fun x => match o.ins with
      | .tkfork .. => ((s.inst? x.ticket.1).map (fun v => (v.owner, s.forkCharges v x.ticket.2 (x.operand 1).toNat))).toList
      | .fdec .. => ((descOf (wordsOf (s.got owner (cat64 (x.word 1) (x.word 0)) 64).get 16)).map (fun d =>
          (owner, (s.writeUnits owner [(cat64 (x.word 5) (x.word 4), 4 * d.f)]).1))).toList
      | _ => if x.state == .held then [(owner, s.toCharge owner x.addr x.size)] else [])) ++
  s.cmds.flatMap (fun c =>
    let owner := s.ownerOf c.warp
    if c.status.isSome || c.begun then []
    else match c.port with
      | 1 => ((copyOf c).map (fun d => (owner, s.chargesOf c.warp d.dstSp d.dst d.dstride d.rows d.len))).toList
      | 5 => ((c.group.bind (fun g => s.group? g.1)).map (fun g => (owner, s.collCharges c g.members.length))).toList
      | _ => []) ++
  s.taps.flatMap (fun p => match descOf p.desc, s.inst? p.inst with
    | some d, some x => p.todo.flatMap (fun r =>
        let own := [(actRow p.buf p.stride r, 2 * d.d)]
        match s.rowOn x r with
        | some (_, t, _) =>
          let area := [((s.ruleArea x t).2, 4096 + 4 * (s.ruleArea x t).1)]
          if p.owner = x.owner then [(p.owner, (s.writeUnits p.owner (own ++ area)).1)]
          else [(p.owner, (s.writeUnits p.owner own).1), (x.owner, (s.writeUnits x.owner area).1)]
        | none => [])
    | _, _ => []) ++
  s.boxes.flatMap (fun b => match s.headCommand b.1 with
    | some ws => if cmdField ws 0 31 24 = 0x0C ∧ cmdField ws 0 23 16 = 0 then
        (let owner : Tag := (wordAt ws 1).extractLsb' 0 12
         [(owner, s.toCharge owner (cmdWide ws 2) (cmdField ws 4 31 0))]) else []
    | none => [])

/-- Whether a page is one that a write finds full under LATE_FRAME: no unit is free for it, or too few for the write. -/
def State.lateFull (s : State) (owner : Tag) (va : DWord) (e : Nat) : Bool :=
  pteKind e == 3 && pteBit e 7 && pteOwner e == owner.toNat && !s.isCharged owner (pageNo va) &&
  (s.freeUnits owner (pteDie e) == 0 ||
    s.unitDemands.any (fun d => d.1 == owner && (s.noUnit owner d.2).any (fun p => p.1 == pageNo va))) &&
  !s.pinned (unbackedLoc owner.toNat (65536 * pageNo va))

/-- An entry with another frame and KIND DEV, its owner and attributes as before. -/
def devEntry (e frame : Nat) : Nat := e - bits e 51 13 * 2 ^ 13 + frame

/-- Lanes in flight to a page moved with it: their places follow from its first place. -/
def Sim.retarget (m : Sim k s0) (from_ tgt pte : Nat) : Sim k s0 :=
  m.act (.ops (m.now.ops.map (fun o => { o with lanes := o.lanes.map (fun x =>
    match x.loc with
    | some p => if from_ ≤ p ∧ p < from_ + 65536 ∧ !x.final then { x with loc := some (tgt + (p - from_)), pte := pte } else x
    | none => x) })))

/-- LATE_FRAME (R196): an unbacked page that finds no unit takes a free frame, filled with zeros, and what waits for it is
performed there; with no frame free it is UNBACKED_FULL. -/
def execLateFrame (owner : Tag) (va : DWord) (frame : Option Nat) (s : State) : Out :=
  let m := begin_ true s
  match s.leaf owner va with
  | none => ran m
  | some (level, e) =>
    if !s.lateFull owner va e then ran m
    else match frame with
      | some f =>
        let base := 65536 * f
        if !isLpddr base || base / 2 ^ 46 != s.config.pkg.toNat || s.frameTaken f then ran m
        else
          let old := unbackedLoc owner.toNat (65536 * pageNo va)
          let m := m.leaveCaches (lineOf old) (lineOf old + 512)
          let m := m.agentWrite owner ((List.range 65536).map (base + ·)) (List.replicate 65536 0)
          let m := (m.setLeaf owner va (fun e => devEntry e base)).act (.lateFrames (f :: s.lateFrames))
          let m := m.retarget old base (devEntry e base)
          ran (m.replayPage owner va)
      | none =>
        let full : TlbEntry := { owner := owner, page := pageNo va, level := level, pte := BitVec.ofNat 64 (e - 128) }
        ran (m.under full (fun m => (m.replayPage owner va).retryAll))

/-- Whether nothing keeps the places of some pages from moving: no access under way, no store of a try buffer, and no pin
(R219, R277). -/
def State.still (s : State) (base size : Nat) : Bool :=
  let within (p : Nat) : Bool := base ≤ p && p < base + size
  !s.ops.any (fun o => o.lanes.any (fun x => !x.final && (s.laneLocs (s.ownerOf o.warp) x).any within)) &&
  !s.warps.any (fun w => w.2.threads.any (fun t => t.region.any (fun g => g.buffer.any (fun e => within e.1)))) &&
  !s.pins.any (fun p => decide (p.1 < base + size) && decide (base < p.1 + 65536))

/-! ## The host's translations (R185) -/

/-- PRI_RESPONSE (R185): the host grants the page, and held accesses are performed, or it does not and they are refused. -/
def execPriResponse (owner : Tag) (va : DWord) (granted : Bool) (s : State) : Out :=
  let m := begin_ true s
  match s.translate owner true .read va with
  | .priFault iova =>
    if granted then ran ((m.sys (.hostRefuses (iova / 4096) false)).replayPage owner va)
    else ran (m.refusePage owner va)
  | _ => ran m

/-- ATS_INVALIDATION (R185): it completes only when no access under way uses the translation, of a thread or of an engine,
and the translation leaves the ATC. By the choice of the environment the host refuses the pages from then on, until it
grants them to a page request. DESIGN CHOICE (log 46). -/
def execAtsInvalidation (iova : DWord) (pages : Nat) (s : State) : Out :=
  let m := begin_ true s
  let page := iova.toNat / 4096
  if !s.still (hostLoc (4096 * page)) (4096 * pages) then ran m
  else
    let m := (m.dropAtc page pages).chosen
    ran (m.when s.choice (fun m => m.each (List.range pages) (fun m i => m.sys (.hostRefuses (page + i) true))))

/-! ## Pages that move (R217, R219) -/

/-- The lines of a frame. -/
def linesOf (base size : Nat) : List Nat := (List.range (size / 128)).map (· + base / 128)

/-- PAGEX_HANDOVER (R217): every device access of the page is performed, its copies leave every cache, and HX is set. -/
def execPagexHandover (owner : Tag) (va : DWord) (s : State) : Out :=
  let m := begin_ true s
  match s.leaf owner va with
  | none => ran m
  | some (level, e) =>
    let base := pteFrame e
    let size := 2 ^ levelShift level
    if s.config.applied && !s.config.mailbox && pteKind e == 0 && !pteBit e 8 && pteOwner e == owner.toNat && s.still base size then
      ran (((m.leaveCaches (lineOf base) (lineOf base + size / 128)).setLeaf owner va (fun e => e + 256)).dropTlb owner va (size / 65536))
    else ran m

/-- PAGEX_RETURN (R217): the bytes that the host wrote are there, HX is cleared, and held accesses are performed. -/
def execPagexReturn (owner : Tag) (va : DWord) (writes : List (Nat × Byte)) (s : State) : Out :=
  let m := begin_ true s
  match s.leaf owner va with
  | none => ran m
  | some (level, e) =>
    let base := pteFrame e
    let size := 2 ^ levelShift level
    if pteKind e == 0 && pteBit e 8 && pteOwner e == owner.toNat then
      let m := m.each writes (fun m w => m.physWrite (base + w.1 % size) [w.2])
      ran (((m.setLeaf owner va (fun e => e - 256)).dropTlb owner va (size / 65536)).replayPage owner va)
    else ran m

/-- DEV_FRAME_MIGRATION (R219): a DEV page's bytes move to another frame, its errors with them. DEDUCED (log 45). -/
def execDevFrameMigration (owner : Tag) (va : DWord) (frame : Nat) (s : State) : Out :=
  let m := begin_ true s
  match s.leaf owner va with
  | none => ran m
  | some (level, e) =>
    let base := pteFrame e
    let size := 2 ^ levelShift level
    let tgt := 65536 * frame
    if pteKind e == 0 && !pteBit e 8 && pteOwner e == owner.toNat && s.still base size && tgt % size == 0 && isLpddr tgt &&
       isLpddr (tgt + size - 1) && tgt / 2 ^ 46 == s.config.pkg.toNat && tgt != base &&
       !(List.range (size / 65536)).any (fun i => s.frameTaken (frame + i)) then
      let bad := (linesOf base size).filter (fun n => s.lineFault owner (128 * n))
      let m := m.agentWrite owner ((List.range size).map (tgt + ·)) (s.bytes (physLoc base) size)
      let m := m.each bad (fun m n => m.act (.bad (n - base / 128 + tgt / 128) true))
      let m := (m.leaveCaches (lineOf base) (lineOf base + size / 128)).setLeaf owner va (fun e => e - bits e 51 16 * 65536 + tgt)
      ran ((m.dropTlb owner va (size / 65536)).replayPage owner va)
    else ran m

end Sys2Proof.Machine
end

