-- ==== Sys2Proof/Machine/Issue.lean ====
section
/-! DEFINITION. SCHEDULER_ISSUE: the entry of threads into code lines (R15, R17, R27, R74, R75, R191), the choice of a
candidate (R145, R146), the counters of issue (R401, R402), and the bundle latched for its group (R19–R22, R24, R26). -/

namespace Sys2Proof.Machine

variable {k : Bool} {s0 : State}

/-! ## Entering a line -/

/-- The resident warps of a scheduler whose gang is on the cores. -/
def State.issuers (s : State) (sc : Nat) : List Nat :=
  (s.residents sc).filter (fun i => (s.gang (s.gangOf i)).state == GangState.placed)

/-- A precise trap of a thread that enters a line (R361). -/
def Sim.entryTrap (m : Sim k s0) (wi l cause : Nat) (tval : Word) : Sim k s0 :=
  let t := m.now.thread wi l
  m.takeTrap wi l t
    { cause := cause, tval := tval, epc := if cause = 9 then t.wordAddr else t.pc, pc := t.pc
      va := if cause = 9 then t.pc else 0, lanes := maskOf [l] }

/-- The line is fetched and decoded (R27, R74): the first failure of R17 and R75 traps, and a page that must be serviced
leaves the thread waiting. A line with an uncorrectable error is not installed, and its words are free values.
DEDUCED (log 24). DESIGN CHOICE (log 25). -/
def Sim.fetchLine (m : Sim k s0) (wi l : Nat) : Sim k s0 :=
  let t := m.now.thread wi l
  let w := m.now.warp wi
  let owner := m.now.ownerOf wi
  match packetIx t.pc with
  | none => m.entryTrap wi l 2 0
  | some ix =>
    match m.now.fetchPlace wi t.priv t.pc with
    | .refused => m.entryTrap wi l 9 (lo32 t.pc)
    | .ok loc _ _ _ =>
      let base := loc - loc % 64
      let old := m.now.icache.any (fun c => c.core == w.core && c.loc == base)
      let bad := !old && m.now.lineFault owner base
      let ws := if bad then (List.range 16).map (fun i => Config.freeWord (m.now.free + i)) else m.now.fetchWords w.core base
      let m := m.when bad (fun m => m.act (.free (m.now.free + 16)))
      let m := m.when old Sim.chosen
      let m := m.when (m.now.cached owner t.pc).isNone (fun m => m.count (m.now.schedOf wi) 0x140 owner 1)
      let m := (m.cacheEntry owner t.pc).when (!bad) (fun m => m.cacheLine w.core base ws)
      match lineFailure ws with
      | some f => m.entryTrap wi l 1 (encodingTval f)
      | none =>
        if headerNpk (wordAt ws 0) ≤ ix then m.entryTrap wi l 1 (encodingTval (9, 1 + 3 * ix))
        else if midChain ws ix t.pos then
          m.takeTrap wi l t { cause := 0x02, tval := 0, epc := t.wordAddr, pc := t.wordAddr, lanes := maskOf [l] }
        else m.modThread wi l (fun t => { t with line := ws })
    | _ => m.when (t.notBefore == m.now.ac) (fun m => m.count (m.now.schedOf wi) 0x141 owner 1)

/-- One thread enters its line (R15, R74): once fetched it holds while the flags that WAIT masks are counted.
DEDUCED (log 14). -/
def Sim.enterLine (m : Sim k s0) (wi l : Nat) : Sim k s0 :=
  let m := m.when (m.now.thread wi l).line.isEmpty (fun m => m.fetchLine wi l)
  let t := m.now.thread wi l
  let mask := (wordAt t.line 0).extractLsb' 20 12
  m.when (t.enters m.now.ac && !t.line.isEmpty && !(m.now.warp wi).maskHolds mask) (fun m =>
    (m.modThread wi l (fun t => { t with entered := true })).passFlags wi [l] mask)

/-- Every thread of a scheduler that stands at a line enters it. -/
def Sim.enterAll (m : Sim k s0) (sc : Nat) : Sim k s0 :=
  m.each (m.now.issuers sc) (fun m wi => m.each (List.range 32) (fun m l =>
    m.when ((m.now.thread wi l).enters m.now.ac && !m.now.stands wi l && (m.now.gang (m.now.gangOf wi)).state == GangState.placed)
      (fun m => m.enterLine wi l)))

/-! ## The choice of a candidate (R146) -/

/-- A candidate: its warp and its lanes. -/
abbrev Cand := Nat × List Nat

/-- The bundle of a candidate. -/
def State.bundleOf (s : State) (c : Cand) : Bundle := nextBundle (s.thread c.1 (c.2.headD 0))

/-- The wait of a candidate: the largest among its threads. -/
def State.candWait (s : State) (c : Cand) : Nat := maxOf (c.2.map (s.waitOf c.1))

/-- The order of R146 among candidates of one rank: largest wait, then lowest packet address, word position and slot. -/
def State.precedes (s : State) (a b : Cand) : Bool :=
  let ta := s.thread a.1 (a.2.headD 0)
  let tb := s.thread b.1 (b.2.headD 0)
  let key (c : Cand) (t : Thread) : List Nat := [t.pc.toNat, t.pos, (s.warp c.1).slot]
  s.candWait b < s.candWait a || (s.candWait a == s.candWait b && lexLt (key a ta) (key b tb))

/-- The first of a list in that order. -/
def State.firstCand (s : State) : List Cand → Option Cand
  | [] => none
  | c :: cs =>
    match s.firstCand cs with
    | none => some c
    | some d => if s.precedes d c then some d else some c

/-- The candidates of a scheduler. -/
def State.allCands (s : State) (sc : Nat) : List Cand :=
  (s.issuers sc).flatMap (fun i => (s.candidates i).map (fun g => (i, g)))

/-- The candidate that a scheduler issues, and whether rule 1 of R146 chose it. -/
def State.chosenCand (s : State) (sc : Nat) (cs : List Cand) : Option (Cand × Bool) :=
  let old := cs.filter (fun c => 256 ≤ s.candWait c)
  let mine := cs.filter (fun c => some c.1 == (s.sched sc).token)
  if !old.isEmpty then (s.firstCand old).map (fun c => (c, true))
  else if !mine.isEmpty then (s.firstCand mine).map (fun c => (c, false))
  else (s.firstCand cs).map (fun c => (c, false))

/-! ## Latching a bundle -/

/-- The bundle of a group latched, its threads at the word that follows (R19). quiet is set for a bundle of nops, which
issues in no ac (R21). -/
def Sim.latch (m : Sim k s0) (c : Cand) (quiet : Bool) : Sim k s0 :=
  let w := m.now.warp c.1
  let t := w.thread (c.2.headD 0)
  let b := nextBundle t
  let ac := m.now.ac
  let m := m.act (.cur
    { warp := c.1, lanes := c.2, pc := t.pc, chain := b.chain, pos := b.chain, pfx := .none, header := wordAt t.line 0
      old := w, firstOp := m.now.nextId, fpen := w.fpen, traps := [], stay := [], raised := 0 })
  let m := m.act (.bundle b.slots)
  m.each c.2 (fun m l => m.modThread c.1 l (fun t =>
    let t := t.advance b.after
    if quiet then { t with hold := .none, order := none }
    else { t with hold := .none, order := none, lastIssue := ac, notBefore := ac + 1 }))

/-- The pipes that a bundle occupies, busy for the occupancy of its words (R26, R97). -/
def Sim.occupy (m : Sim k s0) (sc : Nat) (b : Bundle) : Sim k s0 :=
  let ac := m.now.ac
  m.modSched sc (fun x => { x with pipes :=
    (b.slots.map (fun s => ((shapeOf s.ins).pipe.num, ac + (shapeOf s.ins).occ))) ++ x.pipes.filter (fun p => ac < p.2) })

/-- The stall reason of every resident warp of a scheduler counted for this ac (R402). -/
def Sim.countStalls (m : Sim k s0) (sc : Nat) (issued : Option Nat) : Sim k s0 :=
  let s := m.now
  m.each (s.residents sc) (fun m i => m.count sc (s.warpCode i (some i == issued)) (s.ownerOf i) 1)

/-- SCHEDULER_ISSUE (R145): threads enter lines; a candidate of nops passes in no ac, and the scheduler keeps its turn;
otherwise the candidate of R146 issues. DESIGN CHOICE (log 19). -/
def execSchedulerIssue (sc : Nat) (s : State) : Out :=
  let m := begin_ false s
  if !s.bundle.isEmpty then ran m else
  let m := m.enterAll sc
  let cs := m.now.allCands sc
  match cs.find? (fun c => (m.now.bundleOf c).nopOnly) with
  | some c => ran ((m.latch c true).act (.turns (sc :: m.now.turns)))
  | none =>
    match m.now.chosenCand sc cs with
    | none => ran (m.countStalls sc none)
    | some (c, aged) =>
      let owner := m.now.ownerOf c.1
      let m := m.countStalls sc (some c.1)
      let m := (m.count sc 0x002 owner 1).count sc 0x003 owner c.2.length
      let m := m.when aged (fun m => m.count sc 0x004 owner 1)
      ran ((m.occupy sc (m.now.bundleOf c)).latch c false)

end Sys2Proof.Machine
end

