-- ==== Sys2Proof/Machine/Dispatch.lean ====
section
/-! DEFINITION. The meaning of each step, one arm per constructor of Instr. -/

namespace Sys2Proof.Machine

def exec (i : Instr) (s : State) : Host.Outcome State Fault Refusal :=
  match i with
  | .nop c => Sys2Proof.Machine.execNop c s
  | .sget c d a => Sys2Proof.Machine.execSget c d a s
  | .sset c d a => Sys2Proof.Machine.execSset c d a s
  | .fwait c mask => Sys2Proof.Machine.execFwait c mask s
  | .yield c => Sys2Proof.Machine.execYield c s
  | .brk c k => Sys2Proof.Machine.execBrk c k s
  | .trap c k => Sys2Proof.Machine.execTrap c k s
  | .add c d a b => Sys2Proof.Machine.execAdd c d a b s
  | .sub c d a b => Sys2Proof.Machine.execSub c d a b s
  | .and c d a b => Sys2Proof.Machine.execAnd c d a b s
  | .or c d a b => Sys2Proof.Machine.execOr c d a b s
  | .xor c d a b => Sys2Proof.Machine.execXor c d a b s
  | .andn c d a b => Sys2Proof.Machine.execAndn c d a b s
  | .shl c d a b => Sys2Proof.Machine.execShl c d a b s
  | .shr c d a b => Sys2Proof.Machine.execShr c d a b s
  | .sra c d a b => Sys2Proof.Machine.execSra c d a b s
  | .rotl c d a b => Sys2Proof.Machine.execRotl c d a b s
  | .min c d a b => Sys2Proof.Machine.execMin c d a b s
  | .max c d a b => Sys2Proof.Machine.execMax c d a b s
  | .minu c d a b => Sys2Proof.Machine.execMinu c d a b s
  | .maxu c d a b => Sys2Proof.Machine.execMaxu c d a b s
  | .abs c d a => Sys2Proof.Machine.execAbs c d a s
  | .clz c d a => Sys2Proof.Machine.execClz c d a s
  | .popc c d a => Sys2Proof.Machine.execPopc c d a s
  | .brev c d a => Sys2Proof.Machine.execBrev c d a s
  | .bfe c d a b => Sys2Proof.Machine.execBfe c d a b s
  | .bfx c d a b => Sys2Proof.Machine.execBfx c d a b s
  | .bfi c d a b => Sys2Proof.Machine.execBfi c d a b s
  | .prmb c d a b => Sys2Proof.Machine.execPrmb c d a b s
  | .addi c d a imm => Sys2Proof.Machine.execAddi c d a imm s
  | .andi c d a imm => Sys2Proof.Machine.execAndi c d a imm s
  | .ori c d a imm => Sys2Proof.Machine.execOri c d a imm s
  | .xori c d a imm => Sys2Proof.Machine.execXori c d a imm s
  | .shli c d a cnt => Sys2Proof.Machine.execShli c d a cnt s
  | .shri c d a cnt => Sys2Proof.Machine.execShri c d a cnt s
  | .srai c d a cnt => Sys2Proof.Machine.execSrai c d a cnt s
  | .mul c d a b => Sys2Proof.Machine.execMul c d a b s
  | .mulhi c d a b => Sys2Proof.Machine.execMulhi c d a b s
  | .mulhiu c d a b => Sys2Proof.Machine.execMulhiu c d a b s
  | .mad c d a b => Sys2Proof.Machine.execMad c d a b s
  | .divu c d a b => Sys2Proof.Machine.execDivu c d a b s
  | .remu c d a b => Sys2Proof.Machine.execRemu c d a b s
  | .lil c d imm => Sys2Proof.Machine.execLil c d imm s
  | .lih c d imm => Sys2Proof.Machine.execLih c d imm s
  | .adpc c d imm => Sys2Proof.Machine.execAdpc c d imm s
  | .fadd c r d a b => Sys2Proof.Machine.execFadd c r d a b s
  | .fsub c r d a b => Sys2Proof.Machine.execFsub c r d a b s
  | .fmul c r d a b => Sys2Proof.Machine.execFmul c r d a b s
  | .hadd2 c r d a b => Sys2Proof.Machine.execHadd2 c r d a b s
  | .hmul2 c r d a b => Sys2Proof.Machine.execHmul2 c r d a b s
  | .badd2 c r d a b => Sys2Proof.Machine.execBadd2 c r d a b s
  | .bmul2 c r d a b => Sys2Proof.Machine.execBmul2 c r d a b s
  | .fmin c d a b => Sys2Proof.Machine.execFmin c d a b s
  | .fmax c d a b => Sys2Proof.Machine.execFmax c d a b s
  | .fneg c d a => Sys2Proof.Machine.execFneg c d a s
  | .fabs c d a => Sys2Proof.Machine.execFabs c d a s
  | .ffma c r d a b => Sys2Proof.Machine.execFfma c r d a b s
  | .ffms c r d a b => Sys2Proof.Machine.execFfms c r d a b s
  | .hfma2 c r d a b => Sys2Proof.Machine.execHfma2 c r d a b s
  | .bfma2 c r d a b => Sys2Proof.Machine.execBfma2 c r d a b s
  | .hdot2 c r d a b => Sys2Proof.Machine.execHdot2 c r d a b s
  | .cvtF32ToNarrow c f d a r sat => Sys2Proof.Machine.execCvtF32ToNarrow c f d a r sat s
  | .cvtNarrowToF32 c f d a => Sys2Proof.Machine.execCvtNarrowToF32 c f d a s
  | .cvtF32ToInt c uns d a r sat => Sys2Proof.Machine.execCvtF32ToInt c uns d a r sat s
  | .cvtIntToF32 c uns d a r => Sys2Proof.Machine.execCvtIntToF32 c uns d a r s
  | .cvtF16Bf16 c f d a r sat => Sys2Proof.Machine.execCvtF16Bf16 c f d a r sat s
  | .cvtF16ToFp8 c f d a r sat => Sys2Proof.Machine.execCvtF16ToFp8 c f d a r sat s
  | .frnd c d a r => Sys2Proof.Machine.execFrnd c d a r s
  | .pack2F16 c d a r sat => Sys2Proof.Machine.execPack2F16 c d a r sat s
  | .pack2Bf16 c d a r sat => Sys2Proof.Machine.execPack2Bf16 c d a r sat s
  | .exp2 c d a => Sys2Proof.Machine.execExp2 c d a s
  | .log2 c d a => Sys2Proof.Machine.execLog2 c d a s
  | .rcp c d a => Sys2Proof.Machine.execRcp c d a s
  | .rsq c d a => Sys2Proof.Machine.execRsq c d a s
  | .sqrt c d a => Sys2Proof.Machine.execSqrt c d a s
  | .sin c d a => Sys2Proof.Machine.execSin c d a s
  | .cos c d a => Sys2Proof.Machine.execCos c d a s
  | .tanh c d a => Sys2Proof.Machine.execTanh c d a s
  | .icmp c cond p a b => Sys2Proof.Machine.execIcmp c cond p a b s
  | .icmpu c cond p a b => Sys2Proof.Machine.execIcmpu c cond p a b s
  | .fcmp c cond p a b => Sys2Proof.Machine.execFcmp c cond p a b s
  | .fclass c p a b => Sys2Proof.Machine.execFclass c p a b s
  | .plop c p tt pa pb => Sys2Proof.Machine.execPlop c p tt pa pb s
  | .sel c n d a b => Sys2Proof.Machine.execSel c n d a b s
  | .mov c d b => Sys2Proof.Machine.execMov c d b s
  | .movp c d b => Sys2Proof.Machine.execMovp c d b s
  | .pmov c p a => Sys2Proof.Machine.execPmov c p a s
  | .br c g disp => Sys2Proof.Machine.execBr c g disp s
  | .call c g disp => Sys2Proof.Machine.execCall c g disp s
  | .brx c g a => Sys2Proof.Machine.execBrx c g a s
  | .callx c g a => Sys2Proof.Machine.execCallx c g a s
  | .ret c g => Sys2Proof.Machine.execRet c g s
  | .exit c g => Sys2Proof.Machine.execExit c g s
  | .meet c g disp => Sys2Proof.Machine.execMeet c g disp s
  | .unmeet c g disp => Sys2Proof.Machine.execUnmeet c g disp s
  | .voteAnd c p pa m => Sys2Proof.Machine.execVoteAnd c p pa m s
  | .voteOr c p pa m => Sys2Proof.Machine.execVoteOr c p pa m s
  | .voteSame c p pa m => Sys2Proof.Machine.execVoteSame c p pa m s
  | .ballot c d pa m => Sys2Proof.Machine.execBallot c d pa m s
  | .shflLane c d a m => Sys2Proof.Machine.execShflLane c d a m s
  | .shflRot c d a m => Sys2Proof.Machine.execShflRot c d a m s
  | .shflOff c d a m => Sys2Proof.Machine.execShflOff c d a m s
  | .shflSwap c d a m => Sys2Proof.Machine.execShflSwap c d a m s
  | .gredAdd c d a m => Sys2Proof.Machine.execGredAdd c d a m s
  | .gredMin c d a m => Sys2Proof.Machine.execGredMin c d a m s
  | .gredMax c d a m => Sys2Proof.Machine.execGredMax c d a m s
  | .gredArgmin c d a m => Sys2Proof.Machine.execGredArgmin c d a m s
  | .gredArgmax c d a m => Sys2Proof.Machine.execGredArgmax c d a m s
  | .gscan c d a m => Sys2Proof.Machine.execGscan c d a m s
  | .matchEq c d a m => Sys2Proof.Machine.execMatchEq c d a m s
  | .elect c p m => Sys2Proof.Machine.execElect c p m s
  | .regq c d a m => Sys2Proof.Machine.execRegq c d a m s
  | .prio c d a m => Sys2Proof.Machine.execPrio c d a m s
  | .ld c g fs fn t a => Sys2Proof.Machine.execLd c g fs fn t a s
  | .ldl c g fs fn t a => Sys2Proof.Machine.execLdl c g fs fn t a s
  | .ldlGang c g fs fn t a => Sys2Proof.Machine.execLdlGang c g fs fn t a s
  | .ldm c g fs fn t a => Sys2Proof.Machine.execLdm c g fs fn t a s
  | .ldc c g fs fn t a => Sys2Proof.Machine.execLdc c g fs fn t a s
  | .st c g fs fn t a => Sys2Proof.Machine.execSt c g fs fn t a s
  | .stl c g fs fn t a => Sys2Proof.Machine.execStl c g fs fn t a s
  | .stlGang c g fs fn t a => Sys2Proof.Machine.execStlGang c g fs fn t a s
  | .stm c g fs fn t a => Sys2Proof.Machine.execStm c g fs fn t a s
  | .atom c g fs fn t a => Sys2Proof.Machine.execAtom c g fs fn t a s
  | .atoml c g fs fn t a => Sys2Proof.Machine.execAtoml c g fs fn t a s
  | .atomGang c g fs fn t a => Sys2Proof.Machine.execAtomGang c g fs fn t a s
  | .atomMkt c g fs fn t a => Sys2Proof.Machine.execAtomMkt c g fs fn t a s
  | .cas c g fs sp t a => Sys2Proof.Machine.execCas c g fs sp t a s
  | .casB64 c g fs sp t a => Sys2Proof.Machine.execCasB64 c g fs sp t a s
  | .madd c g fs t a => Sys2Proof.Machine.execMadd c g fs t a s
  | .mamax c g fs t a => Sys2Proof.Machine.execMamax c g fs t a s
  | .mred c g fs t a => Sys2Proof.Machine.execMred c g fs t a s
  | .mscale c g fs t a => Sys2Proof.Machine.execMscale c g fs t a s
  | .bar c g k => Sys2Proof.Machine.execBar c g k s
  | .gbar c g k => Sys2Proof.Machine.execGbar c g k s
  | .fenceAcq c g scope => Sys2Proof.Machine.execFenceAcq c g scope s
  | .fenceRel c g scope => Sys2Proof.Machine.execFenceRel c g scope s
  | .fenceAr c g scope => Sys2Proof.Machine.execFenceAr c g scope s
  | .feset c g fs n a gang => Sys2Proof.Machine.execFeset c g fs n a gang s
  | .feclr c g fs n a gang => Sys2Proof.Machine.execFeclr c g fs n a gang s
  | .fepoll c g fs d a gang => Sys2Proof.Machine.execFepoll c g fs d a gang s
  | .tryOpen c g cnt m n => Sys2Proof.Machine.execTryOpen c g cnt m n s
  | .commit c g scope => Sys2Proof.Machine.execCommit c g scope s
  | .tabort c g k => Sys2Proof.Machine.execTabort c g k s
  | .tstat c g d => Sys2Proof.Machine.execTstat c g d s
  | .qbind c g d a => Sys2Proof.Machine.execQbind c g d a s
  | .qstat c g d a => Sys2Proof.Machine.execQstat c g d a s
  | .qflush c g fs d a unbind => Sys2Proof.Machine.execQflush c g fs d a unbind s
  | .launch c g fs d a => Sys2Proof.Machine.execLaunch c g fs d a s
  | .gsignal c g fs d a => Sys2Proof.Machine.execGsignal c g fs d a s
  | .mma c g fs m a => Sys2Proof.Machine.execMma c g fs m a s
  | .mdrainL c g fs a => Sys2Proof.Machine.execMdrainL c g fs a s
  | .mdrainR c g fs d a => Sys2Proof.Machine.execMdrainR c g fs d a s
  | .mzero c g fs a => Sys2Proof.Machine.execMzero c g fs a s
  | .tap c g fs d a => Sys2Proof.Machine.execTap c g fs d a s
  | .fget c g fs d a => Sys2Proof.Machine.execFget c g fs d a s
  | .frd c g fs d a => Sys2Proof.Machine.execFrd c g fs d a s
  | .fwr c g fs d a => Sys2Proof.Machine.execFwr c g fs d a s
  | .frel c g fs d a => Sys2Proof.Machine.execFrel c g fs d a s
  | .fdec c g fs d a => Sys2Proof.Machine.execFdec c g fs d a s
  | .tkrd c g fs d a => Sys2Proof.Machine.execTkrd c g fs d a s
  | .tkwr c g fs d a => Sys2Proof.Machine.execTkwr c g fs d a s
  | .tkappend c g fs d a => Sys2Proof.Machine.execTkappend c g fs d a s
  | .tktrunc c g fs d a => Sys2Proof.Machine.execTktrunc c g fs d a s
  | .tkret c g fs d a => Sys2Proof.Machine.execTkret c g fs d a s
  | .tkfork c g fs d a => Sys2Proof.Machine.execTkfork c g fs d a s
  | .kvmap c g fs d a => Sys2Proof.Machine.execKvmap c g fs d a s
  | .rot c g fs d a => Sys2Proof.Machine.execRot c g fs d a s
  | .pres c g fs d a => Sys2Proof.Machine.execPres c g fs d a s
  | .prel c g fs d a => Sys2Proof.Machine.execPrel c g fs d a s
  | .pdisc c g fs d a => Sys2Proof.Machine.execPdisc c g fs d a s
  | .pflush c g fs d a inv => Sys2Proof.Machine.execPflush c g fs d a inv s
  | .pmig c g fs d a => Sys2Proof.Machine.execPmig c g fs d a s
  | .rfe c g => Sys2Proof.Machine.execRfe c g s
  | .killW c g a => Sys2Proof.Machine.execKillW c g a s
  | .killG c g => Sys2Proof.Machine.execKillG c g s
  | .killL c g => Sys2Proof.Machine.execKillL c g s
  | .tlbinv c g fs d a => Sys2Proof.Machine.execTlbinv c g fs d a s
  | .tlbinvOwn c g fs => Sys2Proof.Machine.execTlbinvOwn c g fs s
  | .tlbinvAll c g fs => Sys2Proof.Machine.execTlbinvAll c g fs s
  | .icinv c g fs d a => Sys2Proof.Machine.execIcinv c g fs d a s
  | .icinvAll c g fs => Sys2Proof.Machine.execIcinvAll c g fs s
  | .cntsel c g d a => Sys2Proof.Machine.execCntsel c g d a s
  | .cntselRd c g d a => Sys2Proof.Machine.execCntselRd c g d a s
  | .cntselSmp c g d a => Sys2Proof.Machine.execCntselSmp c g d a s
  | .cntselRot c g d a => Sys2Proof.Machine.execCntselRot c g d a s
  | .qblk c g d a x => Sys2Proof.Machine.execQblk c g d a x s
  | .dqblk c g d a x => Sys2Proof.Machine.execDqblk c g d a x s
  | .qfp8 c g d a x => Sys2Proof.Machine.execQfp8 c g d a x s
  | .add64 c d a b => Sys2Proof.Machine.execAdd64 c d a b s
  | .sub64 c d a b => Sys2Proof.Machine.execSub64 c d a b s
  | .shl64 c d a b => Sys2Proof.Machine.execShl64 c d a b s
  | .shr64 c d a b => Sys2Proof.Machine.execShr64 c d a b s
  | .madw c d a b => Sys2Proof.Machine.execMadw c d a b s
  | .sext64 c d a => Sys2Proof.Machine.execSext64 c d a s
  | .dsel c g fs d a => Sys2Proof.Machine.execDsel c g fs d a s
  | .rng c g fs d a => Sys2Proof.Machine.execRng c g fs d a s
  | .rngk c g d a => Sys2Proof.Machine.execRngk c g d a s
  | .schedulerIssue sched => Sys2Proof.Machine.execSchedulerIssue sched s
  | .longLatencyComplete op => Sys2Proof.Machine.execLongLatencyComplete op s
  | .collectivePerform warp => Sys2Proof.Machine.execCollectivePerform warp s
  | .barrierComplete wg gang k => Sys2Proof.Machine.execBarrierComplete wg gang k s
  | .feWaitPerform op => Sys2Proof.Machine.execFeWaitPerform op s
  | .rdupInvalidateAck op => Sys2Proof.Machine.execRdupInvalidateAck op s
  | .mmpFaultService owner va ans => Sys2Proof.Machine.execMmpFaultService owner va ans s
  | .lateFrame owner va frame => Sys2Proof.Machine.execLateFrame owner va frame s
  | .priResponse owner va granted => Sys2Proof.Machine.execPriResponse owner va granted s
  | .atsInvalidation iova pages => Sys2Proof.Machine.execAtsInvalidation iova pages s
  | .engineRecallRelease op => Sys2Proof.Machine.execEngineRecallRelease op s
  | .tryRollback warp lane => Sys2Proof.Machine.execTryRollback warp lane s
  | .commandReceive warp q => Sys2Proof.Machine.execCommandReceive warp q s
  | .resultPost cmd => Sys2Proof.Machine.execResultPost cmd s
  | .peerDeliver warp q => Sys2Proof.Machine.execPeerDeliver warp q s
  | .awningRefill warp q => Sys2Proof.Machine.execAwningRefill warp q s
  | .copy cmd => Sys2Proof.Machine.execCopy cmd s
  | .copyZero cmd => Sys2Proof.Machine.execCopyZero cmd s
  | .allreduce cmd peers => Sys2Proof.Machine.execAllreduce cmd peers s
  | .broadcast cmd peers => Sys2Proof.Machine.execBroadcast cmd peers s
  | .allgather cmd peers => Sys2Proof.Machine.execAllgather cmd peers s
  | .reducescatter cmd peers => Sys2Proof.Machine.execReducescatter cmd peers s
  | .fabricBarrier cmd peers => Sys2Proof.Machine.execFabricBarrier cmd peers s
  | .matrixMma cmd => Sys2Proof.Machine.execMatrixMma cmd s
  | .matrixDrain cmd => Sys2Proof.Machine.execMatrixDrain cmd s
  | .matrixZero cmd => Sys2Proof.Machine.execMatrixZero cmd s
  | .drawDsel cmd => Sys2Proof.Machine.execDrawDsel cmd s
  | .featureTap cmd => Sys2Proof.Machine.execFeatureTap cmd s
  | .outboxWrite warp q => Sys2Proof.Machine.execOutboxWrite warp q s
  | .rowGroupTake mop row => Sys2Proof.Machine.execRowGroupTake mop row s
  | .matrixOpComplete mop => Sys2Proof.Machine.execMatrixOpComplete mop s
  | .gangPlace => Sys2Proof.Machine.execGangPlace s
  | .launchStarvation launch => Sys2Proof.Machine.execLaunchStarvation launch s
  | .graphNodeStart graph node => Sys2Proof.Machine.execGraphNodeStart graph node s
  | .baristaStep inst => Sys2Proof.Machine.execBaristaStep inst s
  | .stepDone inst => Sys2Proof.Machine.execStepDone inst s
  | .grinderRow tap row => Sys2Proof.Machine.execGrinderRow tap row s
  | .watchHandlerEnd wid => Sys2Proof.Machine.execWatchHandlerEnd wid s
  | .trapDelivery warp lane => Sys2Proof.Machine.execTrapDelivery warp lane s
  | .timerTick sched => Sys2Proof.Machine.execTimerTick sched s
  | .counterAdvance => Sys2Proof.Machine.execCounterAdvance s
  | .counterRotate sched => Sys2Proof.Machine.execCounterRotate sched s
  | .gangHalt gang => Sys2Proof.Machine.execGangHalt gang s
  | .drainTimeout gang => Sys2Proof.Machine.execDrainTimeout gang s
  | .worldSwitch out into => Sys2Proof.Machine.execWorldSwitch out into s
  | .revocationDrain tag => Sys2Proof.Machine.execRevocationDrain tag s
  | .powerOn => Sys2Proof.Machine.execPowerOn s
  | .governorStep milliwatt => Sys2Proof.Machine.execGovernorStep milliwatt s
  | .thermalTrip => Sys2Proof.Machine.execThermalTrip s
  | .semaphoreRead portB n => Sys2Proof.Machine.execSemaphoreRead portB n s
  | .semaphoreWrite portB n => Sys2Proof.Machine.execSemaphoreWrite portB n s
  | .doorbell fn prod => Sys2Proof.Machine.execDoorbell fn prod s
  | .consumerIndexWrite fn ring cons => Sys2Proof.Machine.execConsumerIndexWrite fn ring cons s
  | .registerWrite fn offset value => Sys2Proof.Machine.execRegisterWrite fn offset value s
  | .status h => Sys2Proof.Machine.execStatus h s
  | .fwload h addr len mmp => Sys2Proof.Machine.execFwload h addr len mmp s
  | .config h mailbox pkg domsz treeBase treeSize => Sys2Proof.Machine.execConfig h mailbox pkg domsz treeBase treeSize s
  | .vfcfg h vf remove v => Sys2Proof.Machine.execVfcfg h vf remove v s
  | .owner h tag vf ptbase ucap => Sys2Proof.Machine.execOwner h tag vf ptbase ucap s
  | .keyload h tag addr len => Sys2Proof.Machine.execKeyload h tag addr len s
  | .keyrevoke h tag discard => Sys2Proof.Machine.execKeyrevoke h tag discard s
  | .instcfg h inst addr => Sys2Proof.Machine.execInstcfg h inst addr s
  | .instcfgRemove h inst immediate => Sys2Proof.Machine.execInstcfgRemove h inst immediate s
  | .tkupd h handle addr => Sys2Proof.Machine.execTkupd h handle addr s
  | .graphInstall h graph owner addr nodes succs => Sys2Proof.Machine.execGraphInstall h graph owner addr nodes succs s
  | .graphStart h graph owner => Sys2Proof.Machine.execGraphStart h graph owner s
  | .graphRemove h graph owner => Sys2Proof.Machine.execGraphRemove h graph owner s
  | .mailboxLaunch h owner replicated group addr => Sys2Proof.Machine.execMailboxLaunch h owner replicated group addr s
  | .stop h job mode drainMax => Sys2Proof.Machine.execStop h job mode drainMax s
  | .memwr h owner va len host => Sys2Proof.Machine.execMemwr h owner va len host s
  | .memrd h owner va len host => Sys2Proof.Machine.execMemrd h owner va len host s
  | .post h launch gang wgid warp q mask addr => Sys2Proof.Machine.execPost h launch gang wgid warp q mask addr s
  | .fabricJoin h => Sys2Proof.Machine.execFabricJoin h s
  | .fabricGroup h group addr => Sys2Proof.Machine.execFabricGroup h group addr s
  | .fabricUngroup h group => Sys2Proof.Machine.execFabricUngroup h group s
  | .confmode h enter => Sys2Proof.Machine.execConfmode h enter s
  | .reset h scrub => Sys2Proof.Machine.execReset h scrub s
  | .mktown h tag unassign addr count => Sys2Proof.Machine.execMktown h tag unassign addr count s
  | .flitRetry link => Sys2Proof.Machine.execFlitRetry link s
  | .revolutionClose group => Sys2Proof.Machine.execRevolutionClose group s
  | .revolutionAbandon group => Sys2Proof.Machine.execRevolutionAbandon group s
  | .memberLeave pkg => Sys2Proof.Machine.execMemberLeave pkg s
  | .launchCopyReceipt r => Sys2Proof.Machine.execLaunchCopyReceipt r s
  | .startBarrier group statuses => Sys2Proof.Machine.execStartBarrier group statuses s
  | .remoteAccess r => Sys2Proof.Machine.execRemoteAccess r s
  | .pagexHandover owner va => Sys2Proof.Machine.execPagexHandover owner va s
  | .pagexReturn owner va writes => Sys2Proof.Machine.execPagexReturn owner va writes s
  | .devFrameMigration owner va frame => Sys2Proof.Machine.execDevFrameMigration owner va frame s
  | .hdmDecoderCommit port size => Sys2Proof.Machine.execHdmDecoderCommit port size s

end Sys2Proof.Machine
end

