-- ==== Sys2Proof/Machine/Bundle.lean ====
section
/-! DEFINITION. The run of a latched bundle: its words in order, each by exec (R20, R22); the threads that a precise
trap keeps from the whole chain (R361); and the arrival at the packet that follows (R151). -/

namespace Sys2Proof.Machine

/-- The issue context at a word of the bundle. -/
def Issue.at_ (c : Issue) (x : Slot) : Issue := { c with pos := x.pos, pfx := x.pfx }

/-- The words of a bundle, in order; it ends early where one holds the group. -/
def runSlots : List Slot → State → Out
  | [], s => .next s
  | x :: xs, s =>
    match exec x.ins ((begin_ false s).modCur (fun c => c.at_ x)).now with
    | .next t => if t.cur.stay.isEmpty then runSlots xs t else .next t
    | .fault r => .fault r
    | .refused r => .refused r

/-- Precise traps of some lanes, with nothing of their chain done (R361). -/
def takeAll (got : List (Nat × TrapInfo)) (s : State) : State :=
  ((begin_ true s).each got (fun m x => m.takeTrap s.cur.warp x.1 (s.cur.thread x.1) x.2)).now

/-- A chain run for a group. Where a word traps some lanes, the chain runs again without them; the traps found so far
are got. A word that holds the group undoes the chain. -/
def runChain : Nat → List Slot → List (Nat × TrapInfo) → State → Out
  | 0, _, got, s => .next (takeAll got s)
  | n + 1, b, got, s =>
    match runSlots b s with
    | .next t =>
      if !t.cur.stay.isEmpty then .next (begin_ false s).stayAll.now
      else if t.cur.traps.isEmpty then .next (takeAll got t)
      else
        let got := got ++ t.cur.traps
        let left := s.cur.lanes.filter (fun l => !t.cur.traps.any (fun x => x.1 == l))
        if left.isEmpty then .next (takeAll got s)
        else runChain n b got ((begin_ false s).modCur (fun c => { c with lanes := left })).now
    | .fault r => .fault r
    | .refused r => .refused r

/-- Whether a thread of the group went on in sequence to word 1 of a packet. -/
def inSequence (old now : Thread) : Bool :=
  let n := old.advance (nextBundle old).after
  now.life == .live && (now.hold == .none || now.hold == .commit) && now.priv == old.priv && now.pos == 1 &&
  n.pos == 1 && now.pc == n.pc

/-- The end of a bundle: the threads that went on in sequence arrive, and no group issues. -/
def closeBundle (lanes : List Nat) (s : State) : State :=
  let c := s.cur
  let m := begin_ true s
  let m := m.when c.stay.isEmpty (fun m => m.each lanes (fun m l =>
    if inSequence (c.thread l) (m.now.thread c.warp l) then m.modThread c.warp l arrive else m))
  (m.act (.cur Issue.none)).now

/-- The latched bundle runs. -/
def runBundle (s : State) : Out :=
  match runChain 33 s.bundle [] ((begin_ false s).act (.bundle [])).now with
  | .next t => .next (closeBundle s.cur.lanes t)
  | .fault r => .fault r
  | .refused r => .refused r

end Sys2Proof.Machine
end

