-- ==== Sys2Proof/Machine/Sweep.lean ====
section
/-! DEFINITION. What the machine does of its own accord in an ac besides issue: the events that the state makes possible,
each named by its constructor of Instr. An event whose condition does not hold changes nothing. -/

namespace Sys2Proof.Machine

/-- The events of the threads of a warp: collectives, barriers and rollbacks (R156, R165, R255). -/
def Warp.events (wi : Nat) (w : Warp) : List Instr :=
  let holds := w.threads.map (·.hold)
  let barriers := (holds.filterMap (fun h => match h with | .barrier g n _ => some (g, n) | _ => Option.none)).eraseDups
  (if holds.any (fun h => match h with | .coll _ => true | _ => false) then [.collectivePerform wi] else []) ++
  barriers.map (fun b => .barrierComplete w.wg b.1 b.2) ++
  ((List.range 32).filter (fun l => (w.thread l).aborting.isSome)).map (fun l => .tryRollback wi l)

/-- The events of the queues of a warp (R263, R266, R273, R445). -/
def State.queueEvents (s : State) (wi : Nat) (w : Warp) : List Instr :=
  w.queues.flatMap (fun q =>
    let n := BitVec.ofNat 4 q.1
    (if q.2.kind = 8 then [.peerDeliver wi n] else []) ++
    (if s.receivable wi q.1 then [.commandReceive wi n] else []) ++
    (if s.outReady wi q.1 then [.outboxWrite wi n] else []) ++
    (if q.2.ring.isEmpty then [] else [.awningRefill wi n]))

/-- The events of an operation whose time has come (R174, R179, R210, R371). -/
def Op.events (ac : Nat) (o : Op) : List Instr :=
  if ac < o.due then []
  else (if o.acks then [.rdupInvalidateAck o.id] else []) ++ (if o.waitsFull.isSome then [.feWaitPerform o.id] else []) ++
    [.engineRecallRelease o.id, .longLatencyComplete o.id]

/-- The events of a command of an engine (R274–R278, R306, R350). -/
def Cmd.events (c : Cmd) : List Instr :=
  if c.status.isSome then [.resultPost c.id]
  else match c.port with
    | 1 => [.copy c.id, .copyZero c.id]
    | 2 => [.matrixMma c.id, .matrixDrain c.id, .matrixZero c.id]
    | 3 => [.featureTap c.id]
    | 4 => [.drawDsel c.id]
    | _ => [.allreduce c.id [], .broadcast c.id [], .allgather c.id [], .reducescatter c.id [], .fabricBarrier c.id []]

/-- The events of a matrix sequencer (R297, R299). -/
def State.mopEvents (s : State) (q : Mop) : List Instr :=
  (if q.waits then [.rowGroupTake q.id 0] else []) ++
  ((List.range ((productOf q.ctl q.block).mt + 1)).filter (fun i => s.takes q i || (s.heads q && !q.waits && q.open_ i))).map (fun i => .rowGroupTake q.id i) ++
  [.matrixOpComplete q.id]

/-- The events of a graph (R283). -/
def Graph.events (i : Nat) (g : Graph) : List Instr :=
  match g.run with
  | some r => ((List.range g.nodes).filter (fun n => !r.ended && g.ready r n)).map (fun n => .graphNodeStart (BitVec.ofNat 6 i) n)
  | none => []

/-- The events of a scheduler (R397, R407). -/
def Sched.dueEvents (i : Nat) (x : Sched) : List Instr :=
  (if x.rper ≠ 0 ∧ 1024 * x.rper ≤ x.period then [.counterRotate i] else []) ++
  (if x.tper ≠ 0 ∧ 1024 * x.tper ≤ x.tick then [.timerTick i] else [])

/-- The events of a fabric group of this package alone, and of a revolution (R420, R429, R430). -/
def State.groupEvents (s : State) (i : Nat) (g : Group) : List Instr :=
  let n := BitVec.ofNat 8 i
  (if g.reply.isSome && g.members.length == 1 then [.startBarrier n []] else []) ++
  (if g.members.length == 1 then [.revolutionClose n] else []) ++
  (if s.ringLate n g then [.revolutionAbandon n] else [])

/-- The events that the end of an ac examines, in an order that the model chooses; the last ends the ac. -/
def State.sweep (s : State) : List Instr :=
  let ws := s.warps.filter (fun w => !w.2.ended || !w.2.queues.isEmpty)
  ws.flatMap (fun w => w.2.events w.1) ++
  s.ops.flatMap (fun o => o.events s.ac) ++
  ws.flatMap (fun w => s.queueEvents w.1 w.2) ++
  s.cmds.flatMap (·.events) ++
  s.mops.flatMap s.mopEvents ++
  s.taps.flatMap (fun t => t.todo.map (fun r => .grinderRow t.id r)) ++
  s.graphs.flatMap (fun g => g.2.events g.1) ++
  s.insts.flatMap (fun x => [.baristaStep (BitVec.ofNat 4 x.1), .stepDone (BitVec.ofNat 4 x.1)]) ++
  (if s.placeDue then [.gangPlace] else []) ++
  (s.launches.filter (fun l => l.2.passedSince.isSome && !l.2.blocking)).map (fun l => .launchStarvation l.1) ++
  s.gangs.flatMap (fun g =>
    (if g.2.state == .saving || s.stops.any (fun x => x.todo.head? == some g.1) then [.gangHalt g.1] else []) ++
    (if g.2.drainBy.isSome then [.drainTimeout g.1] else [])) ++
  (s.owners.filter (fun e => e.2.kstate == .revoking)).map (fun e => .revocationDrain (BitVec.ofNat 12 e.1)) ++
  s.scheds.flatMap (fun x => x.2.dueEvents x.1) ++
  s.groups.flatMap (fun g => s.groupEvents g.1 g.2) ++
  [.counterAdvance]

/-- What the mailbox engine does with the command at the head of a ring (R437, R444): it carries it out, or answers one
that encodes none. -/
def State.mailbox (s : State) (f : Nat) : Option Out :=
  match s.nextCommand f with
  | some g => some (g s)
  | none =>
    let t := ((begin_ true s).badCommands f 1).now
    if t = s then none else some (.next t)

/-- Whether an outcome is a state other than s. -/
def moves (s : State) : Out → Bool
  | .next t => t != s
  | _ => true

/-- The next command that the mailbox carries out: of the functions in order, the first whose command moves. -/
def State.mail (s : State) : Option Out :=
  (s.boxes.filterMap (fun b => s.mailbox b.1)).find? (moves s)

end Sys2Proof.Machine
end

