-- ==== Sys2Proof/Machine/Step.lean ====
section
/-! DEFINITION. One step of the package: what moves next, by the plain data that State holds for it. -/

namespace Sys2Proof.Machine

/-- The thread of a scheduler's warps whose pending trap is at its delivery point (R362). -/
def State.toDeliver (s : State) (sc : Nat) : Option (Nat × Nat) :=
  ((s.issuers sc).flatMap (fun i => (List.range 32).map (fun l => (i, l)))).find? (fun p => s.deliverable p.1 p.2)

/-- A scheduler's turn: a trap that is due, or its issue with the bundle that it latches. -/
def stepTurn (sc : Nat) (rest : List Nat) (s : State) : Host.Outcome State Fault Refusal :=
  match s.toDeliver sc with
  | some p => exec (.trapDelivery p.1 p.2) s
  | none =>
    match exec (.schedulerIssue sc) ((begin_ false s).act (.turns rest)).now with
    | .next t => if t.bundle.isEmpty then .next t else runBundle t
    | .fault r => .fault r
    | .refused r => .refused r

/-- The end of an ac: a mailbox command, or the events that the sweep finds, which then move one by one.
DESIGN CHOICE (log 2). -/
def stepEnd (s : State) : Host.Outcome State Fault Refusal :=
  match s.mail with
  | some o => o
  | none =>
    match s.sweep with
    | i :: rest => exec i ((begin_ false s).act (.agenda rest)).now
    | [] => .next s

/-- One step: a latched bundle runs; else the event that the agenda names; else the next scheduler's turn; else the end
of the ac. DESIGN CHOICE (log 84). -/
def step (s : State) : Host.Outcome State Fault Refusal :=
  if !s.bundle.isEmpty then runBundle s
  else match s.agenda with
    | i :: rest => exec i ((begin_ false s).act (.agenda rest)).now
    | [] =>
      match s.turns with
      | sc :: rest => stepTurn sc rest s
      | [] => stepEnd s

/-! ## The word that the host places -/

/-- Where the placed line stands, in the space of its owner and in the package's memory. -/
def placedAt : Nat := 0x1000

/-- The placed line: a header with NPK 1 that counts no flag, and the word in packet 0. -/
def placedLine (w : Nat) : List Byte := leBytes 4 0x000FF205 ++ leBytes 4 w ++ List.replicate 56 0

/-- One thread that begins at the placed word. -/
def placedWarp (ac : Nat) : Warp :=
  { Warp.none with
    resident := true, ended := false, quota := 112
    threads := { Thread.empty with life := .live, pc := BitVec.ofNat 64 (placedAt + 4), lastIssue := ac, notBefore := ac } ::
      List.replicate 31 Thread.empty }

/-- A launch of owner tag 1 with one gang of one workgroup of one thread. -/
def placedLaunch : Launch :=
  { Launch.none with owner := 1, quota := 112, gangl := 1, ngang := 1, entry := BitVec.ofNat 64 (placedAt + 4), nextGang := 1
                     complete := false }

/-- The state with an instruction stored where step fetches its next: owner tag 1 is LOADED and its first GiB cached as a
leaf onto the package's memory, and one thread of it on scheduler 0, whose turn it is, stands at the word. It stands for
the commands by which a host loads and launches a program. DESIGN CHOICE (log 3). -/
def State.withFetchWord (s : State) (nbits w : Nat) : State :=
  if 32 < nbits then s
  else
    { s with
      mem := ((begin_ false s).store placedAt (placedLine w)).now.mem
      owners := Keyed.put s.owners 1 { OwnerEntry.clear with vf := some 0, kstate := .loaded }
      tlb := [{ owner := 1, page := 0, level := 2, pte := BitVec.ofNat 64 (2 ^ 52 + 0x62) }]
      icache := []
      choices := []
      warps := Keyed.put (s.warps.filter (fun p => s.schedOf p.1 != 0)) 0 (placedWarp s.ac)
      wgs := Keyed.put s.wgs 0 { Workgroup.none with size := 1, warps := [0] }
      gangs := Keyed.put s.gangs 0 { Gang.none with state := .placed, wgs := [0] }
      launches := Keyed.put s.launches 0 placedLaunch
      agenda := []
      turns := [0]
      bundle := [] }

end Sys2Proof.Machine
end

