-- ==== Sys2Proof/Safety.lean ====
section
/-! DEFINITION. The terms in which claims speak: the canonical form of storage, what management alone changes, when a
word issues with nothing in its way, and what a word may change in the threads of its group. -/

namespace Sys2Proof.Machine

/-! ## Whole states -/

/-- The canonical form of memory: addresses strictly rising, no entry equal to what an unlisted address reads as. -/
def Memory.wf (m : List (Nat × Byte)) : Bool := Cells.wf 0 m

/-- Every sparse storage of State is in its canonical form, so that equal contents are equal data. -/
def State.canonical (s : State) : Bool :=
  Memory.wf s.mem && Cells.wf false s.fe && Cells.wf 0 s.mktTag && Cells.wf 0 s.tiles && Cells.wf false s.bad &&
  Cells.wf 0 s.lineKey && Cells.wf CacheLine.absent s.l2 && Cells.wf CacheLine.absent s.sc && Cells.wf CacheLine.absent s.dups &&
  Cells.wf 0 s.signalled && Cells.wf false s.atc &&
  Cells.wf false s.hostRefuses && Cells.wf 0 s.pins && Cells.wf 0 s.linkRetries && Cells.wf false s.remoteLoaded

/-- What only management changes stands as it was: time, bring-up, configuration, owner table and keys, virtual
functions, Market owner tags, and what the host and the other packages set. -/
structure SameManaged (s t : State) : Prop where
  ac : t.ac = s.ac
  fc : t.fc = s.fc
  fcPart : t.fcPart = s.fcPart
  boot : t.boot = s.boot
  config : t.config = s.config
  owners : t.owners = s.owners
  vfs : t.vfs = s.vfs
  mktTag : t.mktTag = s.mktTag
  hdm : t.hdm = s.hdm
  hostRefuses : t.hostRefuses = s.hostRefuses
  remoteLoaded : t.remoteLoaded = s.remoteLoaded
  semaphores : t.semaphores = s.semaphores
  linkRetries : t.linkRetries = s.linkRetries
  heldLoads : t.heldLoads = s.heldLoads
  barRead : t.barRead = s.barRead

/-- Whether an instruction is a word of the program (rows 0–196 of the opcode table); the other constructors are steps
of the machine and commands. -/
def isWord (i : Instr) : Bool := (encode? i).isSome

/-! ## A word that issues -/

/-- The lanes that perform a word (R57, R58). -/
def State.performers (s : State) (i : Instr) : List Nat := s.performing (shapeOf i).guard

/-- The queue registers that a word pops (R262). -/
def State.popped (s : State) (i : Instr) : List Nat := (queueReads i s.cur.pfx).filter (s.pops s.cur.warp)

/-- The queue registers that a word pushes (R261). -/
def State.pushed (s : State) (i : Instr) : List Nat := (queueWrites i).filter (s.pushes s.cur.warp)

/-- Whether a queue access of a word would be held (R264). -/
def State.queueHeld (s : State) (i : Instr) : Bool :=
  (s.popped i).any (fun x => s.popHeld s.cur.warp (x - 112)) || (s.pushed i).any (fun x => s.pushHeld s.cur.warp (x - 112))

/-- Whether a performing thread is in a try region in which the word is illegal (R252). -/
def State.regionStops (s : State) (i : Instr) (l : Nat) : Bool :=
  (s.cur.thread l).region.isSome &&
  (regionIllegal i s.cur.pfx || !(queueReads i s.cur.pfx).isEmpty || !(queueWrites i).isEmpty)

/-- A word issues with nothing in its way: some lane performs it, none of them in a region that it would abort (R252), no
queue access is held (R264) or past its quota (R267), and no prefix asks for non-blocking queues (R265). -/
def State.issues (s : State) (i : Instr) : Bool :=
  !(s.performers i).isEmpty && !(s.performers i).any (s.regionStops i) && (qnbOf s.cur.pfx).isNone && !s.queueHeld i &&
  !(s.pushed i).any (fun x => s.pushFaults s.cur.warp (x - 112))

/-- The state once a word has popped its queue sources. -/
def State.afterPops (s : State) (i : Instr) : State :=
  ((begin_ false s).each (s.popped i) (fun m x => m.popFor s.cur.warp (x - 112) (s.performers i))).now

/-! ## What a word changes in its group -/

/-- Outside the warp that issues nothing changes, and of its own warp only threads, popped queues and, where the word
raises IEEE flags, fpst and lxst; each thread keeps all but its registers, predicates and scoreboard, the results that wait
for a larger quota (R163), and the ac from which its pops have made it acquire (R211, R212). -/
structure LaneFrame (s t : State) (i : Instr) (flags : Bool := false) : Prop where
  rest : t = { s with warps := t.warps, cur := if flags then t.cur else s.cur }
  others : ∀ j, j ≠ s.cur.warp → t.warp j = s.warp j
  warp : t.warp s.cur.warp =
    { s.warp s.cur.warp with
      threads := (t.warp s.cur.warp).threads, queues := (t.warp s.cur.warp).queues
      fpst := if flags then (t.warp s.cur.warp).fpst else (s.warp s.cur.warp).fpst
      lxst := if flags then (t.warp s.cur.warp).lxst else (s.warp s.cur.warp).lxst }
  queues : (t.warp s.cur.warp).queues = ((s.afterPops i).warp s.cur.warp).queues
  size : (t.warp s.cur.warp).threads.length = (s.warp s.cur.warp).threads.length
  threads : ∀ l, t.thread s.cur.warp l =
    { s.thread s.cur.warp l with
      regs := (t.thread s.cur.warp l).regs, preds := (t.thread s.cur.warp l).preds, busy := (t.thread s.cur.warp l).busy
      late := (t.thread s.cur.warp l).late, fresh := (t.thread s.cur.warp l).fresh }
  fresh : ∀ l, (t.thread s.cur.warp l).fresh = ((s.afterPops i).thread s.cur.warp l).fresh

/-- A register of a thread, as State holds it. -/
def State.reg (s : State) (wi l code : Nat) : Word := Cells.get 0 (s.thread wi l).regs code

/-- When a register or, from 128 on, a predicate of a thread may be read (R24). -/
def State.readyAt (s : State) (wi l key : Nat) : Nat := Cells.get 0 (s.thread wi l).busy key

/-- Whether a lane of the warp that issues takes the result of a word in a register: it performs the word, and the
code is below the quota of the warp (R163). -/
def State.lands (s : State) (i : Instr) (l code : Nat) : Prop :=
  l ∈ s.performers i ∧ l < (s.warp s.cur.warp).threads.length ∧ code < (s.warp s.cur.warp).quota ∧ code < 112

/-- The registers of the group after a word with one destination: each performing lane holds its result there, readable
lat ac later, and every other register of every lane is as it was; no predicate changes. -/
def RegResult (s t : State) (i : Instr) (d : Reg) (lat : Nat) (v : Nat → Word → Prop) : Prop :=
  (∀ l, s.lands i l d.toNat → v l (t.reg s.cur.warp l d.toNat)) ∧
  (∀ l code, ¬ (s.lands i l code ∧ code = d.toNat) → t.reg s.cur.warp l code = s.reg s.cur.warp l code) ∧
  (∀ l, (t.thread s.cur.warp l).preds = (s.thread s.cur.warp l).preds) ∧
  (∀ l key, t.readyAt s.cur.warp l key =
    if l ∈ s.performers i ∧ l < (s.warp s.cur.warp).threads.length ∧ key = d.toNat then max (s.readyAt s.cur.warp l key) (s.ac + lat)
    else s.readyAt s.cur.warp l key)

/-- The registers of the group after a word whose destination is a pair (R7). -/
def PairResult (s t : State) (i : Instr) (d : Reg) (lat : Nat) (v : Nat → DWord → Prop) : Prop :=
  (∀ l, s.lands i l d.toNat → s.lands i l (d.toNat + 1) →
    v l (cat64 (t.reg s.cur.warp l (d.toNat + 1)) (t.reg s.cur.warp l d.toNat))) ∧
  (∀ l code, ¬ (s.lands i l code ∧ (code = d.toNat ∨ code = d.toNat + 1)) →
    t.reg s.cur.warp l code = s.reg s.cur.warp l code) ∧
  (∀ l, (t.thread s.cur.warp l).preds = (s.thread s.cur.warp l).preds) ∧
  (∀ l key, t.readyAt s.cur.warp l key =
    if l ∈ s.performers i ∧ l < (s.warp s.cur.warp).threads.length ∧ (key = d.toNat ∨ key = d.toNat + 1) then
      max (s.readyAt s.cur.warp l key) (s.ac + lat)
    else s.readyAt s.cur.warp l key)

/-- The registers of the group after a word whose destination is n consecutive registers from D on. -/
def RangeResult (s t : State) (i : Instr) (d : Reg) (n lat : Nat) (v : Nat → Nat → Word) : Prop :=
  (∀ l j, j < n → s.lands i l (d.toNat + j) → t.reg s.cur.warp l (d.toNat + j) = v l j) ∧
  (∀ l code, ¬ (s.lands i l code ∧ d.toNat ≤ code ∧ code < d.toNat + n) → t.reg s.cur.warp l code = s.reg s.cur.warp l code) ∧
  (∀ l, (t.thread s.cur.warp l).preds = (s.thread s.cur.warp l).preds) ∧
  (∀ l key, t.readyAt s.cur.warp l key =
    if l ∈ s.performers i ∧ l < (s.warp s.cur.warp).threads.length ∧ d.toNat ≤ key ∧ key < d.toNat + n then
      max (s.readyAt s.cur.warp l key) (s.ac + lat)
    else s.readyAt s.cur.warp l key)

/-- The predicates of the group after a word whose destination is predicate p: p7 takes no result (R8). -/
def PredResult (s t : State) (i : Instr) (p : Nat) (v : Nat → Bool) : Prop :=
  (∀ l q, q < 7 → readPred (t.thread s.cur.warp l) q =
    if l ∈ s.performers i ∧ l < (s.warp s.cur.warp).threads.length ∧ q = p then v l else readPred (s.thread s.cur.warp l) q) ∧
  (∀ l code, t.reg s.cur.warp l code = s.reg s.cur.warp l code) ∧
  (∀ l key, t.readyAt s.cur.warp l key =
    if l ∈ s.performers i ∧ l < (s.warp s.cur.warp).threads.length ∧ key = 128 + p then max (s.readyAt s.cur.warp l key) (s.ac + 4)
    else s.readyAt s.cur.warp l key)

/-- The IEEE flags that a word's lanes raise stand in fpst and in the flags raised by the chain; a lane whose own flag is
enabled has its bit of lxst (R166). -/
def FlagsRaised (s t : State) (i : Instr) (fl : Nat → FFlags) : Prop :=
  (t.warp s.cur.warp).fpst = (s.performers i).foldl (fun f l => f ||| fl l) (s.warp s.cur.warp).fpst ∧
  (∀ l, l < 32 → laneBit (t.warp s.cur.warp).lxst l =
    (laneBit (s.warp s.cur.warp).lxst l || ((s.performers i).contains l && fl l &&& s.cur.fpen != 0))) ∧
  t.cur = { s.cur with raised := (s.performers i).foldl (fun f l => f ||| fl l) s.cur.raised }

/-! ## Words that complete later, and words that move threads -/

/-- The flags of a warp with one more operation counted (R25). -/
def counted (flags : List (BitVec 6)) : Option Nat → List (BitVec 6)
  | some f => flags.set f (flags.getD f 0 + 1)
  | none => flags

/-- The operation that a word of the group leaves in flight (R25). -/
def State.flight (s : State) (i : Instr) (kind : OpKind) (lanes : List LaneOp) (lat : Nat) (writes : List RegWrite := []) : Op :=
  { id := s.nextId, kind := kind, ins := i, pfx := s.cur.pfx, warp := s.cur.warp, pc := s.cur.pc, pos := s.cur.pos, lanes := lanes
    flag := s.flagFor i, issued := s.ac, due := s.dueOf kind lat, scope := 3, fem := 0, writes := writes, push := none, level := 0
    sample := false, acks := false }

/-- A word leaves one operation in flight, its flag counted once for the group, and pops its queue sources; no register,
predicate, special register, byte of memory or other warp changes (R25), and of its threads only the ac from which its pops
have made them acquire. -/
structure InFlight (s t : State) (i : Instr) (o : Op) : Prop where
  rest : t = { s with ops := s.ops ++ [o], nextId := s.nextId + 1, delays := s.delays.tail, warps := t.warps }
  others : ∀ j, j ≠ s.cur.warp → t.warp j = s.warp j
  warp : t.warp s.cur.warp =
    { s.warp s.cur.warp with
      queues := ((s.afterPops i).warp s.cur.warp).queues, threads := ((s.afterPops i).warp s.cur.warp).threads
      flags := counted (s.warp s.cur.warp).flags o.flag }
  threads : ∀ l, t.thread s.cur.warp l = { s.thread s.cur.warp l with fresh := (t.thread s.cur.warp l).fresh }

/-- A word pops its queue sources and changes its performing threads, as its pops leave them, by f alone; nothing else
changes. -/
structure EachThread (s t : State) (i : Instr) (f : Nat → Thread → Thread) : Prop where
  rest : t = { s with warps := t.warps }
  others : ∀ j, j ≠ s.cur.warp → t.warp j = s.warp j
  warp : t.warp s.cur.warp =
    { s.warp s.cur.warp with
      threads := (t.warp s.cur.warp).threads, queues := ((s.afterPops i).warp s.cur.warp).queues }
  size : (t.warp s.cur.warp).threads.length = (s.warp s.cur.warp).threads.length
  threads : ∀ l, t.thread s.cur.warp l =
    if l ∈ s.performers i ∧ l < (s.warp s.cur.warp).threads.length then f l ((s.afterPops i).thread s.cur.warp l)
    else (s.afterPops i).thread s.cur.warp l

/-! ## Words that trap -/

/-- A thread of the group takes a precise trap in the ordinary way (R360): it is live and outside a handler, its virtual
function has a handler, and its workgroup is bound to no slot of an instance. -/
def State.handles (s : State) (l : Nat) : Prop :=
  (s.thread s.cur.warp l).life = .live ∧ (s.cur.thread l).priv = false ∧ (s.thread s.cur.warp l).priv = false ∧
  s.tvec s.cur.warp ≠ 0 ∧ s.ticketOf (s.warp s.cur.warp).wg = none

/-- What R360 saves and changes in a thread that takes a trap: cause, value and resume address saved, PRIV set, the PC at
the handler. -/
structure Trapped (s : State) (t u : Thread) (cause : Nat) (late : Bool) (tval : Word) (epc : DWord) : Prop where
  epc : u.epc = epc
  tval : u.tval = tval
  cause : u.tcause.toNat = cause + (if late then 2 ^ 30 else 0) + (if 0x0A ≤ cause ∧ cause ≤ 0x0E then 2 ^ 31 else 0)
  priv : u.priv = true
  pc : u.pc = s.tvec s.cur.warp
  pos : u.pos = 1
  hold : u.hold = .none
  next : u.notBefore = s.ac + 1
  kept : u.regs = t.regs ∧ u.preds = t.preds ∧ u.lk = t.lk ∧ u.mt = t.mt ∧ u.life = t.life

/-- A change of the performing threads in which each keeps what R360 keeps. -/
structure EachTraps (s t : State) (i : Instr) (base : Nat → Thread) (cause : Nat) (tval : Nat → Word) (epc : DWord) (pops : Bool := true) :
    Prop where
  rest : ∃ cur, t = { s with warps := t.warps, cur := cur }
  others : ∀ j, j ≠ s.cur.warp → t.warp j = s.warp j
  warp : t.warp s.cur.warp =
    { s.warp s.cur.warp with
      threads := (t.warp s.cur.warp).threads
      queues := if pops then ((s.afterPops i).warp s.cur.warp).queues else (s.warp s.cur.warp).queues }
  threads : ∀ l, l < (s.warp s.cur.warp).threads.length →
    (l ∈ s.performers i → Trapped s (base l) (t.thread s.cur.warp l) cause false (tval l) epc) ∧
    (l ∉ s.performers i → t.thread s.cur.warp l = if pops then (s.afterPops i).thread s.cur.warp l else s.thread s.cur.warp l)

end Sys2Proof.Machine
end

