-- ==== Sys2Proof/Certificates/Slice0/Obligations.lean ====
section
/-! DEFINITION. The statements for the provers. -/

namespace Sys2Proof.Machine

/-! ## What the rules say of results, in their own terms -/

/-- A relation between the operands a and b, the old value of D, and the result (R98–R103). -/
abbrev WordRule := Word → Word → Word → Word → Prop

/-- The two-operand words of IALU (R98, R100, R101) and IMUL (R103) by their rules: c is b[7:0], lo is b[4:0] and hi is
b[12:8]. -/
def binaryRules (c : Bool) (d a b : Reg) : List (Instr × WordRule) :=
  [ (.add c d a b, fun x y _ r => r.toNat = (x.toNat + y.toNat) % 2 ^ 32),
    (.sub c d a b, fun x y _ r => (r.toNat : Int) = ((x.toNat : Int) - (y.toNat : Int)) % 2 ^ 32),
    (.and c d a b, fun x y _ r => ∀ i, i < 32 → r.getLsbD i = (x.getLsbD i && y.getLsbD i)),
    (.or c d a b, fun x y _ r => ∀ i, i < 32 → r.getLsbD i = (x.getLsbD i || y.getLsbD i)),
    (.xor c d a b, fun x y _ r => ∀ i, i < 32 → r.getLsbD i = xor (x.getLsbD i) (y.getLsbD i)),
    (.andn c d a b, fun x y _ r => ∀ i, i < 32 → r.getLsbD i = (x.getLsbD i && !y.getLsbD i)),
    (.shl c d a b, fun x y _ r => r.toNat = if y.toNat % 256 < 32 then x.toNat * 2 ^ (y.toNat % 256) % 2 ^ 32 else 0),
    (.shr c d a b, fun x y _ r => r.toNat = if y.toNat % 256 < 32 then x.toNat / 2 ^ (y.toNat % 256) else 0),
    (.sra c d a b, fun x y _ r => r.toInt = if y.toNat % 256 < 32 then x.toInt / 2 ^ (y.toNat % 256)
      else if x.getLsbD 31 then -1 else 0),
    (.rotl c d a b, fun x y _ r => ∀ i, i < 32 → r.getLsbD ((i + y.toNat % 256) % 32) = x.getLsbD i),
    (.min c d a b, fun x y _ r => r.toInt = min x.toInt y.toInt),
    (.max c d a b, fun x y _ r => r.toInt = max x.toInt y.toInt),
    (.minu c d a b, fun x y _ r => r.toNat = min x.toNat y.toNat),
    (.maxu c d a b, fun x y _ r => r.toNat = max x.toNat y.toNat),
    (.bfe c d a b, fun x y _ r => let lo := y.toNat % 32; let hi := y.toNat / 256 % 32
      r.toNat = if hi < lo then 0 else x.toNat / 2 ^ lo % 2 ^ (hi - lo + 1)),
    (.bfx c d a b, fun x y _ r => let lo := y.toNat % 32; let hi := y.toNat / 256 % 32
      ∀ i, i < 32 → r.getLsbD i = (decide (lo ≤ hi) && x.getLsbD (min (i + lo) hi))),
    (.bfi c d a b, fun x y z r => let lo := y.toNat % 32; let hi := y.toNat / 256 % 32
      ∀ i, i < 32 → r.getLsbD i = if lo ≤ i ∧ i ≤ hi then x.getLsbD (i - lo) else z.getLsbD i),
    (.prmb c d a b, fun x y z r => ∀ i j, i < 4 → j < 8 →
      let g := y.toNat / 2 ^ (8 * i) % 256
      let bit (n : Nat) : Bool := if g % 8 < 4 then x.getLsbD (8 * (g % 8) + n) else z.getLsbD (8 * (g % 8 - 4) + n)
      r.getLsbD (8 * i + j) = if g / 8 % 4 = 0 then bit j else if g / 8 % 4 = 1 then false
        else if g / 8 % 4 = 2 then bit 7 else bit (7 - j)),
    (.mul c d a b, fun x y _ r => r.toNat = x.toNat * y.toNat % 2 ^ 32),
    (.mulhi c d a b, fun x y _ r => r.toInt = x.toInt * y.toInt / 2 ^ 32),
    (.mulhiu c d a b, fun x y _ r => r.toNat = x.toNat * y.toNat / 2 ^ 32),
    (.mad c d a b, fun x y z r => r.toNat = (x.toNat * y.toNat + z.toNat) % 2 ^ 32),
    (.divu c d a b, fun x y _ r => r.toNat = if y.toNat = 0 then 2 ^ 32 - 1 else x.toNat / y.toNat),
    (.remu c d a b, fun x y _ r => r.toNat = if y.toNat = 0 then x.toNat else x.toNat % y.toNat) ]

/-- The unary words of IALU (R99). -/
def unaryRules (c : Bool) (d a : Reg) : List (Instr × WordRule) :=
  [ (.abs c d a, fun x _ _ r => r.toNat = x.toInt.natAbs),
    (.clz c d a, fun x _ _ r => r.toNat ≤ 32 ∧ (∀ i, i < r.toNat → x.getLsbD (31 - i) = false) ∧
      (r.toNat < 32 → x.getLsbD (31 - r.toNat) = true)),
    (.popc c d a, fun x _ _ r => r.toNat = ((List.range 32).filter (fun i => x.getLsbD i)).length),
    (.brev c d a, fun x _ _ r => ∀ i, i < 32 → r.getLsbD (31 - i) = x.getLsbD i) ]

/-- addi, andi, ori and xori (R102), by the immediate k that they take, and the shifts by a count. -/
def immediateRules (c : Bool) (d a : Reg) (imm : BitVec 9) (cnt : BitVec 5) : List (Instr × WordRule) :=
  [ (.addi c d a imm, fun x k _ r => r.toNat = (x.toNat + k.toNat) % 2 ^ 32),
    (.andi c d a imm, fun x k _ r => ∀ i, i < 32 → r.getLsbD i = (x.getLsbD i && k.getLsbD i)),
    (.ori c d a imm, fun x k _ r => ∀ i, i < 32 → r.getLsbD i = (x.getLsbD i || k.getLsbD i)),
    (.xori c d a imm, fun x k _ r => ∀ i, i < 32 → r.getLsbD i = xor (x.getLsbD i) (k.getLsbD i)),
    (.shli c d a cnt, fun x _ _ r => r.toNat = x.toNat * 2 ^ cnt.toNat % 2 ^ 32),
    (.shri c d a cnt, fun x _ _ r => r.toNat = x.toNat / 2 ^ cnt.toNat),
    (.srai c d a cnt, fun x _ _ r => r.toInt = x.toInt / 2 ^ cnt.toNat) ]

/-- Major, FN and D of a word of the RRR format (R53). -/
def rrr (i : Instr) : Nat × Nat × Nat := ((encode i).toNat / 2 ^ 26 % 32, (encode i).toNat / 2 ^ 21 % 32, (encode i).toNat / 2 ^ 14 % 128)

/-- The major and FN of the two-operand words, in the order of binaryRules (R98, R100, R101, R103). -/
def binaryCodes : List (Nat × Nat) :=
  [ (1, 0), (1, 1), (1, 2), (1, 3), (1, 4), (1, 5), (1, 6), (1, 7), (1, 8), (1, 9), (1, 10), (1, 11), (1, 12), (1, 13), (1, 18), (1, 19), (1, 20),
    (1, 21), (3, 0), (3, 1), (3, 2), (3, 3), (3, 4), (3, 5) ]

/-- The latency of a word of IALU, IALUI or IMUL (R97). -/
def intLatency : Instr → Nat
  | .mul .. | .mulhi .. | .mulhiu .. | .mad .. => 6
  | .divu .. | .remu .. => 24
  | _ => 4

/-- The immediate k of an IALUI word (R102): that of a prefix, or IMM12[8:0], sign-extended. -/
def immK (p : Pfx) (imm : BitVec 9) : Word :=
  match p with
  | .imm24 i => i.signExtend 32
  | _ => imm.signExtend 32

/-- The operand b of R96: the immediate of a prefix, sign-extended, or V[B]. -/
def operandB (s : State) (l : Nat) (b : Reg) : Word :=
  match s.cur.pfx with
  | .imm24 i => i.signExtend 32
  | _ => s.source l b.toNat


/-- The B operand of add64 and sub64, widened (R96, R106). -/
def operandB64 (s : State) (l : Nat) (b : Reg) : DWord :=
  match s.cur.pfx with
  | .imm24 i => i.signExtend 64
  | _ => s.source.pair l b.toNat

/-- Moves to one register: lil, lih, sel and mov (R104, R123). -/
def moveRules (s : State) (c : Bool) (d a b : Reg) (imm : BitVec 17) (n : BitVec 3) : List (Instr × (Nat → Word → Prop)) :=
  [ (.lil c d imm, fun _ r => r.toInt = imm.toInt),
    (.lih c d imm, fun l r => r.toNat = imm.toNat * 2 ^ 15 + (s.source l d.toNat).toNat % 2 ^ 15),
    (.sel c n d a b, fun l r => r = if readPred (s.cur.thread l) n.toNat then s.source l a.toNat else operandB s l b),
    (.mov c d b, fun l r => r = operandB s l b) ]

/-- The words whose result is a pair: adpc, ALU64 and movp (R105, R106, R123). -/
def pairRules (s : State) (c : Bool) (d a b : Reg) (imm : BitVec 17) : List (Instr × (Nat → DWord → Prop)) :=
  let x (l : Nat) : Nat := (s.source.pair l a.toNat).toNat
  let cnt (l : Nat) : Nat := (operandB s l b).toNat % 256
  [ (.adpc c d imm, fun _ r => (r.toNat : Int) = ((s.cur.pc.toNat : Int) + 4 * imm.toInt) % 2 ^ 64),
    (.add64 c d a b, fun l r => r.toNat = (x l + (operandB64 s l b).toNat) % 2 ^ 64),
    (.sub64 c d a b, fun l r => (r.toNat : Int) = ((x l : Int) - ((operandB64 s l b).toNat : Int)) % 2 ^ 64),
    (.shl64 c d a b, fun l r => r.toNat = if cnt l < 64 then x l * 2 ^ cnt l % 2 ^ 64 else 0),
    (.shr64 c d a b, fun l r => r.toNat = if cnt l < 64 then x l / 2 ^ cnt l else 0),
    (.madw c d a b, fun l r => r.toNat =
      ((s.source l a.toNat).toNat * (s.source l b.toNat).toNat + (s.source.pair l d.toNat).toNat) % 2 ^ 64),
    (.sext64 c d a, fun l r => r.toInt = (s.source l a.toNat).toInt),
    (.movp c d b, fun l r => r = s.source.pair l b.toNat) ]

/-- The condition 0–5 between two integers (R66, R119): eq, ne, lt, le, gt, ge. -/
def holds (cond : Nat) (x y : Int) : Bool :=
  match cond with
  | 0 => decide (x = y)
  | 1 => decide (x ≠ y)
  | 2 => decide (x < y)
  | 3 => decide (x ≤ y)
  | 4 => decide (y < x)
  | _ => decide (y ≤ x)

/-- Whether an FP32 word is a NaN, and a signalling one (R76, R77). -/
def wordNan (w : Word) : Bool := decide (0x7F800000 < w.toNat % 2 ^ 31)
def wordSignals (w : Word) : Bool := wordNan w && !w.getLsbD 22
/-- A number that orders the FP32 words that are no NaN as their values are ordered, −0 being equal to +0. -/
def wordOrder (w : Word) : Int := if w.getLsbD 31 then -((w.toNat % 2 ^ 31 : Nat) : Int) else ((w.toNat % 2 ^ 31 : Nat) : Int)
/-- The condition of fcmp (R120). -/
def fcmpRule (cond : Nat) (x y : Word) : Bool :=
  if cond = 6 then wordNan x || wordNan y
  else if wordNan x = true ∨ wordNan y = true then cond == 1
  else holds cond (wordOrder x) (wordOrder y)
/-- The flag of fcmp (R120). -/
def fcmpFlag (cond : Nat) (x y : Word) : FFlags :=
  if wordSignals x = true ∨ wordSignals y = true ∨ (2 ≤ cond ∧ cond ≤ 5 ∧ (wordNan x = true ∨ wordNan y = true)) then flagNV else 0

/-- The class of an FP32 word (R121). -/
def wordClass (w : Word) : Nat :=
  let e := w.toNat / 2 ^ 23 % 256
  let m := w.toNat % 2 ^ 23
  if e = 255 ∧ m ≠ 0 then (if w.getLsbD 22 then 1 else 0)
  else if w.getLsbD 31 then (if e = 255 then 2 else if e ≠ 0 then 3 else if m ≠ 0 then 4 else 5)
  else (if e = 255 then 9 else if e ≠ 0 then 8 else if m ≠ 0 then 7 else 6)

/-- The words whose result is a predicate and that raise no flag (R119, R121, R122, R123). -/
def predRules (s : State) (c : Bool) (cond p : BitVec 3) (a b : Reg) (tt : BitVec 4) (pa pb : BitVec 3) :
    List (Instr × (Nat → Bool)) :=
  [ (.icmp c cond p a b, fun l => holds cond.toNat (s.source l a.toNat).toInt (operandB s l b).toInt),
    (.icmpu c cond p a b, fun l => holds cond.toNat (s.source l a.toNat).toNat (operandB s l b).toNat),
    (.fclass c p a b, fun l => (s.source l b.toNat).getLsbD (wordClass (s.source l a.toNat))),
    (.plop c p tt pa pb, fun l => tt.getLsbD
      ((if readPred (s.cur.thread l) pa.toNat then 2 else 0) + (if readPred (s.cur.thread l) pb.toNat then 1 else 0))),
    (.pmov c p a, fun l => decide ((s.source l a.toNat).toNat ≠ 0)) ]

/-- The words of FP32, FMA and CVT with the value and the flags of each lane, from its sources a, b and d (R65, R67,
R107–R116): each rounds once, from the exact result. -/
def floatRules (c : Bool) (q : BitVec 2) (q3 : BitVec 3) (f2 : BitVec 2) (u sat : Bool) (d a b : Reg) :
    List (Instr × (Src → Nat → Word × FFlags)) :=
  let va (r : Src) (l : Nat) : FVal := fval (r l a.toNat)
  let vb (r : Src) (l : Nat) : FVal := fval (r l b.toNat)
  let vd (r : Src) (l : Nat) : FVal := fval (r l d.toNat)
  let mode := modeOfFn q
  [ (.fadd c q d a b, fun r l => (addF fp32 mode (va r l) (vb r l)).out),
    (.fsub c q d a b, fun r l => (addF fp32 mode (va r l) (vb r l).negate).out),
    (.fmul c q d a b, fun r l => (mulF fp32 mode (va r l) (vb r l)).out),
    (.hadd2 c q d a b, fun r l => lanes2 fp16 (addF fp16 mode) (r l a.toNat) (r l b.toNat)),
    (.hmul2 c q d a b, fun r l => lanes2 fp16 (mulF fp16 mode) (r l a.toNat) (r l b.toNat)),
    (.badd2 c q d a b, fun r l => lanes2 bf16 (addF bf16 mode) (r l a.toNat) (r l b.toNat)),
    (.bmul2 c q d a b, fun r l => lanes2 bf16 (mulF bf16 mode) (r l a.toNat) (r l b.toNat)),
    (.fmin c d a b, fun r l => minMaxF false (r l a.toNat) (r l b.toNat)),
    (.fmax c d a b, fun r l => minMaxF true (r l a.toNat) (r l b.toNat)),
    (.fneg c d a, fun r l => (r l a.toNat ^^^ 0x80000000, 0)),
    (.fabs c d a, fun r l => (r l a.toNat &&& 0x7FFFFFFF, 0)),
    (.ffma c q d a b, fun r l => (dotF fp32 mode [(va r l, vb r l)] (vd r l)).out),
    (.ffms c q d a b, fun r l => (dotF fp32 mode [(va r l, vb r l)] (vd r l).negate).out),
    (.hfma2 c q d a b, fun r l => fma2 fp16 mode (r l a.toNat) (r l b.toNat) (r l d.toNat)),
    (.bfma2 c q d a b, fun r l => fma2 bf16 mode (r l a.toNat) (r l b.toNat) (r l d.toNat)),
    (.hdot2 c q d a b, fun r l => (dotF fp32 mode [(val fp16 (half (r l a.toNat) 0), val fp16 (half (r l b.toNat) 0)),
      (val fp16 (half (r l a.toNat) 1), val fp16 (half (r l b.toNat) 1))] (vd r l)).out),
    (.cvtF32ToNarrow c f2 d a q3 sat, fun r l => (roundVal (narrowFmt f2) (cvtMode r l a q3) sat (va r l)).out),
    (.cvtNarrowToF32 c f2 d a, fun r l => (roundVal fp32 .rne false (narrowVal (narrowFmt f2) (r l a.toNat))).out),
    (.cvtF32ToInt c u d a q3 sat, fun r l => cvtInt u (modeOf q3.toNat) sat (va r l)),
    (.cvtIntToF32 c u d a q3, fun r l => (roundVal fp32 (modeOf q3.toNat) false
      (ofInteger (if u then ((r l a.toNat).toNat : Int) else (r l a.toNat).toInt))).out),
    (.cvtF16Bf16 c u d a q3 sat, fun r l =>
      (roundVal (if u then fp16 else bf16) (cvtMode r l a q3) sat (narrowVal (if u then bf16 else fp16) (r l a.toNat))).out),
    (.cvtF16ToFp8 c u d a q3 sat, fun r l =>
      (roundVal (if u then e5m2 else e4m3) (cvtMode r l a q3) sat (narrowVal fp16 (r l a.toNat))).out),
    (.frnd c d a q3, fun r l => (frndF (modeOf q3.toNat) (va r l)).out),
    (.pack2F16 c d a q3 sat, fun r l => packVals fp16 q3 sat (r l a.toNat) (r l (a.toNat + 1))),
    (.pack2Bf16 c d a q3 sat, fun r l => packVals bf16 q3 sat (r l a.toNat) (r l (a.toNat + 1))) ]

/-- The XFN words with their function codes (R117). -/
def xfnRules (c : Bool) (d a : Reg) : List (Instr × Nat) :=
  [(.exp2 c d a, 0), (.log2 c d a, 1), (.rcp c d a, 2), (.rsq c d a, 3), (.sqrt c d a, 4), (.sin c d a, 5), (.cos c d a, 6),
   (.tanh c d a, 7)]

/-! ## Control, convergence and traps -/

/-- The collectives, each with its mask register, its source, its control source and its predicate (R156–R164). -/
def collRules (c : Bool) (p pa : BitVec 3) (d a m : Reg) : List (Instr × Option Reg × Option Reg × Nat) :=
  [ (.voteAnd c p pa m, none, none, pa.toNat), (.voteOr c p pa m, none, none, pa.toNat), (.voteSame c p pa m, none, none, pa.toNat),
    (.ballot c d pa m, none, none, pa.toNat), (.elect c p m, none, none, 7),
    (.shflLane c d a m, some a, some d, 7), (.shflRot c d a m, some a, some d, 7), (.shflOff c d a m, some a, some d, 7),
    (.shflSwap c d a m, some a, some d, 7), (.gredAdd c d a m, some a, none, 7), (.gredMin c d a m, some a, none, 7),
    (.gredMax c d a m, some a, none, 7), (.gredArgmin c d a m, some a, none, 7), (.gredArgmax c d a m, some a, none, 7),
    (.gscan c d a m, some a, none, 7), (.matchEq c d a m, some a, none, 7), (.regq c d a m, some a, none, 7),
    (.prio c d a m, some a, none, 7) ]

/-- A thread held at the word that issues, as not having passed it. -/
def heldAt (s : State) (l : Nat) (h : Hold) (t : Thread) : Thread :=
  { t with pc := s.cur.pc, pos := s.cur.pos, line := (s.cur.thread l).line, entered := (s.cur.thread l).entered, hold := h }

/-! ## Memory words, engine words and system words -/

/-- The lanes of a memory word at issue, each at its address (R132): base, pair A plus the offset of a MEMQ prefix. -/
def memAddr (s : State) (a : Reg) (l : Nat) : DWord :=
  s.source.pair l a.toNat + (match s.cur.pfx with | .memq off _ _ _ _ => off.signExtend 64 | _ => 0)

/-- The loads, stores, atomics and stall operations with what they do in memory (R70, R132, R236, R238): space, bytes touched,
alignment required, whether they write, and the bytes of their operands. -/
def memoryRules (s : State) (c : Bool) (g : Guard) (fs : Bool) (fn : BitVec 4) (sp : BitVec 3) (t a : Reg) :
    List (Instr × MemWord × (Nat → List Byte)) :=
  let load (n : Nat) : MemWord :=
    { kind := .load, sp := n, acc := .read, size := if fn = 0 then 4 else if fn = 1 ∨ fn = 2 then 1 else if fn = 3 ∨ fn = 4 then 2 else if fn = 5 then 8 else 16 }
  let store (n : Nat) : MemWord :=
    { kind := .store, sp := n, acc := .write, size := if fn = 0 then 4 else if fn = 1 then 1 else if fn = 2 then 2 else if fn = 3 then 8 else 16 }
  let at_ (n size : Nat) : MemWord := { kind := .atomic, sp := n, acc := .write, size := size, align := size }
  let atom (n : Nat) : MemWord := at_ n (if fn = 10 ∨ fn = 12 then 8 else 4)
  let market (acc : Access) (size : Nat) : MemWord := { kind := .market, sp := 3, acc := acc, size := size, align := size }
  let words (n l : Nat) : List Byte := (List.range n).flatMap (fun i => wordBytes (s.source l (t.toNat + i)))
  let stored (l : Nat) : List Byte := (words 4 l).take (store 0).size
  let none_ (_ : Nat) : List Byte := []
  [ (.ld c g fs fn t a, load 0, none_), (.ldl c g fs fn t a, load 1, none_), (.ldlGang c g fs fn t a, load 2, none_),
    (.ldm c g fs fn t a, load 3, none_), (.ldc c g fs fn t a, load 4, none_),
    (.st c g fs fn t a, store 0, stored), (.stl c g fs fn t a, store 1, stored), (.stlGang c g fs fn t a, store 2, stored),
    (.stm c g fs fn t a, store 3, stored),
    (.atom c g fs fn t a, atom 0, words (if fn = 10 then 2 else 1)), (.atoml c g fs fn t a, atom 1, words (if fn = 10 then 2 else 1)),
    (.atomGang c g fs fn t a, atom 2, words (if fn = 10 then 2 else 1)), (.atomMkt c g fs fn t a, atom 3, words (if fn = 10 then 2 else 1)),
    (.cas c g fs sp t a, at_ sp.toNat 4, words 2), (.casB64 c g fs sp t a, at_ sp.toNat 8, words 4),
    (.madd c g fs t a, market .write 16, words 4), (.mamax c g fs t a, market .write 128, words 1),
    (.mred c g fs t a, market .write 16, words 1), (.mscale c g fs t a, market .read 128, words 1) ]

/-- Whether the access of a lane proceeds, is refused, waits, or finds no unit (R172, R189, R194, R237). -/
def State.admits (s : State) (w : MemWord) (a : Reg) (l : Nat) : Admit :=
  s.admitAccess s.cur.warp (s.cur.thread l).priv w.acc w.sp (memAddr s a l) w.size ((memAddr s a l).toNat % w.align == 0) (w.kind == .atomic)

/-- What one lane of a memory word leaves in flight: its place where it is admitted, and else waiting or refused. -/
def State.memFlight (s : State) (w : MemWord) (a : Reg) (data : Nat → List Byte) (l : Nat) : LaneOp :=
  let b : LaneOp :=
    { lane := l, addr := memAddr s a l, loc := none, size := w.size, pte := 0, data := data l, state := .held, priv := (s.cur.thread l).priv }
  match s.admits w a l with
  | .go loc pte => { b with loc := some loc, pte := pte, state := .going }
  | .held => b
  | _ => { b with state := .refused }

/-- What a word does whose destination names a queue register (R9, R261, R263, R266, R268): where the register is bound to no push
side the write is discarded; else one entry for the group takes its place, in the queue or in the INBOX that a PEER binding names,
with the results of the performing lanes and zero elsewhere, its value written ready ac later or, with none, not yet; an entry to an
INBOX that is gone is lost. -/
structure QueueTakes (s t : State) (i : Instr) (d : Reg) (ready : Option Nat) (v : Nat → Word → Prop) : Prop where
  threads : ∀ j l, (s.thread j l).region = none → t.thread j l = (s.afterPops i).thread j l
  discarded : s.pushes s.cur.warp d.toNat = false → t.mem = s.mem ∧ (∀ j l, t.thread j l = (s.afterPops i).thread j l) ∧
    (∀ j x, (t.warp j).queue x = ((s.afterPops i).warp j).queue x) ∧ (t.warp s.cur.warp).unreceived = (s.warp s.cur.warp).unreceived
  lost : s.pushes s.cur.warp d.toNat = true → (s.afterPops i).storeOf s.cur.warp (d.toNat - 112) = none → t.mem = s.mem ∧
    (∀ j l, t.thread j l = (s.afterPops i).thread j l) ∧ ∀ j x, (t.warp j).queue x = if j = s.cur.warp ∧ x = d.toNat - 112 then { ((s.afterPops i).warp j).queue x with lost := true }
      else ((s.afterPops i).warp j).queue x
  entered : ∀ ti r, s.pushes s.cur.warp d.toNat = true → (s.afterPops i).storeOf s.cur.warp (d.toNat - 112) = some (ti, r) →
    let b := ((s.afterPops i).warp ti).queue r
    let kind := ((s.warp s.cur.warp).queue (d.toNat - 112)).kind
    let here := b.hw.length < 8 ∧ b.ring = []
    ∃ e : QEntry, e.id = s.nextId ∧ e.origin = (s.cur.warp, d.toNat - 112) ∧ e.mask = maskOf (s.performers i) ∧
      (∀ l, l < 32 → l ∈ s.performers i → v l (wordAt e.words l)) ∧ (∀ l, l < 32 → l ∉ s.performers i → wordAt e.words l = 0) ∧
      (match ready with
       | some lat => e.written = (kind != 7) ∧ e.readyAt = s.ac + lat + (if kind = 7 then s.peerDelay s.cur.warp ti else 0)
       | none => e.written = false ∧ e.readyAt = 0) ∧
      (∀ j x, (t.warp j).queue x = if j = ti ∧ x = r then
          (if here then { b with hw := b.hw ++ [e] } else { b with ring := b.ring ++ [(b.nextK, e)], nextK := b.nextK + 1 })
        else ((s.afterPops i).warp j).queue x) ∧
      (t.warp s.cur.warp).unreceived = (s.warp s.cur.warp).unreceived + (if kind ≤ 5 then 1 else 0) ∧
      (here → t.mem = s.mem ∧ ∀ j l, t.thread j l = (s.afterPops i).thread j l) ∧
      (¬ here → e.written = true → ∀ loc x y z,
        s.translate (s.ownerOf s.cur.warp) false .write (b.base + BitVec.ofNat 64 (256 * (b.nextK % b.qs))) = .ok loc x y z →
        t.bytes loc 256 = slotBytes e.mask e.words)

/-- One operation of a memory word stands last among those in flight, its flag counted; no byte, FE bit or accumulator
changes. -/
structure MemoryIssued (s t : State) (i : Instr) (kind : OpKind) (lanes : List LaneOp) : Prop where
  op : ∃ o, t.ops = s.ops ++ [o] ∧ o.id = s.nextId ∧ o.kind = kind ∧ o.ins = i ∧ o.pfx = s.cur.pfx ∧ o.warp = s.cur.warp ∧
    o.pc = s.cur.pc ∧ o.pos = s.cur.pos ∧ o.flag = s.flagFor i ∧ o.issued = s.ac ∧ s.ac < o.due ∧ o.lanes = lanes ∧
    o.scope = (match s.cur.pfx with | .memq _ sc _ _ _ => sc | _ => 3) ∧ o.fem = (match s.cur.pfx with | .memq _ _ _ f _ => f | _ => 0) ∧
    o.writes = [] ∧ o.push = none
  mem : t.mem = s.mem
  fe : t.fe = s.fe
  tiles : t.tiles = s.tiles
  cur : t.cur = s.cur
  queues : ∀ j x, (t.warp j).queue x = ((s.afterPops i).warp j).queue x
  flags : ∀ j, (t.warp j).flags = if j = s.cur.warp then counted (s.warp j).flags (s.flagFor i) else (s.warp j).flags

/-- The words that an engine performs for each lane, with what the lane holds for it (R245, R280, R284, R347, R351). -/
def engineRules (s : State) (c : Bool) (g : Guard) (fs : Bool) (d a : Reg) : List (Instr × (Nat → LaneOp)) :=
  let w (l n : Nat) : Word := s.source l (a.toNat + n)
  let two (l : Nat) : LaneOp := { engineLane l with data := wordBytes (w l 0) ++ wordBytes (w l 1) }
  let one (l : Nat) : LaneOp := { engineLane l with data := wordBytes (w l 0) }
  [ (.launch c g fs d a, fun l => { engineLane l (s.source.pair l a.toNat) with size := 64 }),
    (.gsignal c g fs d a, two), (.fget c g fs d a, two), (.frel c g fs d a, two),
    (.pres c g fs d a, one), (.prel c g fs d a, one),
    (.frd c g fs d a, fun l => s.elemLane l (w l 0) (w l 1) 0), (.fwr c g fs d a, fun l => s.elemLane l (w l 0) (w l 1) (w l 2)) ]

/-- The TKT words with the number of operand registers from A on and the latency (R329–R335). -/
def ticketRules (c : Bool) (g : Guard) (fs : Bool) (d a : Reg) : List (Instr × Nat × Nat) :=
  [ (.tkrd c g fs d a, 1, 200), (.tkwr c g fs d a, 9, 200), (.tkappend c g fs d a, 3, 400), (.tktrunc c g fs d a, 3, 400),
    (.tkret c g fs d a, 2, 200), (.tkfork c g fs d a, 3, 2000), (.kvmap c g fs d a, 3, 200) ]

/-- The page operations: whether the range is that of the page of A (pmig), and the access that each makes (R244). -/
def pageRules (c : Bool) (g : Guard) (fs : Bool) (d a : Reg) (inv : Bool) : List (Instr × PageOp) :=
  [(.pdisc c g fs d a, .disc), (.pflush c g fs d a inv, .flush inv), (.pmig c g fs d a, .mig)]

/-- The arrival of a lane at a collective or mma (R156, R289), with what it offers, fpen at its issue (R166), and its registers
as its chain found them (R361). -/
def arriving (s : State) (i : Instr) (mask : Reg) (a ctl : Option Reg) (pa l : Nat) : Hold :=
  let t := s.cur.thread l
  .coll
    { pc := s.cur.pc, pos := s.cur.pos, mask := if mask.toNat < 112 then s.source l mask.toNat else 0, live := decide (112 ≤ mask.toNat)
      src := a.elim 0 (fun r => s.source l r.toNat), ctl := ctl.elim 0 (fun r => s.source l r.toNat), pred := readPred t pa, ins := i
      fpen := s.cur.fpen, first := s.cur.firstOp, before := { regs := t.regs, preds := t.preds, lk := t.lk, mt := t.mt } }

/-- Only threads, and the records that end with them, may differ: which threads run. -/
def LifeOnly (s t : State) (dead : Nat → Nat → Prop) : Prop :=
  ∀ j l, ((dead j l ∧ (s.thread j l).life = .live) → (t.thread j l).life = .exited) ∧
    (¬ (dead j l ∧ (s.thread j l).life = .live) → (t.thread j l).life = (s.thread j l).life)

/-! ## Steps of the machine -/

/-- A flag of a warp counted down (R25). -/
def uncounted (flags : List (BitVec 6)) : Option Nat → List (BitVec 6)
  | some f => flags.set f (if flags.getD f 0 = 0 then 0 else flags.getD f 0 - 1)
  | none => flags

/-- An operation has completed (R25): it is in flight no more, its flag is counted down, its results stand in the registers
of its live threads, and of memory and the FE bits only what it wrote has changed. -/
structure Completed (s t : State) (o : Op) (wrote : Nat → Option Byte) (fe : Nat → Option Bool) (result : Nat → Nat → Option Word) : Prop where
  ops : t.ops = s.ops.filter (fun e => e.id != o.id)
  byte : ∀ loc, t.byte loc = (wrote loc).getD (s.byte loc)
  full : ∀ g, t.full g = (fe g).getD (s.full g)
  flags : ∀ j, (t.warp j).flags = if j = o.warp then uncounted (s.warp j).flags o.flag else (s.warp j).flags
  regs : ∀ j l code, t.reg j l code =
    if j = o.warp ∧ (s.thread j l).life = .live ∧ code < (s.warp j).quota ∧ code < 112 then (result l code).getD (s.reg j l code)
    else s.reg j l code
  preds : ∀ j l, (t.thread j l).preds = (s.thread j l).preds
  tiles : t.tiles = s.tiles
  managed : SameManaged s t

/-- An access of one lane that nothing keeps from being performed: its order, its FE condition, recalls and pins allow it
(R174, R205, R210, R232), its Market granules are still its owner's (R388), and its bytes are all different and free of errors
(R368), those of CXL devices too (R184). An access that crosses a stall boundary is performed whole (R180). -/
structure Lone (s : State) (o : Op) (x : LaneOp) : Prop where
  found : s.op? o.id = some o
  lanes : o.lanes = [x]
  going : x.state = .going
  plain : o.sample = false ∧ o.writes = [] ∧ (s.warp o.warp).ended = false
  whole : x.part = 0 ∧ (stallCut x = none ∨ s.choice = false)
  owned : s.marketLost o x = false
  may : s.mayPerform o x = true
  apart : (s.laneLocs (s.ownerOf o.warp) x).Nodup
  sound : ∀ p ∈ s.laneLocs (s.ownerOf o.warp) x, s.lineFault (s.ownerOf o.warp) p = false
  device : ∀ p ∈ s.laneLocs (s.ownerOf o.warp) x, isCxlLine (lineOf p) = true → ∀ n, Config.poison n (lineOf p) = false

/-- What an access writes, by place: byte i of some data at the i-th of its places. -/
def laid (places : List Nat) (data : List Byte) (loc : Nat) : Option Byte :=
  if loc ∈ places then data[places.idxOf loc]? else none

/-- Register i of a load of a width code (R70, R132). -/
def loaded (fn : BitVec 4) (bs : List Byte) (i : Nat) : Word :=
  if fn = 2 then (bs.getD 0 0).signExtend 32
  else if fn = 4 then (bs.getD 1 0 ++ bs.getD 0 0).signExtend 32
  else bytesWord ((bs.drop (4 * i)).take 4)

/-- The FE bits after an access (R174): set by a store that waits or fills, cleared by a load that waits and clears. -/
def feBits (o : Op) (x : LaneOp) (g : Nat) : Option Bool :=
  if g ∈ unitsOf 4 (x.loc.getD 0) x.size then
    (if o.kind = .load ∧ o.fem = 2 then some false else if o.kind = .store ∧ (o.fem = 1 ∨ o.fem = 3) then some true else none)
  else none

/-- The value that an atomic of 32 bits leaves (R236). -/
def atomicRule (fn : BitVec 4) (old v : Word) : Word :=
  if fn = 0 then old + v else if fn = 1 then (if v.slt old then v else old) else if fn = 2 then (if old.slt v then v else old)
  else if fn = 3 then (if v.ult old then v else old) else if fn = 4 then (if old.ult v then v else old)
  else if fn = 5 then old &&& v else if fn = 6 then old ||| v else if fn = 7 then old ^^^ v else if fn = 8 then v else addR old v

/-- The events under which a lone access is performed: its completion when it is due, the end of an FE wait, and the release
of an engine's line. -/
def performs (s : State) (o : Op) (e : Instr) : Prop :=
  (e = .longLatencyComplete o.id ∧ o.due ≤ s.ac) ∨ (e = .feWaitPerform o.id ∧ o.waitsFull.isSome = true) ∨
  (e = .engineRecallRelease o.id ∧ o.due ≤ s.ac)

/-- The state that an event of another warp than the issuing one sees as the issuing one. -/
def State.as_ (s : State) (wi : Nat) : State := { s with cur := { s.cur with warp := wi } }

/-- The threads of a collective operation go on (R156): each stands past its word, and keeps all but its registers, predicates
and scoreboard; every other thread and warp is as it was. -/
structure Gone (s t : State) (wi : Nat) (lanes : List Nat) : Prop where
  rest : t = { s with warps := t.warps }
  others : ∀ j, j ≠ wi → t.warp j = s.warp j
  warp : t.warp wi = { s.warp wi with threads := (t.warp wi).threads, fpst := (t.warp wi).fpst, lxst := (t.warp wi).lxst }
  kept : ∀ l, l ∉ lanes → t.thread wi l = s.thread wi l
  moved : ∀ l ∈ lanes, t.thread wi l =
    { resumed s.ac 1 (s.thread wi l) with
      regs := (t.thread wi l).regs, preds := (t.thread wi l).preds, busy := (t.thread wi l).busy, late := (t.thread wi l).late }

/-- The lane that a shfl reads (R159). -/
def pick (lanes : List Nat) (l : Nat) (n : Int) : Nat := if 0 ≤ n ∧ n.toNat ∈ lanes then n.toNat else l

/-- What the collectives write in a register of each thread of S (R158–R160). -/
def collectiveRules (lanes : List Nat) (src ctl : Nat → Word) (pred : Nat → Bool) (c : Bool) (d a m : Reg) (pa : BitVec 3) :
    List (Instr × (Nat → Word → Prop)) :=
  let from_ (n : Nat → Int) : Nat → Word → Prop := fun l w => w = src (pick lanes l (n l))
  let least (lt : Word → Word → Bool) : Nat → Word → Prop := fun _ w => (∃ j ∈ lanes, w = src j) ∧ ∀ j ∈ lanes, lt (src j) w = false
  [ (.ballot c d pa m, fun _ w => ∀ j, j < 32 → laneBit w j = (lanes.contains j && pred j)),
    (.matchEq c d a m, fun l w => ∀ j, j < 32 → laneBit w j = (lanes.contains j && src j == src l)),
    (.shflLane c d a m, from_ (fun l => ((ctl l).toNat % 64 : Nat))), (.shflRot c d a m, from_ (fun l => ((l + (ctl l).toNat) % 32 : Nat))),
    (.shflOff c d a m, from_ (fun l => (l : Int) + ((ctl l).extractLsb' 0 6).toInt)),
    (.shflSwap c d a m, from_ (fun l => (Nat.xor l ((ctl l).toNat % 32) : Nat))),
    (.gredMin c d a m, least BitVec.slt), (.gredMax c d a m, least (fun x y => y.slt x)) ]

/-- What the collectives write in a predicate of each thread of S (R158). -/
def collectivePreds (lanes : List Nat) (pred : Nat → Bool) (c : Bool) (p pa : BitVec 3) (m : Reg) : List (Instr × (Nat → Bool)) :=
  [ (.voteAnd c p pa m, fun _ => lanes.all pred), (.voteOr c p pa m, fun _ => lanes.any pred),
    (.voteSame c p pa m, fun _ => lanes.all pred || lanes.all (fun l => !pred l)), (.elect c p m, fun l => lanes.all (fun j => decide (l ≤ j))) ]

/-- Of memory only an entry of 8 bytes and what is listed besides has changed. -/
def EntryWritten (s t : State) (p e : Nat) (besides : Nat → Prop) : Prop :=
  t.bytes p 8 = leBytes 8 e ∧ ∀ loc, ¬ (p ≤ loc ∧ loc < p + 8) → ¬ besides loc → t.byte loc = s.byte loc

/-- The places of the entries that a walk reads from a level and a table on (R186). -/
def State.walkPlaces (s : State) (va : Nat) : Nat → Nat → List Nat
  | level, table =>
    let q := physLoc (table + 8 * walkIndex level va)
    q :: (if pteType (s.readNat q 8) = 1 then
      (match level with | 0 => [] | l + 1 => State.walkPlaces s va l (bits (s.readNat q 8) 51 12 * 4096)) else [])

/-- Whether no entry that translates an address stands in some places. -/
def State.tablesApart (s : State) (owner : Tag) (va : DWord) (base size : Nat) : Bool :=
  (s.walkPlaces va.toNat 4 (s.owner owner).ptbase).all (fun q => decide (q + 8 ≤ base) || decide (base + size ≤ q))

/-! ## Words that do not perform, and whole steps -/

/-- Whether a word that none of its threads performs is counted until the next ac (R58). -/
def counts (i : Instr) : Bool := (shapeOf i).long && !guardNever (shapeOf i).guard

/-- A word that no thread performs changes its threads by f alone; where R58 counts it, it is in flight with no lane. -/
structure PassedOver (s t : State) (i : Instr) (f : Nat → Thread → Thread) : Prop where
  rest : t = { (if counts i then { s with ops := s.ops ++ [s.flight i .fixed [] 1], nextId := s.nextId + 1, delays := s.delays.tail } else s) with
    warps := t.warps, scheds := t.scheds }
  others : ∀ j, j ≠ s.cur.warp → t.warp j = s.warp j
  warp : t.warp s.cur.warp =
    { s.warp s.cur.warp with
      threads := (t.warp s.cur.warp).threads
      flags := if counts i then counted (s.warp s.cur.warp).flags (s.flagFor i) else (s.warp s.cur.warp).flags }
  threads : ∀ l, l < (s.warp s.cur.warp).threads.length → t.thread s.cur.warp l = f l (s.thread s.cur.warp l)

/-- Only threads of the group's warp change, and the issue context. -/
structure ThreadsOnly (s t : State) : Prop where
  rest : t = { s with warps := t.warps, cur := t.cur }
  others : ∀ j, j ≠ s.cur.warp → t.warp j = s.warp j
  warp : t.warp s.cur.warp = { s.warp s.cur.warp with threads := (t.warp s.cur.warp).threads }

/-- The instructions whose every word meets the frame of issue: all but nop, and mma, whose group arrives (R288). -/
def framed (i : Instr) : Prop := isWord i = true ∧ (∀ c, i ≠ .nop c) ∧ ∀ c g fs m a, i ≠ .mma c g fs m a

/-- Words that the spec writes out, with the instructions that it writes them for. -/
def specWords : List (Nat × Instr) :=
  let always : Guard := ⟨false, 7⟩
  [ (0x081831FF, .addi false 3 3 0x1FF), (0x05404103, .min false 1 2 3), (0x10080000, .lil false 1 0), (0x20014200, .exp2 false 5 4),
    (0x27206103, .plop false 1 8 2 3), (0x28410286, .sel false 2 4 5 6), (0x2DD00014, .brx false always 20), (0x00600009, .fwait false 9),
    (0x45C10001, .gbar false always 1), (0xB5C01460, .ld true always false 0 5 12), (0x3DD61043, .cas false always false 3 4 8),
    (0x51C0FE50, .mma false always false 127 20), (0x51C15031, .mdrainR false always false 40 12), (0x55C504C0, .fdec false always false 2 48),
    (0x59C718A0, .rot false always false 12 40), (0x5DC20C20, .pdisc false always false 6 8), (0x61E20C20, .tlbinv false always true 6 8),
    (0x6DC03CA0, .dsel false always false 30 40), (0x68020400, .add64 false 8 8 0) ]

/-! ## Commands of engines -/

/-- A warp with a queue register's binding replaced, in a state. -/
def State.withQueue (s : State) (wi q : Nat) (b : Binding) : State := { s with warps := Keyed.put s.warps wi ((s.warp wi).setQueue q b) }

/-- The command that the head entry of a port makes (R273). -/
def State.received (s : State) (wi q : Nat) : Cmd :=
  let e := s.headEntry wi q
  let f := bits (wordAt e.words 0).toNat 19 16
  { id := s.nextId, port := ((s.warp wi).queue q).kind, warp := wi, mask := e.mask, words := e.words, flag := if f < 12 then some f else none
    status := if 12 ≤ f ∧ f ≤ 14 then some 1 else none, bytes := 0, extra0 := 0
    extra3 := if ((s.warp wi).queue q).kind = 4 ∧ 12 ≤ f ∧ f ≤ 14 then 0xFFFFFFFF else 0, owned := [], pins := [], begun := false
    group := none }

/-- A command is taken from its port (R273): the entry is popped, the flag that it names counted up, and one entry fewer waits. -/
structure Received (s t : State) (wi q : Nat) (cmds : List Cmd) (groups : List (Nat × Group)) : Prop where
  rest : t = { s with nextId := s.nextId + 1, cmds := cmds, groups := groups, warps := t.warps }
  others : ∀ j, j ≠ wi → t.warp j = s.warp j
  warp : t.warp wi =
    { s.warp wi with
      queues := Keyed.put (s.warp wi).queues q { (s.warp wi).queue q with hw := ((s.warp wi).queue q).hw.tail }
      unreceived := (s.warp wi).unreceived - 1, flags := counted (s.warp wi).flags (s.received wi q).flag }

/-- A command that is decided leaves, or keeps its result (R273, R277): its flag is counted down and its pins end; u is its
warp besides. -/
structure Posted (s t : State) (c : Cmd) (cmds : List Cmd) (u : Warp) : Prop where
  rest : t = { s with pins := t.pins, warps := t.warps, cmds := cmds, nextId := t.nextId }
  others : ∀ j, j ≠ c.warp → t.warp j = s.warp j
  warp : t.warp c.warp =
    { u with
      flags := uncounted (s.warp c.warp).flags c.flag
      signals := c.flag.elim (s.warp c.warp).signals (fun f => (s.warp c.warp).signals.set f (s.ac + 1)) }
  pins : ∀ p, Cells.get 0 t.pins p = if p ∈ c.pins then Cells.get 0 s.pins p - 1 else Cells.get 0 s.pins p

/-- The entry that posts a result (R274). -/
def Cmd.entry (c : Cmd) (s : State) (q : Nat) : QEntry :=
  { id := s.nextId, origin := (c.warp, q), mask := 15, words := c.resultWords, written := true, readyAt := s.ac }

/-- An entry of an INBOX whose time has come, and whose push is the release that it must be, is poppable (R211, R263). -/
def State.arrived (s : State) (e : QEntry) : QEntry :=
  if e.written = false ∧ e.readyAt ≠ 0 ∧ e.readyAt ≤ s.ac ∧ s.pushReleased e = true then { e with written := true } else e

/-- The commands once one is decided: it stands behind those decided before it (R274, R276). -/
def State.decided (s : State) (c : Cmd) (status bytes extra0 extra3 : Nat) : List Cmd :=
  (s.cmds.filter (fun e => e.id != c.id && e.status.isSome)) ++
  [{ c with status := some status, bytes := bytes, extra0 := extra0, extra3 := extra3, owned := [] }] ++
  s.cmds.filter (fun e => e.id != c.id && e.status.isNone)

/-- The MATRIX commands: what the sequencer does, OP, and the lanes that must hold words (R306). -/
def matrixCommands (id : Nat) : List (Instr × MopWhat × Nat × Word) :=
  [(.matrixMma id, .product, 0, 3), (.matrixDrain id, .drainLocal, 1, 15), (.matrixZero id, .zero, 2, 3)]

/-- The operation that the sequencer receives from a MATRIX command (R286, R306). -/
def State.mopOf (s : State) (c : Cmd) (what : MopWhat) : Mop :=
  let ctl := wordAt c.words 1
  let args := [wordAt c.words 2, wordAt c.words 3]
  { id := s.nextId, sched := s.schedOf c.warp, warp := c.warp, what := what, src := .cmd c.id, ctl := ctl, args := args
    block := if what = .product then s.blockBytes c.warp ctl else [], done := []
    status := if what = .drainLocal then s.drainStatus c.warp false ctl args else if what = .zero then zeroStatus ctl else 0
    taken := [], gates := [], seen := [], before := [], waits := what == .product, pins := [], due := s.ac + mopTime what ctl [] }

/-- The accumulator of an element of a product (R295). -/
def Mop.key (q : Mop) (r c : Nat) : Nat :=
  let p := productOf q.ctl q.block
  tileKey q.sched (p.acc + r / 16 * (p.nt + 1) + c / 16) (r % 16) (c % 16)

/-- The places that a copy writes, and those that it reads (R275). -/
def State.copyTo (s : State) (c : Cmd) (d : Copy) : List Nat := s.allPlaces c.warp .write d.dstSp d.dst d.dstride d.rows d.len
def State.copyFrom (s : State) (c : Cmd) (d : Copy) : List Nat :=
  if d.zero then [] else s.allPlaces c.warp .read d.srcSp d.src d.sstride d.rows d.len
/-- The answers of the address checks to every row of a copy (R276). -/
def State.copyChecks (s : State) (c : Cmd) (d : Copy) : List Xlat :=
  (if d.zero then [] else s.rowChecks c.warp .read d.srcSp d.src d.sstride d.rows d.len) ++
    s.rowChecks c.warp .write d.dstSp d.dst d.dstride d.rows d.len

/-- The launch that an accepted packet makes (R280). -/
def State.launchFrom (s : State) (owner : Tag) (vf : BitVec 6) (p : Packet) (origin : Origin) (held : Bool) : Launch :=
  { id := s.launchCount.toNat, owner := owner, vf := vf, prio := p.prio, quota := p.quota, lmem := p.lmem, wgsize := p.wgsize, gangl := p.gangl
    stage := p.stage, idem := p.idem, ngang := p.ngang, done := p.done, psize := p.psize, entry := p.entry, origin := origin, gen := 0
    nextGang := 0, retired := 0, killed := false, complete := false, held := held, passedSince := none, blocking := false }

/-- Of memory only some bytes from a place on have changed. -/
def BytesWritten (s t : State) (place : Nat) (bs : List Byte) : Prop :=
  t.bytes place bs.length = bs ∧ ∀ loc, ¬ (place ≤ loc ∧ loc < place + bs.length) → t.byte loc = s.byte loc

/-- A packet is accepted (R280): it takes the next launch ID, and its parameter block becomes the launch's parameter space. -/
structure Accepted (s t : State) (owner : Tag) (vf : BitVec 6) (p : Packet) (param : List Byte) (origin : Origin) (held : Bool) : Prop where
  rest : t = { s with
    nextId := s.nextId + 1, launchCount := s.launchCount + 1
    launches := Keyed.put s.launches s.nextId (s.launchFrom owner vf p origin held), mem := t.mem }
  param : param.length ≤ 4096 → BytesWritten s t (paramLoc s.nextId 0) param

/-- The collectives of the fabric, with their OP (R422). -/
def collectives (id : Nat) (ps : List PeerPart) : List (Instr × Nat) :=
  [(.allreduce id ps, 0), (.broadcast id ps, 1), (.allgather id ps, 2), (.reducescatter id ps, 3), (.fabricBarrier id ps, 4)]

/-- What a collective writes, once this member's SRC and the parts of the others are there (R424). -/
def collOut (c : Cmd) (g : Group) (rank : Nat) (src : List Byte) (ps : List PeerPart) : List Byte :=
  collBytes c.op c.red c.len rank ((g.rank c.root).getD 0)
    ((List.range g.members.length).map (fun r => if r = rank then src else ((ps.find? (fun p => p.rank == r)).map (·.src)).getD []))

/-- Whether a command is pending in a group under a number that satisfies a test. -/
def pendingIn (gid : BitVec 8) (f : Nat → Bool) (c : Cmd) : Bool :=
  c.status.isNone && (match c.group with | some (j, k) => j == gid && f k | none => false)

/-- A run of a graph with a change of one node. -/
def State.withNode (s : State) (gi : BitVec 6) (g : Graph) (r : Run) (node : Nat) (f : NodeRun → NodeRun) : State :=
  { s with graphs := Keyed.put s.graphs gi.toNat { g with run := some (r.mod node f) } }

/-- A row of a tap is disposed of: it is to do no more, and counts where it was ruled, with the bytes written for it. -/
def State.rowLeft (s : State) (p : Tap) (row nruled bytes : Nat) : List Tap :=
  s.taps.map (fun q => if q.id = p.id then
    { q with todo := q.todo.filter (· != row), nruled := q.nruled + nruled, bytes := q.bytes + bytes } else q)

/-- A gang stands newly started on its seats (R28, R138, R140): one workgroup on each, with the warps of its threads, each of
which begins at the launch's entry. -/
def Seated (s t : State) (li : Nat) (seats : List Seat) : Prop :=
  let l := s.launch li
  (t.gang s.nextId).wgs.length = seats.length ∧
  ∀ i x, seats[i]? = some x →
    let g := t.wg ((t.gang s.nextId).wgs.getD i 0)
    g.gang = s.nextId ∧ g.wgid = i ∧ g.core = x.core ∧ g.s0 = x.s0 ∧ g.size = l.wgsize ∧ g.localBase = 4096 * x.unit ∧
    g.localSize = 4096 * l.lmem ∧ g.warps.length = (l.wgsize + 31) / 32 ∧
    ∀ n, n < (l.wgsize + 31) / 32 →
      let w := t.warp (g.warps.getD n 0)
      w.num = n ∧ w.core = x.core ∧ w.sched = (x.s0 + n / 8) % 4 ∧ w.resident = true ∧ w.ended = false ∧ w.quota = l.quota ∧
      ∀ j, j < 32 → w.thread j = if 32 * n + j < l.wgsize then Thread.start l.entry s.ac else Thread.empty

/-- Whether a slot of a counter counts in this ac (R398): its counter is claimed and it is enabled, its owner's virtual
function is not switched out, the counter is not frozen, and the slot is the active one. -/
def State.slotRuns (s : State) (x : Sched) (i j : Nat) : Bool :=
  (x.counter i).claimed && ((x.counter i).slot j).en && !s.ownerOut (x.counter i).owner && !laneBit (x.frz.setWidth 32) i && j == x.act

/-- What a slot counts in this ac (R398, R399). -/
def State.slotCounts (s : State) (x : Sched) (i j : Nat) : Nat :=
  if s.slotRuns x i j = true then s.slotEvents x (x.counter i) ((x.counter i).slot j) else 0

/-- Whether a slot wraps in this ac (R400). -/
def State.slotWraps (s : State) (x : Sched) (i j : Nat) : Prop :=
  i < x.counters.length ∧ j < (x.counter i).slots.length ∧ 2 ^ 48 ≤ ((x.counter i).slot j).value.toNat + s.slotCounts x i j

/-- The slots of a scheduler's counters a cycle on (R398). -/
def SlotsAdvance (s : State) (x y : Sched) : Prop :=
  y.counters.length = x.counters.length ∧ ∀ i, i < x.counters.length →
    (y.counter i).owner = (x.counter i).owner ∧ (y.counter i).claimed = (x.counter i).claimed ∧
    (y.counter i).slots.length = (x.counter i).slots.length ∧
    ∀ j, j < (x.counter i).slots.length →
      let p := (x.counter i).slot j
      let q := (y.counter i).slot j
      q.event = p.event ∧ q.en = p.en ∧ q.ovi = p.ovi ∧
      q.value = p.value + BitVec.ofNat 48 (s.slotCounts x i j) ∧
      q.te = (if (x.counter i).claimed = true ∧ p.en = true then p.te + 1 else p.te) ∧
      q.tr = (if s.slotRuns x i j = true then p.tr + 1 else p.tr) ∧
      (q.ovf = true ↔ p.ovf = true ∨ s.slotWraps x i j)

/-- What the passing of an ac does besides the rejoin tables (R5, R398, R400). -/
structure AcPasses (s t : State) : Prop where
  rest : t = { s with ac := s.ac + 1, fc := t.fc, fcPart := t.fcPart, turns := t.turns, agenda := t.agenda, scheds := t.scheds, irqs := t.irqs }
  fabric : if s.boot.clock ≤ s.fcPart + 2000 then t.fc = s.fc + 1 ∧ t.fcPart = s.fcPart + 2000 - s.boot.clock
    else t.fc = s.fc ∧ t.fcPart = s.fcPart + 2000
  turns : (∀ sc, sc ∈ t.turns ↔ sc < 1024 ∧ ∃ w ∈ s.warps, w.2.resident = true ∧ w.2.ended = false ∧ 4 * w.2.core + w.2.sched = sc) ∧
    t.turns.Pairwise (· < ·)
  due : t.agenda = s.agenda ++ ((s.ops.filter (fun o => o.due == s.ac + 1)).map (fun o => Instr.longLatencyComplete o.id))
  scheds : t.scheds.map (·.1) = s.scheds.map (·.1)
  counters : ∀ sc x, (sc, x) ∈ s.scheds → SlotsAdvance s x (t.sched sc) ∧
    t.sched sc = { x with
      counters := (t.sched sc).counters, events := []
      period := if x.rper = 0 then 0 else x.period + 1, tick := if x.tper = 0 then 0 else x.tick + 1 }
  irqs : ∃ new, t.irqs = s.irqs ++ new ∧
    (∀ e ∈ new, ∃ sc x i j v, (sc, x) ∈ s.scheds ∧ s.slotWraps x i j ∧ ((x.counter i).slot j).ovi = true ∧
      (s.owner (x.counter i).owner).vf = some v ∧ e.1 = .vf v ∧ ∀ d, Keyed.find s.vfs v.toNat = some d → e.2 = d.desc.irq.toNat) ∧
    (∀ sc x i j v, (sc, x) ∈ s.scheds → s.slotWraps x i j → ((x.counter i).slot j).ovi = true →
      (s.owner (x.counter i).owner).vf = some v → ∃ e ∈ new, e.1 = .vf v)

/-- Whether the phases 1 to p of a bring-up pass (R431, R432). -/
def Boot.passes (b : Boot) (p : Nat) : Bool :=
  (p < 1 || (Config.phasePasses b.boots 1 && b.imageOk false)) && (p < 2 || (Config.phasePasses b.boots 2 && b.imageOk true)) &&
  (p < 3 || Config.phasePasses b.boots 3)

/-- The device configuration of a package that has come up: in confidential mode HOSTMODE is MAILBOX (R395). -/
def State.hosted (s : State) (conf : Bool) : DevConfig := if conf = true then { s.config with mailbox := true } else s.config

/-- Whether a place lies in the frames of this package. -/
def State.ownFrame (s : State) (loc : Nat) : Bool := decide (s.config.pkg.toNat * 2 ^ 46 ≤ loc ∧ loc < (s.config.pkg.toNat + 1) * 2 ^ 46)

/-- The package enters reset (R434): everything is as State.reset has it, but for the frames and what names their lines, which
keep what they hold unless the sweep writes every frame of the package with zero, and for what belongs to the host. -/
structure EntersReset (s t : State) (scrub thermal : Bool) : Prop where
  rest : t = { State.reset with
    mem := t.mem, lineKey := t.lineKey, bad := t.bad, hostRefuses := s.hostRefuses, boxes := t.boxes, semaphores := s.semaphores
    irqs := t.irqs, free := t.free, choices := s.choices, delays := s.delays, agenda := .powerOn :: s.agenda
    boot := { s.boot with phase := 1, ready := false, safe := false, clock := 4000, hot := false, scrub := scrub, thermal := thermal } }
  frames : ∀ loc, loc < 2 ^ 64 → t.byte loc = if (scrub = true ∨ s.boot.confReq = true) ∧ s.ownFrame loc = true then 0 else s.byte loc
  volatile : ∀ loc, 2 ^ 80 ≤ loc → t.byte loc = 0
  keys : ∀ line, Cells.get 0 t.lineKey line =
    if (scrub = true ∨ s.boot.confReq = true) ∧ s.ownFrame (128 * line) = true then 0 else Cells.get 0 s.lineKey line
  bad : ∀ line, Cells.get false t.bad line =
    if (scrub = true ∨ s.boot.confReq = true) ∧ s.ownFrame (128 * line) = true then false else Cells.get false s.bad line

/-- The mailbox of a function after a completion (R438): PROD of the completion ring and CONS of the command ring advance. -/
def Mailbox.answered (b : Mailbox) : Mailbox :=
  let rings := b.rings.set 1 { b.ring 1 with prod := (b.ring 1).prod + 1 }
  { b with rings := if (b.ring 0).cons = (b.ring 0).prod then rings else rings.set 0 { b.ring 0 with cons := (b.ring 0).cons + 1 } }

/-- A mailbox command completes (R438, R444): its completion stands in host memory at PROD of the completion ring. -/
structure Answered (s t : State) (h : CmdHeader) (status : Nat) (v0 v1 : Word) : Prop where
  rest : t = { s with mem := t.mem, boxes := Keyed.put s.boxes (fnIx h.fn) (s.box (fnIx h.fn)).answered }
  entry :
    let r := (s.box (fnIx h.fn)).ring 1
    BytesWritten s t (hostLoc (r.addr + 16 * (r.prod.toNat % r.count)))
      (leBytes 4 h.seq.toNat ++ leBytes 4 status ++ wordBytes v0 ++ wordBytes v1)

/-- Whether the mailbox engine serves a command now: the completion ring of its function has room, and it is not under way. -/
def State.serves (s : State) (h : CmdHeader) : Bool := !((s.box (fnIx h.fn)).ring 1).full && !s.underWay h

/-- Where the next event of a function goes in host memory. -/
def State.eventPlace (s : State) (f : Nat) : Nat :=
  let r := (s.box f).ring 2
  hostLoc (r.addr + 64 * (r.prod.toNat % r.count))
/-- Whether an event of a function goes straight to its ring (R438). -/
def State.eventOut (s : State) (f : Nat) : Bool := (s.box f).events.isEmpty && !((s.box f).ring 2).full

/-- The command at the head of the ring of a function is completed in turn with the STATUS RESET (R444). -/
def AnsweredReset (s t : State) (f : Nat) : Prop :=
  ∃ ws, s.headCommand f = some ws ∧ Answered s t { fn := fnOf f, seq := (wordAt ws 0).extractLsb' 0 16 } 4 0 0

/-- A save of a gang begins (R380, R381): the gang leaves the placed ones, its regions abort with PREEMPT, and a thread held in a
collective or a barrier stands as though it had not arrived. -/
structure SaveBegun (s t : State) (gi : Nat) : Prop where
  rest : t = { s with gangs := t.gangs, warps := t.warps, scheds := t.scheds }
  gang : t.gang gi = { s.gang gi with state := .saving, drainBy := none }
  tokens : ∀ c, (t.sched c).token = (s.sched c).token
  threads : ∀ i ∈ s.gangWarps gi, ∀ l, l < 32 → l < (s.warp i).threads.length →
    ((s.thread i l).region = none → t.thread i l = (s.thread i l).unarrived) ∧
    (∀ r, (s.thread i l).region = some r → (s.thread i l).aborting = none → t.thread i l = { s.thread i l with
      region := some { r with reads := [], buffer := [], places := [] }, order := none, hold := .rollback (s.ac + 8)
      aborting := some { code := 6, user := 0, addr := 0, decided := s.ac } })

/-- No gang of another job shares an accumulator bank with a gang (R378). -/
def State.apart (s : State) (job : StopJob) (gi : Nat) : Prop :=
  ∀ g ∈ s.gangs, g.1 ≠ gi → g.2.state = .placed → jobNames job (s.launch g.2.launch) = false →
    ∀ c ∈ s.gangScheds g.1, c ∉ s.gangScheds gi

/-- Gangs that share an accumulator bank with a gang are saved with it (R378). -/
def SharersSaved (s t : State) (job : StopJob) (gi : Nat) : Prop :=
  (t.gang gi).state = .saving ∧ ∀ g ∈ s.gangs, g.2.state = .placed → jobNames job (s.launch g.2.launch) = false →
    (∃ c ∈ s.gangScheds g.1, c ∈ s.gangScheds gi) → (t.gang g.1).state = .saving

/-- The seats of a gang's workgroups as a save names them: 4 × workgroup + distance from s0, and the scheduler (R381). -/
def State.spots (s : State) (gi : Nat) : List (Nat × Nat) :=
  (s.gang gi).wgs.flatMap (fun w => (s.wgScheds w).map (fun j => (4 * w + j, 4 * (s.wg w).core + ((s.wg w).s0 + j) % 4)))

/-- A gang that is saved leaves the cores (R381): its banks, its tokens and in a world switch cntc go with it. -/
structure GangSaved (s u : State) (gi : Nat) (switched : Bool) : Prop where
  rest : u = { s with gangs := u.gangs, warps := u.warps, scheds := u.scheds }
  gang : u.gang gi = { s.gang gi with
    state := .saved, drainBy := none, tiles := (s.spots gi).map (fun p => (p.1, s.bank p.2))
    tokens := (s.gangWarps gi).filter (fun i => (s.sched (s.schedOf i)).token == some i)
    cntc := if switched = true then (s.gangScheds gi).map (fun c => (c, (s.sched c).cntc)) else [] }
  others : ∀ j, j ≠ gi → u.gang j = s.gang j
  warps : ∀ i, u.warp i = if i ∈ s.gangWarps gi then { s.warp i with resident := false } else s.warp i
  tokens : ∀ c, u.sched c = { s.sched c with
    token := if ∃ i ∈ s.gangWarps gi, s.schedOf i = c ∧ (s.sched c).token = some i then none else (s.sched c).token }

/-- A gang that restarts ends as kill.g ends it (R380), where no thread of it has a trap pending or a region, and it has nothing
in flight: no thread of it lives, and its core-local memory is released. -/
structure GangFlushed (s u : State) (gi : Nat) : Prop where
  rest : u = { s with gangs := Keyed.put s.gangs gi { s.gang gi with state := .flushed, cntc := [] }
                      warps := u.warps, scheds := u.scheds, mem := u.mem, fe := u.fe }
  ends : ∀ i ∈ s.gangWarps gi, (u.warp i).ended = true ∧ ∀ l, (u.thread i l).life ≠ .live
  others : ∀ i, i ∉ s.gangWarps gi → u.warp i = s.warp i
  memory : ∀ loc, u.byte loc = if ∃ w ∈ (s.gang gi).wgs, localLoc w 0 ≤ loc ∧ loc < localLoc w 0 + 2 ^ 20 then 0 else s.byte loc

/-- A warp whose end reports nothing. -/
def Warp.plain (w : Warp) : Prop :=
  w.lxst = 0 ∧ w.queues = [] ∧ w.threads.length = 32 ∧ (∀ t ∈ w.threads, t.pend = [] ∧ t.region.isNone = true) ∧
  (w.ended = true ∨ ∃ t ∈ w.threads, t.life = .live)

/-- Whether a virtual function is time-sliced (R384). -/
def State.timed (s : State) (v : BitVec 6) : Bool := (Keyed.find s.vfs v.toNat).elim false (fun x => !x.desc.spatial)

/-- Whether a line belongs to a tag: it is stored under its key, or is one of its unbacked lines (R393, R394). -/
def State.lineOfTag (s : State) (tag : Tag) (line : Nat) : Prop :=
  Cells.get 0 s.lineKey line = (s.owner tag).key + 1 ∨
    (unbackedLoc tag.toNat 0 ≤ 128 * line ∧ 128 * line < unbackedLoc tag.toNat 0 + 2 ^ 64)

/-- The storage of a revoked tag (R394): its slot is EMPTY; its unbacked pages, its Market granules and what caches hold of it are
gone, the accumulator banks of its warps are zero where no warp stands on them, and nothing else in memory has changed but, under
DISCARD, the modified lines that the caches held of it. -/
structure TagWiped (s u : State) (tag : Tag) : Prop where
  owner : u.owner tag = { s.owner tag with kstate := .empty, key := 0, discard := false }
  others : ∀ t, t ≠ tag → u.owner t = s.owner t
  held : u.heldLoads = s.heldLoads.filter (fun x => x.2.1 != tag)
  charged : u.charged = s.charged.filter (fun c => c.owner != tag)
  reserved : u.reserved = s.reserved.filter (fun r => r.owner != tag)
  lines : ∀ line, s.lineOfTag tag line →
    Cells.get CacheLine.absent u.l2 line = CacheLine.absent ∧ Cells.get CacheLine.absent u.sc line = CacheLine.absent ∧
    (∀ e ∈ u.l1, e.line ≠ line) ∧ (∀ e ∈ u.icache, lineOf e.loc ≠ line) ∧
    ∀ die, die < 4 → Cells.get CacheLine.absent u.dups (4 * line + die) = CacheLine.absent
  banks : ∀ w ∈ s.warps, s.ownerOf w.1 = tag →
    (∀ v ∈ u.warps, v.2.resident = true → v.2.ended = false → u.schedOf v.1 ≠ s.schedOf w.1) →
    ∀ a row col, a < 4 → row < 16 → col < 16 → u.tile (tileKey (s.schedOf w.1) a row col) = 0
  memory : ∀ loc, ¬ ((s.owner tag).discard = true ∧ s.lineOfTag tag (lineOf loc) ∧
      ((Cells.get CacheLine.absent s.l2 (lineOf loc)).dirty = true ∨ (Cells.get CacheLine.absent s.sc (lineOf loc)).dirty = true)) →
    u.byte loc =
    if (unbackedLoc tag.toNat 0 ≤ loc ∧ loc < unbackedLoc tag.toNat 0 + 2 ^ 64) ∨
       ∃ g, g < 2 ^ 21 ∧ Cells.get 0 s.mktTag g = tag.toNat + 1 ∧ marketLoc (64 * g) ≤ loc ∧ loc < marketLoc (64 * g) + 64
    then 0 else s.byte loc

/-- The device configuration closed by the first LAUNCH, GRAPH or INSTCFG (R446). -/
def State.locked (s : State) : State := { s with config := { s.config with locked := true } }

/-- What a mailbox command does once it is served, where it completes at once (R441–R443): the function that issues it, whether a
virtual function may, whether it is served in the safe state and before READY, STATUS, VALUE0, VALUE1, and the package. -/
def State.configures (s : State) : Instr → Option (CmdHeader × Bool × Bool × Nat × Word × Word × State)
  | .status h => some (h, true, true, 0, s.statusWord, s.temp, { s with free := s.free + 1 })
  | .fwload h addr len mmp =>
    if 2 ^ 24 < len then some (h, false, true, 1, 0, 0, s)
    else some (h, false, true, 0, 0, 0, { s with
      boot := { s.boot with
        images := (mmp, s.hostBytes addr len) :: s.boot.images.filter (fun i => i.1 != mmp) } })
  | .config h mailbox pkg domsz base size =>
    if domsz = 0 ∨ 64 < domsz.toNat ∨ base.toNat % 65536 ≠ 0 ∨ 2 ^ 20 < size then some (h, false, false, 1, 0, 0, s)
    else if s.config.locked = true then some (h, false, false, 3, 0, 0, s)
    else if (s.boot.conf = true ∧ mailbox = false) ∨ (s.config.joined = true ∧ pkg ≠ s.config.pkg) then
      some (h, false, false, 5, 0, 0, s)
    else some (h, false, false, 0, 0, 0, { s with
      config := { s.config with
        applied := true, mailbox := mailbox, pkg := pkg, domsz := domsz, treeBase := base.toNat, treeSize := size } })
  | .confmode h enter =>
    if enter = true ∧ s.boot.conf = false ∧ s.boot.found ≠ [] then some (h, false, false, 5, 0, 0, s)
    else some (h, false, false, 0, 0, 0, { s with boot := { s.boot with confReq := enter != s.boot.conf } })
  | .vfcfg h vf remove d =>
    let others := (s.vfs.filter (fun x => x.1 != vf.toNat && x.2.desc.spatial)).map (·.2.desc)
    if d.saveArea.toNat % 64 ≠ 0 then some (h, false, false, 1, 0, 0, s)
    else if remove = true then some (h, false, false, 0, 0, 0, { s with vfs := Keyed.del s.vfs vf.toNat })
    else if 64 < d.share ∨ (d.tvec ≠ 0 ∧ packetIx d.tvec = none) ∨
        (d.spatial = true ∧ ((∃ o ∈ others, o.clusters &&& d.clusters ≠ 0) ∨ 64 < (others.map (·.share)).sum + d.share)) then
      some (h, false, false, 5, 0, 0, s)
    else some (h, false, false, 0, 0, 0, { s with
      vfs := Keyed.put s.vfs vf.toNat { desc := d, out := (Keyed.find s.vfs vf.toNat).elim false (·.out) } })
  | .owner h tag vf ptbase ucap =>
    if ptbase.toNat % 4096 ≠ 0 then some (h, false, false, 1, 0, 0, s)
    else if ∃ n ∈ ucap, 49152 < n then some (h, false, false, 5, 0, 0, s)
    else some (h, false, false, 0, 0, 0, { s with
      owners := Keyed.put s.owners tag.toNat { s.owner tag with vf := some vf, ptbase := ptbase.toNat, ucap := ucap } })
  | .keyload h tag addr len =>
    if len ≠ 96 ∧ len ≠ 180 then some (h, false, false, 1, 0, 0, s)
    else match (s.owner tag).kstate, s.keyOf (s.hostBytes addr len) with
      | .revoking, _ => none
      | .empty, some key => some (h, false, false, 0, 0, 0, { s with
          owners := Keyed.put s.owners tag.toNat { s.owner tag with kstate := .loaded, key := key } })
      | _, _ => some (h, false, false, 5, 0, 0, s)
  | .keyrevoke h tag discard =>
    if (s.owner tag).kstate ≠ .loaded then some (h, false, false, 5, 0, 0, s)
    else if s.ops.any (fun o => o.byLanes && s.ownerOf o.warp == tag) = true then none
    else some (h, false, false, 0, 0, 0, { s with
      owners := Keyed.put s.owners tag.toNat { s.owner tag with kstate := .revoking, discard := discard } })
  | .fabricJoin h =>
    if s.config.applied = true then some (h, false, false, 0, 0, 0, { s with config := { s.config with joined := true } })
    else some (h, false, false, 5, 0, 0, s)
  | .fabricGroup h group addr =>
    let old := s.group? group
    match groupOf (s.hostBytes addr 128) (old.elim 0 (·.gen)) with
    | none => some (h, false, false, 5, 0, 0, s)
    | some g =>
      if s.config.joined = false ∨ old.elim false (fun o => !o.broken) = true then some (h, false, false, 5, 0, 0, s)
      else some (h, false, false, 0, 0, 0, { s with groups := Keyed.put s.groups group.toNat g })
  | _ => none

/-- A host access that goes no further than its checks (R218). -/
def State.hostAnswer (s : State) (h : CmdHeader) (owner : Tag) (len : Nat) : Option (CmdHeader × Bool × Bool × Nat × Word × Word × State) :=
  if len = 0 ∨ 4096 < len then some (h, true, false, 1, 0, 0, s)
  else if s.config.mailbox = false ∨ s.mayName h owner = false then some (h, true, false, 2, 0, 0, s)
  else none

/-- Whether a group takes a replicated launch of an owner (R420). -/
def State.launchesTo (s : State) (gid : BitVec 8) (owner : Tag) : Bool :=
  match s.group? gid with
  | none => false
  | some g => g.owner == owner && !g.broken && (g.rank s.config.pkg).isSome

/-- The same for the commands that manage instances, graphs and what a warp receives (R280, R282, R311, R317, R445). -/
def State.manages (s : State) : Instr → Option (CmdHeader × Bool × Bool × Nat × Word × Word × State)
  | .instcfg h inst addr =>
    match s.inst? inst, instOf (s.hostBytes addr 64) with
    | none, some x => some (h, false, false, 0, 0, 0, { s.locked with insts := Keyed.put s.insts inst.toNat x })
    | _, _ => some (h, false, false, 5, 0, 0, s)
  | .instcfgRemove h inst _ =>
    match s.inst? inst with
    | none => some (h, false, false, 5, 0, 0, s)
    | some x => if x.removing.isSome = true then some (h, false, false, 5, 0, 0, s) else none
  | .tkupd h handle addr =>
    let i : BitVec 4 := handle.extractLsb' 16 4
    if bits handle.toNat 31 20 ≠ 0 then some (h, true, false, 1, 0, 0, s)
    else match s.inst? i with
      | none => some (h, true, false, 5, 0, 0, s)
      | some x =>
        if s.mayName h x.owner = false then some (h, true, false, 2, 0, 0, s)
        else if x.removing.isSome = true then some (h, true, false, 5, 0, 0, s)
        else some (h, true, false, 0, 0, 0, { s with
          insts := Keyed.put s.insts i.toNat { x with
            staged := x.staged ++ [{ tkid := bits handle.toNat 15 0, chunk := none, enqseq := 0, bytes := s.hostBytes addr 256 }], dirty := true } })
  | .graphInstall h graph owner addr nodes succs =>
    if nodes = 0 ∨ 4096 < nodes ∨ 65535 < succs then some (h, true, false, 1, 0, 0, s)
    else if s.mayName h owner = false then some (h, true, false, 2, 0, 0, s)
    else match (s.owner owner).vf with
      | none => some (h, true, false, 5, 0, 0, s.locked)
      | some v =>
        if (s.graph? graph).elim false Graph.live = true then some (h, true, false, 3, 0, 0, s.locked)
        else some (h, true, false, 0, 0, 0, { s.locked with
          graphs := Keyed.put s.graphs graph.toNat { owner, vf := v, nodes, succs, image := s.hostBytes addr (32 * nodes + 2 * succs), runs := 0, run := none, reports := [] } })
  | .graphStart h graph owner =>
    if s.mayName h owner = false then some (h, true, false, 2, 0, 0, s)
    else match s.graph? graph with
      | none => some (h, true, false, 5, 0, 0, s.locked)
      | some g =>
        let n := if (g.runs + 1) % 2 ^ 32 = 0 then 1 else (g.runs + 1) % 2 ^ 32
        if g.owner ≠ owner then some (h, true, false, 5, 0, 0, s.locked)
        else if g.live = true then some (h, true, false, 3, 0, 0, s.locked)
        else some (h, true, false, 0, BitVec.ofNat 32 n, 0, { s.locked with
          graphs := Keyed.put s.graphs graph.toNat { g with
            runs := n, run := some { number := BitVec.ofNat 32 n, nodes := List.replicate g.nodes NodeRun.fresh, ended := false, failed := false } } })
  | .graphRemove h graph owner =>
    if s.mayName h owner = false then some (h, true, false, 2, 0, 0, s)
    else match s.graph? graph with
      | none => some (h, true, false, 5, 0, 0, s.locked)
      | some g =>
        if g.owner ≠ owner then some (h, true, false, 5, 0, 0, s.locked)
        else if g.live = true then some (h, true, false, 3, 0, 0, s.locked)
        else some (h, true, false, 0, 0, 0, { s.locked with graphs := Keyed.del s.graphs graph.toNat })
  | .mailboxLaunch h owner replicated group addr =>
    if s.mayName h owner = false then some (h, true, false, 2, 0, 0, s)
    else if (s.owner owner).vf = none then some (h, true, false, 5, 0, 0, s.locked)
    else if replicated = true ∧ s.launchesTo group owner = false then some (h, true, false, 5, 0, 0, s.locked)
    else if replicated = true ∧ s.copyOf_ group ≠ none then none
    else match (if replicated then s.locked else s).readPacket owner false addr with
      | .status n => some (h, true, false, 0, launchWord n 0, 0, s.locked)
      | _ => none
  | .post h launch gang wgid warp q mask addr =>
    match s.postWarp launch gang wgid.toNat warp.toNat with
    | none => some (h, true, false, 5, 0, 0, s)
    | some wi =>
      let b := (s.warp wi).queue q.toNat
      let bs := s.hostBytes addr 128
      if s.mayName h (s.ownerOf wi) = false then some (h, true, false, 2, 0, 0, s)
      else if (s.warp wi).ended = true ∨ b.kind ≠ 10 then some (h, true, false, 5, 0, 0, s)
      else if 8 + b.qs ≤ b.total then some (h, true, false, 3, 0, 0, s)
      else if 8 ≤ b.hw.length ∨ b.ring ≠ [] then none
      else some (h, true, false, 0, 0, 0, { s with
        nextId := s.nextId + 1
        warps := Keyed.put s.warps wi ((s.warp wi).setQueue q.toNat { b with hw := b.hw ++ [{
            id := s.nextId, origin := (wi, q.toNat), mask := mask, words := (List.range 32).map (fun i => bytesWord ((bs.drop (4 * i)).take 4)), written := true, readyAt := s.ac }] }) })
  | .memwr h owner _ len _ => s.hostAnswer h owner len
  | .memrd h owner _ len _ => s.hostAnswer h owner len
  | _ => none
/-- What becomes of a mailbox command (R433, R438, R441, R444): it waits while the completion ring of its function is full; a
virtual function may issue only its own; before READY only STATUS, FWLOAD and RESET are served; otherwise it does what it does. -/
structure Served (s : State) (e : Instr) (h : CmdHeader) (vfMay safeMay : Bool) : Prop where
  waits : s.serves h = false → exec e s = .next s
  denied : s.serves h = true → isVf h.fn = true → vfMay = false → ∃ t, exec e s = .next t ∧ Answered s t h 2 0 0
  notReady : s.serves h = true → (isVf h.fn = true → vfMay = true) → s.boot.ready = false → safeMay = false →
    ∃ t, exec e s = .next t ∧ Answered s t h 5 0 0

/-- Whether a mailbox command does what it does. -/
def State.applies (s : State) (h : CmdHeader) (vfMay safeMay : Bool) : Bool :=
  s.serves h && (!isVf h.fn || vfMay) && (s.boot.ready || safeMay)

/-- PROD of a command ring as a write of it leaves it (R438). -/
def State.rung (s : State) (f : Nat) (prod : BitVec 16) : State :=
  let r := (s.box f).ring 0
  { s with
    boxes := Keyed.put s.boxes f { s.box f with
      rings := (s.box f).rings.set 0 { r with prod := if r.count ≠ 0 ∧ r.count < (prod - r.cons).toNat then r.cons + BitVec.ofNat 16 r.count else prod } } }

/-- What follows a write that moves a ring (R441, R442): a command at the head that encodes none is answered at once, by DENIED where
it is listed and no virtual function's to issue, else by BADCMD; one that is to be carried out waits for the mailbox engine. -/
def HeadRead (u t : State) (fn : HostFn) : Prop :=
  let f := fnIx fn
  let r := (u.box f).ring 0
  ((u.headCommand f = none ∨ u.mailBusy f = true ∨ ∃ ws, u.headCommand f = some ws ∧ (commandOf fn ws).isSome = true) → t = u) ∧
  (∀ ws, u.headCommand f = some ws → r.prod = r.cons + 1 → u.mailBusy f = false → (commandOf fn ws).isNone = true →
    let opc := cmdField ws 0 31 24
    Answered u t { fn := fn, seq := (wordAt ws 0).extractLsb' 0 16 } (if isVf fn = true ∧ opcListed opc = true ∧ vfOpc opc = false then 2 else 1) 0 0)

/-- CONS of a ring that the device writes, moved by the host (R438). -/
def State.consumed (s : State) (f n : Nat) (cons : BitVec 16) : State :=
  { s with boxes := Keyed.put s.boxes f { s.box f with rings := (s.box f).rings.set n { (s.box f).ring n with cons := cons } } }

/-- The one buffered event of a function is written to its ring, with the event interrupt (R437, R438). -/
structure EventOut (s t : State) (f : Nat) (e : List Byte) : Prop where
  rest : ∃ v, t = { s with
    mem := t.mem, irqs := s.irqs ++ [(fnOf f, v)]
    boxes := Keyed.put s.boxes f { s.box f with
      events := [], rings := (s.box f).rings.set 2 { (s.box f).ring 2 with prod := ((s.box f).ring 2).prod + 1 } } } ∧
    (f < 2 → v = 0) ∧ ∀ d, 2 ≤ f → Keyed.find s.vfs (f - 2) = some d → v = d.desc.irq.toNat
  entry : BytesWritten s t (s.eventPlace f) e

/-- What a write of CONS does: buffered events follow while the ring has room, and then the command at the head is looked at. -/
def Consumed (s t : State) (fn : HostFn) (n : Nat) (cons : BitVec 16) : Prop :=
  let f := fnIx fn
  let after := s.consumed f n cons
  ((after.box f).events = [] ∨ ((after.box f).ring 2).full = true → HeadRead after t fn) ∧
  (∀ e, (after.box f).events = [e] → ((after.box f).ring 2).full = false → ∃ u, EventOut after u f e ∧ HeadRead u t fn)

end Sys2Proof.Machine

open Sys2Proof Sys2Proof.Machine

/-- R98–R103: every word of IALU, IALUI and IMUL that issues with nothing in its way completes: each lane that performs it
holds in D the result of its rule, readable after the latency of R97; a destination at or above the quota takes nothing
(R163); no other register, predicate, flag, special register or byte of memory changes. The two-operand words have the major and FN
of their rules. A destination that names a queue register is the subject of QueueDestinationsTakeAnEntry. -/
def Obligations.IntegerWordsWriteTheirResult : Prop :=
  (∀ (c : Bool) (d a b : Reg), ∀ p ∈ (binaryRules c d a b).zip binaryCodes, rrr p.1.1 = (p.2.1, p.2.2, d.toNat)) ∧
  ∀ (s : State) (c : Bool) (d a b : Reg) (imm : BitVec 9) (cnt : BitVec 5), d.toNat < 112 →
    (∀ p ∈ binaryRules c d a b, s.issues p.1 = true →
      ∃ t, exec p.1 s = .next t ∧ LaneFrame s t p.1 ∧ RegResult s t p.1 d (intLatency p.1) (fun l r =>
        p.2 (s.source l a.toNat) (operandB s l b) (s.source l d.toNat) r)) ∧
    (∀ p ∈ unaryRules c d a, s.issues p.1 = true →
      ∃ t, exec p.1 s = .next t ∧ LaneFrame s t p.1 ∧ RegResult s t p.1 d 4 (fun l r =>
        p.2 (s.source l a.toNat) 0 (s.source l d.toNat) r)) ∧
    (∀ p ∈ immediateRules c d a imm cnt, s.issues p.1 = true →
      ∃ t, exec p.1 s = .next t ∧ LaneFrame s t p.1 ∧ RegResult s t p.1 d 4 (fun l r =>
        p.2 (s.source l a.toNat) (immK s.cur.pfx imm) (s.source l d.toNat) r))

/-- R104 and R123: lil, lih, sel and mov write D and change nothing else; lil and lih are the words of major 4 with FN 0 and 1. -/
def Obligations.MovesWriteTheirResult : Prop :=
  (∀ (c : Bool) (d : Reg) (imm : BitVec 17), ∀ p ∈ [((.lil c d imm : Instr), 0), (.lih c d imm, 1)],
    let w := (encode p.1).toNat
    w / 2 ^ 26 % 32 = 4 ∧ w / 2 ^ 19 % 128 = d.toNat ∧ w / 2 ^ 17 % 4 = p.2 ∧ w % 2 ^ 17 = imm.toNat) ∧
  ∀ (s : State) (c : Bool) (d a b : Reg) (imm : BitVec 17) (n : BitVec 3), d.toNat < 112 →
    ∀ p ∈ moveRules s c d a b imm n, s.issues p.1 = true →
      ∃ t, exec p.1 s = .next t ∧ LaneFrame s t p.1 ∧ RegResult s t p.1 d 4 p.2

/-- R105, R106 and R123: adpc, the ALU64 words and movp write the pair D, at the latency of R97, and change nothing else. -/
def Obligations.PairWordsWriteTheirResult : Prop :=
  ∀ (s : State) (c : Bool) (d a b : Reg) (imm : BitVec 17),
    ∀ p ∈ pairRules s c d a b imm, s.issues p.1 = true →
      ∃ t, exec p.1 s = .next t ∧ LaneFrame s t p.1 ∧
        PairResult s t p.1 d (match p.1 with | .madw .. => 6 | _ => 4) p.2

/-- R8, R119, R121, R122 and R123: icmp, icmpu, fclass, plop and pmov write one predicate, p7 taking none, and change
nothing else; the comparisons have the FN of their condition. -/
def Obligations.PredicateWordsWriteTheirResult : Prop :=
  (∀ (c : Bool) (cond p : BitVec 3) (a b : Reg), cond.toNat ≤ 5 → rrr (.icmp c cond p a b) = (9, cond.toNat, p.toNat) ∧
    rrr (.icmpu c cond p a b) = (9, 8 + cond.toNat, p.toNat) ∧ rrr (.fclass c p a b) = (9, 24, p.toNat)) ∧
  ∀ (s : State) (c : Bool) (cond p : BitVec 3) (a b : Reg) (tt : BitVec 4) (pa pb : BitVec 3),
    ∀ x ∈ predRules s c cond p a b tt pa pb, s.issues x.1 = true →
      ∃ t, exec x.1 s = .next t ∧ LaneFrame s t x.1 ∧ PredResult s t x.1 p.toNat x.2

/-- R120: fcmp writes its condition on two FP32 values and raises the invalid flag as the rule says, which stands in fpst
and, where it is enabled, in lxst (R166); no other flag is raised, and nothing else changes. -/
def Obligations.FcmpWritesItsConditionAndFlag : Prop :=
  ∀ (s : State) (c : Bool) (cond p : BitVec 3) (a b : Reg),
    let i := Instr.fcmp c cond p a b
    (cond.toNat ≤ 6 → rrr i = (9, 16 + cond.toNat, p.toNat)) ∧
    (s.issues i = true → ∃ t, exec i s = .next t ∧ LaneFrame s t i true ∧
      PredResult s t i p.toNat (fun l => fcmpRule cond.toNat (s.source l a.toNat) (s.source l b.toNat)) ∧
      FlagsRaised s t i (fun l => fcmpFlag cond.toNat (s.source l a.toNat) (s.source l b.toNat)))

/-- R107–R116: the FP32, FMA and CVT words write D and raise their flags, and change nothing else.
The model's own readings: log 27 (a NaN result is the canonical NaN where the number chapter leaves it). -/
def Obligations.FloatWordsWriteTheirResult : Prop :=
  ∀ (s : State) (c : Bool) (q : BitVec 2) (q3 : BitVec 3) (f2 : BitVec 2) (u sat : Bool) (d a b : Reg), d.toNat < 112 →
    ∀ p ∈ floatRules c q q3 f2 u sat d a b, s.issues p.1 = true →
      ∃ t, exec p.1 s = .next t ∧ LaneFrame s t p.1 true ∧
        RegResult s t p.1 d 4 (fun l r => r = (p.2 s.source l).1) ∧ FlagsRaised s t p.1 (fun l => (p.2 s.source l).2)

/-- R117 and R118: the XFN words write the function of V[A] to D 12 ac later and raise its flags; infinities, zeros and
NaNs have the results of the table.
The model's own readings: log 5 (within the bound of R117 the value is a free function of the operand). -/
def Obligations.XfnWordsWriteTheirResult : Prop :=
  (∀ (s : State) (c : Bool) (d a : Reg), d.toNat < 112 → ∀ p ∈ xfnRules c d a, s.issues p.1 = true →
    ∃ t, exec p.1 s = .next t ∧ LaneFrame s t p.1 true ∧
      RegResult s t p.1 d 12 (fun l r => r = (xfnOf p.2 (s.source l a.toNat)).1) ∧
      FlagsRaised s t p.1 (fun l => (xfnOf p.2 (s.source l a.toNat)).2)) ∧
  (∀ f, f < 8 → xfnOf f 0x7FC00000 = (0x7FC00000, 0) ∧ xfnOf f 0x7F800001 = (0x7FC00000, flagNV)) ∧
  ((List.range 8).map (fun f => xfnOf f 0x7F800000) =
    [(0x7F800000, 0), (0x7F800000, 0), (0, 0), (0, 0), (0x7F800000, 0), (0x7FC00000, flagNV), (0x7FC00000, flagNV), (0x3F800000, 0)]) ∧
  ((List.range 8).map (fun f => xfnOf f 0x80000000) =
    [(0x3F800000, 0), (0xFF800000, flagDZ), (0xFF800000, flagDZ), (0xFF800000, flagDZ), (0x80000000, 0), (0x80000000, 0),
     (0x3F800000, 0), (0x80000000, 0)])

/-- R92–R95: qblk writes the five words of a block of 32 elements, dqblk writes the 32 elements of a block in FP32, or two
to a word, and qfp8 writes four FP8 bytes; each raises its flags and changes nothing else. -/
def Obligations.QuantWordsWriteTheirResult : Prop :=
  ∀ (s : State) (c : Bool) (g : Guard) (d a : Reg) (x : BitVec 2),
    (s.issues (.qblk c g d a x) = true →
      let q (l : Nat) := quantBlock ((List.range 32).map (qblkSource s.source l a.toNat x.toNat))
      ∃ t, exec (.qblk c g d a x) s = .next t ∧ LaneFrame s t (.qblk c g d a x) true ∧
        RangeResult s t (.qblk c g d a x) d 5 16 (fun l j => BitVec.ofNat 32 ((q l).1.bits / 2 ^ (32 * j) % 2 ^ (if j = 4 then 16 else 32))) ∧
        FlagsRaised s t (.qblk c g d a x) (fun l => (q l).2)) ∧
    (s.issues (.dqblk c g d a x) = true →
      let blk (l : Nat) : Nat := ((List.range 5).map (fun j => (s.source l (a.toNat + j)).toNat * 2 ^ (32 * j))).foldl (· + ·) 0
      let e (l i : Nat) : FRes := roundVal (if x = 0 then fp32 else if x = 1 then fp16 else bf16) .rne false (blockElem (blk l) i)
      ∃ t, exec (.dqblk c g d a x) s = .next t ∧ LaneFrame s t (.dqblk c g d a x) true ∧
        RangeResult s t (.dqblk c g d a x) d (if x = 0 then 32 else 16) 8 (fun l j =>
          if x = 0 then (e l j).word else BitVec.ofNat 32 ((e l (2 * j)).bits + 65536 * (e l (2 * j + 1)).bits)) ∧
        FlagsRaised s t (.dqblk c g d a x) (fun l => (List.range 32).foldl (fun f i => f ||| (e l i).flags) 0)) ∧
    (d.toNat < 112 → s.issues (.qfp8 c g d a x) = true →
      let e (l i : Nat) : FRes := qfp8Byte (if x.getLsbD 0 then e5m2 else e4m3)
        (if x.getLsbD 1 then .rs 8 ((s.source l (a.toNat + 5)).toNat / 2 ^ (8 * i) % 256) else .rne)
        (fval (s.source l (a.toNat + i))) (fval (s.source l (a.toNat + 4)))
      ∃ t, exec (.qfp8 c g d a x) s = .next t ∧ LaneFrame s t (.qfp8 c g d a x) true ∧
        RegResult s t (.qfp8 c g d a x) d 4 (fun l r => r =
          BitVec.ofNat 32 ((e l 0).bits + (e l 1).bits * 2 ^ 8 + (e l 2).bits * 2 ^ 16 + (e l 3).bits * 2 ^ 24)) ∧
        FlagsRaised s t (.qfp8 c g d a x) (fun l => (e l 0).flags ||| (e l 1).flags ||| (e l 2).flags ||| (e l 3).flags))

/-- R9, R261, R263, R266 and R268: a word of one register destination whose destination names a queue register puts one entry for
its group into the queue that the register is bound to, with the results that its own rule gives, or discards them; a load
reserves its entry at issue, and fills it when it completes. -/
def Obligations.QueueDestinationsTakeAnEntry : Prop :=
  (∀ (s : State) (c : Bool) (d a b : Reg) (imm : BitVec 9) (cnt : BitVec 5) (k : BitVec 17) (n q3 : BitVec 3) (q f2 : BitVec 2) (u sat : Bool),
    112 ≤ d.toNat →
    let takes (i : Instr) (lat : Nat) (v : Nat → Word → Prop) : Prop :=
      s.issues i = true → ∃ t, exec i s = .next t ∧ t.ops = s.ops ∧ QueueTakes s t i d (some lat) v
    (∀ p ∈ binaryRules c d a b, takes p.1 (intLatency p.1) (fun l r =>
      p.2 (s.source l a.toNat) (operandB s l b) (s.source l d.toNat) r)) ∧
    (∀ p ∈ unaryRules c d a, takes p.1 4 (fun l r => p.2 (s.source l a.toNat) 0 0 r)) ∧
    (∀ p ∈ immediateRules c d a imm cnt, takes p.1 4 (fun l r => p.2 (s.source l a.toNat) (immK s.cur.pfx imm) 0 r)) ∧
    (∀ p ∈ moveRules s c d a b k n, takes p.1 4 p.2) ∧
    (∀ p ∈ floatRules c q q3 f2 u sat d a b, takes p.1 4 (fun l r => r = (p.2 s.source l).1)) ∧
    (∀ p ∈ xfnRules c d a, takes p.1 12 (fun l r => r = (xfnOf p.2 (s.source l a.toNat)).1))) ∧
  (∀ (s : State) (c : Bool) (g : Guard) (fs : Bool) (sp : BitVec 3) (tr a : Reg), ∀ p ∈ memoryRules s c g fs 0 sp tr a,
    p.2.1.kind = .load → 112 ≤ tr.toNat → s.pushes s.cur.warp tr.toNat = true → s.issues p.1 = true →
    (p.2.1.sp = 0 → ∃ l, s.performers p.1 = [l]) →
    (∀ l ∈ s.performers p.1, (s.thread s.cur.warp l).region = none ∧ (s.thread s.cur.warp l).aborting = none ∧
      s.admits p.2.1 a l ≠ .refused ∧ s.admits p.2.1 a l ≠ .full) →
    ∃ t o, exec p.1 s = .next t ∧ t.ops = s.ops ++ [o] ∧ o.ins = p.1 ∧ o.kind = .load ∧ o.flag = s.flagFor p.1 ∧
      o.push = some (tr.toNat - 112, s.nextId) ∧ o.lanes = (s.performers p.1).map (s.memFlight p.2.1 a p.2.2) ∧
      QueueTakes s t p.1 tr none (fun _ r => r = 0)) ∧
  (∀ (s : State) (c : Bool) (g : Guard) (fs : Bool) (sp : BitVec 3) (tr a : Reg) (o : Op) (x : LaneOp) (q id : Nat),
    ∀ p ∈ memoryRules s c g fs 0 sp tr a, p.2.1.kind = .load → o.ins = p.1 → o.kind = .load → o.push = some (q, id) →
    let b := (s.warp o.warp).queue q
    let places := s.laneLocs (s.ownerOf o.warp) x
    b.kind ≠ 7 → b.ring = [] → Lone s o x → x.size = 4 → x.data = [] → o.due ≤ s.ac →
    (∀ y ∈ places, s.l1Line (s.warp o.warp).core (lineOf y) = none) →
    ∃ t, exec (.longLatencyComplete o.id) s = .next t ∧ t.ops = s.ops.filter (fun e => e.id != o.id) ∧
      (∀ loc, t.byte loc = s.byte loc) ∧ (∀ j l, t.thread j l = { s.thread j l with fresh := (t.thread j l).fresh }) ∧
      (∀ j, (t.warp j).flags = if j = o.warp then uncounted (s.warp j).flags o.flag else (s.warp j).flags) ∧
      (t.warp o.warp).queue q = { b with hw := b.hw.map (fun e => if e.id = id then
        { e with words := e.words.set x.lane (loaded 0 (places.map s.byte) 0), written := true, readyAt := s.ac } else e) })

/-- R145: the groups from which a scheduler issues hold each lane once, and only live threads. -/
def Obligations.GroupsHoldEachLiveLaneOnce : Prop :=
  ∀ (s : State) (wi : Nat), ∀ g ∈ s.candidates wi, g.Nodup ∧ ∀ l ∈ g, l < 32 ∧ (s.thread wi l).life = .live

/-- R12, R128, R142, R259, R324, R359 and R415: sget writes the value of its special register to D, as its chain found it (R22),
where no performing thread is denied a privileged index; every assigned index has its value. -/
def Obligations.SgetReadsTheSpecialRegister : Prop :=
  (∀ (s : State) (c : Bool) (d a : Reg), d.toNat < 112 → s.issues (.sget c d a) = true →
    assignedIndex a.toNat = true →
    (∀ l ∈ s.performers (.sget c d a), privilegedIx a.toNat = true → s.denied s.cur.warp (s.cur.thread l) = false) →
    ∃ t, exec (.sget c d a) s = .next t ∧ LaneFrame s t (.sget c d a) ∧
      RegResult s t (.sget c d a) d 4 (fun l r => s.special l a.toNat = some r)) ∧
  (∀ (s : State) (l idx : Nat), idx < 128 → (s.special l idx).isSome = assignedIndex idx) ∧
  (∀ (s : State) (l : Nat),
    let t := s.cur.thread l
    let w := s.cur.old
    let g := s.wg w.wg
    let r := s.launchOf s.cur.warp
    let n (idx v : Nat) : Prop := s.special l idx = some (BitVec.ofNat 32 v)
    let two (idx : Nat) (v : DWord) : Prop := s.special l idx = some (lo32 v) ∧ s.special l (idx + 1) = some (hi32 v)
    s.special l 0x00 = some 0 ∧ s.special l 0x01 = some 0x08800000 ∧ two 0x02 s.cur.pc ∧ two 0x04 t.lk ∧ two 0x06 t.mt ∧
    (∃ v, s.special l 0x08 = some v ∧ ∀ i, i < 32 → v.getLsbD i = (decide (i < 7) && readPred t i)) ∧
    (∃ v, s.special l 0x09 = some v ∧ ∀ i, i < 32 → v.getLsbD i = (decide (i < 12) && w.flags.getD i 0 != 0)) ∧
    n 0x0A w.fpst.toNat ∧ n 0x0B w.fpen.toNat ∧ two 0x0C (BitVec.ofNat 64 s.ac) ∧
    n 0x10 (32 * w.num + l) ∧ n 0x11 g.size ∧ n 0x12 w.num ∧ n 0x13 l ∧ n 0x14 g.wgid ∧ n 0x15 (2 ^ r.gangl) ∧
    n 0x16 (s.gang g.gang).index ∧ n 0x17 r.ngang ∧ n 0x18 r.stage ∧ n 0x19 w.core ∧ n 0x1A w.sched ∧ n 0x1B w.quota ∧
    s.special l 0x1D = some w.lxst ∧
    n 0x30 t.tabc.toNat ∧ n 0x31 t.tusr.toNat ∧ two 0x32 t.tfa ∧ n 0x35 (if s.config.mailbox = true then 1 else 0) ∧
    (g.bound = none → s.special l 0x40 = some 0xFFFFFFFF ∧ s.special l 0x41 = some 0xFFFFFFFF) ∧
    (∀ b, g.bound = some b → n 0x40 b.2.1 ∧ n 0x41 b.2.2) ∧
    (∃ v, s.special l 0x44 = some v ∧ ∀ i, i < 32 → v.getLsbD i = (decide (i < 16) && (w.queue i).kind != 0)) ∧
    s.special l 0x50 = some t.tcause ∧ two 0x52 t.epc ∧ s.special l 0x54 = some t.tval ∧
    n 0x55 r.owner.toNat ∧ n 0x56 r.vf.toNat ∧ s.special l 0x60 = some r.gen ∧
    n 0x61 s.config.pkg.toNat ∧ n 0x62 (w.core / 64) ∧ n 0x63 s.config.domsz.toNat)

/-- R12, R13, R128, R144 and R359: sset of lk, mt, pred and epc writes the half or the bits that its index names in each
performing thread; of fpst and fpen, bits 4–0 of the lowest performing lane for the whole warp, flags that words of its own
chain have raised staying in fpst; of cntc, its scheduler's TPER and FRZ; an index that no program writes takes nothing.
Nothing else changes. That a write of cntc restarts the tick is the model's reading (log 67). -/
def Obligations.SsetWritesItsRegister : Prop :=
  ∀ (s : State) (c : Bool) (d a : Reg), s.issues (.sset c d a) = true →
    (∀ l ∈ s.performers (.sset c d a), privilegedIx d.toNat = true → s.denied s.cur.warp (s.cur.thread l) = false) →
    let v (l : Nat) : Word := s.source l a.toNat
    (d.toNat ∈ [0x04, 0x05, 0x06, 0x07, 0x08, 0x52, 0x53] →
      ∃ t, exec (.sset c d a) s = .next t ∧ EachThread s t (.sset c d a) (fun l th =>
        match d.toNat with
        | 0x04 => { th with lk := cat64 (hi32 th.lk) (v l) }
        | 0x05 => { th with lk := cat64 (v l) (lo32 th.lk) }
        | 0x06 => { th with mt := cat64 (hi32 th.mt) (v l) }
        | 0x07 => { th with mt := cat64 (v l) (lo32 th.mt) }
        | 0x08 => { th with preds := BitVec.ofNat 8 ((v l).toNat % 128) }
        | 0x52 => { th with epc := cat64 (hi32 th.epc) (v l) }
        | _ => { th with epc := cat64 (v l) (lo32 th.epc) })) ∧
    (∀ l ls, s.performers (.sset c d a) = l :: ls →
      let w := s.warp s.cur.warp
      let x := (v l).extractLsb' 0 5
      let sc := s.schedOf s.cur.warp
      (d.toNat = 0x0A → ∃ t, exec (.sset c d a) s = .next t ∧ t = { s with warps := t.warps } ∧
        (∀ j, j ≠ s.cur.warp → t.warp j = s.warp j) ∧
        t.warp s.cur.warp = { w with
          threads := (t.warp s.cur.warp).threads, queues := ((s.afterPops (.sset c d a)).warp s.cur.warp).queues, fpst := x ||| s.cur.raised } ∧
        ∀ l, t.thread s.cur.warp l = (s.afterPops (.sset c d a)).thread s.cur.warp l) ∧
      (d.toNat = 0x0B → ∃ t, exec (.sset c d a) s = .next t ∧ t = { s with warps := t.warps } ∧
        (∀ j, j ≠ s.cur.warp → t.warp j = s.warp j) ∧
        t.warp s.cur.warp = { w with
          threads := (t.warp s.cur.warp).threads, queues := ((s.afterPops (.sset c d a)).warp s.cur.warp).queues, fpen := x } ∧
        ∀ l, t.thread s.cur.warp l = (s.afterPops (.sset c d a)).thread s.cur.warp l) ∧
      (d.toNat = 0x57 → ∃ t, exec (.sset c d a) s = .next t ∧ t = { s.afterPops (.sset c d a) with warps := t.warps, scheds := t.scheds } ∧
        (∀ j, t.warp j = (s.afterPops (.sset c d a)).warp j) ∧ (∀ j, j ≠ sc → t.sched j = s.sched j) ∧
        t.sched sc = { s.sched sc with
          tper := (v l).toNat / 2 ^ 16, frz := (v l).extractLsb' 0 8, cntcVf := some (s.launchOf s.cur.warp).vf, tick := 0 })) ∧
    (assignedIndex d.toNat = true → d.toNat ∉ [0x04, 0x05, 0x06, 0x07, 0x08, 0x0A, 0x0B, 0x52, 0x53, 0x57] →
      ∃ t, exec (.sset c d a) s = .next t ∧ t = { s with warps := t.warps } ∧ ∀ j, t.warp j = (s.afterPops (.sset c d a)).warp j)

/-- R12, R358, R360 and R361: sget or sset of a privileged index by threads outside a handler takes PRIVILEGE: nothing of
the word takes effect, and each thread stands at its handler with the address of its chain saved. -/
def Obligations.PrivilegedIndexTraps : Prop :=
  ∀ (s : State) (c : Bool) (d a : Reg), s.cur.lanes.Nodup →
    (s.issues (.sget c d a) = true → privilegedIx a.toNat = true → (∀ l ∈ s.performers (.sget c d a), s.handles l) →
      ∃ t, exec (.sget c d a) s = .next t ∧
        EachTraps s t (.sget c d a) s.cur.thread 3 (fun _ => BitVec.ofNat 32 (2 ^ 16 + a.toNat)) s.cur.chainAddr) ∧
    (s.issues (.sset c d a) = true → privilegedIx d.toNat = true → (∀ l ∈ s.performers (.sset c d a), s.handles l) →
      ∃ t, exec (.sset c d a) s = .next t ∧
        EachTraps s t (.sset c d a) s.cur.thread 3 (fun _ => BitVec.ofNat 32 (2 * 2 ^ 16 + d.toNat)) s.cur.chainAddr false)

/-- R56, R129, R130 and R148: nop changes nothing; fwait whose mask holds nothing passes, and acquires what engines have
signalled by its flags (R212); fwait at the head of its chain, with a masked flag counted, holds the whole group; yield sets
the wait of its threads to zero.
The model's own readings: log 20 (fwait holds a group at the first word of its chain); log 23 (yield issues as an ordinary
word and sets the wait to zero). -/
def Obligations.NopYieldAndFwait : Prop :=
  (∀ (s : State) (c : Bool), exec (.nop c) s = .next s) ∧
  (∀ (s : State) (c : Bool) (mask : BitVec 12), s.issues (.fwait c mask) = true → (s.warp s.cur.warp).unreceived = 0 →
    (∀ i, i < 12 → mask.getLsbD i = true → (s.warp s.cur.warp).flags.getD i 0 = 0) →
    ∃ t, exec (.fwait c mask) s = .next t ∧ EachThread s t (.fwait c mask) (fun l th => { th with fresh := (t.thread s.cur.warp l).fresh }) ∧
      ∀ l i, l ∈ s.performers (.fwait c mask) → l < (s.warp s.cur.warp).threads.length → i < 12 → mask.getLsbD i = true →
        (s.warp s.cur.warp).signals.getD i 0 ≤ (t.thread s.cur.warp l).fresh) ∧
  (∀ (s : State) (c : Bool) (mask : BitVec 12) (i : Nat), s.issues (.fwait c mask) = true → s.cur.pos = s.cur.chain → i < 12 →
    mask.getLsbD i = true → (s.warp s.cur.warp).flags.getD i 0 ≠ 0 →
    ∃ t, exec (.fwait c mask) s = .next t ∧ t.cur = { s.cur with stay := s.cur.lanes } ∧
      ∀ l, t.thread s.cur.warp l = if l ∈ s.cur.lanes ∧ l < (s.warp s.cur.warp).threads.length then s.cur.thread l
        else s.thread s.cur.warp l) ∧
  (∀ (s : State) (c : Bool), s.issues (.yield c) = true →
    ∃ t, exec (.yield c) s = .next t ∧ EachThread s t (.yield c) (fun _ th => { th with lastIssue := s.ac + 1 }))

/-- R131 and R360: brk and trap enter the handler of each performing thread with the words of their chain in effect: tval
is the operand with the word position, and epc is the packet itself for brk and the packet that follows for trap. -/
def Obligations.BrkAndTrapEnterTheHandler : Prop :=
  ∀ (s : State) (c : Bool) (n : BitVec 7), s.cur.lanes.Nodup →
    (s.issues (.brk c n) = true → s.boot.conf = false → (∀ l ∈ s.performers (.brk c n), s.handles l) →
      ∃ t, exec (.brk c n) s = .next t ∧ EachTraps s t (.brk c n) (s.thread s.cur.warp) 4
        (fun _ => BitVec.ofNat 32 (n.toNat + 256 * (s.cur.pos % 16))) s.cur.pc) ∧
    (s.issues (.trap c n) = true → (∀ l ∈ s.performers (.trap c n), s.handles l) →
      ∃ t, exec (.trap c n) s = .next t ∧ EachTraps s t (.trap c n) (s.thread s.cur.warp) 5
        (fun _ => BitVec.ofNat 32 (n.toNat + 256 * (s.cur.pos % 16))) (nextPacket s.cur.header s.cur.pc))

/-- R16 and R18: a displacement counts packets, five to a line: packet number 5 × line + k stands at 64 × line + 4 + 12 × k. -/
def Obligations.DisplacementCountsPackets : Prop :=
  ∀ (line line' k k' : Nat) (disp : BitVec 19), line < 2 ^ 58 → line' < 2 ^ 58 → k < 5 → k' < 5 →
    5 * (line : Int) + k + disp.toInt = 5 * line' + k' →
    displaced (BitVec.ofNat 64 (64 * line + 4 + 12 * k)) disp = BitVec.ofNat 64 (64 * line' + 4 + 12 * k')

/-- R124–R126, R151: br, call, brx, callx and ret send each performing thread to its target, 3 ac on at the earliest, and a
call first sets lk to the packet that follows; a thread whose target is its mt parks there. -/
def Obligations.TransfersGoToTheirTargets : Prop :=
  ∀ (s : State) (c : Bool) (g : Guard) (disp : BitVec 19) (a : Reg),
    let go (target : DWord) (t : Thread) : Thread :=
      let u := { t with pc := target, pos := 1, line := [], entered := false, notBefore := s.ac + 3 }
      if u.mt ≠ 0 ∧ u.mt = target ∧ (packetIx target).isSome then { u with hold := .parked } else u
    let lk (t : Thread) : Thread := { t with lk := nextPacket s.cur.header s.cur.pc }
    (s.issues (.br c g disp) = true → ∃ t, exec (.br c g disp) s = .next t ∧
      EachThread s t (.br c g disp) (fun _ th => go (displaced s.cur.pc disp) th)) ∧
    (s.issues (.call c g disp) = true → ∃ t, exec (.call c g disp) s = .next t ∧
      EachThread s t (.call c g disp) (fun _ th => go (displaced s.cur.pc disp) (lk th))) ∧
    (s.issues (.brx c g a) = true → ∃ t, exec (.brx c g a) s = .next t ∧
      EachThread s t (.brx c g a) (fun l th => go (s.source.pair l a.toNat) th)) ∧
    (s.issues (.callx c g a) = true → ∃ t, exec (.callx c g a) s = .next t ∧
      EachThread s t (.callx c g a) (fun l th => go (s.source.pair l a.toNat) (lk th))) ∧
    (s.issues (.ret c g) = true → ∃ t, exec (.ret c g) s = .next t ∧
      EachThread s t (.ret c g) (fun l th => go (s.cur.thread l).lk th))

/-- R127 and R168: exit ends each performing thread, where no exception of the warp is unreported and another thread of
the warp lives on: the thread leaves every record of its warp and the rest of the machine stands. -/
def Obligations.ExitEndsItsThreads : Prop :=
  ∀ (s : State) (c : Bool) (g : Guard), s.issues (.exit c g) = true → s.cur.lanes.Nodup →
    (∀ l ∈ s.performers (.exit c g), (s.thread s.cur.warp l).life = .live ∧ (s.thread s.cur.warp l).pend = [] ∧
      laneBit (s.warp s.cur.warp).lxst l = false) →
    (∃ l, l < (s.warp s.cur.warp).threads.length ∧ (s.thread s.cur.warp l).life = .live ∧ l ∉ s.performers (.exit c g)) →
    ∃ t, exec (.exit c g) s = .next t ∧ t = { s with warps := t.warps } ∧ (∀ j, j ≠ s.cur.warp → t.warp j = s.warp j) ∧
      t.warp s.cur.warp = { s.warp s.cur.warp with
        threads := (t.warp s.cur.warp).threads, queues := ((s.afterPops (.exit c g)).warp s.cur.warp).queues, rejoin := (t.warp s.cur.warp).rejoin } ∧
      (t.warp s.cur.warp).rejoin.map (·.addr) = (s.warp s.cur.warp).rejoin.map (·.addr) ∧
      (∀ l r, l ∈ s.performers (.exit c g) → l < 32 → r ∈ (t.warp s.cur.warp).rejoin → laneBit r.mask l = false) ∧
      ∀ l, t.thread s.cur.warp l =
        if l ∈ s.performers (.exit c g) ∧ l < (s.warp s.cur.warp).threads.length then
          { s.thread s.cur.warp l with
            life := .exited, hold := .none, region := none, aborting := none, pend := [], priv := false, busy := [], late := []
            order := none }
        else s.thread s.cur.warp l

/-- R150, R153 and R154: meet writes mt of its threads and adds them to the record of its packet, making one where there is
room for it; unmeet clears an mt that names its packet and takes its threads out of the record. -/
def Obligations.MeetAndUnmeetKeepRecords : Prop :=
  ∀ (s : State) (c : Bool) (g : Guard) (disp : BitVec 19),
    let w := s.warp s.cur.warp
    let at_ := displaced s.cur.pc disp
    (s.issues (.meet c g disp) = true → ∃ t, exec (.meet c g disp) s = .next t ∧ t = { s with warps := t.warps } ∧
      (∀ j, j ≠ s.cur.warp → t.warp j = s.warp j) ∧
      (∀ l, t.thread s.cur.warp l = if l ∈ s.performers (.meet c g disp) ∧ l < w.threads.length then
        { s.thread s.cur.warp l with mt := at_ } else s.thread s.cur.warp l) ∧
      (t.warp s.cur.warp).rejoin =
        if w.rejoin.any (fun r => r.addr == at_) then
          w.rejoin.map (fun r => if r.addr = at_ then { r with mask := r.mask ||| maskOf (s.performers (.meet c g disp)) } else r)
        else if w.rejoin.length < 16 then w.rejoin ++ [{ addr := at_, mask := maskOf (s.performers (.meet c g disp)) }]
        else w.rejoin) ∧
    (s.issues (.unmeet c g disp) = true → ∃ t, exec (.unmeet c g disp) s = .next t ∧ t = { s with warps := t.warps } ∧
      (∀ j, j ≠ s.cur.warp → t.warp j = s.warp j) ∧
      (∀ l, t.thread s.cur.warp l = if l ∈ s.performers (.unmeet c g disp) ∧ l < w.threads.length ∧ (s.thread s.cur.warp l).mt = at_ then
        { s.thread s.cur.warp l with mt := 0 } else s.thread s.cur.warp l) ∧
      (t.warp s.cur.warp).rejoin =
        w.rejoin.map (fun r => if r.addr = at_ then { r with mask := r.mask &&& ~~~ maskOf (s.performers (.unmeet c g disp)) } else r))

/-- R156 (points 1 and 2): each performing thread of a collective arrives and is held at the word, with its member mask and
its operands read at issue; nothing else changes.
The model's own readings: log 21 (threads stand at the word, not past it). -/
def Obligations.CollectivesArrive : Prop :=
  ∀ (s : State) (c : Bool) (p pa : BitVec 3) (d a m : Reg), ∀ x ∈ collRules c p pa d a m, s.issues x.1 = true →
    ∃ t, exec x.1 s = .next t ∧ EachThread s t x.1 (fun l th => heldAt s l (arriving s x.1 m x.2.1 x.2.2.1 x.2.2.2 l) th)

/-- R165: the performing threads of bar and gbar arrive at their barrier and are held there. -/
def Obligations.BarriersHoldTheirThreads : Prop :=
  ∀ (s : State) (c : Bool) (g : Guard) (n : BitVec 2),
    (s.issues (.bar c g n) = true → ∃ t, exec (.bar c g n) s = .next t ∧
      EachThread s t (.bar c g n) (fun l th => heldAt s l (.barrier false n s.nextId) th)) ∧
    (s.issues (.gbar c g n) = true → ∃ t, exec (.gbar c g n) s = .next t ∧
      EachThread s t (.gbar c g n) (fun l th => heldAt s l (.barrier true n s.nextId) th))

/-- R206, R207, R231, R232 and R367: fence.acq makes every earlier access that returns a value one that later accesses wait for,
and loads of its threads still in flight read at its scope where it is wider; wider than core, its thread misses no write
made before it from then on. fence.rel makes every earlier access one that later writes wait for, at its scope, and its
thread stands at it while the MMP has to decide an earlier store; fence.ar does both, and its thread stands at it. No memory
changes.
The model's own readings: log 29 (which earlier accesses a release waits for). -/
def Obligations.FencesOrderEarlierAccesses : Prop :=
  ∀ (s : State) (c : Bool) (g : Guard) (scope : BitVec 3),
    let wi := s.cur.warp
    let acq (i : Instr) (t : State) : Prop :=
      (∀ l, l ∈ s.performers i → l < (s.warp wi).threads.length → (t.thread wi l).acqUpTo = s.nextId ∧
        scope.toNat ≤ (t.thread wi l).acqScope.toNat ∧ (scope ≠ 0 → s.ac + 1 ≤ (t.thread wi l).fresh) ∧
        (scope = 0 → (t.thread wi l).fresh = (s.thread wi l).fresh)) ∧
      t.ops = s.ops.map (fun o =>
        if o.warp = wi ∧ o.kind = .load ∧ o.scope.toNat < scope.toNat ∧
            ∃ x ∈ o.lanes, x.lane ∈ s.performers i ∧ x.final = false then { o with scope := scope } else o)
    let rel (i : Instr) (t : State) : Prop :=
      ∀ l, l ∈ s.performers i → l < (s.warp wi).threads.length → (s.nextId, scope) ∈ (t.thread wi l).relUpTo
    let frame (i : Instr) (t : State) : Prop :=
      t = { s with warps := t.warps, ops := t.ops } ∧ (∀ j, j ≠ wi → t.warp j = s.warp j) ∧
      ∀ l, t.thread wi l = { s.thread wi l with
          acqUpTo := (t.thread wi l).acqUpTo, acqScope := (t.thread wi l).acqScope, fresh := (t.thread wi l).fresh
          relUpTo := (t.thread wi l).relUpTo, order := (t.thread wi l).order } ∧
        (l ∉ s.performers i → t.thread wi l = s.thread wi l)
    let stands (i : Instr) (t : State) (what : Nat → Option Standing) : Prop :=
      ∀ l, l ∈ s.performers i → l < (s.warp wi).threads.length →
        (t.thread wi l).order = (what l).elim (s.thread wi l).order (fun x => some { word := s.cur.wordAddr, below := s.nextId, what := x })
    (s.issues (.fenceAcq c g scope) = true → ∃ t, exec (.fenceAcq c g scope) s = .next t ∧ frame (.fenceAcq c g scope) t ∧
      acq (.fenceAcq c g scope) t ∧ stands (.fenceAcq c g scope) t (fun _ => none) ∧
      ∀ l, (t.thread wi l).relUpTo = (s.thread wi l).relUpTo) ∧
    (s.issues (.fenceRel c g scope) = true → ∃ t, exec (.fenceRel c g scope) s = .next t ∧ frame (.fenceRel c g scope) t ∧
      t.ops = s.ops ∧ rel (.fenceRel c g scope) t ∧
      stands (.fenceRel c g scope) t (fun l => if s.storeWaits wi l s.nextId = true ∨ s.storeTrap wi l = true then some .rel else none) ∧
      ∀ l, (t.thread wi l).acqUpTo = (s.thread wi l).acqUpTo ∧ (t.thread wi l).acqScope = (s.thread wi l).acqScope ∧
        (t.thread wi l).fresh = (s.thread wi l).fresh) ∧
    (s.issues (.fenceAr c g scope) = true → ∃ t, exec (.fenceAr c g scope) s = .next t ∧ frame (.fenceAr c g scope) t ∧
      acq (.fenceAr c g scope) t ∧ rel (.fenceAr c g scope) t ∧ stands (.fenceAr c g scope) t (fun _ => some (.ar scope)))

/-- R249, R250, R255 and R257: try opens a region with its checkpoint of CNT + 1 registers and the predicates, and its
target; tabort of a thread in a region decides an abort with code 1 and its user code, and changes nothing of a thread
in none; tstat writes the abort codes. -/
def Obligations.TryTabortAndTstat : Prop :=
  ∀ (s : State) (c : Bool) (g : Guard) (cnt : BitVec 5) (mm : BitVec 4) (n d : Reg) (u : BitVec 8),
    (s.issues (.tryOpen c g cnt mm n) = true → (∀ l ∈ s.performers (.tryOpen c g cnt mm n), (s.cur.thread l).region = none) →
      ∃ t, exec (.tryOpen c g cnt mm n) s = .next t ∧ EachThread s t (.tryOpen c g cnt mm n) (fun l th =>
        let r : Region :=
          { first := s.nextId, count := cnt.toNat + 1, base := n.toNat, reads := [], buffer := [], places := [], preds := (s.cur.thread l).preds
            regs := (List.range (cnt.toNat + 1)).map (fun i => s.source l (n.toNat + i))
            target := packetAddr (packetNo s.cur.pc + 1 + mm.toNat) }
        { th with tabc := 0, tusr := 0, region := some r })) ∧
    (s.issues (.tabort c g u) = true → (∀ l ∈ s.performers (.tabort c g u), (s.thread s.cur.warp l).region = none) →
      exec (.tabort c g u) s = .next (s.afterPops (.tabort c g u))) ∧
    (s.issues (.tabort c g u) = true →
      ∃ t, exec (.tabort c g u) s = .next t ∧ t = { s with warps := t.warps, scheds := t.scheds } ∧
        (∀ j, j ≠ s.cur.warp → t.warp j = s.warp j) ∧ ∀ l, l < (s.warp s.cur.warp).threads.length →
        let th := s.thread s.cur.warp l
        (∀ r, l ∈ s.performers (.tabort c g u) → th.region = some r → th.aborting = none → t.thread s.cur.warp l = { th with
          region := some { r with reads := [], buffer := [], places := [] }, order := none, hold := .rollback (s.ac + 8)
          aborting := some { code := 1, user := u, addr := 0, decided := s.ac } }) ∧
        (l ∉ s.performers (.tabort c g u) ∨ th.region = none ∨ th.aborting.isSome = true → t.thread s.cur.warp l = th)) ∧
    (d.toNat < 112 → s.issues (.tstat c g d) = true →
      ∃ t, exec (.tstat c g d) s = .next t ∧ LaneFrame s t (.tstat c g d) ∧ RegResult s t (.tstat c g d) d 4 (fun l r =>
        r.toNat = (s.cur.thread l).tabc.toNat + 256 * (s.cur.thread l).tusr.toNat))

/-- R214, R251 and R256: commit closes the regions of its threads once it may be the release that it is. Where they have stored
nothing, each thread is past its region 6 ac on and nothing else changes; one thread's buffered bytes of core-local memory
all stand in memory, in one step, and no other byte changes; a thread whose earlier accesses are not all performed stands at
the word, in its region.
The model's own readings: log 29 (what a commit waits for); log 32 (a commit that waits for nothing takes its step at its
issue). -/
def Obligations.CommitClosesTheRegion : Prop :=
  ∀ (s : State) (c : Bool) (g : Guard),
    (s.issues (.commit c g 0) = true →
      (∀ l ∈ s.performers (.commit c g 0), (s.cur.thread l).region.isSome = true ∧ (s.thread s.cur.warp l).aborting = none ∧
        (∃ r, (s.thread s.cur.warp l).region = some r ∧ r.buffer = []) ∧ s.mayPublish s.cur.warp l s.nextId = true) →
      ∃ t, exec (.commit c g 0) s = .next t ∧ t.mem = s.mem ∧ t.ops = s.ops ∧ t.l1 = s.l1 ∧
        ∀ l, l < (s.warp s.cur.warp).threads.length → t.thread s.cur.warp l =
          if l ∈ s.performers (.commit c g 0) then
            { s.thread s.cur.warp l with region := none, order := none, hold := .commit, notBefore := max (s.thread s.cur.warp l).notBefore (s.ac + 6) }
          else s.thread s.cur.warp l) ∧
    (∀ l r, s.issues (.commit c g 0) = true → s.performers (.commit c g 0) = [l] → (s.cur.thread l).region.isSome = true →
      (s.thread s.cur.warp l).aborting = none → (s.thread s.cur.warp l).region = some r → s.mayPublish s.cur.warp l s.nextId = true →
      (∀ e ∈ r.buffer, isGeneric e.1 = false ∧ isGeneric (lineOf e.1 * 128) = false) →
      ∃ t, exec (.commit c g 0) s = .next t ∧ t.ops = s.ops ∧ (t.thread s.cur.warp l).region = (if l < (s.warp s.cur.warp).threads.length then none else some r) ∧
        ∀ loc, t.byte loc = (Keyed.find r.buffer loc).getD (s.byte loc)) ∧
    (∀ scope l, s.issues (.commit c g scope) = true → s.performers (.commit c g scope) = [l] → (s.cur.thread l).region.isSome = true →
      (s.thread s.cur.warp l).aborting = none → (s.thread s.cur.warp l).region.isSome = true → s.mayPublish s.cur.warp l s.nextId = false →
      ∃ t, exec (.commit c g scope) s = .next t ∧ t.mem = s.mem ∧ (∀ j, j ≠ s.cur.warp → t.warp j = s.warp j) ∧
        (∃ o, t.ops = s.ops ++ [o] ∧ o.id = s.nextId ∧ o.ins = .commit c g scope ∧ o.scope = scope ∧ o.flag = none ∧ o.lanes.map (·.lane) = [l]) ∧
        ∀ j, t.thread s.cur.warp j = if j = l ∧ l < (s.warp s.cur.warp).threads.length then
            { s.thread s.cur.warp j with order := some { word := s.cur.wordAddr, below := s.nextId, what := .commit } }
          else s.thread s.cur.warp j)

/-- R25, R132, R172, R190, R191, R203, R236 and R238: a memory word leaves one operation in flight, with its flag counted
and each performing lane at its address, its place and the bytes of its operands; a lane whose page is serviced waits in
it. Memory, registers and predicates stand: the accesses are performed later. In generic memory the statement is of one
lane, and of a store whose line its L1 holds the L1 takes the bytes at once.
The model's own readings: log 12 (an operation is due at its nominal figure and what delays add); log 30 (one operation for
the group, each lane performed on its own). -/
def Obligations.MemoryWordsGoInFlight : Prop :=
  ∀ (s : State) (c : Bool) (g : Guard) (fs : Bool) (fn : BitVec 4) (sp : BitVec 3) (t a : Reg),
    ∀ p ∈ memoryRules s c g fs fn sp t a, s.issues p.1 = true → (p.2.1.kind = .load → s.pushes s.cur.warp t.toNat = false) →
      (p.2.1.sp = 0 → ∃ l, s.performers p.1 = [l]) →
      (∀ l ∈ s.performers p.1, (s.thread s.cur.warp l).region = none ∧ (s.thread s.cur.warp l).aborting = none ∧
        s.admits p.2.1 a l ≠ .refused ∧ s.admits p.2.1 a l ≠ .full) →
      ∃ u lanes, exec p.1 s = .next u ∧ MemoryIssued s u p.1 p.2.1.kind lanes ∧
        (lanes = (s.performers p.1).map (s.memFlight p.2.1 a p.2.2) ∨
          (p.2.1.kind = .store ∧ p.2.1.sp = 0 ∧
            lanes = (s.performers p.1).map (fun l => { s.memFlight p.2.1 a p.2.2 l with state := .written }))) ∧
        ∀ j l, u.thread j l = { (s.afterPops p.1).thread j l with
          region := (u.thread j l).region, aborting := (u.thread j l).aborting, hold := (u.thread j l).hold, order := (u.thread j l).order } ∧
          (p.2.1.kind ≠ .store ∨ p.2.1.sp ≠ 0 → u.thread j l = (s.afterPops p.1).thread j l)

/-- R172, R189, R358, R360 and R370: where every performing lane is refused, a load, an atomic or a stall operation takes a
precise ACCESS with the low word of its address, nothing of the word done; a store leaves the group going on, each lane
with a pending STORE. -/
def Obligations.RefusedAccessesTrap : Prop :=
  ∀ (s : State) (c : Bool) (g : Guard) (fs : Bool) (fn : BitVec 4) (sp : BitVec 3) (t a : Reg), s.cur.lanes.Nodup →
    ∀ p ∈ memoryRules s c g fs fn sp t a, s.issues p.1 = true →
      (∀ l ∈ s.performers p.1, (s.thread s.cur.warp l).region = none ∧ (s.thread s.cur.warp l).aborting = none ∧
        s.admits p.2.1 a l = .refused) →
      (p.2.1.kind ≠ .store → (∀ l ∈ s.performers p.1, s.handles l) →
        ∃ u, exec p.1 s = .next u ∧ EachTraps s u p.1 s.cur.thread 9 (fun l => lo32 (memAddr s a l)) s.cur.chainAddr) ∧
      (p.2.1.kind = .store → ∃ u, exec p.1 s = .next u ∧
        MemoryIssued s u p.1 .store ((s.performers p.1).map (s.memFlight p.2.1 a p.2.2)) ∧
        ∀ j l, u.thread j l = if j = s.cur.warp ∧ l ∈ s.performers p.1 ∧ l < (s.warp j).threads.length then
            { (s.afterPops p.1).thread j l with pend := (s.thread j l).pend ++
              [{ cause := 0x0A, late := false, tval := lo32 (memAddr s a l), pc := s.cur.wordAddr, va := memAddr s a l }] }
          else (s.afterPops p.1).thread j l)

/-- R251: a store of a thread in a region, with FEM 0 and room, goes into its try buffer at issue, and memory stands; a
store to a line of the thread's own read set aborts with ALIAS (3), and one that finds no room aborts every region of the
warp with OVERFLOW (2). -/
def Obligations.RegionStoresAreBuffered : Prop :=
  ∀ (s : State) (c : Bool) (g : Guard) (fs : Bool) (fn : BitVec 4) (t a : Reg) (l : Nat) (r : Region) (loc pte : Nat),
    ∀ p ∈ memoryRules s c g fs fn 0 t a, p.2.1.kind = .store → s.issues p.1 = true → s.performers p.1 = [l] →
      l < (s.warp s.cur.warp).threads.length → (s.cur.thread l).region = some r → (s.thread s.cur.warp l).region = some r →
      (s.thread s.cur.warp l).aborting = none → (match s.cur.pfx with | .memq _ _ _ f _ => f | _ => 0) = 0 → p.2.1.sp ≠ 0 →
      s.admits p.2.1 a l = .go loc pte →
      let locs := s.laneLocs (s.ownerOf s.cur.warp) (s.memFlight p.2.1 a p.2.2 l)
      let new := ((locs.map lineOf).eraseDups).filter (fun n => !r.writeLines.contains n)
      ∃ u, exec p.1 s = .next u ∧ u.mem = s.mem ∧
        ((∃ n ∈ locs.map lineOf, n ∈ r.reads) → ∃ b, (u.thread s.cur.warp l).aborting = some b ∧ b.code = 3 ∧ b.decided = s.ac) ∧
        ((∀ n ∈ locs.map lineOf, n ∉ r.reads) → s.tryRoom s.cur.warp new.length = true →
          u.thread s.cur.warp l = { s.thread s.cur.warp l with
            region := some { r with
              buffer := (locs.zip (p.2.2 l)).foldl (fun b e => Keyed.put b e.1 e.2) r.buffer
              places := r.places ++ (s.linePlaces (s.ownerOf s.cur.warp) (s.memFlight p.2.1 a p.2.2 l) locs).filter
                (fun e => !r.places.any (fun f => f.1 == e.1)) } }) ∧
        ((∀ n ∈ locs.map lineOf, n ∉ r.reads) → s.tryRoom s.cur.warp new.length = false → l < 32 →
          ∃ b, (u.thread s.cur.warp l).aborting = some b ∧ b.code = 2 ∧ b.decided = s.ac)

/-- R172, R233–R235: feset, feclr and fepoll leave an operation in flight over the granules from that of their address, D + 1
of them for feset and feclr, where the allocation holds them; else they take a precise ACCESS.
The model's own readings: log 12 (when an operation is due). -/
def Obligations.FeWordsGoInFlight : Prop :=
  ∀ (s : State) (c : Bool) (g : Guard) (fs : Bool) (n : BitVec 7) (d a : Reg) (gang : Bool),
    let rules : List (Instr × Nat) :=
      [(.feset c g fs n a gang, n.toNat + 1), (.feclr c g fs n a gang, n.toNat + 1), (.fepoll c g fs d a gang, 1)]
    let at_ (l : Nat) : DWord := s.source.pair l a.toNat &&& ~~~ 15#64
    let place (k l : Nat) : Xlat := s.locate s.cur.warp false .write (if gang then 2 else 1) (at_ l) (16 * k)
    ∀ p ∈ rules, s.issues p.1 = true →
      ((∀ l ∈ s.performers p.1, ∃ loc, place p.2 l = .ok loc 0 0 0) →
        ∃ t lanes lat, exec p.1 s = .next t ∧ InFlight s t p.1 (s.flight p.1 .fe lanes lat) ∧
          lanes.map (fun x => (x.lane, x.addr, x.size, x.state, x.loc)) = (s.performers p.1).map (fun l => (l, at_ l, 16 * p.2, .going,
            match place p.2 l with | .ok loc _ _ _ => some loc | _ => none))) ∧
      ((∀ l ∈ s.performers p.1, place p.2 l = .refused) → s.cur.lanes.Nodup → (∀ l ∈ s.performers p.1, s.handles l) →
        ∃ t, exec p.1 s = .next t ∧
          EachTraps s t p.1 s.cur.thread 9 (fun l => lo32 (s.source.pair l a.toNat)) s.cur.chainAddr)

/-- R25, R245, R280, R284, R347 and R351: the words of the launch path, the reservations and the FEAT words that name a watch
leave an operation in flight that holds the operands of each lane, due 200 ac later, or 400 for pres and prel; D is written
when it completes.
The model's own readings: log 12 (when an operation is due); log 36 (LAUNCH and GSIGNAL are ordered after earlier accesses). -/
def Obligations.EngineWordsGoInFlight : Prop :=
  ∀ (s : State) (c : Bool) (g : Guard) (fs : Bool) (d a : Reg), ∀ p ∈ engineRules s c g fs d a, s.issues p.1 = true →
    ∃ t, exec p.1 s = .next t ∧ InFlight s t p.1 (s.flight p.1 .engine ((s.performers p.1).map p.2)
      (match p.1 with | .pres .. | .prel .. => 400 | _ => 200))

/-- R307, R309, R310, R350 and R352: tap and fdec take the operands of the lowest lane for the group; dsel takes eight words
of each lane; rng gives each lane 64 bits of its counter stream in 200 ac.
The model's own readings: log 12 (when an operation is due); log 28 (what dsel does with a malformed descriptor). -/
def Obligations.GroupAndDrawWordsGoInFlight : Prop :=
  ∀ (s : State) (c : Bool) (g : Guard) (fs : Bool) (d a : Reg) (l : Nat) (ls : List Nat),
    let v (l : Nat) : List Word := (List.range 8).map (fun n => s.source l (a.toNat + n))
    let head : Nat → LaneOp := fun j =>
      { engineLane j (s.source.pair l a.toNat) with size := 64, data := (v l).flatMap wordBytes }
    (s.issues (.tap c g fs d a) = true → s.performers (.tap c g fs d a) = l :: ls →
      ∃ t, exec (.tap c g fs d a) s = .next t ∧
        InFlight s t (.tap c g fs d a) (s.flight (.tap c g fs d a) .engine ((l :: ls).map head) 1)) ∧
    (s.issues (.fdec c g fs d a) = true → s.performers (.fdec c g fs d a) = l :: ls →
      ∃ t lat, exec (.fdec c g fs d a) s = .next t ∧ 400 ≤ lat ∧
        InFlight s t (.fdec c g fs d a) (s.flight (.fdec c g fs d a) .engine ((l :: ls).map head) lat)) ∧
    (s.issues (.dsel c g fs d a) = true →
      ∃ t lanes lat, exec (.dsel c g fs d a) s = .next t ∧ 40 ≤ lat ∧
        InFlight s t (.dsel c g fs d a) (s.flight (.dsel c g fs d a) .engine lanes lat) ∧
        lanes.map (fun x => (x.lane, x.addr, x.data)) =
          (s.performers (.dsel c g fs d a)).map (fun l => (l, s.source.pair l a.toNat, (v l).flatMap wordBytes))) ∧
    (s.issues (.rng c g fs d a) = true →
      ∃ t, exec (.rng c g fs d a) s = .next t ∧ InFlight s t (.rng c g fs d a)
        (s.flight (.rng c g fs d a) .fixed [] 200 ((s.performers (.rng c g fs d a)).flatMap (fun l =>
          let r := rngOf (s.rngKey s.cur.warp) (s.source l a.toNat) (s.source l (a.toNat + 1))
          [{ lane := l, reg := d.toNat, value := lo32 r }, { lane := l, reg := d.toNat + 1, value := hi32 r }]))))

/-- R313, R327, R336 and R361: a TKT word whose handles name tickets of the owner leaves an operation in flight that holds
instance, ticket and operands of each lane; a refused handle is a precise ACCESS with the handle as trap value.
The model's own readings: log 12 (when an operation is due); log 40 (an instance that is removed meanwhile). -/
def Obligations.TicketWordsGoInFlight : Prop :=
  ∀ (s : State) (c : Bool) (g : Guard) (fs : Bool) (d a : Reg),
    (∀ p ∈ ticketRules c g fs d a, s.issues p.1 = true →
      let named (l : Nat) := s.handle s.cur.warp p.1 (s.source l a.toNat)
      ((∀ l ∈ s.performers p.1, (named l).isSome = true) → ∃ t, exec p.1 s = .next t ∧
        InFlight s t p.1 (s.flight p.1 .engine ((s.performers p.1).map (fun l =>
          { engineLane l with data := leBytes 4 ((named l).getD (0, 0)).1.toNat ++ leBytes 4 ((named l).getD (0, 0)).2 ++
              (List.range p.2.1).flatMap (fun j => wordBytes (s.source l (a.toNat + j))) })) p.2.2)) ∧
      ((∀ l ∈ s.performers p.1, named l = none) → s.cur.lanes.Nodup → (∀ l ∈ s.performers p.1, s.handles l) →
        ∃ t, exec p.1 s = .next t ∧ EachTraps s t p.1 s.cur.thread 9 (fun l => s.source l a.toNat) s.cur.chainAddr)) ∧
    (let i := Instr.rot c g fs d a
     let named (l : Nat) := s.handle s.cur.warp i (s.source l (a.toNat + 3))
     let addr (l : Nat) : Option DWord := (named l).bind (fun t => (s.inst? t.1).bind (fun v =>
       if s.tkState v t.2 = 0 then none else some (s.rotAddr v t.2 (s.source l (a.toNat + 2)) (s.source l (a.toNat + 3)))))
     s.issues i = true → (∀ l ∈ s.performers i, (named l).isSome = true ∧
       ∀ x, addr l = some x → s.translate (s.ownerOf s.cur.warp) (s.cur.thread l).priv .read x ≠ .refused) →
     ∃ t lanes, exec i s = .next t ∧ InFlight s t i (s.flight i .engine lanes 260) ∧
       lanes.map (fun x => (x.lane, x.addr, x.data.take 24)) = (s.performers i).map (fun l => (l, (addr l).getD 0,
         leBytes 4 ((named l).getD (0, 0)).1.toNat ++ leBytes 4 ((named l).getD (0, 0)).2 ++
           (List.range 4).flatMap (fun j => wordBytes (s.source l (a.toNat + j))))))

/-- R244 and R246–R248: pdisc, pflush and pmig leave an operation in flight over their range, or the page of pmig, where the
checks let them; a refused range is a precise ACCESS, and a pmig that finds no unit on its die a precise RESERVE.
The model's own readings: log 36 (page words are ordered after earlier accesses); log 37 (what page words wait for). -/
def Obligations.PageWordsGoInFlight : Prop :=
  ∀ (s : State) (c : Bool) (g : Guard) (fs : Bool) (d a : Reg) (inv : Bool), ∀ p ∈ pageRules c g fs d a inv, s.issues p.1 = true →
    let x (l : Nat) : DWord := s.source.pair l a.toNat
    let len (l : Nat) : Nat := match p.2 with | .mig => 0 | _ => (s.source l d.toNat).toNat
    let ans (l : Nat) : PageAns :=
      s.pageAnswer (s.ownerOf s.cur.warp) (s.cur.thread l).priv p.2 (x l) (len l) ((s.source l d.toNat).toNat % 4)
    let start (l : Nat) : DWord := match p.2 with | .mig => x l - BitVec.ofNat 64 ((x l).toNat % 65536) | _ => x l
    let size (l : Nat) : Nat := match p.2 with | .mig => 65536 | _ => len l
    ((∀ l ∈ s.performers p.1, ans l = .go ∨ ans l = .wait) → ∃ t lanes lat, exec p.1 s = .next t ∧
      InFlight s t p.1 (s.flight p.1 .page lanes lat) ∧
      lanes.map (fun y => (y.lane, y.addr, y.size, y.data.getD 1 0)) =
        (s.performers p.1).map (fun l => (l, start l, size l, BitVec.ofNat 8 ((s.source l d.toNat).toNat % 4)))) ∧
    (s.cur.lanes.Nodup → (∀ l ∈ s.performers p.1, s.handles l) → ∀ cause why,
      (cause, why) ∈ [(9, PageAns.refused), (8, PageAns.full)] → (∀ l ∈ s.performers p.1, ans l = why) →
      ∃ t, exec p.1 s = .next t ∧ EachTraps s t p.1 s.cur.thread cause (fun l => lo32 (x l)) s.cur.chainAddr)

/-- R286, R301, R303–R305: mdrain.l, mdrain.r and mzero are received by the sequencer at issue, once for the group, with
the sources of the lowest lane.
The model's own readings: log 12 (matrix timing counts from receipt). -/
def Obligations.DrainWordsReachTheSequencer : Prop :=
  ∀ (s : State) (c : Bool) (g : Guard) (fs : Bool) (d a : Reg) (l : Nat) (ls : List Nat),
    let rules : List (Instr × MopWhat × List Word) :=
      [ (.mdrainL c g fs a, .drainLocal, [s.source l (a.toNat + 1), s.source l (a.toNat + 2)]), (.mdrainR c g fs d a, .drainRegs, []),
        (.mzero c g fs a, .zero, []) ]
    ∀ p ∈ rules, s.issues p.1 = true → s.performers p.1 = l :: ls →
      ∃ t u q, exec p.1 s = .next t ∧ InFlight s u p.1 (s.flight p.1 .engine ((l :: ls).map (fun l => engineLane l)) 1) ∧
        t = { u with mops := s.mops ++ [q], nextId := s.nextId + 2 } ∧
        q.id = s.nextId + 1 ∧ q.sched = s.schedOf s.cur.warp ∧ q.warp = s.cur.warp ∧ q.what = p.2.1 ∧ q.src = .word s.nextId ∧
        q.ctl = s.source l a.toNat ∧ q.args = p.2.2 ∧ q.taken = [] ∧ q.pins = []

/-- R288 and R289: mma counts its flag, its performing threads arrive and are held at the word with V[A] and their member
mask, and nothing else of a thread changes.
The model's own readings: log 48 (a thread with a false guard passes an mma). -/
def Obligations.MmaArrives : Prop :=
  ∀ (s : State) (c : Bool) (g : Guard) (fs : Bool) (mask a : Reg),
    let i := Instr.mma c g fs mask a
    s.issues i = true → ∃ t, exec i s = .next t ∧
      t.ops = s.ops ++ [s.flight i .engine ((s.performers i).map (fun l => engineLane l)) 1] ∧ t.nextId = s.nextId + 1 ∧
      t = { s with warps := t.warps, ops := t.ops, nextId := t.nextId, delays := t.delays } ∧
      (∀ j, j ≠ s.cur.warp → t.warp j = s.warp j) ∧
      t.warp s.cur.warp = { s.warp s.cur.warp with
        threads := (t.warp s.cur.warp).threads, queues := ((s.afterPops i).warp s.cur.warp).queues, passed := (t.warp s.cur.warp).passed
        flags := counted (s.warp s.cur.warp).flags (s.flagFor i) } ∧
      ∀ l, t.thread s.cur.warp l =
        if l ∈ s.performers i ∧ l < (s.warp s.cur.warp).threads.length then heldAt s l (arriving s i mask (some a) none 7 l) ((s.afterPops i).thread s.cur.warp l)
        else (s.afterPops i).thread s.cur.warp l

/-- R269, R270 and R271: qbind writes STATUS and qbnd, and where it succeeds the register is bound and may be used 8 ac
later; qstat writes the status word of its register.
The model's own readings: log 35 (the binding holds from the issue of qbind, and its ring must translate at once). -/
def Obligations.QbindAndQstatAnswer : Prop :=
  ∀ (s : State) (c : Bool) (g : Guard) (d a : Reg), d.toNat < 112 →
    (∀ l ls, s.issues (.qbind c g d a) = true → s.performers (.qbind c g d a) = l :: ls →
      let st := (s.afterPops (.qbind c g d a)).qbindStatus s.cur.warp (s.source l a.toNat) (s.source l (a.toNat + 1)).toNat (s.source.pair l (a.toNat + 2))
      let desc := (s.source l a.toNat).toNat
      ∃ t, exec (.qbind c g d a) s = .next t ∧ t = { s with warps := t.warps, pins := t.pins } ∧
        (∀ j, j ≠ s.cur.warp → t.warp j = s.warp j) ∧
        (∀ j, s.lands (.qbind c g d a) j d.toNat → t.reg s.cur.warp j d.toNat = BitVec.ofNat 32 (st.1 * 2 ^ 28 + (t.warp s.cur.warp).qbnd)) ∧
        (∀ j code, ¬ (s.lands (.qbind c g d a) j code ∧ code = d.toNat) → t.reg s.cur.warp j code = s.reg s.cur.warp j code) ∧
        (st.1 ≠ 0 → t.pins = s.pins ∧ (t.warp s.cur.warp).queues = ((s.afterPops (.qbind c g d a)).warp s.cur.warp).queues) ∧
        (st.1 = 0 →
          let b := (t.warp s.cur.warp).queue (desc / 2 ^ 24 % 16)
          b.kind = desc / 2 ^ 28 ∧ b.qs = (s.source l (a.toNat + 1)).toNat ∧ b.base = s.source.pair l (a.toNat + 2) ∧ b.hw = [] ∧
            b.ring = [] ∧ b.pins = st.2 ∧
          ∀ j, j < 32 → j < (s.warp s.cur.warp).threads.length → s.ac + 8 ≤ t.readyAt s.cur.warp j (112 + desc / 2 ^ 24 % 16))) ∧
    (s.issues (.qstat c g d a) = true → ∃ t, exec (.qstat c g d a) s = .next t ∧ LaneFrame s t (.qstat c g d a) ∧
      RegResult s t (.qstat c g d a) d 4 (fun _ r => r = (s.afterPops (.qstat c g d a)).queueStat s.cur.warp (a.toNat - 112)))

/-- R272: qflush of a push side stands in flight with the number of entries not yet received as its result; qflush of a pop
side discards the entries whose value is written, at issue, and its result is their number. -/
def Obligations.QflushDrainsOrDiscards : Prop :=
  ∀ (s : State) (c : Bool) (g : Guard) (fs : Bool) (d a : Reg) (unbind : Bool),
    let i := Instr.qflush c g fs d a unbind
    let q := a.toNat - 112
    let b := ((s.afterPops i).warp s.cur.warp).queue q
    let out (n : Nat) : List RegWrite := (s.performers i).map (fun l => { lane := l, reg := d.toNat, value := BitVec.ofNat 32 n })
    let ready (e : QEntry) : Bool := s.entryWritten s.cur.warp e
    s.issues i = true →
      (pushSide b.kind = true → ∃ t, exec i s = .next t ∧
        InFlight s t i (s.flight i .engine ((s.performers i).map (fun l => engineLane l)) 4 (out ((s.afterPops i).unreceived s.cur.warp q).length))) ∧
      (pushSide b.kind = false → popSide b.kind = true → unbind = false → ∃ t, exec i s = .next t ∧
        t.ops = s.ops ++ [s.flight i .fixed [] 4 (out ((b.hw ++ b.ring.map (·.2)).filter ready).length)] ∧
        (t.warp s.cur.warp).queue q = { b with hw := b.hw.filter (fun e => !ready e), ring := b.ring.filter (fun e => !ready e.2) } ∧
        t.mem = s.mem ∧ (∀ j l, t.thread j l = s.thread j l)) ∧
      (pushSide b.kind = false → popSide b.kind = false → unbind = false → ∃ t, exec i s = .next t ∧
        InFlight s t i (s.flight i .fixed [] 4 (out 0)))

/-- R373, R395 and R374: rfe by threads in a handler clears PRIV and resumes each at the word that its epc names, 3 ac on. -/
def Obligations.RfeResumes : Prop :=
  ∀ (s : State) (c : Bool) (g : Guard), s.issues (.rfe c g) = true → s.cur.lanes.Nodup →
    (∀ l ∈ s.performers (.rfe c g), s.denied s.cur.warp (s.cur.thread l) = false ∧
      ∃ p w, wordAddr (s.thread s.cur.warp l).epc = some (p, w) ∧
        ∀ loc pg pte lv, s.fetchPlace s.cur.warp false p = .ok loc pg pte lv →
          let ws := s.fetchWords (s.warp s.cur.warp).core (loc - loc % 64)
          let k := (packetIx p).getD 0
          k < headerNpk (wordAt ws 0) ∧ (w = 1 ∨ bitC (wordAt ws (3 * k + w - 1)) = false ∧ isPfx (wordAt ws (3 * k + w - 1)) = false)) →
    ∃ t, exec (.rfe c g) s = .next t ∧ EachThread s t (.rfe c g) (fun _ th =>
      match wordAddr th.epc with
      | some (p, w) =>
        { th with
          priv := false, pc := p, pos := w, line := [], entered := false, notBefore := s.ac + 3
          hold := if w ≠ 1 then .none else if th.mt ≠ 0 ∧ th.mt = p ∧ (packetIx p).isSome = true then .parked else th.hold }
      | none => th)

/-- R375: kill.w ends the threads of its lane mask, kill.g every thread of the gang, and kill.l, in a handler, every thread
of every gang of the launch that has not retired; every other thread of the machine lives on.
The model's own readings: log 54 (what becomes of pending traps of a killed thread). -/
def Obligations.KillEndsThreads : Prop :=
  ∀ (s : State) (c : Bool) (g : Guard) (a : Reg),
    (∀ l ls, s.issues (.killW c g a) = true → s.performers (.killW c g a) = l :: ls →
      ∃ t, exec (.killW c g a) s = .next t ∧
        LifeOnly s t (fun j l' => j = s.cur.warp ∧ l' < 32 ∧ laneBit (s.source l a.toNat) l' = true)) ∧
    (s.issues (.killG c g) = true → ∃ t, exec (.killG c g) s = .next t ∧
      LifeOnly s t (fun j l' => l' < 32 ∧ ∃ w ∈ (s.gang (s.gangOf s.cur.warp)).wgs, j ∈ (s.wg w).warps)) ∧
    (s.issues (.killL c g) = true → (∀ l ∈ s.performers (.killL c g), s.denied s.cur.warp (s.cur.thread l) = false) →
      ∃ t, exec (.killL c g) s = .next t ∧ (t.launch (s.launchIx s.cur.warp)).killed = true ∧
        LifeOnly s t (fun j l' => l' < 32 ∧ ∃ x ∈ s.gangs, x.2.launch = s.launchIx s.cur.warp ∧ x.2.state ≠ .retired ∧
          ∃ w ∈ (s.gang x.1).wgs, j ∈ (s.wg w).warps))

/-- R373, R376, R377 and R395: tlbinv and icinv.all by threads in a handler, and icinv of a range that is not refused, leave
an operation in flight; outside a handler tlbinv, icinv.all and rfe take PRIVILEGE.
The model's own readings: log 12 (when an operation is due); log 41 (icinv translates its range as a read). -/
def Obligations.InvalidationsGoInFlight : Prop :=
  ∀ (s : State) (c : Bool) (g : Guard) (fs : Bool) (d a : Reg),
    let range (l : Nat) : LaneOp := { engineLane l (s.source.pair l a.toNat) with data := wordBytes (s.source l d.toNat) }
    let rules : List (Instr × Nat × Nat × (Nat → LaneOp)) :=
      [ (.tlbinv c g fs d a, 2, 2000, range), (.tlbinvOwn c g fs, 2, 2000, fun l => engineLane l),
        (.tlbinvAll c g fs, 2, 2000, fun l => engineLane l), (.icinvAll c g fs, 3, 400, fun l => engineLane l) ]
    (∀ p ∈ rules, s.issues p.1 = true → (∀ l ∈ s.performers p.1, s.denied s.cur.warp (s.cur.thread l) = false) →
      ∃ t, exec p.1 s = .next t ∧
        InFlight s t p.1 (s.flight p.1 .engine ((s.performers p.1).map p.2.2.2) p.2.2.1)) ∧
    (∀ p ∈ (.rfe c g, 0) :: rules.map (fun p => (p.1, p.2.1)), s.issues p.1 = true → s.cur.lanes.Nodup →
      (∀ l ∈ s.performers p.1, s.handles l) →
      ∃ t, exec p.1 s = .next t ∧
        EachTraps s t p.1 s.cur.thread 3 (fun _ => BitVec.ofNat 32 (24 * 2 ^ 27 + p.2 * 2 ^ 16)) s.cur.chainAddr) ∧
    (s.issues (.icinv c g fs d a) = true →
      (∀ l ∈ s.performers (.icinv c g fs d a), (s.source l d.toNat).toNat = 0 ∨
        s.translateRange (s.ownerOf s.cur.warp) (s.cur.thread l).priv .read (s.source.pair l a.toNat) (s.source l d.toNat).toNat ≠ .refused) →
      ∃ t, exec (.icinv c g fs d a) s = .next t ∧
        InFlight s t (.icinv c g fs d a) (s.flight (.icinv c g fs d a) .engine ((s.performers (.icinv c g fs d a)).map (fun l =>
          { engineLane l (s.source.pair l a.toNat) with
            size := (s.source l d.toNat).toNat, data := [BitVec.ofNat 8 (if (s.cur.thread l).priv then 1 else 0)] })) 400))

/-- R310, R403–R406 and R408: rngk writes 64 bits of the stream of its key; cntsel programs a counter and answers; cntsel.rd
reads one; cntsel.smp sets the sampling of the warp, or answers 3; cntsel.rot sets the rotation of the scheduler.
The model's own readings: log 67 (the order of the checks of cntsel and its kinds). -/
def Obligations.CounterWordsAnswer : Prop :=
  ∀ (s : State) (c : Bool) (g : Guard) (d a : Reg) (l : Nat) (ls : List Nat),
    let sc := s.schedOf s.cur.warp
    let v (l : Nat) : Nat := (s.source l a.toNat).toNat
    (s.issues (.rngk c g d a) = true → ∃ t, exec (.rngk c g d a) s = .next t ∧ LaneFrame s t (.rngk c g d a) ∧
      PairResult s t (.rngk c g d a) d 8 (fun l r => r = rngOf (s.source.pair l a.toNat) (s.source l (a.toNat + 2)) (s.source l (a.toNat + 3)))) ∧
    (d.toNat < 112 → s.issues (.cntsel c g d a) = true → s.performers (.cntsel c g d a) = l :: ls →
      let st := (s.sched sc).cntselStatus (s.ownerOf s.cur.warp) (s.cur.thread l).priv (v l)
      let x := s.sched sc
      let k := (x.counter (v l % 8)).programmed (s.ownerOf s.cur.warp) (s.cur.thread l).priv (v l)
      let x' : Sched := if st = 0 then { x with counters := x.counters.set (v l % 8) k } else x
      ∃ t u, exec (.cntsel c g d a) s = .next t ∧ t.sched sc = x' ∧ (∀ j, j ≠ sc → t.sched j = s.sched j) ∧
        t = { u with scheds := t.scheds } ∧ LaneFrame s u (.cntsel c g d a) ∧
        RegResult s u (.cntsel c g d a) d 8 (fun _ r =>
          r = BitVec.ofNat 32 (st * 2 ^ 28 + (if (x'.counter (v l % 8)).claimed then (x'.counter (v l % 8)).owner.toNat else 0)))) ∧
    (s.issues (.cntselRd c g d a) = true → (∀ l ∈ s.performers (.cntselRd c g d a), v l / 256 % 8 < 4) →
      ∃ t, exec (.cntselRd c g d a) s = .next t ∧ LaneFrame s t (.cntselRd c g d a) ∧ PairResult s t (.cntselRd c g d a) d 8 (fun l r =>
        r = if v l / 2048 ≠ 0 ∨ v l / 32 % 8 ≠ 0 then 0 else s.readCounter sc (s.ownerOf s.cur.warp) (s.cur.thread l).priv (v l))) ∧
    (d.toNat < 112 → s.issues (.cntselSmp c g d a) = true → s.performers (.cntselSmp c g d a) = l :: ls →
      let base := s.source.pair l a.toNat
      let n := (s.source l (a.toNat + 2)).toNat
      let w := (s.source l (a.toNat + 3)).toNat
      let bad : Prop := base.toNat % 64 ≠ 0 ∨ n = 0 ∨ 65536 < n ∨ w / 32 % 2 ^ 26 ≠ 0
      ∃ t, exec (.cntselSmp c g d a) s = .next t ∧ t = { s with warps := t.warps } ∧ (∀ j, j ≠ s.cur.warp → t.warp j = s.warp j) ∧
        (bad → LaneFrame s t (.cntselSmp c g d a)) ∧
        RegResult s t (.cntselSmp c g d a) d 8 (fun _ r => (bad → r = BitVec.ofNat 32 (3 * 2 ^ 28)) ∧ (¬ bad → r = 0)) ∧
        (¬ bad → (t.warp s.cur.warp).sampling =
          { base := base, entries := n, on := decide (w / 2 ^ 31 = 1), shift := w % 32, seen := 0, next := 0 })) ∧
    (d.toNat < 112 → s.issues (.cntselRot c g d a) = true → s.performers (.cntselRot c g d a) = l :: ls →
      (∀ l ∈ s.performers (.cntselRot c g d a), s.denied s.cur.warp (s.cur.thread l) = false) →
      ∃ t u, exec (.cntselRot c g d a) s = .next t ∧ t = { u with scheds := t.scheds } ∧ LaneFrame s u (.cntselRot c g d a) ∧
        (∀ j, j ≠ sc → t.sched j = s.sched j) ∧
        t.sched sc = (if v l / 4 % 2 ^ 14 ≠ 0 then s.sched sc
          else { s.sched sc with rper := v l / 2 ^ 16, nset := v l % 4 + 1, act := 0, period := 0 }) ∧
        RegResult s u (.cntselRot c g d a) d 8 (fun _ r => r = BitVec.ofNat 32 (if v l / 4 % 2 ^ 14 ≠ 0 then 3 * 2 ^ 28 else 0)))

/-- R25, R70, R132, R174, R210, R236, R371 and R388: an operation that is not due, or waits for FE bits that are not as it needs
them, changes nothing; one that is due is performed as its word says, and completes; one whose Market granules have come to
another owner meanwhile touches nothing, and its refusal is reported.
The model's own readings: log 29 (the order of the stores of a thread); log 30 (each lane may be performed on its own); log
33 (acknowledgements are awaited for every write of a page with read duplicates); log 34 (FE waits); log 89 (which waiting
access comes first); log 90 (an access is one action). -/
def Obligations.CompletionsPerformTheAccess : Prop :=
  (∀ (s : State) (id : Nat), s.op? id = none →
    exec (.longLatencyComplete id) s = .next s ∧ exec (.feWaitPerform id) s = .next s ∧ exec (.engineRecallRelease id) s = .next s ∧
    exec (.rdupInvalidateAck id) s = .next { s with ops := s.ops.map (fun o => if o.id = id then { o with acks := false } else o) }) ∧
  (∀ (s : State) (o : Op), s.op? o.id = some o →
    (s.ac < o.due → exec (.longLatencyComplete o.id) s = .next s ∧ exec (.engineRecallRelease o.id) s = .next s ∧
      exec (.rdupInvalidateAck o.id) s = .next { s with ops := s.ops.map (fun e => if e.id = o.id then { e with acks := false } else e) }) ∧
    (o.waitsFull = none → exec (.feWaitPerform o.id) s = .next s) ∧
    (∀ x, o.lanes = [x] → x.state = .going → s.mayPerform o x = false → exec (.feWaitPerform o.id) s = .next s)) ∧
  (∀ (s : State) (o : Op), s.op? o.id = some o → o.due ≤ s.ac → o.kind = .fixed → o.lanes = [] → o.push = none → o.sample = false →
    (s.warp o.warp).ended = false → (o.writes.map (fun w => (w.lane, w.reg))).Nodup →
    ∃ t, exec (.longLatencyComplete o.id) s = .next t ∧
      Completed s t o (fun _ => none) (fun _ => none) (fun l code =>
        (o.writes.find? (fun w => w.lane == l && w.reg == code)).map (·.value))) ∧
  (∀ (s : State) (o : Op) (x : LaneOp) (e : Instr) (c : Bool) (g : Guard) (fs : Bool) (fn : BitVec 4) (sp : BitVec 3) (tr a : Reg),
    Lone s o x → o.push = none → performs s o e → tr.toNat < 112 →
    ∀ p ∈ memoryRules s c g fs fn sp tr a, o.ins = p.1 → o.kind = p.2.1.kind → x.size = p.2.1.size →
      let places := s.laneLocs (s.ownerOf o.warp) x
      (p.2.1.kind = .load → fn.toNat ≤ 6 → x.data = [] → (∀ q ∈ places, s.l1Line (s.warp o.warp).core (lineOf q) = none) →
        ∃ t, exec e s = .next t ∧ Completed s t o (fun _ => none) (feBits o x) (fun l code =>
          if l = x.lane ∧ tr.toNat ≤ code ∧ code < tr.toNat + (if fn = 5 then 2 else if fn = 6 then 4 else 1) then
            some (loaded fn (places.map s.byte) (code - tr.toNat)) else none)) ∧
      (p.2.1.kind = .store → x.data.length = x.size →
        ∃ t, exec e s = .next t ∧ Completed s t o (laid places x.data) (feBits o x) (fun _ _ => none)) ∧
      ((p.1 = .atom c g fs fn tr a ∨ p.1 = .atoml c g fs fn tr a ∨ p.1 = .atomGang c g fs fn tr a ∨ p.1 = .atomMkt c g fs fn tr a) →
        fn.toNat ≤ 9 → x.data.length = 4 →
        let old := bytesWord (places.map s.byte)
        ∃ t, exec e s = .next t ∧ Completed s t o (laid places (wordBytes (atomicRule fn old (bytesWord x.data)))) (fun _ => none)
          (fun l code => if l = x.lane ∧ code = tr.toNat then some old else none)) ∧
      (p.1 = .cas c g fs sp tr a → x.data.length = 8 →
        let old := places.map s.byte
        ∃ t, exec e s = .next t ∧ Completed s t o
          (laid places (if old = x.data.take 4 then x.data.drop 4 else old)) (fun _ => none)
          (fun l code => if l = x.lane ∧ code = tr.toNat then some (bytesWord old) else none))) ∧
  (∀ (s : State) (o : Op) (x : LaneOp) (e : Instr), s.op? o.id = some o → o.lanes = [x] → x.state = .going → x.part = 0 →
    stallCut x = none → o.sample = false → o.writes = [] → o.push = none → (s.warp o.warp).ended = false →
    (o.kind = .load ∨ o.kind = .store ∨ o.kind = .atomic ∨ o.kind = .market) → performs s o e → s.mayPerform o x = true →
    s.marketLost o x = true → (s.thread o.warp x.lane).life = .live → x.lane < (s.warp o.warp).threads.length →
    ∃ t, exec e s = .next t ∧ (∀ loc, t.byte loc = s.byte loc) ∧
      (t.thread o.warp x.lane).pend = (s.thread o.warp x.lane).pend ++ [{
        cause := if o.kind = .store then 0x0A else 0x09, late := decide (o.kind ≠ .store), tval := lo32 x.addr, pc := o.wordAddr, va := x.addr }]) ∧
  (∀ (s : State) (o : Op) (x : LaneOp) (c : Bool) (g : Guard) (fs : Bool) (fn : BitVec 4) (tr a : Reg), o.ins = .st c g fs fn tr a →
    o.kind = .store → o.due ≤ s.ac → x.data.length = x.size → s.op? o.id = some o → o.push = none →
    let r : Op := { o with acks := false }
    let u : State := { s with ops := s.ops.map (fun e => if e.id = o.id then { e with acks := false } else e) }
    Lone u r x → ∃ t, exec (.rdupInvalidateAck o.id) s = .next t ∧
      Completed s t r (laid (u.laneLocs (u.ownerOf o.warp) x) x.data) (feBits r x) (fun _ _ => none))

/-- R19, R146, R156–R165, R255 and R362: a scheduler latches the bundle of the candidate that it chooses; a collective is
performed once it is gathered, and its threads go on, with the flags of gred.add enabled as each thread issued it (R166), a
register granted by regq reading zero or the result still due for it (R163); a barrier lets its threads go, behind gbar with
an acquire (R208); a trap is delivered, at the word that its thread stands at (R367); a region rolls back. Where its
condition does not hold, the event changes nothing.
The model's own readings: log 2 (the order in which agents move); log 22 (when released threads arrive); log 49 (which regq
waits, and under which quota a result lands); log 55 (where pending traps are delivered); log 86 (the issue ac of a regq). -/
def Obligations.ThreadsGoOn : Prop :=
  (∀ (s : State) (sc : Nat), s.bundle = [] →
    let u := ((begin_ false s).enterAll sc).now
    (u.allCands sc).find? (fun c => (u.bundleOf c).nopOnly) = none →
      (u.chosenCand sc (u.allCands sc) = none → ∃ t, exec (.schedulerIssue sc) s = .next t ∧ t = { u with scheds := t.scheds }) ∧
      (∀ c aged, u.chosenCand sc (u.allCands sc) = some (c, aged) → c ∈ u.allCands sc ∧
        ∃ t, exec (.schedulerIssue sc) s = .next t ∧
          t = { u with scheds := t.scheds, warps := t.warps, bundle := (u.bundleOf c).slots, cur := t.cur } ∧
          t.cur.warp = c.1 ∧ t.cur.lanes = c.2 ∧ t.cur.old = u.warp c.1 ∧
          (∀ j, j ≠ c.1 → t.warp j = u.warp j) ∧
          (∀ l, t.thread c.1 l = if l ∈ c.2 then
            { (u.thread c.1 l).advance (u.bundleOf c).after with hold := .none, order := none, lastIssue := u.ac, notBefore := u.ac + 1 }
            else u.thread c.1 l))) ∧
  (∀ (s : State) (wi : Nat) (a : Arrival) (lanes : List Nat) (c : Bool) (d x m : Reg) (p pa : BitVec 3),
    (s.warp wi).gathered = [(a, lanes)] →
    let src (l : Nat) : Word := ((s.warp wi).arrival l).elim 0 (·.src)
    let ctl (l : Nat) : Word := ((s.warp wi).arrival l).elim 0 (·.ctl)
    let pred (l : Nat) : Bool := ((s.warp wi).arrival l).elim false (·.pred)
    let en (l : Nat) : BitVec 5 := ((s.warp wi).arrival l).elim 0 (·.fpen)
    let o : Offered := { lanes := lanes, src := src, ctl := ctl, pred := pred, fpen := en }
    (∀ r ∈ collectiveRules lanes src ctl pred c d x m pa, a.ins = r.1 → d.toNat < 112 → d.toNat < (s.warp wi).quota →
      ∃ t, exec (.collectivePerform wi) s = .next t ∧ Gone s t wi lanes ∧ (∀ l ∈ lanes, r.2 l (t.reg wi l d.toNat)) ∧
        (∀ l code, code ≠ d.toNat → t.reg wi l code = s.reg wi l code) ∧ ∀ l, (t.thread wi l).preds = (s.thread wi l).preds) ∧
    (∀ r ∈ collectivePreds lanes pred c p pa m, a.ins = r.1 →
      ∃ t, exec (.collectivePerform wi) s = .next t ∧ Gone s t wi lanes ∧
        (∀ l q, q < 7 → readPred (t.thread wi l) q = if l ∈ lanes ∧ q = p.toNat then r.2 l else readPred (s.thread wi l) q) ∧
        ∀ l code, t.reg wi l code = s.reg wi l code) ∧
    ((a.ins = .gredArgmin c d x m ∨ a.ins = .gredArgmax c d x m) → d.toNat < 111 → d.toNat + 1 < (s.warp wi).quota →
      ∃ t j, exec (.collectivePerform wi) s = .next t ∧ Gone s t wi lanes ∧ j ∈ lanes ∧
        (∀ i ∈ lanes, (if a.ins = .gredArgmin c d x m then (src i).slt (src j) else (src j).slt (src i)) = false ∧ (src i = src j → j ≤ i)) ∧
        ∀ l ∈ lanes, t.reg wi l d.toNat = src j ∧ t.reg wi l (d.toNat + 1) = BitVec.ofNat 32 j) ∧
    (a.ins = .gredAdd c d x m → d.toNat < 112 → d.toNat < (s.warp wi).quota →
      ∃ t, exec (.collectivePerform wi) s = .next t ∧ Gone s t wi lanes ∧ (∀ l ∈ lanes, t.reg wi l d.toNat = canonWord o.total.1) ∧
        (t.warp wi).fpst = (s.warp wi).fpst ||| o.total.2 ∧ ∀ l, l < 32 →
          laneBit (t.warp wi).lxst l = (laneBit (s.warp wi).lxst l || (lanes.contains l && o.total.2 &&& en l != 0))) ∧
    (a.ins = .prio c d x m → ∀ j, s.mateOf wi (bits (src (lanes.headD 0)).toNat 4 0) = some j → s.schedOf j = s.schedOf wi →
      ((s.sched (s.schedOf wi)).token = none ∨ (s.sched (s.schedOf wi)).token = some wi) →
      ∃ t, exec (.collectivePerform wi) s = .next t ∧ (t.sched (s.schedOf wi)).token = some j) ∧
    (a.ins = .regq c d x m → ∀ j, s.mateOf wi (bits (src (lanes.headD 0)).toNat 4 0) = some j →
      let y := src (lanes.headD 0)
      let n := bits y.toNat 15 8
      s.regqReason wi y = 0 → s.regqMay wi y lanes = true →
      d.toNat < (s.warp wi).quota - n → d.toNat < 112 →
      ∃ t, exec (.collectivePerform wi) s = .next t ∧ (t.warp wi).quota = (s.warp wi).quota - n ∧ (t.warp j).quota = (s.warp j).quota + n ∧
        (∀ l ∈ lanes, t.reg wi l d.toNat = BitVec.ofNat 32 ((s.warp wi).quota - n)) ∧
        (∀ l code, (s.thread j l).late = [] → (s.warp j).quota ≤ code → code < (s.warp j).quota + n → t.reg j l code = 0) ∧
        ∀ l code at_ w, (s.thread j l).late = [(code, at_, w)] → l < (s.warp j).threads.length → s.ac ≤ at_ → (s.warp j).quota ≤ code →
          code < (s.warp j).quota + n → t.reg j l code = w)) ∧
  (∀ (s : State) (wi : Nat), (s.warp wi).gathered = [] → exec (.collectivePerform wi) s = .next s) ∧
  (∀ (s : State) (wg : Nat) (gang : Bool) (n : BitVec 2),
    (s.barrierReady wg gang n = false → exec (.barrierComplete wg gang n) s = .next s) ∧
    (s.barrierReady wg gang n = true → (s.barrierWarps wg gang).Nodup → (∀ i ∈ s.barrierWarps wg gang, (s.warp i).lxst = 0) →
      ∃ t, exec (.barrierComplete wg gang n) s = .next t ∧ t = { s with warps := t.warps } ∧
        ∀ i l, t.thread i l = if i ∈ s.barrierWarps wg gang ∧ l < 32 ∧ (s.thread i l).life = .live then
          { resumed s.ac (if gang then 40 else 4) (s.thread i l) with
            fresh := if gang then max (s.thread i l).fresh (s.ac + 1) else (s.thread i l).fresh }
          else s.thread i l)) ∧
  (∀ (s : State) (wi l : Nat), s.deliverable wi l = false → exec (.trapDelivery wi l) s = .next s) ∧
  (∀ (s : State) (wi l : Nat), s.deliverable wi l = true → s.tvec wi ≠ 0 → s.ticketOf (s.warp wi).wg = none →
    ∃ t p, exec (.trapDelivery wi l) s = .next t ∧ p ∈ (s.thread wi l).pend ∧
      (∀ q ∈ (s.thread wi l).pend, p.cause.toNat ≤ q.cause.toNat) ∧
      Trapped (s.as_ wi) (s.thread wi l) (t.thread wi l) p.cause.toNat p.late p.tval (s.standingAt wi l) ∧
      (t.thread wi l).order = none ∧ (t.thread wi l).pend = (s.thread wi l).pend.erase p ∧ t.cur = s.cur ∧
      ∀ j i, (j, i) ≠ (wi, l) → t.thread j i = s.thread j i) ∧
  (∀ (s : State) (wi l : Nat), s.rollbackDue wi l = false → exec (.tryRollback wi l) s = .next s) ∧
  (∀ (s : State) (wi l : Nat) (r : Region) (a : Abort), s.rollbackDue wi l = true → (s.thread wi l).region = some r →
    (s.thread wi l).aborting = some a → ∃ t, exec (.tryRollback wi l) s = .next t ∧ t = { s with warps := t.warps } ∧
      (∀ j i, (j, i) ≠ (wi, l) → t.thread j i = s.thread j i) ∧
      (∀ code, t.reg wi l code = if r.base ≤ code ∧ code < r.base + r.regs.length ∧ code < (s.warp wi).quota ∧ code < 112 then
        r.regs.getD (code - r.base) 0 else s.reg wi l code) ∧
      t.thread wi l = { s.thread wi l with
        regs := (t.thread wi l).regs, preds := r.preds, tabc := a.code, tusr := a.user, tfa := if a.code = 5 then a.addr else (s.thread wi l).tfa
        region := none, aborting := none, order := none, hold := .none, pc := r.target, pos := 1, line := [], entered := false, notBefore := s.ac + 1 })

/-- R185, R190, R195, R196, R217, R219 and R371: the MMP installs an entry and the access that waits is performed, or unmaps a
charged page, whose unit is then free; a late frame, a handover, a return and a migration rewrite the page's entry and move
its bytes; the host grants a page or takes a translation back. Each does nothing where its condition does not hold.
The model's own readings: log 37 (page tables outside LPDDR-6 are malformed); log 43 (the answer of the MMP is an argument
of the event); log 45 (what a migration carries along); log 46 (an ATS invalidation waits while an access or an engine uses
the translation, and by a choice the host then refuses the page). -/
def Obligations.PagesAreServiced : Prop :=
  (∀ (s : State) (owner : Tag) (va : DWord) (ans : MmpAnswer), s.walk owner va = .refused → exec (.mmpFaultService owner va ans) s = .next s) ∧
  (∀ (s : State) (owner : Tag) (va : DWord) (level e : Nat), s.walk owner va = .leaf level e → pteBit e 8 = false →
    exec (.mmpFaultService owner va .refuse) s = .next s) ∧
  (∀ (s : State) (owner : Tag) (va : DWord) (level n : Nat) (es : List (Nat × DWord)), s.walk owner va = .leaf level n →
    let u := ((begin_ true s).each es (fun m e => m.physWrite e.1 (leBytes 8 e.2.toNat))).now
    (s.installs es = false ∨ u.unmapped = [] ∨ (∃ c ∈ u.unmapped, s.unmaps c = false) →
      exec (.mmpFaultService owner va (.install es)) s = .next s) ∧
    (s.installs es = true → u.unmapped ≠ [] → (∀ c ∈ u.unmapped, s.unmaps c = true ∧ c.page < 2 ^ 41) →
      ∃ t, exec (.mmpFaultService owner va (.install es)) s = .next t ∧
        ∀ c ∈ u.unmapped, ∀ d ∈ t.charged, ¬ (d.owner = c.owner ∧ d.page = c.page))) ∧
  (∀ (s : State) (owner : Tag) (va : DWord) (a : Nat) (e : DWord), s.walk owner va = .fault → s.installs [(a, e)] = true →
    let u := ((begin_ true s).physWrite a (leBytes 8 e.toNat)).now
    u.unmapped = [] →
    EntryWritten s u (physLoc a) e.toNat (fun _ => False) ∧
    ((∀ level n, u.walk owner va ≠ .leaf level n) → exec (.mmpFaultService owner va (.install [(a, e)])) s = .next s) ∧
    (∀ level n, u.walk owner va = .leaf level n → u.heldAt owner (pageNo va) = [] →
      exec (.mmpFaultService owner va (.install [(a, e)])) s = .next u) ∧
    (∀ level n o x loc pte, u.walk owner va = .leaf level n → u.heldAt owner (pageNo va) = [(o, x)] → u.op? o.id = some o →
      u.admitAccess o.warp x.priv o.memWord.acc 0 x.addr x.size true (o.kind == .atomic) = .go loc pte →
      ∃ t r, exec (.mmpFaultService owner va (.install [(a, e)])) s = .next t ∧ t.op? o.id = some r ∧
        { x with loc := some loc, pte := pte, state := .going } ∈ r.lanes)) ∧
  (∀ (s : State) (owner : Tag) (va : DWord) (frame : Option Nat), s.leaf owner va = none → exec (.lateFrame owner va frame) s = .next s) ∧
  (∀ (s : State) (owner : Tag) (va : DWord) (f level e p : Nat), s.leaf owner va = some (level, e) → s.leafPlace owner va = some p →
    s.heldAt owner (pageNo va) = [] → isLpddr (65536 * f) = true → 65536 * f / 2 ^ 46 = s.config.pkg.toNat → s.frameTaken f = false →
    s.tablesApart owner va (65536 * f) 65536 = true →
    (s.lateFull owner va e = false → exec (.lateFrame owner va (some f)) s = .next s) ∧
    (s.lateFull owner va e = true → ∃ t, exec (.lateFrame owner va (some f)) s = .next t ∧ t.lateFrames = f :: s.lateFrames ∧
      EntryWritten s t p (devEntry (s.readNat p 8) (65536 * f)) (fun loc => 65536 * f ≤ loc ∧ loc < 65536 * f + 65536) ∧
      ∀ i, i < 65536 → t.byte (65536 * f + i) = 0)) ∧
  (∀ (s : State) (owner : Tag) (va : DWord) (g : Bool), (∀ iova, s.translate owner true .read va ≠ .priFault iova) →
    exec (.priResponse owner va g) s = .next s) ∧
  (∀ (s : State) (owner : Tag) (va : DWord) (iova : Nat), s.translate owner true .read va = .priFault iova → s.heldAt owner (pageNo va) = [] →
    exec (.priResponse owner va true) s = .next { s with hostRefuses := Cells.set false s.hostRefuses (iova / 4096) false }) ∧
  (∀ (s : State) (iova : DWord) (pages : Nat),
    let uses (x : LaneOp) : Prop := x.final = false ∧ ∃ p, x.loc = some p ∧ hostLoc (iova.toNat / 4096 * 4096) ≤ p ∧
      p < hostLoc (iova.toNat / 4096 * 4096) + 4096 * pages
    let within (p : Nat) : Bool := decide (iova.toNat / 4096 ≤ p) && decide (p < iova.toNat / 4096 + pages)
    ((∃ o ∈ s.ops, ∃ x ∈ o.lanes, 0 < x.size ∧ uses x) → exec (.atsInvalidation iova pages) s = .next s) ∧
    ((∃ g ∈ s.pins, g.1 < hostLoc (iova.toNat / 4096 * 4096) + 4096 * pages ∧ hostLoc (iova.toNat / 4096 * 4096) < g.1 + 65536) →
      exec (.atsInvalidation iova pages) s = .next s) ∧
    (s.still (hostLoc (4096 * (iova.toNat / 4096))) (4096 * pages) = true → ∃ t, exec (.atsInvalidation iova pages) s = .next t ∧
      t = { s with atc := t.atc, hostRefuses := t.hostRefuses, choices := s.choices.tail } ∧
      (∀ p, Cells.get false t.hostRefuses p = (Cells.get false s.hostRefuses p || (s.choice && within p))) ∧
      ∀ p, Cells.get false t.atc p = (Cells.get false s.atc p && !within p))) ∧
  (∀ (s : State) (owner : Tag) (va : DWord) (writes : List (Nat × Byte)) (frame : Nat), s.leaf owner va = none →
    exec (.pagexHandover owner va) s = .next s ∧ exec (.pagexReturn owner va writes) s = .next s ∧
    exec (.devFrameMigration owner va frame) s = .next s) ∧
  (∀ (s : State) (owner : Tag) (va : DWord) (level e p : Nat), s.leaf owner va = some (level, e) → s.leafPlace owner va = some p →
    pteKind e = 0 → pteOwner e = owner.toNat →
    let size := 2 ^ levelShift level
    let frame (base loc : Nat) : Prop := base ≤ loc ∧ loc < base + size
    ((s.still (pteFrame e) size = false ∨ pteBit e 8 = true ∨ s.config.applied = false ∨ s.config.mailbox = true) →
      exec (.pagexHandover owner va) s = .next s) ∧
    (s.still (pteFrame e) size = true → pteBit e 8 = false → s.config.applied = true → s.config.mailbox = false →
      s.tablesApart owner va (pteFrame e) size = true → ∃ t, exec (.pagexHandover owner va) s = .next t ∧ EntryWritten s t p (s.readNat p 8 + 256) (fun _ => False) ∧
        ∀ n ∈ linesOf (pteFrame e) size, (Cells.get CacheLine.absent t.l2 n).held = false ∧
          (Cells.get CacheLine.absent t.sc n).held = false) ∧
    (pteBit e 8 = false → ∀ ws, exec (.pagexReturn owner va ws) s = .next s) ∧
    (pteBit e 8 = true → s.heldAt owner (pageNo va) = [] → ∀ i b, i < size →
      let q := physLoc (pteFrame e + i)
      s.tablesApart owner va q 1 = true → ∃ t, exec (.pagexReturn owner va [(i, b)]) s = .next t ∧ t.byte q = b ∧
        EntryWritten s t p (s.readNat p 8 - 256) (fun loc => loc = q)) ∧
    (∀ f, s.still (pteFrame e) size = false → exec (.devFrameMigration owner va f) s = .next s) ∧
    (∀ f, s.still (pteFrame e) size = true → pteBit e 8 = false → 65536 * f % size = 0 → isLpddr (65536 * f) = true →
      isLpddr (65536 * f + size - 1) = true → 65536 * f / 2 ^ 46 = s.config.pkg.toNat → 65536 * f ≠ pteFrame e →
      (∀ i, i < size / 65536 → s.frameTaken (f + i) = false) →
      s.heldAt owner (pageNo va) = [] → s.tablesApart owner va (65536 * f) size = true →
      ∃ t, exec (.devFrameMigration owner va f) s = .next t ∧
        EntryWritten s t p (s.readNat p 8 - bits (s.readNat p 8) 51 16 * 65536 + 65536 * f) (frame (65536 * f)) ∧
        ∀ i, i < size → t.byte (65536 * f + i) = s.byte (physLoc (pteFrame e) + i)))

/-- R58, R252, R264, R265 and R267: a word whose guard is false in every thread passes, counted for one ac where it is
long-latency; a word that R252 names aborts the regions of its threads with ILLEGAL; a queue access that would be held holds
its group, or with QNB sets the predicate; a push past the quota traps. -/
def Obligations.WordsPassHoldAbortOrTrap : Prop :=
  ∀ (i : Instr) (s : State), framed i →
  (s.performers i = [] → (counts i = false → exec i s = .next s) ∧
    (counts i = true → ∃ t, exec i s = .next t ∧ PassedOver s t i (fun _ u => u) ∧ t.scheds = s.scheds)) ∧
  (s.performers i ≠ [] → (∀ l ∈ s.performers i, s.regionStops i l = true ∧ (s.thread s.cur.warp l).region.isSome = true ∧
      (s.thread s.cur.warp l).aborting = none) →
    ∃ t, exec i s = .next t ∧ PassedOver s t i (fun l u => if l ∈ s.performers i then
      { u with
        region := u.region.map (fun r => { r with reads := [], buffer := [], places := [] }), order := none
        aborting := some { code := 8, user := 0, addr := 0, decided := s.ac }, hold := .rollback (s.ac + 8) } else u)) ∧
  (s.performers i ≠ [] → (∀ l ∈ s.performers i, s.regionStops i l = false) →
    (qnbOf s.cur.pfx = none → s.queueHeld i = true →
      ∃ t, exec i s = .next t ∧ ThreadsOnly s t ∧ t.cur = { s.cur with stay := s.cur.lanes } ∧
        ∀ l, l < (s.warp s.cur.warp).threads.length →
          t.thread s.cur.warp l = if l ∈ s.cur.lanes then s.cur.thread l else s.thread s.cur.warp l) ∧
    (∀ qp, qnbOf s.cur.pfx = some qp →
      (s.queueHeld i = true ∨ (s.pushed i).any (fun x => s.pushFaults s.cur.warp (x - 112)) = true) →
      ∃ t, exec i s = .next t ∧ ThreadsOnly s t ∧ t.cur = s.cur ∧ PredResult s t i qp (fun _ => true)) ∧
    (∀ q, qnbOf s.cur.pfx = none → s.queueHeld i = false → (s.pushed i).find? (fun x => s.pushFaults s.cur.warp (x - 112)) = some q →
      (∀ l ∈ s.performers i, s.handles l) →
      ∃ t, exec i s = .next t ∧ ThreadsOnly s t ∧ ∀ l, l < (s.warp s.cur.warp).threads.length →
        (l ∈ s.performers i →
          Trapped s (s.cur.thread l) (t.thread s.cur.warp l) 0x07 false (BitVec.ofNat 32 (q - 112)) s.cur.chainAddr) ∧
        (l ∉ s.performers i → t.thread s.cur.warp l = s.thread s.cur.warp l)) ∧
    (∀ qp c d b, i = .mov c d b → qnbOf s.cur.pfx = some qp → qp < 7 → s.queueHeld i = false →
      (s.pushed i).any (fun x => s.pushFaults s.cur.warp (x - 112)) = false →
      ∃ t, exec i s = .next t ∧ (∀ l ∈ s.performers i, l < (s.warp s.cur.warp).threads.length →
        readPred (t.thread s.cur.warp l) qp = false) ∧
        ∀ l, s.lands i l d.toNat → t.reg s.cur.warp l d.toNat = s.source l b.toNat))

/-- R391, R434 and R436: right after reset every owner-table entry has no VF, an EMPTY slot, PTBASE 0 and UCAP 0; every
Market granule is UNASSIGNED; every cache, core-local memory, queue, accumulator, instance, graph and group is clear; hmode,
pkg and domsz are to be configured; no semaphore is held; bring-up stands in its first phase.
The model's own readings: log 1 (what the agenda holds at reset). -/
def Obligations.ResetIsAsTheSpecStates : Prop :=
  let s := State.reset
  (∀ tag, (s.owner tag).kstate = .empty ∧ (s.owner tag).vf = none ∧ (s.owner tag).ptbase = 0 ∧ (s.owner tag).ucap = [0, 0, 0, 0]) ∧
  (∀ g, Cells.get 0 s.mktTag g = 0) ∧ (∀ k, s.tile k = 0) ∧ (∀ loc, 2 ^ 80 ≤ loc → s.byte loc = 0) ∧
  s.l1 = [] ∧ s.l2 = [] ∧ s.sc = [] ∧ s.dups = [] ∧ s.signalled = [] ∧ s.tlb = [] ∧ s.icache = [] ∧ s.warps = [] ∧ s.scheds = [] ∧ s.insts = [] ∧ s.graphs = [] ∧
  s.groups = [] ∧ s.config.applied = false ∧ s.config.mailbox = false ∧ s.config.pkg = 0 ∧ s.config.domsz = 0 ∧
  s.semaphores = List.replicate 16 none ∧ s.boot.phase = 1 ∧ s.boot.ready = false ∧ s.boot.safe = false ∧ s.agenda = [.powerOn]

/-- Reset storage is canonical. -/
def Obligations.ResetIsCanonical : Prop := State.reset.canonical = true

/-- The package never stops, and every step keeps every storage in its canonical form.
The model's own readings: log 84 (no step ends in a fault or a refusal). -/
def Obligations.StepsNeverStopAndStayCanonical : Prop :=
  ∀ s : State, ∃ t, step s = .next t ∧ (s.canonical = true → t.canonical = true)

/-- No word of a program changes what management holds: time, bring-up, configuration, owner table, keys, virtual functions,
Market owner tags, decoders, semaphores. -/
def Obligations.WordsLeaveManagementAlone : Prop :=
  ∀ (i : Instr) (s : State), isWord i = true → ∃ t, exec i s = .next t ∧ SameManaged s t

/-- R17, R19, R20, R22, R74 and R361: a line that a thread enters holds the words of memory; the bundle of a thread is the word
at which it stands, with its prefix word; a latched bundle runs its words in order, each by exec, undoes itself where a word
holds the group, and runs without the threads that a precise trap takes out of it; events move before turns.
The model's own readings: log 2 (the order in which agents move); log 25 (what a fetched line with an error holds). -/
def Obligations.StepsRunTheDecodedWord : Prop :=
  (∀ (s : State) (wi l ix loc x y z : Nat), l < (s.warp wi).threads.length →
    packetIx (s.thread wi l).pc = some ix → s.fetchPlace wi (s.thread wi l).priv (s.thread wi l).pc = .ok loc x y z →
    (∀ c ∈ s.icache, ¬ (c.core = (s.warp wi).core ∧ c.loc = loc - loc % 64)) → s.lineFault (s.ownerOf wi) (loc - loc % 64) = false →
    lineFailure (s.lineWords (loc - loc % 64)) = none → ix < headerNpk (wordAt (s.lineWords (loc - loc % 64)) 0) →
    midChain (s.lineWords (loc - loc % 64)) ix (s.thread wi l).pos = false →
    (((begin_ false s).fetchLine wi l).now.thread wi l).line = s.lineWords (loc - loc % 64)) ∧
  (∀ (t : Thread) (ix : Nat) (i : Instr), packetIx t.pc = some ix → 1 ≤ t.pos → t.pos ≤ 3 →
    (t.pos = 1 ∨ isPfx (wordAt t.line (3 * ix + t.pos - 1)) = false) →
    let w := wordAt t.line (3 * ix + t.pos)
    (decodeWord w = .ok i → bitC w = false → isPfx w = false → w.toNat % 2 ^ 31 ≠ 0 →
      nextBundle t = { chain := t.pos, slots := [{ ins := i, pfx := .none, pos := t.pos }], after := t.pos + 1, nopOnly := false }) ∧
    (∀ p, t.pos ≤ 2 → isPfx w = true → parsePfx w = some p →
      let x := wordAt t.line (3 * ix + t.pos + 1)
      decodeWord x = .ok i → bitC x = false → isPfx x = false →
      nextBundle t = { chain := t.pos, slots := [{ ins := i, pfx := p, pos := t.pos + 1 }], after := t.pos + 2, nopOnly := false })) ∧
  (∀ (s t : State) (x : Slot), s.bundle = [x] → exec x.ins { s with bundle := [], cur := s.cur.at_ x } = .next t →
    (t.cur.stay ≠ [] → step s = .next (closeBundle s.cur.lanes (begin_ false { s with bundle := [] }).stayAll.now)) ∧
    (t.cur.stay = [] → t.cur.traps = [] → step s = .next (closeBundle s.cur.lanes t)) ∧
    (t.cur.stay = [] → t.cur.traps ≠ [] →
      let left := s.cur.lanes.filter (fun l => !t.cur.traps.any (fun p => p.1 == l))
      (left = [] → step s = .next (closeBundle s.cur.lanes (takeAll t.cur.traps { s with bundle := [] }))) ∧
      (∀ u, left ≠ [] → exec x.ins { s with bundle := [], cur := { s.cur.at_ x with lanes := left } } = .next u →
        u.cur.stay = [] → u.cur.traps = [] → step s = .next (closeBundle s.cur.lanes (takeAll t.cur.traps u))))) ∧
  (∀ (s t u : State) (x y : Slot), s.bundle = [x, y] → exec x.ins { s with bundle := [], cur := s.cur.at_ x } = .next t →
    t.cur.stay = [] → exec y.ins { t with cur := t.cur.at_ y } = .next u →
    (u.cur.stay = [] → u.cur.traps = [] → step s = .next (closeBundle s.cur.lanes u)) ∧
    (u.cur.stay ≠ [] → step s = .next (closeBundle s.cur.lanes (begin_ false { s with bundle := [] }).stayAll.now))) ∧
  (∀ (s : State) (i : Instr) (rest : List Instr), s.bundle = [] → s.agenda = i :: rest → step s = exec i { s with agenda := rest }) ∧
  (∀ (s : State) (sc : Nat) (rest : List Nat), s.bundle = [] → s.agenda = [] → s.turns = sc :: rest →
    (∀ p, s.toDeliver sc = some p → step s = exec (.trapDelivery p.1 p.2) s) ∧
    (∀ v, s.toDeliver sc = none → exec (.schedulerIssue sc) { s with turns := rest } = .next v →
      step s = if v.bundle = [] then .next v else step v))

/-- The words that the spec writes out decode to the instructions that it writes them for. -/
def Obligations.SpecWordsDecode : Prop := ∀ p ∈ specWords, decodeTableWord 32 p.1 = some p.2

/-- R53–R73: every well-formed word decodes to itself, with every operand at every value that its encoding admits. -/
def Obligations.DecodeAndEncodeAgree : Prop :=
  ∀ i : Instr, isWord i = true → i.wellFormed = true → decodeWord (encode i) = .ok i

/-- R263, R266, R267, R273, R274, R369 and R445: an engine takes the command at the head of its port; a command that is decided
signals its flag (R212) and posts its result, holds it, or delivers its error; entries of an INBOX arrive, ring entries move
to the hardware, and an MBOUT queue drains into the outbox. Where its condition does not hold, the event changes nothing.
The model's own readings: log 47 (a result that is held does not hold its flag). -/
def Obligations.QueuesMove : Prop :=
  (∀ (s : State) (wi : Nat) (q : BitVec 4), s.receivable wi q.toNat = false → exec (.commandReceive wi q) s = .next s) ∧
  (∀ (s : State) (wi : Nat) (q : BitVec 4), s.receivable wi q.toNat = true →
    let c := s.received wi q.toNat
    ((c.port = 1 ∨ c.port = 3 ∨ c.port = 4) → ∃ t, exec (.commandReceive wi q) s = .next t ∧
      Received s t wi q.toNat (s.cmds ++ [c]) s.groups) ∧
    (c.port = 2 → c.status = none → 3 ≤ c.op → (∀ e ∈ s.cmds, e.id ≠ s.nextId) → ∃ t, exec (.commandReceive wi q) s = .next t ∧
      Received s t wi q.toNat (s.cmds.filter (fun e => e.status.isSome) ++ [{ c with status := some 1 }] ++
        s.cmds.filter (fun e => e.status.isNone)) s.groups) ∧
    (∀ g r, c.port = 5 → c.status = none → fabricBad c = false → s.group? c.gid = some g → g.owner = s.ownerOf wi →
      g.rank s.config.pkg = some r → g.broken = false → g.ring = false → (∀ e ∈ s.cmds, e.id ≠ s.nextId) →
      ∃ t, exec (.commandReceive wi q) s = .next t ∧ Received s t wi q.toNat (s.cmds ++ [{ c with group := some (c.gid, g.next) }])
        (Keyed.put s.groups c.gid.toNat { g with next := g.next + 1 }))) ∧
  (∀ (s : State) (cmd : Nat), (s.cmd? cmd = none ∨ ∃ c, s.cmd? cmd = some c ∧ c.status = none) → exec (.resultPost cmd) s = .next s) ∧
  (∀ (s : State) (c : Cmd) (st : Nat), s.cmd? c.id = some c → c.status = some st → c.pins.Nodup →
    let left := s.cmds.filter (fun e => e.id != c.id)
    (c.res = false → st = 0 → ∃ t, exec (.resultPost c.id) s = .next t ∧ Posted s t c left (s.warp c.warp) ∧ t.nextId = s.nextId) ∧
    (c.res = true → s.resultReg c.warp c.port = none →
      ∃ t, exec (.resultPost c.id) s = .next t ∧ Posted s t c left (s.warp c.warp) ∧ t.nextId = s.nextId) ∧
    (s.postable c = false → ∃ t, exec (.resultPost c.id) s = .next t ∧ t.nextId = s.nextId ∧
      Posted s t c (s.cmds.map (fun e => if e.id = c.id then
        { e with pins := [], owned := [], flag := if c.flag.isSome then none else e.flag } else e)) (s.warp c.warp)) ∧
    (∀ q, c.res = true → s.resultReg c.warp c.port = some q → s.postable c = true →
      let b := (s.warp c.warp).queue q
      (b.hw.length < 8 → b.ring = [] → ∃ t, exec (.resultPost c.id) s = .next t ∧ t.nextId = s.nextId + 1 ∧
        Posted s t c left ((s.warp c.warp).setQueue q { b with hw := b.hw ++ [c.entry s q] })) ∧
      ((8 ≤ b.hw.length ∨ b.ring ≠ []) → ∃ t, exec (.resultPost c.id) s = .next t ∧ t.nextId = s.nextId + 1 ∧
        (t.warp c.warp).queue q = { b with ring := b.ring ++ [(b.nextK, c.entry s q)], nextK := b.nextK + 1 } ∧
        ∀ loc x y z, s.translate (s.ownerOf c.warp) false .write (b.base + BitVec.ofNat 64 (256 * (b.nextK % b.qs))) = .ok loc x y z →
          t.bytes loc 256 = slotBytes 15 c.resultWords)) ∧
    (c.res = false → st ≠ 0 → (lanesOf c.mask).find? (fun l => (s.thread c.warp l).life == .live) = none →
      ∃ t, exec (.resultPost c.id) s = .next t ∧ t.cmds = left) ∧
    (∀ l, c.res = false → st ≠ 0 → (lanesOf c.mask).find? (fun l => (s.thread c.warp l).life == .live) = some l →
      ∃ t, exec (.resultPost c.id) s = .next t ∧ t.nextId = s.nextId ∧ Posted s t c left ((s.warp c.warp).mod l (fun u =>
        { u with pend := u.pend ++ [{ cause := 0x0D, late := false, tval := engineTval st c.port c.tag, pc := 0, va := 0 }] })))) ∧
  (∀ (s : State) (wi : Nat) (q : BitVec 4),
    let b := (s.warp wi).queue q.toNat
    (b.kind ≠ 8 → exec (.peerDeliver wi q) s = .next s) ∧
    (b.kind = 8 → b.ring = [] → exec (.peerDeliver wi q) s = .next (s.withQueue wi q.toNat { b with hw := b.hw.map s.arrived })) ∧
    (b.kind = 8 → ∃ t, exec (.peerDeliver wi q) s = .next t ∧ (t.warp wi).queue q.toNat =
      { b with hw := b.hw.map s.arrived, ring := b.ring.map (fun p => (p.1, s.arrived p.2)) }) ∧
    ((b.ring = [] ∨ 8 ≤ b.hw.length) → exec (.awningRefill wi q) s = .next s) ∧
    (∀ n e rest, b.ring = (n, e) :: rest → b.hw.length < 8 → exec (.awningRefill wi q) s = .next (s.withQueue wi q.toNat
      { b with hw := b.hw ++ [if e.written = true ∧ b.qs ≠ 0 then s.readSlot (s.ownerOf wi) b n e else e], ring := rest }))) ∧
  (∀ (s : State) (wi : Nat) (q : BitVec 4), s.outReady wi q.toNat = false → exec (.outboxWrite wi q) s = .next s) ∧
  (∀ (s : State) (wi : Nat) (q : BitVec 4), s.outReady wi q.toNat = true →
    let b := (s.warp wi).queue q.toNat
    let f := 2 + (s.launchOf wi).vf.toNat
    let r := (s.box f).ring 3
    let place := hostLoc (r.addr + 256 * (r.prod.toNat % r.count))
    (s.box f).rings.length = 4 → ∃ t v, exec (.outboxWrite wi q) s = .next t ∧
      t = { s.withQueue wi q.toNat { b with hw := b.hw.tail } with mem := t.mem, boxes := t.boxes, irqs := s.irqs ++ [v] } ∧
      v.1 = .vf (s.launchOf wi).vf ∧ (∀ x, Keyed.find s.vfs (s.launchOf wi).vf.toNat = some x → v.2 = x.desc.irq.toNat) ∧
      (∀ j, j ≠ f → t.box j = s.box j) ∧
      t.box f = { s.box f with outIndex := (s.box f).outIndex + 1, rings := (s.box f).rings.set 3 { r with prod := r.prod + 1 } } ∧
      (∀ loc, ¬ (place ≤ loc ∧ loc < place + 256) → t.byte loc = s.byte loc) ∧
      t.bytes place 256 = s.outEntry wi q.toNat (s.headEntry wi q.toNat) (s.box f).outIndex)

/-- R275, R276, R286, R297, R299, R305, R306, R307 and R350: the copy engine, the matrix sequencer, the draw engine and the
feature engine carry out the commands that they have received. An event that meets no command of its own changes nothing.
The model's own readings: log 12 (engines have no rates); log 28 (a malformed DRAW command answers 0xFFFFFFFF in result word
3); log 47 (what a copy does with refused, waiting and faulty rows); log 48 (when operand bytes are read); log 62 (when the
row range of a tap is checked); log 63 (the STATUS of a FEATURE command); log 98 (its pins and the bytes that it writes);
log 95 (the room for pins). -/
def Obligations.EnginesCarryOutCommands : Prop :=
  (∀ (s : State) (cmd : Nat), s.cmd? cmd = none →
    exec (.copy cmd) s = .next s ∧ exec (.copyZero cmd) s = .next s ∧ exec (.drawDsel cmd) s = .next s ∧
    exec (.featureTap cmd) s = .next s ∧ ∀ p ∈ matrixCommands cmd, exec p.1 s = .next s) ∧
  (∀ (s : State) (c : Cmd), s.cmd? c.id = some c →
    (∀ e ∈ [((.copy c.id : Instr), 0), (.copyZero c.id, 1)],
      ((c.port ≠ 1 ∨ c.status.isSome = true ∨ (c.op ≠ e.2 ∧ ¬ (e.2 = 0 ∧ 1 < c.op))) → exec e.1 s = .next s) ∧
      (c.port = 1 → c.status = none → (c.op = e.2 ∨ (e.2 = 0 ∧ 1 < c.op)) →
        (copyOf c = none → exec e.1 s = .next { s with cmds := s.decided c 1 0 0 0 }) ∧
        (∀ d, copyOf c = some d → .refused ∈ s.copyChecks c d → exec e.1 s = .next { s with cmds := s.decided c 2 0 0 0 }) ∧
        (∀ d, copyOf c = some d → .refused ∉ s.copyChecks c d → c.begun = false →
          let ps := s.chargesOf c.warp d.dstSp d.dst d.dstride d.rows d.len
          let pins := (pagesOfPlaces d.srcSp (s.copyFrom c d) ++ pagesOfPlaces d.dstSp (s.copyTo c d)).eraseDups
          (anyWaits (s.copyChecks c d) = true → exec e.1 s = .next s) ∧
          (anyWaits (s.copyChecks c d) = false → s.unitsCover (s.ownerOf c.warp) ps = false →
            exec e.1 s = .next (if s.unitsWait (s.ownerOf c.warp) ps = true then s else { s with cmds := s.decided c 3 0 0 0 })) ∧
          (anyWaits (s.copyChecks c d) = false → s.unitsCover (s.ownerOf c.warp) ps = true →
            (s.pinRoom pins = false ∨ s.writable (some c.id) (s.copyTo c d) = false) → exec e.1 s = .next s) ∧
          (anyWaits (s.copyChecks c d) = false → s.unitsCover (s.ownerOf c.warp) ps = true → s.pinRoom pins = true →
            s.writable (some c.id) (s.copyTo c d) = true → s.blockHolds c.id (s.copyTo c d) = false →
            (d.dstSp = 0 → ∀ r < d.rows, s.moving (s.ownerOf c.warp) (rowAddr d.dst d.dstride r) d.len = false) →
            (∀ w ∈ s.warps, ∀ l < 32, ∀ r, (s.thread w.1 l).region = some r → ∀ x ∈ r.reads, x ∉ ((s.copyTo c d).filter isGeneric).map lineOf) →
            ∃ t, exec e.1 s = .next t ∧
            t = { s with
              charged := ps.map (fun p => { owner := s.ownerOf c.warp, page := p.1, die := p.2.1 }) ++ s.charged
              pins := t.pins
              cmds := s.cmds.map (fun x => if x.id = c.id then
                { x with pins := pins, owned := (((s.copyTo c d).filter isGeneric).map lineOf).eraseDups, begun := true } else x) } ∧
            ∀ p, Cells.get 0 t.pins p = Cells.get 0 s.pins p + if p ∈ pins then 1 else 0)) ∧
        (∀ d, copyOf c = some d → .refused ∉ s.copyChecks c d → c.begun = true → s.choices = [] →
          (d.rows = 1 ∨ (d.dstSp ≠ 0 ∧ (d.zero = true ∨ d.srcSp ≠ 0))) → (s.copyTo c d).Nodup →
          (∀ r, r < d.rows → (s.rowPlaces c.warp .write d.dstSp d.dst d.dstride d.len r).length = d.len ∧
            (d.zero = true ∨ (s.rowPlaces c.warp .read d.srcSp d.src d.sstride d.len r).length = d.len)) →
          (∀ p ∈ s.copyTo c d ++ s.copyFrom c d, s.lineFault (s.ownerOf c.warp) p = false) →
          ∃ t, exec e.1 s = .next t ∧ t.cmds = s.decided c 0 (d.rows * d.len) 0 0 ∧
            (∀ loc, t.byte loc = (laid (s.copyTo c d)
              (if d.zero then List.replicate (d.rows * d.len) 0 else (s.copyFrom c d).map s.byte) loc).getD (s.byte loc)) ∧
            ∀ g, t.full g = (s.full g || (d.fe && ((s.copyTo c d).map granuleOf).contains g))))) ∧
    (∀ p ∈ matrixCommands c.id,
      ((c.port ≠ 2 ∨ c.status.isSome = true ∨ c.op ≠ p.2.2.1 ∨ ∃ q ∈ s.mops, q.src = .cmd c.id) → exec p.1 s = .next s) ∧
      (c.port = 2 → c.status = none → c.op = p.2.2.1 → (∀ q ∈ s.mops, q.src ≠ .cmd c.id) →
        let bad := bits (wordAt c.words 0).toNat 27 23 ≠ 0 ∨ bits (wordAt c.words 0).toNat 21 20 ≠ 0 ∨ c.mask &&& p.2.2.2 ≠ p.2.2.2
        (bad → exec p.1 s = .next { s with cmds := s.decided c 1 0 0 0 }) ∧
        (¬ bad → exec p.1 s = .next { s with nextId := s.nextId + 1, mops := s.mops ++ [s.mopOf c p.2.1] }))) ∧
    ((c.port ≠ 4 ∨ c.status.isSome = true) → exec (.drawDsel c.id) s = .next s) ∧
    (c.port = 4 → c.status = none →
      let w0 := (wordAt c.words 0).toNat
      let v := (List.range 8).map (fun i => wordAt c.words (i + 1))
      ((bits w0 31 23 ≠ 0 ∨ bits w0 21 20 ≠ 0 ∨ c.mask &&& 0x1FF ≠ 0x1FF) →
        exec (.drawDsel c.id) s = .next { s with cmds := s.decided c 1 0 0 0xFFFFFFFF }) ∧
      (bits w0 31 23 = 0 → bits w0 21 20 = 0 → c.mask &&& 0x1FF = 0x1FF →
        ((s.drawWaits (s.warp c.warp).core c.id 0 = true ∨ s.draw c.warp false v = none) → exec (.drawDsel c.id) s = .next s) ∧
        (∀ st ix nan, s.drawWaits (s.warp c.warp).core c.id 0 = false → s.draw c.warp false v = some (st, ix, nan) → ∃ t,
          exec (.drawDsel c.id) s = .next t ∧
          t = { s with cmds := s.decided c st 0 (if nan then 1 else 0) ix.toNat, scheds := t.scheds }))) ∧
    ((c.port ≠ 3 ∨ c.status.isSome = true) → exec (.featureTap c.id) s = .next s) ∧
    (c.port = 3 → c.status = none →
      let v := (List.range 8).map (fun i => wordAt c.words (i + 1))
      (c.mask &&& 0x1FF ≠ 0x1FF → exec (.featureTap c.id) s = .next { s with cmds := s.decided c 1 0 0 0 }) ∧
      (c.mask &&& 0x1FF = 0x1FF → ∀ p, s.taps.find? (fun p => p.cmd == some c.id) = some p →
        (p.todo ≠ [] → exec (.featureTap c.id) s = .next s) ∧
        (p.todo = [] → exec (.featureTap c.id) s = .next { s with
          taps := s.taps.filter (fun q => q.id != p.id), cmds := s.decided c 0 p.bytes (p.ntrap % 32768) p.nruled })) ∧
      (c.mask &&& 0x1FF = 0x1FF → s.taps.find? (fun p => p.cmd == some c.id) = none →
        (∀ n, s.tapAnswer c.warp v = .status n → exec (.featureTap c.id) s = .next { s with cmds := s.decided c n 0 0 0 }) ∧
        (s.tapAnswer c.warp v = .waits → exec (.featureTap c.id) s = .next s) ∧
        (∀ i x d ws rows, s.tapAnswer c.warp v = .go i x d ws rows →
          let pages := s.pagesIn (s.ownerOf c.warp) (tapRanges v d)
          (s.pinRoom pages = false → exec (.featureTap c.id) s = .next s) ∧
          (s.pinRoom pages = true → (∀ r ∈ rows, ∀ y, s.rowOn x r = some y → s.ruled x y.2.1 d.tap = some true) → ∃ t,
            exec (.featureTap c.id) s = .next t ∧ t = { s with
              nextId := s.nextId + 1
              pins := t.pins
              cmds := s.cmds.map (fun e => if e.id = c.id then { e with pins := pages } else e)
              taps := s.taps ++ [{ id := s.nextId, inst := i, owner := s.ownerOf c.warp, desc := ws, buf := cat64 (wordAt v 3) (wordAt v 2)
                                   stride := (wordAt v 4).toNat, vector := (wordAt v 6).toNat, todo := rows, ntrap := 0, nruled := 0
                                   bytes := 0, op := none, cmd := some c.id }] } ∧
            ∀ p, Cells.get 0 t.pins p = Cells.get 0 s.pins p + if p ∈ pages then 1 else 0))))) ∧
  (∀ (s : State) (mop i : Nat), s.mop? mop = none →
    exec (.rowGroupTake mop i) s = .next s ∧ exec (.matrixOpComplete mop) s = .next s) ∧
  (∀ (s : State) (q : Mop) (i : Nat), s.mop? q.id = some q →
    (q.waits = false → s.takes q i = false → q.open_ i = false → exec (.rowGroupTake q.id i) s = .next s) ∧
    (s.takes q i = true → q.seen = [] → q.done.contains i = false → (∀ g ∈ q.gates, g.1 / 16 ≠ i) →
      let p := productOf q.ctl q.block
      let gates := q.gates ++ (List.range 16).map (fun r => (16 * i + r, s.gateOf p (16 * i + r)))
      let q' := { q with taken := q.taken ++ [i], gates := gates }
      let wg := (s.warp q.warp).wg
      let owner := s.ownerOf q.warp
      let a (r : Nat) : List FVal := (List.range (32 * p.steps)).map (rowElem p.af p.a ((s.rowLocs wg owner p.a r p.aBytes).map s.byte))
      let b (x : Nat) : List (Option FVal) :=
        (List.range (32 * p.steps)).map (sparseElem p.bf p.b ((s.rowLocs wg owner p.b x p.bBytes).map s.byte) x)
      s.readable q' i = true → (∀ n ∈ (s.toRead q' i).2.2, isCxlLine n = false ∧ s.lineFault owner (128 * n) = false) →
      ∃ t, exec (.rowGroupTake q.id i) s = .next t ∧
        t = { s with mops := t.mops, tiles := t.tiles, fe := t.fe, scheds := t.scheds } ∧
        (∀ r x, r ∈ s.openRows p i → x < p.n → t.tile (q.key r x) = kSteps p.steps (if p.zero then 0 else s.tile (q.key r x)) (a r) (b x)) ∧
        (∀ k, (∀ r x, r ∈ s.openRows p i → x < p.n → k ≠ q.key r x) → t.tile k = s.tile k) ∧
        (p.a.fem ≠ 2 → p.b.fem ≠ 2 → t.fe = s.fe) ∧
        ∃ u, t.mop? q.id = some u ∧ u.taken = q.taken ++ [i] ∧ u.gates = gates ∧ u.done = q.done ++ [i] ∧ u.status = q.status) ∧
    (s.completes q = false → exec (.matrixOpComplete q.id) s = .next s) ∧
    (∀ id, s.completes q = true → q.src = .word id → ∃ t, exec (.matrixOpComplete q.id) s = .next t ∧
      t.mops = s.mops.filter (fun p => p.id != q.id)) ∧
    (∀ c, s.completes q = true → q.src = .cmd c.id → s.cmd? c.id = some c → q.pins.Nodup →
      let left := s.mops.filter (fun p => p.id != q.id)
      let skips := (q.gates.filter (fun g => g.2 == 2)).length
      (q.what = .product → q.status ≠ 4 → ∃ t, exec (.matrixOpComplete q.id) s = .next t ∧
        t = { s with mops := left, cmds := s.decided c q.status 0 q.taken.length skips, pins := t.pins, scheds := t.scheds }) ∧
      (q.what = .zero → ∃ t, exec (.matrixOpComplete q.id) s = .next t ∧
        t = { s with mops := left, cmds := s.decided c q.status 0 0 skips, pins := t.pins, tiles := t.tiles } ∧
        let first := bits q.ctl.toNat 5 0
        ∀ k, t.tile k = if q.status = 0 ∧ tileKey q.sched first 0 0 ≤ k ∧
          k < tileKey q.sched (first + bits q.ctl.toNat 11 6 + 1) 0 0 then 0 else s.tile k) ∧
      (q.what = .drainLocal → q.status ≠ 0 → ∃ t, exec (.matrixOpComplete q.id) s = .next t ∧
        t = { s with mops := left, cmds := s.decided c q.status 0 0 skips, pins := t.pins }) ∧
      (q.what = .drainLocal → q.status = 0 →
        let rows := 16 * (bits q.ctl.toNat 9 6 + 1)
        let cols := 16 * (bits q.ctl.toNat 13 10 + 1)
        let size := drainSize q.ctl
        let base (r : Nat) : Nat := localLoc (s.warp q.warp).wg ((wordAt q.args 0).toNat + r * (wordAt q.args 1).toNat)
        let key (r x : Nat) : Nat := tileKey q.sched (bits q.ctl.toNat 5 0 + r / 16 * (cols / 16) + x / 16) (r % 16) (x % 16)
        (∀ r r', r < rows → r' < rows → r ≠ r' → base r + size * cols ≤ base r' ∨ base r' + size * cols ≤ base r) →
        ∃ t, exec (.matrixOpComplete q.id) s = .next t ∧
          t = { s with mops := left, cmds := s.decided c 0 (size * rows * cols) 0 skips, pins := t.pins, mem := t.mem, tiles := t.tiles, fe := t.fe } ∧
          (∀ r x i, r < rows → x < cols → i < size →
            t.byte (base r + size * x + i) = (leBytes size (drainBits q.ctl (s.tile (key r x)))).getD i 0) ∧
          ∀ loc, (∀ r, r < rows → ¬ (base r ≤ loc ∧ loc < base r + size * cols)) → t.byte loc = s.byte loc)))

/-- R418–R425, R429 and R430: collectives end with the STATUS that the parts of their members give; a revolution closes, or is
abandoned with its pending collectives LOST; a member that leaves breaks its groups; a replicated launch is queued by every
member and started by its barrier; flits are counted; accesses of other packages are performed. Where its condition does not
hold, the event changes nothing.
The model's own readings: log 80 (which fields of a collective are compared, and its STATUS); log 81 (what UNGROUP and the
end of a revolution leave); log 82 (a second replicated launch waits for the start barrier); log 83 (what other packages do
arrives as data of the event); log 95 (the room for pins); log 96 (where a retry counts). -/
def Obligations.FabricMoves : Prop :=
  (∀ (s : State) (id : Nat) (ps : List PeerPart),
    (s.cmd? id = none ∨ ∃ c, s.cmd? id = some c ∧ (c.status ≠ none ∨ c.group = none)) → ∀ e ∈ collectives id ps, exec e.1 s = .next s) ∧
  (∀ (s : State) (c : Cmd) (gid : BitVec 8) (k rank : Nat) (g : Group) (ps : List PeerPart), s.cmd? c.id = some c → c.status = none →
    c.group = some (gid, k) → s.group? gid = some g → g.rank s.config.pkg = some rank → k ∉ g.numbered → ∀ e ∈ collectives c.id ps,
    let n := g.members.length
    let pages := s.pagesIn (s.ownerOf c.warp) (s.collRanges c n)
    let c' := if c.begun = true then c else { c with pins := pages, begun := true }
    let pinned (t : State) : Prop := ∀ p, Cells.get 0 t.pins p = Cells.get 0 s.pins p + if c.begun = false ∧ p ∈ pages then 1 else 0
    ((c.op ≠ e.2 ∨ (g.partsOf rank ps = false ∧ (c.begun = true ∨ s.pinRoom pages = false))) → exec e.1 s = .next s) ∧
    (∀ src, c.op = e.2 → g.partsOf rank ps = false → s.ownPart c n = some (.inr src) → c.begun = false → s.pinRoom pages = true →
      ∃ t, exec e.1 s = .next t ∧ t = { s with pins := t.pins, cmds := s.cmds.map (fun x => if x.id = c.id then c' else x) } ∧ pinned t) ∧
    (c.op = e.2 → g.partsOf rank ps = true →
      let bad := ps.any (·.malformed) = true
      let differs := ps.any c.differs = true ∨ (c.op = 1 ∧ g.rank c.root = none)
      (bad → exec e.1 s = .next { s with cmds := s.decided c 7 0 k n }) ∧
      (¬ bad → differs → exec e.1 s = .next { s with cmds := s.decided c 6 0 k n }) ∧
      (¬ bad → ¬ differs →
        (s.ownPart c n = none → exec e.1 s = .next s) ∧
        (∀ st, s.ownPart c n = some (.inl st) → exec e.1 s = .next { s with cmds := s.decided c st 0 k n }) ∧
        (∀ src, s.ownPart c n = some (.inr src) →
          let out := collOut c g rank src ps
          let places := s.collTarget c n
          (c.begun = false → s.pinRoom pages = false → ps.any (·.refused) = false → ps.any (·.lost) = false → exec e.1 s = .next s) ∧
          ((c.begun = true ∨ s.pinRoom pages = true) →
            (ps.any (·.refused) = true → ∃ t, exec e.1 s = .next t ∧ t = { s with cmds := s.decided c' 7 0 k n, pins := t.pins } ∧ pinned t) ∧
            (ps.any (·.refused) = false → ps.any (·.lost) = true →
              ∃ t, exec e.1 s = .next t ∧ t = { s with cmds := s.decided c' 8 0 k n, pins := t.pins } ∧ pinned t) ∧
            (ps.any (·.refused) = false → ps.any (·.lost) = false →
              (s.writable (some c.id) places = false → ∃ t, exec e.1 s = .next t ∧
                t = { s with pins := t.pins, cmds := s.cmds.map (fun x => if x.id = c.id then c' else x) } ∧ pinned t) ∧
              (s.writable (some c.id) places = true → out = [] → ∃ t, exec e.1 s = .next t ∧
                t = { s with cmds := s.decided c' 0 0 k n, pins := t.pins, scheds := t.scheds } ∧ pinned t) ∧
              (s.writable (some c.id) places = true → out ≠ [] → places.Nodup → places.length = out.length → ∃ t, exec e.1 s = .next t ∧
                t.cmds = s.decided c' 0 out.length k n ∧ pinned t ∧
                ∀ loc, t.byte loc = (laid places out loc).getD (s.byte loc)))))))) ∧
  (∀ (s : State) (gid : BitVec 8), s.group? gid = none →
    exec (.revolutionClose gid) s = .next s ∧ exec (.revolutionAbandon gid) s = .next s ∧ ∀ sts, exec (.startBarrier gid sts) s = .next s) ∧
  (∀ (s : State) (gid : BitVec 8) (g : Group), s.group? gid = some g →
    (s.closable gid g = false → exec (.revolutionClose gid) s = .next s) ∧
    (s.closable gid g = true → exec (.revolutionClose gid) s = .next { s with groups := Keyed.put s.groups gid.toNat { g with closed := true } }) ∧
    (s.revolving g = false → exec (.revolutionAbandon gid) s = .next s) ∧
    (s.revolving g = true → (s.cmds.map (·.id)).Nodup → ∃ t, exec (.revolutionAbandon gid) s = .next t ∧
      t.groups = Keyed.put s.groups gid.toNat { g with abandoned := true } ∧ t.warps = s.warps ∧
      (∀ c ∈ s.cmds, pendingIn gid (fun k => g.numbered.contains k) c = false → c ∈ t.cmds) ∧
      ∀ c ∈ s.cmds, ∀ k, pendingIn gid (fun k => g.numbered.contains k) c = true → c.group = some (gid, k) →
        { c with status := some 8, bytes := 0, extra0 := k, extra3 := g.members.length, owned := [] } ∈ t.cmds)) ∧
  (∀ (s : State) (pkg : BitVec 6), pkg ≠ s.config.pkg →
    ((∀ g ∈ s.groups, pkg ∈ g.2.members → g.2.broken = true) → exec (.memberLeave pkg) s = .next s) ∧
    (∀ (gid : BitVec 8) (g : Group), s.groups = [(gid.toNat, g)] → pkg ∈ g.members → g.broken = false → g.reply = none →
      s.revolving g = false → s.copyOf_ gid = none → (s.cmds.map (·.id)).Nodup → ∃ t, exec (.memberLeave pkg) s = .next t ∧
      t = { s with groups := [(gid.toNat, { g with broken := true })], cmds := t.cmds } ∧
      (∀ c ∈ s.cmds, pendingIn gid (fun _ => true) c = false → c ∈ t.cmds) ∧
      ∀ c ∈ s.cmds, ∀ k, pendingIn gid (fun _ => true) c = true → c.group = some (gid, k) →
        { c with status := some 8, bytes := 0, extra0 := k, extra3 := g.members.length, owned := [] } ∈ t.cmds)) ∧
  (∀ (s : State) (r : LaunchCopy),
    ((s.group? r.group = none ∨ ∃ g, s.group? r.group = some g ∧ (g.owner ≠ r.owner ∨ g.rank s.config.pkg = none ∨ s.copyOf_ r.group ≠ none)) →
      exec (.launchCopyReceipt r) s = .next s) ∧
    (∀ g p, s.group? r.group = some g → g.owner = r.owner → (g.rank s.config.pkg).isSome = true → s.copyOf_ r.group = none →
      packetOf r.packet = some p →
      ((s.loaded r.owner = false ∨ 1024 ≤ s.queued p.prio) → exec (.launchCopyReceipt r) s = .next s) ∧
      (s.loaded r.owner = true → s.queued p.prio < 1024 → ∃ t, exec (.launchCopyReceipt r) s = .next t ∧
        Accepted s t r.owner r.vf p (r.param.take p.psize) (.copy r.group) true))) ∧
  (∀ (s : State) (gid : BitVec 8) (g : Group) (li : Nat) (l : Launch) (sts : List (BitVec 4)), s.group? gid = some g →
    (s.copyOf_ gid = none → exec (.startBarrier gid sts) s = .next s) ∧
    (s.copyOf_ gid = some (li, l) → sts.length + 1 ≠ g.members.length → exec (.startBarrier gid sts) s = .next s) ∧
    (s.copyOf_ gid = some (li, l) → s.launch li = l → sts.length + 1 = g.members.length → g.reply = none →
      (∀ st, sts.find? (· != 0) = some st → exec (.startBarrier gid sts) s = .next { s with
        launches := Keyed.put s.launches li { l with killed := true, complete := true, held := false, done := 0 } }) ∧
      (sts.find? (· != 0) = none →
        let gen := if g.gen + 1 = 0 then 1 else g.gen + 1
        exec (.startBarrier gid sts) s = .next { s with
          groups := Keyed.put s.groups gid.toNat { g with gen := gen }
          launches := Keyed.put s.launches li { l with gen := gen, held := false } }))) ∧
  (∀ (s : State) (link : Nat), ∃ t, exec (.flitRetry link) s = .next t ∧ t = { s with linkRetries := t.linkRetries, scheds := t.scheds } ∧
    ∀ k, Cells.get 0 t.linkRetries k = Cells.get 0 s.linkRetries k + if k = link then 1 else 0) ∧
  (∀ (s : State) (pkg : BitVec 6) (owner : Tag) (pa : Nat),
    (∀ n, exec (.remoteAccess (.read pkg owner pa n)) s = .next s) ∧
    (∀ bs : List Byte,
      let places := (List.range bs.length).map (fun i => physLoc (pa + i))
      ((s.remoteOk owner pa bs.length = false ∨ s.writeFault owner places = true) → exec (.remoteAccess (.write pkg owner pa bs)) s = .next s) ∧
      (s.remoteOk owner pa bs.length = true → s.writeFault owner places = false → places.Nodup →
        ∃ t, exec (.remoteAccess (.write pkg owner pa bs)) s = .next t ∧ ∀ loc, t.byte loc = (laid places bs loc).getD (s.byte loc))) ∧
    (∀ (fn : BitVec 4) (bs : List Byte),
      let n := atomSize fn.toNat
      let places := (List.range n).map (fun i => physLoc (pa + i))
      ((s.remoteOk owner pa n = false ∨ pa % n ≠ 0 ∨ 12 < fn.toNat ∨ places.any (s.lineFault owner) = true) →
        exec (.remoteAccess (.atomic pkg owner pa fn bs)) s = .next s) ∧
      (s.remoteOk owner pa n = true → pa % n = 0 → fn.toNat ≤ 9 → places.any (s.lineFault owner) = false → places.Nodup → bs.length = 4 →
        ∃ t, exec (.remoteAccess (.atomic pkg owner pa fn bs)) s = .next t ∧
          ∀ loc, t.byte loc = (laid places (wordBytes (atomicRule fn (bytesWord (places.map s.byte)) (bytesWord bs))) loc).getD (s.byte loc))))

/-- R28, R138, R140, R281, R282, R283, R312, R316, R322, R343 and R346: gangs are placed and launches starve; nodes of a graph
start; the run of a step ends, and the tickets that it served are committed; rows of a tap are processed; the handler of a
watch ends. Where its condition does not hold, the event changes nothing.
The model's own readings: log 51 (a KERNEL node whose packet is not accepted stops its run); log 52 (a launch passed over
too long); log 53 (the first cluster); log 58 (when a step begins); log 61 (Market writes go to granules that carry the
owner); log 62 (the rules of the Grinder); log 102 (how a stopped run is reported); log 103 (what a pass of WHILE clears);
log 104 (words in error). -/
def Obligations.RunsGoOn : Prop :=
  (∀ (s : State) (ps : List Nat), (∀ l ∈ s.launches, l.2.complete = true → l.2.done = 0) → s.placePlan = (ps, none) → ∃ t, exec .gangPlace s = .next t ∧ t = { s with launches := t.launches } ∧
    ∀ j, t.launch j = if j ∈ ps then { s.launch j with passedSince := some ((s.launch j).passedSince.getD s.fc) } else s.launch j) ∧
  (∀ (s : State) (ps : List Nat) (li c : Nat) (seats : List Seat), (∀ l ∈ s.launches, l.2.complete = true → l.2.done = 0) →
    s.placePlan = (ps, some (li, none, c, seats)) →
    ∃ t, exec .gangPlace s = .next t ∧ t.lastCluster = c ∧ t.mem = s.mem ∧ t.ops = s.ops ∧ t.cmds = s.cmds ∧
      t.launch li = { s.launch li with nextGang := (s.launch li).nextGang + 1, passedSince := none, blocking := false } ∧
      (∀ j, j ≠ li → t.launch j =
        if j ∈ ps then { s.launch j with passedSince := some ((s.launch j).passedSince.getD s.fc) } else s.launch j) ∧
      (∀ j, j < s.nextId → t.warp j = s.warp j ∧ t.wg j = s.wg j ∧ t.gang j = s.gang j) ∧
      (t.gang s.nextId).launch = li ∧ (t.gang s.nextId).index = (s.launch li).nextGang ∧ (t.gang s.nextId).state = .placed ∧
      (t.gang s.nextId).cluster = c ∧ (t.gang s.nextId).started = s.fc ∧ Seated s t li seats) ∧
  (∀ (s : State) (ps : List Nat) (li gi c : Nat) (seats : List Seat), (∀ l ∈ s.launches, l.2.complete = true → l.2.done = 0) →
    s.placePlan = (ps, some (li, some gi, c, seats)) → (s.gang gi).state = .saved → (∀ o ∈ s.ops, s.gangOf o.warp ≠ gi) →
    ∃ t, exec .gangPlace s = .next t ∧
      t.gang gi = { s.gang gi with state := .placed, cluster := c, started := s.fc, drainBy := none, tiles := [], tokens := [] }) ∧
  (∀ (s : State) (li : Nat),
    (((s.launch li).passedSince = none ∨ ∃ t, (s.launch li).passedSince = some t ∧ s.fc < t + 4096) → exec (.launchStarvation li) s = .next s) ∧
    (∀ t, (s.launch li).passedSince = some t → t + 4096 ≤ s.fc →
      exec (.launchStarvation li) s = .next { s with launches := Keyed.put s.launches li { s.launch li with blocking := true } })) ∧
  (∀ (s : State) (gi : BitVec 6) (node : Nat),
    (s.graph? gi = none ∨ (∃ g, s.graph? gi = some g ∧ (g.run = none ∨
      ∃ r, g.run = some r ∧ (r.ended = true ∨ g.nodes ≤ node ∨ g.ready r node = false)))) → exec (.graphNodeStart gi node) s = .next s) ∧
  (∀ (s : State) (gi : BitVec 6) (node : Nat) (g : Graph) (r : Run), s.graph? gi = some g → g.run = some r → r.ended = false →
    node < g.nodes → g.ready r node = true →
    let running := s.withNode gi g r node (fun n => { n with state := .running })
    let stopped := { s with graphs := Keyed.put s.graphs gi.toNat { g with
      run := some { r with ended := true, failed := true }, reports := g.reports ++ [(r.number, node)] } }
    (g.nodeBad node = true → exec (.graphNodeStart gi node) s = .next stopped) ∧
    (g.nodeBad node = false → g.kind node = 0 →
      (∀ va, s.readPacket g.owner false (BitVec.ofNat 64 (g.arg64 node)) = .wait va → exec (.graphNodeStart gi node) s = .next s) ∧
      (∀ n, s.readPacket g.owner false (BitVec.ofNat 64 (g.arg64 node)) = .status n → exec (.graphNodeStart gi node) s = .next stopped) ∧
      (∀ p param, s.readPacket g.owner false (BitVec.ofNat 64 (g.arg64 node)) = .ok p param →
        ∃ t, exec (.graphNodeStart gi node) s = .next t ∧
          Accepted running t g.owner g.vf p ((wordBytes r.number ++ param.drop 4).take param.length) (.node gi r.number node) false)) ∧
    (g.nodeBad node = false → g.kind node = 1 →
      (s.condition g node = some none → exec (.graphNodeStart gi node) s = .next stopped) ∧
      (s.condition g node = none → exec (.graphNodeStart gi node) s = .next s) ∧
      (∀ v, s.condition g node = some (some v) → g.succ node (v == 0) = [] →
        ∃ t, exec (.graphNodeStart gi node) s = .next t ∧ t = { s with graphs := t.graphs } ∧
          t.graph? gi = some { g with run := some (r.mod node (fun n => { n with state := .done })) })) ∧
    (g.nodeBad node = false → g.kind node = 3 → (r.node node).counted < g.arg32 node →
      exec (.graphNodeStart gi node) s = .next running)) ∧
  (∀ (s : State) (i : BitVec 4),
    (s.inst? i = none → exec (.baristaStep i) s = .next s ∧ exec (.stepDone i) s = .next s) ∧
    (∀ x, s.inst? i = some x →
      ((x.state = .running ∧ s.runOver x = false) ∨ (x.state ≠ .running ∧ x.removing = none ∧ s.mayStep x = false) →
        exec (.baristaStep i) s = .next s) ∧
      (∀ r, x.state ≠ .running → x.removing = none → s.mayStep x = true → (begin_ true s).stepBegin i = some r →
        exec (.baristaStep i) s = .next r.now) ∧
      (x.state = .running → s.runOver x = true → x.removing = none → s.tickets x = [] → x.staged = [] →
        (∀ g ∈ s.wgs, ∀ b, (s.wg g.1).bound = some b → b.1 ≠ i) → exec (.baristaStep i) s = .next { s with
          taps := s.taps.map (fun p => if p.inst = i then { p with todo := [] } else p)
          insts := Keyed.put s.insts i.toNat { x with state := .idle, reserved := [], dirty := true } }) ∧
      ((s.stepNode x = none ∨ x.state ≠ .running ∨ x.stepDone = true ∨ s.ringsOver i = false) → exec (.stepDone i) s = .next s) ∧
      (∀ n g r, s.stepNode x = some n → x.state = .running → x.stepDone = false → s.ringsOver i = true → s.graph? x.stepgraph = some g →
        g.run = some r → g.succ n false = [] →
        let after := { s with
          watches := s.watches.filter (fun w => w.inst != i), insts := Keyed.put s.insts i.toNat { x with stepDone := true }
          graphs := Keyed.put s.graphs x.stepgraph.toNat { g with run := some (r.mod n (fun y => { y with state := .done })) } }
        let served := (s.tickets x).filter (fun t => s.tkState x t == 2 || s.tkState x t == 4)
        (served = [] → exec (.stepDone i) s = .next after) ∧
        (∀ t, served = [t] → s.tkState x t = 2 → t ∉ x.lost → s.tkField x t 0 17 17 = 0 → s.tk x t 15 = 0xFFFFFFFF → s.tk x t 12 = 0 →
          ∃ u, exec (.stepDone i) s = .next u ∧ u = { after with mem := u.mem } ∧
            u.tk x t 1 = BitVec.ofNat 32 (s.tkPos x t + s.tkPend x t) ∧ u.tk x t 2 = 0 ∧ u.tkState x t = 2)))) ∧
  (∀ (s : State) (tap row : Nat), s.taps.find? (fun p => p.id == tap) = none → exec (.grinderRow tap row) s = .next s) ∧
  (∀ (s : State) (p : Tap) (x : Inst) (d : Desc) (row : Nat), s.taps.find? (fun q => q.id == p.id) = some p → s.inst? p.inst = some x →
    descOf p.desc = some d →
    (s.rowOn x row = none → exec (.grinderRow p.id row) s = .next { s with taps := s.rowLeft p row 0 0 }) ∧
    (∀ slot t pos, s.rowOn x row = some (slot, t, pos) →
      ((s.rowNext p x row t = false ∨ ∃ w ∈ s.watches, w.inst = p.inst ∧ w.tkid = t) → exec (.grinderRow p.id row) s = .next s) ∧
      (s.rowNext p x row t = true → (∀ w ∈ s.watches, w.inst = p.inst → w.tkid ≠ t) →
        (s.tkState x t ≠ 2 → exec (.grinderRow p.id row) s = .next { s with taps := s.rowLeft p row 0 0 }) ∧
        (s.tkState x t = 2 →
          (s.rowAnswer p x d row t pos = none → exec (.grinderRow p.id row) s = .next s) ∧
          (∀ rs data, s.rowAnswer p x d row t pos = some (.inr (rs, data)) → rs.filter (fun r => r.kind == 0) = [] →
            let f := data.features d
            let f' := clampAll rs f
            let ks := changedFeats rs f f'
            let place := marketLoc (x.gatebase + p.vector * x.gstride + row)
            let tgt := if ks = [] then [] else s.placesOf p.owner false .write (actRow p.buf p.stride row) (2 * d.d)
            tgt.Nodup → place ∉ tgt → tgt.length = (if ks = [] then 0 else 2 * d.d) →
            Cells.get 0 s.mktTag ((x.gatebase + p.vector * x.gstride + row) / 64) = x.owner.toNat + 1 →
            ∃ t, exec (.grinderRow p.id row) s = .next t ∧ t.taps = s.rowLeft p row 1 (tgt.length + 1) ∧ t.byte place = 1 ∧
              ∀ loc, loc ≠ place → t.byte loc = (laid tgt (data.rewrite d f f' ks) loc).getD (s.byte loc)))))) ∧
  (∀ (s : State) (wid : Word), (∀ w li, s.watch? wid = some w → w.handler = some li → (s.launch li).complete = false) →
    exec (.watchHandlerEnd wid) s = .next s) ∧
  (∀ (s : State) (wid : Word) (li : Nat) (w : Watch) (x : Inst), s.watch? wid = some w → w.handler = some li →
    (s.launch li).complete = true → s.inst? w.inst = some x →
    ∃ t, exec (.watchHandlerEnd wid) s = .next t ∧
      t = { s with mem := t.mem, watches := s.watches.filter (fun v => v.wid != w.wid), taps := t.taps } ∧
      t.tkField x w.tkid 0 17 17 = 1 ∧ t.tkField x w.tkid 0 27 20 = 4 ∧ t.tkField x w.tkid 20 31 24 = 0 ∧
      t.tkState x w.tkid = (if s.tkState x w.tkid = 4 then 2 else s.tkState x w.tkid) ∧
      ∀ q ∈ s.taps, q.inst ≠ w.inst → q ∈ t.taps)

/-- R5, R152, R183, R398, R400, R406, R407, R431, R434, R444 and R447: an ac passes and releases the records of the rejoin
tables; a scheduler rotates its slots and makes its timer ticks; the package comes up or stands in the safe state of the
phase that fails; the governor moves the clock; a trip and RESET take the package into reset; a CXL port takes its capacity.
Where its condition does not hold, the event changes nothing.
The model's own readings: log 8 (what a package reset keeps); log 11 (whether a phase passes and what a scrub finds are
free); log 69 (which commands are served before READY); log 70 (the governor and the trip are events); log 71 (a PARTIAL
scrub enters no confidential mode); log 101 (what is retired after a PARTIAL scrub). -/
def Obligations.TimeAndPower : Prop :=
  (∀ s : State, (∀ w ∈ s.warps, w.2.meets = false) → (s.scheds.map (·.1)).Nodup →
    ∃ t, exec .counterAdvance s = .next t ∧ AcPasses s t) ∧
  (∀ s : State, (s.warps.map (·.1)).Nodup → ∃ t, exec .counterAdvance s = .next t ∧ t.ac = s.ac + 1 ∧ t.mem = s.mem ∧ t.ops = s.ops ∧
    ∀ wi w, (wi, w) ∈ s.warps →
      (w.meets = false → t.warp wi = w) ∧
      (∀ r ∈ w.rejoin, w.ended = false → (∀ l ∈ lanesOf r.mask, parkedAt s.ac (w.thread l) r.addr = true) →
        r ∉ (t.warp wi).rejoin ∧ ∀ l, l < 32 → parkedAt s.ac (w.thread l) r.addr = true → t.thread wi l = { w.thread l with
          hold := .none, mt := 0, notBefore := s.ac + 1, lastIssue := s.ac }) ∧
      (∀ r ∈ w.rejoin, (∃ l ∈ lanesOf r.mask, parkedAt s.ac (w.thread l) r.addr = false) →
        r ∈ (t.warp wi).rejoin ∧
        ((∀ r' ∈ w.rejoin, r'.addr = r.addr → ∃ l ∈ lanesOf r'.mask, parkedAt s.ac (w.thread l) r.addr = false) →
          ∀ l, l < 32 → (w.thread l).pc = r.addr → t.thread wi l = w.thread l)) ∧
      (∀ l, l < 32 → w.meets = true → parkedAt s.ac (w.thread l) (w.thread l).pc = true → (∀ r ∈ w.rejoin, r.addr ≠ (w.thread l).pc) →
        t.thread wi l = { w.thread l with hold := .none, mt := 0, notBefore := s.ac + 1, lastIssue := s.ac })) ∧
  (∀ (s : State) (sc : Nat),
    let x := s.sched sc
    (¬ (x.rper ≠ 0 ∧ 1024 * x.rper ≤ x.period) → exec (.counterRotate sc) s = .next s) ∧
    (x.rper ≠ 0 → 1024 * x.rper ≤ x.period → exec (.counterRotate sc) s = .next
      { s with scheds := Keyed.put s.scheds sc { x with act := (x.act + 1) % x.nset, period := x.period - 1024 * x.rper } })) ∧
  (∀ (s : State) (sc : Nat),
    let x := s.sched sc
    let mine := (s.residents sc).filter (fun w => some (s.launchOf w).vf == x.cntcVf)
    let ticked := { x with tick := x.tick - 1024 * x.tper }
    let after := { s with scheds := Keyed.put s.scheds sc ticked }
    (¬ (x.tper ≠ 0 ∧ 1024 * x.tper ≤ x.tick) → exec (.timerTick sc) s = .next s) ∧
    (∀ w l, x.tper ≠ 0 → 1024 * x.tper ≤ x.tick → w ∈ mine → (∀ v ∈ mine, v ≠ w → (s.warp w).slot < (s.warp v).slot) →
      (List.range 32).find? (fun l => (s.thread w l).life == .live) = some l →
      ((∃ p ∈ (s.thread w l).pend, p.cause = 0x0E) → exec (.timerTick sc) s = .next after) ∧
      ((∀ p ∈ (s.thread w l).pend, p.cause ≠ 0x0E) → exec (.timerTick sc) s = .next
        { after with warps := Keyed.put s.warps w ((s.warp w).mod l (fun t => { t with
          pend := t.pend ++ [{ cause := 0x0E, late := false, tval := 0, pc := 0, va := 0 }] })) })) ∧
    (x.tper ≠ 0 → 1024 * x.tper ≤ x.tick → mine = [] → ∃ t, exec (.timerTick sc) s = .next t ∧ t = { s with scheds := t.scheds } ∧
      (∀ j, j ≠ sc → t.sched j = s.sched j) ∧ t.sched sc = { ticked with events := (t.sched sc).events } ∧
      ∀ e, e ∈ (t.sched sc).events ↔ e ∈ x.events ∨ ∃ o ∈ s.owners, o.2.vf = x.cntcVf ∧ e = (0x210, BitVec.ofNat 12 o.1, 1))) ∧
  (∀ s : State,
    let b := s.boot
    let retired := (b.retired ++ b.found.map (· / 65536)).eraseDups
    let found := (Config.scrubFinds b.boots).filter (fun a => !retired.contains (a / 65536))
    (b.ready = true → exec .powerOn s = .next s) ∧
    (∀ p, b.ready = false → 1 ≤ p → p ≤ 3 → b.passes (p - 1) = true → b.passes p = false → exec .powerOn s = .next
      { s with config := s.hosted b.conf, boot := { b with phase := p, safe := true, ready := false, boots := b.boots + 1 } }) ∧
    (b.ready = false → b.passes 3 = true → b.scrub = false → b.confReq = false → exec .powerOn s = .next
      { s with config := s.hosted b.conf, boot := { b with phase := 5, safe := false, ready := true, boots := b.boots + 1 } }) ∧
    (b.ready = false → b.passes 3 = true → (b.scrub = true ∨ b.confReq = true) → ∃ t, exec .powerOn s = .next t ∧
      t = { s with config := s.hosted t.boot.conf, boot := t.boot, bad := t.bad } ∧
      t.boot = { b with
        phase := 5, safe := false, ready := true, boots := b.boots + 1, scrub := false, confReq := false, scrubSeq := b.scrubSeq + 1
        found := found, clean := found.isEmpty, conf := t.boot.conf, retired := retired
        receipts := b.receipts ++ [receiptOf (b.scrubSeq + 1) found retired] } ∧
      t.boot.conf = (if b.confReq = true then !b.conf && found.isEmpty else b.conf) ∧
      ∀ line, Cells.get false t.bad line = true ↔ Cells.get false s.bad line = true ∨ ∃ a ∈ found, line = lineOf (physLoc a))) ∧
  (∀ (s : State) (mw : Nat),
    let b := s.boot
    let after := fun c hot => { s with free := s.free + 1, boot := { b with clock := c, hot := hot } }
    (1050 ≤ s.temp.toInt → exec (.governorStep mw) s = .next (after 2000 true)) ∧
    (s.temp.toInt < 1050 → b.limit < mw → exec (.governorStep mw) s = .next (after (Nat.max 2000 (b.clock - 125)) false)) ∧
    (s.temp.toInt < 1050 → mw ≤ b.limit → mw * 100 ≤ b.limit * 95 →
      exec (.governorStep mw) s = .next (after (Nat.min 4000 (b.clock + 125)) false)) ∧
    (s.temp.toInt < 1050 → mw ≤ b.limit → b.limit * 95 < mw * 100 → exec (.governorStep mw) s = .next (after b.clock false))) ∧
  (∀ s : State, ∃ t, exec .thermalTrip s = .next t ∧ EntersReset s t false true ∧
    let temp : Word := if s.temp.toInt < 1150 then 1150 else s.temp
    let entry := wordBytes temp ++ wordBytes s.statusWord ++ List.replicate 55 0 ++ [3]
    t.irqs = s.irqs ++ ([0, 1].filter s.eventOut).map (fun f => (fnOf f, 0)) ∧
    (∀ f, 2 ≤ f → t.box f = s.box f) ∧
    (∀ f, f < 2 →
      let b := s.box f
      t.box f = if s.eventOut f = true then { b with rings := b.rings.set 2 { b.ring 2 with prod := (b.ring 2).prod + 1 } }
        else if b.events.length < 256 then { b with events := b.events ++ [entry] } else b) ∧
    (s.eventOut 1 = true → t.bytes (s.eventPlace 1) 64 = entry) ∧
    (s.eventOut 0 = true → (s.eventOut 1 = false ∨ s.eventPlace 0 + 64 ≤ s.eventPlace 1 ∨ s.eventPlace 1 + 64 ≤ s.eventPlace 0) →
      t.bytes (s.eventPlace 0) 64 = entry) ∧
    (∀ loc, 2 ^ 64 ≤ loc → loc < 2 ^ 80 →
      (∀ f, f < 2 → s.eventOut f = true → ¬ (s.eventPlace f ≤ loc ∧ loc < s.eventPlace f + 64)) → t.byte loc = s.byte loc)) ∧
  (∀ (s : State) (h : CmdHeader) (scrub : Bool),
    let e := Instr.reset h scrub
    (s.serves h = false → exec e s = .next s) ∧
    (s.serves h = true → isVf h.fn = true → ∃ t, exec e s = .next t ∧ Answered s t h 2 0 0) ∧
    (s.serves h = true → isVf h.fn = false → (∀ f, f ≠ fnIx h.fn → s.headCommand f = none) →
      (∀ u, Answered s u h 0 0 0 → u.headCommand (fnIx h.fn) = none → ∃ t, exec e s = .next t ∧ EntersReset u t scrub false ∧
        t.boxes = u.boxes ∧ t.irqs = s.irqs ∧ ∀ loc, 2 ^ 64 ≤ loc → loc < 2 ^ 80 → t.byte loc = u.byte loc) ∧
      (∀ u v, Answered s u h 0 0 0 → ((u.box (fnIx h.fn)).ring 1).full = false → AnsweredReset u v (fnIx h.fn) →
        v.headCommand (fnIx h.fn) = none → ∃ t, exec e s = .next t ∧ EntersReset v t scrub false ∧
        t.boxes = v.boxes ∧ t.irqs = s.irqs ∧ ∀ loc, 2 ^ 64 ≤ loc → loc < 2 ^ 80 → t.byte loc = v.byte loc))) ∧
  (∀ (s : State) (port : BitVec 3) (size : Nat),
    exec (.hdmDecoderCommit port size) s = .next { s with hdm := s.hdm.set port.toNat (Nat.min size (896 * 2 ^ 30)) })

/-- R378–R384, R394, R410 and R411: a stop request names the gangs of its job, and each halts by its mode: it drains, restarts,
or is saved with those that share its banks; a world switch stops the jobs of the function that goes out, saves its
counters, and restores those of the function that comes in; a revoked tag is drained and wiped. Where its condition does not
hold, the event changes nothing.
The model's own readings: log 64 (gangs halt one after another); log 65 (what a saved gang keeps); log 66 (which counters a
world switch saves, and where); log 72 (what becomes of the operations of a revoked tag); log 74 (KEYREVOKE with DISCARD);
log 73 (the record of a killed launch). -/
def Obligations.HaltsAndSwitches : Prop :=
  (∀ (s : State) (h : CmdHeader) (job : StopJob) (mode : StopMode) (dmax : Nat),
    let e := Instr.stop h job mode dmax
    (s.serves h = false → exec e s = .next s) ∧
    (s.serves h = true → isVf h.fn = true → ∃ t, exec e s = .next t ∧ Answered s t h 2 0 0) ∧
    (s.serves h = true → isVf h.fn = false → s.boot.ready = false → ∃ t, exec e s = .next t ∧ Answered s t h 5 0 0) ∧
    (s.serves h = true → isVf h.fn = false → s.boot.ready = true → s.stops = [] →
      (∀ gi, gi ∈ s.jobGangs job ↔ ∃ g, (gi, g) ∈ s.gangs ∧ (g.state = .placed ∨ g.state = .saving) ∧ jobNames job (s.launch g.launch) = true) ∧
      (s.jobGangs job = [] → ∃ t, exec e s = .next t ∧ Answered s t h 0 0 0) ∧
      ((s.gangs.map (·.1)).Nodup → s.jobGangs job ≠ [] → exec e s = .next { s with
        stops := [{ job := job, mode := mode, drainMax := dmax, todo := s.jobGangs job, halted := 0, reply := some h, switch := none }] }))) ∧
  (∀ (s : State) (gi : Nat),
    let g := s.gang gi
    let e := Instr.gangHalt gi
    ((g.state = .saving → s.saveQuiet gi = false) → (g.state ≠ .saving → ∀ x ∈ s.stops, x.todo.head? ≠ some gi) → exec e s = .next s) ∧
    (g.state = .saving → s.saveQuiet gi = true → (∀ q ∈ s.mops, s.gangOf q.warp ≠ gi) → (s.gangWarps gi).Nodup →
      (s.stops = [] → ∃ t, exec e s = .next t ∧ GangSaved s t gi false) ∧
      (∀ x h, s.stops = [x] → x.todo = [gi] → x.reply = some h → x.switch = none → ∃ u t, exec e s = .next t ∧
        GangSaved s u gi false ∧ Answered { u with stops := [] } t h 0 (BitVec.ofNat 32 (x.halted + 1)) 0)) ∧
    (∀ q, g.state = .saving → s.saveQuiet gi = true → s.mops = [q] → s.gangOf q.warp = gi → (q.before.map (·.1)).Nodup → s.stops = [] →
      ∃ t q', exec e s = .next t ∧ (t.gang gi).state = .saved ∧ (∀ p ∈ q.before, t.tile p.1 = p.2) ∧
      t.mops = [q'] ∧ q'.id = q.id ∧ q'.taken = [] ∧ q'.seen = [] ∧ q'.pins = [] ∧ (q'.waits = true ↔ q.what = .product)) ∧
    (∀ x h, g.state ≠ .saving → g.state ≠ .placed → s.stops = [x] → x.reply = some h → x.switch = none →
      let n := x.halted + if g.state = .retired ∧ g.drainBy = none then 0 else 1
      (x.todo = [gi] → ∃ t, exec e s = .next t ∧ Answered { s with stops := [] } t h 0 (BitVec.ofNat 32 n) 0) ∧
      (∀ g2 rest, x.todo = gi :: g2 :: rest → s.haltedGang g2 = false →
        exec e s = .next { s with stops := [{ x with todo := g2 :: rest, halted := n }] })) ∧
    (∀ x, g.state = .placed → s.stops.find? (fun x => x.todo.head? == some gi) = some x →
      (g.drainBy ≠ none → exec e s = .next s) ∧
      (g.drainBy = none →
        (s.haltMode x gi = .drain →
          exec e s = .next { s with gangs := Keyed.put s.gangs gi { g with drainBy := some (s.fc + 2 * x.drainMax) } }) ∧
        (∀ h, s.haltMode x gi = .flush → s.stops = [x] → x.todo = [gi] → x.reply = some h → x.switch = none → s.ops = [] →
          (∀ i ∈ s.gangWarps gi, (s.warp i).plain ∧ s.gangOf i = gi) → ∃ u t, exec e s = .next t ∧ GangFlushed s u gi ∧
          Answered { u with stops := [] } t h 0 (BitVec.ofNat 32 (x.halted + 1)) 0) ∧
        (s.haltMode x gi = .save → s.apart x.job gi → ∃ t, exec e s = .next t ∧ SaveBegun s t gi) ∧
        (s.haltMode x gi = .save → ∃ t, exec e s = .next t ∧ SharersSaved s t x.job gi)))) ∧
  (∀ (s : State) (x : Stop) (gi : Nat),
    let l := s.launch (s.gang gi).launch
    let p := s.progressWord gi
    let ran := s.fc - (s.gang gi).started
    (x.mode = .save → s.haltMode x gi = .save) ∧
    (x.mode = .flushRestart → s.haltMode x gi = if l.idem = true then .flush else .save) ∧
    (x.mode = .adaptive → s.haltMode x gi =
      if p ≠ 0 ∧ ran * (65536 - p) ≤ x.drainMax * p then .drain
      else if l.idem = true ∧ 32 * ran ≤ s.contextSize gi then .flush else .save)) ∧
  (∀ (s : State) (gi : Nat),
    let g := s.gang gi
    ((g.state ≠ .placed ∨ g.drainBy = none ∨ ∃ t, g.drainBy = some t ∧ s.fc < t) → exec (.drainTimeout gi) s = .next s) ∧
    (∀ t x, g.state = .placed → g.drainBy = some t → t ≤ s.fc → s.stops = [x] → gi ∈ x.todo →
      (s.apart x.job gi → ∃ u, exec (.drainTimeout gi) s = .next u ∧ SaveBegun s u gi) ∧
      ∃ u, exec (.drainTimeout gi) s = .next u ∧ SharersSaved s u x.job gi)) ∧
  (∀ s : State, exec (.worldSwitch none none) s = .next s) ∧
  (∀ (s : State) (w : BitVec 6),
    ((s.timed w = false ∨ ∃ x, Keyed.find s.vfs w.toNat = some x ∧ x.out = false) → exec (.worldSwitch none (some w)) s = .next s) ∧
    (∀ x gi g sc word, s.timed w = true → Keyed.find s.vfs w.toNat = some x → x.out = true →
      bits (leNat (s.bytes (physLoc x.desc.saveArea.toNat) 4)) 31 31 = 0 →
      s.gangs = [(gi, g)] → (s.launch g.launch).vf = w → g.cntc = [(sc, word)] → exec (.worldSwitch none (some w)) s = .next { s with
        vfs := Keyed.put s.vfs w.toNat { x with out := false }
        gangs := [(gi, { g with cntc := [] })]
        scheds := Keyed.put s.scheds sc { s.sched sc with
          tper := word.toNat / 2 ^ 16, frz := word.extractLsb' 0 8, cntcVf := some w, tick := 0 } }) ∧
    (∀ x, s.timed w = true → Keyed.find s.vfs w.toNat = some x → x.out = true → (∀ g ∈ s.gangs, (s.launch g.2.launch).vf ≠ w) →
      let area := x.desc.saveArea.toNat
      let back := { s with vfs := Keyed.put s.vfs w.toNat { x with out := false } }
      let record := s.bytes (physLoc area) 160
      let word := leNat (record.take 4)
      let sc := 4 * bits word 30 23 + bits word 22 21
      let i := bits word 20 18
      let owner : Tag := BitVec.ofNat 12 (bits word 11 0)
      let c := (s.sched sc).counter i
      let part := fun j => (record.drop (32 + 32 * j)).take 32
      let cfg := fun j => leNat ((part j).take 4)
      let good := ∀ j, j < 4 → eventListed (bits (cfg j) 23 12) = true ∧ bits (cfg j) 26 24 = 0 ∧ bits (cfg j) 11 5 = 0
      (bits word 31 31 = 0 → exec (.worldSwitch none (some w)) s = .next back) ∧
      (bits word 31 31 = 1 → bits (leNat (s.bytes (physLoc (area + 160)) 4)) 31 31 = 0 →
        ((s.vfOf owner ≠ some w ∨ (c.claimed = true ∧ s.vfOf c.owner ≠ some w) ∨ ¬ good) → exec (.worldSwitch none (some w)) s = .next back) ∧
        (s.vfOf owner = some w → (c.claimed = false ∨ s.vfOf c.owner = some w) → good → i < (s.sched sc).counters.length →
          c.slots.length = 4 → (s.sched sc).nset ≤ 4 →
          ∃ t, exec (.worldSwitch none (some w)) s = .next t ∧ t = { back with scheds := t.scheds } ∧ (∀ k, k ≠ sc → t.sched k = s.sched k) ∧
          ((t.sched sc).counter i).claimed = true ∧ ((t.sched sc).counter i).owner = owner ∧
          (∀ k, k ≠ i → (t.sched sc).counter k = (s.sched sc).counter k) ∧
          ∀ j, j < 4 → ((t.sched sc).counter i).slot j = if j < (s.sched sc).nset then { c.slot j with
              event := bits (cfg j) 23 12, en := bits (cfg j) 31 31 == 1, ovi := bits (cfg j) 30 30 == 1, ovf := bits (cfg j) 27 27 == 1
              value := BitVec.ofNat 48 (leNat (((part j).drop 8).take 8)), tr := BitVec.ofNat 48 (leNat (((part j).drop 24).take 8)) }
            else c.slot j)))) ∧
  (∀ (s : State) (v : BitVec 6) (into : Option (BitVec 6)),
    let e := Instr.worldSwitch (some v) into
    ((s.timed v = false ∨ (∃ x, Keyed.find s.vfs v.toNat = some x ∧ x.out = true) ∨ into = some v ∨
        (∃ w, into = some w ∧ s.timed w = false) ∨ ∃ x ∈ s.stops, x.switch ≠ none ∧ x.job = .vf v) → exec e s = .next s) ∧
    (∀ x, s.timed v = true → Keyed.find s.vfs v.toNat = some x → x.out = false → into ≠ some v → (∀ w, into = some w → s.timed w = true) →
      s.stops = [] →
      (s.jobGangs (.vf v) ≠ [] → (s.gangs.map (·.1)).Nodup → exec e s = .next { s with
        stops := [{ job := .vf v, mode := .adaptive, drainMax := 0, todo := s.jobGangs (.vf v), halted := 0, reply := none, switch := some into }] }) ∧
      (s.jobGangs (.vf v) = [] → into = none → (∀ w ∈ s.warps, ∀ t ∈ w.2.threads, t.region = none) →
        let area := x.desc.saveArea.toNat
        let mine := s.claims.filter (fun c => s.vfOf c.2.2.owner == some v)
        (mine = [] → area % 64 = 0 → ∃ t, exec e s = .next t ∧
          t = { s with mem := t.mem, l1 := t.l1, dups := t.dups, l2 := t.l2, sc := t.sc, vfs := Keyed.put s.vfs v.toNat { x with out := true } } ∧
          BytesWritten s t (physLoc area) [0, 0, 0, 0]) ∧
        (∀ sc i c, mine = [(sc, i, c)] → area % 64 = 0 → area + 164 ≤ 2 ^ 52 → ∃ t, exec e s = .next t ∧
          t = { s with mem := t.mem, l1 := t.l1, dups := t.dups, l2 := t.l2, sc := t.sc, vfs := Keyed.put s.vfs v.toNat { x with out := true } } ∧
          BytesWritten s t (physLoc area) (counterRecord sc i (s.sched sc).nset c ++ [0, 0, 0, 0]))))) ∧
  (∀ (s : State) (tag : Tag),
    let e := Instr.revocationDrain tag
    ((s.owner tag).kstate ≠ .revoking → exec e s = .next s) ∧
    ((s.owner tag).kstate = .revoking → (s.cmds.map (·.id)).Nodup →
      (∃ c ∈ s.cmds, s.ownerOf c.warp = tag ∧ c.port = 1 ∧ c.begun = true ∧ c.status = none) → ∃ t, exec e s = .next t ∧
      t.owners = s.owners ∧ t.mem = s.mem ∧ t.launches = s.launches ∧ t.warps = s.warps ∧
      ∀ c ∈ s.cmds, s.ownerOf c.warp = tag → c.status = none → (c.port = 4 ∨ (c.port = 1 ∧ c.begun = false)) →
        ∃ x ∈ t.cmds, x.id = c.id ∧ x.status = some 2) ∧
    ((s.owner tag).kstate = .revoking → (s.launches.map (·.1)).Nodup → s.heldLoads = [] → (∀ c ∈ s.cmds, s.ownerOf c.warp ≠ tag) →
      (∀ q ∈ s.mops, s.ownerOf q.warp ≠ tag) → ∃ t, exec e s = .next t ∧
      (t.owner tag).kstate = .empty ∧ (t.owner tag).key = 0 ∧
      ∀ li l, (li, l) ∈ s.launches → l.owner = tag → l.complete = false → (t.launch li).killed = true) ∧
    ((s.owner tag).kstate = .revoking → (∀ l ∈ s.launches, l.2.owner = tag → l.2.complete = true) →
      (∀ o ∈ s.ops, s.ownerOf o.warp ≠ tag) → (∀ c ∈ s.cmds, s.ownerOf c.warp ≠ tag) → (∀ q ∈ s.mops, s.ownerOf q.warp ≠ tag) →
      Cells.wf 0 s.mktTag = true → (∀ g ∈ s.mktTag, g.1 < 2 ^ 21) →
      (s.heldLoads = [] → ∃ t, exec e s = .next t ∧ TagWiped s t tag) ∧
      (∀ h blob, s.heldLoads = [(h, tag, blob)] →
        (∀ key, s.keyOf blob = some key → ∃ u t, exec e s = .next t ∧ TagWiped s u tag ∧
          Answered { u with owners := Keyed.put u.owners tag.toNat { u.owner tag with kstate := .loaded, key := key } } t h 0 0 0) ∧
        (s.keyOf blob = none → ∃ u t, exec e s = .next t ∧ TagWiped s u tag ∧ Answered u t h 5 0 0))))

/-- R436, R437 and R438: the semaphores of BAR 0, the registers of its rings, the doorbell of the command ring and the consumer
indexes of the others. A write that has no effect is discarded.
The model's own readings: log 79 (the value of a read stands in barRead, or is barReg); log 100 (the low 12 bits of BASE). -/
def Obligations.BarAccesses : Prop :=
  (∀ (s : State) (fn : HostFn) (n : Nat), n < 4 →
    let r := (s.box (fnIx fn)).ring n
    let at_ := fun reg => s.barReg fn (BitVec.ofNat 13 (0x100 + 64 * n + reg))
    at_ 0 = lo32 r.base ∧ at_ 4 = hi32 r.base ∧ at_ 8 = BitVec.ofNat 32 (r.size % 32) ∧ at_ 0x0C = r.prod.setWidth 32 ∧
    at_ 0x10 = r.cons.setWidth 32 ∧ at_ 0x14 = (if n = 2 then (s.box (fnIx fn)).lost else 0) ∧ (∀ reg, 0x18 ≤ reg → reg < 64 → at_ reg = 0) ∧
    s.barReg fn 0 = s.statusWord ∧ s.barReg fn 4 = s.temp) ∧
  (∀ (s : State) (port : Bool) (i : BitVec 4),
    (s.semaphores.getD i.toNat none = none → exec (.semaphoreRead port i) s = .next
      { s with semaphores := s.semaphores.set i.toNat (some port), barRead := 0x80000000 + if port then 1 else 0 }) ∧
    (∀ holder, s.semaphores.getD i.toNat none = some holder → exec (.semaphoreRead port i) s = .next
      { s with barRead := 0x40000000 + if holder then 1 else 0 }) ∧
    (s.semaphores.getD i.toNat none = some port → exec (.semaphoreWrite port i) s = .next { s with semaphores := s.semaphores.set i.toNat none }) ∧
    (s.semaphores.getD i.toNat none ≠ some port → exec (.semaphoreWrite port i) s = .next s)) ∧
  (∀ (s : State) (fn : HostFn) (prod : BitVec 16), ∃ t, exec (.doorbell fn prod) s = .next t ∧ HeadRead (s.rung (fnIx fn) prod) t fn) ∧
  (∀ (s : State) (fn : HostFn) (n : BitVec 2) (cons : BitVec 16),
    (n = 0 → exec (.consumerIndexWrite fn n cons) s = .next s) ∧
    (n ≠ 0 → ∃ t, exec (.consumerIndexWrite fn n cons) s = .next t ∧ Consumed s t fn n.toNat cons)) ∧
  (∀ (s : State) (fn : HostFn) (offset : BitVec 13) (v : Word),
    let f := fnIx fn
    let e := Instr.registerWrite fn offset v
    ((offset.toNat < 0x100 ∨ 0x200 ≤ offset.toNat) → exec e s = .next s) ∧
    (∀ n reg, n < 4 → reg < 64 → offset.toNat = 0x100 + 64 * n + reg →
      let r := (s.box f).ring n
      let put := fun r => { s with boxes := Keyed.put s.boxes f { s.box f with rings := (s.box f).rings.set n r } }
      (reg = 0 → exec e s = .next (if r.count = 0 then put { r with base := cat64 (hi32 r.base) v } else s)) ∧
      (reg = 4 → exec e s = .next (if r.count = 0 then put { r with base := cat64 v (lo32 r.base) } else s)) ∧
      (reg = 8 →
        let q := { r with size := v.toNat % 32 }
        exec e s = .next (put (if n = 0 ∧ q.count ≠ 0 ∧ q.count < (r.prod - r.cons).toNat then { q with prod := r.cons + BitVec.ofNat 16 q.count } else q))) ∧
      (reg = 0x0C → n = 0 → ∃ t, exec e s = .next t ∧ HeadRead (s.rung f (v.extractLsb' 0 16)) t fn) ∧
      (reg = 0x10 → n ≠ 0 → ∃ t, exec e s = .next t ∧ Consumed s t fn n (v.extractLsb' 0 16)) ∧
      ((reg = 0x0C → n ≠ 0) → (reg = 0x10 → n = 0) → reg ≠ 0 → reg ≠ 4 → reg ≠ 8 → exec e s = .next s)))

/-- R389, R391, R394, R395, R418, R422, R432, R433, R438, R440–R444, R446 and R448: the commands that configure the package, its
virtual functions, owner tags, keys, Market granules and fabric groups: when each is served, with what STATUS it completes, and
what it leaves behind.
The model's own readings: log 69 (which commands are served before READY); log 71 (CONFMODE after a PARTIAL scrub); log 72
(KEYREVOKE waits for the operations of the tag); log 75 (MKTOWN with UNASSIGN keeps data, and KEYLOAD of a held slot); log 78
(what VFCFG and OWNER accept); log 81 (FABRIC GROUP of a formed group). -/
def Obligations.ConfigurationCommands : Prop :=
  (∀ (s : State) (e : Instr) (h : CmdHeader) (vfMay safeMay : Bool) (st : Nat) (v0 v1 : Word) (after : State),
    s.configures e = some (h, vfMay, safeMay, st, v0, v1, after) →
    Served s e h vfMay safeMay ∧
    (s.applies h vfMay safeMay = true → ∃ t, exec e s = .next t ∧ Answered after t h st v0 v1)) ∧
  (∀ (s : State) (h : CmdHeader) (tag : Tag) (addr : DWord) (len : Nat),
    let e := Instr.keyload h tag addr len
    (len = 96 ∨ len = 180) → (s.owner tag).kstate = .revoking → Served s e h false false ∧
      (s.applies h false false = true → exec e s = .next { s with heldLoads := s.heldLoads ++ [(h, tag, s.hostBytes addr len)] })) ∧
  (∀ (s : State) (h : CmdHeader) (tag : Tag) (discard : Bool),
    let e := Instr.keyrevoke h tag discard
    (s.owner tag).kstate = .loaded → Served s e h false false ∧
      (s.applies h false false = true → ∃ t, exec e s = .next t ∧ (t.owner tag).kstate = .revoking ∧ (t.owner tag).discard = discard ∧
        (t.owner tag).key = (s.owner tag).key ∧ ∀ x, x ≠ tag → t.owner x = s.owner x)) ∧
  (∀ (s : State) (h : CmdHeader) (tag : Tag) (unassign : Bool) (addr : Word) (count : Nat),
    let e := Instr.mktown h tag unassign addr count
    let a := addr.toNat
    let granules := fun g => decide (a / 64 ≤ g ∧ g < a / 64 + count)
    Served s e h false false ∧
    (s.applies h false false = true → (a % 64 ≠ 0 ∨ 2 ^ 27 ≤ a ∨ count = 0 ∨ 2 ^ 27 < a + 64 * count) →
      ∃ t, exec e s = .next t ∧ Answered s t h 1 0 0) ∧
    (s.applies h false false = true → a % 64 = 0 → 0 < count → a + 64 * count ≤ 2 ^ 27 → ∃ u t, exec e s = .next t ∧ Answered u t h 0 0 0 ∧
      u = { s with mem := u.mem, mktTag := u.mktTag } ∧
      (∀ g, Cells.get 0 u.mktTag g = if granules g = true then (if unassign then 0 else tag.toNat + 1) else Cells.get 0 s.mktTag g) ∧
      (∀ g i, g < 2 ^ 21 → i < 64 → u.byte (marketLoc (64 * g + i)) =
        if granules g = true ∧ unassign = false ∧ Cells.get 0 s.mktTag g ≠ tag.toNat + 1 then 0 else s.byte (marketLoc (64 * g + i))) ∧
      ∀ loc, ¬ (2 ^ 84 ≤ loc ∧ loc < 2 ^ 84 + 2 ^ 27) → u.byte loc = s.byte loc)) ∧
  (∀ (s : State) (h : CmdHeader) (gid : BitVec 8),
    let e := Instr.fabricUngroup h gid
    Served s e h false false ∧
    (s.applies h false false = true → s.group? gid = none → ∃ t, exec e s = .next t ∧ Answered s t h 5 0 0) ∧
    (∀ g, s.applies h false false = true → s.group? gid = some g → g.reply = none → s.revolving g = false → s.copyOf_ gid = none →
      (s.cmds.map (·.id)).Nodup → ∃ u t, exec e s = .next t ∧ Answered u t h 0 0 0 ∧
      u = { s with groups := Keyed.del s.groups gid.toNat, cmds := u.cmds } ∧
      (∀ c ∈ s.cmds, pendingIn gid (fun _ => true) c = false → c ∈ u.cmds) ∧
      ∀ c ∈ s.cmds, ∀ k, pendingIn gid (fun _ => true) c = true → c.group = some (gid, k) →
        { c with status := some 8, bytes := 0, extra0 := k, extra3 := g.members.length, owned := [] } ∈ u.cmds))

/-- R218, R280, R282, R311, R312, R317, R420, R438, R441–R445: the commands that configure and remove model instances, stage
tickets, install, start and remove task graphs, submit launches, access memory and post to an inbox: when each is served, with what
STATUS it completes, and what it leaves behind.
The model's own readings: log 64 (POST takes the latest launch with the ID); log 69 (which commands are served before READY);
log 75 (INSTCFG of a live instance); log 76 (GRAPH with a live run, and an owner without a virtual function); log 77 (the
STATUS of LAUNCH, MEMWR and MEMRD); log 82 (replicated launches that are turned away). -/
def Obligations.JobCommands : Prop :=
  (∀ (s : State) (e : Instr) (h : CmdHeader) (vfMay safeMay : Bool) (st : Nat) (v0 v1 : Word) (after : State),
    s.manages e = some (h, vfMay, safeMay, st, v0, v1, after) →
    Served s e h vfMay safeMay ∧
    (s.applies h vfMay safeMay = true → ∃ t, exec e s = .next t ∧ Answered after t h st v0 v1)) ∧
  (∀ (s : State) (h : CmdHeader) (i : BitVec 4) (immediate : Bool) (x : Inst),
    let e := Instr.instcfgRemove h i immediate
    s.inst? i = some x → x.removing = none → (immediate = false ∨ x.state = .idle) → Served s e h false false ∧
      (s.applies h false false = true → exec e s = .next
        { s.locked with insts := Keyed.put s.insts i.toNat { x with removing := some immediate, reply := some h } })) ∧
  (∀ (s : State) (h : CmdHeader) (owner : Tag) (replicated : Bool) (gid : BitVec 8) (addr : DWord) (v : BitVec 6),
    let e := Instr.mailboxLaunch h owner replicated gid addr
    s.mayName h owner = true → (s.owner owner).vf = some v → Served s e h true false ∧
    (s.applies h true false = true →
      (replicated = false →
        (∀ va, s.readPacket owner false addr = .wait va → exec e s = .next s) ∧
        (∀ p param, s.readPacket owner false addr = .ok p param → ∃ u t, exec e s = .next t ∧
          Accepted s.locked u owner v p param .host false ∧ Answered u t h 0 (launchWord 0 s.launchCount.toNat) 0)) ∧
      (∀ g, replicated = true → s.group? gid = some g → g.owner = owner → g.broken = false → (g.rank s.config.pkg).isSome = true →
        (s.copyOf_ gid ≠ none → exec e s = .next s.locked) ∧
        (∀ va, s.copyOf_ gid = none → s.locked.readPacket owner false addr = .wait va → exec e s = .next s.locked) ∧
        (∀ p param, s.copyOf_ gid = none → s.locked.readPacket owner false addr = .ok p param → ∃ t, exec e s = .next t ∧
          Accepted { s.locked with groups := Keyed.put s.groups gid.toNat { g with reply := some h } } t owner v p param (.copy gid) true)))) ∧
  (∀ (s : State) (h : CmdHeader) (owner : Tag) (va : DWord) (len : Nat) (host : DWord),
    let far := (List.range len).map (fun i => hostLoc (host.toNat + i))
    0 < len → len ≤ 4096 → s.config.mailbox = true → s.mayName h owner = true → s.applies h true false = true →
    (let e := Instr.memwr h owner va len host
     let locs := s.placesOf owner false .write va len
     let ps := s.toCharge owner va len
     (s.translateRange owner false .write va len = .refused → ∃ t, exec e s = .next t ∧ Answered s t h 5 0 0) ∧
     (anyWaits [s.translateRange owner false .write va len] = true → exec e s = .next s) ∧
     (∀ a b c d, s.translateRange owner false .write va len = .ok a b c d →
       (s.writeFault owner locs = true → ∃ t, exec e s = .next t ∧ Answered s t h 5 0 0) ∧
       (s.writeFault owner locs = false → s.unitsCover owner ps = false →
         (s.unitsWait owner ps = true → exec e s = .next s) ∧
         (s.unitsWait owner ps = false → ∃ t, exec e s = .next t ∧ Answered s t h 5 0 0)) ∧
       (s.writeFault owner locs = false → s.unitsCover owner ps = true → (s.moving owner va len = true ∨ s.writable none locs = false) →
         exec e s = .next s) ∧
       (s.writeFault owner locs = false → s.unitsCover owner ps = true → s.moving owner va len = false → s.writable none locs = true →
         locs.Nodup → locs.length = len →
         ∃ u t, exec e s = .next t ∧ Answered u t h 0 0 0 ∧ u.boxes = s.boxes ∧
         u.charged = ps.map (fun p => { owner := owner, page := p.1, die := p.2.1 }) ++ s.charged ∧
         ∀ loc, u.byte loc = (laid locs (far.map s.byte) loc).getD (s.byte loc)))) ∧
    (let e := Instr.memrd h owner va len host
     let locs := s.placesOf owner false .read va len
     (s.translateRange owner false .read va len = .refused → ∃ t, exec e s = .next t ∧ Answered s t h 5 0 0) ∧
     (anyWaits [s.translateRange owner false .read va len] = true → exec e s = .next s) ∧
     (∀ a b c d, s.translateRange owner false .read va len = .ok a b c d →
       (locs.any (s.lineFault owner) = true → ∃ t, exec e s = .next t ∧ Answered s t h 5 0 0) ∧
       (locs.any (s.lineFault owner) = false → locs.length = len → ∃ u t, exec e s = .next t ∧ Answered u t h 0 0 0 ∧ u.boxes = s.boxes ∧
         ∀ loc, u.byte loc = (laid far (locs.map s.byte) loc).getD (s.byte loc))))) ∧
  (∀ (s : State) (h : CmdHeader) (launch : BitVec 24) (gang : Nat) (wgid : BitVec 3) (warp : BitVec 5) (q : BitVec 4) (mask : Word)
      (addr : DWord) (wi : Nat),
    let e := Instr.post h launch gang wgid warp q mask addr
    let b := (s.warp wi).queue q.toNat
    s.applies h true false = true → s.postWarp launch gang wgid.toNat warp.toNat = some wi → s.mayName h (s.ownerOf wi) = true →
    (s.warp wi).ended = false → b.kind = 10 → b.total < 8 + b.qs → (8 ≤ b.hw.length ∨ b.ring ≠ []) →
    ∃ t x, exec e s = .next t ∧ (t.warp wi).queue q.toNat = { b with ring := b.ring ++ [(b.nextK, x)], nextK := b.nextK + 1 } ∧
      x.mask = mask ∧ x.written = true ∧ x.words = (List.range 32).map (fun i => bytesWord (((s.hostBytes addr 128).drop (4 * i)).take 4)))
end

