-- ==== Sys2Proof/Laws/Cells.lean ====
section
/-! SUPPORT. Sparse storage: a read after a write, and the canonical form kept by every operation. -/

namespace Sys2Proof.Machine

variable {β : Type} (dflt : β)

theorem Cells.get_insert (m : List (Nat × β)) (i j : Nat) (x : β) :
    Cells.get dflt (Cells.insert m i x) j = if i = j then x else Cells.get dflt m j := by
  induction m with
  | nil => simp [Cells.insert, Cells.get]
  | cons e m ih =>
    obtain ⟨k, v⟩ := e
    by_cases h : k = i
    · subst h; by_cases hj : k = j <;> simp [Cells.insert, Cells.get, hj]
    · by_cases hl : i < k
      · simp [Cells.insert, Cells.get, h, hl]
      · by_cases hj : k = j
        · subst hj; simp [Cells.insert, Cells.get, h, hl, Ne.symm h]
        · simp [Cells.insert, Cells.get, h, hl, hj, ih]

theorem Cells.get_filter (p : Nat → Bool) (m : List (Nat × β)) (j : Nat) :
    Cells.get dflt (m.filter (fun e => p e.1)) j = if p j then Cells.get dflt m j else dflt := by
  induction m with
  | nil => simp [Cells.get]
  | cons e m ih =>
    obtain ⟨k, v⟩ := e
    rw [List.filter_cons]
    by_cases hj : k = j
    · subst hj
      by_cases hp : p k <;> simp [hp, Cells.get] at ih ⊢
      exact ih
    · by_cases hp : p k <;> simp [hp, hj, Cells.get, ih]

theorem Cells.get_erase (m : List (Nat × β)) (i j : Nat) :
    Cells.get dflt (Cells.erase m i) j = if i = j then dflt else Cells.get dflt m j := by
  have h := Cells.get_filter dflt (fun k => k != i) m j
  simp only [Cells.erase, h, bne_iff_ne, ne_eq]
  by_cases h' : i = j
  · simp [h']
  · simp [h', Ne.symm h']

/-- A read after a write gives the value written, and every other key reads as before. -/
@[simp] theorem Cells.get_set [DecidableEq β] (m : List (Nat × β)) (i j : Nat) (x : β) :
    Cells.get dflt (Cells.set dflt m i x) j = if i = j then x else Cells.get dflt m j := by
  unfold Cells.set
  split
  · next h => subst h; rw [Cells.get_erase]
  · exact Cells.get_insert dflt m i j x

theorem Cells.get_clear (m : List (Nat × β)) (lo hi j : Nat) :
    Cells.get dflt (Cells.clear m lo hi) j = if lo ≤ j ∧ j < hi then dflt else Cells.get dflt m j := by
  have h := Cells.get_filter dflt (fun k => !(decide (lo ≤ k) && decide (k < hi))) m j
  simp only [Cells.clear, h]
  by_cases h' : lo ≤ j ∧ j < hi
  · simp [h']
  · rw [if_pos, if_neg h']
    simp; omega

/-! ## The canonical form -/

variable [DecidableEq β]

theorem Cells.wfFrom_mono {dflt : β} {lo lo' : Nat} {m : List (Nat × β)} (h : lo' ≤ lo) (w : Cells.wfFrom dflt lo m = true) :
    Cells.wfFrom dflt lo' m = true := by
  cases m with
  | nil => rfl
  | cons e m => simp only [Cells.wfFrom, Bool.and_eq_true, decide_eq_true_eq] at w ⊢; exact ⟨⟨by omega, w.1.2⟩, w.2⟩

theorem Cells.wfFrom_filter {dflt : β} (p : Nat × β → Bool) {m : List (Nat × β)} {lo : Nat} (w : Cells.wfFrom dflt lo m = true) :
    Cells.wfFrom dflt lo (m.filter p) = true := by
  induction m generalizing lo with
  | nil => rfl
  | cons e m ih =>
    simp only [Cells.wfFrom, Bool.and_eq_true, decide_eq_true_eq] at w
    rw [List.filter_cons]
    split
    · simp only [Cells.wfFrom, Bool.and_eq_true, decide_eq_true_eq]; exact ⟨w.1, ih w.2⟩
    · exact Cells.wfFrom_mono (by omega) (ih w.2)

theorem Cells.wfFrom_insert {dflt : β} {m : List (Nat × β)} {lo i : Nat} {x : β} (hx : x ≠ dflt) (hi : lo ≤ i)
    (w : Cells.wfFrom dflt lo m = true) : Cells.wfFrom dflt lo (Cells.insert m i x) = true := by
  induction m generalizing lo with
  | nil => simp [Cells.insert, Cells.wfFrom, hx, hi]
  | cons e m ih =>
    obtain ⟨k, v⟩ := e
    simp only [Cells.wfFrom, Bool.and_eq_true, decide_eq_true_eq] at w
    simp only [Cells.insert]
    split
    · next h => simp [Cells.wfFrom, hx, w.1.1, w.2]
    · split
      · next h1 h2 => simp [Cells.wfFrom, hx, hi, w.1.2, w.2]; omega
      · next h1 h2 => simp only [Cells.wfFrom, Bool.and_eq_true, decide_eq_true_eq]; exact ⟨w.1, ih (by omega) w.2⟩

/-- A write keeps the canonical form. -/
theorem Cells.wf_set {dflt : β} {m : List (Nat × β)} (i : Nat) (x : β) (w : Cells.wf dflt m = true) :
    Cells.wf dflt (Cells.set dflt m i x) = true := by
  unfold Cells.set
  split
  · exact Cells.wfFrom_filter _ w
  · next h => exact Cells.wfFrom_insert h (Nat.zero_le _) w

/-- Clearing a range keeps the canonical form. -/
theorem Cells.wf_clear {dflt : β} {m : List (Nat × β)} (lo hi : Nat) (w : Cells.wf dflt m = true) :
    Cells.wf dflt (Cells.clear m lo hi) = true := Cells.wfFrom_filter _ w

/-- Keeping the keys below a bound keeps the canonical form. -/
theorem Cells.wf_below {dflt : β} {m : List (Nat × β)} (hi : Nat) (w : Cells.wf dflt m = true) :
    Cells.wf dflt (Cells.below m hi) = true := Cells.wfFrom_filter _ w

omit [DecidableEq β] in
/-- The record filed last under a key is the one read, and every other key reads as before. -/
@[simp] theorem Keyed.get_put (dflt : β) (m : List (Nat × β)) (i j : Nat) (x : β) :
    Keyed.get dflt (Keyed.put m i x) j = if i = j then x else Keyed.get dflt m j := by
  induction m with
  | nil => simp [Keyed.put, Keyed.get]
  | cons e m ih =>
    obtain ⟨k, v⟩ := e
    by_cases h : k = i
    · subst h; by_cases hj : k = j <;> simp [Keyed.put, Keyed.get, hj]
    · by_cases hj : k = j
      · subst hj; simp [Keyed.put, Keyed.get, h, Ne.symm h]
      · simp [Keyed.put, Keyed.get, h, hj, ih]

omit [DecidableEq β] in
@[simp] theorem Keyed.find_put (m : List (Nat × β)) (i j : Nat) (x : β) :
    Keyed.find (Keyed.put m i x) j = if i = j then some x else Keyed.find m j := by
  induction m with
  | nil => simp [Keyed.put, Keyed.find]
  | cons e m ih =>
    obtain ⟨k, v⟩ := e
    by_cases h : k = i
    · subst h; by_cases hj : k = j <;> simp [Keyed.put, Keyed.find, hj]
    · by_cases hj : k = j
      · subst hj; simp [Keyed.put, Keyed.find, h, Ne.symm h]
      · simp [Keyed.put, Keyed.find, h, hj, ih]

end Sys2Proof.Machine
end

