-- ==== Sys2Proof/Laws/Reach.lean ====
section
/-! SUPPORT. What effects can do, said once: they keep every storage canonical, and those of words and machine steps
leave what management holds. -/

namespace Sys2Proof.Machine

theorem Reach.trans {sys : Bool} {a b c : State} (h : Reach sys a b) (g : Reach sys b c) : Reach sys a c := by
  induction g with
  | start => exact h
  | act e _ ih => exact .act e ih
  | sys e hs _ ih => exact .sys e hs ih

theorem Reach.weaken {sys : Bool} {a b : State} (h : Reach sys a b) : Reach true a b := by
  induction h with
  | start => exact .start
  | act e _ ih => exact .act e ih
  | sys e _ _ ih => exact .sys e rfl ih

theorem SameManaged.refl (s : State) : SameManaged s s := ⟨rfl, rfl, rfl, rfl, rfl, rfl, rfl, rfl, rfl, rfl, rfl, rfl, rfl, rfl, rfl⟩

theorem Act.sameManaged (a : Act) (s : State) : SameManaged s (a.apply s) := by
  cases a <;> exact ⟨rfl, rfl, rfl, rfl, rfl, rfl, rfl, rfl, rfl, rfl, rfl, rfl, rfl, rfl, rfl⟩

theorem SameManaged.trans {a b c : State} (h : SameManaged a b) (g : SameManaged b c) : SameManaged a c :=
  ⟨g.1.trans h.1, g.2.trans h.2, g.3.trans h.3, g.4.trans h.4, g.5.trans h.5, g.6.trans h.6, g.7.trans h.7, g.8.trans h.8,
   g.9.trans h.9, g.10.trans h.10, g.11.trans h.11, g.12.trans h.12, g.13.trans h.13, g.14.trans h.14, g.15.trans h.15⟩

/-- The effects of words and machine steps leave what management holds. -/
theorem Reach.sameManaged {a b : State} (h : Reach false a b) : SameManaged a b := by
  induction h with
  | start => exact .refl _
  | act e _ ih => exact ih.trans (e.sameManaged _)
  | sys e hs => exact absurd hs (by decide)

theorem State.canonical_iff (s : State) : s.canonical = true ↔
    Cells.wf 0 s.mem = true ∧ Cells.wf false s.fe = true ∧ Cells.wf 0 s.mktTag = true ∧ Cells.wf 0 s.tiles = true ∧
    Cells.wf false s.bad = true ∧ Cells.wf 0 s.lineKey = true ∧ Cells.wf CacheLine.absent s.l2 = true ∧
    Cells.wf CacheLine.absent s.sc = true ∧ Cells.wf CacheLine.absent s.dups = true ∧ Cells.wf 0 s.signalled = true ∧
    Cells.wf false s.atc = true ∧ Cells.wf false s.hostRefuses = true ∧ Cells.wf 0 s.pins = true ∧
    Cells.wf 0 s.linkRetries = true ∧ Cells.wf false s.remoteLoaded = true := by
  simp only [State.canonical, Memory.wf, Bool.and_eq_true, and_assoc]

theorem Act.canonical (a : Act) {s : State} (h : s.canonical = true) : (a.apply s).canonical = true := by
  rw [State.canonical_iff] at h ⊢
  obtain ⟨h1, h2, h3, h4, h5, h6, h7, h8, h9, h10, h11, h12, h13, h14, h15⟩ := h
  cases a <;> (refine ⟨?_, ?_, ?_, ?_, ?_, ?_, ?_, ?_, ?_, ?_, ?_, ?_, ?_, ?_, ?_⟩ <;>
    first | assumption | (apply Cells.wf_set; assumption) | (apply Cells.wf_clear; assumption))

theorem Sys.canonical (e : Sys) {s : State} (h : s.canonical = true) : (e.apply s).canonical = true := by
  rw [State.canonical_iff] at h ⊢
  obtain ⟨h1, h2, h3, h4, h5, h6, h7, h8, h9, h10, h11, h12, h13, h14, h15⟩ := h
  cases e with
  | wipe b scrub =>
    cases scrub <;> (refine ⟨?_, ?_, ?_, ?_, ?_, ?_, ?_, ?_, ?_, ?_, ?_, ?_, ?_, ?_, ?_⟩ <;>
      first | assumption | rfl | (apply Cells.wf_below; assumption) |
        (apply Cells.wf_below; apply Cells.wf_clear; assumption) | (apply Cells.wf_clear; assumption))
  | _ => refine ⟨?_, ?_, ?_, ?_, ?_, ?_, ?_, ?_, ?_, ?_, ?_, ?_, ?_, ?_, ?_⟩ <;>
    first | assumption | (apply Cells.wf_set; assumption)

/-- Every effect keeps every storage canonical. -/
theorem Reach.canonical {sys : Bool} {a b : State} (h : Reach sys a b) (w : a.canonical = true) : b.canonical = true := by
  induction h with
  | start => exact w
  | act e _ ih => exact e.canonical ih
  | sys e _ _ ih => exact e.canonical ih

end Sys2Proof.Machine
end

