-- ==== Sys2Proof/Laws/Runs.lean ====
section
/-! SUPPORT. Every meaning answers a next state that effects lead to; a word's effects are none of management. -/

namespace Sys2Proof.Machine

/-- An outcome is a next state that effects lead to from a state. -/
def Runs (sys : Bool) (s : State) (o : Out) : Prop := ∃ t, o = .next t ∧ Reach sys s t

theorem Sim.runs {k : Bool} {s : State} (m : Sim k s) : Runs k s (ran m) := ⟨m.now, rfl, m.reach⟩

theorem Runs.weaken {k : Bool} {s : State} {o : Out} (h : Runs k s o) : Runs true s o :=
  let ⟨t, e, r⟩ := h; ⟨t, e, r.weaken⟩

theorem issueWord_runs (i : Instr) (s : State) (body : List Nat → Src → Sim false s → Sim false s) :
    Runs false s (issueWord i s body) := by
  unfold issueWord
  dsimp only
  repeat' (first | exact Sim.runs _ | split)

/-- Every word issues in the one frame of words, but for nop, which does nothing, and mma, which also
notes the lanes that its guard takes past it. -/
theorem exec_word (i : Instr) (h : isWord i = true) (s : State) :
    ((∃ c, i = .nop c) ∨ ∃ c g fs m a, i = .mma c g fs m a) ∨ ∃ body : List Nat → Src → Sim false s → Sim false s, exec i s = issueWord i s body := by
  cases i
  case nop c => exact .inl (.inl ⟨c, rfl⟩)
  case sget x0 x1 x2 =>
    refine .inr ?_; show ∃ body, execSget x0 x1 x2 s = _; unfold execSget; exact ⟨_, rfl⟩
  case sset x0 x1 x2 =>
    refine .inr ?_; show ∃ body, execSset x0 x1 x2 s = _; unfold execSset; exact ⟨_, rfl⟩
  case fwait x0 x1 =>
    refine .inr ?_; show ∃ body, execFwait x0 x1 s = _; unfold execFwait; exact ⟨_, rfl⟩
  case yield x0 =>
    refine .inr ?_; show ∃ body, execYield x0 s = _; unfold execYield; exact ⟨_, rfl⟩
  case brk x0 x1 =>
    refine .inr ?_; show ∃ body, execBrk x0 x1 s = _; unfold execBrk; exact ⟨_, rfl⟩
  case trap x0 x1 =>
    refine .inr ?_; show ∃ body, execTrap x0 x1 s = _; unfold execTrap; exact ⟨_, rfl⟩
  case add x0 x1 x2 x3 =>
    refine .inr ?_; show ∃ body, execAdd x0 x1 x2 x3 s = _; unfold execAdd aluWord; exact ⟨_, rfl⟩
  case sub x0 x1 x2 x3 =>
    refine .inr ?_; show ∃ body, execSub x0 x1 x2 x3 s = _; unfold execSub aluWord; exact ⟨_, rfl⟩
  case and x0 x1 x2 x3 =>
    refine .inr ?_; show ∃ body, execAnd x0 x1 x2 x3 s = _; unfold execAnd aluWord; exact ⟨_, rfl⟩
  case or x0 x1 x2 x3 =>
    refine .inr ?_; show ∃ body, execOr x0 x1 x2 x3 s = _; unfold execOr aluWord; exact ⟨_, rfl⟩
  case xor x0 x1 x2 x3 =>
    refine .inr ?_; show ∃ body, execXor x0 x1 x2 x3 s = _; unfold execXor aluWord; exact ⟨_, rfl⟩
  case andn x0 x1 x2 x3 =>
    refine .inr ?_; show ∃ body, execAndn x0 x1 x2 x3 s = _; unfold execAndn aluWord; exact ⟨_, rfl⟩
  case shl x0 x1 x2 x3 =>
    refine .inr ?_; show ∃ body, execShl x0 x1 x2 x3 s = _; unfold execShl aluWord; exact ⟨_, rfl⟩
  case shr x0 x1 x2 x3 =>
    refine .inr ?_; show ∃ body, execShr x0 x1 x2 x3 s = _; unfold execShr aluWord; exact ⟨_, rfl⟩
  case sra x0 x1 x2 x3 =>
    refine .inr ?_; show ∃ body, execSra x0 x1 x2 x3 s = _; unfold execSra aluWord; exact ⟨_, rfl⟩
  case rotl x0 x1 x2 x3 =>
    refine .inr ?_; show ∃ body, execRotl x0 x1 x2 x3 s = _; unfold execRotl aluWord; exact ⟨_, rfl⟩
  case min x0 x1 x2 x3 =>
    refine .inr ?_; show ∃ body, execMin x0 x1 x2 x3 s = _; unfold execMin aluWord; exact ⟨_, rfl⟩
  case max x0 x1 x2 x3 =>
    refine .inr ?_; show ∃ body, execMax x0 x1 x2 x3 s = _; unfold execMax aluWord; exact ⟨_, rfl⟩
  case minu x0 x1 x2 x3 =>
    refine .inr ?_; show ∃ body, execMinu x0 x1 x2 x3 s = _; unfold execMinu aluWord; exact ⟨_, rfl⟩
  case maxu x0 x1 x2 x3 =>
    refine .inr ?_; show ∃ body, execMaxu x0 x1 x2 x3 s = _; unfold execMaxu aluWord; exact ⟨_, rfl⟩
  case abs x0 x1 x2 =>
    refine .inr ?_; show ∃ body, execAbs x0 x1 x2 s = _; unfold execAbs aluWord; exact ⟨_, rfl⟩
  case clz x0 x1 x2 =>
    refine .inr ?_; show ∃ body, execClz x0 x1 x2 s = _; unfold execClz aluWord; exact ⟨_, rfl⟩
  case popc x0 x1 x2 =>
    refine .inr ?_; show ∃ body, execPopc x0 x1 x2 s = _; unfold execPopc aluWord; exact ⟨_, rfl⟩
  case brev x0 x1 x2 =>
    refine .inr ?_; show ∃ body, execBrev x0 x1 x2 s = _; unfold execBrev aluWord; exact ⟨_, rfl⟩
  case bfe x0 x1 x2 x3 =>
    refine .inr ?_; show ∃ body, execBfe x0 x1 x2 x3 s = _; unfold execBfe aluWord; exact ⟨_, rfl⟩
  case bfx x0 x1 x2 x3 =>
    refine .inr ?_; show ∃ body, execBfx x0 x1 x2 x3 s = _; unfold execBfx aluWord; exact ⟨_, rfl⟩
  case bfi x0 x1 x2 x3 =>
    refine .inr ?_; show ∃ body, execBfi x0 x1 x2 x3 s = _; unfold execBfi aluWord; exact ⟨_, rfl⟩
  case prmb x0 x1 x2 x3 =>
    refine .inr ?_; show ∃ body, execPrmb x0 x1 x2 x3 s = _; unfold execPrmb aluWord; exact ⟨_, rfl⟩
  case addi x0 x1 x2 x3 =>
    refine .inr ?_; show ∃ body, execAddi x0 x1 x2 x3 s = _; unfold execAddi aluWord; exact ⟨_, rfl⟩
  case andi x0 x1 x2 x3 =>
    refine .inr ?_; show ∃ body, execAndi x0 x1 x2 x3 s = _; unfold execAndi aluWord; exact ⟨_, rfl⟩
  case ori x0 x1 x2 x3 =>
    refine .inr ?_; show ∃ body, execOri x0 x1 x2 x3 s = _; unfold execOri aluWord; exact ⟨_, rfl⟩
  case xori x0 x1 x2 x3 =>
    refine .inr ?_; show ∃ body, execXori x0 x1 x2 x3 s = _; unfold execXori aluWord; exact ⟨_, rfl⟩
  case shli x0 x1 x2 x3 =>
    refine .inr ?_; show ∃ body, execShli x0 x1 x2 x3 s = _; unfold execShli aluWord; exact ⟨_, rfl⟩
  case shri x0 x1 x2 x3 =>
    refine .inr ?_; show ∃ body, execShri x0 x1 x2 x3 s = _; unfold execShri aluWord; exact ⟨_, rfl⟩
  case srai x0 x1 x2 x3 =>
    refine .inr ?_; show ∃ body, execSrai x0 x1 x2 x3 s = _; unfold execSrai aluWord; exact ⟨_, rfl⟩
  case mul x0 x1 x2 x3 =>
    refine .inr ?_; show ∃ body, execMul x0 x1 x2 x3 s = _; unfold execMul aluWord; exact ⟨_, rfl⟩
  case mulhi x0 x1 x2 x3 =>
    refine .inr ?_; show ∃ body, execMulhi x0 x1 x2 x3 s = _; unfold execMulhi aluWord; exact ⟨_, rfl⟩
  case mulhiu x0 x1 x2 x3 =>
    refine .inr ?_; show ∃ body, execMulhiu x0 x1 x2 x3 s = _; unfold execMulhiu aluWord; exact ⟨_, rfl⟩
  case mad x0 x1 x2 x3 =>
    refine .inr ?_; show ∃ body, execMad x0 x1 x2 x3 s = _; unfold execMad aluWord; exact ⟨_, rfl⟩
  case divu x0 x1 x2 x3 =>
    refine .inr ?_; show ∃ body, execDivu x0 x1 x2 x3 s = _; unfold execDivu aluWord; exact ⟨_, rfl⟩
  case remu x0 x1 x2 x3 =>
    refine .inr ?_; show ∃ body, execRemu x0 x1 x2 x3 s = _; unfold execRemu aluWord; exact ⟨_, rfl⟩
  case lil x0 x1 x2 =>
    refine .inr ?_; show ∃ body, execLil x0 x1 x2 s = _; unfold execLil aluWord; exact ⟨_, rfl⟩
  case lih x0 x1 x2 =>
    refine .inr ?_; show ∃ body, execLih x0 x1 x2 s = _; unfold execLih aluWord; exact ⟨_, rfl⟩
  case adpc x0 x1 x2 =>
    refine .inr ?_; show ∃ body, execAdpc x0 x1 x2 s = _; unfold execAdpc aluPair; exact ⟨_, rfl⟩
  case fadd x0 x1 x2 x3 x4 =>
    refine .inr ?_; show ∃ body, execFadd x0 x1 x2 x3 x4 s = _; unfold execFadd fpWord; exact ⟨_, rfl⟩
  case fsub x0 x1 x2 x3 x4 =>
    refine .inr ?_; show ∃ body, execFsub x0 x1 x2 x3 x4 s = _; unfold execFsub fpWord; exact ⟨_, rfl⟩
  case fmul x0 x1 x2 x3 x4 =>
    refine .inr ?_; show ∃ body, execFmul x0 x1 x2 x3 x4 s = _; unfold execFmul fpWord; exact ⟨_, rfl⟩
  case hadd2 x0 x1 x2 x3 x4 =>
    refine .inr ?_; show ∃ body, execHadd2 x0 x1 x2 x3 x4 s = _; unfold execHadd2 fpWord; exact ⟨_, rfl⟩
  case hmul2 x0 x1 x2 x3 x4 =>
    refine .inr ?_; show ∃ body, execHmul2 x0 x1 x2 x3 x4 s = _; unfold execHmul2 fpWord; exact ⟨_, rfl⟩
  case badd2 x0 x1 x2 x3 x4 =>
    refine .inr ?_; show ∃ body, execBadd2 x0 x1 x2 x3 x4 s = _; unfold execBadd2 fpWord; exact ⟨_, rfl⟩
  case bmul2 x0 x1 x2 x3 x4 =>
    refine .inr ?_; show ∃ body, execBmul2 x0 x1 x2 x3 x4 s = _; unfold execBmul2 fpWord; exact ⟨_, rfl⟩
  case fmin x0 x1 x2 x3 =>
    refine .inr ?_; show ∃ body, execFmin x0 x1 x2 x3 s = _; unfold execFmin fpWord; exact ⟨_, rfl⟩
  case fmax x0 x1 x2 x3 =>
    refine .inr ?_; show ∃ body, execFmax x0 x1 x2 x3 s = _; unfold execFmax fpWord; exact ⟨_, rfl⟩
  case fneg x0 x1 x2 =>
    refine .inr ?_; show ∃ body, execFneg x0 x1 x2 s = _; unfold execFneg fpWord; exact ⟨_, rfl⟩
  case fabs x0 x1 x2 =>
    refine .inr ?_; show ∃ body, execFabs x0 x1 x2 s = _; unfold execFabs fpWord; exact ⟨_, rfl⟩
  case ffma x0 x1 x2 x3 x4 =>
    refine .inr ?_; show ∃ body, execFfma x0 x1 x2 x3 x4 s = _; unfold execFfma fpWord; exact ⟨_, rfl⟩
  case ffms x0 x1 x2 x3 x4 =>
    refine .inr ?_; show ∃ body, execFfms x0 x1 x2 x3 x4 s = _; unfold execFfms fpWord; exact ⟨_, rfl⟩
  case hfma2 x0 x1 x2 x3 x4 =>
    refine .inr ?_; show ∃ body, execHfma2 x0 x1 x2 x3 x4 s = _; unfold execHfma2 fpWord; exact ⟨_, rfl⟩
  case bfma2 x0 x1 x2 x3 x4 =>
    refine .inr ?_; show ∃ body, execBfma2 x0 x1 x2 x3 x4 s = _; unfold execBfma2 fpWord; exact ⟨_, rfl⟩
  case hdot2 x0 x1 x2 x3 x4 =>
    refine .inr ?_; show ∃ body, execHdot2 x0 x1 x2 x3 x4 s = _; unfold execHdot2 fpWord; exact ⟨_, rfl⟩
  case cvtF32ToNarrow x0 x1 x2 x3 x4 x5 =>
    refine .inr ?_; show ∃ body, execCvtF32ToNarrow x0 x1 x2 x3 x4 x5 s = _; unfold execCvtF32ToNarrow fpWord; exact ⟨_, rfl⟩
  case cvtNarrowToF32 x0 x1 x2 x3 =>
    refine .inr ?_; show ∃ body, execCvtNarrowToF32 x0 x1 x2 x3 s = _; unfold execCvtNarrowToF32 fpWord; exact ⟨_, rfl⟩
  case cvtF32ToInt x0 x1 x2 x3 x4 x5 =>
    refine .inr ?_; show ∃ body, execCvtF32ToInt x0 x1 x2 x3 x4 x5 s = _; unfold execCvtF32ToInt fpWord; exact ⟨_, rfl⟩
  case cvtIntToF32 x0 x1 x2 x3 x4 =>
    refine .inr ?_; show ∃ body, execCvtIntToF32 x0 x1 x2 x3 x4 s = _; unfold execCvtIntToF32 fpWord; exact ⟨_, rfl⟩
  case cvtF16Bf16 x0 x1 x2 x3 x4 x5 =>
    refine .inr ?_; show ∃ body, execCvtF16Bf16 x0 x1 x2 x3 x4 x5 s = _; unfold execCvtF16Bf16 fpWord; exact ⟨_, rfl⟩
  case cvtF16ToFp8 x0 x1 x2 x3 x4 x5 =>
    refine .inr ?_; show ∃ body, execCvtF16ToFp8 x0 x1 x2 x3 x4 x5 s = _; unfold execCvtF16ToFp8 fpWord; exact ⟨_, rfl⟩
  case frnd x0 x1 x2 x3 =>
    refine .inr ?_; show ∃ body, execFrnd x0 x1 x2 x3 s = _; unfold execFrnd fpWord; exact ⟨_, rfl⟩
  case pack2F16 x0 x1 x2 x3 x4 =>
    refine .inr ?_; show ∃ body, execPack2F16 x0 x1 x2 x3 x4 s = _; unfold execPack2F16 fpWord; exact ⟨_, rfl⟩
  case pack2Bf16 x0 x1 x2 x3 x4 =>
    refine .inr ?_; show ∃ body, execPack2Bf16 x0 x1 x2 x3 x4 s = _; unfold execPack2Bf16 fpWord; exact ⟨_, rfl⟩
  case exp2 x0 x1 x2 =>
    refine .inr ?_; show ∃ body, execExp2 x0 x1 x2 s = _; unfold execExp2 xfnWord; exact ⟨_, rfl⟩
  case log2 x0 x1 x2 =>
    refine .inr ?_; show ∃ body, execLog2 x0 x1 x2 s = _; unfold execLog2 xfnWord; exact ⟨_, rfl⟩
  case rcp x0 x1 x2 =>
    refine .inr ?_; show ∃ body, execRcp x0 x1 x2 s = _; unfold execRcp xfnWord; exact ⟨_, rfl⟩
  case rsq x0 x1 x2 =>
    refine .inr ?_; show ∃ body, execRsq x0 x1 x2 s = _; unfold execRsq xfnWord; exact ⟨_, rfl⟩
  case sqrt x0 x1 x2 =>
    refine .inr ?_; show ∃ body, execSqrt x0 x1 x2 s = _; unfold execSqrt xfnWord; exact ⟨_, rfl⟩
  case sin x0 x1 x2 =>
    refine .inr ?_; show ∃ body, execSin x0 x1 x2 s = _; unfold execSin xfnWord; exact ⟨_, rfl⟩
  case cos x0 x1 x2 =>
    refine .inr ?_; show ∃ body, execCos x0 x1 x2 s = _; unfold execCos xfnWord; exact ⟨_, rfl⟩
  case tanh x0 x1 x2 =>
    refine .inr ?_; show ∃ body, execTanh x0 x1 x2 s = _; unfold execTanh xfnWord; exact ⟨_, rfl⟩
  case icmp x0 x1 x2 x3 x4 =>
    refine .inr ?_; show ∃ body, execIcmp x0 x1 x2 x3 x4 s = _; unfold execIcmp predWord; exact ⟨_, rfl⟩
  case icmpu x0 x1 x2 x3 x4 =>
    refine .inr ?_; show ∃ body, execIcmpu x0 x1 x2 x3 x4 s = _; unfold execIcmpu predWord; exact ⟨_, rfl⟩
  case fcmp x0 x1 x2 x3 x4 =>
    refine .inr ?_; show ∃ body, execFcmp x0 x1 x2 x3 x4 s = _; unfold execFcmp; exact ⟨_, rfl⟩
  case fclass x0 x1 x2 x3 =>
    refine .inr ?_; show ∃ body, execFclass x0 x1 x2 x3 s = _; unfold execFclass predWord; exact ⟨_, rfl⟩
  case plop x0 x1 x2 x3 x4 =>
    refine .inr ?_; show ∃ body, execPlop x0 x1 x2 x3 x4 s = _; unfold execPlop predWord; exact ⟨_, rfl⟩
  case sel x0 x1 x2 x3 x4 =>
    refine .inr ?_; show ∃ body, execSel x0 x1 x2 x3 x4 s = _; unfold execSel; exact ⟨_, rfl⟩
  case mov x0 x1 x2 =>
    refine .inr ?_; show ∃ body, execMov x0 x1 x2 s = _; unfold execMov; exact ⟨_, rfl⟩
  case movp x0 x1 x2 =>
    refine .inr ?_; show ∃ body, execMovp x0 x1 x2 s = _; unfold execMovp; exact ⟨_, rfl⟩
  case pmov x0 x1 x2 =>
    refine .inr ?_; show ∃ body, execPmov x0 x1 x2 s = _; unfold execPmov predWord; exact ⟨_, rfl⟩
  case br x0 x1 x2 =>
    refine .inr ?_; show ∃ body, execBr x0 x1 x2 s = _; unfold execBr; exact ⟨_, rfl⟩
  case call x0 x1 x2 =>
    refine .inr ?_; show ∃ body, execCall x0 x1 x2 s = _; unfold execCall; exact ⟨_, rfl⟩
  case brx x0 x1 x2 =>
    refine .inr ?_; show ∃ body, execBrx x0 x1 x2 s = _; unfold execBrx; exact ⟨_, rfl⟩
  case callx x0 x1 x2 =>
    refine .inr ?_; show ∃ body, execCallx x0 x1 x2 s = _; unfold execCallx; exact ⟨_, rfl⟩
  case ret x0 x1 =>
    refine .inr ?_; show ∃ body, execRet x0 x1 s = _; unfold execRet; exact ⟨_, rfl⟩
  case exit x0 x1 =>
    refine .inr ?_; show ∃ body, execExit x0 x1 s = _; unfold execExit; exact ⟨_, rfl⟩
  case meet x0 x1 x2 =>
    refine .inr ?_; show ∃ body, execMeet x0 x1 x2 s = _; unfold execMeet; exact ⟨_, rfl⟩
  case unmeet x0 x1 x2 =>
    refine .inr ?_; show ∃ body, execUnmeet x0 x1 x2 s = _; unfold execUnmeet; exact ⟨_, rfl⟩
  case voteAnd x0 x1 x2 x3 =>
    refine .inr ?_; show ∃ body, execVoteAnd x0 x1 x2 x3 s = _; unfold execVoteAnd collWord; exact ⟨_, rfl⟩
  case voteOr x0 x1 x2 x3 =>
    refine .inr ?_; show ∃ body, execVoteOr x0 x1 x2 x3 s = _; unfold execVoteOr collWord; exact ⟨_, rfl⟩
  case voteSame x0 x1 x2 x3 =>
    refine .inr ?_; show ∃ body, execVoteSame x0 x1 x2 x3 s = _; unfold execVoteSame collWord; exact ⟨_, rfl⟩
  case ballot x0 x1 x2 x3 =>
    refine .inr ?_; show ∃ body, execBallot x0 x1 x2 x3 s = _; unfold execBallot collWord; exact ⟨_, rfl⟩
  case shflLane x0 x1 x2 x3 =>
    refine .inr ?_; show ∃ body, execShflLane x0 x1 x2 x3 s = _; unfold execShflLane collWord; exact ⟨_, rfl⟩
  case shflRot x0 x1 x2 x3 =>
    refine .inr ?_; show ∃ body, execShflRot x0 x1 x2 x3 s = _; unfold execShflRot collWord; exact ⟨_, rfl⟩
  case shflOff x0 x1 x2 x3 =>
    refine .inr ?_; show ∃ body, execShflOff x0 x1 x2 x3 s = _; unfold execShflOff collWord; exact ⟨_, rfl⟩
  case shflSwap x0 x1 x2 x3 =>
    refine .inr ?_; show ∃ body, execShflSwap x0 x1 x2 x3 s = _; unfold execShflSwap collWord; exact ⟨_, rfl⟩
  case gredAdd x0 x1 x2 x3 =>
    refine .inr ?_; show ∃ body, execGredAdd x0 x1 x2 x3 s = _; unfold execGredAdd collWord; exact ⟨_, rfl⟩
  case gredMin x0 x1 x2 x3 =>
    refine .inr ?_; show ∃ body, execGredMin x0 x1 x2 x3 s = _; unfold execGredMin collWord; exact ⟨_, rfl⟩
  case gredMax x0 x1 x2 x3 =>
    refine .inr ?_; show ∃ body, execGredMax x0 x1 x2 x3 s = _; unfold execGredMax collWord; exact ⟨_, rfl⟩
  case gredArgmin x0 x1 x2 x3 =>
    refine .inr ?_; show ∃ body, execGredArgmin x0 x1 x2 x3 s = _; unfold execGredArgmin collWord; exact ⟨_, rfl⟩
  case gredArgmax x0 x1 x2 x3 =>
    refine .inr ?_; show ∃ body, execGredArgmax x0 x1 x2 x3 s = _; unfold execGredArgmax collWord; exact ⟨_, rfl⟩
  case gscan x0 x1 x2 x3 =>
    refine .inr ?_; show ∃ body, execGscan x0 x1 x2 x3 s = _; unfold execGscan collWord; exact ⟨_, rfl⟩
  case matchEq x0 x1 x2 x3 =>
    refine .inr ?_; show ∃ body, execMatchEq x0 x1 x2 x3 s = _; unfold execMatchEq collWord; exact ⟨_, rfl⟩
  case elect x0 x1 x2 =>
    refine .inr ?_; show ∃ body, execElect x0 x1 x2 s = _; unfold execElect collWord; exact ⟨_, rfl⟩
  case regq x0 x1 x2 x3 =>
    refine .inr ?_; show ∃ body, execRegq x0 x1 x2 x3 s = _; unfold execRegq collWord; exact ⟨_, rfl⟩
  case prio x0 x1 x2 x3 =>
    refine .inr ?_; show ∃ body, execPrio x0 x1 x2 x3 s = _; unfold execPrio collWord; exact ⟨_, rfl⟩
  case ld x0 x1 x2 x3 x4 x5 =>
    refine .inr ?_; show ∃ body, execLd x0 x1 x2 x3 x4 x5 s = _; unfold execLd loadWord; exact ⟨_, rfl⟩
  case ldl x0 x1 x2 x3 x4 x5 =>
    refine .inr ?_; show ∃ body, execLdl x0 x1 x2 x3 x4 x5 s = _; unfold execLdl loadWord; exact ⟨_, rfl⟩
  case ldlGang x0 x1 x2 x3 x4 x5 =>
    refine .inr ?_; show ∃ body, execLdlGang x0 x1 x2 x3 x4 x5 s = _; unfold execLdlGang loadWord; exact ⟨_, rfl⟩
  case ldm x0 x1 x2 x3 x4 x5 =>
    refine .inr ?_; show ∃ body, execLdm x0 x1 x2 x3 x4 x5 s = _; unfold execLdm loadWord; exact ⟨_, rfl⟩
  case ldc x0 x1 x2 x3 x4 x5 =>
    refine .inr ?_; show ∃ body, execLdc x0 x1 x2 x3 x4 x5 s = _; unfold execLdc loadWord; exact ⟨_, rfl⟩
  case st x0 x1 x2 x3 x4 x5 =>
    refine .inr ?_; show ∃ body, execSt x0 x1 x2 x3 x4 x5 s = _; unfold execSt storeWord; exact ⟨_, rfl⟩
  case stl x0 x1 x2 x3 x4 x5 =>
    refine .inr ?_; show ∃ body, execStl x0 x1 x2 x3 x4 x5 s = _; unfold execStl storeWord; exact ⟨_, rfl⟩
  case stlGang x0 x1 x2 x3 x4 x5 =>
    refine .inr ?_; show ∃ body, execStlGang x0 x1 x2 x3 x4 x5 s = _; unfold execStlGang storeWord; exact ⟨_, rfl⟩
  case stm x0 x1 x2 x3 x4 x5 =>
    refine .inr ?_; show ∃ body, execStm x0 x1 x2 x3 x4 x5 s = _; unfold execStm storeWord; exact ⟨_, rfl⟩
  case atom x0 x1 x2 x3 x4 x5 =>
    refine .inr ?_; show ∃ body, execAtom x0 x1 x2 x3 x4 x5 s = _; unfold execAtom atomWord; exact ⟨_, rfl⟩
  case atoml x0 x1 x2 x3 x4 x5 =>
    refine .inr ?_; show ∃ body, execAtoml x0 x1 x2 x3 x4 x5 s = _; unfold execAtoml atomWord; exact ⟨_, rfl⟩
  case atomGang x0 x1 x2 x3 x4 x5 =>
    refine .inr ?_; show ∃ body, execAtomGang x0 x1 x2 x3 x4 x5 s = _; unfold execAtomGang atomWord; exact ⟨_, rfl⟩
  case atomMkt x0 x1 x2 x3 x4 x5 =>
    refine .inr ?_; show ∃ body, execAtomMkt x0 x1 x2 x3 x4 x5 s = _; unfold execAtomMkt atomWord; exact ⟨_, rfl⟩
  case cas x0 x1 x2 x3 x4 x5 =>
    refine .inr ?_; show ∃ body, execCas x0 x1 x2 x3 x4 x5 s = _; unfold execCas atomWord; exact ⟨_, rfl⟩
  case casB64 x0 x1 x2 x3 x4 x5 =>
    refine .inr ?_; show ∃ body, execCasB64 x0 x1 x2 x3 x4 x5 s = _; unfold execCasB64 atomWord; exact ⟨_, rfl⟩
  case madd x0 x1 x2 x3 x4 =>
    refine .inr ?_; show ∃ body, execMadd x0 x1 x2 x3 x4 s = _; unfold execMadd marketWord; exact ⟨_, rfl⟩
  case mamax x0 x1 x2 x3 x4 =>
    refine .inr ?_; show ∃ body, execMamax x0 x1 x2 x3 x4 s = _; unfold execMamax marketWord; exact ⟨_, rfl⟩
  case mred x0 x1 x2 x3 x4 =>
    refine .inr ?_; show ∃ body, execMred x0 x1 x2 x3 x4 s = _; unfold execMred marketWord; exact ⟨_, rfl⟩
  case mscale x0 x1 x2 x3 x4 =>
    refine .inr ?_; show ∃ body, execMscale x0 x1 x2 x3 x4 s = _; unfold execMscale marketWord; exact ⟨_, rfl⟩
  case bar x0 x1 x2 =>
    refine .inr ?_; show ∃ body, execBar x0 x1 x2 s = _; unfold execBar barWord; exact ⟨_, rfl⟩
  case gbar x0 x1 x2 =>
    refine .inr ?_; show ∃ body, execGbar x0 x1 x2 s = _; unfold execGbar barWord; exact ⟨_, rfl⟩
  case fenceAcq x0 x1 x2 =>
    refine .inr ?_; show ∃ body, execFenceAcq x0 x1 x2 s = _; unfold execFenceAcq; exact ⟨_, rfl⟩
  case fenceRel x0 x1 x2 =>
    refine .inr ?_; show ∃ body, execFenceRel x0 x1 x2 s = _; unfold execFenceRel; exact ⟨_, rfl⟩
  case fenceAr x0 x1 x2 =>
    refine .inr ?_; show ∃ body, execFenceAr x0 x1 x2 s = _; unfold execFenceAr; exact ⟨_, rfl⟩
  case feset x0 x1 x2 x3 x4 x5 =>
    refine .inr ?_; show ∃ body, execFeset x0 x1 x2 x3 x4 x5 s = _; unfold execFeset feWord; exact ⟨_, rfl⟩
  case feclr x0 x1 x2 x3 x4 x5 =>
    refine .inr ?_; show ∃ body, execFeclr x0 x1 x2 x3 x4 x5 s = _; unfold execFeclr feWord; exact ⟨_, rfl⟩
  case fepoll x0 x1 x2 x3 x4 x5 =>
    refine .inr ?_; show ∃ body, execFepoll x0 x1 x2 x3 x4 x5 s = _; unfold execFepoll feWord; exact ⟨_, rfl⟩
  case tryOpen x0 x1 x2 x3 x4 =>
    refine .inr ?_; show ∃ body, execTryOpen x0 x1 x2 x3 x4 s = _; unfold execTryOpen; exact ⟨_, rfl⟩
  case commit x0 x1 x2 =>
    refine .inr ?_; show ∃ body, execCommit x0 x1 x2 s = _; unfold execCommit; exact ⟨_, rfl⟩
  case tabort x0 x1 x2 =>
    refine .inr ?_; show ∃ body, execTabort x0 x1 x2 s = _; unfold execTabort; exact ⟨_, rfl⟩
  case tstat x0 x1 x2 =>
    refine .inr ?_; show ∃ body, execTstat x0 x1 x2 s = _; unfold execTstat; exact ⟨_, rfl⟩
  case qbind x0 x1 x2 x3 =>
    refine .inr ?_; show ∃ body, execQbind x0 x1 x2 x3 s = _; unfold execQbind; exact ⟨_, rfl⟩
  case qstat x0 x1 x2 x3 =>
    refine .inr ?_; show ∃ body, execQstat x0 x1 x2 x3 s = _; unfold execQstat; exact ⟨_, rfl⟩
  case qflush x0 x1 x2 x3 x4 x5 =>
    refine .inr ?_; show ∃ body, execQflush x0 x1 x2 x3 x4 x5 s = _; unfold execQflush; exact ⟨_, rfl⟩
  case launch x0 x1 x2 x3 x4 =>
    refine .inr ?_; show ∃ body, execLaunch x0 x1 x2 x3 x4 s = _; unfold execLaunch engineWord; exact ⟨_, rfl⟩
  case gsignal x0 x1 x2 x3 x4 =>
    refine .inr ?_; show ∃ body, execGsignal x0 x1 x2 x3 x4 s = _; unfold execGsignal engineWord; exact ⟨_, rfl⟩
  case mma c g fs m a => exact .inl (.inr ⟨c, g, fs, m, a, rfl⟩)
  case mdrainL x0 x1 x2 x3 =>
    refine .inr ?_; show ∃ body, execMdrainL x0 x1 x2 x3 s = _; unfold execMdrainL drainWord; exact ⟨_, rfl⟩
  case mdrainR x0 x1 x2 x3 x4 =>
    refine .inr ?_; show ∃ body, execMdrainR x0 x1 x2 x3 x4 s = _; unfold execMdrainR drainWord; exact ⟨_, rfl⟩
  case mzero x0 x1 x2 x3 =>
    refine .inr ?_; show ∃ body, execMzero x0 x1 x2 x3 s = _; unfold execMzero drainWord; exact ⟨_, rfl⟩
  case tap x0 x1 x2 x3 x4 =>
    refine .inr ?_; show ∃ body, execTap x0 x1 x2 x3 x4 s = _; unfold execTap groupWord; exact ⟨_, rfl⟩
  case fget x0 x1 x2 x3 x4 =>
    refine .inr ?_; show ∃ body, execFget x0 x1 x2 x3 x4 s = _; unfold execFget engineWord; exact ⟨_, rfl⟩
  case frd x0 x1 x2 x3 x4 =>
    refine .inr ?_; show ∃ body, execFrd x0 x1 x2 x3 x4 s = _; unfold execFrd engineWord; exact ⟨_, rfl⟩
  case fwr x0 x1 x2 x3 x4 =>
    refine .inr ?_; show ∃ body, execFwr x0 x1 x2 x3 x4 s = _; unfold execFwr engineWord; exact ⟨_, rfl⟩
  case frel x0 x1 x2 x3 x4 =>
    refine .inr ?_; show ∃ body, execFrel x0 x1 x2 x3 x4 s = _; unfold execFrel engineWord; exact ⟨_, rfl⟩
  case fdec x0 x1 x2 x3 x4 =>
    refine .inr ?_; show ∃ body, execFdec x0 x1 x2 x3 x4 s = _; unfold execFdec groupWord; exact ⟨_, rfl⟩
  case tkrd x0 x1 x2 x3 x4 =>
    refine .inr ?_; show ∃ body, execTkrd x0 x1 x2 x3 x4 s = _; unfold execTkrd ticketWord; exact ⟨_, rfl⟩
  case tkwr x0 x1 x2 x3 x4 =>
    refine .inr ?_; show ∃ body, execTkwr x0 x1 x2 x3 x4 s = _; unfold execTkwr ticketWord; exact ⟨_, rfl⟩
  case tkappend x0 x1 x2 x3 x4 =>
    refine .inr ?_; show ∃ body, execTkappend x0 x1 x2 x3 x4 s = _; unfold execTkappend ticketWord; exact ⟨_, rfl⟩
  case tktrunc x0 x1 x2 x3 x4 =>
    refine .inr ?_; show ∃ body, execTktrunc x0 x1 x2 x3 x4 s = _; unfold execTktrunc ticketWord; exact ⟨_, rfl⟩
  case tkret x0 x1 x2 x3 x4 =>
    refine .inr ?_; show ∃ body, execTkret x0 x1 x2 x3 x4 s = _; unfold execTkret ticketWord; exact ⟨_, rfl⟩
  case tkfork x0 x1 x2 x3 x4 =>
    refine .inr ?_; show ∃ body, execTkfork x0 x1 x2 x3 x4 s = _; unfold execTkfork ticketWord; exact ⟨_, rfl⟩
  case kvmap x0 x1 x2 x3 x4 =>
    refine .inr ?_; show ∃ body, execKvmap x0 x1 x2 x3 x4 s = _; unfold execKvmap ticketWord; exact ⟨_, rfl⟩
  case rot x0 x1 x2 x3 x4 =>
    refine .inr ?_; show ∃ body, execRot x0 x1 x2 x3 x4 s = _; unfold execRot; exact ⟨_, rfl⟩
  case pres x0 x1 x2 x3 x4 =>
    refine .inr ?_; show ∃ body, execPres x0 x1 x2 x3 x4 s = _; unfold execPres engineWord; exact ⟨_, rfl⟩
  case prel x0 x1 x2 x3 x4 =>
    refine .inr ?_; show ∃ body, execPrel x0 x1 x2 x3 x4 s = _; unfold execPrel engineWord; exact ⟨_, rfl⟩
  case pdisc x0 x1 x2 x3 x4 =>
    refine .inr ?_; show ∃ body, execPdisc x0 x1 x2 x3 x4 s = _; unfold execPdisc pageWord; exact ⟨_, rfl⟩
  case pflush x0 x1 x2 x3 x4 x5 =>
    refine .inr ?_; show ∃ body, execPflush x0 x1 x2 x3 x4 x5 s = _; unfold execPflush pageWord; exact ⟨_, rfl⟩
  case pmig x0 x1 x2 x3 x4 =>
    refine .inr ?_; show ∃ body, execPmig x0 x1 x2 x3 x4 s = _; unfold execPmig pageWord; exact ⟨_, rfl⟩
  case rfe x0 x1 =>
    refine .inr ?_; show ∃ body, execRfe x0 x1 s = _; unfold execRfe; exact ⟨_, rfl⟩
  case killW x0 x1 x2 =>
    refine .inr ?_; show ∃ body, execKillW x0 x1 x2 s = _; unfold execKillW; exact ⟨_, rfl⟩
  case killG x0 x1 =>
    refine .inr ?_; show ∃ body, execKillG x0 x1 s = _; unfold execKillG; exact ⟨_, rfl⟩
  case killL x0 x1 =>
    refine .inr ?_; show ∃ body, execKillL x0 x1 s = _; unfold execKillL; exact ⟨_, rfl⟩
  case tlbinv x0 x1 x2 x3 x4 =>
    refine .inr ?_; show ∃ body, execTlbinv x0 x1 x2 x3 x4 s = _; unfold execTlbinv; exact ⟨_, rfl⟩
  case tlbinvOwn x0 x1 x2 =>
    refine .inr ?_; show ∃ body, execTlbinvOwn x0 x1 x2 s = _; unfold execTlbinvOwn; exact ⟨_, rfl⟩
  case tlbinvAll x0 x1 x2 =>
    refine .inr ?_; show ∃ body, execTlbinvAll x0 x1 x2 s = _; unfold execTlbinvAll; exact ⟨_, rfl⟩
  case icinv x0 x1 x2 x3 x4 =>
    refine .inr ?_; show ∃ body, execIcinv x0 x1 x2 x3 x4 s = _; unfold execIcinv; exact ⟨_, rfl⟩
  case icinvAll x0 x1 x2 =>
    refine .inr ?_; show ∃ body, execIcinvAll x0 x1 x2 s = _; unfold execIcinvAll; exact ⟨_, rfl⟩
  case cntsel x0 x1 x2 x3 =>
    refine .inr ?_; show ∃ body, execCntsel x0 x1 x2 x3 s = _; unfold execCntsel; exact ⟨_, rfl⟩
  case cntselRd x0 x1 x2 x3 =>
    refine .inr ?_; show ∃ body, execCntselRd x0 x1 x2 x3 s = _; unfold execCntselRd; exact ⟨_, rfl⟩
  case cntselSmp x0 x1 x2 x3 =>
    refine .inr ?_; show ∃ body, execCntselSmp x0 x1 x2 x3 s = _; unfold execCntselSmp; exact ⟨_, rfl⟩
  case cntselRot x0 x1 x2 x3 =>
    refine .inr ?_; show ∃ body, execCntselRot x0 x1 x2 x3 s = _; unfold execCntselRot; exact ⟨_, rfl⟩
  case qblk x0 x1 x2 x3 x4 =>
    refine .inr ?_; show ∃ body, execQblk x0 x1 x2 x3 x4 s = _; unfold execQblk; exact ⟨_, rfl⟩
  case dqblk x0 x1 x2 x3 x4 =>
    refine .inr ?_; show ∃ body, execDqblk x0 x1 x2 x3 x4 s = _; unfold execDqblk; exact ⟨_, rfl⟩
  case qfp8 x0 x1 x2 x3 x4 =>
    refine .inr ?_; show ∃ body, execQfp8 x0 x1 x2 x3 x4 s = _; unfold execQfp8; exact ⟨_, rfl⟩
  case add64 x0 x1 x2 x3 =>
    refine .inr ?_; show ∃ body, execAdd64 x0 x1 x2 x3 s = _; unfold execAdd64 aluPair; exact ⟨_, rfl⟩
  case sub64 x0 x1 x2 x3 =>
    refine .inr ?_; show ∃ body, execSub64 x0 x1 x2 x3 s = _; unfold execSub64 aluPair; exact ⟨_, rfl⟩
  case shl64 x0 x1 x2 x3 =>
    refine .inr ?_; show ∃ body, execShl64 x0 x1 x2 x3 s = _; unfold execShl64 aluPair; exact ⟨_, rfl⟩
  case shr64 x0 x1 x2 x3 =>
    refine .inr ?_; show ∃ body, execShr64 x0 x1 x2 x3 s = _; unfold execShr64 aluPair; exact ⟨_, rfl⟩
  case madw x0 x1 x2 x3 =>
    refine .inr ?_; show ∃ body, execMadw x0 x1 x2 x3 s = _; unfold execMadw aluPair; exact ⟨_, rfl⟩
  case sext64 x0 x1 x2 =>
    refine .inr ?_; show ∃ body, execSext64 x0 x1 x2 s = _; unfold execSext64 aluPair; exact ⟨_, rfl⟩
  case dsel x0 x1 x2 x3 x4 =>
    refine .inr ?_; show ∃ body, execDsel x0 x1 x2 x3 x4 s = _; unfold execDsel; exact ⟨_, rfl⟩
  case rng x0 x1 x2 x3 x4 =>
    refine .inr ?_; show ∃ body, execRng x0 x1 x2 x3 x4 s = _; unfold execRng; exact ⟨_, rfl⟩
  case rngk x0 x1 x2 x3 =>
    refine .inr ?_; show ∃ body, execRngk x0 x1 x2 x3 s = _; unfold execRngk; exact ⟨_, rfl⟩
  case schedulerIssue => exact Bool.noConfusion h
  case longLatencyComplete => exact Bool.noConfusion h
  case collectivePerform => exact Bool.noConfusion h
  case barrierComplete => exact Bool.noConfusion h
  case feWaitPerform => exact Bool.noConfusion h
  case rdupInvalidateAck => exact Bool.noConfusion h
  case mmpFaultService => exact Bool.noConfusion h
  case lateFrame => exact Bool.noConfusion h
  case priResponse => exact Bool.noConfusion h
  case atsInvalidation => exact Bool.noConfusion h
  case engineRecallRelease => exact Bool.noConfusion h
  case tryRollback => exact Bool.noConfusion h
  case commandReceive => exact Bool.noConfusion h
  case resultPost => exact Bool.noConfusion h
  case peerDeliver => exact Bool.noConfusion h
  case awningRefill => exact Bool.noConfusion h
  case copy => exact Bool.noConfusion h
  case copyZero => exact Bool.noConfusion h
  case allreduce => exact Bool.noConfusion h
  case broadcast => exact Bool.noConfusion h
  case allgather => exact Bool.noConfusion h
  case reducescatter => exact Bool.noConfusion h
  case fabricBarrier => exact Bool.noConfusion h
  case matrixMma => exact Bool.noConfusion h
  case matrixDrain => exact Bool.noConfusion h
  case matrixZero => exact Bool.noConfusion h
  case drawDsel => exact Bool.noConfusion h
  case featureTap => exact Bool.noConfusion h
  case outboxWrite => exact Bool.noConfusion h
  case rowGroupTake => exact Bool.noConfusion h
  case matrixOpComplete => exact Bool.noConfusion h
  case gangPlace => exact Bool.noConfusion h
  case launchStarvation => exact Bool.noConfusion h
  case graphNodeStart => exact Bool.noConfusion h
  case baristaStep => exact Bool.noConfusion h
  case stepDone => exact Bool.noConfusion h
  case grinderRow => exact Bool.noConfusion h
  case watchHandlerEnd => exact Bool.noConfusion h
  case trapDelivery => exact Bool.noConfusion h
  case timerTick => exact Bool.noConfusion h
  case counterAdvance => exact Bool.noConfusion h
  case counterRotate => exact Bool.noConfusion h
  case gangHalt => exact Bool.noConfusion h
  case drainTimeout => exact Bool.noConfusion h
  case worldSwitch => exact Bool.noConfusion h
  case revocationDrain => exact Bool.noConfusion h
  case powerOn => exact Bool.noConfusion h
  case governorStep => exact Bool.noConfusion h
  case thermalTrip => exact Bool.noConfusion h
  case semaphoreRead => exact Bool.noConfusion h
  case semaphoreWrite => exact Bool.noConfusion h
  case doorbell => exact Bool.noConfusion h
  case consumerIndexWrite => exact Bool.noConfusion h
  case registerWrite => exact Bool.noConfusion h
  case status => exact Bool.noConfusion h
  case fwload => exact Bool.noConfusion h
  case config => exact Bool.noConfusion h
  case vfcfg => exact Bool.noConfusion h
  case owner => exact Bool.noConfusion h
  case keyload => exact Bool.noConfusion h
  case keyrevoke => exact Bool.noConfusion h
  case instcfg => exact Bool.noConfusion h
  case instcfgRemove => exact Bool.noConfusion h
  case tkupd => exact Bool.noConfusion h
  case graphInstall => exact Bool.noConfusion h
  case graphStart => exact Bool.noConfusion h
  case graphRemove => exact Bool.noConfusion h
  case mailboxLaunch => exact Bool.noConfusion h
  case stop => exact Bool.noConfusion h
  case memwr => exact Bool.noConfusion h
  case memrd => exact Bool.noConfusion h
  case post => exact Bool.noConfusion h
  case fabricJoin => exact Bool.noConfusion h
  case fabricGroup => exact Bool.noConfusion h
  case fabricUngroup => exact Bool.noConfusion h
  case confmode => exact Bool.noConfusion h
  case reset => exact Bool.noConfusion h
  case mktown => exact Bool.noConfusion h
  case flitRetry => exact Bool.noConfusion h
  case revolutionClose => exact Bool.noConfusion h
  case revolutionAbandon => exact Bool.noConfusion h
  case memberLeave => exact Bool.noConfusion h
  case launchCopyReceipt => exact Bool.noConfusion h
  case startBarrier => exact Bool.noConfusion h
  case remoteAccess => exact Bool.noConfusion h
  case pagexHandover => exact Bool.noConfusion h
  case pagexReturn => exact Bool.noConfusion h
  case devFrameMigration => exact Bool.noConfusion h
  case hdmDecoderCommit => exact Bool.noConfusion h

theorem execMma_runs (c : Bool) (g : Guard) (fs : Bool) (mask a : Reg) (s : State) :
    Runs false s (execMma c g fs mask a s) := by
  unfold execMma
  dsimp only
  split
  · next t h =>
    obtain ⟨t', e, r⟩ := issueWord_runs (.mma c g fs mask a) s _
    rw [e] at h
    cases h
    exact ⟨_, rfl, r.trans (Sim.modWarp _ _ _).reach⟩
  · next h =>
    obtain ⟨t', e, r⟩ := issueWord_runs (.mma c g fs mask a) s _
    exact absurd e (h t')

theorem exec_word_runs (i : Instr) (h : isWord i = true) (s : State) : Runs false s (exec i s) := by
  obtain (⟨c, rfl⟩ | ⟨c, g, fs, m, a, rfl⟩) | ⟨body, e⟩ := exec_word i h s
  · exact Sim.runs _
  · exact execMma_runs ..
  · rw [e]; exact issueWord_runs _ _ _

theorem mailboxWord_runs (h : CmdHeader) (vfMay safeMay : Bool) (s : State) (f : Sim true s → Sim true s) :
    Runs true s (mailboxWord h vfMay safeMay s f) := by
  unfold mailboxWord
  repeat' (first | exact Sim.runs _ | split)

theorem execSchedulerIssue_runs (sc : Nat) (s : State) : Runs true s (execSchedulerIssue sc s) := by
  unfold execSchedulerIssue 
  try dsimp only
  repeat' (first | exact Sim.runs _ | exact (Sim.runs _).weaken | exact mailboxWord_runs .. | split)

theorem execLongLatencyComplete_runs (op : Nat) (s : State) : Runs true s (execLongLatencyComplete op s) := by
  unfold execLongLatencyComplete 
  try dsimp only
  repeat' (first | exact Sim.runs _ | exact (Sim.runs _).weaken | exact mailboxWord_runs .. | split)

theorem execCollectivePerform_runs (wi : Nat) (s : State) : Runs true s (execCollectivePerform wi s) := by
  unfold execCollectivePerform 
  try dsimp only
  repeat' (first | exact Sim.runs _ | exact (Sim.runs _).weaken | exact mailboxWord_runs .. | split)

theorem execBarrierComplete_runs (wg : Nat) (gang : Bool) (n : BitVec 2) (s : State) : Runs true s (execBarrierComplete wg gang n s) := by
  unfold execBarrierComplete 
  try dsimp only
  repeat' (first | exact Sim.runs _ | exact (Sim.runs _).weaken | exact mailboxWord_runs .. | split)

theorem execFeWaitPerform_runs (op : Nat) (s : State) : Runs true s (execFeWaitPerform op s) := by
  unfold execFeWaitPerform 
  try dsimp only
  repeat' (first | exact Sim.runs _ | exact (Sim.runs _).weaken | exact mailboxWord_runs .. | split)

theorem execRdupInvalidateAck_runs (op : Nat) (s : State) : Runs true s (execRdupInvalidateAck op s) := by
  unfold execRdupInvalidateAck 
  try dsimp only
  repeat' (first | exact Sim.runs _ | exact (Sim.runs _).weaken | exact mailboxWord_runs .. | split)

theorem execMmpFaultService_runs (owner : Tag) (va : DWord) (ans : MmpAnswer) (s : State) : Runs true s (execMmpFaultService owner va ans s) := by
  unfold execMmpFaultService 
  try dsimp only
  repeat' (first | exact Sim.runs _ | exact (Sim.runs _).weaken | exact mailboxWord_runs .. | split)

theorem execLateFrame_runs (owner : Tag) (va : DWord) (frame : Option Nat) (s : State) : Runs true s (execLateFrame owner va frame s) := by
  unfold execLateFrame 
  try dsimp only
  repeat' (first | exact Sim.runs _ | exact (Sim.runs _).weaken | exact mailboxWord_runs .. | split)

theorem execPriResponse_runs (owner : Tag) (va : DWord) (granted : Bool) (s : State) : Runs true s (execPriResponse owner va granted s) := by
  unfold execPriResponse 
  try dsimp only
  repeat' (first | exact Sim.runs _ | exact (Sim.runs _).weaken | exact mailboxWord_runs .. | split)

theorem execAtsInvalidation_runs (iova : DWord) (pages : Nat) (s : State) : Runs true s (execAtsInvalidation iova pages s) := by
  unfold execAtsInvalidation 
  try dsimp only
  repeat' (first | exact Sim.runs _ | exact (Sim.runs _).weaken | exact mailboxWord_runs .. | split)

theorem execEngineRecallRelease_runs (op : Nat) (s : State) : Runs true s (execEngineRecallRelease op s) := by
  unfold execEngineRecallRelease 
  try dsimp only
  repeat' (first | exact Sim.runs _ | exact (Sim.runs _).weaken | exact mailboxWord_runs .. | split)

theorem execTryRollback_runs (wi l : Nat) (s : State) : Runs true s (execTryRollback wi l s) := by
  unfold execTryRollback 
  try dsimp only
  repeat' (first | exact Sim.runs _ | exact (Sim.runs _).weaken | exact mailboxWord_runs .. | split)

theorem execCommandReceive_runs (wi : Nat) (q : BitVec 4) (s : State) : Runs true s (execCommandReceive wi q s) := by
  unfold execCommandReceive 
  try dsimp only
  repeat' (first | exact Sim.runs _ | exact (Sim.runs _).weaken | exact mailboxWord_runs .. | split)

theorem execResultPost_runs (cmd : Nat) (s : State) : Runs true s (execResultPost cmd s) := by
  unfold execResultPost 
  try dsimp only
  repeat' (first | exact Sim.runs _ | exact (Sim.runs _).weaken | exact mailboxWord_runs .. | split)

theorem execPeerDeliver_runs (wi : Nat) (q : BitVec 4) (s : State) : Runs true s (execPeerDeliver wi q s) := by
  unfold execPeerDeliver 
  try dsimp only
  repeat' (first | exact Sim.runs _ | exact (Sim.runs _).weaken | exact mailboxWord_runs .. | split)

theorem execAwningRefill_runs (wi : Nat) (q : BitVec 4) (s : State) : Runs true s (execAwningRefill wi q s) := by
  unfold execAwningRefill 
  try dsimp only
  repeat' (first | exact Sim.runs _ | exact (Sim.runs _).weaken | exact mailboxWord_runs .. | split)

theorem execCopy_runs (cmd : Nat) (s : State) : Runs true s (execCopy cmd s) := by
  unfold execCopy 
  try dsimp only
  repeat' (first | exact Sim.runs _ | exact (Sim.runs _).weaken | exact mailboxWord_runs .. | split)

theorem execCopyZero_runs (cmd : Nat) (s : State) : Runs true s (execCopyZero cmd s) := by
  unfold execCopyZero 
  try dsimp only
  repeat' (first | exact Sim.runs _ | exact (Sim.runs _).weaken | exact mailboxWord_runs .. | split)

theorem execAllreduce_runs (cmd : Nat) (peers : List PeerPart) (s : State) : Runs true s (execAllreduce cmd peers s) := by
  unfold execAllreduce 
  try dsimp only
  repeat' (first | exact Sim.runs _ | exact (Sim.runs _).weaken | exact mailboxWord_runs .. | split)

theorem execBroadcast_runs (cmd : Nat) (peers : List PeerPart) (s : State) : Runs true s (execBroadcast cmd peers s) := by
  unfold execBroadcast 
  try dsimp only
  repeat' (first | exact Sim.runs _ | exact (Sim.runs _).weaken | exact mailboxWord_runs .. | split)

theorem execAllgather_runs (cmd : Nat) (peers : List PeerPart) (s : State) : Runs true s (execAllgather cmd peers s) := by
  unfold execAllgather 
  try dsimp only
  repeat' (first | exact Sim.runs _ | exact (Sim.runs _).weaken | exact mailboxWord_runs .. | split)

theorem execReducescatter_runs (cmd : Nat) (peers : List PeerPart) (s : State) : Runs true s (execReducescatter cmd peers s) := by
  unfold execReducescatter 
  try dsimp only
  repeat' (first | exact Sim.runs _ | exact (Sim.runs _).weaken | exact mailboxWord_runs .. | split)

theorem execFabricBarrier_runs (cmd : Nat) (peers : List PeerPart) (s : State) : Runs true s (execFabricBarrier cmd peers s) := by
  unfold execFabricBarrier 
  try dsimp only
  repeat' (first | exact Sim.runs _ | exact (Sim.runs _).weaken | exact mailboxWord_runs .. | split)

theorem execMatrixMma_runs (cmd : Nat) (s : State) : Runs true s (execMatrixMma cmd s) := by
  unfold execMatrixMma 
  try dsimp only
  repeat' (first | exact Sim.runs _ | exact (Sim.runs _).weaken | exact mailboxWord_runs .. | split)

theorem execMatrixDrain_runs (cmd : Nat) (s : State) : Runs true s (execMatrixDrain cmd s) := by
  unfold execMatrixDrain 
  try dsimp only
  repeat' (first | exact Sim.runs _ | exact (Sim.runs _).weaken | exact mailboxWord_runs .. | split)

theorem execMatrixZero_runs (cmd : Nat) (s : State) : Runs true s (execMatrixZero cmd s) := by
  unfold execMatrixZero 
  try dsimp only
  repeat' (first | exact Sim.runs _ | exact (Sim.runs _).weaken | exact mailboxWord_runs .. | split)

theorem execDrawDsel_runs (cmd : Nat) (s : State) : Runs true s (execDrawDsel cmd s) := by
  unfold execDrawDsel 
  try dsimp only
  repeat' (first | exact Sim.runs _ | exact (Sim.runs _).weaken | exact mailboxWord_runs .. | split)

theorem execFeatureTap_runs (cmd : Nat) (s : State) : Runs true s (execFeatureTap cmd s) := by
  unfold execFeatureTap 
  try dsimp only
  repeat' (first | exact Sim.runs _ | exact (Sim.runs _).weaken | exact mailboxWord_runs .. | split)

theorem execOutboxWrite_runs (wi : Nat) (q : BitVec 4) (s : State) : Runs true s (execOutboxWrite wi q s) := by
  unfold execOutboxWrite 
  try dsimp only
  repeat' (first | exact Sim.runs _ | exact (Sim.runs _).weaken | exact mailboxWord_runs .. | split)

theorem execRowGroupTake_runs (mop i : Nat) (s : State) : Runs true s (execRowGroupTake mop i s) := by
  unfold execRowGroupTake 
  try dsimp only
  repeat' (first | exact Sim.runs _ | exact (Sim.runs _).weaken | exact mailboxWord_runs .. | split)

theorem execMatrixOpComplete_runs (mop : Nat) (s : State) : Runs true s (execMatrixOpComplete mop s) := by
  unfold execMatrixOpComplete 
  try dsimp only
  repeat' (first | exact Sim.runs _ | exact (Sim.runs _).weaken | exact mailboxWord_runs .. | split)

theorem execGangPlace_runs  (s : State) : Runs true s (execGangPlace s) := by
  unfold execGangPlace 
  try dsimp only
  repeat' (first | exact Sim.runs _ | exact (Sim.runs _).weaken | exact mailboxWord_runs .. | split)

theorem execLaunchStarvation_runs (li : Nat) (s : State) : Runs true s (execLaunchStarvation li s) := by
  unfold execLaunchStarvation 
  try dsimp only
  repeat' (first | exact Sim.runs _ | exact (Sim.runs _).weaken | exact mailboxWord_runs .. | split)

theorem execGraphNodeStart_runs (gi : BitVec 6) (node : Nat) (s : State) : Runs true s (execGraphNodeStart gi node s) := by
  unfold execGraphNodeStart 
  try dsimp only
  repeat' (first | exact Sim.runs _ | exact (Sim.runs _).weaken | exact mailboxWord_runs .. | split)

theorem execBaristaStep_runs (i : BitVec 4) (s : State) : Runs true s (execBaristaStep i s) := by
  unfold execBaristaStep 
  try dsimp only
  repeat' (first | exact Sim.runs _ | exact (Sim.runs _).weaken | exact mailboxWord_runs .. | split)

theorem execStepDone_runs (i : BitVec 4) (s : State) : Runs true s (execStepDone i s) := by
  unfold execStepDone 
  try dsimp only
  repeat' (first | exact Sim.runs _ | exact (Sim.runs _).weaken | exact mailboxWord_runs .. | split)

theorem execGrinderRow_runs (tap row : Nat) (s : State) : Runs true s (execGrinderRow tap row s) := by
  unfold execGrinderRow 
  try dsimp only
  repeat' (first | exact Sim.runs _ | exact (Sim.runs _).weaken | exact mailboxWord_runs .. | split)

theorem execWatchHandlerEnd_runs (wid : Word) (s : State) : Runs true s (execWatchHandlerEnd wid s) := by
  unfold execWatchHandlerEnd 
  try dsimp only
  repeat' (first | exact Sim.runs _ | exact (Sim.runs _).weaken | exact mailboxWord_runs .. | split)

theorem execTrapDelivery_runs (wi l : Nat) (s : State) : Runs true s (execTrapDelivery wi l s) := by
  unfold execTrapDelivery 
  try dsimp only
  repeat' (first | exact Sim.runs _ | exact (Sim.runs _).weaken | exact mailboxWord_runs .. | split)

theorem execTimerTick_runs (i : Nat) (s : State) : Runs true s (execTimerTick i s) := by
  unfold execTimerTick 
  try dsimp only
  repeat' (first | exact Sim.runs _ | exact (Sim.runs _).weaken | exact mailboxWord_runs .. | split)

theorem execCounterAdvance_runs  (s : State) : Runs true s (execCounterAdvance s) := by
  unfold execCounterAdvance 
  try dsimp only
  repeat' (first | exact Sim.runs _ | exact (Sim.runs _).weaken | exact mailboxWord_runs .. | split)

theorem execCounterRotate_runs (i : Nat) (s : State) : Runs true s (execCounterRotate i s) := by
  unfold execCounterRotate 
  try dsimp only
  repeat' (first | exact Sim.runs _ | exact (Sim.runs _).weaken | exact mailboxWord_runs .. | split)

theorem execGangHalt_runs (gi : Nat) (s : State) : Runs true s (execGangHalt gi s) := by
  unfold execGangHalt 
  try dsimp only
  repeat' (first | exact Sim.runs _ | exact (Sim.runs _).weaken | exact mailboxWord_runs .. | split)

theorem execDrainTimeout_runs (gi : Nat) (s : State) : Runs true s (execDrainTimeout gi s) := by
  unfold execDrainTimeout 
  try dsimp only
  repeat' (first | exact Sim.runs _ | exact (Sim.runs _).weaken | exact mailboxWord_runs .. | split)

theorem execWorldSwitch_runs (out into : Option (BitVec 6)) (s : State) : Runs true s (execWorldSwitch out into s) := by
  unfold execWorldSwitch 
  try dsimp only
  repeat' (first | exact Sim.runs _ | exact (Sim.runs _).weaken | exact mailboxWord_runs .. | split)

theorem execRevocationDrain_runs (tag : Tag) (s : State) : Runs true s (execRevocationDrain tag s) := by
  unfold execRevocationDrain 
  try dsimp only
  repeat' (first | exact Sim.runs _ | exact (Sim.runs _).weaken | exact mailboxWord_runs .. | split)

theorem execPowerOn_runs  (s : State) : Runs true s (execPowerOn s) := by
  unfold execPowerOn 
  try dsimp only
  repeat' (first | exact Sim.runs _ | exact (Sim.runs _).weaken | exact mailboxWord_runs .. | split)

theorem execGovernorStep_runs (milliwatt : Nat) (s : State) : Runs true s (execGovernorStep milliwatt s) := by
  unfold execGovernorStep 
  try dsimp only
  repeat' (first | exact Sim.runs _ | exact (Sim.runs _).weaken | exact mailboxWord_runs .. | split)

theorem execThermalTrip_runs  (s : State) : Runs true s (execThermalTrip s) := by
  unfold execThermalTrip 
  try dsimp only
  repeat' (first | exact Sim.runs _ | exact (Sim.runs _).weaken | exact mailboxWord_runs .. | split)

theorem execSemaphoreRead_runs (portB : Bool) (i : BitVec 4) (s : State) : Runs true s (execSemaphoreRead portB i s) := by
  unfold execSemaphoreRead 
  try dsimp only
  repeat' (first | exact Sim.runs _ | exact (Sim.runs _).weaken | exact mailboxWord_runs .. | split)

theorem execSemaphoreWrite_runs (portB : Bool) (i : BitVec 4) (s : State) : Runs true s (execSemaphoreWrite portB i s) := by
  unfold execSemaphoreWrite 
  try dsimp only
  repeat' (first | exact Sim.runs _ | exact (Sim.runs _).weaken | exact mailboxWord_runs .. | split)

theorem execDoorbell_runs (fn : HostFn) (prod : BitVec 16) (s : State) : Runs true s (execDoorbell fn prod s) := by
  unfold execDoorbell 
  try dsimp only
  repeat' (first | exact Sim.runs _ | exact (Sim.runs _).weaken | exact mailboxWord_runs .. | split)

theorem execConsumerIndexWrite_runs (fn : HostFn) (ring : BitVec 2) (cons : BitVec 16) (s : State) : Runs true s (execConsumerIndexWrite fn ring cons s) := by
  unfold execConsumerIndexWrite 
  try dsimp only
  repeat' (first | exact Sim.runs _ | exact (Sim.runs _).weaken | exact mailboxWord_runs .. | split)

theorem execRegisterWrite_runs (fn : HostFn) (offset : BitVec 13) (value : Word) (s : State) : Runs true s (execRegisterWrite fn offset value s) := by
  unfold execRegisterWrite 
  try dsimp only
  repeat' (first | exact Sim.runs _ | exact (Sim.runs _).weaken | exact mailboxWord_runs .. | exact execConsumerIndexWrite_runs .. | split)

theorem execStatus_runs (h : CmdHeader) (s : State) : Runs true s (execStatus h s) := by
  unfold execStatus 
  try dsimp only
  repeat' (first | exact Sim.runs _ | exact (Sim.runs _).weaken | exact mailboxWord_runs .. | split)

theorem execFwload_runs (h : CmdHeader) (addr : DWord) (len : Nat) (mmp : Bool) (s : State) : Runs true s (execFwload h addr len mmp s) := by
  unfold execFwload 
  try dsimp only
  repeat' (first | exact Sim.runs _ | exact (Sim.runs _).weaken | exact mailboxWord_runs .. | split)

theorem execConfig_runs (h : CmdHeader) (mailbox : Bool) (pkg : BitVec 6) (domsz : BitVec 7) (treeBase : DWord) (treeSize : Nat) (s : State) : Runs true s (execConfig h mailbox pkg domsz treeBase treeSize s) := by
  unfold execConfig 
  try dsimp only
  repeat' (first | exact Sim.runs _ | exact (Sim.runs _).weaken | exact mailboxWord_runs .. | split)

theorem execVfcfg_runs (h : CmdHeader) (vf : BitVec 6) (remove : Bool) (v : VfDesc) (s : State) : Runs true s (execVfcfg h vf remove v s) := by
  unfold execVfcfg 
  try dsimp only
  repeat' (first | exact Sim.runs _ | exact (Sim.runs _).weaken | exact mailboxWord_runs .. | split)

theorem execOwner_runs (h : CmdHeader) (tag : Tag) (vf : BitVec 6) (ptbase : DWord) (ucap : List Nat) (s : State) : Runs true s (execOwner h tag vf ptbase ucap s) := by
  unfold execOwner 
  try dsimp only
  repeat' (first | exact Sim.runs _ | exact (Sim.runs _).weaken | exact mailboxWord_runs .. | split)

theorem execKeyload_runs (h : CmdHeader) (tag : Tag) (addr : DWord) (len : Nat) (s : State) : Runs true s (execKeyload h tag addr len s) := by
  unfold execKeyload 
  try dsimp only
  repeat' (first | exact Sim.runs _ | exact (Sim.runs _).weaken | exact mailboxWord_runs .. | split)

theorem execKeyrevoke_runs (h : CmdHeader) (tag : Tag) (discard : Bool) (s : State) : Runs true s (execKeyrevoke h tag discard s) := by
  unfold execKeyrevoke 
  try dsimp only
  repeat' (first | exact Sim.runs _ | exact (Sim.runs _).weaken | exact mailboxWord_runs .. | split)

theorem execInstcfg_runs (h : CmdHeader) (inst : BitVec 4) (addr : DWord) (s : State) : Runs true s (execInstcfg h inst addr s) := by
  unfold execInstcfg 
  try dsimp only
  repeat' (first | exact Sim.runs _ | exact (Sim.runs _).weaken | exact mailboxWord_runs .. | split)

theorem execInstcfgRemove_runs (h : CmdHeader) (inst : BitVec 4) (immediate : Bool) (s : State) : Runs true s (execInstcfgRemove h inst immediate s) := by
  unfold execInstcfgRemove 
  try dsimp only
  repeat' (first | exact Sim.runs _ | exact (Sim.runs _).weaken | exact mailboxWord_runs .. | split)

theorem execTkupd_runs (h : CmdHeader) (handle : Word) (addr : DWord) (s : State) : Runs true s (execTkupd h handle addr s) := by
  unfold execTkupd 
  try dsimp only
  repeat' (first | exact Sim.runs _ | exact (Sim.runs _).weaken | exact mailboxWord_runs .. | split)

theorem execGraphInstall_runs (h : CmdHeader) (graph : BitVec 6) (owner : Tag) (addr : DWord) (nodes succs : Nat) (s : State) : Runs true s (execGraphInstall h graph owner addr nodes succs s) := by
  unfold execGraphInstall 
  try dsimp only
  repeat' (first | exact Sim.runs _ | exact (Sim.runs _).weaken | exact mailboxWord_runs .. | split)

theorem execGraphStart_runs (h : CmdHeader) (graph : BitVec 6) (owner : Tag) (s : State) : Runs true s (execGraphStart h graph owner s) := by
  unfold execGraphStart graphWord
  try dsimp only
  repeat' (first | exact Sim.runs _ | exact (Sim.runs _).weaken | exact mailboxWord_runs .. | split)

theorem execGraphRemove_runs (h : CmdHeader) (graph : BitVec 6) (owner : Tag) (s : State) : Runs true s (execGraphRemove h graph owner s) := by
  unfold execGraphRemove graphWord
  try dsimp only
  repeat' (first | exact Sim.runs _ | exact (Sim.runs _).weaken | exact mailboxWord_runs .. | split)

theorem execMailboxLaunch_runs (h : CmdHeader) (owner : Tag) (replicated : Bool) (group : BitVec 8) (addr : DWord) (s : State) : Runs true s (execMailboxLaunch h owner replicated group addr s) := by
  unfold execMailboxLaunch 
  try dsimp only
  repeat' (first | exact Sim.runs _ | exact (Sim.runs _).weaken | exact mailboxWord_runs .. | split)

theorem execStop_runs (h : CmdHeader) (job : StopJob) (mode : StopMode) (drainMax : Nat) (s : State) : Runs true s (execStop h job mode drainMax s) := by
  unfold execStop 
  try dsimp only
  repeat' (first | exact Sim.runs _ | exact (Sim.runs _).weaken | exact mailboxWord_runs .. | split)

theorem execMemwr_runs (h : CmdHeader) (owner : Tag) (va : DWord) (len : Nat) (host : DWord) (s : State) : Runs true s (execMemwr h owner va len host s) := by
  unfold execMemwr 
  try dsimp only
  repeat' (first | exact Sim.runs _ | exact (Sim.runs _).weaken | exact mailboxWord_runs .. | split)

theorem execMemrd_runs (h : CmdHeader) (owner : Tag) (va : DWord) (len : Nat) (host : DWord) (s : State) : Runs true s (execMemrd h owner va len host s) := by
  unfold execMemrd 
  try dsimp only
  repeat' (first | exact Sim.runs _ | exact (Sim.runs _).weaken | exact mailboxWord_runs .. | split)

theorem execPost_runs (h : CmdHeader) (launch : BitVec 24) (gang : Nat) (wgid : BitVec 3) (warp : BitVec 5) (q : BitVec 4) (mask : Word) (addr : DWord) (s : State) : Runs true s (execPost h launch gang wgid warp q mask addr s) := by
  unfold execPost 
  try dsimp only
  repeat' (first | exact Sim.runs _ | exact (Sim.runs _).weaken | exact mailboxWord_runs .. | split)

theorem execFabricJoin_runs (h : CmdHeader) (s : State) : Runs true s (execFabricJoin h s) := by
  unfold execFabricJoin 
  try dsimp only
  repeat' (first | exact Sim.runs _ | exact (Sim.runs _).weaken | exact mailboxWord_runs .. | split)

theorem execFabricGroup_runs (h : CmdHeader) (group : BitVec 8) (addr : DWord) (s : State) : Runs true s (execFabricGroup h group addr s) := by
  unfold execFabricGroup 
  try dsimp only
  repeat' (first | exact Sim.runs _ | exact (Sim.runs _).weaken | exact mailboxWord_runs .. | split)

theorem execFabricUngroup_runs (h : CmdHeader) (group : BitVec 8) (s : State) : Runs true s (execFabricUngroup h group s) := by
  unfold execFabricUngroup 
  try dsimp only
  repeat' (first | exact Sim.runs _ | exact (Sim.runs _).weaken | exact mailboxWord_runs .. | split)

theorem execConfmode_runs (h : CmdHeader) (enter : Bool) (s : State) : Runs true s (execConfmode h enter s) := by
  unfold execConfmode 
  try dsimp only
  repeat' (first | exact Sim.runs _ | exact (Sim.runs _).weaken | exact mailboxWord_runs .. | split)

theorem execReset_runs (h : CmdHeader) (scrub : Bool) (s : State) : Runs true s (execReset h scrub s) := by
  unfold execReset 
  try dsimp only
  repeat' (first | exact Sim.runs _ | exact (Sim.runs _).weaken | exact mailboxWord_runs .. | split)

theorem execMktown_runs (h : CmdHeader) (tag : Tag) (unassign : Bool) (addr : Word) (count : Nat) (s : State) : Runs true s (execMktown h tag unassign addr count s) := by
  unfold execMktown 
  try dsimp only
  repeat' (first | exact Sim.runs _ | exact (Sim.runs _).weaken | exact mailboxWord_runs .. | split)

theorem execFlitRetry_runs (link : Nat) (s : State) : Runs true s (execFlitRetry link s) := by
  unfold execFlitRetry 
  try dsimp only
  repeat' (first | exact Sim.runs _ | exact (Sim.runs _).weaken | exact mailboxWord_runs .. | split)

theorem execRevolutionClose_runs (group : BitVec 8) (s : State) : Runs true s (execRevolutionClose group s) := by
  unfold execRevolutionClose 
  try dsimp only
  repeat' (first | exact Sim.runs _ | exact (Sim.runs _).weaken | exact mailboxWord_runs .. | split)

theorem execRevolutionAbandon_runs (group : BitVec 8) (s : State) : Runs true s (execRevolutionAbandon group s) := by
  unfold execRevolutionAbandon 
  try dsimp only
  repeat' (first | exact Sim.runs _ | exact (Sim.runs _).weaken | exact mailboxWord_runs .. | split)

theorem execMemberLeave_runs (pkg : BitVec 6) (s : State) : Runs true s (execMemberLeave pkg s) := by
  unfold execMemberLeave 
  try dsimp only
  repeat' (first | exact Sim.runs _ | exact (Sim.runs _).weaken | exact mailboxWord_runs .. | split)

theorem execLaunchCopyReceipt_runs (r : LaunchCopy) (s : State) : Runs true s (execLaunchCopyReceipt r s) := by
  unfold execLaunchCopyReceipt 
  try dsimp only
  repeat' (first | exact Sim.runs _ | exact (Sim.runs _).weaken | exact mailboxWord_runs .. | split)

theorem execStartBarrier_runs (group : BitVec 8) (statuses : List (BitVec 4)) (s : State) : Runs true s (execStartBarrier group statuses s) := by
  unfold execStartBarrier 
  try dsimp only
  repeat' (first | exact Sim.runs _ | exact (Sim.runs _).weaken | exact mailboxWord_runs .. | split)

theorem execRemoteAccess_runs (r : RemoteReq) (s : State) : Runs true s (execRemoteAccess r s) := by
  unfold execRemoteAccess 
  try dsimp only
  repeat' (first | exact Sim.runs _ | exact (Sim.runs _).weaken | exact mailboxWord_runs .. | split)

theorem execPagexHandover_runs (owner : Tag) (va : DWord) (s : State) : Runs true s (execPagexHandover owner va s) := by
  unfold execPagexHandover 
  try dsimp only
  repeat' (first | exact Sim.runs _ | exact (Sim.runs _).weaken | exact mailboxWord_runs .. | split)

theorem execPagexReturn_runs (owner : Tag) (va : DWord) (writes : List (Nat × Byte)) (s : State) : Runs true s (execPagexReturn owner va writes s) := by
  unfold execPagexReturn 
  try dsimp only
  repeat' (first | exact Sim.runs _ | exact (Sim.runs _).weaken | exact mailboxWord_runs .. | split)

theorem execDevFrameMigration_runs (owner : Tag) (va : DWord) (frame : Nat) (s : State) : Runs true s (execDevFrameMigration owner va frame s) := by
  unfold execDevFrameMigration 
  try dsimp only
  repeat' (first | exact Sim.runs _ | exact (Sim.runs _).weaken | exact mailboxWord_runs .. | split)

theorem execHdmDecoderCommit_runs (port : BitVec 3) (size : Nat) (s : State) : Runs true s (execHdmDecoderCommit port size s) := by
  unfold execHdmDecoderCommit 
  try dsimp only
  repeat' (first | exact Sim.runs _ | exact (Sim.runs _).weaken | exact mailboxWord_runs .. | split)

/-- Every meaning answers a next state. -/
theorem exec_runs (i : Instr) (s : State) : Runs true s (exec i s) := by
  cases i
  case nop => exact (exec_word_runs _ rfl s).weaken
  case sget => exact (exec_word_runs _ rfl s).weaken
  case sset => exact (exec_word_runs _ rfl s).weaken
  case fwait => exact (exec_word_runs _ rfl s).weaken
  case yield => exact (exec_word_runs _ rfl s).weaken
  case brk => exact (exec_word_runs _ rfl s).weaken
  case trap => exact (exec_word_runs _ rfl s).weaken
  case add => exact (exec_word_runs _ rfl s).weaken
  case sub => exact (exec_word_runs _ rfl s).weaken
  case and => exact (exec_word_runs _ rfl s).weaken
  case or => exact (exec_word_runs _ rfl s).weaken
  case xor => exact (exec_word_runs _ rfl s).weaken
  case andn => exact (exec_word_runs _ rfl s).weaken
  case shl => exact (exec_word_runs _ rfl s).weaken
  case shr => exact (exec_word_runs _ rfl s).weaken
  case sra => exact (exec_word_runs _ rfl s).weaken
  case rotl => exact (exec_word_runs _ rfl s).weaken
  case min => exact (exec_word_runs _ rfl s).weaken
  case max => exact (exec_word_runs _ rfl s).weaken
  case minu => exact (exec_word_runs _ rfl s).weaken
  case maxu => exact (exec_word_runs _ rfl s).weaken
  case abs => exact (exec_word_runs _ rfl s).weaken
  case clz => exact (exec_word_runs _ rfl s).weaken
  case popc => exact (exec_word_runs _ rfl s).weaken
  case brev => exact (exec_word_runs _ rfl s).weaken
  case bfe => exact (exec_word_runs _ rfl s).weaken
  case bfx => exact (exec_word_runs _ rfl s).weaken
  case bfi => exact (exec_word_runs _ rfl s).weaken
  case prmb => exact (exec_word_runs _ rfl s).weaken
  case addi => exact (exec_word_runs _ rfl s).weaken
  case andi => exact (exec_word_runs _ rfl s).weaken
  case ori => exact (exec_word_runs _ rfl s).weaken
  case xori => exact (exec_word_runs _ rfl s).weaken
  case shli => exact (exec_word_runs _ rfl s).weaken
  case shri => exact (exec_word_runs _ rfl s).weaken
  case srai => exact (exec_word_runs _ rfl s).weaken
  case mul => exact (exec_word_runs _ rfl s).weaken
  case mulhi => exact (exec_word_runs _ rfl s).weaken
  case mulhiu => exact (exec_word_runs _ rfl s).weaken
  case mad => exact (exec_word_runs _ rfl s).weaken
  case divu => exact (exec_word_runs _ rfl s).weaken
  case remu => exact (exec_word_runs _ rfl s).weaken
  case lil => exact (exec_word_runs _ rfl s).weaken
  case lih => exact (exec_word_runs _ rfl s).weaken
  case adpc => exact (exec_word_runs _ rfl s).weaken
  case fadd => exact (exec_word_runs _ rfl s).weaken
  case fsub => exact (exec_word_runs _ rfl s).weaken
  case fmul => exact (exec_word_runs _ rfl s).weaken
  case hadd2 => exact (exec_word_runs _ rfl s).weaken
  case hmul2 => exact (exec_word_runs _ rfl s).weaken
  case badd2 => exact (exec_word_runs _ rfl s).weaken
  case bmul2 => exact (exec_word_runs _ rfl s).weaken
  case fmin => exact (exec_word_runs _ rfl s).weaken
  case fmax => exact (exec_word_runs _ rfl s).weaken
  case fneg => exact (exec_word_runs _ rfl s).weaken
  case fabs => exact (exec_word_runs _ rfl s).weaken
  case ffma => exact (exec_word_runs _ rfl s).weaken
  case ffms => exact (exec_word_runs _ rfl s).weaken
  case hfma2 => exact (exec_word_runs _ rfl s).weaken
  case bfma2 => exact (exec_word_runs _ rfl s).weaken
  case hdot2 => exact (exec_word_runs _ rfl s).weaken
  case cvtF32ToNarrow => exact (exec_word_runs _ rfl s).weaken
  case cvtNarrowToF32 => exact (exec_word_runs _ rfl s).weaken
  case cvtF32ToInt => exact (exec_word_runs _ rfl s).weaken
  case cvtIntToF32 => exact (exec_word_runs _ rfl s).weaken
  case cvtF16Bf16 => exact (exec_word_runs _ rfl s).weaken
  case cvtF16ToFp8 => exact (exec_word_runs _ rfl s).weaken
  case frnd => exact (exec_word_runs _ rfl s).weaken
  case pack2F16 => exact (exec_word_runs _ rfl s).weaken
  case pack2Bf16 => exact (exec_word_runs _ rfl s).weaken
  case exp2 => exact (exec_word_runs _ rfl s).weaken
  case log2 => exact (exec_word_runs _ rfl s).weaken
  case rcp => exact (exec_word_runs _ rfl s).weaken
  case rsq => exact (exec_word_runs _ rfl s).weaken
  case sqrt => exact (exec_word_runs _ rfl s).weaken
  case sin => exact (exec_word_runs _ rfl s).weaken
  case cos => exact (exec_word_runs _ rfl s).weaken
  case tanh => exact (exec_word_runs _ rfl s).weaken
  case icmp => exact (exec_word_runs _ rfl s).weaken
  case icmpu => exact (exec_word_runs _ rfl s).weaken
  case fcmp => exact (exec_word_runs _ rfl s).weaken
  case fclass => exact (exec_word_runs _ rfl s).weaken
  case plop => exact (exec_word_runs _ rfl s).weaken
  case sel => exact (exec_word_runs _ rfl s).weaken
  case mov => exact (exec_word_runs _ rfl s).weaken
  case movp => exact (exec_word_runs _ rfl s).weaken
  case pmov => exact (exec_word_runs _ rfl s).weaken
  case br => exact (exec_word_runs _ rfl s).weaken
  case call => exact (exec_word_runs _ rfl s).weaken
  case brx => exact (exec_word_runs _ rfl s).weaken
  case callx => exact (exec_word_runs _ rfl s).weaken
  case ret => exact (exec_word_runs _ rfl s).weaken
  case exit => exact (exec_word_runs _ rfl s).weaken
  case meet => exact (exec_word_runs _ rfl s).weaken
  case unmeet => exact (exec_word_runs _ rfl s).weaken
  case voteAnd => exact (exec_word_runs _ rfl s).weaken
  case voteOr => exact (exec_word_runs _ rfl s).weaken
  case voteSame => exact (exec_word_runs _ rfl s).weaken
  case ballot => exact (exec_word_runs _ rfl s).weaken
  case shflLane => exact (exec_word_runs _ rfl s).weaken
  case shflRot => exact (exec_word_runs _ rfl s).weaken
  case shflOff => exact (exec_word_runs _ rfl s).weaken
  case shflSwap => exact (exec_word_runs _ rfl s).weaken
  case gredAdd => exact (exec_word_runs _ rfl s).weaken
  case gredMin => exact (exec_word_runs _ rfl s).weaken
  case gredMax => exact (exec_word_runs _ rfl s).weaken
  case gredArgmin => exact (exec_word_runs _ rfl s).weaken
  case gredArgmax => exact (exec_word_runs _ rfl s).weaken
  case gscan => exact (exec_word_runs _ rfl s).weaken
  case matchEq => exact (exec_word_runs _ rfl s).weaken
  case elect => exact (exec_word_runs _ rfl s).weaken
  case regq => exact (exec_word_runs _ rfl s).weaken
  case prio => exact (exec_word_runs _ rfl s).weaken
  case ld => exact (exec_word_runs _ rfl s).weaken
  case ldl => exact (exec_word_runs _ rfl s).weaken
  case ldlGang => exact (exec_word_runs _ rfl s).weaken
  case ldm => exact (exec_word_runs _ rfl s).weaken
  case ldc => exact (exec_word_runs _ rfl s).weaken
  case st => exact (exec_word_runs _ rfl s).weaken
  case stl => exact (exec_word_runs _ rfl s).weaken
  case stlGang => exact (exec_word_runs _ rfl s).weaken
  case stm => exact (exec_word_runs _ rfl s).weaken
  case atom => exact (exec_word_runs _ rfl s).weaken
  case atoml => exact (exec_word_runs _ rfl s).weaken
  case atomGang => exact (exec_word_runs _ rfl s).weaken
  case atomMkt => exact (exec_word_runs _ rfl s).weaken
  case cas => exact (exec_word_runs _ rfl s).weaken
  case casB64 => exact (exec_word_runs _ rfl s).weaken
  case madd => exact (exec_word_runs _ rfl s).weaken
  case mamax => exact (exec_word_runs _ rfl s).weaken
  case mred => exact (exec_word_runs _ rfl s).weaken
  case mscale => exact (exec_word_runs _ rfl s).weaken
  case bar => exact (exec_word_runs _ rfl s).weaken
  case gbar => exact (exec_word_runs _ rfl s).weaken
  case fenceAcq => exact (exec_word_runs _ rfl s).weaken
  case fenceRel => exact (exec_word_runs _ rfl s).weaken
  case fenceAr => exact (exec_word_runs _ rfl s).weaken
  case feset => exact (exec_word_runs _ rfl s).weaken
  case feclr => exact (exec_word_runs _ rfl s).weaken
  case fepoll => exact (exec_word_runs _ rfl s).weaken
  case tryOpen => exact (exec_word_runs _ rfl s).weaken
  case commit => exact (exec_word_runs _ rfl s).weaken
  case tabort => exact (exec_word_runs _ rfl s).weaken
  case tstat => exact (exec_word_runs _ rfl s).weaken
  case qbind => exact (exec_word_runs _ rfl s).weaken
  case qstat => exact (exec_word_runs _ rfl s).weaken
  case qflush => exact (exec_word_runs _ rfl s).weaken
  case launch => exact (exec_word_runs _ rfl s).weaken
  case gsignal => exact (exec_word_runs _ rfl s).weaken
  case mma => exact (exec_word_runs _ rfl s).weaken
  case mdrainL => exact (exec_word_runs _ rfl s).weaken
  case mdrainR => exact (exec_word_runs _ rfl s).weaken
  case mzero => exact (exec_word_runs _ rfl s).weaken
  case tap => exact (exec_word_runs _ rfl s).weaken
  case fget => exact (exec_word_runs _ rfl s).weaken
  case frd => exact (exec_word_runs _ rfl s).weaken
  case fwr => exact (exec_word_runs _ rfl s).weaken
  case frel => exact (exec_word_runs _ rfl s).weaken
  case fdec => exact (exec_word_runs _ rfl s).weaken
  case tkrd => exact (exec_word_runs _ rfl s).weaken
  case tkwr => exact (exec_word_runs _ rfl s).weaken
  case tkappend => exact (exec_word_runs _ rfl s).weaken
  case tktrunc => exact (exec_word_runs _ rfl s).weaken
  case tkret => exact (exec_word_runs _ rfl s).weaken
  case tkfork => exact (exec_word_runs _ rfl s).weaken
  case kvmap => exact (exec_word_runs _ rfl s).weaken
  case rot => exact (exec_word_runs _ rfl s).weaken
  case pres => exact (exec_word_runs _ rfl s).weaken
  case prel => exact (exec_word_runs _ rfl s).weaken
  case pdisc => exact (exec_word_runs _ rfl s).weaken
  case pflush => exact (exec_word_runs _ rfl s).weaken
  case pmig => exact (exec_word_runs _ rfl s).weaken
  case rfe => exact (exec_word_runs _ rfl s).weaken
  case killW => exact (exec_word_runs _ rfl s).weaken
  case killG => exact (exec_word_runs _ rfl s).weaken
  case killL => exact (exec_word_runs _ rfl s).weaken
  case tlbinv => exact (exec_word_runs _ rfl s).weaken
  case tlbinvOwn => exact (exec_word_runs _ rfl s).weaken
  case tlbinvAll => exact (exec_word_runs _ rfl s).weaken
  case icinv => exact (exec_word_runs _ rfl s).weaken
  case icinvAll => exact (exec_word_runs _ rfl s).weaken
  case cntsel => exact (exec_word_runs _ rfl s).weaken
  case cntselRd => exact (exec_word_runs _ rfl s).weaken
  case cntselSmp => exact (exec_word_runs _ rfl s).weaken
  case cntselRot => exact (exec_word_runs _ rfl s).weaken
  case qblk => exact (exec_word_runs _ rfl s).weaken
  case dqblk => exact (exec_word_runs _ rfl s).weaken
  case qfp8 => exact (exec_word_runs _ rfl s).weaken
  case add64 => exact (exec_word_runs _ rfl s).weaken
  case sub64 => exact (exec_word_runs _ rfl s).weaken
  case shl64 => exact (exec_word_runs _ rfl s).weaken
  case shr64 => exact (exec_word_runs _ rfl s).weaken
  case madw => exact (exec_word_runs _ rfl s).weaken
  case sext64 => exact (exec_word_runs _ rfl s).weaken
  case dsel => exact (exec_word_runs _ rfl s).weaken
  case rng => exact (exec_word_runs _ rfl s).weaken
  case rngk => exact (exec_word_runs _ rfl s).weaken
  case schedulerIssue => exact execSchedulerIssue_runs ..
  case longLatencyComplete => exact execLongLatencyComplete_runs ..
  case collectivePerform => exact execCollectivePerform_runs ..
  case barrierComplete => exact execBarrierComplete_runs ..
  case feWaitPerform => exact execFeWaitPerform_runs ..
  case rdupInvalidateAck => exact execRdupInvalidateAck_runs ..
  case mmpFaultService => exact execMmpFaultService_runs ..
  case lateFrame => exact execLateFrame_runs ..
  case priResponse => exact execPriResponse_runs ..
  case atsInvalidation => exact execAtsInvalidation_runs ..
  case engineRecallRelease => exact execEngineRecallRelease_runs ..
  case tryRollback => exact execTryRollback_runs ..
  case commandReceive => exact execCommandReceive_runs ..
  case resultPost => exact execResultPost_runs ..
  case peerDeliver => exact execPeerDeliver_runs ..
  case awningRefill => exact execAwningRefill_runs ..
  case copy => exact execCopy_runs ..
  case copyZero => exact execCopyZero_runs ..
  case allreduce => exact execAllreduce_runs ..
  case broadcast => exact execBroadcast_runs ..
  case allgather => exact execAllgather_runs ..
  case reducescatter => exact execReducescatter_runs ..
  case fabricBarrier => exact execFabricBarrier_runs ..
  case matrixMma => exact execMatrixMma_runs ..
  case matrixDrain => exact execMatrixDrain_runs ..
  case matrixZero => exact execMatrixZero_runs ..
  case drawDsel => exact execDrawDsel_runs ..
  case featureTap => exact execFeatureTap_runs ..
  case outboxWrite => exact execOutboxWrite_runs ..
  case rowGroupTake => exact execRowGroupTake_runs ..
  case matrixOpComplete => exact execMatrixOpComplete_runs ..
  case gangPlace => exact execGangPlace_runs ..
  case launchStarvation => exact execLaunchStarvation_runs ..
  case graphNodeStart => exact execGraphNodeStart_runs ..
  case baristaStep => exact execBaristaStep_runs ..
  case stepDone => exact execStepDone_runs ..
  case grinderRow => exact execGrinderRow_runs ..
  case watchHandlerEnd => exact execWatchHandlerEnd_runs ..
  case trapDelivery => exact execTrapDelivery_runs ..
  case timerTick => exact execTimerTick_runs ..
  case counterAdvance => exact execCounterAdvance_runs ..
  case counterRotate => exact execCounterRotate_runs ..
  case gangHalt => exact execGangHalt_runs ..
  case drainTimeout => exact execDrainTimeout_runs ..
  case worldSwitch => exact execWorldSwitch_runs ..
  case revocationDrain => exact execRevocationDrain_runs ..
  case powerOn => exact execPowerOn_runs ..
  case governorStep => exact execGovernorStep_runs ..
  case thermalTrip => exact execThermalTrip_runs ..
  case semaphoreRead => exact execSemaphoreRead_runs ..
  case semaphoreWrite => exact execSemaphoreWrite_runs ..
  case doorbell => exact execDoorbell_runs ..
  case consumerIndexWrite => exact execConsumerIndexWrite_runs ..
  case registerWrite => exact execRegisterWrite_runs ..
  case status => exact execStatus_runs ..
  case fwload => exact execFwload_runs ..
  case config => exact execConfig_runs ..
  case vfcfg => exact execVfcfg_runs ..
  case owner => exact execOwner_runs ..
  case keyload => exact execKeyload_runs ..
  case keyrevoke => exact execKeyrevoke_runs ..
  case instcfg => exact execInstcfg_runs ..
  case instcfgRemove => exact execInstcfgRemove_runs ..
  case tkupd => exact execTkupd_runs ..
  case graphInstall => exact execGraphInstall_runs ..
  case graphStart => exact execGraphStart_runs ..
  case graphRemove => exact execGraphRemove_runs ..
  case mailboxLaunch => exact execMailboxLaunch_runs ..
  case stop => exact execStop_runs ..
  case memwr => exact execMemwr_runs ..
  case memrd => exact execMemrd_runs ..
  case post => exact execPost_runs ..
  case fabricJoin => exact execFabricJoin_runs ..
  case fabricGroup => exact execFabricGroup_runs ..
  case fabricUngroup => exact execFabricUngroup_runs ..
  case confmode => exact execConfmode_runs ..
  case reset => exact execReset_runs ..
  case mktown => exact execMktown_runs ..
  case flitRetry => exact execFlitRetry_runs ..
  case revolutionClose => exact execRevolutionClose_runs ..
  case revolutionAbandon => exact execRevolutionAbandon_runs ..
  case memberLeave => exact execMemberLeave_runs ..
  case launchCopyReceipt => exact execLaunchCopyReceipt_runs ..
  case startBarrier => exact execStartBarrier_runs ..
  case remoteAccess => exact execRemoteAccess_runs ..
  case pagexHandover => exact execPagexHandover_runs ..
  case pagexReturn => exact execPagexReturn_runs ..
  case devFrameMigration => exact execDevFrameMigration_runs ..
  case hdmDecoderCommit => exact execHdmDecoderCommit_runs ..

end Sys2Proof.Machine
end

