-- ==== Sys2Proof/Laws/Word.lean ====
section
/-! SUPPORT. Readers after writers, and the frame of a word that issues with nothing in its way. -/

namespace Sys2Proof.Machine

variable {k : Bool} {s0 : State}

/-! ## Effects -/

@[simp] theorem begin_now (k : Bool) (s : State) : (begin_ k s).now = s := rfl
@[simp] theorem Sim.act_now (m : Sim k s0) (a : Act) : (m.act a).now = a.apply m.now := rfl
@[simp] theorem Sim.sys_now (m : Sim true s0) (e : Sys) : (m.sys e).now = e.apply m.now := rfl
@[simp] theorem Sim.when_true (m : Sim k s0) (f : Sim k s0 → Sim k s0) : m.when true f = f m := rfl
@[simp] theorem Sim.when_false (m : Sim k s0) (f : Sim k s0 → Sim k s0) : m.when false f = m := rfl
@[simp] theorem Sim.each_nil {α : Type} (m : Sim k s0) (f : Sim k s0 → α → Sim k s0) : m.each [] f = m := rfl
@[simp] theorem Sim.each_cons {α : Type} (m : Sim k s0) (a : α) (l : List α) (f : Sim k s0 → α → Sim k s0) :
    m.each (a :: l) f = (f m a).each l f := rfl

/-- What each element keeps, the whole list keeps. -/
theorem Sim.each_keeps {α : Type} {P : State → Prop} {f : Sim k s0 → α → Sim k s0}
    (h : ∀ (m : Sim k s0) (a : α), P m.now → P (f m a).now) (m : Sim k s0) (l : List α) (w : P m.now) : P (m.each l f).now := by
  induction l generalizing m with
  | nil => exact w
  | cons a l ih => exact ih (f m a) (h m a w)

@[simp] theorem State.warp_put (s : State) (i j : Nat) (w : Warp) :
    State.warp { s with warps := Keyed.put s.warps i w } j = if i = j then w else s.warp j := by simp [State.warp]

theorem Sim.modWarp_now (m : Sim k s0) (i : Nat) (f : Warp → Warp) :
    (m.modWarp i f).now = { m.now with warps := Keyed.put m.now.warps i (f (m.now.warp i)) } := rfl

@[simp] theorem Sim.modWarp_warp (m : Sim k s0) (i j : Nat) (f : Warp → Warp) :
    (m.modWarp i f).now.warp j = if i = j then f (m.now.warp i) else m.now.warp j := by
  rw [Sim.modWarp_now]; exact State.warp_put _ _ _ _

@[simp] theorem Warp.mod_thread (w : Warp) (l j : Nat) (f : Thread → Thread) :
    (w.mod l f).thread j = if l = j ∧ j < w.threads.length then f (w.thread l) else w.thread j := by
  simp only [Warp.thread, Warp.mod, List.getD_eq_getElem?_getD, List.getElem?_set]
  by_cases h : l = j
  · subst h
    by_cases hl : l < w.threads.length
    · simp [hl]
    · simp [hl]
  · simp [h]

@[simp] theorem Warp.mod_length (w : Warp) (l : Nat) (f : Thread → Thread) :
    (w.mod l f).threads.length = w.threads.length := by simp [Warp.mod]

/-! ## The frame of a word -/

/-- A word that issues with nothing in its way does its body for the lanes that perform it, with its sources read before
its queue sources are popped. -/
theorem issueWord_issues {i : Instr} {s : State} (h : s.issues i = true)
    (body : List Nat → Src → Sim false s → Sim false s) :
    issueWord i s body =
      ran (body (s.performers i) s.source
        ((begin_ false s).each (s.popped i) (fun m x => m.popFor s.cur.warp (x - 112) (s.performers i)))) := by
  simp only [State.issues, Bool.and_eq_true, Bool.not_eq_true', Option.isNone_iff_eq_none] at h
  obtain ⟨⟨⟨⟨h1, h2⟩, h3⟩, h4⟩, h5⟩ := h
  have hb : (s.performing (shapeOf i).guard).filter (fun l =>
      (s.cur.thread l).region.isSome &&
        (regionIllegal i s.cur.pfx || !(queueReads i s.cur.pfx).isEmpty || !(queueWrites i).isEmpty)) = [] := by
    rw [List.filter_eq_nil_iff]
    intro l hl hr
    rw [List.any_eq_false] at h2
    exact h2 l hl hr
  have h5' : ((queueWrites i).filter (s.pushes s.cur.warp)).find? (fun x => s.pushFaults s.cur.warp (x - 112)) = none := by
    rw [List.find?_eq_none]
    rw [List.any_eq_false] at h5
    exact h5
  have hl : (s.performing (shapeOf i).guard).filter (fun _ => true) = s.performing (shapeOf i).guard := by simp
  unfold issueWord
  simp only [hb]
  simp only [List.contains_nil, Bool.not_false, hl]
  have h1' : (s.performing (shapeOf i).guard).isEmpty = false := h1
  have h4' : (((queueReads i s.cur.pfx).filter (s.pops s.cur.warp)).any (fun x => s.popHeld s.cur.warp (x - 112)) ||
      ((queueWrites i).filter (s.pushes s.cur.warp)).any (fun x => s.pushHeld s.cur.warp (x - 112))) = false := h4
  simp only [h1', h4', h3, h5', Sim.each_nil, State.performers, State.popped, Bool.false_eq_true, if_false]

/-! ## Registers written in the lanes of a warp -/

/-- One write after another: lane, code, value. -/
def Sim.writes (m : Sim k s0) (wi : Nat) (ws : List (Nat × Nat × Word)) (lat : Nat) : Sim k s0 :=
  m.each ws (fun m w => m.setResult wi w.1 w.2.1 w.2.2 lat)

/-- A warp's threads change in registers, predicates and scoreboard, and in the results that wait for a larger quota; the rest
of the state stands. -/
structure InWarp (a b : State) (wi : Nat) : Prop where
  rest : b = { a with warps := b.warps }
  others : ∀ j, j ≠ wi → b.warp j = a.warp j
  warp : b.warp wi = { a.warp wi with threads := (b.warp wi).threads }
  size : (b.warp wi).threads.length = (a.warp wi).threads.length
  threads : ∀ l, b.thread wi l =
    { a.thread wi l with
      regs := (b.thread wi l).regs, preds := (b.thread wi l).preds, busy := (b.thread wi l).busy, late := (b.thread wi l).late }

theorem InWarp.refl (a : State) (wi : Nat) : InWarp a a wi := ⟨rfl, fun _ _ => rfl, rfl, rfl, fun _ => rfl⟩

theorem InWarp.trans {a b c : State} {wi : Nat} (h : InWarp a b wi) (g : InWarp b c wi) : InWarp a c wi := by
  refine ⟨?_, fun j hj => (g.others j hj).trans (h.others j hj), ?_, g.size.trans h.size, fun l => ?_⟩
  · rw [g.rest, h.rest]
  · rw [g.warp, h.warp]
  · rw [g.threads l, h.threads l]

theorem InWarp.ac {a b : State} {wi : Nat} (h : InWarp a b wi) : b.ac = a.ac := by rw [h.rest]
theorem InWarp.cur {a b : State} {wi : Nat} (h : InWarp a b wi) : b.cur = a.cur := by rw [h.rest]
theorem InWarp.quota {a b : State} {wi : Nat} (h : InWarp a b wi) : (b.warp wi).quota = (a.warp wi).quota := by
  rw [h.warp]

theorem Sim.modThread_warp (m : Sim k s0) (wi l j : Nat) (f : Thread → Thread) :
    (m.modThread wi l f).now.warp j = if wi = j then (m.now.warp wi).mod l f else m.now.warp j := by
  simp [Sim.modThread]

theorem Sim.modThread_thread (m : Sim k s0) (wi l j : Nat) (f : Thread → Thread) :
    (m.modThread wi l f).now.thread wi j =
      if l = j ∧ j < (m.now.warp wi).threads.length then f (m.now.thread wi l) else m.now.thread wi j := by
  simp [State.thread, Sim.modThread]

/-- A change of registers, predicates, scoreboard and waiting results of one thread. -/
theorem Sim.modThread_only (m : Sim k s0) (wi l : Nat) (f : Thread → Thread)
    (hf : ∀ t : Thread, f t = { t with regs := (f t).regs, preds := (f t).preds, busy := (f t).busy, late := (f t).late }) :
    InWarp m.now (m.modThread wi l f).now wi := by
  refine ⟨rfl, fun j hj => ?_, ?_, ?_, fun j => ?_⟩
  · rw [Sim.modThread_warp, if_neg (Ne.symm hj)]
  · rw [Sim.modThread_warp, if_pos rfl]; rfl
  · rw [Sim.modThread_warp, if_pos rfl]; exact Warp.mod_length ..
  · rw [Sim.modThread_thread]
    split
    · next h => rw [h.1] at *; exact hf _
    · rfl

theorem Thread.setReg_regs (t : Thread) (q code c : Nat) (v : Word) :
    Cells.get 0 (t.setReg q code v).regs c =
      if code < q ∧ code < 112 ∧ c = code then v else Cells.get 0 t.regs c := by
  unfold Thread.setReg
  by_cases h : code < q ∧ code < 112
  · simp only [h, and_self, if_true, Cells.get_set, true_and]
    by_cases hc : code = c
    · simp [hc]
    · simp [hc, Ne.symm hc]
  · rw [if_neg h, if_neg (fun g => h ⟨g.1, g.2.1⟩)]

theorem Thread.setBusy_busy (t : Thread) (key u j : Nat) :
    Cells.get 0 (t.setBusy key u).busy j = if j = key then max (Cells.get 0 t.busy j) u else Cells.get 0 t.busy j := by
  unfold Thread.setBusy
  rw [Cells.get_set]
  by_cases hc : key = j
  · simp [hc, Nat.max_def]
  · simp [hc, Ne.symm hc]

@[simp] theorem Thread.setBusy_regs (t : Thread) (key u : Nat) : (t.setBusy key u).regs = t.regs := rfl
@[simp] theorem Thread.setBusy_preds (t : Thread) (key u : Nat) : (t.setBusy key u).preds = t.preds := rfl
@[simp] theorem Thread.setReg_busy (t : Thread) (q code : Nat) (v : Word) : (t.setReg q code v).busy = t.busy := by
  unfold Thread.setReg; split <;> rfl
@[simp] theorem Thread.setReg_preds (t : Thread) (q code : Nat) (v : Word) : (t.setReg q code v).preds = t.preds := by
  unfold Thread.setReg; split <;> rfl

theorem Thread.setReg_only (t : Thread) (q code : Nat) (v : Word) :
    t.setReg q code v = { t with regs := (t.setReg q code v).regs } := by
  unfold Thread.setReg; split <;> rfl

/-- What a result changes in its thread. -/
theorem Thread.result_only (t : Thread) (q code : Nat) (v : Word) (u ac : Nat) :
    t.result q code v u ac =
      { t with regs := (t.result q code v u ac).regs, preds := (t.result q code v u ac).preds
               busy := (t.result q code v u ac).busy, late := (t.result q code v u ac).late } := by
  unfold Thread.result Thread.setReg
  split <;> split <;> rfl

@[simp] theorem Thread.result_regs (t : Thread) (q code : Nat) (v : Word) (u ac : Nat) :
    (t.result q code v u ac).regs = (t.setReg q code v).regs := by
  unfold Thread.result; split <;> simp
@[simp] theorem Thread.result_busy (t : Thread) (q code : Nat) (v : Word) (u ac : Nat) :
    (t.result q code v u ac).busy = (t.setBusy code u).busy := by
  unfold Thread.result; split <;> simp [Thread.setBusy]
@[simp] theorem Thread.result_preds (t : Thread) (q code : Nat) (v : Word) (u ac : Nat) :
    (t.result q code v u ac).preds = t.preds := by
  unfold Thread.result; split <;> simp

theorem Sim.setResult_only (m : Sim k s0) (wi l code : Nat) (v : Word) (lat : Nat) :
    InWarp m.now (m.setResult wi l code v lat).now wi := by
  unfold Sim.setResult
  exact Sim.modThread_only _ _ _ _ (fun t => t.result_only ..)

/-- What a list of writes does, where the value is settled by lane and code. -/
theorem Sim.writes_spec (m : Sim k s0) (wi : Nat) (ws : List (Nat × Nat × Word)) (lat : Nat) (v : Nat → Nat → Word)
    (hv : ∀ w ∈ ws, w.2.2 = v w.1 w.2.1) :
    InWarp m.now (m.writes wi ws lat).now wi ∧
    (∀ l code, (m.writes wi ws lat).now.reg wi l code =
      if (∃ x, (l, code, x) ∈ ws) ∧ l < (m.now.warp wi).threads.length ∧ code < (m.now.warp wi).quota ∧ code < 112
      then v l code else m.now.reg wi l code) ∧
    (∀ l, ((m.writes wi ws lat).now.thread wi l).preds = (m.now.thread wi l).preds) ∧
    (∀ l key, (m.writes wi ws lat).now.readyAt wi l key =
      if (∃ x, (l, key, x) ∈ ws) ∧ l < (m.now.warp wi).threads.length
      then max (m.now.readyAt wi l key) (m.now.ac + lat) else m.now.readyAt wi l key) := by
  induction ws generalizing m with
  | nil => exact ⟨.refl _ _, by simp [Sim.writes], by simp [Sim.writes], by simp [Sim.writes]⟩
  | cons w ws ih =>
    obtain ⟨wl, wc, wv⟩ := w
    have hw : wv = v wl wc := hv (wl, wc, wv) (by simp)
    have h1 := Sim.setResult_only m wi wl wc wv lat
    obtain ⟨g1, g2, g3, g4⟩ := ih (m.setResult wi wl wc wv lat) (fun x hx => hv x (by simp [hx]))
    have e : m.writes wi ((wl, wc, wv) :: ws) lat = (m.setResult wi wl wc wv lat).writes wi ws lat := rfl
    rw [e]
    have r : ∀ l code, (m.setResult wi wl wc wv lat).now.reg wi l code =
        if l = wl ∧ code = wc ∧ l < (m.now.warp wi).threads.length ∧ code < (m.now.warp wi).quota ∧ code < 112
        then v l code else m.now.reg wi l code := by
      intro l code
      simp only [State.reg, Sim.setResult, Sim.modThread_thread]
      by_cases hl : wl = l ∧ l < (m.now.warp wi).threads.length
      · obtain ⟨rfl, hl⟩ := hl
        simp only [hl, and_self, if_true, Thread.result_regs, Thread.setReg_regs, true_and]
        by_cases hc : code = wc
        · subst hc; simp [hw]
        · simp [hc]
      · rw [if_neg hl, if_neg (fun g => hl ⟨g.1.symm, g.2.2.1⟩)]
    have b : ∀ l key, (m.setResult wi wl wc wv lat).now.readyAt wi l key =
        if l = wl ∧ key = wc ∧ l < (m.now.warp wi).threads.length
        then max (m.now.readyAt wi l key) (m.now.ac + lat) else m.now.readyAt wi l key := by
      intro l key
      simp only [State.readyAt, Sim.setResult, Sim.modThread_thread]
      by_cases hl : wl = l ∧ l < (m.now.warp wi).threads.length
      · obtain ⟨rfl, hl⟩ := hl
        simp only [hl, and_self, if_true, Thread.result_busy, Thread.setBusy_busy, true_and, and_true]
      · rw [if_neg hl, if_neg (fun g => hl ⟨g.1.symm, g.2.2⟩)]
    have p : ∀ l, ((m.setResult wi wl wc wv lat).now.thread wi l).preds = (m.now.thread wi l).preds := by
      intro l
      simp only [Sim.setResult, Sim.modThread_thread]
      split
      · next h => simp [h.1]
      · rfl
    refine ⟨h1.trans g1, fun l code => ?_, fun l => (g3 l).trans (p l), fun l key => ?_⟩
    · rw [g2, r, h1.size, h1.quota]
      by_cases hws : ∃ x, (l, code, x) ∈ ws
      · have : ∃ x, (l, code, x) ∈ (wl, wc, wv) :: ws := by obtain ⟨x, hx⟩ := hws; exact ⟨x, by simp [hx]⟩
        simp only [hws, this, true_and]
        split
        · rfl
        · next h => rw [if_neg (fun g => h ⟨g.2.2.1, g.2.2.2.1, g.2.2.2.2⟩)]
      · simp only [hws, false_and, if_false]
        have : (∃ x, (l, code, x) ∈ (wl, wc, wv) :: ws) ↔ (l = wl ∧ code = wc) := by
          constructor
          · rintro ⟨x, hx⟩
            simp only [List.mem_cons, Prod.mk.injEq] at hx
            rcases hx with ⟨a, b, _⟩ | hx
            · exact ⟨a, b⟩
            · exact absurd ⟨x, hx⟩ hws
          · rintro ⟨rfl, rfl⟩; exact ⟨wv, by simp⟩
        simp only [this, and_assoc]
    · rw [g4, b, h1.size, h1.ac]
      by_cases hws : ∃ x, (l, key, x) ∈ ws
      · have : ∃ x, (l, key, x) ∈ (wl, wc, wv) :: ws := by obtain ⟨x, hx⟩ := hws; exact ⟨x, by simp [hx]⟩
        simp only [hws, this, true_and]
        by_cases hl : l < (m.now.warp wi).threads.length
        · simp only [hl, if_true, and_true]
          split <;> omega
        · simp [hl]
      · simp only [hws, false_and, if_false]
        have : (∃ x, (l, key, x) ∈ (wl, wc, wv) :: ws) ↔ (l = wl ∧ key = wc) := by
          constructor
          · rintro ⟨x, hx⟩
            simp only [List.mem_cons, Prod.mk.injEq] at hx
            rcases hx with ⟨a, b, _⟩ | hx
            · exact ⟨a, b⟩
            · exact absurd ⟨x, hx⟩ hws
          · rintro ⟨rfl, rfl⟩; exact ⟨wv, by simp⟩
        simp only [this, and_assoc]

end Sys2Proof.Machine
end

