-- ==== Sys2Proof/Laws/Results.lean ====
section
/-! SUPPORT. The spec of each shape of word with a fixed latency: what it writes, and that it changes nothing else. -/

namespace Sys2Proof.Machine

variable {k : Bool} {s0 : State}

/-! ## Popped sources -/

/-- Popping changes the queues of one warp, and from when its threads' loads see what an acquire saw; nothing else. -/
structure PopsOnly (a b : State) (wi : Nat) : Prop where
  rest : b = { a with warps := b.warps }
  others : ∀ j, j ≠ wi → b.warp j = a.warp j
  warp : b.warp wi = { a.warp wi with queues := (b.warp wi).queues, threads := (b.warp wi).threads }
  size : (b.warp wi).threads.length = (a.warp wi).threads.length
  threads : ∀ l, b.thread wi l = { a.thread wi l with fresh := (b.thread wi l).fresh }

theorem PopsOnly.refl (a : State) (wi : Nat) : PopsOnly a a wi := ⟨rfl, fun _ _ => rfl, rfl, rfl, fun _ => rfl⟩

theorem PopsOnly.trans {a b c : State} {wi : Nat} (h : PopsOnly a b wi) (g : PopsOnly b c wi) : PopsOnly a c wi := by
  refine ⟨?_, fun j hj => (g.others j hj).trans (h.others j hj), ?_, g.size.trans h.size, fun l => ?_⟩
  · rw [g.rest, h.rest]
  · rw [g.warp, h.warp]
  · rw [g.threads l, h.threads l]

theorem Sim.popEntry_only (m : Sim k s0) (wi q : Nat) : PopsOnly m.now (m.popEntry wi q).now wi := by
  refine ⟨rfl, fun j hj => ?_, ?_, ?_, fun l => ?_⟩
  · simp [Sim.popEntry, Ne.symm hj]
  · simp [Sim.popEntry, Warp.setQueue]
  · simp [Sim.popEntry, Warp.setQueue]
  · simp [State.thread, Sim.popEntry, Warp.setQueue, Warp.thread]

theorem Sim.fresh_only (m : Sim k s0) (wi n : Nat) (ls : List Nat) :
    PopsOnly m.now (m.each ls (fun m l => m.modThread wi l (fun t => { t with fresh := n }))).now wi := by
  induction ls generalizing m with
  | nil => exact .refl _ _
  | cons l ls ih =>
    refine PopsOnly.trans ⟨rfl, fun j hj => ?_, ?_, ?_, fun j => ?_⟩ (ih _)
    · rw [Sim.modThread_warp, if_neg (Ne.symm hj)]
    · rw [Sim.modThread_warp, if_pos rfl]; rfl
    · rw [Sim.modThread_warp, if_pos rfl]; exact Warp.mod_length ..
    · rw [Sim.modThread_thread]
      split
      · next h => rw [h.1]
      · rfl

theorem Sim.popFor_only (m : Sim k s0) (wi q : Nat) (lanes : List Nat) : PopsOnly m.now (m.popFor wi q lanes).now wi := by
  unfold Sim.popFor
  dsimp only
  cases (((m.now.warp wi).queue q).kind == 6 || ((m.now.warp wi).queue q).kind == 8)
  · exact m.popEntry_only wi q
  · exact (m.popEntry_only wi q).trans (Sim.fresh_only _ wi _ lanes)

theorem Sim.pops_only (m : Sim k s0) (wi : Nat) (qs lanes : List Nat) :
    PopsOnly m.now (m.each qs (fun m x => m.popFor wi (x - 112) lanes)).now wi := by
  induction qs generalizing m with
  | nil => exact .refl _ _
  | cons q qs ih => exact (m.popFor_only wi (q - 112) lanes).trans (ih _)

/-- The step in progress once a word has popped its sources. -/
abbrev popsOf (s : State) (i : Instr) : Sim false s :=
  (begin_ false s).each (s.popped i) (fun m x => m.popFor s.cur.warp (x - 112) (s.performers i))

theorem popsOf_now (s : State) (i : Instr) : (popsOf s i).now = s.afterPops i := rfl

theorem State.afterPops_only (s : State) (i : Instr) : PopsOnly s (s.afterPops i) s.cur.warp :=
  Sim.pops_only (begin_ false s) s.cur.warp (s.popped i) (s.performers i)

section
variable (s : State) (i : Instr)
@[simp] theorem State.afterPops_cur : (s.afterPops i).cur = s.cur := by rw [(s.afterPops_only i).rest]
@[simp] theorem State.afterPops_ac : (s.afterPops i).ac = s.ac := by rw [(s.afterPops_only i).rest]
@[simp] theorem State.afterPops_quota : ((s.afterPops i).warp s.cur.warp).quota = (s.warp s.cur.warp).quota := by
  rw [(s.afterPops_only i).warp]
@[simp] theorem State.afterPops_size :
    ((s.afterPops i).warp s.cur.warp).threads.length = (s.warp s.cur.warp).threads.length := (s.afterPops_only i).size
@[simp] theorem State.afterPops_regs (l : Nat) : ((s.afterPops i).thread s.cur.warp l).regs = (s.thread s.cur.warp l).regs := by
  rw [(s.afterPops_only i).threads l]
@[simp] theorem State.afterPops_preds (l : Nat) :
    ((s.afterPops i).thread s.cur.warp l).preds = (s.thread s.cur.warp l).preds := by rw [(s.afterPops_only i).threads l]
@[simp] theorem State.afterPops_busy (l : Nat) : ((s.afterPops i).thread s.cur.warp l).busy = (s.thread s.cur.warp l).busy := by
  rw [(s.afterPops_only i).threads l]
@[simp] theorem State.afterPops_pred (l q : Nat) :
    readPred ((s.afterPops i).thread s.cur.warp l) q = readPred (s.thread s.cur.warp l) q := by simp [readPred]
end

/-- A change of threads after the pops is a change within the frame of a word. -/
theorem LaneFrame.of {s t : State} {i : Instr} (h : InWarp (s.afterPops i) t s.cur.warp) (flags : Bool) :
    LaneFrame s t i flags := by
  have p := s.afterPops_only i
  refine ⟨?_, fun j hj => (h.others j hj).trans (p.others j hj), ?_, ?_, ?_, fun l => ?_, fun l => ?_⟩
  · have e := h.rest
    rw [p.rest] at e
    have c : t.cur = s.cur := by rw [h.cur, State.afterPops_cur]
    rw [e]; cases flags <;> simp
  · rw [h.warp, p.warp]; cases flags <;> rfl
  · rw [h.warp]
  · rw [h.size, State.afterPops_size]
  · rw [h.threads l, p.threads l]
  · rw [h.threads l]

/-! ## One register, or a pair -/

theorem Sim.writeAll_now (m : Sim k s0) (wi : Nat) (lanes : List Nat) (d : Reg) (f : Nat → Word) (lat : Nat)
    (hc : m.now.cur.warp = wi) (hd : d.toNat < 112) :
    m.writeAll lanes d f lat = m.writes wi (lanes.map (fun l => (l, d.toNat, f l))) lat := by
  unfold Sim.writeAll
  rw [if_pos hd]
  clear hd
  induction lanes generalizing m with
  | nil => rfl
  | cons l ls ih =>
    have e : m.writeReg l d.toNat (f l) lat = m.setResult wi l d.toNat (f l) lat := by rw [Sim.writeReg, hc]
    have hc' : (m.setResult wi l d.toNat (f l) lat).now.cur.warp = wi := by
      rw [(Sim.setResult_only m wi l d.toNat (f l) lat).cur, hc]
    simp only [Sim.each_cons, e]
    exact ih _ hc'

/-- Results written to one register after the pops of a word. -/
theorem writeAll_result (s : State) (i : Instr) (d : Reg) (hd : d.toNat < 112) (lat : Nat) (f : Nat → Word) :
    let t := ((popsOf s i).writeAll (s.performers i) d f lat).now
    LaneFrame s t i ∧ RegResult s t i d lat (fun l r => r = f l) := by
  intro t
  show LaneFrame s (Sim.now _) i ∧ RegResult s (Sim.now _) i d lat _
  rw [Sim.writeAll_now _ s.cur.warp _ _ _ _ (by rw [popsOf_now, State.afterPops_cur]) hd]
  obtain ⟨h1, h2, h3, h4⟩ := Sim.writes_spec (popsOf s i) s.cur.warp
    ((s.performers i).map (fun l => (l, d.toNat, f l))) lat (fun l _ => f l) (by simp)
  rw [popsOf_now] at h1 h2 h3 h4
  have hm : ∀ l c, (∃ x, (l, c, x) ∈ (s.performers i).map (fun l => (l, d.toNat, f l))) ↔
      l ∈ s.performers i ∧ c = d.toNat := by
    intro l c
    simp only [List.mem_map, Prod.mk.injEq]
    constructor
    · rintro ⟨x, y, hy, rfl, rfl, _⟩; exact ⟨hy, rfl⟩
    · rintro ⟨hl, rfl⟩; exact ⟨_, l, hl, rfl, rfl, rfl⟩
  refine ⟨.of h1 false, ⟨fun l hl => ?_, fun l code hn => ?_, fun l => ?_, fun l key => ?_⟩⟩
  · show State.reg _ _ _ _ = _
    rw [h2, if_pos]
    obtain ⟨a, b, c, e⟩ := hl
    exact ⟨(hm _ _).2 ⟨a, rfl⟩, by simpa using b, by simpa using c, e⟩
  · rw [h2, if_neg]
    · simp [State.reg]
    · rintro ⟨a, b, c, e⟩
      have a' := (hm _ _).1 a
      exact hn ⟨⟨a'.1, by simpa using b, by simpa using c, e⟩, a'.2⟩
  · rw [h3]; simp
  · rw [h4]
    simp only [hm, State.readyAt, State.afterPops_busy, State.afterPops_ac, State.afterPops_size]
    by_cases g : l ∈ s.performers i ∧ key = d.toNat <;> by_cases g2 : l < (s.warp s.cur.warp).threads.length <;>
      simp [g, g2, and_comm, and_assoc] <;> simp_all

/-- A word that writes f of its sources to one register: the register result, and its frame. -/
theorem aluWord_spec {i : Instr} {s : State} (h : s.issues i = true) (d : Reg) (hd : d.toNat < 112) (lat : Nat)
    (f : State → Src → Nat → Word) :
    ∃ t, aluWord i d lat f s = .next t ∧ LaneFrame s t i ∧ RegResult s t i d lat (fun l r => r = f s s.source l) :=
  ⟨_, (issueWord_issues h _).trans rfl, writeAll_result s i d hd lat (f s s.source)⟩

theorem mem_zip_range {L : List Word} {n : Nat} (hn : L.length = n) {p : Word × Nat} (hp : p ∈ L.zip (List.range n)) :
    wordAt L p.2 = p.1 := by
  obtain ⟨k, hk, rfl⟩ := List.getElem_of_mem hp
  rw [List.getElem_zip, List.getElem_range]
  have : k < L.length := by rw [List.length_zip] at hk; omega
  simp [wordAt, List.getD_eq_getElem?_getD, List.getElem?_eq_getElem this]

theorem Sim.writePair_now (m : Sim k s0) (wi : Nat) (lanes : List Nat) (d : Reg) (f : Nat → DWord) (lat : Nat)
    (hc : m.now.cur.warp = wi) :
    m.writePair lanes d f lat =
      m.writes wi (lanes.flatMap (fun l => [(l, d.toNat, lo32 (f l)), (l, d.toNat + 1, hi32 (f l))])) lat := by
  unfold Sim.writePair
  induction lanes generalizing m with
  | nil => rfl
  | cons l ls ih =>
    have c1 : (m.setResult wi l d.toNat (lo32 (f l)) lat).now.cur.warp = wi := by
      rw [(Sim.setResult_only m wi l d.toNat _ lat).cur, hc]
    have c2 : ((m.setResult wi l d.toNat (lo32 (f l)) lat).setResult wi l (d.toNat + 1) (hi32 (f l)) lat).now.cur.warp = wi := by
      rw [(Sim.setResult_only _ wi l (d.toNat + 1) _ lat).cur, c1]
    have e : (m.writeReg l d.toNat (lo32 (f l)) lat).writeReg l (d.toNat + 1) (hi32 (f l)) lat =
        (m.setResult wi l d.toNat (lo32 (f l)) lat).setResult wi l (d.toNat + 1) (hi32 (f l)) lat := by
      simp only [Sim.writeReg, hc, c1]
    simp only [Sim.each_cons, e]
    exact ih _ c2

@[simp] theorem lo32_cat64 (h l : Word) : lo32 (cat64 h l) = l := by
  unfold lo32 cat64
  apply BitVec.eq_of_getLsbD_eq
  intro i hi
  rw [BitVec.getLsbD_extractLsb', BitVec.getLsbD_append]
  simp [hi]

@[simp] theorem hi32_cat64 (h l : Word) : hi32 (cat64 h l) = h := by
  unfold hi32 cat64
  apply BitVec.eq_of_getLsbD_eq
  intro i hi
  rw [BitVec.getLsbD_extractLsb', BitVec.getLsbD_append]
  simp [hi]

theorem cat64_split (x : DWord) : cat64 (hi32 x) (lo32 x) = x := by
  simp only [cat64, hi32, lo32]
  apply BitVec.eq_of_getLsbD_eq
  intro i hi
  rw [BitVec.getLsbD_append]
  split
  · next h => rw [BitVec.getLsbD_extractLsb']; simp [h]
  · next h =>
    rw [BitVec.getLsbD_extractLsb']
    have h1 : i - 32 < 32 := by omega
    have h2 : 32 + (i - 32) = i := by omega
    simp [h1, h2]

/-- A pair result of every performing lane after the pops of a word, and its frame. -/
theorem writePair_result (s : State) (i : Instr) (d : Reg) (lat : Nat) (f : Nat → DWord) :
    let t := ((popsOf s i).writePair (s.performers i) d f lat).now
    LaneFrame s t i ∧ PairResult s t i d lat (fun l r => r = f l) := by
  intro t
  show LaneFrame s (Sim.now _) i ∧ PairResult s (Sim.now _) i d lat _
  rw [Sim.writePair_now _ s.cur.warp _ _ _ _ (by rw [popsOf_now, State.afterPops_cur])]
  obtain ⟨h1, h2, h3, h4⟩ := Sim.writes_spec (popsOf s i) s.cur.warp
    ((s.performers i).flatMap (fun l => [(l, d.toNat, lo32 (f l)), (l, d.toNat + 1, hi32 (f l))])) lat
    (fun l c => if c = d.toNat then lo32 (f l) else hi32 (f l)) (by
      simp only [List.mem_flatMap]
      rintro w ⟨l, _, hw⟩
      simp only [List.mem_cons, List.not_mem_nil, or_false] at hw
      rcases hw with rfl | rfl <;> simp)
  rw [popsOf_now] at h1 h2 h3 h4
  have hm : ∀ l c, (∃ x, (l, c, x) ∈ (s.performers i).flatMap
      (fun l => [(l, d.toNat, lo32 (f l)), (l, d.toNat + 1, hi32 (f l))])) ↔
      l ∈ s.performers i ∧ (c = d.toNat ∨ c = d.toNat + 1) := by
    intro l c
    simp only [List.mem_flatMap, List.mem_cons, List.not_mem_nil, or_false, Prod.mk.injEq]
    constructor
    · rintro ⟨x, y, hy, ⟨rfl, rfl, _⟩ | ⟨rfl, rfl, _⟩⟩
      · exact ⟨hy, .inl rfl⟩
      · exact ⟨hy, .inr rfl⟩
    · rintro ⟨hl, rfl | rfl⟩
      · exact ⟨_, l, hl, .inl ⟨rfl, rfl, rfl⟩⟩
      · exact ⟨_, l, hl, .inr ⟨rfl, rfl, rfl⟩⟩
  have hr : ∀ l c, s.lands i l c → (c = d.toNat ∨ c = d.toNat + 1) →
      (((popsOf s i).writes s.cur.warp ((s.performers i).flatMap
        (fun l => [(l, d.toNat, lo32 (f l)), (l, d.toNat + 1, hi32 (f l))])) lat).now).reg s.cur.warp l c =
        if c = d.toNat then lo32 (f l) else hi32 (f l) := by
    intro l c hl hc
    obtain ⟨a, b, q, e⟩ := hl
    rw [h2, if_pos ⟨(hm _ _).2 ⟨a, hc⟩, by simpa using b, by simpa using q, e⟩]
  refine ⟨.of h1 false, ⟨fun l hl hl' => ?_, fun l code hn => ?_, fun l => ?_, fun l key => ?_⟩⟩
  · show cat64 (State.reg _ _ _ _) (State.reg _ _ _ _) = _
    rw [hr l _ hl (.inl rfl), hr l _ hl' (.inr rfl)]
    simp [cat64_split]
  · rw [h2, if_neg]
    · simp [State.reg]
    · rintro ⟨a, b, c, e⟩
      have a' := (hm _ _).1 a
      exact hn ⟨⟨a'.1, by simpa using b, by simpa using c, e⟩, a'.2⟩
  · rw [h3]; simp
  · rw [h4]
    simp only [hm, State.readyAt, State.afterPops_busy, State.afterPops_ac, State.afterPops_size]
    by_cases g : l ∈ s.performers i <;> by_cases g1 : key = d.toNat ∨ key = d.toNat + 1 <;>
      by_cases g2 : l < (s.warp s.cur.warp).threads.length <;> simp [g, g1, g2]

/-! ## One predicate -/

/-- A word that writes f of its sources to a pair: the pair result, and its frame. -/
theorem aluPair_spec {i : Instr} {s : State} (h : s.issues i = true) (d : Reg) (lat : Nat) (f : State → Src → Nat → DWord) :
    ∃ t, aluPair i d lat f s = .next t ∧ LaneFrame s t i ∧ PairResult s t i d lat (fun l r => r = f s s.source l) :=
  ⟨_, (issueWord_issues h _).trans rfl, writePair_result s i d lat (f s s.source)⟩

theorem readPred_setPred (t : Thread) (p q : Nat) (b : Bool) (hq : q < 7) :
    readPred (t.setPred p b) q = if p = q then b else readPred t q := by
  have hq7 : (q == 7) = false := by simp; omega
  unfold readPred Thread.setPred
  simp only [hq7, Bool.false_or]
  by_cases hp : p < 7
  · simp only [hp, if_true]
    have h2 : (BitVec.ofNat 8 (2 ^ p)).getLsbD q = decide (p = q) := by
      have : ∀ x y : Fin 7, (BitVec.ofNat 8 (2 ^ x.val)).getLsbD y.val = decide (x.val = y.val) := by decide
      exact this ⟨p, hp⟩ ⟨q, hq⟩
    have q8 : q < 8 := by omega
    cases b <;> simp only [if_true, if_false, Bool.false_eq_true, BitVec.getLsbD_or, BitVec.getLsbD_and, BitVec.getLsbD_not, h2] <;>
      by_cases e : p = q <;>
      simp only [e, q8, decide_true, decide_false, if_true, if_false, Bool.or_true, Bool.or_false, Bool.not_true, Bool.not_false,
        Bool.and_true, Bool.and_false]
  · simp only [hp, if_false]
    have : p ≠ q := by omega
    simp [this]

@[simp] theorem Thread.setPred_regs (t : Thread) (p : Nat) (b : Bool) : (t.setPred p b).regs = t.regs := by
  unfold Thread.setPred; split <;> rfl
@[simp] theorem Thread.setPred_busy (t : Thread) (p : Nat) (b : Bool) : (t.setPred p b).busy = t.busy := by
  unfold Thread.setPred; split <;> rfl
theorem Thread.setPred_only (t : Thread) (p : Nat) (b : Bool) :
    t.setPred p b = { t with preds := (t.setPred p b).preds } := by
  unfold Thread.setPred; split <;> rfl

theorem readPred_of_preds {t u : Thread} (h : t.preds = u.preds) (q : Nat) : readPred t q = readPred u q := by
  simp [readPred, h]

/-- A predicate written in some lanes of the warp that issues. -/
theorem Sim.writePreds_spec (m : Sim k s0) (wi : Nat) (lanes : List Nat) (p : Nat) (f : Nat → Bool) (lat : Nat)
    (hc : m.now.cur.warp = wi) :
    InWarp m.now (m.each lanes (fun m l => m.writePred l p (f l) lat)).now wi ∧
    (∀ l q, q < 7 → readPred ((m.each lanes (fun m l => m.writePred l p (f l) lat)).now.thread wi l) q =
      if l ∈ lanes ∧ l < (m.now.warp wi).threads.length ∧ q = p then f l else readPred (m.now.thread wi l) q) ∧
    (∀ l code, (m.each lanes (fun m l => m.writePred l p (f l) lat)).now.reg wi l code = m.now.reg wi l code) ∧
    (∀ l key, (m.each lanes (fun m l => m.writePred l p (f l) lat)).now.readyAt wi l key =
      if l ∈ lanes ∧ l < (m.now.warp wi).threads.length ∧ key = 128 + p
      then max (m.now.readyAt wi l key) (m.now.ac + lat) else m.now.readyAt wi l key) := by
  induction lanes generalizing m with
  | nil => exact ⟨.refl _ _, by simp, by simp, by simp⟩
  | cons x ls ih =>
    have e : m.writePred x p (f x) lat = m.modThread wi x (fun t => (t.setPred p (f x)).setBusy (128 + p) (m.now.ac + lat)) := by
      rw [Sim.writePred, hc]; rfl
    have h1 : InWarp m.now (m.writePred x p (f x) lat).now wi := by
      rw [e]; exact Sim.modThread_only _ _ _ _ (fun t => by rw [Thread.setBusy, Thread.setPred_only])
    obtain ⟨g1, g2, g3, g4⟩ := ih (m.writePred x p (f x) lat) (by rw [h1.cur, hc])
    simp only [Sim.each_cons]
    have th : ∀ l, (m.writePred x p (f x) lat).now.thread wi l =
        if x = l ∧ l < (m.now.warp wi).threads.length then
          ((m.now.thread wi x).setPred p (f x)).setBusy (128 + p) (m.now.ac + lat) else m.now.thread wi l := by
      intro l; rw [e, Sim.modThread_thread]
    refine ⟨h1.trans g1, fun l q hq => ?_, fun l code => ?_, fun l key => ?_⟩
    · rw [g2 l q hq, h1.size, th]
      by_cases hl : l < (m.now.warp wi).threads.length
      · by_cases hx : x = l
        · subst hx
          by_cases hqp : q = p
          · subst hqp
            by_cases hm : x ∈ ls <;> simp [hm, hl, readPred_setPred _ _ _ _ hq, readPred_of_preds (Thread.setBusy_preds _ _ _)]
          · simp [hqp, hl, readPred_setPred _ _ _ _ hq, readPred_of_preds (Thread.setBusy_preds _ _ _), Ne.symm hqp]
        · simp [hx, Ne.symm hx]
      · simp [hl]
    · rw [g3, State.reg, State.reg, th]
      split
      · next h => simp [h.1]
      · rfl
    · rw [g4, h1.size, h1.ac]
      simp only [State.readyAt]
      rw [th]
      by_cases hl : l < (m.now.warp wi).threads.length
      · by_cases hx : x = l
        · subst hx
          by_cases hk : key = 128 + p
          · subst hk
            by_cases hm : x ∈ ls <;> simp [hm, hl, Thread.setBusy_busy]
          · simp [hk, hl, Thread.setBusy_busy]
        · simp [hx, Ne.symm hx]
      · simp [hl]

/-- A predicate written after the pops of a word. -/
theorem writePreds_result (s : State) (i : Instr) (p : BitVec 3) (f : Nat → Bool) :
    let t := ((popsOf s i).each (s.performers i) (fun m l => m.writePred l p.toNat (f l) 4)).now
    InWarp (s.afterPops i) t s.cur.warp ∧ PredResult s t i p.toNat f := by
  obtain ⟨h1, h2, h3, h4⟩ := Sim.writePreds_spec (popsOf s i) s.cur.warp (s.performers i) p.toNat f 4
    (by rw [popsOf_now, State.afterPops_cur])
  rw [popsOf_now] at h1 h2 h3 h4
  refine ⟨h1, ⟨fun l q hq => ?_, fun l code => ?_, fun l key => ?_⟩⟩
  · rw [h2 l q hq]; simp
  · rw [h3]; simp [State.reg]
  · rw [h4]; simp [State.readyAt]

/-- A word that writes a predicate of its sources: the predicate result, and its frame. -/
theorem predWord_spec {i : Instr} {s : State} (h : s.issues i = true) (p : BitVec 3) (f : State → Src → Nat → Bool) :
    ∃ t, predWord i p f s = .next t ∧ LaneFrame s t i ∧ PredResult s t i p.toNat (f s s.source) :=
  have r := writePreds_result s i p (f s s.source)
  ⟨_, (issueWord_issues h _).trans rfl, .of r.1 false, r.2⟩

/-! ## Lane masks and IEEE flags -/

theorem getLsbD_two_pow (l j : Nat) (hj : j < 32) : (BitVec.ofNat 32 (2 ^ l)).getLsbD j = decide (l = j) := by
  rw [BitVec.getLsbD_ofNat]; simp [hj, Nat.testBit_two_pow]

theorem getLsbD_foldl_or (ls : List Nat) (m : Word) (j : Nat) (hj : j < 32) :
    (ls.foldl (fun m l => m ||| BitVec.ofNat 32 (2 ^ l)) m).getLsbD j = (m.getLsbD j || ls.contains j) := by
  induction ls generalizing m with
  | nil => simp
  | cons l ls ih =>
    rw [List.foldl_cons, ih, BitVec.getLsbD_or, getLsbD_two_pow l j hj, List.contains_cons, Bool.or_assoc]
    congr 1
    by_cases h : l = j
    · simp [h]
    · simp [h, Ne.symm h]

/-- A mask holds exactly the lanes of its list. -/
theorem laneBit_maskOf (ls : List Nat) (j : Nat) (hj : j < 32) : laneBit (maskOf ls) j = ls.contains j := by
  rw [laneBit, maskOf, getLsbD_foldl_or ls 0 j hj]; simp

theorem foldl_or_start (ls : List Nat) (fl : Nat → FFlags) (a : FFlags) :
    a ||| ls.foldl (fun f l => f ||| fl l) 0 = ls.foldl (fun f l => f ||| fl l) a := by
  have : ∀ (ls : List Nat) (x y : FFlags), x ||| ls.foldl (fun f l => f ||| fl l) y = ls.foldl (fun f l => f ||| fl l) (x ||| y) := by
    intro ls
    induction ls with
    | nil => intro x y; rfl
    | cons l ls ih => intro x y; simp only [List.foldl_cons, ih, BitVec.or_assoc]
  rw [this]; simp

/-- The flags that lanes raise, over a state in which only the threads of the issuing warp have changed. -/
theorem Sim.raise_spec {s : State} {i : Instr} (m : Sim k s0) (h : InWarp (s.afterPops i) m.now s.cur.warp)
    (fl : Nat → FFlags) :
    LaneFrame s (m.raise (s.performers i) fl).now i true ∧ FlagsRaised s (m.raise (s.performers i) fl).now i fl ∧
    ∀ l, (m.raise (s.performers i) fl).now.thread s.cur.warp l = m.now.thread s.cur.warp l := by
  have f := LaneFrame.of h false
  have hc : m.now.cur = s.cur := by rw [h.cur, State.afterPops_cur]
  have w : ∀ j, (m.raise (s.performers i) fl).now.warp j =
      if s.cur.warp = j then
        { m.now.warp s.cur.warp with
          fpst := (m.now.warp s.cur.warp).fpst ||| (s.performers i).foldl (fun f l => f ||| fl l) 0
          lxst := (m.now.warp s.cur.warp).lxst ||| maskOf ((s.performers i).filter (fun l => fl l &&& s.cur.fpen != 0)) }
      else m.now.warp j := by
    intro j
    unfold Sim.raise
    simp only [hc]
    exact Sim.modWarp_warp m s.cur.warp j (fun w =>
      { w with fpst := w.fpst ||| (s.performers i).foldl (fun f l => f ||| fl l) 0
               lxst := w.lxst ||| maskOf ((s.performers i).filter (fun l => fl l &&& s.cur.fpen != 0)) })
  have th : ∀ l, (m.raise (s.performers i) fl).now.thread s.cur.warp l = m.now.thread s.cur.warp l := by
    intro l; simp only [State.thread, w, if_true]; rfl
  have hw : m.now.warp s.cur.warp =
      { s.warp s.cur.warp with threads := (m.now.warp s.cur.warp).threads, queues := (m.now.warp s.cur.warp).queues } := by
    have := f.warp; simpa using this
  refine ⟨⟨?_, fun j hj => ?_, ?_, ?_, ?_, fun l => ?_, fun l => ?_⟩, ⟨?_, fun l hl => ?_, ?_⟩, th⟩
  · have e := f.rest
    simp only [Bool.false_eq_true, if_false] at e
    unfold Sim.raise
    simp only [Sim.modCur, Sim.modWarp, Sim.act_now, Act.apply, if_true]
    rw [e]
  · rw [w, if_neg (Ne.symm hj)]; exact f.others j hj
  · rw [w, if_pos rfl]; simp only [if_true]; rw [hw]
  · rw [w, if_pos rfl]; exact f.queues
  · rw [w, if_pos rfl]; exact f.size
  · rw [th]; exact f.threads l
  · rw [th]; exact f.fresh l
  · rw [w, if_pos rfl]
    simp only [foldl_or_start]
    rw [hw]
  · rw [w, if_pos rfl]
    simp only [laneBit]
    rw [BitVec.getLsbD_or]
    have := laneBit_maskOf ((s.performers i).filter (fun l => fl l &&& s.cur.fpen != 0)) l hl
    simp only [laneBit] at this
    rw [this, hw]
    congr 1
    rw [Bool.eq_iff_iff]
    simp [List.mem_filter]
  · unfold Sim.raise
    simp only [Sim.modCur, Sim.modWarp, Sim.act_now, Act.apply, hc, foldl_or_start]

/-- Results with IEEE flags written to one register after the pops of a word. -/
theorem writeF_spec (s : State) (i : Instr) (d : Reg) (hd : d.toNat < 112) (f : Nat → Word × FFlags) (lat : Nat) :
    let t := ((popsOf s i).writeF (s.performers i) d f lat).now
    LaneFrame s t i true ∧ RegResult s t i d lat (fun l r => r = (f l).1) ∧ FlagsRaised s t i (fun l => (f l).2) := by
  have r := writeAll_result s i d hd lat (fun l => (f l).1)
  have only : InWarp (s.afterPops i) ((popsOf s i).writeAll (s.performers i) d (fun l => (f l).1) lat).now s.cur.warp := by
    rw [Sim.writeAll_now _ s.cur.warp _ _ _ _ (by rw [popsOf_now, State.afterPops_cur]) hd]
    exact (Sim.writes_spec (popsOf s i) s.cur.warp
      ((s.performers i).map (fun l => (l, d.toNat, (f l).1))) lat (fun l _ => (f l).1) (by simp)).1
  obtain ⟨g1, g2, g3⟩ := Sim.raise_spec _ only (fun l => (f l).2)
  obtain ⟨r1, r2, r3, r4⟩ := r.2
  exact ⟨g1, ⟨fun l hl => by show State.reg _ _ _ _ = _; rw [State.reg, Sim.writeF, g3]; exact r1 l hl,
    fun l c hn => by rw [State.reg, Sim.writeF, g3]; exact r2 l c hn,
    fun l => by rw [Sim.writeF, g3]; exact r3 l,
    fun l key => by rw [State.readyAt, Sim.writeF, g3]; exact r4 l key⟩, g2⟩

/-- A word that writes a result with IEEE flags. -/
theorem fpWord_spec {i : Instr} {s : State} (h : s.issues i = true) (d : Reg) (hd : d.toNat < 112)
    (f : Src → Nat → Word × FFlags) :
    ∃ t, fpWord i d f s = .next t ∧ LaneFrame s t i true ∧ RegResult s t i d 4 (fun l r => r = (f s.source l).1) ∧
      FlagsRaised s t i (fun l => (f s.source l).2) :=
  ⟨_, (issueWord_issues h _).trans rfl, writeF_spec s i d hd (f s.source) 4⟩

/-- A comparison that writes a predicate and raises flags. -/
theorem predRaise_spec (s : State) (i : Instr) (p : BitVec 3) (f : Nat → Bool × FFlags) :
    let t := (((popsOf s i).each (s.performers i) (fun m l => m.writePred l p.toNat (f l).1 4)).raise (s.performers i)
      (fun l => (f l).2)).now
    LaneFrame s t i true ∧ PredResult s t i p.toNat (fun l => (f l).1) ∧ FlagsRaised s t i (fun l => (f l).2) := by
  obtain ⟨h1, r⟩ := writePreds_result s i p (fun l => (f l).1)
  obtain ⟨g1, g2, g3⟩ := Sim.raise_spec _ h1 (fun l => (f l).2)
  obtain ⟨r1, r2, r3⟩ := r
  exact ⟨g1, ⟨fun l q hq => by rw [g3]; exact r1 l q hq, fun l c => by rw [State.reg, g3]; exact r2 l c,
    fun l key => by rw [State.readyAt, g3]; exact r3 l key⟩, g2⟩

/-- Consecutive registers written in each lane after the pops of a word. -/
theorem writeRanges_result (s : State) (i : Instr) (d : Reg) (n lat : Nat) (f : Nat → List Word) (hn : ∀ l, (f l).length = n) :
    let t := ((popsOf s i).each (s.performers i) (fun m l => m.writeRange l d.toNat (f l) lat)).now
    InWarp (s.afterPops i) t s.cur.warp ∧ RangeResult s t i d n lat (fun l j => wordAt (f l) j) := by
  let ws (l : Nat) : List (Nat × Nat × Word) := ((f l).zip (List.range n)).map (fun p => (l, d.toNat + p.2, p.1))
  have one : ∀ (l : Nat) (L : List (Word × Nat)) (m : Sim false s), m.now.cur.warp = s.cur.warp →
      L.foldl (fun m w => m.writeReg l (d.toNat + w.2) w.1 lat) m = m.writes s.cur.warp (L.map (fun p => (l, d.toNat + p.2, p.1))) lat := by
    intro l L
    induction L with
    | nil => intro m _; rfl
    | cons p L ih =>
      intro m hc
      rw [List.foldl_cons, Sim.writeReg, hc, ih _ (by rw [(Sim.setResult_only _ _ _ _ _ _).cur, hc])]
      rfl
  have all : ∀ (ls : List Nat) (m : Sim false s), m.now.cur.warp = s.cur.warp →
      m.each ls (fun m l => m.writeRange l d.toNat (f l) lat) = m.writes s.cur.warp (ls.flatMap ws) lat := by
    intro ls
    induction ls with
    | nil => intro m _; rfl
    | cons l ls ih =>
      intro m hc
      have e : m.writeRange l d.toNat (f l) lat = m.writes s.cur.warp (ws l) lat := by
        unfold Sim.writeRange; rw [hn l]; exact one l _ m hc
      have hc' : (m.writes s.cur.warp (ws l) lat).now.cur.warp = s.cur.warp := by
        rw [(Sim.writes_spec m s.cur.warp (ws l) lat (fun l c => wordAt (f l) (c - d.toNat)) (by
          intro w hw
          simp only [ws, List.mem_map] at hw
          obtain ⟨p, hp, rfl⟩ := hw
          have := mem_zip_range (hn l) hp
          simp [this])).1.cur, hc]
      rw [Sim.each_cons, e, ih _ hc', List.flatMap_cons]
      simp only [Sim.writes, Sim.each, List.foldl_append]
  have hc : (popsOf s i).now.cur.warp = s.cur.warp := by rw [popsOf_now, State.afterPops_cur]
  have hm : ∀ l c, (∃ x, (l, c, x) ∈ (s.performers i).flatMap ws) ↔ l ∈ s.performers i ∧ d.toNat ≤ c ∧ c < d.toNat + n := by
    intro l c
    simp only [List.mem_flatMap, ws, List.mem_map, Prod.mk.injEq]
    constructor
    · rintro ⟨x, y, hy, p, hp, rfl, rfl, rfl⟩
      have := (List.of_mem_zip hp).2
      rw [List.mem_range] at this
      exact ⟨hy, by omega, by omega⟩
    · rintro ⟨hl, h1, h2⟩
      have hlen : c - d.toNat < ((f l).zip (List.range n)).length := by rw [List.length_zip, hn l, List.length_range]; omega
      refine ⟨_, l, hl, _, List.getElem_mem hlen, rfl, ?_, rfl⟩
      rw [List.getElem_zip, List.getElem_range]; simp only; omega
  intro t
  have ht : t = ((popsOf s i).writes s.cur.warp ((s.performers i).flatMap ws) lat).now := by
    show Sim.now _ = _; rw [all _ _ hc]
  obtain ⟨h1, h2, h3, h4⟩ := Sim.writes_spec (popsOf s i) s.cur.warp ((s.performers i).flatMap ws) lat
    (fun l c => wordAt (f l) (c - d.toNat)) (by
      intro w hw
      simp only [List.mem_flatMap, ws, List.mem_map] at hw
      obtain ⟨l, _, p, hp, rfl⟩ := hw
      have := mem_zip_range (hn l) hp
      simp [this])
  rw [← ht] at h1 h2 h3 h4
  rw [popsOf_now] at h1 h2 h3 h4
  refine ⟨h1, fun l j hj hl => ?_, fun l code hno => ?_, fun l => ?_, fun l key => ?_⟩
  · obtain ⟨a, b, q, e⟩ := hl
    rw [h2, if_pos ⟨(hm _ _).2 ⟨a, by omega, by omega⟩, by simpa using b, by simpa using q, e⟩]
    congr 1; omega
  · rw [h2, if_neg]
    · simp [State.reg]
    · rintro ⟨a, b, c, e⟩
      have a' := (hm _ _).1 a
      exact hno ⟨⟨a'.1, by simpa using b, by simpa using c, e⟩, a'.2⟩
  · rw [h3]; simp
  · rw [h4]
    simp only [hm, State.readyAt, State.afterPops_busy, State.afterPops_ac, State.afterPops_size]
    have e : ((l ∈ s.performers i ∧ d.toNat ≤ key ∧ key < d.toNat + n) ∧ l < (s.warp s.cur.warp).threads.length) ↔
        (l ∈ s.performers i ∧ l < (s.warp s.cur.warp).threads.length ∧ d.toNat ≤ key ∧ key < d.toNat + n) := by
      constructor
      · rintro ⟨⟨a, b, c⟩, e⟩; exact ⟨a, e, b, c⟩
      · rintro ⟨a, e, b, c⟩; exact ⟨⟨a, b, c⟩, e⟩
    simp only [e]

/-- Consecutive registers written in each lane, with flags raised. -/
theorem writeRangesF_spec (s : State) (i : Instr) (d : Reg) (n lat : Nat) (f : Nat → List Word) (hn : ∀ l, (f l).length = n)
    (fl : Nat → FFlags) :
    let t := (((popsOf s i).each (s.performers i) (fun m l => m.writeRange l d.toNat (f l) lat)).raise (s.performers i) fl).now
    LaneFrame s t i true ∧ RangeResult s t i d n lat (fun l j => wordAt (f l) j) ∧ FlagsRaised s t i fl := by
  obtain ⟨h1, r1, r2, r3, r4⟩ := writeRanges_result s i d n lat f hn
  obtain ⟨g1, g2, g3⟩ := Sim.raise_spec _ h1 fl
  exact ⟨g1, ⟨fun l j hj hl => by rw [State.reg, g3]; exact r1 l j hj hl, fun l c hn => by rw [State.reg, g3]; exact r2 l c hn,
    fun l => by rw [g3]; exact r3 l, fun l key => by rw [State.readyAt, g3]; exact r4 l key⟩, g2⟩

end Sys2Proof.Machine
end

