-- ==== Sys2Proof/Laws/Flight.lean ====
section
/-! SUPPORT. The spec of words that leave an operation in flight, and of words that change their threads by one function. -/

namespace Sys2Proof.Machine

variable {k : Bool} {s0 : State}

@[simp] theorem State.afterPops_nextId (s : State) (i : Instr) : (s.afterPops i).nextId = s.nextId := by
  rw [(s.afterPops_only i).rest]
@[simp] theorem State.afterPops_ops (s : State) (i : Instr) : (s.afterPops i).ops = s.ops := by
  rw [(s.afterPops_only i).rest]
@[simp] theorem State.afterPops_delays (s : State) (i : Instr) : (s.afterPops i).delays = s.delays := by
  rw [(s.afterPops_only i).rest]
@[simp] theorem State.afterPops_flags (s : State) (i : Instr) :
    ((s.afterPops i).warp s.cur.warp).flags = (s.warp s.cur.warp).flags := by rw [(s.afterPops_only i).warp]

theorem Warp.flagAdd_up (w : Warp) (f : Nat) : w.flagAdd f true = { w with flags := counted w.flags (some f) } := rfl

/-- The warps after an operation of a group is counted. -/
def State.countedWarps (s : State) (f : Option Nat) : List (Nat × Warp) :=
  match f with
  | some f => Keyed.put s.warps s.cur.warp ((s.warp s.cur.warp).flagAdd f true)
  | none => s.warps

/-- An operation launched: it stands last, and its flag is counted. -/
theorem Sim.launchOp_now (m : Sim k s0) (i : Instr) (kind : OpKind) (lanes : List LaneOp) (lat : Nat) (writes : List RegWrite) :
    (m.launchOp i kind lanes lat writes).now =
      { m.now with ops := m.now.ops ++ [m.now.flight i kind lanes lat writes], nextId := m.now.nextId + 1
                   delays := m.now.delays.tail, warps := m.now.countedWarps (m.now.flagFor i) } := by
  cases h : m.now.flagFor i with
  | none => simp only [Sim.launchOp, h, State.countedWarps, State.opOf]; rw [State.flight, h]; rfl
  | some f => simp only [Sim.launchOp, h, State.countedWarps, State.opOf]; rw [State.flight, h]; rfl

theorem State.countedWarps_warp (s t : State) (f : Option Nat) (ht : t.warps = s.countedWarps f) (j : Nat) :
    t.warp j = if j = s.cur.warp then { s.warp j with flags := counted (s.warp j).flags f } else s.warp j := by
  unfold State.warp
  rw [ht]
  cases f with
  | none => simp only [State.countedWarps, counted]; split <;> rfl
  | some f =>
    simp only [State.countedWarps, Keyed.get_put]
    by_cases e : s.cur.warp = j
    · subst e; simp; rfl
    · rw [if_neg e, if_neg (Ne.symm e)]

/-- An operation launched after the pops of a word is in flight. -/
theorem launchOp_inFlight (s : State) (i : Instr) (kind : OpKind) (lanes : List LaneOp) (lat : Nat) (writes : List RegWrite) :
    InFlight s ((popsOf s i).launchOp i kind lanes lat writes).now i (s.flight i kind lanes lat writes) := by
  have p := s.afterPops_only i
  have hf : (s.afterPops i).flagFor i = s.flagFor i := by rw [p.rest]; rfl
  have hl : (s.afterPops i).flight i kind lanes lat writes = s.flight i kind lanes lat writes := by rw [p.rest]; rfl
  have hw := State.countedWarps_warp (s.afterPops i) ((popsOf s i).launchOp i kind lanes lat writes).now (s.flagFor i)
    (by rw [Sim.launchOp_now, popsOf_now, hf])
  refine ⟨?_, fun j hj => ?_, ?_, fun l => ?_⟩
  · rw [Sim.launchOp_now, popsOf_now, hl, p.rest]
  · rw [hw, State.afterPops_cur, if_neg hj, p.others j hj]
  · rw [hw, State.afterPops_cur, if_pos rfl, p.warp]; rfl
  · have e : ((popsOf s i).launchOp i kind lanes lat writes).now.thread s.cur.warp l = (s.afterPops i).thread s.cur.warp l := by
      rw [State.thread, hw, State.afterPops_cur, if_pos rfl]; rfl
    rw [e, p.threads l]

/-- A word that issues has a lane that performs it. -/
theorem issues_ne {s : State} {i : Instr} (h : s.issues i = true) : s.performers i ≠ [] := by
  intro e; unfold State.issues at h; rw [e] at h; simp at h

/-- A word of an engine leaves its lanes in flight. -/
theorem engineWord_flight {s : State} {i : Instr} (h : s.issues i = true) (lat : Nat) (lane : Src → Nat → LaneOp) :
    ∃ t, engineWord i lat s lane = .next t ∧ InFlight s t i (s.flight i .engine ((s.performers i).map (lane s.source)) lat) :=
  ⟨_, issueWord_issues h _, launchOp_inFlight s _ _ _ _ _⟩

/-- No latency of a list exceeds the largest. -/
theorem le_maxOf {x : Nat} {xs : List Nat} (h : x ∈ xs) : x ≤ maxOf xs := by
  have ge : ∀ (xs : List Nat) (a : Nat), a ≤ xs.foldl Nat.max a ∧ ∀ x ∈ xs, x ≤ xs.foldl Nat.max a := by
    intro xs
    induction xs with
    | nil => intro a; simp
    | cons y ys ih =>
      intro a
      obtain ⟨h1, h2⟩ := ih (Nat.max a y)
      refine ⟨Nat.le_trans (Nat.le_max_left a y) h1, fun x hx => ?_⟩
      rcases List.mem_cons.1 hx with rfl | hx
      · exact Nat.le_trans (Nat.le_max_right a x) h1
      · exact h2 x hx
  exact (ge xs 0).2 x h

/-- Threads changed one after another by a function that a second application does not move on. -/
theorem Sim.each_modThread (m : Sim k s0) (wi : Nat) (ls : List Nat) (f : Nat → Thread → Thread)
    (idem : ∀ l t, f l (f l t) = f l t) :
    let t := (m.each ls (fun m l => m.modThread wi l (f l))).now
    t = { m.now with warps := t.warps } ∧ (∀ j, j ≠ wi → t.warp j = m.now.warp j) ∧
    t.warp wi = { m.now.warp wi with threads := (t.warp wi).threads } ∧
    (t.warp wi).threads.length = (m.now.warp wi).threads.length ∧
    ∀ l, t.thread wi l = if l ∈ ls ∧ l < (m.now.warp wi).threads.length then f l (m.now.thread wi l) else m.now.thread wi l := by
  induction ls generalizing m with
  | nil => simp
  | cons a ls ih =>
    obtain ⟨h1, h2, h3, h4, h5⟩ := ih (m.modThread wi a (f a))
    simp only [Sim.each_cons]
    have hw : (m.modThread wi a (f a)).now.warp wi = (m.now.warp wi).mod a (f a) := by
      rw [Sim.modThread_warp]; simp
    refine ⟨?_, fun j hj => ?_, ?_, ?_, fun l => ?_⟩
    · rw [h1]; rfl
    · rw [h2 j hj, Sim.modThread_warp, if_neg (Ne.symm hj)]
    · rw [h3, hw]; rfl
    · rw [h4, hw, Warp.mod_length]
    · rw [h5 l, hw, Warp.mod_length]
      have ht : ∀ l, (m.modThread wi a (f a)).now.thread wi l =
          if a = l ∧ l < (m.now.warp wi).threads.length then f a (m.now.thread wi a) else m.now.thread wi l := by
        intro l; rw [State.thread, hw, Warp.mod_thread]; rfl
      rw [ht l]
      by_cases e : a = l
      · subst e
        by_cases hl : a < (m.now.warp wi).threads.length <;> by_cases hm : a ∈ ls <;> simp [hl, hm, idem]
      · have e' : ¬ l = a := fun g => e g.symm
        simp [e, e']

/-- A word whose body changes each performing thread by f. -/
theorem EachThread.of (s : State) (i : Instr) (f : Nat → Thread → Thread) (idem : ∀ l t, f l (f l t) = f l t) :
    EachThread s ((popsOf s i).each (s.performers i) (fun m l => m.modThread s.cur.warp l (f l))).now i f := by
  have p := s.afterPops_only i
  obtain ⟨h1, h2, h3, h4, h5⟩ := Sim.each_modThread (popsOf s i) s.cur.warp (s.performers i) f idem
  rw [popsOf_now] at h1 h2 h3 h4 h5
  refine ⟨?_, fun j hj => (h2 j hj).trans (p.others j hj), ?_, ?_, fun l => ?_⟩
  · rw [h1, p.rest]
  · rw [h3, p.warp]
  · rw [h4, State.afterPops_size]
  · rw [h5, State.afterPops_size]

/-- A word whose body changes each performing thread by f, and then each by g. -/
theorem EachThread.of2 (s : State) (i : Instr) (f g : Nat → Thread → Thread) (idf : ∀ l t, f l (f l t) = f l t)
    (idg : ∀ l t, g l (g l t) = g l t) :
    EachThread s (((popsOf s i).each (s.performers i) (fun m l => m.modThread s.cur.warp l (f l))).each (s.performers i)
      (fun m l => m.modThread s.cur.warp l (g l))).now i (fun l t => g l (f l t)) := by
  obtain ⟨h1, h2, h3, h4, h5⟩ := EachThread.of s i f idf
  obtain ⟨g1, g2, g3, g4, g5⟩ := Sim.each_modThread
    ((popsOf s i).each (s.performers i) (fun m l => m.modThread s.cur.warp l (f l))) s.cur.warp (s.performers i) g idg
  refine ⟨?_, fun j hj => (g2 j hj).trans (h2 j hj), ?_, g4.trans h4, fun l => ?_⟩
  · rw [g1, h1]
  · rw [g3, h3]
  · rw [g5, h4, h5]
    by_cases c : l ∈ s.performers i ∧ l < (s.warp s.cur.warp).threads.length
    · rw [if_pos c, if_pos c, if_pos c]
    · rw [if_neg c, if_neg c, if_neg c]

theorem warps_over {a b : State} (h : b = { a with warps := b.warps }) (ws : List (Nat × Warp)) :
    { b with warps := ws } = { a with warps := ws } := by rw [h]

/-! ## What thread changes leave -/

/-- Only threads and queues of warps differ. -/
structure Alike (s t : State) : Prop where
  rest : t = { s with warps := t.warps }
  warp : ∀ j, t.warp j = { s.warp j with threads := (t.warp j).threads, queues := (t.warp j).queues }

theorem Alike.refl (s : State) : Alike s s := ⟨rfl, fun _ => rfl⟩

theorem Alike.trans {a b c : State} (h : Alike a b) (g : Alike b c) : Alike a c := by
  refine ⟨?_, fun j => ?_⟩
  · rw [g.rest, h.rest]
  · rw [g.warp, h.warp]

section
variable {s t : State} (h : Alike s t)
include h
theorem Alike.cur : t.cur = s.cur := by rw [h.rest]
theorem Alike.ac : t.ac = s.ac := by rw [h.rest]
theorem Alike.nextId : t.nextId = s.nextId := by rw [h.rest]
theorem Alike.boot : t.boot = s.boot := by rw [h.rest]
theorem Alike.ops : t.ops = s.ops := by rw [h.rest]
theorem Alike.gangOf (j : Nat) : t.gangOf j = s.gangOf j := by
  show (t.wg (t.warp j).wg).gang = _; rw [h.warp]; rw [h.rest]; rfl
theorem Alike.launchIx (j : Nat) : t.launchIx j = s.launchIx j := by
  show (t.gang (t.gangOf j)).launch = _; rw [h.gangOf]; rw [h.rest]; rfl
theorem Alike.launchOf (j : Nat) : t.launchOf j = s.launchOf j := by
  show t.launch (t.launchIx j) = _; rw [h.launchIx]; rw [h.rest]; rfl
theorem Alike.ownerOf (j : Nat) : t.ownerOf j = s.ownerOf j := by
  show (t.launchOf j).owner = _; rw [h.launchOf]; rfl
theorem Alike.tvec (j : Nat) : t.tvec j = s.tvec j := by
  unfold State.tvec; rw [h.launchOf]; rw [h.rest]
theorem Alike.ticketOf (g : Nat) : t.ticketOf g = s.ticketOf g := by
  rw [h.rest]; rfl
theorem Alike.quota (j : Nat) : (t.warp j).quota = (s.warp j).quota := by rw [h.warp]
theorem Alike.wg (j : Nat) : (t.warp j).wg = (s.warp j).wg := by rw [h.warp]
end

theorem Sim.modThread_alike (m : Sim k s0) (wi l : Nat) (f : Thread → Thread) : Alike m.now (m.modThread wi l f).now := by
  refine ⟨rfl, fun j => ?_⟩
  rw [Sim.modThread_warp]
  split
  · next h => rw [← h]; rfl
  · rfl

theorem State.afterPops_alike (s : State) (i : Instr) : Alike s (s.afterPops i) := by
  have p := s.afterPops_only i
  refine ⟨p.rest, fun j => ?_⟩
  by_cases e : j = s.cur.warp
  · subst e; rw [p.warp]
  · rw [p.others j e]

/-- A loop whose body, wherever only threads and queues have changed, is another. -/
theorem Sim.each_congr {s : State} {α : Type} {g h : Sim k s0 → α → Sim k s0}
    (hg : ∀ (m : Sim k s0) (a : α), Alike s m.now → g m a = h m a) (hk : ∀ (m : Sim k s0) (a : α), Alike m.now (h m a).now)
    (m : Sim k s0) (hm : Alike s m.now) (ls : List α) : m.each ls g = m.each ls h := by
  induction ls generalizing m with
  | nil => rfl
  | cons a ls ih => rw [Sim.each_cons, Sim.each_cons, hg m a hm]; exact ih _ (hm.trans (hk m a))

/-- A loop over threads leaves all but threads. -/
theorem Sim.each_alike {α : Type} {g : Sim k s0 → α → Sim k s0} (hg : ∀ (m : Sim k s0) (a : α), Alike m.now (g m a).now)
    (m : Sim k s0) (ls : List α) : Alike m.now (m.each ls g).now := by
  induction ls generalizing m with
  | nil => exact .refl _
  | cons a ls ih => rw [Sim.each_cons]; exact (hg m a).trans (ih _)

theorem popsOf_alike (s : State) (i : Instr) : Alike s (popsOf s i).now := s.afterPops_alike i

/-- Threads changed one after another, each once. -/
theorem Sim.each_modThread_nodup (m : Sim k s0) (wi : Nat) (ls : List Nat) (nd : ls.Nodup) (f : Nat → Thread → Thread) :
    let t := (m.each ls (fun m l => m.modThread wi l (f l))).now
    t = { m.now with warps := t.warps } ∧ (∀ j, j ≠ wi → t.warp j = m.now.warp j) ∧
    t.warp wi = { m.now.warp wi with threads := (t.warp wi).threads } ∧
    (t.warp wi).threads.length = (m.now.warp wi).threads.length ∧
    ∀ l, t.thread wi l = if l ∈ ls ∧ l < (m.now.warp wi).threads.length then f l (m.now.thread wi l) else m.now.thread wi l := by
  induction ls generalizing m with
  | nil => simp
  | cons a ls ih =>
    rw [List.nodup_cons] at nd
    obtain ⟨h1, h2, h3, h4, h5⟩ := ih (m.modThread wi a (f a)) nd.2
    simp only [Sim.each_cons]
    have hw : (m.modThread wi a (f a)).now.warp wi = (m.now.warp wi).mod a (f a) := by
      rw [Sim.modThread_warp]; simp
    refine ⟨?_, fun j hj => ?_, ?_, ?_, fun l => ?_⟩
    · rw [h1]; rfl
    · rw [h2 j hj, Sim.modThread_warp, if_neg (Ne.symm hj)]
    · rw [h3, hw]; rfl
    · rw [h4, hw, Warp.mod_length]
    · rw [h5 l, hw, Warp.mod_length]
      have ht : ∀ l, (m.modThread wi a (f a)).now.thread wi l =
          if a = l ∧ l < (m.now.warp wi).threads.length then f a (m.now.thread wi a) else m.now.thread wi l := by
        intro l; rw [State.thread, hw, Warp.mod_thread]; rfl
      rw [ht l]
      by_cases e : a = l
      · subst e
        by_cases hl : a < (m.now.warp wi).threads.length <;> simp [hl, nd.1]
      · have e' : ¬ l = a := fun g => e g.symm
        simp [e, e']

/-- A loop over distinct lanes whose body, at a thread that the loop has not reached before, changes it by f. -/
theorem Sim.each_first {s : State} (wi : Nat) {g : Sim k s0 → Nat → Sim k s0} {f : Nat → Thread → Thread} (ls : List Nat)
    (nd : ls.Nodup) (m : Sim k s0) (hm : Alike s m.now) (hl : ∀ l ∈ ls, m.now.thread wi l = s.thread wi l)
    (hg : ∀ (m : Sim k s0) (l : Nat), l ∈ ls → Alike s m.now → m.now.thread wi l = s.thread wi l → g m l = m.modThread wi l (f l)) :
    m.each ls g = m.each ls (fun m l => m.modThread wi l (f l)) := by
  induction ls generalizing m with
  | nil => rfl
  | cons a ls ih =>
    rw [List.nodup_cons] at nd
    rw [Sim.each_cons, Sim.each_cons, hg m a (by simp) hm (hl a (by simp))]
    refine ih nd.2 _ (hm.trans (m.modThread_alike ..)) (fun l h => ?_) (fun m l h => hg m l (by simp [h]))
    have hn : a ≠ l := fun e => nd.1 (e ▸ h)
    rw [Sim.modThread_thread, if_neg (fun g => hn g.1)]
    exact hl l (by simp [h])

/-- A word whose body changes each performing thread by f, each lane once. -/
theorem EachThread.of_nodup (s : State) (i : Instr) (nd : s.cur.lanes.Nodup) (f : Nat → Thread → Thread) :
    EachThread s ((popsOf s i).each (s.performers i) (fun m l => m.modThread s.cur.warp l (f l))).now i f := by
  have p := s.afterPops_only i
  have nd' : (s.performers i).Nodup := nd.filter _
  obtain ⟨h1, h2, h3, h4, h5⟩ := Sim.each_modThread_nodup (popsOf s i) s.cur.warp (s.performers i) nd' f
  rw [popsOf_now] at h1 h2 h3 h4 h5
  refine ⟨?_, fun j hj => (h2 j hj).trans (p.others j hj), ?_, ?_, fun l => ?_⟩
  · rw [h1, p.rest]
  · rw [h3, p.warp]
  · rw [h4, State.afterPops_size]
  · rw [h5, State.afterPops_size]

/-- A word whose loop changes each performing thread by f. -/
theorem eachThread_body {s : State} {i : Instr} (h : s.issues i = true)
    (body : List Nat → Src → Sim false s → Sim false s) (g : Sim false s → Nat → Sim false s) (f : Nat → Thread → Thread)
    (hb : body (s.performers i) s.source (popsOf s i) = (popsOf s i).each (s.performers i) g)
    (hg : ∀ (m : Sim false s) (l : Nat), Alike s m.now → g m l = m.modThread s.cur.warp l (f l))
    (idem : s.cur.lanes.Nodup ∨ ∀ l t, f l (f l t) = f l t) :
    ∃ t, issueWord i s body = .next t ∧ EachThread s t i f := by
  refine ⟨_, issueWord_issues h _, ?_⟩
  show EachThread s (body (s.performers i) s.source (popsOf s i)).now i f
  rw [hb, Sim.each_congr hg (fun m l => m.modThread_alike ..) _ (s.afterPops_alike i)]
  rcases idem with nd | id
  · exact .of_nodup s i nd f
  · exact .of s i f id

end Sys2Proof.Machine
end

