-- ==== Sys2Proof/Laws/Traps.lean ====
section
/-! SUPPORT. Taking a precise trap (R360, R361), by one thread and by every performing thread of a word. -/

namespace Sys2Proof.Machine

variable {k : Bool} {s0 : State}

/-- A precise trap of a live thread outside a handler, where there is a handler and no slot to blame. -/
theorem Sim.takeTrap_handled (m : Sim k s0) (wi l : Nat) (base : Thread) (x : TrapInfo) (hc : x.cause ≤ 9)
    (h1 : (m.now.thread wi l).life = .live) (h2 : base.priv = false) (h3 : m.now.tvec wi ≠ 0)
    (h4 : m.now.ticketOf (m.now.warp wi).wg = none) :
    m.takeTrap wi l base x = m.modThread wi l (fun _ => trapEntry base m.now.ac (m.now.tvec wi) x.epc x.cause x.late x.tval) := by
  unfold Sim.takeTrap
  have e1 : ((m.now.thread wi l).life != Life.live) = false := by simp [h1]
  have e3 : decide (x.cause ≤ 0x09) = true := by simpa using hc
  have e4 : m.now.tvec wi ≠ 0 := h3
  simp only [e1, h2, e3, Bool.and_false, Bool.false_eq_true, if_false, if_neg e4, Bool.not_true, Bool.false_and,
    Bool.and_false, Sim.when_false]
  unfold Sim.blame
  have : ∀ f : Thread → Thread, ((m.modThread wi l f).now.ticketOf ((m.modThread wi l f).now.warp wi).wg) = none := by
    intro f
    have al := m.modThread_alike wi l f
    rw [al.wg, al.ticketOf, h4]
  simp only [this]

/-- Every thread of a list takes a precise trap at the word that issues. -/
theorem Sim.each_trapWord {s : State} (m : Sim k s0) (ls : List Nat) (nd : ls.Nodup) (cause : Nat) (hc : cause ≤ 9)
    (tval : Nat → Word) (va : Nat → DWord) (epc : Option DWord)
    (hcur : ∃ tr, m.now.cur = { s.cur with traps := tr }) (hac : m.now.ac = s.ac)
    (htv : m.now.tvec s.cur.warp = s.tvec s.cur.warp) (hv : s.tvec s.cur.warp ≠ 0)
    (htk : m.now.ticketOf (m.now.warp s.cur.warp).wg = none)
    (hl : ∀ l ∈ ls, (m.now.thread s.cur.warp l).life = .live ∧ (s.cur.thread l).priv = false)
    (hal : Alike { s with cur := m.now.cur } m.now) (g : Sim k s0 → Nat → Sim k s0)
    (hg : ∀ (m : Sim k s0) (l : Nat), l ∈ ls → (∃ tr, m.now.cur = { s.cur with traps := tr }) →
      Alike { s with cur := m.now.cur } m.now → g m l = m.trapWord l cause (tval l) (va l) epc) :
    let t := (m.each ls g).now
    (∃ cur, t = { m.now with warps := t.warps, cur := cur }) ∧ (∀ j, j ≠ s.cur.warp → t.warp j = m.now.warp j) ∧
    t.warp s.cur.warp = { m.now.warp s.cur.warp with threads := (t.warp s.cur.warp).threads } ∧
    (t.warp s.cur.warp).threads.length = (m.now.warp s.cur.warp).threads.length ∧
    ∀ l, t.thread s.cur.warp l = if l ∈ ls ∧ l < (m.now.warp s.cur.warp).threads.length then
      trapEntry (s.cur.thread l) s.ac (s.tvec s.cur.warp) (epc.getD s.cur.chainAddr) cause false (tval l)
      else m.now.thread s.cur.warp l := by
  induction ls generalizing m with
  | nil => exact ⟨⟨m.now.cur, rfl⟩, fun _ _ => rfl, rfl, rfl, by simp⟩
  | cons a ls ih =>
    rw [List.nodup_cons] at nd
    have hg0 := hg m a (by simp) hcur hal
    obtain ⟨tr, hcur⟩ := hcur
    let f : Thread → Thread :=
      fun _ => trapEntry (s.cur.thread a) s.ac (s.tvec s.cur.warp) (epc.getD s.cur.chainAddr) cause false (tval a)
    have e : ∃ g : Issue → Issue, (∃ tr, g { s.cur with traps := tr } = g { s.cur with traps := tr }) ∧
        (∀ tr, ∃ tr', g { s.cur with traps := tr } = { s.cur with traps := tr' }) ∧
        m.trapWord a cause (tval a) (va a) epc = (m.modThread s.cur.warp a f).modCur g := by
      unfold Sim.trapWord
      have hca : m.now.cur.warp = s.cur.warp := by rw [hcur]
      have hth : m.now.cur.thread a = s.cur.thread a := by rw [hcur]; rfl
      have hch : m.now.cur.chainAddr = s.cur.chainAddr := by rw [hcur]; rfl
      obtain ⟨l1, l2⟩ := hl a (by simp)
      simp only [hca, hth, hch]
      rw [Sim.takeTrap_handled m s.cur.warp a (s.cur.thread a) _ hc l1 l2 (by rw [htv]; exact hv) htk]
      simp only [hac, htv]
      exact ⟨_, by simp, fun tr => ⟨_, rfl⟩, rfl⟩
    obtain ⟨q, _, hq, e⟩ := e
    rw [Sim.each_cons, hg0, e]
    have al := m.modThread_alike s.cur.warp a f
    have hw : ((m.modThread s.cur.warp a f).modCur q).now.warp s.cur.warp = (m.now.warp s.cur.warp).mod a f := by
      show (m.modThread s.cur.warp a f).now.warp s.cur.warp = _
      rw [Sim.modThread_warp]; simp
    have ht : ∀ l, ((m.modThread s.cur.warp a f).modCur q).now.thread s.cur.warp l =
        if a = l ∧ l < (m.now.warp s.cur.warp).threads.length then f (m.now.thread s.cur.warp a) else m.now.thread s.cur.warp l := by
      intro l; rw [State.thread, hw, Warp.mod_thread]; rfl
    obtain ⟨h1, h2, h3, h4, h5⟩ := ih ((m.modThread s.cur.warp a f).modCur q) nd.2
      (by
        obtain ⟨tr', h⟩ := hq tr
        refine ⟨tr', ?_⟩
        show q (m.modThread s.cur.warp a f).now.cur = _
        rw [al.cur, hcur, h])
      (by show (m.modThread s.cur.warp a f).now.ac = _; rw [al.ac, hac])
      (by show (m.modThread s.cur.warp a f).now.tvec _ = _; rw [al.tvec, htv])
      (by
        show (m.modThread s.cur.warp a f).now.ticketOf ((m.modThread s.cur.warp a f).now.warp s.cur.warp).wg = _
        rw [al.wg, al.ticketOf, htk])
      (fun l hm => by
        have hn : a ≠ l := fun e => nd.1 (e ▸ hm)
        rw [ht l, if_neg (fun g => hn g.1)]
        exact hl l (by simp [hm]))
      (by
        refine ⟨?_, fun j => ?_⟩
        · show ({ (m.modThread s.cur.warp a f).now with cur := q (m.modThread s.cur.warp a f).now.cur } : State) = _
          rw [al.rest, hal.rest]
          rfl
        · show (m.modThread s.cur.warp a f).now.warp j = _
          rw [al.warp, hal.warp]
          rfl)
      (fun m l hm => hg m l (by simp [hm]))
    refine ⟨?_, fun j hj => ?_, ?_, ?_, fun l => ?_⟩
    · obtain ⟨c, h1⟩ := h1
      exact ⟨c, by rw [h1]; rfl⟩
    · rw [h2 j hj]
      show (m.modThread s.cur.warp a f).now.warp j = _
      rw [Sim.modThread_warp, if_neg (Ne.symm hj)]
    · rw [h3, hw]; rfl
    · rw [h4, hw, Warp.mod_length]
    · rw [h5 l, hw, Warp.mod_length, ht l]
      by_cases e : a = l
      · subst e
        by_cases hl : a < (m.now.warp s.cur.warp).threads.length <;> simp [hl, nd.1, f]
      · have e' : ¬ l = a := fun g => e g.symm
        simp [e, e']

/-- tcause holds the cause, LATE in bit 30 and IMPR in bit 31 (R359). -/
theorem tcauseOf_toNat (cause : Nat) (hc : cause < 256) (late : Bool) :
    (tcauseOf cause late).toNat = cause + (if late then 2 ^ 30 else 0) + (if 0x0A ≤ cause ∧ cause ≤ 0x0E then 2 ^ 31 else 0) := by
  have h : ∀ c < 256, ∀ late, (tcauseOf c late).toNat =
    c + (if late then 2 ^ 30 else 0) + (if 0x0A ≤ c ∧ c ≤ 0x0E then 2 ^ 31 else 0) := by decide +kernel
  exact h cause hc late

/-- The pops of a word leave what a trap reads. -/
theorem popsOf_handles (s : State) (i : Instr) :
    (popsOf s i).now.ac = s.ac ∧ (popsOf s i).now.tvec s.cur.warp = s.tvec s.cur.warp ∧
    (popsOf s i).now.ticketOf ((popsOf s i).now.warp s.cur.warp).wg = s.ticketOf (s.warp s.cur.warp).wg ∧
    ∀ l, ((popsOf s i).now.thread s.cur.warp l).life = (s.thread s.cur.warp l).life ∧
      ((popsOf s i).now.thread s.cur.warp l).priv = (s.thread s.cur.warp l).priv := by
  have al := popsOf_alike s i
  have p := s.afterPops_only i
  exact ⟨al.ac, al.tvec _, by rw [al.wg, al.ticketOf], fun l => by rw [popsOf_now, p.threads l]; exact ⟨rfl, rfl⟩⟩

/-- What R360 says of a thread that enters its handler. -/
theorem trapEntry_trapped (s : State) (t : Thread) (epc : DWord) (cause : Nat) (hc : cause < 256) (tval : Word) :
    Trapped s t (trapEntry t s.ac (s.tvec s.cur.warp) epc cause false tval) cause false tval epc :=
  ⟨rfl, rfl, tcauseOf_toNat _ hc _, rfl, rfl, rfl, rfl, rfl, ⟨rfl, rfl, rfl, rfl, rfl⟩⟩

/-- Every performing thread of a word takes a precise trap. -/
theorem trapWords (s : State) (i : Instr) (nd : s.cur.lanes.Nodup) (cause : Nat) (hc : cause ≤ 9) (tval : Nat → Word) {va : Nat → DWord}
    (epc : Option DWord) (hl : ∀ l ∈ s.performers i, s.handles l) (hne : s.performers i ≠ [])
    (g : Sim false s → Nat → Sim false s)
    (hg : ∀ (m : Sim false s) (l : Nat), l ∈ s.performers i → (∃ tr, m.now.cur = { s.cur with traps := tr }) →
      Alike { s with cur := m.now.cur } m.now → g m l = m.trapWord l cause (tval l) (va l) epc) :
    EachTraps s ((popsOf s i).each (s.performers i) g).now i s.cur.thread cause tval
      (epc.getD s.cur.chainAddr) := by
  obtain ⟨a1, a2, a3, a4⟩ := popsOf_handles s i
  obtain ⟨x, hx⟩ := List.exists_mem_of_ne_nil _ hne
  have hv := (hl x hx).2.2.2.1
  have htk := (hl x hx).2.2.2.2
  obtain ⟨h1, h2, h3, h4, h5⟩ := Sim.each_trapWord (s := s) (popsOf s i) (s.performers i) (nd.filter _) cause hc tval va epc
    ⟨s.cur.traps, (popsOf_alike s i).cur⟩ a1 a2 hv (a3.trans htk) (fun l hm => by rw [(a4 l).1]; exact ⟨(hl l hm).1, (hl l hm).2.1⟩)
    (by have al := popsOf_alike s i; rw [al.cur]; exact al) g hg
  have p := s.afterPops_only i
  refine ⟨?_, fun j hj => (h2 j hj).trans (p.others j hj), ?_, fun l hlen => ⟨fun hm => ?_, fun hm => ?_⟩⟩
  · obtain ⟨c, h1⟩ := h1
    refine ⟨c, ?_⟩
    have e := p.rest
    rw [← popsOf_now] at e
    rw [h1, e]
  · rw [h3, popsOf_now, p.warp]; rfl
  · rw [h5, if_pos ⟨hm, by rw [popsOf_now, State.afterPops_size]; exact hlen⟩]
    exact trapEntry_trapped s _ _ _ (by omega) _
  · rw [h5, if_neg (fun g => hm g.1)]; rfl

/-- Every performing thread of a word takes a soft trap. -/
theorem takeTrap_soft (s : State) (i : Instr) (nd : s.cur.lanes.Nodup) (cause : Nat) (hc : cause ≤ 9) (tval : Word) (epc : DWord)
    (hl : ∀ l ∈ s.performers i, s.handles l) (hne : s.performers i ≠ []) :
    EachTraps s ((popsOf s i).softTrap (s.performers i) cause tval epc).now i ((s.afterPops i).thread s.cur.warp) cause (fun _ => tval) epc := by
  have al := popsOf_alike s i
  obtain ⟨a1, a2, a3, a4⟩ := popsOf_handles s i
  obtain ⟨x, hx⟩ := List.exists_mem_of_ne_nil _ hne
  have e : (popsOf s i).softTrap (s.performers i) cause tval epc = (popsOf s i).each (s.performers i) (fun m l =>
      m.modThread s.cur.warp l (fun _ => trapEntry ((s.afterPops i).thread s.cur.warp l) s.ac (s.tvec s.cur.warp) epc cause false tval)) := by
    unfold Sim.softTrap
    simp only [al.cur]
    refine Sim.each_first (s := s.afterPops i) s.cur.warp _ (nd.filter _) _ (Alike.refl _) (fun l _ => rfl) (fun m l hm am' hth => ?_)
    have am := al.trans am'
    rw [Sim.takeTrap_handled _ _ _ _ _ hc (by rw [hth]; exact (a4 l).1.trans (hl l hm).1)
      (by rw [hth]; exact (a4 l).2.trans (hl l hm).2.2.1)
      (by rw [am.tvec]; exact (hl l hm).2.2.2.1) (by rw [am.wg, am.ticketOf]; exact (hl l hm).2.2.2.2)]
    simp only [hth, am.ac, am.tvec]
  rw [e]
  obtain ⟨h1, h2, h3, h4, h5⟩ := EachThread.of s i (fun l _ => trapEntry ((s.afterPops i).thread s.cur.warp l) s.ac (s.tvec s.cur.warp) epc cause false tval)
    (fun _ _ => rfl)
  refine ⟨⟨s.cur, ?_⟩, h2, h3, fun l hlen => ⟨fun hm => ?_, fun hm => ?_⟩⟩
  · exact h1
  · rw [h5, if_pos ⟨hm, hlen⟩]; exact trapEntry_trapped s _ _ _ (by omega) _
  · rw [h5, if_neg (fun g => hm g.1)]; rfl

end Sys2Proof.Machine
end

