-- ==== Sys2Proof/Laws/Alike.lean ====
section
/-! SUPPORT. What translation, the checks of an access and the reading of a handle depend on. -/

namespace Sys2Proof.Machine

/-- A walk reads memory, the CXL decoders and the configuration alone. -/
theorem State.walkFrom_congr {s t : State} (hm : t.mem = s.mem) (hc : t.config = s.config) (hd : t.hdm = s.hdm) (va : Nat) :
    ∀ level table, t.walkFrom va level table = s.walkFrom va level table := by
  have hr : ∀ a n, t.readNat a n = s.readNat a n := by
    intro a n; simp only [State.readNat, State.bytes, State.byte, hm]
  have hx : ∀ pa, t.isCxl pa = s.isCxl pa := by intro pa; simp only [State.isCxl, hc, hd]
  have hl : ∀ l e, t.leafBad l e = s.leafBad l e := by intro l e; simp only [State.leafBad, hc, hx]
  intro level
  induction level with
  | zero => intro table; unfold State.walkFrom; simp only [hr, hl]
  | succ n ih => intro table; unfold State.walkFrom; simp only [hr, hl, ih]

/-- What translation reads. -/
structure SameTables (s t : State) : Prop where
  mem : t.mem = s.mem
  config : t.config = s.config
  hdm : t.hdm = s.hdm
  owners : t.owners = s.owners
  tlb : t.tlb = s.tlb
  choices : t.choices = s.choices
  atc : t.atc = s.atc
  hostRefuses : t.hostRefuses = s.hostRefuses
  remoteLoaded : t.remoteLoaded = s.remoteLoaded

theorem Alike.tables {s t : State} (h : Alike s t) : SameTables s t := by
  constructor <;> rw [h.rest]

section
variable {s t : State} (h : SameTables s t)
include h
theorem SameTables.walk (owner : Tag) (va : DWord) : t.walk owner va = s.walk owner va := by
  simp only [State.walk, State.owner, h.owners, State.walkFrom_congr h.mem h.config h.hdm]
theorem SameTables.entry (owner : Tag) (va : DWord) : t.entry owner va = s.entry owner va := by
  simp only [State.entry, State.cached, State.choice, h.tlb, h.choices, h.walk]
  rfl
theorem SameTables.translate (owner : Tag) (priv : Bool) (acc : Access) (va : DWord) :
    t.translate owner priv acc va = s.translate owner priv acc va := by
  simp only [State.translate, State.loaded, State.owner, h.owners, h.entry, h.config, h.remoteLoaded, h.atc, h.hostRefuses]
theorem SameTables.translateRange (owner : Tag) (priv : Bool) (acc : Access) (va : DWord) (n : Nat) :
    t.translateRange owner priv acc va n = s.translateRange owner priv acc va n := by
  simp only [State.translateRange, h.translate]
theorem SameTables.placesOf (owner : Tag) (priv : Bool) (acc : Access) (va : DWord) (n : Nat) :
    t.placesOf owner priv acc va n = s.placesOf owner priv acc va n := by
  simp only [State.placesOf, h.translate]
theorem SameTables.placeAt (owner : Tag) (priv : Bool) (acc : Access) (va : DWord) (a i : Nat) :
    t.placeAt owner priv acc va a i = s.placeAt owner priv acc va a i := by
  simp only [State.placeAt, h.translate]
theorem SameTables.laneLocs (owner : Tag) (x : LaneOp) : t.laneLocs owner x = s.laneLocs owner x := by
  unfold State.laneLocs
  exact List.map_congr_left (fun i _ => by simp only [State.laneLoc, h.placeAt])
end

section
variable {s t : State} (h : Alike s t)
include h
theorem Alike.slotTicket (j : Nat) : t.slotTicket j = s.slotTicket j := by
  unfold State.slotTicket; rw [h.wg, h.rest]; rfl
theorem Alike.handle (j : Nat) (i : Instr) (w : Word) : t.handle j i w = s.handle j i w := by
  unfold State.handle; rw [h.slotTicket, h.ownerOf, h.rest]; rfl
theorem Alike.locate (j : Nat) (priv : Bool) (acc : Access) (sp : Nat) (x : DWord) (n : Nat) :
    t.locate j priv acc sp x n = s.locate j priv acc sp x n := by
  unfold State.locate
  have hw : ∀ g, t.wg g = s.wg g := by intro g; rw [h.rest]; rfl
  have hg : ∀ g x, t.memberOf g x = s.memberOf g x := by intro g x; rw [h.rest]; rfl
  have hl : ∀ o, t.loaded o = s.loaded o := by intro o; rw [h.rest]; rfl
  have hm : ∀ o a n, t.marketOwned o a n = s.marketOwned o a n := by intro o a n; rw [h.rest]; rfl
  have hp : ∀ l, t.launch l = s.launch l := by intro l; rw [h.rest]; rfl
  simp only [h.tables.translateRange, h.ownerOf, h.wg, hw, hg, hl, hm, h.launchIx, hp]
theorem Alike.toCharge (owner : Tag) (va : DWord) (n : Nat) : t.toCharge owner va n = s.toCharge owner va n := by
  have hc : ∀ p, t.isCharged owner p = s.isCharged owner p := by intro p; rw [h.rest]; rfl
  simp only [State.toCharge, h.tables.entry, hc]
theorem Alike.admitAccess (j : Nat) (priv : Bool) (acc : Access) (sp : Nat) (x : DWord) (n : Nat) (al at_ : Bool) :
    t.admitAccess j priv acc sp x n al at_ = s.admitAccess j priv acc sp x n al at_ := by
  have hf : ∀ o d, t.freeUnits o d = s.freeUnits o d := by intro o d; rw [h.rest]; rfl
  have hu : ∀ o ps, t.unitsCover o ps = s.unitsCover o ps := by intro o ps; simp only [State.unitsCover, hf]
  have hw : ∀ o ps, t.unitsWait o ps = s.unitsWait o ps := by intro o ps; simp only [State.unitsWait, State.noUnit, hf]
  have hm : ∀ o, t.moving o x n = s.moving o x n := by intro o; simp only [State.moving, h.ops, h.ownerOf]
  simp only [State.admitAccess, h.locate, h.toCharge, h.ownerOf, hm, hu, hw]
theorem Alike.pageAnswer (owner : Tag) (priv : Bool) (p : PageOp) (x : DWord) (n die : Nat) :
    t.pageAnswer owner priv p x n die = s.pageAnswer owner priv p x n die := by
  have hc : ∀ p, t.isCharged owner p = s.isCharged owner p := by intro p; rw [h.rest]; rfl
  have hf : ∀ d, t.freeUnits owner d = s.freeUnits owner d := by intro d; rw [h.rest]; rfl
  simp only [State.pageAnswer, h.tables.translate, hc, hf]
end

/-- A loop whose body does nothing at the elements of its list. -/
theorem Sim.each_id {k : Bool} {s0 : State} {α : Type} (m : Sim k s0) (ls : List α) (g : Sim k s0 → α → Sim k s0)
    (h : ∀ m, ∀ l ∈ ls, g m l = m) : m.each ls g = m := by
  induction ls generalizing m with
  | nil => rfl
  | cons x xs ih => rw [Sim.each_cons, h m x (by simp)]; exact ih m (fun m l hl => h m l (by simp [hl]))

end Sys2Proof.Machine
end

