-- ==== Sys2Proof/Laws/Exec.lean ====
section
/-! SUPPORT. exec of each constructor is its meaning. -/

namespace Sys2Proof.Machine

variable (s : State)

theorem exec_nop (c : Bool) : exec (.nop c) s = execNop c s := rfl
theorem exec_sget (c : Bool) (d a : Reg) : exec (.sget c d a) s = execSget c d a s := rfl
theorem exec_sset (c : Bool) (d a : Reg) : exec (.sset c d a) s = execSset c d a s := rfl
theorem exec_fwait (c : Bool) (mask : BitVec 12) : exec (.fwait c mask) s = execFwait c mask s := rfl
theorem exec_yield (c : Bool) : exec (.yield c) s = execYield c s := rfl
theorem exec_brk (c : Bool) (k : BitVec 7) : exec (.brk c k) s = execBrk c k s := rfl
theorem exec_trap (c : Bool) (k : BitVec 7) : exec (.trap c k) s = execTrap c k s := rfl
theorem exec_add (c : Bool) (d a b : Reg) : exec (.add c d a b) s = execAdd c d a b s := rfl
theorem exec_sub (c : Bool) (d a b : Reg) : exec (.sub c d a b) s = execSub c d a b s := rfl
theorem exec_and (c : Bool) (d a b : Reg) : exec (.and c d a b) s = execAnd c d a b s := rfl
theorem exec_or (c : Bool) (d a b : Reg) : exec (.or c d a b) s = execOr c d a b s := rfl
theorem exec_xor (c : Bool) (d a b : Reg) : exec (.xor c d a b) s = execXor c d a b s := rfl
theorem exec_andn (c : Bool) (d a b : Reg) : exec (.andn c d a b) s = execAndn c d a b s := rfl
theorem exec_shl (c : Bool) (d a b : Reg) : exec (.shl c d a b) s = execShl c d a b s := rfl
theorem exec_shr (c : Bool) (d a b : Reg) : exec (.shr c d a b) s = execShr c d a b s := rfl
theorem exec_sra (c : Bool) (d a b : Reg) : exec (.sra c d a b) s = execSra c d a b s := rfl
theorem exec_rotl (c : Bool) (d a b : Reg) : exec (.rotl c d a b) s = execRotl c d a b s := rfl
theorem exec_min (c : Bool) (d a b : Reg) : exec (.min c d a b) s = execMin c d a b s := rfl
theorem exec_max (c : Bool) (d a b : Reg) : exec (.max c d a b) s = execMax c d a b s := rfl
theorem exec_minu (c : Bool) (d a b : Reg) : exec (.minu c d a b) s = execMinu c d a b s := rfl
theorem exec_maxu (c : Bool) (d a b : Reg) : exec (.maxu c d a b) s = execMaxu c d a b s := rfl
theorem exec_abs (c : Bool) (d a : Reg) : exec (.abs c d a) s = execAbs c d a s := rfl
theorem exec_clz (c : Bool) (d a : Reg) : exec (.clz c d a) s = execClz c d a s := rfl
theorem exec_popc (c : Bool) (d a : Reg) : exec (.popc c d a) s = execPopc c d a s := rfl
theorem exec_brev (c : Bool) (d a : Reg) : exec (.brev c d a) s = execBrev c d a s := rfl
theorem exec_bfe (c : Bool) (d a b : Reg) : exec (.bfe c d a b) s = execBfe c d a b s := rfl
theorem exec_bfx (c : Bool) (d a b : Reg) : exec (.bfx c d a b) s = execBfx c d a b s := rfl
theorem exec_bfi (c : Bool) (d a b : Reg) : exec (.bfi c d a b) s = execBfi c d a b s := rfl
theorem exec_prmb (c : Bool) (d a b : Reg) : exec (.prmb c d a b) s = execPrmb c d a b s := rfl
theorem exec_addi (c : Bool) (d a : Reg) (imm : BitVec 9) : exec (.addi c d a imm) s = execAddi c d a imm s := rfl
theorem exec_andi (c : Bool) (d a : Reg) (imm : BitVec 9) : exec (.andi c d a imm) s = execAndi c d a imm s := rfl
theorem exec_ori (c : Bool) (d a : Reg) (imm : BitVec 9) : exec (.ori c d a imm) s = execOri c d a imm s := rfl
theorem exec_xori (c : Bool) (d a : Reg) (imm : BitVec 9) : exec (.xori c d a imm) s = execXori c d a imm s := rfl
theorem exec_shli (c : Bool) (d a : Reg) (cnt : BitVec 5) : exec (.shli c d a cnt) s = execShli c d a cnt s := rfl
theorem exec_shri (c : Bool) (d a : Reg) (cnt : BitVec 5) : exec (.shri c d a cnt) s = execShri c d a cnt s := rfl
theorem exec_srai (c : Bool) (d a : Reg) (cnt : BitVec 5) : exec (.srai c d a cnt) s = execSrai c d a cnt s := rfl
theorem exec_mul (c : Bool) (d a b : Reg) : exec (.mul c d a b) s = execMul c d a b s := rfl
theorem exec_mulhi (c : Bool) (d a b : Reg) : exec (.mulhi c d a b) s = execMulhi c d a b s := rfl
theorem exec_mulhiu (c : Bool) (d a b : Reg) : exec (.mulhiu c d a b) s = execMulhiu c d a b s := rfl
theorem exec_mad (c : Bool) (d a b : Reg) : exec (.mad c d a b) s = execMad c d a b s := rfl
theorem exec_divu (c : Bool) (d a b : Reg) : exec (.divu c d a b) s = execDivu c d a b s := rfl
theorem exec_remu (c : Bool) (d a b : Reg) : exec (.remu c d a b) s = execRemu c d a b s := rfl
theorem exec_lil (c : Bool) (d : Reg) (imm : BitVec 17) : exec (.lil c d imm) s = execLil c d imm s := rfl
theorem exec_lih (c : Bool) (d : Reg) (imm : BitVec 17) : exec (.lih c d imm) s = execLih c d imm s := rfl
theorem exec_adpc (c : Bool) (d : Reg) (imm : BitVec 17) : exec (.adpc c d imm) s = execAdpc c d imm s := rfl
theorem exec_fadd (c : Bool) (r : BitVec 2) (d a b : Reg) : exec (.fadd c r d a b) s = execFadd c r d a b s := rfl
theorem exec_fsub (c : Bool) (r : BitVec 2) (d a b : Reg) : exec (.fsub c r d a b) s = execFsub c r d a b s := rfl
theorem exec_fmul (c : Bool) (r : BitVec 2) (d a b : Reg) : exec (.fmul c r d a b) s = execFmul c r d a b s := rfl
theorem exec_hadd2 (c : Bool) (r : BitVec 2) (d a b : Reg) : exec (.hadd2 c r d a b) s = execHadd2 c r d a b s := rfl
theorem exec_hmul2 (c : Bool) (r : BitVec 2) (d a b : Reg) : exec (.hmul2 c r d a b) s = execHmul2 c r d a b s := rfl
theorem exec_badd2 (c : Bool) (r : BitVec 2) (d a b : Reg) : exec (.badd2 c r d a b) s = execBadd2 c r d a b s := rfl
theorem exec_bmul2 (c : Bool) (r : BitVec 2) (d a b : Reg) : exec (.bmul2 c r d a b) s = execBmul2 c r d a b s := rfl
theorem exec_fmin (c : Bool) (d a b : Reg) : exec (.fmin c d a b) s = execFmin c d a b s := rfl
theorem exec_fmax (c : Bool) (d a b : Reg) : exec (.fmax c d a b) s = execFmax c d a b s := rfl
theorem exec_fneg (c : Bool) (d a : Reg) : exec (.fneg c d a) s = execFneg c d a s := rfl
theorem exec_fabs (c : Bool) (d a : Reg) : exec (.fabs c d a) s = execFabs c d a s := rfl
theorem exec_ffma (c : Bool) (r : BitVec 2) (d a b : Reg) : exec (.ffma c r d a b) s = execFfma c r d a b s := rfl
theorem exec_ffms (c : Bool) (r : BitVec 2) (d a b : Reg) : exec (.ffms c r d a b) s = execFfms c r d a b s := rfl
theorem exec_hfma2 (c : Bool) (r : BitVec 2) (d a b : Reg) : exec (.hfma2 c r d a b) s = execHfma2 c r d a b s := rfl
theorem exec_bfma2 (c : Bool) (r : BitVec 2) (d a b : Reg) : exec (.bfma2 c r d a b) s = execBfma2 c r d a b s := rfl
theorem exec_hdot2 (c : Bool) (r : BitVec 2) (d a b : Reg) : exec (.hdot2 c r d a b) s = execHdot2 c r d a b s := rfl
theorem exec_cvtF32ToNarrow (c : Bool) (f : BitVec 2) (d a : Reg) (r : BitVec 3) (sat : Bool) : 
    exec (.cvtF32ToNarrow c f d a r sat) s = execCvtF32ToNarrow c f d a r sat s := rfl
theorem exec_cvtNarrowToF32 (c : Bool) (f : BitVec 2) (d a : Reg) : 
    exec (.cvtNarrowToF32 c f d a) s = execCvtNarrowToF32 c f d a s := rfl
theorem exec_cvtF32ToInt (c : Bool) (uns : Bool) (d a : Reg) (r : BitVec 3) (sat : Bool) : 
    exec (.cvtF32ToInt c uns d a r sat) s = execCvtF32ToInt c uns d a r sat s := rfl
theorem exec_cvtIntToF32 (c : Bool) (uns : Bool) (d a : Reg) (r : BitVec 3) : 
    exec (.cvtIntToF32 c uns d a r) s = execCvtIntToF32 c uns d a r s := rfl
theorem exec_cvtF16Bf16 (c : Bool) (f : Bool) (d a : Reg) (r : BitVec 3) (sat : Bool) : 
    exec (.cvtF16Bf16 c f d a r sat) s = execCvtF16Bf16 c f d a r sat s := rfl
theorem exec_cvtF16ToFp8 (c : Bool) (f : Bool) (d a : Reg) (r : BitVec 3) (sat : Bool) : 
    exec (.cvtF16ToFp8 c f d a r sat) s = execCvtF16ToFp8 c f d a r sat s := rfl
theorem exec_frnd (c : Bool) (d a : Reg) (r : BitVec 3) : exec (.frnd c d a r) s = execFrnd c d a r s := rfl
theorem exec_pack2F16 (c : Bool) (d a : Reg) (r : BitVec 3) (sat : Bool) : 
    exec (.pack2F16 c d a r sat) s = execPack2F16 c d a r sat s := rfl
theorem exec_pack2Bf16 (c : Bool) (d a : Reg) (r : BitVec 3) (sat : Bool) : 
    exec (.pack2Bf16 c d a r sat) s = execPack2Bf16 c d a r sat s := rfl
theorem exec_exp2 (c : Bool) (d a : Reg) : exec (.exp2 c d a) s = execExp2 c d a s := rfl
theorem exec_log2 (c : Bool) (d a : Reg) : exec (.log2 c d a) s = execLog2 c d a s := rfl
theorem exec_rcp (c : Bool) (d a : Reg) : exec (.rcp c d a) s = execRcp c d a s := rfl
theorem exec_rsq (c : Bool) (d a : Reg) : exec (.rsq c d a) s = execRsq c d a s := rfl
theorem exec_sqrt (c : Bool) (d a : Reg) : exec (.sqrt c d a) s = execSqrt c d a s := rfl
theorem exec_sin (c : Bool) (d a : Reg) : exec (.sin c d a) s = execSin c d a s := rfl
theorem exec_cos (c : Bool) (d a : Reg) : exec (.cos c d a) s = execCos c d a s := rfl
theorem exec_tanh (c : Bool) (d a : Reg) : exec (.tanh c d a) s = execTanh c d a s := rfl
theorem exec_icmp (c : Bool) (cond : BitVec 3) (p : BitVec 3) (a b : Reg) : 
    exec (.icmp c cond p a b) s = execIcmp c cond p a b s := rfl
theorem exec_icmpu (c : Bool) (cond : BitVec 3) (p : BitVec 3) (a b : Reg) : 
    exec (.icmpu c cond p a b) s = execIcmpu c cond p a b s := rfl
theorem exec_fcmp (c : Bool) (cond : BitVec 3) (p : BitVec 3) (a b : Reg) : 
    exec (.fcmp c cond p a b) s = execFcmp c cond p a b s := rfl
theorem exec_fclass (c : Bool) (p : BitVec 3) (a b : Reg) : exec (.fclass c p a b) s = execFclass c p a b s := rfl
theorem exec_plop (c : Bool) (p : BitVec 3) (tt : BitVec 4) (pa pb : BitVec 3) : 
    exec (.plop c p tt pa pb) s = execPlop c p tt pa pb s := rfl
theorem exec_sel (c : Bool) (n : BitVec 3) (d a b : Reg) : exec (.sel c n d a b) s = execSel c n d a b s := rfl
theorem exec_mov (c : Bool) (d b : Reg) : exec (.mov c d b) s = execMov c d b s := rfl
theorem exec_movp (c : Bool) (d b : Reg) : exec (.movp c d b) s = execMovp c d b s := rfl
theorem exec_pmov (c : Bool) (p : BitVec 3) (a : Reg) : exec (.pmov c p a) s = execPmov c p a s := rfl
theorem exec_br (c : Bool) (g : Guard) (disp : BitVec 19) : exec (.br c g disp) s = execBr c g disp s := rfl
theorem exec_call (c : Bool) (g : Guard) (disp : BitVec 19) : exec (.call c g disp) s = execCall c g disp s := rfl
theorem exec_brx (c : Bool) (g : Guard) (a : Reg) : exec (.brx c g a) s = execBrx c g a s := rfl
theorem exec_callx (c : Bool) (g : Guard) (a : Reg) : exec (.callx c g a) s = execCallx c g a s := rfl
theorem exec_ret (c : Bool) (g : Guard) : exec (.ret c g) s = execRet c g s := rfl
theorem exec_exit (c : Bool) (g : Guard) : exec (.exit c g) s = execExit c g s := rfl
theorem exec_meet (c : Bool) (g : Guard) (disp : BitVec 19) : exec (.meet c g disp) s = execMeet c g disp s := rfl
theorem exec_unmeet (c : Bool) (g : Guard) (disp : BitVec 19) : exec (.unmeet c g disp) s = execUnmeet c g disp s := rfl
theorem exec_voteAnd (c : Bool) (p pa : BitVec 3) (m : Reg) : exec (.voteAnd c p pa m) s = execVoteAnd c p pa m s := rfl
theorem exec_voteOr (c : Bool) (p pa : BitVec 3) (m : Reg) : exec (.voteOr c p pa m) s = execVoteOr c p pa m s := rfl
theorem exec_voteSame (c : Bool) (p pa : BitVec 3) (m : Reg) : exec (.voteSame c p pa m) s = execVoteSame c p pa m s := rfl
theorem exec_ballot (c : Bool) (d : Reg) (pa : BitVec 3) (m : Reg) : exec (.ballot c d pa m) s = execBallot c d pa m s := rfl
theorem exec_shflLane (c : Bool) (d a m : Reg) : exec (.shflLane c d a m) s = execShflLane c d a m s := rfl
theorem exec_shflRot (c : Bool) (d a m : Reg) : exec (.shflRot c d a m) s = execShflRot c d a m s := rfl
theorem exec_shflOff (c : Bool) (d a m : Reg) : exec (.shflOff c d a m) s = execShflOff c d a m s := rfl
theorem exec_shflSwap (c : Bool) (d a m : Reg) : exec (.shflSwap c d a m) s = execShflSwap c d a m s := rfl
theorem exec_gredAdd (c : Bool) (d a m : Reg) : exec (.gredAdd c d a m) s = execGredAdd c d a m s := rfl
theorem exec_gredMin (c : Bool) (d a m : Reg) : exec (.gredMin c d a m) s = execGredMin c d a m s := rfl
theorem exec_gredMax (c : Bool) (d a m : Reg) : exec (.gredMax c d a m) s = execGredMax c d a m s := rfl
theorem exec_gredArgmin (c : Bool) (d a m : Reg) : exec (.gredArgmin c d a m) s = execGredArgmin c d a m s := rfl
theorem exec_gredArgmax (c : Bool) (d a m : Reg) : exec (.gredArgmax c d a m) s = execGredArgmax c d a m s := rfl
theorem exec_gscan (c : Bool) (d a m : Reg) : exec (.gscan c d a m) s = execGscan c d a m s := rfl
theorem exec_matchEq (c : Bool) (d a m : Reg) : exec (.matchEq c d a m) s = execMatchEq c d a m s := rfl
theorem exec_elect (c : Bool) (p : BitVec 3) (m : Reg) : exec (.elect c p m) s = execElect c p m s := rfl
theorem exec_regq (c : Bool) (d a m : Reg) : exec (.regq c d a m) s = execRegq c d a m s := rfl
theorem exec_prio (c : Bool) (d a m : Reg) : exec (.prio c d a m) s = execPrio c d a m s := rfl
theorem exec_ld (c : Bool) (g : Guard) (fs : Bool) (fn : BitVec 4) (t a : Reg) : 
    exec (.ld c g fs fn t a) s = execLd c g fs fn t a s := rfl
theorem exec_ldl (c : Bool) (g : Guard) (fs : Bool) (fn : BitVec 4) (t a : Reg) : 
    exec (.ldl c g fs fn t a) s = execLdl c g fs fn t a s := rfl
theorem exec_ldlGang (c : Bool) (g : Guard) (fs : Bool) (fn : BitVec 4) (t a : Reg) : 
    exec (.ldlGang c g fs fn t a) s = execLdlGang c g fs fn t a s := rfl
theorem exec_ldm (c : Bool) (g : Guard) (fs : Bool) (fn : BitVec 4) (t a : Reg) : 
    exec (.ldm c g fs fn t a) s = execLdm c g fs fn t a s := rfl
theorem exec_ldc (c : Bool) (g : Guard) (fs : Bool) (fn : BitVec 4) (t a : Reg) : 
    exec (.ldc c g fs fn t a) s = execLdc c g fs fn t a s := rfl
theorem exec_st (c : Bool) (g : Guard) (fs : Bool) (fn : BitVec 4) (t a : Reg) : 
    exec (.st c g fs fn t a) s = execSt c g fs fn t a s := rfl
theorem exec_stl (c : Bool) (g : Guard) (fs : Bool) (fn : BitVec 4) (t a : Reg) : 
    exec (.stl c g fs fn t a) s = execStl c g fs fn t a s := rfl
theorem exec_stlGang (c : Bool) (g : Guard) (fs : Bool) (fn : BitVec 4) (t a : Reg) : 
    exec (.stlGang c g fs fn t a) s = execStlGang c g fs fn t a s := rfl
theorem exec_stm (c : Bool) (g : Guard) (fs : Bool) (fn : BitVec 4) (t a : Reg) : 
    exec (.stm c g fs fn t a) s = execStm c g fs fn t a s := rfl
theorem exec_atom (c : Bool) (g : Guard) (fs : Bool) (fn : BitVec 4) (t a : Reg) : 
    exec (.atom c g fs fn t a) s = execAtom c g fs fn t a s := rfl
theorem exec_atoml (c : Bool) (g : Guard) (fs : Bool) (fn : BitVec 4) (t a : Reg) : 
    exec (.atoml c g fs fn t a) s = execAtoml c g fs fn t a s := rfl
theorem exec_atomGang (c : Bool) (g : Guard) (fs : Bool) (fn : BitVec 4) (t a : Reg) : 
    exec (.atomGang c g fs fn t a) s = execAtomGang c g fs fn t a s := rfl
theorem exec_atomMkt (c : Bool) (g : Guard) (fs : Bool) (fn : BitVec 4) (t a : Reg) : 
    exec (.atomMkt c g fs fn t a) s = execAtomMkt c g fs fn t a s := rfl
theorem exec_cas (c : Bool) (g : Guard) (fs : Bool) (sp : BitVec 3) (t a : Reg) : 
    exec (.cas c g fs sp t a) s = execCas c g fs sp t a s := rfl
theorem exec_casB64 (c : Bool) (g : Guard) (fs : Bool) (sp : BitVec 3) (t a : Reg) : 
    exec (.casB64 c g fs sp t a) s = execCasB64 c g fs sp t a s := rfl
theorem exec_madd (c : Bool) (g : Guard) (fs : Bool) (t a : Reg) : exec (.madd c g fs t a) s = execMadd c g fs t a s := rfl
theorem exec_mamax (c : Bool) (g : Guard) (fs : Bool) (t a : Reg) : exec (.mamax c g fs t a) s = execMamax c g fs t a s := rfl
theorem exec_mred (c : Bool) (g : Guard) (fs : Bool) (t a : Reg) : exec (.mred c g fs t a) s = execMred c g fs t a s := rfl
theorem exec_mscale (c : Bool) (g : Guard) (fs : Bool) (t a : Reg) : 
    exec (.mscale c g fs t a) s = execMscale c g fs t a s := rfl
theorem exec_bar (c : Bool) (g : Guard) (k : BitVec 2) : exec (.bar c g k) s = execBar c g k s := rfl
theorem exec_gbar (c : Bool) (g : Guard) (k : BitVec 2) : exec (.gbar c g k) s = execGbar c g k s := rfl
theorem exec_fenceAcq (c : Bool) (g : Guard) (scope : BitVec 3) : exec (.fenceAcq c g scope) s = execFenceAcq c g scope s := rfl
theorem exec_fenceRel (c : Bool) (g : Guard) (scope : BitVec 3) : exec (.fenceRel c g scope) s = execFenceRel c g scope s := rfl
theorem exec_fenceAr (c : Bool) (g : Guard) (scope : BitVec 3) : exec (.fenceAr c g scope) s = execFenceAr c g scope s := rfl
theorem exec_feset (c : Bool) (g : Guard) (fs : Bool) (n : BitVec 7) (a : Reg) (gang : Bool) : 
    exec (.feset c g fs n a gang) s = execFeset c g fs n a gang s := rfl
theorem exec_feclr (c : Bool) (g : Guard) (fs : Bool) (n : BitVec 7) (a : Reg) (gang : Bool) : 
    exec (.feclr c g fs n a gang) s = execFeclr c g fs n a gang s := rfl
theorem exec_fepoll (c : Bool) (g : Guard) (fs : Bool) (d a : Reg) (gang : Bool) : 
    exec (.fepoll c g fs d a gang) s = execFepoll c g fs d a gang s := rfl
theorem exec_tryOpen (c : Bool) (g : Guard) (cnt : BitVec 5) (m : BitVec 4) (n : Reg) : 
    exec (.tryOpen c g cnt m n) s = execTryOpen c g cnt m n s := rfl
theorem exec_commit (c : Bool) (g : Guard) (scope : BitVec 3) : exec (.commit c g scope) s = execCommit c g scope s := rfl
theorem exec_tabort (c : Bool) (g : Guard) (k : BitVec 8) : exec (.tabort c g k) s = execTabort c g k s := rfl
theorem exec_tstat (c : Bool) (g : Guard) (d : Reg) : exec (.tstat c g d) s = execTstat c g d s := rfl
theorem exec_qbind (c : Bool) (g : Guard) (d a : Reg) : exec (.qbind c g d a) s = execQbind c g d a s := rfl
theorem exec_qstat (c : Bool) (g : Guard) (d a : Reg) : exec (.qstat c g d a) s = execQstat c g d a s := rfl
theorem exec_qflush (c : Bool) (g : Guard) (fs : Bool) (d a : Reg) (unbind : Bool) : 
    exec (.qflush c g fs d a unbind) s = execQflush c g fs d a unbind s := rfl
theorem exec_launch (c : Bool) (g : Guard) (fs : Bool) (d a : Reg) : 
    exec (.launch c g fs d a) s = execLaunch c g fs d a s := rfl
theorem exec_gsignal (c : Bool) (g : Guard) (fs : Bool) (d a : Reg) : 
    exec (.gsignal c g fs d a) s = execGsignal c g fs d a s := rfl
theorem exec_mma (c : Bool) (g : Guard) (fs : Bool) (m a : Reg) : exec (.mma c g fs m a) s = execMma c g fs m a s := rfl
theorem exec_mdrainL (c : Bool) (g : Guard) (fs : Bool) (a : Reg) : exec (.mdrainL c g fs a) s = execMdrainL c g fs a s := rfl
theorem exec_mdrainR (c : Bool) (g : Guard) (fs : Bool) (d a : Reg) : 
    exec (.mdrainR c g fs d a) s = execMdrainR c g fs d a s := rfl
theorem exec_mzero (c : Bool) (g : Guard) (fs : Bool) (a : Reg) : exec (.mzero c g fs a) s = execMzero c g fs a s := rfl
theorem exec_tap (c : Bool) (g : Guard) (fs : Bool) (d a : Reg) : exec (.tap c g fs d a) s = execTap c g fs d a s := rfl
theorem exec_fget (c : Bool) (g : Guard) (fs : Bool) (d a : Reg) : exec (.fget c g fs d a) s = execFget c g fs d a s := rfl
theorem exec_frd (c : Bool) (g : Guard) (fs : Bool) (d a : Reg) : exec (.frd c g fs d a) s = execFrd c g fs d a s := rfl
theorem exec_fwr (c : Bool) (g : Guard) (fs : Bool) (d a : Reg) : exec (.fwr c g fs d a) s = execFwr c g fs d a s := rfl
theorem exec_frel (c : Bool) (g : Guard) (fs : Bool) (d a : Reg) : exec (.frel c g fs d a) s = execFrel c g fs d a s := rfl
theorem exec_fdec (c : Bool) (g : Guard) (fs : Bool) (d a : Reg) : exec (.fdec c g fs d a) s = execFdec c g fs d a s := rfl
theorem exec_tkrd (c : Bool) (g : Guard) (fs : Bool) (d a : Reg) : exec (.tkrd c g fs d a) s = execTkrd c g fs d a s := rfl
theorem exec_tkwr (c : Bool) (g : Guard) (fs : Bool) (d a : Reg) : exec (.tkwr c g fs d a) s = execTkwr c g fs d a s := rfl
theorem exec_tkappend (c : Bool) (g : Guard) (fs : Bool) (d a : Reg) : 
    exec (.tkappend c g fs d a) s = execTkappend c g fs d a s := rfl
theorem exec_tktrunc (c : Bool) (g : Guard) (fs : Bool) (d a : Reg) : 
    exec (.tktrunc c g fs d a) s = execTktrunc c g fs d a s := rfl
theorem exec_tkret (c : Bool) (g : Guard) (fs : Bool) (d a : Reg) : exec (.tkret c g fs d a) s = execTkret c g fs d a s := rfl
theorem exec_tkfork (c : Bool) (g : Guard) (fs : Bool) (d a : Reg) : 
    exec (.tkfork c g fs d a) s = execTkfork c g fs d a s := rfl
theorem exec_kvmap (c : Bool) (g : Guard) (fs : Bool) (d a : Reg) : exec (.kvmap c g fs d a) s = execKvmap c g fs d a s := rfl
theorem exec_rot (c : Bool) (g : Guard) (fs : Bool) (d a : Reg) : exec (.rot c g fs d a) s = execRot c g fs d a s := rfl
theorem exec_pres (c : Bool) (g : Guard) (fs : Bool) (d a : Reg) : exec (.pres c g fs d a) s = execPres c g fs d a s := rfl
theorem exec_prel (c : Bool) (g : Guard) (fs : Bool) (d a : Reg) : exec (.prel c g fs d a) s = execPrel c g fs d a s := rfl
theorem exec_pdisc (c : Bool) (g : Guard) (fs : Bool) (d a : Reg) : exec (.pdisc c g fs d a) s = execPdisc c g fs d a s := rfl
theorem exec_pflush (c : Bool) (g : Guard) (fs : Bool) (d a : Reg) (inv : Bool) : 
    exec (.pflush c g fs d a inv) s = execPflush c g fs d a inv s := rfl
theorem exec_pmig (c : Bool) (g : Guard) (fs : Bool) (d a : Reg) : exec (.pmig c g fs d a) s = execPmig c g fs d a s := rfl
theorem exec_rfe (c : Bool) (g : Guard) : exec (.rfe c g) s = execRfe c g s := rfl
theorem exec_killW (c : Bool) (g : Guard) (a : Reg) : exec (.killW c g a) s = execKillW c g a s := rfl
theorem exec_killG (c : Bool) (g : Guard) : exec (.killG c g) s = execKillG c g s := rfl
theorem exec_killL (c : Bool) (g : Guard) : exec (.killL c g) s = execKillL c g s := rfl
theorem exec_tlbinv (c : Bool) (g : Guard) (fs : Bool) (d a : Reg) : 
    exec (.tlbinv c g fs d a) s = execTlbinv c g fs d a s := rfl
theorem exec_tlbinvOwn (c : Bool) (g : Guard) (fs : Bool) : exec (.tlbinvOwn c g fs) s = execTlbinvOwn c g fs s := rfl
theorem exec_tlbinvAll (c : Bool) (g : Guard) (fs : Bool) : exec (.tlbinvAll c g fs) s = execTlbinvAll c g fs s := rfl
theorem exec_icinv (c : Bool) (g : Guard) (fs : Bool) (d a : Reg) : exec (.icinv c g fs d a) s = execIcinv c g fs d a s := rfl
theorem exec_icinvAll (c : Bool) (g : Guard) (fs : Bool) : exec (.icinvAll c g fs) s = execIcinvAll c g fs s := rfl
theorem exec_cntsel (c : Bool) (g : Guard) (d a : Reg) : exec (.cntsel c g d a) s = execCntsel c g d a s := rfl
theorem exec_cntselRd (c : Bool) (g : Guard) (d a : Reg) : exec (.cntselRd c g d a) s = execCntselRd c g d a s := rfl
theorem exec_cntselSmp (c : Bool) (g : Guard) (d a : Reg) : exec (.cntselSmp c g d a) s = execCntselSmp c g d a s := rfl
theorem exec_cntselRot (c : Bool) (g : Guard) (d a : Reg) : exec (.cntselRot c g d a) s = execCntselRot c g d a s := rfl
theorem exec_qblk (c : Bool) (g : Guard) (d a : Reg) (x : BitVec 2) : exec (.qblk c g d a x) s = execQblk c g d a x s := rfl
theorem exec_dqblk (c : Bool) (g : Guard) (d a : Reg) (x : BitVec 2) : exec (.dqblk c g d a x) s = execDqblk c g d a x s := rfl
theorem exec_qfp8 (c : Bool) (g : Guard) (d a : Reg) (x : BitVec 2) : exec (.qfp8 c g d a x) s = execQfp8 c g d a x s := rfl
theorem exec_add64 (c : Bool) (d a b : Reg) : exec (.add64 c d a b) s = execAdd64 c d a b s := rfl
theorem exec_sub64 (c : Bool) (d a b : Reg) : exec (.sub64 c d a b) s = execSub64 c d a b s := rfl
theorem exec_shl64 (c : Bool) (d a b : Reg) : exec (.shl64 c d a b) s = execShl64 c d a b s := rfl
theorem exec_shr64 (c : Bool) (d a b : Reg) : exec (.shr64 c d a b) s = execShr64 c d a b s := rfl
theorem exec_madw (c : Bool) (d a b : Reg) : exec (.madw c d a b) s = execMadw c d a b s := rfl
theorem exec_sext64 (c : Bool) (d a : Reg) : exec (.sext64 c d a) s = execSext64 c d a s := rfl
theorem exec_dsel (c : Bool) (g : Guard) (fs : Bool) (d a : Reg) : exec (.dsel c g fs d a) s = execDsel c g fs d a s := rfl
theorem exec_rng (c : Bool) (g : Guard) (fs : Bool) (d a : Reg) : exec (.rng c g fs d a) s = execRng c g fs d a s := rfl
theorem exec_rngk (c : Bool) (g : Guard) (d a : Reg) : exec (.rngk c g d a) s = execRngk c g d a s := rfl
theorem exec_schedulerIssue (sched : Nat) : exec (.schedulerIssue sched) s = execSchedulerIssue sched s := rfl
theorem exec_longLatencyComplete (op : Nat) : exec (.longLatencyComplete op) s = execLongLatencyComplete op s := rfl
theorem exec_collectivePerform (warp : Nat) : exec (.collectivePerform warp) s = execCollectivePerform warp s := rfl
theorem exec_barrierComplete (wg : Nat) (gang : Bool) (k : BitVec 2) : 
    exec (.barrierComplete wg gang k) s = execBarrierComplete wg gang k s := rfl
theorem exec_feWaitPerform (op : Nat) : exec (.feWaitPerform op) s = execFeWaitPerform op s := rfl
theorem exec_rdupInvalidateAck (op : Nat) : exec (.rdupInvalidateAck op) s = execRdupInvalidateAck op s := rfl
theorem exec_mmpFaultService (owner : Tag) (va : DWord) (ans : MmpAnswer) : 
    exec (.mmpFaultService owner va ans) s = execMmpFaultService owner va ans s := rfl
theorem exec_lateFrame (owner : Tag) (va : DWord) (frame : Option Nat) : 
    exec (.lateFrame owner va frame) s = execLateFrame owner va frame s := rfl
theorem exec_priResponse (owner : Tag) (va : DWord) (granted : Bool) : 
    exec (.priResponse owner va granted) s = execPriResponse owner va granted s := rfl
theorem exec_atsInvalidation (iova : DWord) (pages : Nat) : 
    exec (.atsInvalidation iova pages) s = execAtsInvalidation iova pages s := rfl
theorem exec_engineRecallRelease (op : Nat) : exec (.engineRecallRelease op) s = execEngineRecallRelease op s := rfl
theorem exec_tryRollback (warp lane : Nat) : exec (.tryRollback warp lane) s = execTryRollback warp lane s := rfl
theorem exec_commandReceive (warp : Nat) (q : BitVec 4) : exec (.commandReceive warp q) s = execCommandReceive warp q s := rfl
theorem exec_resultPost (cmd : Nat) : exec (.resultPost cmd) s = execResultPost cmd s := rfl
theorem exec_peerDeliver (warp : Nat) (q : BitVec 4) : exec (.peerDeliver warp q) s = execPeerDeliver warp q s := rfl
theorem exec_awningRefill (warp : Nat) (q : BitVec 4) : exec (.awningRefill warp q) s = execAwningRefill warp q s := rfl
theorem exec_copy (cmd : Nat) : exec (.copy cmd) s = execCopy cmd s := rfl
theorem exec_copyZero (cmd : Nat) : exec (.copyZero cmd) s = execCopyZero cmd s := rfl
theorem exec_allreduce (cmd : Nat) (peers : List PeerPart) : exec (.allreduce cmd peers) s = execAllreduce cmd peers s := rfl
theorem exec_broadcast (cmd : Nat) (peers : List PeerPart) : exec (.broadcast cmd peers) s = execBroadcast cmd peers s := rfl
theorem exec_allgather (cmd : Nat) (peers : List PeerPart) : exec (.allgather cmd peers) s = execAllgather cmd peers s := rfl
theorem exec_reducescatter (cmd : Nat) (peers : List PeerPart) : 
    exec (.reducescatter cmd peers) s = execReducescatter cmd peers s := rfl
theorem exec_fabricBarrier (cmd : Nat) (peers : List PeerPart) : 
    exec (.fabricBarrier cmd peers) s = execFabricBarrier cmd peers s := rfl
theorem exec_matrixMma (cmd : Nat) : exec (.matrixMma cmd) s = execMatrixMma cmd s := rfl
theorem exec_matrixDrain (cmd : Nat) : exec (.matrixDrain cmd) s = execMatrixDrain cmd s := rfl
theorem exec_matrixZero (cmd : Nat) : exec (.matrixZero cmd) s = execMatrixZero cmd s := rfl
theorem exec_drawDsel (cmd : Nat) : exec (.drawDsel cmd) s = execDrawDsel cmd s := rfl
theorem exec_featureTap (cmd : Nat) : exec (.featureTap cmd) s = execFeatureTap cmd s := rfl
theorem exec_outboxWrite (warp : Nat) (q : BitVec 4) : exec (.outboxWrite warp q) s = execOutboxWrite warp q s := rfl
theorem exec_rowGroupTake (mop : Nat) (i : Nat) : exec (.rowGroupTake mop i) s = execRowGroupTake mop i s := rfl
theorem exec_matrixOpComplete (mop : Nat) : exec (.matrixOpComplete mop) s = execMatrixOpComplete mop s := rfl
theorem exec_gangPlace : exec (.gangPlace) s = execGangPlace s := rfl
theorem exec_launchStarvation (launch : Nat) : exec (.launchStarvation launch) s = execLaunchStarvation launch s := rfl
theorem exec_graphNodeStart (graph : BitVec 6) (node : Nat) : 
    exec (.graphNodeStart graph node) s = execGraphNodeStart graph node s := rfl
theorem exec_baristaStep (inst : BitVec 4) : exec (.baristaStep inst) s = execBaristaStep inst s := rfl
theorem exec_stepDone (inst : BitVec 4) : exec (.stepDone inst) s = execStepDone inst s := rfl
theorem exec_grinderRow (tap : Nat) (row : Nat) : exec (.grinderRow tap row) s = execGrinderRow tap row s := rfl
theorem exec_watchHandlerEnd (wid : Word) :
    exec (.watchHandlerEnd wid) s = execWatchHandlerEnd wid s := rfl
theorem exec_trapDelivery (warp lane : Nat) : exec (.trapDelivery warp lane) s = execTrapDelivery warp lane s := rfl
theorem exec_timerTick (sched : Nat) : exec (.timerTick sched) s = execTimerTick sched s := rfl
theorem exec_counterAdvance : exec (.counterAdvance) s = execCounterAdvance s := rfl
theorem exec_counterRotate (sched : Nat) : exec (.counterRotate sched) s = execCounterRotate sched s := rfl
theorem exec_gangHalt (gang : Nat) : exec (.gangHalt gang) s = execGangHalt gang s := rfl
theorem exec_drainTimeout (gang : Nat) : exec (.drainTimeout gang) s = execDrainTimeout gang s := rfl
theorem exec_worldSwitch (out into : Option (BitVec 6)) : exec (.worldSwitch out into) s = execWorldSwitch out into s := rfl
theorem exec_revocationDrain (tag : Tag) : exec (.revocationDrain tag) s = execRevocationDrain tag s := rfl
theorem exec_powerOn : exec (.powerOn) s = execPowerOn s := rfl
theorem exec_governorStep (milliwatt : Nat) : exec (.governorStep milliwatt) s = execGovernorStep milliwatt s := rfl
theorem exec_thermalTrip : exec (.thermalTrip) s = execThermalTrip s := rfl
theorem exec_semaphoreRead (portB : Bool) (i : BitVec 4) : exec (.semaphoreRead portB i) s = execSemaphoreRead portB i s := rfl
theorem exec_semaphoreWrite (portB : Bool) (i : BitVec 4) : 
    exec (.semaphoreWrite portB i) s = execSemaphoreWrite portB i s := rfl
theorem exec_doorbell (fn : HostFn) (prod : BitVec 16) : exec (.doorbell fn prod) s = execDoorbell fn prod s := rfl
theorem exec_consumerIndexWrite (fn : HostFn) (ring : BitVec 2) (cons : BitVec 16) : 
    exec (.consumerIndexWrite fn ring cons) s = execConsumerIndexWrite fn ring cons s := rfl
theorem exec_registerWrite (fn : HostFn) (offset : BitVec 13) (value : Word) : 
    exec (.registerWrite fn offset value) s = execRegisterWrite fn offset value s := rfl
theorem exec_status (h : CmdHeader) : exec (.status h) s = execStatus h s := rfl
theorem exec_fwload (h : CmdHeader) (addr : DWord) (len : Nat) (mmp : Bool) : 
    exec (.fwload h addr len mmp) s = execFwload h addr len mmp s := rfl
theorem exec_config (h : CmdHeader) (mailbox : Bool) (pkg : BitVec 6) (domsz : BitVec 7) (treeBase : DWord) (treeSize : Nat) : 
    exec (.config h mailbox pkg domsz treeBase treeSize) s = execConfig h mailbox pkg domsz treeBase treeSize s := rfl
theorem exec_vfcfg (h : CmdHeader) (vf : BitVec 6) (remove : Bool) (v : VfDesc) : 
    exec (.vfcfg h vf remove v) s = execVfcfg h vf remove v s := rfl
theorem exec_owner (h : CmdHeader) (tag : Tag) (vf : BitVec 6) (ptbase : DWord) (ucap : List Nat) : 
    exec (.owner h tag vf ptbase ucap) s = execOwner h tag vf ptbase ucap s := rfl
theorem exec_keyload (h : CmdHeader) (tag : Tag) (addr : DWord) (len : Nat) : 
    exec (.keyload h tag addr len) s = execKeyload h tag addr len s := rfl
theorem exec_keyrevoke (h : CmdHeader) (tag : Tag) (discard : Bool) : 
    exec (.keyrevoke h tag discard) s = execKeyrevoke h tag discard s := rfl
theorem exec_instcfg (h : CmdHeader) (inst : BitVec 4) (addr : DWord) : 
    exec (.instcfg h inst addr) s = execInstcfg h inst addr s := rfl
theorem exec_instcfgRemove (h : CmdHeader) (inst : BitVec 4) (immediate : Bool) : 
    exec (.instcfgRemove h inst immediate) s = execInstcfgRemove h inst immediate s := rfl
theorem exec_tkupd (h : CmdHeader) (handle : Word) (addr : DWord) : 
    exec (.tkupd h handle addr) s = execTkupd h handle addr s := rfl
theorem exec_graphInstall (h : CmdHeader) (graph : BitVec 6) (owner : Tag) (addr : DWord) (nodes succs : Nat) : 
    exec (.graphInstall h graph owner addr nodes succs) s = execGraphInstall h graph owner addr nodes succs s := rfl
theorem exec_graphStart (h : CmdHeader) (graph : BitVec 6) (owner : Tag) : 
    exec (.graphStart h graph owner) s = execGraphStart h graph owner s := rfl
theorem exec_graphRemove (h : CmdHeader) (graph : BitVec 6) (owner : Tag) : 
    exec (.graphRemove h graph owner) s = execGraphRemove h graph owner s := rfl
theorem exec_mailboxLaunch (h : CmdHeader) (owner : Tag) (replicated : Bool) (group : BitVec 8) (addr : DWord) : 
    exec (.mailboxLaunch h owner replicated group addr) s = execMailboxLaunch h owner replicated group addr s := rfl
theorem exec_stop (h : CmdHeader) (job : StopJob) (mode : StopMode) (drainMax : Nat) : 
    exec (.stop h job mode drainMax) s = execStop h job mode drainMax s := rfl
theorem exec_memwr (h : CmdHeader) (owner : Tag) (va : DWord) (len : Nat) (host : DWord) : 
    exec (.memwr h owner va len host) s = execMemwr h owner va len host s := rfl
theorem exec_memrd (h : CmdHeader) (owner : Tag) (va : DWord) (len : Nat) (host : DWord) : 
    exec (.memrd h owner va len host) s = execMemrd h owner va len host s := rfl
theorem exec_post (h : CmdHeader) (launch : BitVec 24) (gang : Nat) (wgid : BitVec 3) (warp : BitVec 5) (q : BitVec 4) (mask : Word) (addr : DWord) : 
    exec (.post h launch gang wgid warp q mask addr) s = execPost h launch gang wgid warp q mask addr s := rfl
theorem exec_fabricJoin (h : CmdHeader) : exec (.fabricJoin h) s = execFabricJoin h s := rfl
theorem exec_fabricGroup (h : CmdHeader) (group : BitVec 8) (addr : DWord) : 
    exec (.fabricGroup h group addr) s = execFabricGroup h group addr s := rfl
theorem exec_fabricUngroup (h : CmdHeader) (group : BitVec 8) : 
    exec (.fabricUngroup h group) s = execFabricUngroup h group s := rfl
theorem exec_confmode (h : CmdHeader) (enter : Bool) : exec (.confmode h enter) s = execConfmode h enter s := rfl
theorem exec_reset (h : CmdHeader) (scrub : Bool) : exec (.reset h scrub) s = execReset h scrub s := rfl
theorem exec_mktown (h : CmdHeader) (tag : Tag) (unassign : Bool) (addr : Word) (count : Nat) : 
    exec (.mktown h tag unassign addr count) s = execMktown h tag unassign addr count s := rfl
theorem exec_flitRetry (link : Nat) : exec (.flitRetry link) s = execFlitRetry link s := rfl
theorem exec_revolutionClose (group : BitVec 8) : exec (.revolutionClose group) s = execRevolutionClose group s := rfl
theorem exec_revolutionAbandon (group : BitVec 8) : exec (.revolutionAbandon group) s = execRevolutionAbandon group s := rfl
theorem exec_memberLeave (pkg : BitVec 6) : exec (.memberLeave pkg) s = execMemberLeave pkg s := rfl
theorem exec_launchCopyReceipt (r : LaunchCopy) : exec (.launchCopyReceipt r) s = execLaunchCopyReceipt r s := rfl
theorem exec_startBarrier (group : BitVec 8) (statuses : List (BitVec 4)) : 
    exec (.startBarrier group statuses) s = execStartBarrier group statuses s := rfl
theorem exec_remoteAccess (r : RemoteReq) : exec (.remoteAccess r) s = execRemoteAccess r s := rfl
theorem exec_pagexHandover (owner : Tag) (va : DWord) : exec (.pagexHandover owner va) s = execPagexHandover owner va s := rfl
theorem exec_pagexReturn (owner : Tag) (va : DWord) (writes : List (Nat × Byte)) : 
    exec (.pagexReturn owner va writes) s = execPagexReturn owner va writes s := rfl
theorem exec_devFrameMigration (owner : Tag) (va : DWord) (frame : Nat) : 
    exec (.devFrameMigration owner va frame) s = execDevFrameMigration owner va frame s := rfl
theorem exec_hdmDecoderCommit (port : BitVec 3) (size : Nat) : 
    exec (.hdmDecoderCommit port size) s = execHdmDecoderCommit port size s := rfl
end Sys2Proof.Machine
end

