-- ==== Sys2Proof/Laws/IntValues.lean ====
section
/-! SUPPORT. The integer operations of words, each by the arithmetic of its rule. -/

namespace Sys2Proof.Machine

theorem shlV_toNat (x y : Word) :
    (shlV x y).toNat = if y.toNat % 256 < 32 then x.toNat * 2 ^ (y.toNat % 256) % 2 ^ 32 else 0 := by
  unfold shlV shiftCount; split
  · simp [BitVec.toNat_shiftLeft, Nat.shiftLeft_eq]
  · rfl

theorem shrV_toNat (x y : Word) :
    (shrV x y).toNat = if y.toNat % 256 < 32 then x.toNat / 2 ^ (y.toNat % 256) else 0 := by
  unfold shrV shiftCount; split
  · simp [BitVec.toNat_ushiftRight, Nat.shiftRight_eq_div_pow]
  · rfl

theorem sraV_toInt (x y : Word) :
    (sraV x y).toInt = if y.toNat % 256 < 32 then x.toInt / 2 ^ (y.toNat % 256) else if x.getLsbD 31 then -1 else 0 := by
  unfold sraV shiftCount
  rw [BitVec.toInt_sshiftRight, Int.shiftRight_eq_div_pow]
  split
  · next h => rw [show Nat.min (y.toNat % 256) 32 = y.toNat % 256 from Nat.min_eq_left (by omega)]; norm_cast
  · next h =>
    rw [show Nat.min (y.toNat % 256) 32 = 32 from Nat.min_eq_right (by omega)]
    have hm : x.getLsbD 31 = x.msb := by simp [BitVec.msb_eq_getLsbD_last]
    rw [hm]
    have h1 := BitVec.toInt_eq_msb_cond x
    have h2 := x.isLt
    by_cases hb : x.msb = true
    · rw [if_pos hb] at h1 ⊢
      have := BitVec.msb_eq_decide x
      rw [hb] at this
      simp at this
      omega
    · simp only [hb, Bool.false_eq_true, if_false] at h1 ⊢
      omega

theorem rotlV_getLsbD (x y : Word) (i : Nat) (h : i < 32) :
    (rotlV x y).getLsbD ((i + y.toNat % 256) % 32) = x.getLsbD i := by
  unfold rotlV shiftCount
  rw [BitVec.getLsbD_rotateLeft]
  have e : (i + y.toNat % 256) % 32 = (i + y.toNat % 256 % 32) % 32 := by omega
  rw [e]
  generalize hr : y.toNat % 256 % 32 = r
  have hr' : r < 32 := by omega
  simp only [Nat.mod_eq_of_lt hr']
  by_cases g : i + r < 32
  · have h1 : (i + r) % 32 = i + r := Nat.mod_eq_of_lt g
    rw [h1]
    have h2 : ¬ (i + r < r) := by omega
    have h3 : i + r - r = i := by omega
    simp [h2, h3]
    intro; omega
  · have h1 : (i + r) % 32 = i + r - 32 := by omega
    rw [h1]
    have h2 : i + r - 32 < r := by omega
    have h3 : 32 - r + (i + r - 32) = i := by omega
    simp [h2, h3]

theorem minV_toInt (x y : Word) : (minV x y).toInt = min x.toInt y.toInt := by
  unfold minV; simp only [BitVec.slt]; split <;> simp_all <;> omega
theorem maxV_toInt (x y : Word) : (maxV x y).toInt = max x.toInt y.toInt := by
  unfold maxV; simp only [BitVec.slt]; split <;> simp_all <;> omega
theorem minuV_toNat (x y : Word) : (minuV x y).toNat = min x.toNat y.toNat := by
  unfold minuV; simp only [BitVec.ult]; split <;> simp_all <;> omega
theorem maxuV_toNat (x y : Word) : (maxuV x y).toNat = max x.toNat y.toNat := by
  unfold maxuV; simp only [BitVec.ult]; split <;> simp_all <;> omega

theorem bfeV_toNat (x y : Word) :
    (bfeV x y).toNat =
      if y.toNat / 256 % 32 < y.toNat % 32 then 0
      else x.toNat / 2 ^ (y.toNat % 32) % 2 ^ (y.toNat / 256 % 32 - y.toNat % 32 + 1) := by
  unfold bfeV fieldHi fieldLo bits
  split
  · rfl
  · rw [BitVec.toNat_ofNat]
    apply Nat.mod_eq_of_lt
    have h1 : 2 ^ (y.toNat / 256 % 32 - y.toNat % 32 + 1) ≤ 2 ^ 32 := Nat.pow_le_pow_right (by decide) (by omega)
    exact Nat.lt_of_lt_of_le (Nat.mod_lt _ (Nat.two_pow_pos _)) h1

theorem bfxV_getLsbD (x y : Word) (i : Nat) (h : i < 32) :
    (bfxV x y).getLsbD i =
      (decide (y.toNat % 32 ≤ y.toNat / 256 % 32) && x.getLsbD (min (i + y.toNat % 32) (y.toNat / 256 % 32))) := by
  unfold bfxV fieldHi fieldLo
  generalize hlo : y.toNat % 32 = lo
  generalize hhi : y.toNat / 256 % 32 = hi
  have : lo < 32 := by omega
  have : hi < 32 := by omega
  split
  · next g => have : ¬ lo ≤ hi := by omega
              simp [this]
  · next g =>
    have : lo ≤ hi := by omega
    simp only [this, decide_true, Bool.true_and]
    rw [BitVec.getLsbD_signExtend]
    simp only [h, decide_true, Bool.true_and]
    have bit : ∀ j, j < hi - lo + 1 → (BitVec.ofNat (hi - lo + 1) (x.toNat / 2 ^ lo)).getLsbD j = x.getLsbD (j + lo) := by
      intro j hj
      rw [BitVec.getLsbD_ofNat]
      simp only [hj, decide_true, Bool.true_and, Nat.testBit_div_two_pow]
      rfl
    split
    · next g2 => rw [bit i g2, show min (i + lo) hi = i + lo from by omega]
    · next g2 =>
      rw [BitVec.msb_eq_getLsbD_last, bit _ (by omega)]
      congr 1; omega

theorem bfiV_getLsbD (z x y : Word) (i : Nat) (h : i < 32) :
    (bfiV z x y).getLsbD i =
      if y.toNat % 32 ≤ i ∧ i ≤ y.toNat / 256 % 32 then x.getLsbD (i - y.toNat % 32) else z.getLsbD i := by
  unfold bfiV fieldHi fieldLo
  generalize hlo : y.toNat % 32 = lo
  generalize hhi : y.toNat / 256 % 32 = hi
  have : lo < 32 := by omega
  have : hi < 32 := by omega
  split
  · next g => rw [if_neg (by omega)]
  · next g =>
    have mask : (BitVec.ofNat 32 ((2 ^ (hi - lo + 1) - 1) * 2 ^ lo)).getLsbD i = decide (lo ≤ i ∧ i ≤ hi) := by
      rw [BitVec.getLsbD_ofNat]
      simp only [h, decide_true, Bool.true_and]
      rw [Nat.testBit_mul_two_pow, Nat.testBit_two_pow_sub_one]
      by_cases a : lo ≤ i
      · simp [a]; omega
      · simp [a]
    simp only [BitVec.getLsbD_or, BitVec.getLsbD_and, BitVec.getLsbD_not, mask, BitVec.getLsbD_shiftLeft, h, decide_true, Bool.true_and]
    by_cases a : lo ≤ i ∧ i ≤ hi
    · have : ¬ i < lo := by omega
      simp [a, this]
    · simp [a]

theorem Int.mul_bound {a b : Int} (ha : -2147483648 ≤ a) (ha' : a ≤ 2147483648) (hb : -2147483648 ≤ b) (hb' : b ≤ 2147483648) :
    -4611686018427387904 ≤ a * b ∧ a * b ≤ 4611686018427387904 := by
  have h : (a * b).natAbs ≤ 2147483648 * 2147483648 := by
    rw [Int.natAbs_mul]; exact Nat.mul_le_mul (by omega) (by omega)
  generalize a * b = z at h ⊢
  omega

theorem mulhiV_toInt (x y : Word) : (mulhiV x y).toInt = x.toInt * y.toInt / 2 ^ 32 := by
  unfold mulhiV
  rw [BitVec.toInt_ofInt]
  have hx := BitVec.toInt_lt (x := x); have hx' := BitVec.le_toInt x
  have hy := BitVec.toInt_lt (x := y); have hy' := BitVec.le_toInt y
  simp at hx hx' hy hy'
  have h := Int.mul_bound (a := x.toInt) (b := y.toInt) (by omega) (by omega) (by omega) (by omega)
  generalize x.toInt * y.toInt = z at h ⊢
  apply Int.bmod_eq_of_le <;> omega

theorem mulhiuV_toNat (x y : Word) : (mulhiuV x y).toNat = x.toNat * y.toNat / 2 ^ 32 := by
  unfold mulhiuV
  rw [BitVec.toNat_ofNat]
  apply Nat.mod_eq_of_lt
  have := x.isLt; have := y.isLt
  have : x.toNat * y.toNat < 2 ^ 32 * 2 ^ 32 := Nat.mul_lt_mul'' x.isLt y.isLt
  omega

theorem divuV_toNat (x y : Word) : (divuV x y).toNat = if y.toNat = 0 then 2 ^ 32 - 1 else x.toNat / y.toNat := by
  unfold divuV
  by_cases h : y = 0
  · simp [h]
  · have g : y.toNat ≠ 0 := fun g => h (by apply BitVec.eq_of_toNat_eq; simpa using g)
    rw [if_neg h, if_neg g, BitVec.toNat_udiv]

theorem remuV_toNat (x y : Word) : (remuV x y).toNat = if y.toNat = 0 then x.toNat else x.toNat % y.toNat := by
  unfold remuV
  by_cases h : y = 0
  · simp [h]
  · have g : y.toNat ≠ 0 := fun g => h (by apply BitVec.eq_of_toNat_eq; simpa using g)
    rw [if_neg h, if_neg g, BitVec.toNat_umod]

theorem absV_toNat (x : Word) : (absV x).toNat = x.toInt.natAbs := by
  unfold absV
  have h1 := BitVec.toInt_eq_msb_cond x
  have h2 := x.isLt
  have h3 := BitVec.msb_eq_decide x
  split
  · next h => rw [h] at h1 h3; simp at h1 h3; simp [BitVec.toNat_sub]; omega
  · next h => simp only [h, Bool.false_eq_true, if_false] at h1; omega

theorem clzV_spec (x : Word) :
    (clzV x).toNat ≤ 32 ∧ (∀ i, i < (clzV x).toNat → x.getLsbD (31 - i) = false) ∧
      ((clzV x).toNat < 32 → x.getLsbD (31 - (clzV x).toNat) = true) := by
  unfold clzV
  by_cases h : x = 0
  · subst h; simp
  · have hx : x.toNat ≠ 0 := fun g => h (by apply BitVec.eq_of_toNat_eq; simpa using g)
    have hl := (Nat.log2_lt hx (k := 32)).2 x.isLt
    have e : (BitVec.ofNat 32 (if x = 0 then 32 else 31 - Nat.log2 x.toNat)).toNat = 31 - Nat.log2 x.toNat := by
      rw [if_neg h, BitVec.toNat_ofNat]; omega
    rw [e]
    refine ⟨by omega, fun i hi => ?_, fun _ => ?_⟩
    · have : x.toNat < 2 ^ (31 - i) := (Nat.log2_lt hx).1 (by omega)
      exact Nat.testBit_lt_two_pow this
    · rw [show 31 - (31 - Nat.log2 x.toNat) = Nat.log2 x.toNat from by omega]
      show x.toNat.testBit _ = true
      rw [Nat.testBit_eq_decide_div_mod_eq]
      have h1 := Nat.log2_self_le hx
      have h2 := Nat.lt_log2_self (n := x.toNat)
      have : x.toNat / 2 ^ Nat.log2 x.toNat = 1 := by
        rw [Nat.pow_succ] at h2
        exact Nat.div_eq_of_lt_le (by omega) (by omega)
      simp [this]

theorem popcV_toNat (x : Word) : (popcV x).toNat = ((List.range 32).filter (fun i => x.getLsbD i)).length := by
  unfold popcV
  rw [BitVec.toNat_ofNat]
  have := List.length_filter_le (fun i => x.getLsbD i) (List.range 32)
  rw [List.length_range] at this
  exact Nat.mod_eq_of_lt (by omega)

theorem brev_fold (x : Word) (k : Nat) (hk : k < 32) (L : List Nat) (r : Word) :
    (L.foldl (fun r i => if x.getLsbD i then r ||| BitVec.ofNat 32 (2 ^ (31 - i)) else r) r).getLsbD k =
      (r.getLsbD k || L.any (fun i => x.getLsbD i && decide (31 - i = k))) := by
  induction L generalizing r with
  | nil => simp
  | cons i L ih =>
    rw [List.foldl_cons, ih, List.any_cons]
    by_cases h : x.getLsbD i = true
    · simp only [h, if_true, BitVec.getLsbD_or, BitVec.getLsbD_ofNat, hk, decide_true, Bool.true_and, Nat.testBit_two_pow,
        Bool.or_assoc]
    · simp [h]

theorem brevV_getLsbD (x : Word) (i : Nat) (h : i < 32) : (brevV x).getLsbD (31 - i) = x.getLsbD i := by
  unfold brevV
  rw [brev_fold x (31 - i) (by omega)]
  apply Bool.eq_iff_iff.2
  simp only [Bool.or_eq_true, List.any_eq_true, List.mem_range, Bool.and_eq_true, decide_eq_true_eq]
  constructor
  · rintro (h | ⟨j, hj, h1, h2⟩)
    · simp at h
    · rw [show i = j from by omega]; exact h1
  · intro g; exact Or.inr ⟨i, h, g, rfl⟩

theorem revByte_testBit : ∀ y < 256, ∀ j < 8, (revByte y).testBit j = y.testBit (7 - j) := by decide +kernel

theorem Nat.testBit_byte (n k j : Nat) (h : j < 8) : (n / 2 ^ (8 * k) % 256).testBit j = n.testBit (8 * k + j) := by
  rw [show (256 : Nat) = 2 ^ 8 from rfl, Nat.testBit_mod_two_pow, Nat.testBit_div_two_pow]
  simp [h, Nat.add_comm]

theorem prmbByte_lt (d a : Word) (g : Nat) : prmbByte d a g < 256 := by
  unfold prmbByte
  have hy : (d.toNat * 2 ^ 32 + a.toNat) / 2 ^ (8 * (g % 8)) % 256 < 256 := Nat.mod_lt _ (by decide)
  generalize (d.toNat * 2 ^ 32 + a.toNat) / 2 ^ (8 * (g % 8)) % 256 = y at hy
  have : ∀ y < 256, revByte y < 256 := by decide +kernel
  split
  · exact hy
  · decide
  · dsimp only; split <;> decide
  · exact this y hy

theorem prmbByte_testBit (d a : Word) (g j : Nat) (hj : j < 8) :
    (prmbByte d a g).testBit j =
      (let bit (n : Nat) : Bool := if g % 8 < 4 then a.getLsbD (8 * (g % 8) + n) else d.getLsbD (8 * (g % 8 - 4) + n)
       if g / 8 % 4 = 0 then bit j else if g / 8 % 4 = 1 then false else if g / 8 % 4 = 2 then bit 7 else bit (7 - j)) := by
  have src : ∀ n, n < 8 → ((d.toNat * 2 ^ 32 + a.toNat) / 2 ^ (8 * (g % 8)) % 256).testBit n =
      if g % 8 < 4 then a.getLsbD (8 * (g % 8) + n) else d.getLsbD (8 * (g % 8 - 4) + n) := by
    intro n hn
    rw [Nat.testBit_byte _ _ _ hn, Nat.mul_comm d.toNat, Nat.testBit_two_pow_mul_add _ a.isLt]
    by_cases h : g % 8 < 4
    · rw [if_pos (by omega), if_pos h]; rfl
    · rw [if_neg (by omega), if_neg h, show 8 * (g % 8) + n - 32 = 8 * (g % 8 - 4) + n from by omega]; rfl
  unfold prmbByte
  have hy : (d.toNat * 2 ^ 32 + a.toNat) / 2 ^ (8 * (g % 8)) % 256 < 256 := Nat.mod_lt _ (by decide)
  generalize (d.toNat * 2 ^ 32 + a.toNat) / 2 ^ (8 * (g % 8)) % 256 = y at src hy
  simp only [← src j hj, ← src 7 (by omega), ← src (7 - j) (by omega)]
  have hi : ∀ y < 256, ∀ j < 8, (if 128 ≤ y then (255 : Nat) else 0).testBit j = y.testBit 7 := by decide +kernel
  have h4 : g / 8 % 4 < 4 := Nat.mod_lt _ (by decide)
  split
  · next h => simp [h]
  · next h => simp [h]
  · next h => simp [h]; exact hi y hy j hj
  · next h0 h1 h2 => rw [if_neg h0, if_neg h1, if_neg h2]; exact revByte_testBit y hy j hj

theorem bytes_fold (p : Nat → Nat) (h : ∀ i, p i < 256) (n : Nat) :
    (List.range n).foldl (fun r i => r + p i * 2 ^ (8 * i)) 0 < 2 ^ (8 * n) ∧
    ∀ i, i < n → (List.range n).foldl (fun r i => r + p i * 2 ^ (8 * i)) 0 / 2 ^ (8 * i) % 256 = p i := by
  induction n with
  | zero => simp
  | succ n ih =>
    rw [List.range_succ, List.foldl_append]
    obtain ⟨h1, h2⟩ := ih
    generalize (List.range n).foldl (fun r i => r + p i * 2 ^ (8 * i)) 0 = v at h1 h2
    have hn := h n
    have hq : 2 ^ (8 * (n + 1)) = 2 ^ (8 * n) * 256 := by rw [Nat.mul_add, Nat.pow_add]
    have hle : p n * 2 ^ (8 * n) ≤ 255 * 2 ^ (8 * n) := Nat.mul_le_mul_right _ (by omega)
    refine ⟨?_, fun i hi => ?_⟩
    · show v + p n * 2 ^ (8 * n) < _
      rw [hq]; omega
    · show (v + p n * 2 ^ (8 * n)) / 2 ^ (8 * i) % 256 = p i
      by_cases e : i = n
      · subst e
        rw [Nat.add_mul_div_right _ _ (Nat.two_pow_pos _), Nat.div_eq_of_lt h1, Nat.zero_add, Nat.mod_eq_of_lt hn]
      · obtain ⟨k, rfl⟩ : ∃ k, n = i + 1 + k := ⟨n - i - 1, by omega⟩
        have hp : p (i + 1 + k) * 2 ^ (8 * (i + 1 + k)) = (p (i + 1 + k) * 2 ^ (8 * k) * 256) * 2 ^ (8 * i) := by
          rw [show 8 * (i + 1 + k) = 8 * k + 8 + 8 * i from by omega, Nat.pow_add, Nat.pow_add, Nat.mul_assoc, Nat.mul_assoc,
            Nat.mul_assoc]
        rw [hp, Nat.add_mul_div_right _ _ (Nat.two_pow_pos _), Nat.add_mul_mod_self_right]
        exact h2 i (by omega)

theorem prmbV_getLsbD (d a b : Word) (i j : Nat) (hi : i < 4) (hj : j < 8) :
    (prmbV d a b).getLsbD (8 * i + j) = (prmbByte d a (b.toNat / 2 ^ (8 * i) % 256)).testBit j := by
  have h : 8 * i + j < 32 := by omega
  unfold prmbV
  rw [BitVec.getLsbD_ofNat, ← Nat.testBit_byte _ _ _ hj,
    (bytes_fold (fun i => prmbByte d a (b.toNat / 2 ^ (8 * i) % 256)) (fun i => prmbByte_lt d a _) 4).2 i hi]
  simp [h]

end Sys2Proof.Machine
end

