-- ==== Sys2Proof/Laws/PerInstr.lean ====
section
/-! SUPPORT. What is shown of each instruction by itself: the major opcode, bits [30:26] of its word (R53), is the one that
the opcode table gives its row. -/

namespace Sys2Proof

theorem rrr_major (c : Bool) (maj fn : BitVec 5) (d a b : Reg) : (rrr c maj fn d a b).extractLsb' 26 5 = maj := by
  apply BitVec.eq_of_getLsbD_eq; intro i hi
  simp only [BitVec.getLsbD_extractLsb', rrr]
  repeat rw [BitVec.getLsbD_append]
  rcases i with _ | _ | _ | _ | _ | i <;> first | omega | simp
theorem rri_major (c : Bool) (maj : BitVec 5) (d a : Reg) (imm : BitVec 12) : (rri c maj d a imm).extractLsb' 26 5 = maj := by
  apply BitVec.eq_of_getLsbD_eq; intro i hi
  simp only [BitVec.getLsbD_extractLsb', rri]
  repeat rw [BitVec.getLsbD_append]
  rcases i with _ | _ | _ | _ | _ | i <;> first | omega | simp
theorem i17_major (c : Bool) (maj : BitVec 5) (d : Reg) (fn : BitVec 2) (imm : BitVec 17) :
    (i17 c maj d fn imm).extractLsb' 26 5 = maj := by
  apply BitVec.eq_of_getLsbD_eq; intro i hi
  simp only [BitVec.getLsbD_extractLsb', i17]
  repeat rw [BitVec.getLsbD_append]
  rcases i with _ | _ | _ | _ | _ | i <;> first | omega | simp
theorem brw_major (c : Bool) (maj : BitVec 5) (g : Guard) (fn : BitVec 3) (disp : BitVec 19) :
    (brw c maj g fn disp).extractLsb' 26 5 = maj := by
  apply BitVec.eq_of_getLsbD_eq; intro i hi
  simp only [BitVec.getLsbD_extractLsb', brw]
  repeat rw [BitVec.getLsbD_append]
  rcases i with _ | _ | _ | _ | _ | i <;> first | omega | simp
theorem mw_major (c : Bool) (maj : BitVec 5) (g : Guard) (fs : Bool) (fn : BitVec 4) (t a : Reg) (sp : BitVec 3) :
    (mw c maj g fs fn t a sp).extractLsb' 26 5 = maj := by
  apply BitVec.eq_of_getLsbD_eq; intro i hi
  simp only [BitVec.getLsbD_extractLsb', mw]
  repeat rw [BitVec.getLsbD_append]
  rcases i with _ | _ | _ | _ | _ | i <;> first | omega | simp
theorem ew_major (c : Bool) (maj : BitVec 5) (g : Guard) (fs : Bool) (fn : BitVec 5) (d a : Reg) (x : BitVec 2) :
    (ew c maj g fs fn d a x).extractLsb' 26 5 = maj := by
  apply BitVec.eq_of_getLsbD_eq; intro i hi
  simp only [BitVec.getLsbD_extractLsb', ew]
  repeat rw [BitVec.getLsbD_append]
  rcases i with _ | _ | _ | _ | _ | i <;> first | omega | simp

/-- The major opcode of a word of the opcode table; 0 for what has no word. -/
def majorOf : Instr → BitVec 5
  | .nop .. => 0
  | .sget .. => 0
  | .sset .. => 0
  | .fwait .. => 0
  | .yield .. => 0
  | .brk .. => 0
  | .trap .. => 0
  | .add .. => 1
  | .sub .. => 1
  | .and .. => 1
  | .or .. => 1
  | .xor .. => 1
  | .andn .. => 1
  | .shl .. => 1
  | .shr .. => 1
  | .sra .. => 1
  | .rotl .. => 1
  | .min .. => 1
  | .max .. => 1
  | .minu .. => 1
  | .maxu .. => 1
  | .abs .. => 1
  | .clz .. => 1
  | .popc .. => 1
  | .brev .. => 1
  | .bfe .. => 1
  | .bfx .. => 1
  | .bfi .. => 1
  | .prmb .. => 1
  | .addi .. => 2
  | .andi .. => 2
  | .ori .. => 2
  | .xori .. => 2
  | .shli .. => 2
  | .shri .. => 2
  | .srai .. => 2
  | .mul .. => 3
  | .mulhi .. => 3
  | .mulhiu .. => 3
  | .mad .. => 3
  | .divu .. => 3
  | .remu .. => 3
  | .lil .. => 4
  | .lih .. => 4
  | .adpc .. => 4
  | .fadd .. => 5
  | .fsub .. => 5
  | .fmul .. => 5
  | .hadd2 .. => 5
  | .hmul2 .. => 5
  | .badd2 .. => 5
  | .bmul2 .. => 5
  | .fmin .. => 5
  | .fmax .. => 5
  | .fneg .. => 5
  | .fabs .. => 5
  | .ffma .. => 6
  | .ffms .. => 6
  | .hfma2 .. => 6
  | .bfma2 .. => 6
  | .hdot2 .. => 6
  | .cvtF32ToNarrow .. => 7
  | .cvtNarrowToF32 .. => 7
  | .cvtF32ToInt .. => 7
  | .cvtIntToF32 .. => 7
  | .cvtF16Bf16 .. => 7
  | .cvtF16ToFp8 .. => 7
  | .frnd .. => 7
  | .pack2F16 .. => 7
  | .pack2Bf16 .. => 7
  | .exp2 .. => 8
  | .log2 .. => 8
  | .rcp .. => 8
  | .rsq .. => 8
  | .sqrt .. => 8
  | .sin .. => 8
  | .cos .. => 8
  | .tanh .. => 8
  | .icmp .. => 9
  | .icmpu .. => 9
  | .fcmp .. => 9
  | .fclass .. => 9
  | .plop .. => 9
  | .sel .. => 10
  | .mov .. => 10
  | .movp .. => 10
  | .pmov .. => 10
  | .br .. => 11
  | .call .. => 11
  | .brx .. => 11
  | .callx .. => 11
  | .ret .. => 11
  | .exit .. => 11
  | .meet .. => 11
  | .unmeet .. => 11
  | .voteAnd .. => 12
  | .voteOr .. => 12
  | .voteSame .. => 12
  | .ballot .. => 12
  | .shflLane .. => 12
  | .shflRot .. => 12
  | .shflOff .. => 12
  | .shflSwap .. => 12
  | .gredAdd .. => 12
  | .gredMin .. => 12
  | .gredMax .. => 12
  | .gredArgmin .. => 12
  | .gredArgmax .. => 12
  | .gscan .. => 12
  | .matchEq .. => 12
  | .elect .. => 12
  | .regq .. => 12
  | .prio .. => 12
  | .ld .. => 13
  | .ldl .. => 13
  | .ldlGang .. => 13
  | .ldm .. => 13
  | .ldc .. => 13
  | .st .. => 14
  | .stl .. => 14
  | .stlGang .. => 14
  | .stm .. => 14
  | .atom .. => 15
  | .atoml .. => 15
  | .atomGang .. => 15
  | .atomMkt .. => 15
  | .cas .. => 15
  | .casB64 .. => 15
  | .madd .. => 16
  | .mamax .. => 16
  | .mred .. => 16
  | .mscale .. => 16
  | .bar .. => 17
  | .gbar .. => 17
  | .fenceAcq .. => 17
  | .fenceRel .. => 17
  | .fenceAr .. => 17
  | .feset .. => 17
  | .feclr .. => 17
  | .fepoll .. => 17
  | .tryOpen .. => 18
  | .commit .. => 18
  | .tabort .. => 18
  | .tstat .. => 18
  | .qbind .. => 19
  | .qstat .. => 19
  | .qflush .. => 19
  | .launch .. => 19
  | .gsignal .. => 19
  | .mma .. => 20
  | .mdrainL .. => 20
  | .mdrainR .. => 20
  | .mzero .. => 20
  | .tap .. => 21
  | .fget .. => 21
  | .frd .. => 21
  | .fwr .. => 21
  | .frel .. => 21
  | .fdec .. => 21
  | .tkrd .. => 22
  | .tkwr .. => 22
  | .tkappend .. => 22
  | .tktrunc .. => 22
  | .tkret .. => 22
  | .tkfork .. => 22
  | .kvmap .. => 22
  | .rot .. => 22
  | .pres .. => 23
  | .prel .. => 23
  | .pdisc .. => 23
  | .pflush .. => 23
  | .pmig .. => 23
  | .rfe .. => 24
  | .killW .. => 24
  | .killG .. => 24
  | .killL .. => 24
  | .tlbinv .. => 24
  | .tlbinvOwn .. => 24
  | .tlbinvAll .. => 24
  | .icinv .. => 24
  | .icinvAll .. => 24
  | .cntsel .. => 24
  | .cntselRd .. => 24
  | .cntselSmp .. => 24
  | .cntselRot .. => 24
  | .qblk .. => 25
  | .dqblk .. => 25
  | .qfp8 .. => 25
  | .add64 .. => 26
  | .sub64 .. => 26
  | .shl64 .. => 26
  | .shr64 .. => 26
  | .madw .. => 26
  | .sext64 .. => 26
  | .dsel .. => 27
  | .rng .. => 27
  | .rngk .. => 27
  | _ => 0

/-- The word of an instruction that has one carries its major opcode. -/
def Laws.Major.Statement (i : Instr) : Prop := ∀ w, encode? i = some w → w.extractLsb' 26 5 = majorOf i

namespace Laws.Major

theorem nop (c : Bool) : Statement (.nop c) := fun _ h => Option.some.inj h ▸ rrr_major ..
theorem sget (c : Bool) (d a : Reg) : Statement (.sget c d a) := fun _ h => Option.some.inj h ▸ rrr_major ..
theorem sset (c : Bool) (d a : Reg) : Statement (.sset c d a) := fun _ h => Option.some.inj h ▸ rrr_major ..
theorem fwait (c : Bool) (mask : BitVec 12) : Statement (.fwait c mask) := fun _ h => Option.some.inj h ▸ rrr_major ..
theorem yield (c : Bool) : Statement (.yield c) := fun _ h => Option.some.inj h ▸ rrr_major ..
theorem brk (c : Bool) (k : BitVec 7) : Statement (.brk c k) := fun _ h => Option.some.inj h ▸ rrr_major ..
theorem trap (c : Bool) (k : BitVec 7) : Statement (.trap c k) := fun _ h => Option.some.inj h ▸ rrr_major ..
theorem add (c : Bool) (d a b : Reg) : Statement (.add c d a b) := fun _ h => Option.some.inj h ▸ rrr_major ..
theorem sub (c : Bool) (d a b : Reg) : Statement (.sub c d a b) := fun _ h => Option.some.inj h ▸ rrr_major ..
theorem and (c : Bool) (d a b : Reg) : Statement (.and c d a b) := fun _ h => Option.some.inj h ▸ rrr_major ..
theorem or (c : Bool) (d a b : Reg) : Statement (.or c d a b) := fun _ h => Option.some.inj h ▸ rrr_major ..
theorem xor (c : Bool) (d a b : Reg) : Statement (.xor c d a b) := fun _ h => Option.some.inj h ▸ rrr_major ..
theorem andn (c : Bool) (d a b : Reg) : Statement (.andn c d a b) := fun _ h => Option.some.inj h ▸ rrr_major ..
theorem shl (c : Bool) (d a b : Reg) : Statement (.shl c d a b) := fun _ h => Option.some.inj h ▸ rrr_major ..
theorem shr (c : Bool) (d a b : Reg) : Statement (.shr c d a b) := fun _ h => Option.some.inj h ▸ rrr_major ..
theorem sra (c : Bool) (d a b : Reg) : Statement (.sra c d a b) := fun _ h => Option.some.inj h ▸ rrr_major ..
theorem rotl (c : Bool) (d a b : Reg) : Statement (.rotl c d a b) := fun _ h => Option.some.inj h ▸ rrr_major ..
theorem min (c : Bool) (d a b : Reg) : Statement (.min c d a b) := fun _ h => Option.some.inj h ▸ rrr_major ..
theorem max (c : Bool) (d a b : Reg) : Statement (.max c d a b) := fun _ h => Option.some.inj h ▸ rrr_major ..
theorem minu (c : Bool) (d a b : Reg) : Statement (.minu c d a b) := fun _ h => Option.some.inj h ▸ rrr_major ..
theorem maxu (c : Bool) (d a b : Reg) : Statement (.maxu c d a b) := fun _ h => Option.some.inj h ▸ rrr_major ..
theorem abs (c : Bool) (d a : Reg) : Statement (.abs c d a) := fun _ h => Option.some.inj h ▸ rrr_major ..
theorem clz (c : Bool) (d a : Reg) : Statement (.clz c d a) := fun _ h => Option.some.inj h ▸ rrr_major ..
theorem popc (c : Bool) (d a : Reg) : Statement (.popc c d a) := fun _ h => Option.some.inj h ▸ rrr_major ..
theorem brev (c : Bool) (d a : Reg) : Statement (.brev c d a) := fun _ h => Option.some.inj h ▸ rrr_major ..
theorem bfe (c : Bool) (d a b : Reg) : Statement (.bfe c d a b) := fun _ h => Option.some.inj h ▸ rrr_major ..
theorem bfx (c : Bool) (d a b : Reg) : Statement (.bfx c d a b) := fun _ h => Option.some.inj h ▸ rrr_major ..
theorem bfi (c : Bool) (d a b : Reg) : Statement (.bfi c d a b) := fun _ h => Option.some.inj h ▸ rrr_major ..
theorem prmb (c : Bool) (d a b : Reg) : Statement (.prmb c d a b) := fun _ h => Option.some.inj h ▸ rrr_major ..
theorem addi (c : Bool) (d a : Reg) (imm : BitVec 9) : Statement (.addi c d a imm) := fun _ h => Option.some.inj h ▸ rri_major ..
theorem andi (c : Bool) (d a : Reg) (imm : BitVec 9) : Statement (.andi c d a imm) := fun _ h => Option.some.inj h ▸ rri_major ..
theorem ori (c : Bool) (d a : Reg) (imm : BitVec 9) : Statement (.ori c d a imm) := fun _ h => Option.some.inj h ▸ rri_major ..
theorem xori (c : Bool) (d a : Reg) (imm : BitVec 9) : Statement (.xori c d a imm) := fun _ h => Option.some.inj h ▸ rri_major ..
theorem shli (c : Bool) (d a : Reg) (cnt : BitVec 5) : Statement (.shli c d a cnt) := fun _ h => Option.some.inj h ▸ rri_major ..
theorem shri (c : Bool) (d a : Reg) (cnt : BitVec 5) : Statement (.shri c d a cnt) := fun _ h => Option.some.inj h ▸ rri_major ..
theorem srai (c : Bool) (d a : Reg) (cnt : BitVec 5) : Statement (.srai c d a cnt) := fun _ h => Option.some.inj h ▸ rri_major ..
theorem mul (c : Bool) (d a b : Reg) : Statement (.mul c d a b) := fun _ h => Option.some.inj h ▸ rrr_major ..
theorem mulhi (c : Bool) (d a b : Reg) : Statement (.mulhi c d a b) := fun _ h => Option.some.inj h ▸ rrr_major ..
theorem mulhiu (c : Bool) (d a b : Reg) : Statement (.mulhiu c d a b) := fun _ h => Option.some.inj h ▸ rrr_major ..
theorem mad (c : Bool) (d a b : Reg) : Statement (.mad c d a b) := fun _ h => Option.some.inj h ▸ rrr_major ..
theorem divu (c : Bool) (d a b : Reg) : Statement (.divu c d a b) := fun _ h => Option.some.inj h ▸ rrr_major ..
theorem remu (c : Bool) (d a b : Reg) : Statement (.remu c d a b) := fun _ h => Option.some.inj h ▸ rrr_major ..
theorem lil (c : Bool) (d : Reg) (imm : BitVec 17) : Statement (.lil c d imm) := fun _ h => Option.some.inj h ▸ i17_major ..
theorem lih (c : Bool) (d : Reg) (imm : BitVec 17) : Statement (.lih c d imm) := fun _ h => Option.some.inj h ▸ i17_major ..
theorem adpc (c : Bool) (d : Reg) (imm : BitVec 17) : Statement (.adpc c d imm) := fun _ h => Option.some.inj h ▸ i17_major ..
theorem fadd (c : Bool) (r : BitVec 2) (d a b : Reg) : Statement (.fadd c r d a b) := fun _ h => Option.some.inj h ▸ rrr_major ..
theorem fsub (c : Bool) (r : BitVec 2) (d a b : Reg) : Statement (.fsub c r d a b) := fun _ h => Option.some.inj h ▸ rrr_major ..
theorem fmul (c : Bool) (r : BitVec 2) (d a b : Reg) : Statement (.fmul c r d a b) := fun _ h => Option.some.inj h ▸ rrr_major ..
theorem hadd2 (c : Bool) (r : BitVec 2) (d a b : Reg) : Statement (.hadd2 c r d a b) := fun _ h => Option.some.inj h ▸ rrr_major ..
theorem hmul2 (c : Bool) (r : BitVec 2) (d a b : Reg) : Statement (.hmul2 c r d a b) := fun _ h => Option.some.inj h ▸ rrr_major ..
theorem badd2 (c : Bool) (r : BitVec 2) (d a b : Reg) : Statement (.badd2 c r d a b) := fun _ h => Option.some.inj h ▸ rrr_major ..
theorem bmul2 (c : Bool) (r : BitVec 2) (d a b : Reg) : Statement (.bmul2 c r d a b) := fun _ h => Option.some.inj h ▸ rrr_major ..
theorem fmin (c : Bool) (d a b : Reg) : Statement (.fmin c d a b) := fun _ h => Option.some.inj h ▸ rrr_major ..
theorem fmax (c : Bool) (d a b : Reg) : Statement (.fmax c d a b) := fun _ h => Option.some.inj h ▸ rrr_major ..
theorem fneg (c : Bool) (d a : Reg) : Statement (.fneg c d a) := fun _ h => Option.some.inj h ▸ rrr_major ..
theorem fabs (c : Bool) (d a : Reg) : Statement (.fabs c d a) := fun _ h => Option.some.inj h ▸ rrr_major ..
theorem ffma (c : Bool) (r : BitVec 2) (d a b : Reg) : Statement (.ffma c r d a b) := fun _ h => Option.some.inj h ▸ rrr_major ..
theorem ffms (c : Bool) (r : BitVec 2) (d a b : Reg) : Statement (.ffms c r d a b) := fun _ h => Option.some.inj h ▸ rrr_major ..
theorem hfma2 (c : Bool) (r : BitVec 2) (d a b : Reg) : Statement (.hfma2 c r d a b) := fun _ h => Option.some.inj h ▸ rrr_major ..
theorem bfma2 (c : Bool) (r : BitVec 2) (d a b : Reg) : Statement (.bfma2 c r d a b) := fun _ h => Option.some.inj h ▸ rrr_major ..
theorem hdot2 (c : Bool) (r : BitVec 2) (d a b : Reg) : Statement (.hdot2 c r d a b) := fun _ h => Option.some.inj h ▸ rrr_major ..
theorem cvtF32ToNarrow (c : Bool) (f : BitVec 2) (d a : Reg) (r : BitVec 3) (sat : Bool) : Statement (.cvtF32ToNarrow c f d a r sat) := fun _ h => Option.some.inj h ▸ rrr_major ..
theorem cvtNarrowToF32 (c : Bool) (f : BitVec 2) (d a : Reg) : Statement (.cvtNarrowToF32 c f d a) := fun _ h => Option.some.inj h ▸ rrr_major ..
theorem cvtF32ToInt (c : Bool) (uns : Bool) (d a : Reg) (r : BitVec 3) (sat : Bool) : Statement (.cvtF32ToInt c uns d a r sat) := fun _ h => Option.some.inj h ▸ rrr_major ..
theorem cvtIntToF32 (c : Bool) (uns : Bool) (d a : Reg) (r : BitVec 3) : Statement (.cvtIntToF32 c uns d a r) := fun _ h => Option.some.inj h ▸ rrr_major ..
theorem cvtF16Bf16 (c : Bool) (f : Bool) (d a : Reg) (r : BitVec 3) (sat : Bool) : Statement (.cvtF16Bf16 c f d a r sat) := fun _ h => Option.some.inj h ▸ rrr_major ..
theorem cvtF16ToFp8 (c : Bool) (f : Bool) (d a : Reg) (r : BitVec 3) (sat : Bool) : Statement (.cvtF16ToFp8 c f d a r sat) := fun _ h => Option.some.inj h ▸ rrr_major ..
theorem frnd (c : Bool) (d a : Reg) (r : BitVec 3) : Statement (.frnd c d a r) := fun _ h => Option.some.inj h ▸ rrr_major ..
theorem pack2F16 (c : Bool) (d a : Reg) (r : BitVec 3) (sat : Bool) : Statement (.pack2F16 c d a r sat) := fun _ h => Option.some.inj h ▸ rrr_major ..
theorem pack2Bf16 (c : Bool) (d a : Reg) (r : BitVec 3) (sat : Bool) : Statement (.pack2Bf16 c d a r sat) := fun _ h => Option.some.inj h ▸ rrr_major ..
theorem exp2 (c : Bool) (d a : Reg) : Statement (.exp2 c d a) := fun _ h => Option.some.inj h ▸ rrr_major ..
theorem log2 (c : Bool) (d a : Reg) : Statement (.log2 c d a) := fun _ h => Option.some.inj h ▸ rrr_major ..
theorem rcp (c : Bool) (d a : Reg) : Statement (.rcp c d a) := fun _ h => Option.some.inj h ▸ rrr_major ..
theorem rsq (c : Bool) (d a : Reg) : Statement (.rsq c d a) := fun _ h => Option.some.inj h ▸ rrr_major ..
theorem sqrt (c : Bool) (d a : Reg) : Statement (.sqrt c d a) := fun _ h => Option.some.inj h ▸ rrr_major ..
theorem sin (c : Bool) (d a : Reg) : Statement (.sin c d a) := fun _ h => Option.some.inj h ▸ rrr_major ..
theorem cos (c : Bool) (d a : Reg) : Statement (.cos c d a) := fun _ h => Option.some.inj h ▸ rrr_major ..
theorem tanh (c : Bool) (d a : Reg) : Statement (.tanh c d a) := fun _ h => Option.some.inj h ▸ rrr_major ..
theorem icmp (c : Bool) (cond : BitVec 3) (p : BitVec 3) (a b : Reg) : Statement (.icmp c cond p a b) := fun _ h => Option.some.inj h ▸ rrr_major ..
theorem icmpu (c : Bool) (cond : BitVec 3) (p : BitVec 3) (a b : Reg) : Statement (.icmpu c cond p a b) := fun _ h => Option.some.inj h ▸ rrr_major ..
theorem fcmp (c : Bool) (cond : BitVec 3) (p : BitVec 3) (a b : Reg) : Statement (.fcmp c cond p a b) := fun _ h => Option.some.inj h ▸ rrr_major ..
theorem fclass (c : Bool) (p : BitVec 3) (a b : Reg) : Statement (.fclass c p a b) := fun _ h => Option.some.inj h ▸ rrr_major ..
theorem plop (c : Bool) (p : BitVec 3) (tt : BitVec 4) (pa pb : BitVec 3) : Statement (.plop c p tt pa pb) := fun _ h => Option.some.inj h ▸ rrr_major ..
theorem sel (c : Bool) (n : BitVec 3) (d a b : Reg) : Statement (.sel c n d a b) := fun _ h => Option.some.inj h ▸ rrr_major ..
theorem mov (c : Bool) (d b : Reg) : Statement (.mov c d b) := fun _ h => Option.some.inj h ▸ rrr_major ..
theorem movp (c : Bool) (d b : Reg) : Statement (.movp c d b) := fun _ h => Option.some.inj h ▸ rrr_major ..
theorem pmov (c : Bool) (p : BitVec 3) (a : Reg) : Statement (.pmov c p a) := fun _ h => Option.some.inj h ▸ rrr_major ..
theorem br (c : Bool) (g : Guard) (disp : BitVec 19) : Statement (.br c g disp) := fun _ h => Option.some.inj h ▸ brw_major ..
theorem call (c : Bool) (g : Guard) (disp : BitVec 19) : Statement (.call c g disp) := fun _ h => Option.some.inj h ▸ brw_major ..
theorem brx (c : Bool) (g : Guard) (a : Reg) : Statement (.brx c g a) := fun _ h => Option.some.inj h ▸ brw_major ..
theorem callx (c : Bool) (g : Guard) (a : Reg) : Statement (.callx c g a) := fun _ h => Option.some.inj h ▸ brw_major ..
theorem ret (c : Bool) (g : Guard) : Statement (.ret c g) := fun _ h => Option.some.inj h ▸ brw_major ..
theorem exit (c : Bool) (g : Guard) : Statement (.exit c g) := fun _ h => Option.some.inj h ▸ brw_major ..
theorem meet (c : Bool) (g : Guard) (disp : BitVec 19) : Statement (.meet c g disp) := fun _ h => Option.some.inj h ▸ brw_major ..
theorem unmeet (c : Bool) (g : Guard) (disp : BitVec 19) : Statement (.unmeet c g disp) := fun _ h => Option.some.inj h ▸ brw_major ..
theorem voteAnd (c : Bool) (p pa : BitVec 3) (m : Reg) : Statement (.voteAnd c p pa m) := fun _ h => Option.some.inj h ▸ rrr_major ..
theorem voteOr (c : Bool) (p pa : BitVec 3) (m : Reg) : Statement (.voteOr c p pa m) := fun _ h => Option.some.inj h ▸ rrr_major ..
theorem voteSame (c : Bool) (p pa : BitVec 3) (m : Reg) : Statement (.voteSame c p pa m) := fun _ h => Option.some.inj h ▸ rrr_major ..
theorem ballot (c : Bool) (d : Reg) (pa : BitVec 3) (m : Reg) : Statement (.ballot c d pa m) := fun _ h => Option.some.inj h ▸ rrr_major ..
theorem shflLane (c : Bool) (d a m : Reg) : Statement (.shflLane c d a m) := fun _ h => Option.some.inj h ▸ rrr_major ..
theorem shflRot (c : Bool) (d a m : Reg) : Statement (.shflRot c d a m) := fun _ h => Option.some.inj h ▸ rrr_major ..
theorem shflOff (c : Bool) (d a m : Reg) : Statement (.shflOff c d a m) := fun _ h => Option.some.inj h ▸ rrr_major ..
theorem shflSwap (c : Bool) (d a m : Reg) : Statement (.shflSwap c d a m) := fun _ h => Option.some.inj h ▸ rrr_major ..
theorem gredAdd (c : Bool) (d a m : Reg) : Statement (.gredAdd c d a m) := fun _ h => Option.some.inj h ▸ rrr_major ..
theorem gredMin (c : Bool) (d a m : Reg) : Statement (.gredMin c d a m) := fun _ h => Option.some.inj h ▸ rrr_major ..
theorem gredMax (c : Bool) (d a m : Reg) : Statement (.gredMax c d a m) := fun _ h => Option.some.inj h ▸ rrr_major ..
theorem gredArgmin (c : Bool) (d a m : Reg) : Statement (.gredArgmin c d a m) := fun _ h => Option.some.inj h ▸ rrr_major ..
theorem gredArgmax (c : Bool) (d a m : Reg) : Statement (.gredArgmax c d a m) := fun _ h => Option.some.inj h ▸ rrr_major ..
theorem gscan (c : Bool) (d a m : Reg) : Statement (.gscan c d a m) := fun _ h => Option.some.inj h ▸ rrr_major ..
theorem matchEq (c : Bool) (d a m : Reg) : Statement (.matchEq c d a m) := fun _ h => Option.some.inj h ▸ rrr_major ..
theorem elect (c : Bool) (p : BitVec 3) (m : Reg) : Statement (.elect c p m) := fun _ h => Option.some.inj h ▸ rrr_major ..
theorem regq (c : Bool) (d a m : Reg) : Statement (.regq c d a m) := fun _ h => Option.some.inj h ▸ rrr_major ..
theorem prio (c : Bool) (d a m : Reg) : Statement (.prio c d a m) := fun _ h => Option.some.inj h ▸ rrr_major ..
theorem ld (c : Bool) (g : Guard) (fs : Bool) (fn : BitVec 4) (t a : Reg) : Statement (.ld c g fs fn t a) := fun _ h => Option.some.inj h ▸ mw_major ..
theorem ldl (c : Bool) (g : Guard) (fs : Bool) (fn : BitVec 4) (t a : Reg) : Statement (.ldl c g fs fn t a) := fun _ h => Option.some.inj h ▸ mw_major ..
theorem ldlGang (c : Bool) (g : Guard) (fs : Bool) (fn : BitVec 4) (t a : Reg) : Statement (.ldlGang c g fs fn t a) := fun _ h => Option.some.inj h ▸ mw_major ..
theorem ldm (c : Bool) (g : Guard) (fs : Bool) (fn : BitVec 4) (t a : Reg) : Statement (.ldm c g fs fn t a) := fun _ h => Option.some.inj h ▸ mw_major ..
theorem ldc (c : Bool) (g : Guard) (fs : Bool) (fn : BitVec 4) (t a : Reg) : Statement (.ldc c g fs fn t a) := fun _ h => Option.some.inj h ▸ mw_major ..
theorem st (c : Bool) (g : Guard) (fs : Bool) (fn : BitVec 4) (t a : Reg) : Statement (.st c g fs fn t a) := fun _ h => Option.some.inj h ▸ mw_major ..
theorem stl (c : Bool) (g : Guard) (fs : Bool) (fn : BitVec 4) (t a : Reg) : Statement (.stl c g fs fn t a) := fun _ h => Option.some.inj h ▸ mw_major ..
theorem stlGang (c : Bool) (g : Guard) (fs : Bool) (fn : BitVec 4) (t a : Reg) : Statement (.stlGang c g fs fn t a) := fun _ h => Option.some.inj h ▸ mw_major ..
theorem stm (c : Bool) (g : Guard) (fs : Bool) (fn : BitVec 4) (t a : Reg) : Statement (.stm c g fs fn t a) := fun _ h => Option.some.inj h ▸ mw_major ..
theorem atom (c : Bool) (g : Guard) (fs : Bool) (fn : BitVec 4) (t a : Reg) : Statement (.atom c g fs fn t a) := fun _ h => Option.some.inj h ▸ mw_major ..
theorem atoml (c : Bool) (g : Guard) (fs : Bool) (fn : BitVec 4) (t a : Reg) : Statement (.atoml c g fs fn t a) := fun _ h => Option.some.inj h ▸ mw_major ..
theorem atomGang (c : Bool) (g : Guard) (fs : Bool) (fn : BitVec 4) (t a : Reg) : Statement (.atomGang c g fs fn t a) := fun _ h => Option.some.inj h ▸ mw_major ..
theorem atomMkt (c : Bool) (g : Guard) (fs : Bool) (fn : BitVec 4) (t a : Reg) : Statement (.atomMkt c g fs fn t a) := fun _ h => Option.some.inj h ▸ mw_major ..
theorem cas (c : Bool) (g : Guard) (fs : Bool) (sp : BitVec 3) (t a : Reg) : Statement (.cas c g fs sp t a) := fun _ h => Option.some.inj h ▸ mw_major ..
theorem casB64 (c : Bool) (g : Guard) (fs : Bool) (sp : BitVec 3) (t a : Reg) : Statement (.casB64 c g fs sp t a) := fun _ h => Option.some.inj h ▸ mw_major ..
theorem madd (c : Bool) (g : Guard) (fs : Bool) (t a : Reg) : Statement (.madd c g fs t a) := fun _ h => Option.some.inj h ▸ mw_major ..
theorem mamax (c : Bool) (g : Guard) (fs : Bool) (t a : Reg) : Statement (.mamax c g fs t a) := fun _ h => Option.some.inj h ▸ mw_major ..
theorem mred (c : Bool) (g : Guard) (fs : Bool) (t a : Reg) : Statement (.mred c g fs t a) := fun _ h => Option.some.inj h ▸ mw_major ..
theorem mscale (c : Bool) (g : Guard) (fs : Bool) (t a : Reg) : Statement (.mscale c g fs t a) := fun _ h => Option.some.inj h ▸ mw_major ..
theorem bar (c : Bool) (g : Guard) (k : BitVec 2) : Statement (.bar c g k) := fun _ h => Option.some.inj h ▸ ew_major ..
theorem gbar (c : Bool) (g : Guard) (k : BitVec 2) : Statement (.gbar c g k) := fun _ h => Option.some.inj h ▸ ew_major ..
theorem fenceAcq (c : Bool) (g : Guard) (scope : BitVec 3) : Statement (.fenceAcq c g scope) := fun _ h => Option.some.inj h ▸ ew_major ..
theorem fenceRel (c : Bool) (g : Guard) (scope : BitVec 3) : Statement (.fenceRel c g scope) := fun _ h => Option.some.inj h ▸ ew_major ..
theorem fenceAr (c : Bool) (g : Guard) (scope : BitVec 3) : Statement (.fenceAr c g scope) := fun _ h => Option.some.inj h ▸ ew_major ..
theorem feset (c : Bool) (g : Guard) (fs : Bool) (n : BitVec 7) (a : Reg) (gang : Bool) : Statement (.feset c g fs n a gang) := fun _ h => Option.some.inj h ▸ ew_major ..
theorem feclr (c : Bool) (g : Guard) (fs : Bool) (n : BitVec 7) (a : Reg) (gang : Bool) : Statement (.feclr c g fs n a gang) := fun _ h => Option.some.inj h ▸ ew_major ..
theorem fepoll (c : Bool) (g : Guard) (fs : Bool) (d a : Reg) (gang : Bool) : Statement (.fepoll c g fs d a gang) := fun _ h => Option.some.inj h ▸ ew_major ..
theorem tryOpen (c : Bool) (g : Guard) (cnt : BitVec 5) (m : BitVec 4) (n : Reg) : Statement (.tryOpen c g cnt m n) := fun _ h => Option.some.inj h ▸ ew_major ..
theorem commit (c : Bool) (g : Guard) (scope : BitVec 3) : Statement (.commit c g scope) := fun _ h => Option.some.inj h ▸ ew_major ..
theorem tabort (c : Bool) (g : Guard) (k : BitVec 8) : Statement (.tabort c g k) := fun _ h => Option.some.inj h ▸ ew_major ..
theorem tstat (c : Bool) (g : Guard) (d : Reg) : Statement (.tstat c g d) := fun _ h => Option.some.inj h ▸ ew_major ..
theorem qbind (c : Bool) (g : Guard) (d a : Reg) : Statement (.qbind c g d a) := fun _ h => Option.some.inj h ▸ ew_major ..
theorem qstat (c : Bool) (g : Guard) (d a : Reg) : Statement (.qstat c g d a) := fun _ h => Option.some.inj h ▸ ew_major ..
theorem qflush (c : Bool) (g : Guard) (fs : Bool) (d a : Reg) (unbind : Bool) : Statement (.qflush c g fs d a unbind) := fun _ h => Option.some.inj h ▸ ew_major ..
theorem launch (c : Bool) (g : Guard) (fs : Bool) (d a : Reg) : Statement (.launch c g fs d a) := fun _ h => Option.some.inj h ▸ ew_major ..
theorem gsignal (c : Bool) (g : Guard) (fs : Bool) (d a : Reg) : Statement (.gsignal c g fs d a) := fun _ h => Option.some.inj h ▸ ew_major ..
theorem mma (c : Bool) (g : Guard) (fs : Bool) (m a : Reg) : Statement (.mma c g fs m a) := fun _ h => Option.some.inj h ▸ ew_major ..
theorem mdrainL (c : Bool) (g : Guard) (fs : Bool) (a : Reg) : Statement (.mdrainL c g fs a) := fun _ h => Option.some.inj h ▸ ew_major ..
theorem mdrainR (c : Bool) (g : Guard) (fs : Bool) (d a : Reg) : Statement (.mdrainR c g fs d a) := fun _ h => Option.some.inj h ▸ ew_major ..
theorem mzero (c : Bool) (g : Guard) (fs : Bool) (a : Reg) : Statement (.mzero c g fs a) := fun _ h => Option.some.inj h ▸ ew_major ..
theorem tap (c : Bool) (g : Guard) (fs : Bool) (d a : Reg) : Statement (.tap c g fs d a) := fun _ h => Option.some.inj h ▸ ew_major ..
theorem fget (c : Bool) (g : Guard) (fs : Bool) (d a : Reg) : Statement (.fget c g fs d a) := fun _ h => Option.some.inj h ▸ ew_major ..
theorem frd (c : Bool) (g : Guard) (fs : Bool) (d a : Reg) : Statement (.frd c g fs d a) := fun _ h => Option.some.inj h ▸ ew_major ..
theorem fwr (c : Bool) (g : Guard) (fs : Bool) (d a : Reg) : Statement (.fwr c g fs d a) := fun _ h => Option.some.inj h ▸ ew_major ..
theorem frel (c : Bool) (g : Guard) (fs : Bool) (d a : Reg) : Statement (.frel c g fs d a) := fun _ h => Option.some.inj h ▸ ew_major ..
theorem fdec (c : Bool) (g : Guard) (fs : Bool) (d a : Reg) : Statement (.fdec c g fs d a) := fun _ h => Option.some.inj h ▸ ew_major ..
theorem tkrd (c : Bool) (g : Guard) (fs : Bool) (d a : Reg) : Statement (.tkrd c g fs d a) := fun _ h => Option.some.inj h ▸ ew_major ..
theorem tkwr (c : Bool) (g : Guard) (fs : Bool) (d a : Reg) : Statement (.tkwr c g fs d a) := fun _ h => Option.some.inj h ▸ ew_major ..
theorem tkappend (c : Bool) (g : Guard) (fs : Bool) (d a : Reg) : Statement (.tkappend c g fs d a) := fun _ h => Option.some.inj h ▸ ew_major ..
theorem tktrunc (c : Bool) (g : Guard) (fs : Bool) (d a : Reg) : Statement (.tktrunc c g fs d a) := fun _ h => Option.some.inj h ▸ ew_major ..
theorem tkret (c : Bool) (g : Guard) (fs : Bool) (d a : Reg) : Statement (.tkret c g fs d a) := fun _ h => Option.some.inj h ▸ ew_major ..
theorem tkfork (c : Bool) (g : Guard) (fs : Bool) (d a : Reg) : Statement (.tkfork c g fs d a) := fun _ h => Option.some.inj h ▸ ew_major ..
theorem kvmap (c : Bool) (g : Guard) (fs : Bool) (d a : Reg) : Statement (.kvmap c g fs d a) := fun _ h => Option.some.inj h ▸ ew_major ..
theorem rot (c : Bool) (g : Guard) (fs : Bool) (d a : Reg) : Statement (.rot c g fs d a) := fun _ h => Option.some.inj h ▸ ew_major ..
theorem pres (c : Bool) (g : Guard) (fs : Bool) (d a : Reg) : Statement (.pres c g fs d a) := fun _ h => Option.some.inj h ▸ ew_major ..
theorem prel (c : Bool) (g : Guard) (fs : Bool) (d a : Reg) : Statement (.prel c g fs d a) := fun _ h => Option.some.inj h ▸ ew_major ..
theorem pdisc (c : Bool) (g : Guard) (fs : Bool) (d a : Reg) : Statement (.pdisc c g fs d a) := fun _ h => Option.some.inj h ▸ ew_major ..
theorem pflush (c : Bool) (g : Guard) (fs : Bool) (d a : Reg) (inv : Bool) : Statement (.pflush c g fs d a inv) := fun _ h => Option.some.inj h ▸ ew_major ..
theorem pmig (c : Bool) (g : Guard) (fs : Bool) (d a : Reg) : Statement (.pmig c g fs d a) := fun _ h => Option.some.inj h ▸ ew_major ..
theorem rfe (c : Bool) (g : Guard) : Statement (.rfe c g) := fun _ h => Option.some.inj h ▸ ew_major ..
theorem killW (c : Bool) (g : Guard) (a : Reg) : Statement (.killW c g a) := fun _ h => Option.some.inj h ▸ ew_major ..
theorem killG (c : Bool) (g : Guard) : Statement (.killG c g) := fun _ h => Option.some.inj h ▸ ew_major ..
theorem killL (c : Bool) (g : Guard) : Statement (.killL c g) := fun _ h => Option.some.inj h ▸ ew_major ..
theorem tlbinv (c : Bool) (g : Guard) (fs : Bool) (d a : Reg) : Statement (.tlbinv c g fs d a) := fun _ h => Option.some.inj h ▸ ew_major ..
theorem tlbinvOwn (c : Bool) (g : Guard) (fs : Bool) : Statement (.tlbinvOwn c g fs) := fun _ h => Option.some.inj h ▸ ew_major ..
theorem tlbinvAll (c : Bool) (g : Guard) (fs : Bool) : Statement (.tlbinvAll c g fs) := fun _ h => Option.some.inj h ▸ ew_major ..
theorem icinv (c : Bool) (g : Guard) (fs : Bool) (d a : Reg) : Statement (.icinv c g fs d a) := fun _ h => Option.some.inj h ▸ ew_major ..
theorem icinvAll (c : Bool) (g : Guard) (fs : Bool) : Statement (.icinvAll c g fs) := fun _ h => Option.some.inj h ▸ ew_major ..
theorem cntsel (c : Bool) (g : Guard) (d a : Reg) : Statement (.cntsel c g d a) := fun _ h => Option.some.inj h ▸ ew_major ..
theorem cntselRd (c : Bool) (g : Guard) (d a : Reg) : Statement (.cntselRd c g d a) := fun _ h => Option.some.inj h ▸ ew_major ..
theorem cntselSmp (c : Bool) (g : Guard) (d a : Reg) : Statement (.cntselSmp c g d a) := fun _ h => Option.some.inj h ▸ ew_major ..
theorem cntselRot (c : Bool) (g : Guard) (d a : Reg) : Statement (.cntselRot c g d a) := fun _ h => Option.some.inj h ▸ ew_major ..
theorem qblk (c : Bool) (g : Guard) (d a : Reg) (x : BitVec 2) : Statement (.qblk c g d a x) := fun _ h => Option.some.inj h ▸ ew_major ..
theorem dqblk (c : Bool) (g : Guard) (d a : Reg) (x : BitVec 2) : Statement (.dqblk c g d a x) := fun _ h => Option.some.inj h ▸ ew_major ..
theorem qfp8 (c : Bool) (g : Guard) (d a : Reg) (x : BitVec 2) : Statement (.qfp8 c g d a x) := fun _ h => Option.some.inj h ▸ ew_major ..
theorem add64 (c : Bool) (d a b : Reg) : Statement (.add64 c d a b) := fun _ h => Option.some.inj h ▸ rrr_major ..
theorem sub64 (c : Bool) (d a b : Reg) : Statement (.sub64 c d a b) := fun _ h => Option.some.inj h ▸ rrr_major ..
theorem shl64 (c : Bool) (d a b : Reg) : Statement (.shl64 c d a b) := fun _ h => Option.some.inj h ▸ rrr_major ..
theorem shr64 (c : Bool) (d a b : Reg) : Statement (.shr64 c d a b) := fun _ h => Option.some.inj h ▸ rrr_major ..
theorem madw (c : Bool) (d a b : Reg) : Statement (.madw c d a b) := fun _ h => Option.some.inj h ▸ rrr_major ..
theorem sext64 (c : Bool) (d a : Reg) : Statement (.sext64 c d a) := fun _ h => Option.some.inj h ▸ rrr_major ..
theorem dsel (c : Bool) (g : Guard) (fs : Bool) (d a : Reg) : Statement (.dsel c g fs d a) := fun _ h => Option.some.inj h ▸ ew_major ..
theorem rng (c : Bool) (g : Guard) (fs : Bool) (d a : Reg) : Statement (.rng c g fs d a) := fun _ h => Option.some.inj h ▸ ew_major ..
theorem rngk (c : Bool) (g : Guard) (d a : Reg) : Statement (.rngk c g d a) := fun _ h => Option.some.inj h ▸ ew_major ..
theorem schedulerIssue (sched : Nat) : Statement (.schedulerIssue sched) := fun _ h => nomatch h
theorem longLatencyComplete (op : Nat) : Statement (.longLatencyComplete op) := fun _ h => nomatch h
theorem collectivePerform (warp : Nat) : Statement (.collectivePerform warp) := fun _ h => nomatch h
theorem barrierComplete (wg : Nat) (gang : Bool) (k : BitVec 2) : Statement (.barrierComplete wg gang k) := fun _ h => nomatch h
theorem feWaitPerform (op : Nat) : Statement (.feWaitPerform op) := fun _ h => nomatch h
theorem rdupInvalidateAck (op : Nat) : Statement (.rdupInvalidateAck op) := fun _ h => nomatch h
theorem mmpFaultService (owner : Tag) (va : DWord) (ans : MmpAnswer) : Statement (.mmpFaultService owner va ans) := fun _ h => nomatch h
theorem lateFrame (owner : Tag) (va : DWord) (frame : Option Nat) : Statement (.lateFrame owner va frame) := fun _ h => nomatch h
theorem priResponse (owner : Tag) (va : DWord) (granted : Bool) : Statement (.priResponse owner va granted) := fun _ h => nomatch h
theorem atsInvalidation (iova : DWord) (pages : Nat) : Statement (.atsInvalidation iova pages) := fun _ h => nomatch h
theorem engineRecallRelease (op : Nat) : Statement (.engineRecallRelease op) := fun _ h => nomatch h
theorem tryRollback (warp lane : Nat) : Statement (.tryRollback warp lane) := fun _ h => nomatch h
theorem commandReceive (warp : Nat) (q : BitVec 4) : Statement (.commandReceive warp q) := fun _ h => nomatch h
theorem resultPost (cmd : Nat) : Statement (.resultPost cmd) := fun _ h => nomatch h
theorem peerDeliver (warp : Nat) (q : BitVec 4) : Statement (.peerDeliver warp q) := fun _ h => nomatch h
theorem awningRefill (warp : Nat) (q : BitVec 4) : Statement (.awningRefill warp q) := fun _ h => nomatch h
theorem copy (cmd : Nat) : Statement (.copy cmd) := fun _ h => nomatch h
theorem copyZero (cmd : Nat) : Statement (.copyZero cmd) := fun _ h => nomatch h
theorem allreduce (cmd : Nat) (peers : List PeerPart) : Statement (.allreduce cmd peers) := fun _ h => nomatch h
theorem broadcast (cmd : Nat) (peers : List PeerPart) : Statement (.broadcast cmd peers) := fun _ h => nomatch h
theorem allgather (cmd : Nat) (peers : List PeerPart) : Statement (.allgather cmd peers) := fun _ h => nomatch h
theorem reducescatter (cmd : Nat) (peers : List PeerPart) : Statement (.reducescatter cmd peers) := fun _ h => nomatch h
theorem fabricBarrier (cmd : Nat) (peers : List PeerPart) : Statement (.fabricBarrier cmd peers) := fun _ h => nomatch h
theorem matrixMma (cmd : Nat) : Statement (.matrixMma cmd) := fun _ h => nomatch h
theorem matrixDrain (cmd : Nat) : Statement (.matrixDrain cmd) := fun _ h => nomatch h
theorem matrixZero (cmd : Nat) : Statement (.matrixZero cmd) := fun _ h => nomatch h
theorem drawDsel (cmd : Nat) : Statement (.drawDsel cmd) := fun _ h => nomatch h
theorem featureTap (cmd : Nat) : Statement (.featureTap cmd) := fun _ h => nomatch h
theorem outboxWrite (warp : Nat) (q : BitVec 4) : Statement (.outboxWrite warp q) := fun _ h => nomatch h
theorem rowGroupTake (mop : Nat) (i : Nat) : Statement (.rowGroupTake mop i) := fun _ h => nomatch h
theorem matrixOpComplete (mop : Nat) : Statement (.matrixOpComplete mop) := fun _ h => nomatch h
theorem gangPlace : Statement .gangPlace := fun _ h => nomatch h
theorem launchStarvation (launch : Nat) : Statement (.launchStarvation launch) := fun _ h => nomatch h
theorem graphNodeStart (graph : BitVec 6) (node : Nat) : Statement (.graphNodeStart graph node) := fun _ h => nomatch h
theorem baristaStep (inst : BitVec 4) : Statement (.baristaStep inst) := fun _ h => nomatch h
theorem stepDone (inst : BitVec 4) : Statement (.stepDone inst) := fun _ h => nomatch h
theorem grinderRow (tap : Nat) (row : Nat) : Statement (.grinderRow tap row) := fun _ h => nomatch h
theorem watchHandlerEnd (wid : Word) : Statement (.watchHandlerEnd wid) := fun _ h => nomatch h
theorem trapDelivery (warp lane : Nat) : Statement (.trapDelivery warp lane) := fun _ h => nomatch h
theorem timerTick (sched : Nat) : Statement (.timerTick sched) := fun _ h => nomatch h
theorem counterAdvance : Statement .counterAdvance := fun _ h => nomatch h
theorem counterRotate (sched : Nat) : Statement (.counterRotate sched) := fun _ h => nomatch h
theorem gangHalt (gang : Nat) : Statement (.gangHalt gang) := fun _ h => nomatch h
theorem drainTimeout (gang : Nat) : Statement (.drainTimeout gang) := fun _ h => nomatch h
theorem worldSwitch (out into : Option (BitVec 6)) : Statement (.worldSwitch out into) := fun _ h => nomatch h
theorem revocationDrain (tag : Tag) : Statement (.revocationDrain tag) := fun _ h => nomatch h
theorem powerOn : Statement .powerOn := fun _ h => nomatch h
theorem governorStep (milliwatt : Nat) : Statement (.governorStep milliwatt) := fun _ h => nomatch h
theorem thermalTrip : Statement .thermalTrip := fun _ h => nomatch h
theorem semaphoreRead (portB : Bool) (i : BitVec 4) : Statement (.semaphoreRead portB i) := fun _ h => nomatch h
theorem semaphoreWrite (portB : Bool) (i : BitVec 4) : Statement (.semaphoreWrite portB i) := fun _ h => nomatch h
theorem doorbell (fn : HostFn) (prod : BitVec 16) : Statement (.doorbell fn prod) := fun _ h => nomatch h
theorem consumerIndexWrite (fn : HostFn) (ring : BitVec 2) (cons : BitVec 16) : Statement (.consumerIndexWrite fn ring cons) := fun _ h => nomatch h
theorem registerWrite (fn : HostFn) (offset : BitVec 13) (value : Word) : Statement (.registerWrite fn offset value) := fun _ h => nomatch h
theorem status (h : CmdHeader) : Statement (.status h) := fun _ h => nomatch h
theorem fwload (h : CmdHeader) (addr : DWord) (len : Nat) (mmp : Bool) : Statement (.fwload h addr len mmp) := fun _ h => nomatch h
theorem config (h : CmdHeader) (mailbox : Bool) (pkg : BitVec 6) (domsz : BitVec 7) (treeBase : DWord) (treeSize : Nat) : Statement (.config h mailbox pkg domsz treeBase treeSize) := fun _ h => nomatch h
theorem vfcfg (h : CmdHeader) (vf : BitVec 6) (remove : Bool) (v : VfDesc) : Statement (.vfcfg h vf remove v) := fun _ h => nomatch h
theorem owner (h : CmdHeader) (tag : Tag) (vf : BitVec 6) (ptbase : DWord) (ucap : List Nat) : Statement (.owner h tag vf ptbase ucap) := fun _ h => nomatch h
theorem keyload (h : CmdHeader) (tag : Tag) (addr : DWord) (len : Nat) : Statement (.keyload h tag addr len) := fun _ h => nomatch h
theorem keyrevoke (h : CmdHeader) (tag : Tag) (discard : Bool) : Statement (.keyrevoke h tag discard) := fun _ h => nomatch h
theorem instcfg (h : CmdHeader) (inst : BitVec 4) (addr : DWord) : Statement (.instcfg h inst addr) := fun _ h => nomatch h
theorem instcfgRemove (h : CmdHeader) (inst : BitVec 4) (immediate : Bool) : Statement (.instcfgRemove h inst immediate) := fun _ h => nomatch h
theorem tkupd (h : CmdHeader) (handle : Word) (addr : DWord) : Statement (.tkupd h handle addr) := fun _ h => nomatch h
theorem graphInstall (h : CmdHeader) (graph : BitVec 6) (owner : Tag) (addr : DWord) (nodes succs : Nat) : Statement (.graphInstall h graph owner addr nodes succs) := fun _ h => nomatch h
theorem graphStart (h : CmdHeader) (graph : BitVec 6) (owner : Tag) : Statement (.graphStart h graph owner) := fun _ h => nomatch h
theorem graphRemove (h : CmdHeader) (graph : BitVec 6) (owner : Tag) : Statement (.graphRemove h graph owner) := fun _ h => nomatch h
theorem mailboxLaunch (h : CmdHeader) (owner : Tag) (replicated : Bool) (group : BitVec 8) (addr : DWord) : Statement (.mailboxLaunch h owner replicated group addr) := fun _ h => nomatch h
theorem stop (h : CmdHeader) (job : StopJob) (mode : StopMode) (drainMax : Nat) : Statement (.stop h job mode drainMax) := fun _ h => nomatch h
theorem memwr (h : CmdHeader) (owner : Tag) (va : DWord) (len : Nat) (host : DWord) : Statement (.memwr h owner va len host) := fun _ h => nomatch h
theorem memrd (h : CmdHeader) (owner : Tag) (va : DWord) (len : Nat) (host : DWord) : Statement (.memrd h owner va len host) := fun _ h => nomatch h
theorem post (h : CmdHeader) (launch : BitVec 24) (gang : Nat) (wgid : BitVec 3) (warp : BitVec 5) (q : BitVec 4) (mask : Word) (addr : DWord) : Statement (.post h launch gang wgid warp q mask addr) := fun _ h => nomatch h
theorem fabricJoin (h : CmdHeader) : Statement (.fabricJoin h) := fun _ h => nomatch h
theorem fabricGroup (h : CmdHeader) (group : BitVec 8) (addr : DWord) : Statement (.fabricGroup h group addr) := fun _ h => nomatch h
theorem fabricUngroup (h : CmdHeader) (group : BitVec 8) : Statement (.fabricUngroup h group) := fun _ h => nomatch h
theorem confmode (h : CmdHeader) (enter : Bool) : Statement (.confmode h enter) := fun _ h => nomatch h
theorem reset (h : CmdHeader) (scrub : Bool) : Statement (.reset h scrub) := fun _ h => nomatch h
theorem mktown (h : CmdHeader) (tag : Tag) (unassign : Bool) (addr : Word) (count : Nat) : Statement (.mktown h tag unassign addr count) := fun _ h => nomatch h
theorem flitRetry (link : Nat) : Statement (.flitRetry link) := fun _ h => nomatch h
theorem revolutionClose (group : BitVec 8) : Statement (.revolutionClose group) := fun _ h => nomatch h
theorem revolutionAbandon (group : BitVec 8) : Statement (.revolutionAbandon group) := fun _ h => nomatch h
theorem memberLeave (pkg : BitVec 6) : Statement (.memberLeave pkg) := fun _ h => nomatch h
theorem launchCopyReceipt (r : LaunchCopy) : Statement (.launchCopyReceipt r) := fun _ h => nomatch h
theorem startBarrier (group : BitVec 8) (statuses : List (BitVec 4)) : Statement (.startBarrier group statuses) := fun _ h => nomatch h
theorem remoteAccess (r : RemoteReq) : Statement (.remoteAccess r) := fun _ h => nomatch h
theorem pagexHandover (owner : Tag) (va : DWord) : Statement (.pagexHandover owner va) := fun _ h => nomatch h
theorem pagexReturn (owner : Tag) (va : DWord) (writes : List (Nat × Byte)) : Statement (.pagexReturn owner va writes) := fun _ h => nomatch h
theorem devFrameMigration (owner : Tag) (va : DWord) (frame : Nat) : Statement (.devFrameMigration owner va frame) := fun _ h => nomatch h
theorem hdmDecoderCommit (port : BitVec 3) (size : Nat) : Statement (.hdmDecoderCommit port size) := fun _ h => nomatch h

end Laws.Major

end Sys2Proof
end

