-- ==== Sys2Proof/Laws/State.lean ====
section
/-! SUPPORT. What each effect leaves of each field, true by rfl, so that no later proof unfolds a record update. -/

namespace Sys2Proof.Machine

variable (s : State)

@[simp] theorem Act.store_ac (l : Nat) (b : Byte) : ((Act.store l b).apply s).ac = s.ac := rfl
@[simp] theorem Act.store_mem (l : Nat) (b : Byte) : ((Act.store l b).apply s).mem = Cells.set 0 s.mem l b := rfl
@[simp] theorem Act.store_warps (l : Nat) (b : Byte) : ((Act.store l b).apply s).warps = s.warps := rfl
@[simp] theorem Act.store_gangs (l : Nat) (b : Byte) : ((Act.store l b).apply s).gangs = s.gangs := rfl
@[simp] theorem Act.store_launches (l : Nat) (b : Byte) : ((Act.store l b).apply s).launches = s.launches := rfl
@[simp] theorem Act.store_scheds (l : Nat) (b : Byte) : ((Act.store l b).apply s).scheds = s.scheds := rfl
@[simp] theorem Act.store_ops (l : Nat) (b : Byte) : ((Act.store l b).apply s).ops = s.ops := rfl
@[simp] theorem Act.store_cmds (l : Nat) (b : Byte) : ((Act.store l b).apply s).cmds = s.cmds := rfl
@[simp] theorem Act.store_boxes (l : Nat) (b : Byte) : ((Act.store l b).apply s).boxes = s.boxes := rfl
@[simp] theorem Act.store_boot (l : Nat) (b : Byte) : ((Act.store l b).apply s).boot = s.boot := rfl
@[simp] theorem Act.store_agenda (l : Nat) (b : Byte) : ((Act.store l b).apply s).agenda = s.agenda := rfl
@[simp] theorem Act.store_cur (l : Nat) (b : Byte) : ((Act.store l b).apply s).cur = s.cur := rfl
@[simp] theorem Act.clearMem_ac (lo hi : Nat) : ((Act.clearMem lo hi).apply s).ac = s.ac := rfl
@[simp] theorem Act.clearMem_mem (lo hi : Nat) : ((Act.clearMem lo hi).apply s).mem = Cells.clear s.mem lo hi := rfl
@[simp] theorem Act.clearMem_warps (lo hi : Nat) : ((Act.clearMem lo hi).apply s).warps = s.warps := rfl
@[simp] theorem Act.clearMem_gangs (lo hi : Nat) : ((Act.clearMem lo hi).apply s).gangs = s.gangs := rfl
@[simp] theorem Act.clearMem_launches (lo hi : Nat) : ((Act.clearMem lo hi).apply s).launches = s.launches := rfl
@[simp] theorem Act.clearMem_scheds (lo hi : Nat) : ((Act.clearMem lo hi).apply s).scheds = s.scheds := rfl
@[simp] theorem Act.clearMem_ops (lo hi : Nat) : ((Act.clearMem lo hi).apply s).ops = s.ops := rfl
@[simp] theorem Act.clearMem_cmds (lo hi : Nat) : ((Act.clearMem lo hi).apply s).cmds = s.cmds := rfl
@[simp] theorem Act.clearMem_boxes (lo hi : Nat) : ((Act.clearMem lo hi).apply s).boxes = s.boxes := rfl
@[simp] theorem Act.clearMem_boot (lo hi : Nat) : ((Act.clearMem lo hi).apply s).boot = s.boot := rfl
@[simp] theorem Act.clearMem_agenda (lo hi : Nat) : ((Act.clearMem lo hi).apply s).agenda = s.agenda := rfl
@[simp] theorem Act.clearMem_cur (lo hi : Nat) : ((Act.clearMem lo hi).apply s).cur = s.cur := rfl
@[simp] theorem Act.fe_ac (g : Nat) (b : Bool) : ((Act.fe g b).apply s).ac = s.ac := rfl
@[simp] theorem Act.fe_mem (g : Nat) (b : Bool) : ((Act.fe g b).apply s).mem = s.mem := rfl
@[simp] theorem Act.fe_warps (g : Nat) (b : Bool) : ((Act.fe g b).apply s).warps = s.warps := rfl
@[simp] theorem Act.fe_gangs (g : Nat) (b : Bool) : ((Act.fe g b).apply s).gangs = s.gangs := rfl
@[simp] theorem Act.fe_launches (g : Nat) (b : Bool) : ((Act.fe g b).apply s).launches = s.launches := rfl
@[simp] theorem Act.fe_scheds (g : Nat) (b : Bool) : ((Act.fe g b).apply s).scheds = s.scheds := rfl
@[simp] theorem Act.fe_ops (g : Nat) (b : Bool) : ((Act.fe g b).apply s).ops = s.ops := rfl
@[simp] theorem Act.fe_cmds (g : Nat) (b : Bool) : ((Act.fe g b).apply s).cmds = s.cmds := rfl
@[simp] theorem Act.fe_boxes (g : Nat) (b : Bool) : ((Act.fe g b).apply s).boxes = s.boxes := rfl
@[simp] theorem Act.fe_boot (g : Nat) (b : Bool) : ((Act.fe g b).apply s).boot = s.boot := rfl
@[simp] theorem Act.fe_agenda (g : Nat) (b : Bool) : ((Act.fe g b).apply s).agenda = s.agenda := rfl
@[simp] theorem Act.fe_cur (g : Nat) (b : Bool) : ((Act.fe g b).apply s).cur = s.cur := rfl
@[simp] theorem Act.clearFe_ac (lo hi : Nat) : ((Act.clearFe lo hi).apply s).ac = s.ac := rfl
@[simp] theorem Act.clearFe_mem (lo hi : Nat) : ((Act.clearFe lo hi).apply s).mem = s.mem := rfl
@[simp] theorem Act.clearFe_warps (lo hi : Nat) : ((Act.clearFe lo hi).apply s).warps = s.warps := rfl
@[simp] theorem Act.clearFe_gangs (lo hi : Nat) : ((Act.clearFe lo hi).apply s).gangs = s.gangs := rfl
@[simp] theorem Act.clearFe_launches (lo hi : Nat) : ((Act.clearFe lo hi).apply s).launches = s.launches := rfl
@[simp] theorem Act.clearFe_scheds (lo hi : Nat) : ((Act.clearFe lo hi).apply s).scheds = s.scheds := rfl
@[simp] theorem Act.clearFe_ops (lo hi : Nat) : ((Act.clearFe lo hi).apply s).ops = s.ops := rfl
@[simp] theorem Act.clearFe_cmds (lo hi : Nat) : ((Act.clearFe lo hi).apply s).cmds = s.cmds := rfl
@[simp] theorem Act.clearFe_boxes (lo hi : Nat) : ((Act.clearFe lo hi).apply s).boxes = s.boxes := rfl
@[simp] theorem Act.clearFe_boot (lo hi : Nat) : ((Act.clearFe lo hi).apply s).boot = s.boot := rfl
@[simp] theorem Act.clearFe_agenda (lo hi : Nat) : ((Act.clearFe lo hi).apply s).agenda = s.agenda := rfl
@[simp] theorem Act.clearFe_cur (lo hi : Nat) : ((Act.clearFe lo hi).apply s).cur = s.cur := rfl
@[simp] theorem Act.tile_ac (k : Nat) (v : Word) : ((Act.tile k v).apply s).ac = s.ac := rfl
@[simp] theorem Act.tile_mem (k : Nat) (v : Word) : ((Act.tile k v).apply s).mem = s.mem := rfl
@[simp] theorem Act.tile_warps (k : Nat) (v : Word) : ((Act.tile k v).apply s).warps = s.warps := rfl
@[simp] theorem Act.tile_gangs (k : Nat) (v : Word) : ((Act.tile k v).apply s).gangs = s.gangs := rfl
@[simp] theorem Act.tile_launches (k : Nat) (v : Word) : ((Act.tile k v).apply s).launches = s.launches := rfl
@[simp] theorem Act.tile_scheds (k : Nat) (v : Word) : ((Act.tile k v).apply s).scheds = s.scheds := rfl
@[simp] theorem Act.tile_ops (k : Nat) (v : Word) : ((Act.tile k v).apply s).ops = s.ops := rfl
@[simp] theorem Act.tile_cmds (k : Nat) (v : Word) : ((Act.tile k v).apply s).cmds = s.cmds := rfl
@[simp] theorem Act.tile_boxes (k : Nat) (v : Word) : ((Act.tile k v).apply s).boxes = s.boxes := rfl
@[simp] theorem Act.tile_boot (k : Nat) (v : Word) : ((Act.tile k v).apply s).boot = s.boot := rfl
@[simp] theorem Act.tile_agenda (k : Nat) (v : Word) : ((Act.tile k v).apply s).agenda = s.agenda := rfl
@[simp] theorem Act.tile_cur (k : Nat) (v : Word) : ((Act.tile k v).apply s).cur = s.cur := rfl
@[simp] theorem Act.clearTiles_ac (lo hi : Nat) : ((Act.clearTiles lo hi).apply s).ac = s.ac := rfl
@[simp] theorem Act.clearTiles_mem (lo hi : Nat) : ((Act.clearTiles lo hi).apply s).mem = s.mem := rfl
@[simp] theorem Act.clearTiles_warps (lo hi : Nat) : ((Act.clearTiles lo hi).apply s).warps = s.warps := rfl
@[simp] theorem Act.clearTiles_gangs (lo hi : Nat) : ((Act.clearTiles lo hi).apply s).gangs = s.gangs := rfl
@[simp] theorem Act.clearTiles_launches (lo hi : Nat) : ((Act.clearTiles lo hi).apply s).launches = s.launches := rfl
@[simp] theorem Act.clearTiles_scheds (lo hi : Nat) : ((Act.clearTiles lo hi).apply s).scheds = s.scheds := rfl
@[simp] theorem Act.clearTiles_ops (lo hi : Nat) : ((Act.clearTiles lo hi).apply s).ops = s.ops := rfl
@[simp] theorem Act.clearTiles_cmds (lo hi : Nat) : ((Act.clearTiles lo hi).apply s).cmds = s.cmds := rfl
@[simp] theorem Act.clearTiles_boxes (lo hi : Nat) : ((Act.clearTiles lo hi).apply s).boxes = s.boxes := rfl
@[simp] theorem Act.clearTiles_boot (lo hi : Nat) : ((Act.clearTiles lo hi).apply s).boot = s.boot := rfl
@[simp] theorem Act.clearTiles_agenda (lo hi : Nat) : ((Act.clearTiles lo hi).apply s).agenda = s.agenda := rfl
@[simp] theorem Act.clearTiles_cur (lo hi : Nat) : ((Act.clearTiles lo hi).apply s).cur = s.cur := rfl
@[simp] theorem Act.bad_ac (k : Nat) (b : Bool) : ((Act.bad k b).apply s).ac = s.ac := rfl
@[simp] theorem Act.bad_mem (k : Nat) (b : Bool) : ((Act.bad k b).apply s).mem = s.mem := rfl
@[simp] theorem Act.bad_warps (k : Nat) (b : Bool) : ((Act.bad k b).apply s).warps = s.warps := rfl
@[simp] theorem Act.bad_gangs (k : Nat) (b : Bool) : ((Act.bad k b).apply s).gangs = s.gangs := rfl
@[simp] theorem Act.bad_launches (k : Nat) (b : Bool) : ((Act.bad k b).apply s).launches = s.launches := rfl
@[simp] theorem Act.bad_scheds (k : Nat) (b : Bool) : ((Act.bad k b).apply s).scheds = s.scheds := rfl
@[simp] theorem Act.bad_ops (k : Nat) (b : Bool) : ((Act.bad k b).apply s).ops = s.ops := rfl
@[simp] theorem Act.bad_cmds (k : Nat) (b : Bool) : ((Act.bad k b).apply s).cmds = s.cmds := rfl
@[simp] theorem Act.bad_boxes (k : Nat) (b : Bool) : ((Act.bad k b).apply s).boxes = s.boxes := rfl
@[simp] theorem Act.bad_boot (k : Nat) (b : Bool) : ((Act.bad k b).apply s).boot = s.boot := rfl
@[simp] theorem Act.bad_agenda (k : Nat) (b : Bool) : ((Act.bad k b).apply s).agenda = s.agenda := rfl
@[simp] theorem Act.bad_cur (k : Nat) (b : Bool) : ((Act.bad k b).apply s).cur = s.cur := rfl
@[simp] theorem Act.lineKey_ac (k : Nat) (v : Nat) : ((Act.lineKey k v).apply s).ac = s.ac := rfl
@[simp] theorem Act.lineKey_mem (k : Nat) (v : Nat) : ((Act.lineKey k v).apply s).mem = s.mem := rfl
@[simp] theorem Act.lineKey_warps (k : Nat) (v : Nat) : ((Act.lineKey k v).apply s).warps = s.warps := rfl
@[simp] theorem Act.lineKey_gangs (k : Nat) (v : Nat) : ((Act.lineKey k v).apply s).gangs = s.gangs := rfl
@[simp] theorem Act.lineKey_launches (k : Nat) (v : Nat) : ((Act.lineKey k v).apply s).launches = s.launches := rfl
@[simp] theorem Act.lineKey_scheds (k : Nat) (v : Nat) : ((Act.lineKey k v).apply s).scheds = s.scheds := rfl
@[simp] theorem Act.lineKey_ops (k : Nat) (v : Nat) : ((Act.lineKey k v).apply s).ops = s.ops := rfl
@[simp] theorem Act.lineKey_cmds (k : Nat) (v : Nat) : ((Act.lineKey k v).apply s).cmds = s.cmds := rfl
@[simp] theorem Act.lineKey_boxes (k : Nat) (v : Nat) : ((Act.lineKey k v).apply s).boxes = s.boxes := rfl
@[simp] theorem Act.lineKey_boot (k : Nat) (v : Nat) : ((Act.lineKey k v).apply s).boot = s.boot := rfl
@[simp] theorem Act.lineKey_agenda (k : Nat) (v : Nat) : ((Act.lineKey k v).apply s).agenda = s.agenda := rfl
@[simp] theorem Act.lineKey_cur (k : Nat) (v : Nat) : ((Act.lineKey k v).apply s).cur = s.cur := rfl
@[simp] theorem Act.l1_ac (v : List L1Line) : ((Act.l1 v).apply s).ac = s.ac := rfl
@[simp] theorem Act.l1_mem (v : List L1Line) : ((Act.l1 v).apply s).mem = s.mem := rfl
@[simp] theorem Act.l1_warps (v : List L1Line) : ((Act.l1 v).apply s).warps = s.warps := rfl
@[simp] theorem Act.l1_gangs (v : List L1Line) : ((Act.l1 v).apply s).gangs = s.gangs := rfl
@[simp] theorem Act.l1_launches (v : List L1Line) : ((Act.l1 v).apply s).launches = s.launches := rfl
@[simp] theorem Act.l1_scheds (v : List L1Line) : ((Act.l1 v).apply s).scheds = s.scheds := rfl
@[simp] theorem Act.l1_ops (v : List L1Line) : ((Act.l1 v).apply s).ops = s.ops := rfl
@[simp] theorem Act.l1_cmds (v : List L1Line) : ((Act.l1 v).apply s).cmds = s.cmds := rfl
@[simp] theorem Act.l1_boxes (v : List L1Line) : ((Act.l1 v).apply s).boxes = s.boxes := rfl
@[simp] theorem Act.l1_boot (v : List L1Line) : ((Act.l1 v).apply s).boot = s.boot := rfl
@[simp] theorem Act.l1_agenda (v : List L1Line) : ((Act.l1 v).apply s).agenda = s.agenda := rfl
@[simp] theorem Act.l1_cur (v : List L1Line) : ((Act.l1 v).apply s).cur = s.cur := rfl
@[simp] theorem Act.l2_ac (k : Nat) (c : CacheLine) : ((Act.l2 k c).apply s).ac = s.ac := rfl
@[simp] theorem Act.l2_mem (k : Nat) (c : CacheLine) : ((Act.l2 k c).apply s).mem = s.mem := rfl
@[simp] theorem Act.l2_warps (k : Nat) (c : CacheLine) : ((Act.l2 k c).apply s).warps = s.warps := rfl
@[simp] theorem Act.l2_gangs (k : Nat) (c : CacheLine) : ((Act.l2 k c).apply s).gangs = s.gangs := rfl
@[simp] theorem Act.l2_launches (k : Nat) (c : CacheLine) : ((Act.l2 k c).apply s).launches = s.launches := rfl
@[simp] theorem Act.l2_scheds (k : Nat) (c : CacheLine) : ((Act.l2 k c).apply s).scheds = s.scheds := rfl
@[simp] theorem Act.l2_ops (k : Nat) (c : CacheLine) : ((Act.l2 k c).apply s).ops = s.ops := rfl
@[simp] theorem Act.l2_cmds (k : Nat) (c : CacheLine) : ((Act.l2 k c).apply s).cmds = s.cmds := rfl
@[simp] theorem Act.l2_boxes (k : Nat) (c : CacheLine) : ((Act.l2 k c).apply s).boxes = s.boxes := rfl
@[simp] theorem Act.l2_boot (k : Nat) (c : CacheLine) : ((Act.l2 k c).apply s).boot = s.boot := rfl
@[simp] theorem Act.l2_agenda (k : Nat) (c : CacheLine) : ((Act.l2 k c).apply s).agenda = s.agenda := rfl
@[simp] theorem Act.l2_cur (k : Nat) (c : CacheLine) : ((Act.l2 k c).apply s).cur = s.cur := rfl
@[simp] theorem Act.sc_ac (k : Nat) (c : CacheLine) : ((Act.sc k c).apply s).ac = s.ac := rfl
@[simp] theorem Act.sc_mem (k : Nat) (c : CacheLine) : ((Act.sc k c).apply s).mem = s.mem := rfl
@[simp] theorem Act.sc_warps (k : Nat) (c : CacheLine) : ((Act.sc k c).apply s).warps = s.warps := rfl
@[simp] theorem Act.sc_gangs (k : Nat) (c : CacheLine) : ((Act.sc k c).apply s).gangs = s.gangs := rfl
@[simp] theorem Act.sc_launches (k : Nat) (c : CacheLine) : ((Act.sc k c).apply s).launches = s.launches := rfl
@[simp] theorem Act.sc_scheds (k : Nat) (c : CacheLine) : ((Act.sc k c).apply s).scheds = s.scheds := rfl
@[simp] theorem Act.sc_ops (k : Nat) (c : CacheLine) : ((Act.sc k c).apply s).ops = s.ops := rfl
@[simp] theorem Act.sc_cmds (k : Nat) (c : CacheLine) : ((Act.sc k c).apply s).cmds = s.cmds := rfl
@[simp] theorem Act.sc_boxes (k : Nat) (c : CacheLine) : ((Act.sc k c).apply s).boxes = s.boxes := rfl
@[simp] theorem Act.sc_boot (k : Nat) (c : CacheLine) : ((Act.sc k c).apply s).boot = s.boot := rfl
@[simp] theorem Act.sc_agenda (k : Nat) (c : CacheLine) : ((Act.sc k c).apply s).agenda = s.agenda := rfl
@[simp] theorem Act.sc_cur (k : Nat) (c : CacheLine) : ((Act.sc k c).apply s).cur = s.cur := rfl
@[simp] theorem Act.dup_ac (k : Nat) (c : CacheLine) : ((Act.dup k c).apply s).ac = s.ac := rfl
@[simp] theorem Act.dup_mem (k : Nat) (c : CacheLine) : ((Act.dup k c).apply s).mem = s.mem := rfl
@[simp] theorem Act.dup_warps (k : Nat) (c : CacheLine) : ((Act.dup k c).apply s).warps = s.warps := rfl
@[simp] theorem Act.dup_gangs (k : Nat) (c : CacheLine) : ((Act.dup k c).apply s).gangs = s.gangs := rfl
@[simp] theorem Act.dup_launches (k : Nat) (c : CacheLine) : ((Act.dup k c).apply s).launches = s.launches := rfl
@[simp] theorem Act.dup_scheds (k : Nat) (c : CacheLine) : ((Act.dup k c).apply s).scheds = s.scheds := rfl
@[simp] theorem Act.dup_ops (k : Nat) (c : CacheLine) : ((Act.dup k c).apply s).ops = s.ops := rfl
@[simp] theorem Act.dup_cmds (k : Nat) (c : CacheLine) : ((Act.dup k c).apply s).cmds = s.cmds := rfl
@[simp] theorem Act.dup_boxes (k : Nat) (c : CacheLine) : ((Act.dup k c).apply s).boxes = s.boxes := rfl
@[simp] theorem Act.dup_boot (k : Nat) (c : CacheLine) : ((Act.dup k c).apply s).boot = s.boot := rfl
@[simp] theorem Act.dup_agenda (k : Nat) (c : CacheLine) : ((Act.dup k c).apply s).agenda = s.agenda := rfl
@[simp] theorem Act.dup_cur (k : Nat) (c : CacheLine) : ((Act.dup k c).apply s).cur = s.cur := rfl
@[simp] theorem Act.signalled_ac (w n : Nat) : ((Act.signalled w n).apply s).ac = s.ac := rfl
@[simp] theorem Act.signalled_mem (w n : Nat) : ((Act.signalled w n).apply s).mem = s.mem := rfl
@[simp] theorem Act.signalled_warps (w n : Nat) : ((Act.signalled w n).apply s).warps = s.warps := rfl
@[simp] theorem Act.signalled_gangs (w n : Nat) : ((Act.signalled w n).apply s).gangs = s.gangs := rfl
@[simp] theorem Act.signalled_launches (w n : Nat) : ((Act.signalled w n).apply s).launches = s.launches := rfl
@[simp] theorem Act.signalled_scheds (w n : Nat) : ((Act.signalled w n).apply s).scheds = s.scheds := rfl
@[simp] theorem Act.signalled_ops (w n : Nat) : ((Act.signalled w n).apply s).ops = s.ops := rfl
@[simp] theorem Act.signalled_cmds (w n : Nat) : ((Act.signalled w n).apply s).cmds = s.cmds := rfl
@[simp] theorem Act.signalled_boxes (w n : Nat) : ((Act.signalled w n).apply s).boxes = s.boxes := rfl
@[simp] theorem Act.signalled_boot (w n : Nat) : ((Act.signalled w n).apply s).boot = s.boot := rfl
@[simp] theorem Act.signalled_agenda (w n : Nat) : ((Act.signalled w n).apply s).agenda = s.agenda := rfl
@[simp] theorem Act.signalled_cur (w n : Nat) : ((Act.signalled w n).apply s).cur = s.cur := rfl
@[simp] theorem Act.tlb_ac (v : List TlbEntry) : ((Act.tlb v).apply s).ac = s.ac := rfl
@[simp] theorem Act.tlb_mem (v : List TlbEntry) : ((Act.tlb v).apply s).mem = s.mem := rfl
@[simp] theorem Act.tlb_warps (v : List TlbEntry) : ((Act.tlb v).apply s).warps = s.warps := rfl
@[simp] theorem Act.tlb_gangs (v : List TlbEntry) : ((Act.tlb v).apply s).gangs = s.gangs := rfl
@[simp] theorem Act.tlb_launches (v : List TlbEntry) : ((Act.tlb v).apply s).launches = s.launches := rfl
@[simp] theorem Act.tlb_scheds (v : List TlbEntry) : ((Act.tlb v).apply s).scheds = s.scheds := rfl
@[simp] theorem Act.tlb_ops (v : List TlbEntry) : ((Act.tlb v).apply s).ops = s.ops := rfl
@[simp] theorem Act.tlb_cmds (v : List TlbEntry) : ((Act.tlb v).apply s).cmds = s.cmds := rfl
@[simp] theorem Act.tlb_boxes (v : List TlbEntry) : ((Act.tlb v).apply s).boxes = s.boxes := rfl
@[simp] theorem Act.tlb_boot (v : List TlbEntry) : ((Act.tlb v).apply s).boot = s.boot := rfl
@[simp] theorem Act.tlb_agenda (v : List TlbEntry) : ((Act.tlb v).apply s).agenda = s.agenda := rfl
@[simp] theorem Act.tlb_cur (v : List TlbEntry) : ((Act.tlb v).apply s).cur = s.cur := rfl
@[simp] theorem Act.icache_ac (v : List ICLine) : ((Act.icache v).apply s).ac = s.ac := rfl
@[simp] theorem Act.icache_mem (v : List ICLine) : ((Act.icache v).apply s).mem = s.mem := rfl
@[simp] theorem Act.icache_warps (v : List ICLine) : ((Act.icache v).apply s).warps = s.warps := rfl
@[simp] theorem Act.icache_gangs (v : List ICLine) : ((Act.icache v).apply s).gangs = s.gangs := rfl
@[simp] theorem Act.icache_launches (v : List ICLine) : ((Act.icache v).apply s).launches = s.launches := rfl
@[simp] theorem Act.icache_scheds (v : List ICLine) : ((Act.icache v).apply s).scheds = s.scheds := rfl
@[simp] theorem Act.icache_ops (v : List ICLine) : ((Act.icache v).apply s).ops = s.ops := rfl
@[simp] theorem Act.icache_cmds (v : List ICLine) : ((Act.icache v).apply s).cmds = s.cmds := rfl
@[simp] theorem Act.icache_boxes (v : List ICLine) : ((Act.icache v).apply s).boxes = s.boxes := rfl
@[simp] theorem Act.icache_boot (v : List ICLine) : ((Act.icache v).apply s).boot = s.boot := rfl
@[simp] theorem Act.icache_agenda (v : List ICLine) : ((Act.icache v).apply s).agenda = s.agenda := rfl
@[simp] theorem Act.icache_cur (v : List ICLine) : ((Act.icache v).apply s).cur = s.cur := rfl
@[simp] theorem Act.atc_ac (k : Nat) (b : Bool) : ((Act.atc k b).apply s).ac = s.ac := rfl
@[simp] theorem Act.atc_mem (k : Nat) (b : Bool) : ((Act.atc k b).apply s).mem = s.mem := rfl
@[simp] theorem Act.atc_warps (k : Nat) (b : Bool) : ((Act.atc k b).apply s).warps = s.warps := rfl
@[simp] theorem Act.atc_gangs (k : Nat) (b : Bool) : ((Act.atc k b).apply s).gangs = s.gangs := rfl
@[simp] theorem Act.atc_launches (k : Nat) (b : Bool) : ((Act.atc k b).apply s).launches = s.launches := rfl
@[simp] theorem Act.atc_scheds (k : Nat) (b : Bool) : ((Act.atc k b).apply s).scheds = s.scheds := rfl
@[simp] theorem Act.atc_ops (k : Nat) (b : Bool) : ((Act.atc k b).apply s).ops = s.ops := rfl
@[simp] theorem Act.atc_cmds (k : Nat) (b : Bool) : ((Act.atc k b).apply s).cmds = s.cmds := rfl
@[simp] theorem Act.atc_boxes (k : Nat) (b : Bool) : ((Act.atc k b).apply s).boxes = s.boxes := rfl
@[simp] theorem Act.atc_boot (k : Nat) (b : Bool) : ((Act.atc k b).apply s).boot = s.boot := rfl
@[simp] theorem Act.atc_agenda (k : Nat) (b : Bool) : ((Act.atc k b).apply s).agenda = s.agenda := rfl
@[simp] theorem Act.atc_cur (k : Nat) (b : Bool) : ((Act.atc k b).apply s).cur = s.cur := rfl
@[simp] theorem Act.pin_ac (k : Nat) (n : Nat) : ((Act.pin k n).apply s).ac = s.ac := rfl
@[simp] theorem Act.pin_mem (k : Nat) (n : Nat) : ((Act.pin k n).apply s).mem = s.mem := rfl
@[simp] theorem Act.pin_warps (k : Nat) (n : Nat) : ((Act.pin k n).apply s).warps = s.warps := rfl
@[simp] theorem Act.pin_gangs (k : Nat) (n : Nat) : ((Act.pin k n).apply s).gangs = s.gangs := rfl
@[simp] theorem Act.pin_launches (k : Nat) (n : Nat) : ((Act.pin k n).apply s).launches = s.launches := rfl
@[simp] theorem Act.pin_scheds (k : Nat) (n : Nat) : ((Act.pin k n).apply s).scheds = s.scheds := rfl
@[simp] theorem Act.pin_ops (k : Nat) (n : Nat) : ((Act.pin k n).apply s).ops = s.ops := rfl
@[simp] theorem Act.pin_cmds (k : Nat) (n : Nat) : ((Act.pin k n).apply s).cmds = s.cmds := rfl
@[simp] theorem Act.pin_boxes (k : Nat) (n : Nat) : ((Act.pin k n).apply s).boxes = s.boxes := rfl
@[simp] theorem Act.pin_boot (k : Nat) (n : Nat) : ((Act.pin k n).apply s).boot = s.boot := rfl
@[simp] theorem Act.pin_agenda (k : Nat) (n : Nat) : ((Act.pin k n).apply s).agenda = s.agenda := rfl
@[simp] theorem Act.pin_cur (k : Nat) (n : Nat) : ((Act.pin k n).apply s).cur = s.cur := rfl
@[simp] theorem Act.reserved_ac (v : List Reservation) : ((Act.reserved v).apply s).ac = s.ac := rfl
@[simp] theorem Act.reserved_mem (v : List Reservation) : ((Act.reserved v).apply s).mem = s.mem := rfl
@[simp] theorem Act.reserved_warps (v : List Reservation) : ((Act.reserved v).apply s).warps = s.warps := rfl
@[simp] theorem Act.reserved_gangs (v : List Reservation) : ((Act.reserved v).apply s).gangs = s.gangs := rfl
@[simp] theorem Act.reserved_launches (v : List Reservation) : ((Act.reserved v).apply s).launches = s.launches := rfl
@[simp] theorem Act.reserved_scheds (v : List Reservation) : ((Act.reserved v).apply s).scheds = s.scheds := rfl
@[simp] theorem Act.reserved_ops (v : List Reservation) : ((Act.reserved v).apply s).ops = s.ops := rfl
@[simp] theorem Act.reserved_cmds (v : List Reservation) : ((Act.reserved v).apply s).cmds = s.cmds := rfl
@[simp] theorem Act.reserved_boxes (v : List Reservation) : ((Act.reserved v).apply s).boxes = s.boxes := rfl
@[simp] theorem Act.reserved_boot (v : List Reservation) : ((Act.reserved v).apply s).boot = s.boot := rfl
@[simp] theorem Act.reserved_agenda (v : List Reservation) : ((Act.reserved v).apply s).agenda = s.agenda := rfl
@[simp] theorem Act.reserved_cur (v : List Reservation) : ((Act.reserved v).apply s).cur = s.cur := rfl
@[simp] theorem Act.charged_ac (v : List Charged) : ((Act.charged v).apply s).ac = s.ac := rfl
@[simp] theorem Act.charged_mem (v : List Charged) : ((Act.charged v).apply s).mem = s.mem := rfl
@[simp] theorem Act.charged_warps (v : List Charged) : ((Act.charged v).apply s).warps = s.warps := rfl
@[simp] theorem Act.charged_gangs (v : List Charged) : ((Act.charged v).apply s).gangs = s.gangs := rfl
@[simp] theorem Act.charged_launches (v : List Charged) : ((Act.charged v).apply s).launches = s.launches := rfl
@[simp] theorem Act.charged_scheds (v : List Charged) : ((Act.charged v).apply s).scheds = s.scheds := rfl
@[simp] theorem Act.charged_ops (v : List Charged) : ((Act.charged v).apply s).ops = s.ops := rfl
@[simp] theorem Act.charged_cmds (v : List Charged) : ((Act.charged v).apply s).cmds = s.cmds := rfl
@[simp] theorem Act.charged_boxes (v : List Charged) : ((Act.charged v).apply s).boxes = s.boxes := rfl
@[simp] theorem Act.charged_boot (v : List Charged) : ((Act.charged v).apply s).boot = s.boot := rfl
@[simp] theorem Act.charged_agenda (v : List Charged) : ((Act.charged v).apply s).agenda = s.agenda := rfl
@[simp] theorem Act.charged_cur (v : List Charged) : ((Act.charged v).apply s).cur = s.cur := rfl
@[simp] theorem Act.lateFrames_ac (v : List Nat) : ((Act.lateFrames v).apply s).ac = s.ac := rfl
@[simp] theorem Act.lateFrames_mem (v : List Nat) : ((Act.lateFrames v).apply s).mem = s.mem := rfl
@[simp] theorem Act.lateFrames_warps (v : List Nat) : ((Act.lateFrames v).apply s).warps = s.warps := rfl
@[simp] theorem Act.lateFrames_gangs (v : List Nat) : ((Act.lateFrames v).apply s).gangs = s.gangs := rfl
@[simp] theorem Act.lateFrames_launches (v : List Nat) : ((Act.lateFrames v).apply s).launches = s.launches := rfl
@[simp] theorem Act.lateFrames_scheds (v : List Nat) : ((Act.lateFrames v).apply s).scheds = s.scheds := rfl
@[simp] theorem Act.lateFrames_ops (v : List Nat) : ((Act.lateFrames v).apply s).ops = s.ops := rfl
@[simp] theorem Act.lateFrames_cmds (v : List Nat) : ((Act.lateFrames v).apply s).cmds = s.cmds := rfl
@[simp] theorem Act.lateFrames_boxes (v : List Nat) : ((Act.lateFrames v).apply s).boxes = s.boxes := rfl
@[simp] theorem Act.lateFrames_boot (v : List Nat) : ((Act.lateFrames v).apply s).boot = s.boot := rfl
@[simp] theorem Act.lateFrames_agenda (v : List Nat) : ((Act.lateFrames v).apply s).agenda = s.agenda := rfl
@[simp] theorem Act.lateFrames_cur (v : List Nat) : ((Act.lateFrames v).apply s).cur = s.cur := rfl
@[simp] theorem Act.warp_ac (i : Nat) (w : Warp) : ((Act.warp i w).apply s).ac = s.ac := rfl
@[simp] theorem Act.warp_mem (i : Nat) (w : Warp) : ((Act.warp i w).apply s).mem = s.mem := rfl
@[simp] theorem Act.warp_warps (i : Nat) (w : Warp) : ((Act.warp i w).apply s).warps = Keyed.put s.warps i w := rfl
@[simp] theorem Act.warp_gangs (i : Nat) (w : Warp) : ((Act.warp i w).apply s).gangs = s.gangs := rfl
@[simp] theorem Act.warp_launches (i : Nat) (w : Warp) : ((Act.warp i w).apply s).launches = s.launches := rfl
@[simp] theorem Act.warp_scheds (i : Nat) (w : Warp) : ((Act.warp i w).apply s).scheds = s.scheds := rfl
@[simp] theorem Act.warp_ops (i : Nat) (w : Warp) : ((Act.warp i w).apply s).ops = s.ops := rfl
@[simp] theorem Act.warp_cmds (i : Nat) (w : Warp) : ((Act.warp i w).apply s).cmds = s.cmds := rfl
@[simp] theorem Act.warp_boxes (i : Nat) (w : Warp) : ((Act.warp i w).apply s).boxes = s.boxes := rfl
@[simp] theorem Act.warp_boot (i : Nat) (w : Warp) : ((Act.warp i w).apply s).boot = s.boot := rfl
@[simp] theorem Act.warp_agenda (i : Nat) (w : Warp) : ((Act.warp i w).apply s).agenda = s.agenda := rfl
@[simp] theorem Act.warp_cur (i : Nat) (w : Warp) : ((Act.warp i w).apply s).cur = s.cur := rfl
@[simp] theorem Act.wg_ac (i : Nat) (w : Workgroup) : ((Act.wg i w).apply s).ac = s.ac := rfl
@[simp] theorem Act.wg_mem (i : Nat) (w : Workgroup) : ((Act.wg i w).apply s).mem = s.mem := rfl
@[simp] theorem Act.wg_warps (i : Nat) (w : Workgroup) : ((Act.wg i w).apply s).warps = s.warps := rfl
@[simp] theorem Act.wg_gangs (i : Nat) (w : Workgroup) : ((Act.wg i w).apply s).gangs = s.gangs := rfl
@[simp] theorem Act.wg_launches (i : Nat) (w : Workgroup) : ((Act.wg i w).apply s).launches = s.launches := rfl
@[simp] theorem Act.wg_scheds (i : Nat) (w : Workgroup) : ((Act.wg i w).apply s).scheds = s.scheds := rfl
@[simp] theorem Act.wg_ops (i : Nat) (w : Workgroup) : ((Act.wg i w).apply s).ops = s.ops := rfl
@[simp] theorem Act.wg_cmds (i : Nat) (w : Workgroup) : ((Act.wg i w).apply s).cmds = s.cmds := rfl
@[simp] theorem Act.wg_boxes (i : Nat) (w : Workgroup) : ((Act.wg i w).apply s).boxes = s.boxes := rfl
@[simp] theorem Act.wg_boot (i : Nat) (w : Workgroup) : ((Act.wg i w).apply s).boot = s.boot := rfl
@[simp] theorem Act.wg_agenda (i : Nat) (w : Workgroup) : ((Act.wg i w).apply s).agenda = s.agenda := rfl
@[simp] theorem Act.wg_cur (i : Nat) (w : Workgroup) : ((Act.wg i w).apply s).cur = s.cur := rfl
@[simp] theorem Act.gang_ac (i : Nat) (g : Gang) : ((Act.gang i g).apply s).ac = s.ac := rfl
@[simp] theorem Act.gang_mem (i : Nat) (g : Gang) : ((Act.gang i g).apply s).mem = s.mem := rfl
@[simp] theorem Act.gang_warps (i : Nat) (g : Gang) : ((Act.gang i g).apply s).warps = s.warps := rfl
@[simp] theorem Act.gang_gangs (i : Nat) (g : Gang) : ((Act.gang i g).apply s).gangs = Keyed.put s.gangs i g := rfl
@[simp] theorem Act.gang_launches (i : Nat) (g : Gang) : ((Act.gang i g).apply s).launches = s.launches := rfl
@[simp] theorem Act.gang_scheds (i : Nat) (g : Gang) : ((Act.gang i g).apply s).scheds = s.scheds := rfl
@[simp] theorem Act.gang_ops (i : Nat) (g : Gang) : ((Act.gang i g).apply s).ops = s.ops := rfl
@[simp] theorem Act.gang_cmds (i : Nat) (g : Gang) : ((Act.gang i g).apply s).cmds = s.cmds := rfl
@[simp] theorem Act.gang_boxes (i : Nat) (g : Gang) : ((Act.gang i g).apply s).boxes = s.boxes := rfl
@[simp] theorem Act.gang_boot (i : Nat) (g : Gang) : ((Act.gang i g).apply s).boot = s.boot := rfl
@[simp] theorem Act.gang_agenda (i : Nat) (g : Gang) : ((Act.gang i g).apply s).agenda = s.agenda := rfl
@[simp] theorem Act.gang_cur (i : Nat) (g : Gang) : ((Act.gang i g).apply s).cur = s.cur := rfl
@[simp] theorem Act.launch_ac (i : Nat) (l : Launch) : ((Act.launch i l).apply s).ac = s.ac := rfl
@[simp] theorem Act.launch_mem (i : Nat) (l : Launch) : ((Act.launch i l).apply s).mem = s.mem := rfl
@[simp] theorem Act.launch_warps (i : Nat) (l : Launch) : ((Act.launch i l).apply s).warps = s.warps := rfl
@[simp] theorem Act.launch_gangs (i : Nat) (l : Launch) : ((Act.launch i l).apply s).gangs = s.gangs := rfl
@[simp] theorem Act.launch_launches (i : Nat) (l : Launch) : ((Act.launch i l).apply s).launches = Keyed.put s.launches i l := rfl
@[simp] theorem Act.launch_scheds (i : Nat) (l : Launch) : ((Act.launch i l).apply s).scheds = s.scheds := rfl
@[simp] theorem Act.launch_ops (i : Nat) (l : Launch) : ((Act.launch i l).apply s).ops = s.ops := rfl
@[simp] theorem Act.launch_cmds (i : Nat) (l : Launch) : ((Act.launch i l).apply s).cmds = s.cmds := rfl
@[simp] theorem Act.launch_boxes (i : Nat) (l : Launch) : ((Act.launch i l).apply s).boxes = s.boxes := rfl
@[simp] theorem Act.launch_boot (i : Nat) (l : Launch) : ((Act.launch i l).apply s).boot = s.boot := rfl
@[simp] theorem Act.launch_agenda (i : Nat) (l : Launch) : ((Act.launch i l).apply s).agenda = s.agenda := rfl
@[simp] theorem Act.launch_cur (i : Nat) (l : Launch) : ((Act.launch i l).apply s).cur = s.cur := rfl
@[simp] theorem Act.launchCount_ac (n : BitVec 24) : ((Act.launchCount n).apply s).ac = s.ac := rfl
@[simp] theorem Act.launchCount_mem (n : BitVec 24) : ((Act.launchCount n).apply s).mem = s.mem := rfl
@[simp] theorem Act.launchCount_warps (n : BitVec 24) : ((Act.launchCount n).apply s).warps = s.warps := rfl
@[simp] theorem Act.launchCount_gangs (n : BitVec 24) : ((Act.launchCount n).apply s).gangs = s.gangs := rfl
@[simp] theorem Act.launchCount_launches (n : BitVec 24) : ((Act.launchCount n).apply s).launches = s.launches := rfl
@[simp] theorem Act.launchCount_scheds (n : BitVec 24) : ((Act.launchCount n).apply s).scheds = s.scheds := rfl
@[simp] theorem Act.launchCount_ops (n : BitVec 24) : ((Act.launchCount n).apply s).ops = s.ops := rfl
@[simp] theorem Act.launchCount_cmds (n : BitVec 24) : ((Act.launchCount n).apply s).cmds = s.cmds := rfl
@[simp] theorem Act.launchCount_boxes (n : BitVec 24) : ((Act.launchCount n).apply s).boxes = s.boxes := rfl
@[simp] theorem Act.launchCount_boot (n : BitVec 24) : ((Act.launchCount n).apply s).boot = s.boot := rfl
@[simp] theorem Act.launchCount_agenda (n : BitVec 24) : ((Act.launchCount n).apply s).agenda = s.agenda := rfl
@[simp] theorem Act.launchCount_cur (n : BitVec 24) : ((Act.launchCount n).apply s).cur = s.cur := rfl
@[simp] theorem Act.lastCluster_ac (n : Nat) : ((Act.lastCluster n).apply s).ac = s.ac := rfl
@[simp] theorem Act.lastCluster_mem (n : Nat) : ((Act.lastCluster n).apply s).mem = s.mem := rfl
@[simp] theorem Act.lastCluster_warps (n : Nat) : ((Act.lastCluster n).apply s).warps = s.warps := rfl
@[simp] theorem Act.lastCluster_gangs (n : Nat) : ((Act.lastCluster n).apply s).gangs = s.gangs := rfl
@[simp] theorem Act.lastCluster_launches (n : Nat) : ((Act.lastCluster n).apply s).launches = s.launches := rfl
@[simp] theorem Act.lastCluster_scheds (n : Nat) : ((Act.lastCluster n).apply s).scheds = s.scheds := rfl
@[simp] theorem Act.lastCluster_ops (n : Nat) : ((Act.lastCluster n).apply s).ops = s.ops := rfl
@[simp] theorem Act.lastCluster_cmds (n : Nat) : ((Act.lastCluster n).apply s).cmds = s.cmds := rfl
@[simp] theorem Act.lastCluster_boxes (n : Nat) : ((Act.lastCluster n).apply s).boxes = s.boxes := rfl
@[simp] theorem Act.lastCluster_boot (n : Nat) : ((Act.lastCluster n).apply s).boot = s.boot := rfl
@[simp] theorem Act.lastCluster_agenda (n : Nat) : ((Act.lastCluster n).apply s).agenda = s.agenda := rfl
@[simp] theorem Act.lastCluster_cur (n : Nat) : ((Act.lastCluster n).apply s).cur = s.cur := rfl
@[simp] theorem Act.nextId_ac (n : Nat) : ((Act.nextId n).apply s).ac = s.ac := rfl
@[simp] theorem Act.nextId_mem (n : Nat) : ((Act.nextId n).apply s).mem = s.mem := rfl
@[simp] theorem Act.nextId_warps (n : Nat) : ((Act.nextId n).apply s).warps = s.warps := rfl
@[simp] theorem Act.nextId_gangs (n : Nat) : ((Act.nextId n).apply s).gangs = s.gangs := rfl
@[simp] theorem Act.nextId_launches (n : Nat) : ((Act.nextId n).apply s).launches = s.launches := rfl
@[simp] theorem Act.nextId_scheds (n : Nat) : ((Act.nextId n).apply s).scheds = s.scheds := rfl
@[simp] theorem Act.nextId_ops (n : Nat) : ((Act.nextId n).apply s).ops = s.ops := rfl
@[simp] theorem Act.nextId_cmds (n : Nat) : ((Act.nextId n).apply s).cmds = s.cmds := rfl
@[simp] theorem Act.nextId_boxes (n : Nat) : ((Act.nextId n).apply s).boxes = s.boxes := rfl
@[simp] theorem Act.nextId_boot (n : Nat) : ((Act.nextId n).apply s).boot = s.boot := rfl
@[simp] theorem Act.nextId_agenda (n : Nat) : ((Act.nextId n).apply s).agenda = s.agenda := rfl
@[simp] theorem Act.nextId_cur (n : Nat) : ((Act.nextId n).apply s).cur = s.cur := rfl
@[simp] theorem Act.sched_ac (i : Nat) (x : Sched) : ((Act.sched i x).apply s).ac = s.ac := rfl
@[simp] theorem Act.sched_mem (i : Nat) (x : Sched) : ((Act.sched i x).apply s).mem = s.mem := rfl
@[simp] theorem Act.sched_warps (i : Nat) (x : Sched) : ((Act.sched i x).apply s).warps = s.warps := rfl
@[simp] theorem Act.sched_gangs (i : Nat) (x : Sched) : ((Act.sched i x).apply s).gangs = s.gangs := rfl
@[simp] theorem Act.sched_launches (i : Nat) (x : Sched) : ((Act.sched i x).apply s).launches = s.launches := rfl
@[simp] theorem Act.sched_scheds (i : Nat) (x : Sched) : ((Act.sched i x).apply s).scheds = Keyed.put s.scheds i x := rfl
@[simp] theorem Act.sched_ops (i : Nat) (x : Sched) : ((Act.sched i x).apply s).ops = s.ops := rfl
@[simp] theorem Act.sched_cmds (i : Nat) (x : Sched) : ((Act.sched i x).apply s).cmds = s.cmds := rfl
@[simp] theorem Act.sched_boxes (i : Nat) (x : Sched) : ((Act.sched i x).apply s).boxes = s.boxes := rfl
@[simp] theorem Act.sched_boot (i : Nat) (x : Sched) : ((Act.sched i x).apply s).boot = s.boot := rfl
@[simp] theorem Act.sched_agenda (i : Nat) (x : Sched) : ((Act.sched i x).apply s).agenda = s.agenda := rfl
@[simp] theorem Act.sched_cur (i : Nat) (x : Sched) : ((Act.sched i x).apply s).cur = s.cur := rfl
@[simp] theorem Act.ops_ac (v : List Op) : ((Act.ops v).apply s).ac = s.ac := rfl
@[simp] theorem Act.ops_mem (v : List Op) : ((Act.ops v).apply s).mem = s.mem := rfl
@[simp] theorem Act.ops_warps (v : List Op) : ((Act.ops v).apply s).warps = s.warps := rfl
@[simp] theorem Act.ops_gangs (v : List Op) : ((Act.ops v).apply s).gangs = s.gangs := rfl
@[simp] theorem Act.ops_launches (v : List Op) : ((Act.ops v).apply s).launches = s.launches := rfl
@[simp] theorem Act.ops_scheds (v : List Op) : ((Act.ops v).apply s).scheds = s.scheds := rfl
@[simp] theorem Act.ops_ops (v : List Op) : ((Act.ops v).apply s).ops = v := rfl
@[simp] theorem Act.ops_cmds (v : List Op) : ((Act.ops v).apply s).cmds = s.cmds := rfl
@[simp] theorem Act.ops_boxes (v : List Op) : ((Act.ops v).apply s).boxes = s.boxes := rfl
@[simp] theorem Act.ops_boot (v : List Op) : ((Act.ops v).apply s).boot = s.boot := rfl
@[simp] theorem Act.ops_agenda (v : List Op) : ((Act.ops v).apply s).agenda = s.agenda := rfl
@[simp] theorem Act.ops_cur (v : List Op) : ((Act.ops v).apply s).cur = s.cur := rfl
@[simp] theorem Act.cmds_ac (v : List Cmd) : ((Act.cmds v).apply s).ac = s.ac := rfl
@[simp] theorem Act.cmds_mem (v : List Cmd) : ((Act.cmds v).apply s).mem = s.mem := rfl
@[simp] theorem Act.cmds_warps (v : List Cmd) : ((Act.cmds v).apply s).warps = s.warps := rfl
@[simp] theorem Act.cmds_gangs (v : List Cmd) : ((Act.cmds v).apply s).gangs = s.gangs := rfl
@[simp] theorem Act.cmds_launches (v : List Cmd) : ((Act.cmds v).apply s).launches = s.launches := rfl
@[simp] theorem Act.cmds_scheds (v : List Cmd) : ((Act.cmds v).apply s).scheds = s.scheds := rfl
@[simp] theorem Act.cmds_ops (v : List Cmd) : ((Act.cmds v).apply s).ops = s.ops := rfl
@[simp] theorem Act.cmds_cmds (v : List Cmd) : ((Act.cmds v).apply s).cmds = v := rfl
@[simp] theorem Act.cmds_boxes (v : List Cmd) : ((Act.cmds v).apply s).boxes = s.boxes := rfl
@[simp] theorem Act.cmds_boot (v : List Cmd) : ((Act.cmds v).apply s).boot = s.boot := rfl
@[simp] theorem Act.cmds_agenda (v : List Cmd) : ((Act.cmds v).apply s).agenda = s.agenda := rfl
@[simp] theorem Act.cmds_cur (v : List Cmd) : ((Act.cmds v).apply s).cur = s.cur := rfl
@[simp] theorem Act.mops_ac (v : List Mop) : ((Act.mops v).apply s).ac = s.ac := rfl
@[simp] theorem Act.mops_mem (v : List Mop) : ((Act.mops v).apply s).mem = s.mem := rfl
@[simp] theorem Act.mops_warps (v : List Mop) : ((Act.mops v).apply s).warps = s.warps := rfl
@[simp] theorem Act.mops_gangs (v : List Mop) : ((Act.mops v).apply s).gangs = s.gangs := rfl
@[simp] theorem Act.mops_launches (v : List Mop) : ((Act.mops v).apply s).launches = s.launches := rfl
@[simp] theorem Act.mops_scheds (v : List Mop) : ((Act.mops v).apply s).scheds = s.scheds := rfl
@[simp] theorem Act.mops_ops (v : List Mop) : ((Act.mops v).apply s).ops = s.ops := rfl
@[simp] theorem Act.mops_cmds (v : List Mop) : ((Act.mops v).apply s).cmds = s.cmds := rfl
@[simp] theorem Act.mops_boxes (v : List Mop) : ((Act.mops v).apply s).boxes = s.boxes := rfl
@[simp] theorem Act.mops_boot (v : List Mop) : ((Act.mops v).apply s).boot = s.boot := rfl
@[simp] theorem Act.mops_agenda (v : List Mop) : ((Act.mops v).apply s).agenda = s.agenda := rfl
@[simp] theorem Act.mops_cur (v : List Mop) : ((Act.mops v).apply s).cur = s.cur := rfl
@[simp] theorem Act.taps_ac (v : List Tap) : ((Act.taps v).apply s).ac = s.ac := rfl
@[simp] theorem Act.taps_mem (v : List Tap) : ((Act.taps v).apply s).mem = s.mem := rfl
@[simp] theorem Act.taps_warps (v : List Tap) : ((Act.taps v).apply s).warps = s.warps := rfl
@[simp] theorem Act.taps_gangs (v : List Tap) : ((Act.taps v).apply s).gangs = s.gangs := rfl
@[simp] theorem Act.taps_launches (v : List Tap) : ((Act.taps v).apply s).launches = s.launches := rfl
@[simp] theorem Act.taps_scheds (v : List Tap) : ((Act.taps v).apply s).scheds = s.scheds := rfl
@[simp] theorem Act.taps_ops (v : List Tap) : ((Act.taps v).apply s).ops = s.ops := rfl
@[simp] theorem Act.taps_cmds (v : List Tap) : ((Act.taps v).apply s).cmds = s.cmds := rfl
@[simp] theorem Act.taps_boxes (v : List Tap) : ((Act.taps v).apply s).boxes = s.boxes := rfl
@[simp] theorem Act.taps_boot (v : List Tap) : ((Act.taps v).apply s).boot = s.boot := rfl
@[simp] theorem Act.taps_agenda (v : List Tap) : ((Act.taps v).apply s).agenda = s.agenda := rfl
@[simp] theorem Act.taps_cur (v : List Tap) : ((Act.taps v).apply s).cur = s.cur := rfl
@[simp] theorem Act.watches_ac (v : List Watch) : ((Act.watches v).apply s).ac = s.ac := rfl
@[simp] theorem Act.watches_mem (v : List Watch) : ((Act.watches v).apply s).mem = s.mem := rfl
@[simp] theorem Act.watches_warps (v : List Watch) : ((Act.watches v).apply s).warps = s.warps := rfl
@[simp] theorem Act.watches_gangs (v : List Watch) : ((Act.watches v).apply s).gangs = s.gangs := rfl
@[simp] theorem Act.watches_launches (v : List Watch) : ((Act.watches v).apply s).launches = s.launches := rfl
@[simp] theorem Act.watches_scheds (v : List Watch) : ((Act.watches v).apply s).scheds = s.scheds := rfl
@[simp] theorem Act.watches_ops (v : List Watch) : ((Act.watches v).apply s).ops = s.ops := rfl
@[simp] theorem Act.watches_cmds (v : List Watch) : ((Act.watches v).apply s).cmds = s.cmds := rfl
@[simp] theorem Act.watches_boxes (v : List Watch) : ((Act.watches v).apply s).boxes = s.boxes := rfl
@[simp] theorem Act.watches_boot (v : List Watch) : ((Act.watches v).apply s).boot = s.boot := rfl
@[simp] theorem Act.watches_agenda (v : List Watch) : ((Act.watches v).apply s).agenda = s.agenda := rfl
@[simp] theorem Act.watches_cur (v : List Watch) : ((Act.watches v).apply s).cur = s.cur := rfl
@[simp] theorem Act.graph_ac (i : Nat) (g : Graph) : ((Act.graph i g).apply s).ac = s.ac := rfl
@[simp] theorem Act.graph_mem (i : Nat) (g : Graph) : ((Act.graph i g).apply s).mem = s.mem := rfl
@[simp] theorem Act.graph_warps (i : Nat) (g : Graph) : ((Act.graph i g).apply s).warps = s.warps := rfl
@[simp] theorem Act.graph_gangs (i : Nat) (g : Graph) : ((Act.graph i g).apply s).gangs = s.gangs := rfl
@[simp] theorem Act.graph_launches (i : Nat) (g : Graph) : ((Act.graph i g).apply s).launches = s.launches := rfl
@[simp] theorem Act.graph_scheds (i : Nat) (g : Graph) : ((Act.graph i g).apply s).scheds = s.scheds := rfl
@[simp] theorem Act.graph_ops (i : Nat) (g : Graph) : ((Act.graph i g).apply s).ops = s.ops := rfl
@[simp] theorem Act.graph_cmds (i : Nat) (g : Graph) : ((Act.graph i g).apply s).cmds = s.cmds := rfl
@[simp] theorem Act.graph_boxes (i : Nat) (g : Graph) : ((Act.graph i g).apply s).boxes = s.boxes := rfl
@[simp] theorem Act.graph_boot (i : Nat) (g : Graph) : ((Act.graph i g).apply s).boot = s.boot := rfl
@[simp] theorem Act.graph_agenda (i : Nat) (g : Graph) : ((Act.graph i g).apply s).agenda = s.agenda := rfl
@[simp] theorem Act.graph_cur (i : Nat) (g : Graph) : ((Act.graph i g).apply s).cur = s.cur := rfl
@[simp] theorem Act.inst_ac (i : Nat) (x : Inst) : ((Act.inst i x).apply s).ac = s.ac := rfl
@[simp] theorem Act.inst_mem (i : Nat) (x : Inst) : ((Act.inst i x).apply s).mem = s.mem := rfl
@[simp] theorem Act.inst_warps (i : Nat) (x : Inst) : ((Act.inst i x).apply s).warps = s.warps := rfl
@[simp] theorem Act.inst_gangs (i : Nat) (x : Inst) : ((Act.inst i x).apply s).gangs = s.gangs := rfl
@[simp] theorem Act.inst_launches (i : Nat) (x : Inst) : ((Act.inst i x).apply s).launches = s.launches := rfl
@[simp] theorem Act.inst_scheds (i : Nat) (x : Inst) : ((Act.inst i x).apply s).scheds = s.scheds := rfl
@[simp] theorem Act.inst_ops (i : Nat) (x : Inst) : ((Act.inst i x).apply s).ops = s.ops := rfl
@[simp] theorem Act.inst_cmds (i : Nat) (x : Inst) : ((Act.inst i x).apply s).cmds = s.cmds := rfl
@[simp] theorem Act.inst_boxes (i : Nat) (x : Inst) : ((Act.inst i x).apply s).boxes = s.boxes := rfl
@[simp] theorem Act.inst_boot (i : Nat) (x : Inst) : ((Act.inst i x).apply s).boot = s.boot := rfl
@[simp] theorem Act.inst_agenda (i : Nat) (x : Inst) : ((Act.inst i x).apply s).agenda = s.agenda := rfl
@[simp] theorem Act.inst_cur (i : Nat) (x : Inst) : ((Act.inst i x).apply s).cur = s.cur := rfl
@[simp] theorem Act.group_ac (i : Nat) (g : Group) : ((Act.group i g).apply s).ac = s.ac := rfl
@[simp] theorem Act.group_mem (i : Nat) (g : Group) : ((Act.group i g).apply s).mem = s.mem := rfl
@[simp] theorem Act.group_warps (i : Nat) (g : Group) : ((Act.group i g).apply s).warps = s.warps := rfl
@[simp] theorem Act.group_gangs (i : Nat) (g : Group) : ((Act.group i g).apply s).gangs = s.gangs := rfl
@[simp] theorem Act.group_launches (i : Nat) (g : Group) : ((Act.group i g).apply s).launches = s.launches := rfl
@[simp] theorem Act.group_scheds (i : Nat) (g : Group) : ((Act.group i g).apply s).scheds = s.scheds := rfl
@[simp] theorem Act.group_ops (i : Nat) (g : Group) : ((Act.group i g).apply s).ops = s.ops := rfl
@[simp] theorem Act.group_cmds (i : Nat) (g : Group) : ((Act.group i g).apply s).cmds = s.cmds := rfl
@[simp] theorem Act.group_boxes (i : Nat) (g : Group) : ((Act.group i g).apply s).boxes = s.boxes := rfl
@[simp] theorem Act.group_boot (i : Nat) (g : Group) : ((Act.group i g).apply s).boot = s.boot := rfl
@[simp] theorem Act.group_agenda (i : Nat) (g : Group) : ((Act.group i g).apply s).agenda = s.agenda := rfl
@[simp] theorem Act.group_cur (i : Nat) (g : Group) : ((Act.group i g).apply s).cur = s.cur := rfl
@[simp] theorem Act.box_ac (i : Nat) (b : Mailbox) : ((Act.box i b).apply s).ac = s.ac := rfl
@[simp] theorem Act.box_mem (i : Nat) (b : Mailbox) : ((Act.box i b).apply s).mem = s.mem := rfl
@[simp] theorem Act.box_warps (i : Nat) (b : Mailbox) : ((Act.box i b).apply s).warps = s.warps := rfl
@[simp] theorem Act.box_gangs (i : Nat) (b : Mailbox) : ((Act.box i b).apply s).gangs = s.gangs := rfl
@[simp] theorem Act.box_launches (i : Nat) (b : Mailbox) : ((Act.box i b).apply s).launches = s.launches := rfl
@[simp] theorem Act.box_scheds (i : Nat) (b : Mailbox) : ((Act.box i b).apply s).scheds = s.scheds := rfl
@[simp] theorem Act.box_ops (i : Nat) (b : Mailbox) : ((Act.box i b).apply s).ops = s.ops := rfl
@[simp] theorem Act.box_cmds (i : Nat) (b : Mailbox) : ((Act.box i b).apply s).cmds = s.cmds := rfl
@[simp] theorem Act.box_boxes (i : Nat) (b : Mailbox) : ((Act.box i b).apply s).boxes = Keyed.put s.boxes i b := rfl
@[simp] theorem Act.box_boot (i : Nat) (b : Mailbox) : ((Act.box i b).apply s).boot = s.boot := rfl
@[simp] theorem Act.box_agenda (i : Nat) (b : Mailbox) : ((Act.box i b).apply s).agenda = s.agenda := rfl
@[simp] theorem Act.box_cur (i : Nat) (b : Mailbox) : ((Act.box i b).apply s).cur = s.cur := rfl
@[simp] theorem Act.stops_ac (v : List Stop) : ((Act.stops v).apply s).ac = s.ac := rfl
@[simp] theorem Act.stops_mem (v : List Stop) : ((Act.stops v).apply s).mem = s.mem := rfl
@[simp] theorem Act.stops_warps (v : List Stop) : ((Act.stops v).apply s).warps = s.warps := rfl
@[simp] theorem Act.stops_gangs (v : List Stop) : ((Act.stops v).apply s).gangs = s.gangs := rfl
@[simp] theorem Act.stops_launches (v : List Stop) : ((Act.stops v).apply s).launches = s.launches := rfl
@[simp] theorem Act.stops_scheds (v : List Stop) : ((Act.stops v).apply s).scheds = s.scheds := rfl
@[simp] theorem Act.stops_ops (v : List Stop) : ((Act.stops v).apply s).ops = s.ops := rfl
@[simp] theorem Act.stops_cmds (v : List Stop) : ((Act.stops v).apply s).cmds = s.cmds := rfl
@[simp] theorem Act.stops_boxes (v : List Stop) : ((Act.stops v).apply s).boxes = s.boxes := rfl
@[simp] theorem Act.stops_boot (v : List Stop) : ((Act.stops v).apply s).boot = s.boot := rfl
@[simp] theorem Act.stops_agenda (v : List Stop) : ((Act.stops v).apply s).agenda = s.agenda := rfl
@[simp] theorem Act.stops_cur (v : List Stop) : ((Act.stops v).apply s).cur = s.cur := rfl
@[simp] theorem Act.irq_ac (f : HostFn) (v : Nat) : ((Act.irq f v).apply s).ac = s.ac := rfl
@[simp] theorem Act.irq_mem (f : HostFn) (v : Nat) : ((Act.irq f v).apply s).mem = s.mem := rfl
@[simp] theorem Act.irq_warps (f : HostFn) (v : Nat) : ((Act.irq f v).apply s).warps = s.warps := rfl
@[simp] theorem Act.irq_gangs (f : HostFn) (v : Nat) : ((Act.irq f v).apply s).gangs = s.gangs := rfl
@[simp] theorem Act.irq_launches (f : HostFn) (v : Nat) : ((Act.irq f v).apply s).launches = s.launches := rfl
@[simp] theorem Act.irq_scheds (f : HostFn) (v : Nat) : ((Act.irq f v).apply s).scheds = s.scheds := rfl
@[simp] theorem Act.irq_ops (f : HostFn) (v : Nat) : ((Act.irq f v).apply s).ops = s.ops := rfl
@[simp] theorem Act.irq_cmds (f : HostFn) (v : Nat) : ((Act.irq f v).apply s).cmds = s.cmds := rfl
@[simp] theorem Act.irq_boxes (f : HostFn) (v : Nat) : ((Act.irq f v).apply s).boxes = s.boxes := rfl
@[simp] theorem Act.irq_boot (f : HostFn) (v : Nat) : ((Act.irq f v).apply s).boot = s.boot := rfl
@[simp] theorem Act.irq_agenda (f : HostFn) (v : Nat) : ((Act.irq f v).apply s).agenda = s.agenda := rfl
@[simp] theorem Act.irq_cur (f : HostFn) (v : Nat) : ((Act.irq f v).apply s).cur = s.cur := rfl
@[simp] theorem Act.agenda_ac (v : List Instr) : ((Act.agenda v).apply s).ac = s.ac := rfl
@[simp] theorem Act.agenda_mem (v : List Instr) : ((Act.agenda v).apply s).mem = s.mem := rfl
@[simp] theorem Act.agenda_warps (v : List Instr) : ((Act.agenda v).apply s).warps = s.warps := rfl
@[simp] theorem Act.agenda_gangs (v : List Instr) : ((Act.agenda v).apply s).gangs = s.gangs := rfl
@[simp] theorem Act.agenda_launches (v : List Instr) : ((Act.agenda v).apply s).launches = s.launches := rfl
@[simp] theorem Act.agenda_scheds (v : List Instr) : ((Act.agenda v).apply s).scheds = s.scheds := rfl
@[simp] theorem Act.agenda_ops (v : List Instr) : ((Act.agenda v).apply s).ops = s.ops := rfl
@[simp] theorem Act.agenda_cmds (v : List Instr) : ((Act.agenda v).apply s).cmds = s.cmds := rfl
@[simp] theorem Act.agenda_boxes (v : List Instr) : ((Act.agenda v).apply s).boxes = s.boxes := rfl
@[simp] theorem Act.agenda_boot (v : List Instr) : ((Act.agenda v).apply s).boot = s.boot := rfl
@[simp] theorem Act.agenda_agenda (v : List Instr) : ((Act.agenda v).apply s).agenda = v := rfl
@[simp] theorem Act.agenda_cur (v : List Instr) : ((Act.agenda v).apply s).cur = s.cur := rfl
@[simp] theorem Act.turns_ac (v : List Nat) : ((Act.turns v).apply s).ac = s.ac := rfl
@[simp] theorem Act.turns_mem (v : List Nat) : ((Act.turns v).apply s).mem = s.mem := rfl
@[simp] theorem Act.turns_warps (v : List Nat) : ((Act.turns v).apply s).warps = s.warps := rfl
@[simp] theorem Act.turns_gangs (v : List Nat) : ((Act.turns v).apply s).gangs = s.gangs := rfl
@[simp] theorem Act.turns_launches (v : List Nat) : ((Act.turns v).apply s).launches = s.launches := rfl
@[simp] theorem Act.turns_scheds (v : List Nat) : ((Act.turns v).apply s).scheds = s.scheds := rfl
@[simp] theorem Act.turns_ops (v : List Nat) : ((Act.turns v).apply s).ops = s.ops := rfl
@[simp] theorem Act.turns_cmds (v : List Nat) : ((Act.turns v).apply s).cmds = s.cmds := rfl
@[simp] theorem Act.turns_boxes (v : List Nat) : ((Act.turns v).apply s).boxes = s.boxes := rfl
@[simp] theorem Act.turns_boot (v : List Nat) : ((Act.turns v).apply s).boot = s.boot := rfl
@[simp] theorem Act.turns_agenda (v : List Nat) : ((Act.turns v).apply s).agenda = s.agenda := rfl
@[simp] theorem Act.turns_cur (v : List Nat) : ((Act.turns v).apply s).cur = s.cur := rfl
@[simp] theorem Act.bundle_ac (v : List Slot) : ((Act.bundle v).apply s).ac = s.ac := rfl
@[simp] theorem Act.bundle_mem (v : List Slot) : ((Act.bundle v).apply s).mem = s.mem := rfl
@[simp] theorem Act.bundle_warps (v : List Slot) : ((Act.bundle v).apply s).warps = s.warps := rfl
@[simp] theorem Act.bundle_gangs (v : List Slot) : ((Act.bundle v).apply s).gangs = s.gangs := rfl
@[simp] theorem Act.bundle_launches (v : List Slot) : ((Act.bundle v).apply s).launches = s.launches := rfl
@[simp] theorem Act.bundle_scheds (v : List Slot) : ((Act.bundle v).apply s).scheds = s.scheds := rfl
@[simp] theorem Act.bundle_ops (v : List Slot) : ((Act.bundle v).apply s).ops = s.ops := rfl
@[simp] theorem Act.bundle_cmds (v : List Slot) : ((Act.bundle v).apply s).cmds = s.cmds := rfl
@[simp] theorem Act.bundle_boxes (v : List Slot) : ((Act.bundle v).apply s).boxes = s.boxes := rfl
@[simp] theorem Act.bundle_boot (v : List Slot) : ((Act.bundle v).apply s).boot = s.boot := rfl
@[simp] theorem Act.bundle_agenda (v : List Slot) : ((Act.bundle v).apply s).agenda = s.agenda := rfl
@[simp] theorem Act.bundle_cur (v : List Slot) : ((Act.bundle v).apply s).cur = s.cur := rfl
@[simp] theorem Act.cur_ac (c : Issue) : ((Act.cur c).apply s).ac = s.ac := rfl
@[simp] theorem Act.cur_mem (c : Issue) : ((Act.cur c).apply s).mem = s.mem := rfl
@[simp] theorem Act.cur_warps (c : Issue) : ((Act.cur c).apply s).warps = s.warps := rfl
@[simp] theorem Act.cur_gangs (c : Issue) : ((Act.cur c).apply s).gangs = s.gangs := rfl
@[simp] theorem Act.cur_launches (c : Issue) : ((Act.cur c).apply s).launches = s.launches := rfl
@[simp] theorem Act.cur_scheds (c : Issue) : ((Act.cur c).apply s).scheds = s.scheds := rfl
@[simp] theorem Act.cur_ops (c : Issue) : ((Act.cur c).apply s).ops = s.ops := rfl
@[simp] theorem Act.cur_cmds (c : Issue) : ((Act.cur c).apply s).cmds = s.cmds := rfl
@[simp] theorem Act.cur_boxes (c : Issue) : ((Act.cur c).apply s).boxes = s.boxes := rfl
@[simp] theorem Act.cur_boot (c : Issue) : ((Act.cur c).apply s).boot = s.boot := rfl
@[simp] theorem Act.cur_agenda (c : Issue) : ((Act.cur c).apply s).agenda = s.agenda := rfl
@[simp] theorem Act.cur_cur (c : Issue) : ((Act.cur c).apply s).cur = c := rfl
@[simp] theorem Act.free_ac (n : Nat) : ((Act.free n).apply s).ac = s.ac := rfl
@[simp] theorem Act.free_mem (n : Nat) : ((Act.free n).apply s).mem = s.mem := rfl
@[simp] theorem Act.free_warps (n : Nat) : ((Act.free n).apply s).warps = s.warps := rfl
@[simp] theorem Act.free_gangs (n : Nat) : ((Act.free n).apply s).gangs = s.gangs := rfl
@[simp] theorem Act.free_launches (n : Nat) : ((Act.free n).apply s).launches = s.launches := rfl
@[simp] theorem Act.free_scheds (n : Nat) : ((Act.free n).apply s).scheds = s.scheds := rfl
@[simp] theorem Act.free_ops (n : Nat) : ((Act.free n).apply s).ops = s.ops := rfl
@[simp] theorem Act.free_cmds (n : Nat) : ((Act.free n).apply s).cmds = s.cmds := rfl
@[simp] theorem Act.free_boxes (n : Nat) : ((Act.free n).apply s).boxes = s.boxes := rfl
@[simp] theorem Act.free_boot (n : Nat) : ((Act.free n).apply s).boot = s.boot := rfl
@[simp] theorem Act.free_agenda (n : Nat) : ((Act.free n).apply s).agenda = s.agenda := rfl
@[simp] theorem Act.free_cur (n : Nat) : ((Act.free n).apply s).cur = s.cur := rfl
@[simp] theorem Act.choices_ac (v : List Bool) : ((Act.choices v).apply s).ac = s.ac := rfl
@[simp] theorem Act.choices_mem (v : List Bool) : ((Act.choices v).apply s).mem = s.mem := rfl
@[simp] theorem Act.choices_warps (v : List Bool) : ((Act.choices v).apply s).warps = s.warps := rfl
@[simp] theorem Act.choices_gangs (v : List Bool) : ((Act.choices v).apply s).gangs = s.gangs := rfl
@[simp] theorem Act.choices_launches (v : List Bool) : ((Act.choices v).apply s).launches = s.launches := rfl
@[simp] theorem Act.choices_scheds (v : List Bool) : ((Act.choices v).apply s).scheds = s.scheds := rfl
@[simp] theorem Act.choices_ops (v : List Bool) : ((Act.choices v).apply s).ops = s.ops := rfl
@[simp] theorem Act.choices_cmds (v : List Bool) : ((Act.choices v).apply s).cmds = s.cmds := rfl
@[simp] theorem Act.choices_boxes (v : List Bool) : ((Act.choices v).apply s).boxes = s.boxes := rfl
@[simp] theorem Act.choices_boot (v : List Bool) : ((Act.choices v).apply s).boot = s.boot := rfl
@[simp] theorem Act.choices_agenda (v : List Bool) : ((Act.choices v).apply s).agenda = s.agenda := rfl
@[simp] theorem Act.choices_cur (v : List Bool) : ((Act.choices v).apply s).cur = s.cur := rfl
@[simp] theorem Act.delays_ac (v : List Nat) : ((Act.delays v).apply s).ac = s.ac := rfl
@[simp] theorem Act.delays_mem (v : List Nat) : ((Act.delays v).apply s).mem = s.mem := rfl
@[simp] theorem Act.delays_warps (v : List Nat) : ((Act.delays v).apply s).warps = s.warps := rfl
@[simp] theorem Act.delays_gangs (v : List Nat) : ((Act.delays v).apply s).gangs = s.gangs := rfl
@[simp] theorem Act.delays_launches (v : List Nat) : ((Act.delays v).apply s).launches = s.launches := rfl
@[simp] theorem Act.delays_scheds (v : List Nat) : ((Act.delays v).apply s).scheds = s.scheds := rfl
@[simp] theorem Act.delays_ops (v : List Nat) : ((Act.delays v).apply s).ops = s.ops := rfl
@[simp] theorem Act.delays_cmds (v : List Nat) : ((Act.delays v).apply s).cmds = s.cmds := rfl
@[simp] theorem Act.delays_boxes (v : List Nat) : ((Act.delays v).apply s).boxes = s.boxes := rfl
@[simp] theorem Act.delays_boot (v : List Nat) : ((Act.delays v).apply s).boot = s.boot := rfl
@[simp] theorem Act.delays_agenda (v : List Nat) : ((Act.delays v).apply s).agenda = s.agenda := rfl
@[simp] theorem Act.delays_cur (v : List Nat) : ((Act.delays v).apply s).cur = s.cur := rfl

@[simp] theorem Sys.time_ac (a f p : Nat) : ((Sys.time a f p).apply s).ac = a := rfl
@[simp] theorem Sys.time_mem (a f p : Nat) : ((Sys.time a f p).apply s).mem = s.mem := rfl
@[simp] theorem Sys.time_warps (a f p : Nat) : ((Sys.time a f p).apply s).warps = s.warps := rfl
@[simp] theorem Sys.time_gangs (a f p : Nat) : ((Sys.time a f p).apply s).gangs = s.gangs := rfl
@[simp] theorem Sys.time_launches (a f p : Nat) : ((Sys.time a f p).apply s).launches = s.launches := rfl
@[simp] theorem Sys.time_scheds (a f p : Nat) : ((Sys.time a f p).apply s).scheds = s.scheds := rfl
@[simp] theorem Sys.time_ops (a f p : Nat) : ((Sys.time a f p).apply s).ops = s.ops := rfl
@[simp] theorem Sys.time_cmds (a f p : Nat) : ((Sys.time a f p).apply s).cmds = s.cmds := rfl
@[simp] theorem Sys.time_boxes (a f p : Nat) : ((Sys.time a f p).apply s).boxes = s.boxes := rfl
@[simp] theorem Sys.time_boot (a f p : Nat) : ((Sys.time a f p).apply s).boot = s.boot := rfl
@[simp] theorem Sys.time_agenda (a f p : Nat) : ((Sys.time a f p).apply s).agenda = s.agenda := rfl
@[simp] theorem Sys.time_cur (a f p : Nat) : ((Sys.time a f p).apply s).cur = s.cur := rfl
@[simp] theorem Sys.boot_ac (b : Boot) : ((Sys.boot b).apply s).ac = s.ac := rfl
@[simp] theorem Sys.boot_mem (b : Boot) : ((Sys.boot b).apply s).mem = s.mem := rfl
@[simp] theorem Sys.boot_warps (b : Boot) : ((Sys.boot b).apply s).warps = s.warps := rfl
@[simp] theorem Sys.boot_gangs (b : Boot) : ((Sys.boot b).apply s).gangs = s.gangs := rfl
@[simp] theorem Sys.boot_launches (b : Boot) : ((Sys.boot b).apply s).launches = s.launches := rfl
@[simp] theorem Sys.boot_scheds (b : Boot) : ((Sys.boot b).apply s).scheds = s.scheds := rfl
@[simp] theorem Sys.boot_ops (b : Boot) : ((Sys.boot b).apply s).ops = s.ops := rfl
@[simp] theorem Sys.boot_cmds (b : Boot) : ((Sys.boot b).apply s).cmds = s.cmds := rfl
@[simp] theorem Sys.boot_boxes (b : Boot) : ((Sys.boot b).apply s).boxes = s.boxes := rfl
@[simp] theorem Sys.boot_boot (b : Boot) : ((Sys.boot b).apply s).boot = b := rfl
@[simp] theorem Sys.boot_agenda (b : Boot) : ((Sys.boot b).apply s).agenda = s.agenda := rfl
@[simp] theorem Sys.boot_cur (b : Boot) : ((Sys.boot b).apply s).cur = s.cur := rfl
@[simp] theorem Sys.config_ac (c : DevConfig) : ((Sys.config c).apply s).ac = s.ac := rfl
@[simp] theorem Sys.config_mem (c : DevConfig) : ((Sys.config c).apply s).mem = s.mem := rfl
@[simp] theorem Sys.config_warps (c : DevConfig) : ((Sys.config c).apply s).warps = s.warps := rfl
@[simp] theorem Sys.config_gangs (c : DevConfig) : ((Sys.config c).apply s).gangs = s.gangs := rfl
@[simp] theorem Sys.config_launches (c : DevConfig) : ((Sys.config c).apply s).launches = s.launches := rfl
@[simp] theorem Sys.config_scheds (c : DevConfig) : ((Sys.config c).apply s).scheds = s.scheds := rfl
@[simp] theorem Sys.config_ops (c : DevConfig) : ((Sys.config c).apply s).ops = s.ops := rfl
@[simp] theorem Sys.config_cmds (c : DevConfig) : ((Sys.config c).apply s).cmds = s.cmds := rfl
@[simp] theorem Sys.config_boxes (c : DevConfig) : ((Sys.config c).apply s).boxes = s.boxes := rfl
@[simp] theorem Sys.config_boot (c : DevConfig) : ((Sys.config c).apply s).boot = s.boot := rfl
@[simp] theorem Sys.config_agenda (c : DevConfig) : ((Sys.config c).apply s).agenda = s.agenda := rfl
@[simp] theorem Sys.config_cur (c : DevConfig) : ((Sys.config c).apply s).cur = s.cur := rfl
@[simp] theorem Sys.owner_ac (t : Nat) (e : OwnerEntry) : ((Sys.owner t e).apply s).ac = s.ac := rfl
@[simp] theorem Sys.owner_mem (t : Nat) (e : OwnerEntry) : ((Sys.owner t e).apply s).mem = s.mem := rfl
@[simp] theorem Sys.owner_warps (t : Nat) (e : OwnerEntry) : ((Sys.owner t e).apply s).warps = s.warps := rfl
@[simp] theorem Sys.owner_gangs (t : Nat) (e : OwnerEntry) : ((Sys.owner t e).apply s).gangs = s.gangs := rfl
@[simp] theorem Sys.owner_launches (t : Nat) (e : OwnerEntry) : ((Sys.owner t e).apply s).launches = s.launches := rfl
@[simp] theorem Sys.owner_scheds (t : Nat) (e : OwnerEntry) : ((Sys.owner t e).apply s).scheds = s.scheds := rfl
@[simp] theorem Sys.owner_ops (t : Nat) (e : OwnerEntry) : ((Sys.owner t e).apply s).ops = s.ops := rfl
@[simp] theorem Sys.owner_cmds (t : Nat) (e : OwnerEntry) : ((Sys.owner t e).apply s).cmds = s.cmds := rfl
@[simp] theorem Sys.owner_boxes (t : Nat) (e : OwnerEntry) : ((Sys.owner t e).apply s).boxes = s.boxes := rfl
@[simp] theorem Sys.owner_boot (t : Nat) (e : OwnerEntry) : ((Sys.owner t e).apply s).boot = s.boot := rfl
@[simp] theorem Sys.owner_agenda (t : Nat) (e : OwnerEntry) : ((Sys.owner t e).apply s).agenda = s.agenda := rfl
@[simp] theorem Sys.owner_cur (t : Nat) (e : OwnerEntry) : ((Sys.owner t e).apply s).cur = s.cur := rfl
@[simp] theorem Sys.vf_ac (n : Nat) (v : Vf) : ((Sys.vf n v).apply s).ac = s.ac := rfl
@[simp] theorem Sys.vf_mem (n : Nat) (v : Vf) : ((Sys.vf n v).apply s).mem = s.mem := rfl
@[simp] theorem Sys.vf_warps (n : Nat) (v : Vf) : ((Sys.vf n v).apply s).warps = s.warps := rfl
@[simp] theorem Sys.vf_gangs (n : Nat) (v : Vf) : ((Sys.vf n v).apply s).gangs = s.gangs := rfl
@[simp] theorem Sys.vf_launches (n : Nat) (v : Vf) : ((Sys.vf n v).apply s).launches = s.launches := rfl
@[simp] theorem Sys.vf_scheds (n : Nat) (v : Vf) : ((Sys.vf n v).apply s).scheds = s.scheds := rfl
@[simp] theorem Sys.vf_ops (n : Nat) (v : Vf) : ((Sys.vf n v).apply s).ops = s.ops := rfl
@[simp] theorem Sys.vf_cmds (n : Nat) (v : Vf) : ((Sys.vf n v).apply s).cmds = s.cmds := rfl
@[simp] theorem Sys.vf_boxes (n : Nat) (v : Vf) : ((Sys.vf n v).apply s).boxes = s.boxes := rfl
@[simp] theorem Sys.vf_boot (n : Nat) (v : Vf) : ((Sys.vf n v).apply s).boot = s.boot := rfl
@[simp] theorem Sys.vf_agenda (n : Nat) (v : Vf) : ((Sys.vf n v).apply s).agenda = s.agenda := rfl
@[simp] theorem Sys.vf_cur (n : Nat) (v : Vf) : ((Sys.vf n v).apply s).cur = s.cur := rfl
@[simp] theorem Sys.noVf_ac (n : Nat) : ((Sys.noVf n).apply s).ac = s.ac := rfl
@[simp] theorem Sys.noVf_mem (n : Nat) : ((Sys.noVf n).apply s).mem = s.mem := rfl
@[simp] theorem Sys.noVf_warps (n : Nat) : ((Sys.noVf n).apply s).warps = s.warps := rfl
@[simp] theorem Sys.noVf_gangs (n : Nat) : ((Sys.noVf n).apply s).gangs = s.gangs := rfl
@[simp] theorem Sys.noVf_launches (n : Nat) : ((Sys.noVf n).apply s).launches = s.launches := rfl
@[simp] theorem Sys.noVf_scheds (n : Nat) : ((Sys.noVf n).apply s).scheds = s.scheds := rfl
@[simp] theorem Sys.noVf_ops (n : Nat) : ((Sys.noVf n).apply s).ops = s.ops := rfl
@[simp] theorem Sys.noVf_cmds (n : Nat) : ((Sys.noVf n).apply s).cmds = s.cmds := rfl
@[simp] theorem Sys.noVf_boxes (n : Nat) : ((Sys.noVf n).apply s).boxes = s.boxes := rfl
@[simp] theorem Sys.noVf_boot (n : Nat) : ((Sys.noVf n).apply s).boot = s.boot := rfl
@[simp] theorem Sys.noVf_agenda (n : Nat) : ((Sys.noVf n).apply s).agenda = s.agenda := rfl
@[simp] theorem Sys.noVf_cur (n : Nat) : ((Sys.noVf n).apply s).cur = s.cur := rfl
@[simp] theorem Sys.mktTag_ac (g : Nat) (t : Nat) : ((Sys.mktTag g t).apply s).ac = s.ac := rfl
@[simp] theorem Sys.mktTag_mem (g : Nat) (t : Nat) : ((Sys.mktTag g t).apply s).mem = s.mem := rfl
@[simp] theorem Sys.mktTag_warps (g : Nat) (t : Nat) : ((Sys.mktTag g t).apply s).warps = s.warps := rfl
@[simp] theorem Sys.mktTag_gangs (g : Nat) (t : Nat) : ((Sys.mktTag g t).apply s).gangs = s.gangs := rfl
@[simp] theorem Sys.mktTag_launches (g : Nat) (t : Nat) : ((Sys.mktTag g t).apply s).launches = s.launches := rfl
@[simp] theorem Sys.mktTag_scheds (g : Nat) (t : Nat) : ((Sys.mktTag g t).apply s).scheds = s.scheds := rfl
@[simp] theorem Sys.mktTag_ops (g : Nat) (t : Nat) : ((Sys.mktTag g t).apply s).ops = s.ops := rfl
@[simp] theorem Sys.mktTag_cmds (g : Nat) (t : Nat) : ((Sys.mktTag g t).apply s).cmds = s.cmds := rfl
@[simp] theorem Sys.mktTag_boxes (g : Nat) (t : Nat) : ((Sys.mktTag g t).apply s).boxes = s.boxes := rfl
@[simp] theorem Sys.mktTag_boot (g : Nat) (t : Nat) : ((Sys.mktTag g t).apply s).boot = s.boot := rfl
@[simp] theorem Sys.mktTag_agenda (g : Nat) (t : Nat) : ((Sys.mktTag g t).apply s).agenda = s.agenda := rfl
@[simp] theorem Sys.mktTag_cur (g : Nat) (t : Nat) : ((Sys.mktTag g t).apply s).cur = s.cur := rfl
@[simp] theorem Sys.semaphores_ac (v : List (Option Bool)) : ((Sys.semaphores v).apply s).ac = s.ac := rfl
@[simp] theorem Sys.semaphores_mem (v : List (Option Bool)) : ((Sys.semaphores v).apply s).mem = s.mem := rfl
@[simp] theorem Sys.semaphores_warps (v : List (Option Bool)) : ((Sys.semaphores v).apply s).warps = s.warps := rfl
@[simp] theorem Sys.semaphores_gangs (v : List (Option Bool)) : ((Sys.semaphores v).apply s).gangs = s.gangs := rfl
@[simp] theorem Sys.semaphores_launches (v : List (Option Bool)) : ((Sys.semaphores v).apply s).launches = s.launches := rfl
@[simp] theorem Sys.semaphores_scheds (v : List (Option Bool)) : ((Sys.semaphores v).apply s).scheds = s.scheds := rfl
@[simp] theorem Sys.semaphores_ops (v : List (Option Bool)) : ((Sys.semaphores v).apply s).ops = s.ops := rfl
@[simp] theorem Sys.semaphores_cmds (v : List (Option Bool)) : ((Sys.semaphores v).apply s).cmds = s.cmds := rfl
@[simp] theorem Sys.semaphores_boxes (v : List (Option Bool)) : ((Sys.semaphores v).apply s).boxes = s.boxes := rfl
@[simp] theorem Sys.semaphores_boot (v : List (Option Bool)) : ((Sys.semaphores v).apply s).boot = s.boot := rfl
@[simp] theorem Sys.semaphores_agenda (v : List (Option Bool)) : ((Sys.semaphores v).apply s).agenda = s.agenda := rfl
@[simp] theorem Sys.semaphores_cur (v : List (Option Bool)) : ((Sys.semaphores v).apply s).cur = s.cur := rfl
@[simp] theorem Sys.hdm_ac (v : List Nat) : ((Sys.hdm v).apply s).ac = s.ac := rfl
@[simp] theorem Sys.hdm_mem (v : List Nat) : ((Sys.hdm v).apply s).mem = s.mem := rfl
@[simp] theorem Sys.hdm_warps (v : List Nat) : ((Sys.hdm v).apply s).warps = s.warps := rfl
@[simp] theorem Sys.hdm_gangs (v : List Nat) : ((Sys.hdm v).apply s).gangs = s.gangs := rfl
@[simp] theorem Sys.hdm_launches (v : List Nat) : ((Sys.hdm v).apply s).launches = s.launches := rfl
@[simp] theorem Sys.hdm_scheds (v : List Nat) : ((Sys.hdm v).apply s).scheds = s.scheds := rfl
@[simp] theorem Sys.hdm_ops (v : List Nat) : ((Sys.hdm v).apply s).ops = s.ops := rfl
@[simp] theorem Sys.hdm_cmds (v : List Nat) : ((Sys.hdm v).apply s).cmds = s.cmds := rfl
@[simp] theorem Sys.hdm_boxes (v : List Nat) : ((Sys.hdm v).apply s).boxes = s.boxes := rfl
@[simp] theorem Sys.hdm_boot (v : List Nat) : ((Sys.hdm v).apply s).boot = s.boot := rfl
@[simp] theorem Sys.hdm_agenda (v : List Nat) : ((Sys.hdm v).apply s).agenda = s.agenda := rfl
@[simp] theorem Sys.hdm_cur (v : List Nat) : ((Sys.hdm v).apply s).cur = s.cur := rfl
@[simp] theorem Sys.hostRefuses_ac (p : Nat) (b : Bool) : ((Sys.hostRefuses p b).apply s).ac = s.ac := rfl
@[simp] theorem Sys.hostRefuses_mem (p : Nat) (b : Bool) : ((Sys.hostRefuses p b).apply s).mem = s.mem := rfl
@[simp] theorem Sys.hostRefuses_warps (p : Nat) (b : Bool) : ((Sys.hostRefuses p b).apply s).warps = s.warps := rfl
@[simp] theorem Sys.hostRefuses_gangs (p : Nat) (b : Bool) : ((Sys.hostRefuses p b).apply s).gangs = s.gangs := rfl
@[simp] theorem Sys.hostRefuses_launches (p : Nat) (b : Bool) : ((Sys.hostRefuses p b).apply s).launches = s.launches := rfl
@[simp] theorem Sys.hostRefuses_scheds (p : Nat) (b : Bool) : ((Sys.hostRefuses p b).apply s).scheds = s.scheds := rfl
@[simp] theorem Sys.hostRefuses_ops (p : Nat) (b : Bool) : ((Sys.hostRefuses p b).apply s).ops = s.ops := rfl
@[simp] theorem Sys.hostRefuses_cmds (p : Nat) (b : Bool) : ((Sys.hostRefuses p b).apply s).cmds = s.cmds := rfl
@[simp] theorem Sys.hostRefuses_boxes (p : Nat) (b : Bool) : ((Sys.hostRefuses p b).apply s).boxes = s.boxes := rfl
@[simp] theorem Sys.hostRefuses_boot (p : Nat) (b : Bool) : ((Sys.hostRefuses p b).apply s).boot = s.boot := rfl
@[simp] theorem Sys.hostRefuses_agenda (p : Nat) (b : Bool) : ((Sys.hostRefuses p b).apply s).agenda = s.agenda := rfl
@[simp] theorem Sys.hostRefuses_cur (p : Nat) (b : Bool) : ((Sys.hostRefuses p b).apply s).cur = s.cur := rfl
@[simp] theorem Sys.remoteLoaded_ac (k : Nat) (b : Bool) : ((Sys.remoteLoaded k b).apply s).ac = s.ac := rfl
@[simp] theorem Sys.remoteLoaded_mem (k : Nat) (b : Bool) : ((Sys.remoteLoaded k b).apply s).mem = s.mem := rfl
@[simp] theorem Sys.remoteLoaded_warps (k : Nat) (b : Bool) : ((Sys.remoteLoaded k b).apply s).warps = s.warps := rfl
@[simp] theorem Sys.remoteLoaded_gangs (k : Nat) (b : Bool) : ((Sys.remoteLoaded k b).apply s).gangs = s.gangs := rfl
@[simp] theorem Sys.remoteLoaded_launches (k : Nat) (b : Bool) : ((Sys.remoteLoaded k b).apply s).launches = s.launches := rfl
@[simp] theorem Sys.remoteLoaded_scheds (k : Nat) (b : Bool) : ((Sys.remoteLoaded k b).apply s).scheds = s.scheds := rfl
@[simp] theorem Sys.remoteLoaded_ops (k : Nat) (b : Bool) : ((Sys.remoteLoaded k b).apply s).ops = s.ops := rfl
@[simp] theorem Sys.remoteLoaded_cmds (k : Nat) (b : Bool) : ((Sys.remoteLoaded k b).apply s).cmds = s.cmds := rfl
@[simp] theorem Sys.remoteLoaded_boxes (k : Nat) (b : Bool) : ((Sys.remoteLoaded k b).apply s).boxes = s.boxes := rfl
@[simp] theorem Sys.remoteLoaded_boot (k : Nat) (b : Bool) : ((Sys.remoteLoaded k b).apply s).boot = s.boot := rfl
@[simp] theorem Sys.remoteLoaded_agenda (k : Nat) (b : Bool) : ((Sys.remoteLoaded k b).apply s).agenda = s.agenda := rfl
@[simp] theorem Sys.remoteLoaded_cur (k : Nat) (b : Bool) : ((Sys.remoteLoaded k b).apply s).cur = s.cur := rfl
@[simp] theorem Sys.heldLoads_ac (v : List (CmdHeader × Tag × List Byte)) : ((Sys.heldLoads v).apply s).ac = s.ac := rfl
@[simp] theorem Sys.heldLoads_mem (v : List (CmdHeader × Tag × List Byte)) : ((Sys.heldLoads v).apply s).mem = s.mem := rfl
@[simp] theorem Sys.heldLoads_warps (v : List (CmdHeader × Tag × List Byte)) : ((Sys.heldLoads v).apply s).warps = s.warps := rfl
@[simp] theorem Sys.heldLoads_gangs (v : List (CmdHeader × Tag × List Byte)) : ((Sys.heldLoads v).apply s).gangs = s.gangs := rfl
@[simp] theorem Sys.heldLoads_launches (v : List (CmdHeader × Tag × List Byte)) : ((Sys.heldLoads v).apply s).launches = s.launches := rfl
@[simp] theorem Sys.heldLoads_scheds (v : List (CmdHeader × Tag × List Byte)) : ((Sys.heldLoads v).apply s).scheds = s.scheds := rfl
@[simp] theorem Sys.heldLoads_ops (v : List (CmdHeader × Tag × List Byte)) : ((Sys.heldLoads v).apply s).ops = s.ops := rfl
@[simp] theorem Sys.heldLoads_cmds (v : List (CmdHeader × Tag × List Byte)) : ((Sys.heldLoads v).apply s).cmds = s.cmds := rfl
@[simp] theorem Sys.heldLoads_boxes (v : List (CmdHeader × Tag × List Byte)) : ((Sys.heldLoads v).apply s).boxes = s.boxes := rfl
@[simp] theorem Sys.heldLoads_boot (v : List (CmdHeader × Tag × List Byte)) : ((Sys.heldLoads v).apply s).boot = s.boot := rfl
@[simp] theorem Sys.heldLoads_agenda (v : List (CmdHeader × Tag × List Byte)) : ((Sys.heldLoads v).apply s).agenda = s.agenda := rfl
@[simp] theorem Sys.heldLoads_cur (v : List (CmdHeader × Tag × List Byte)) : ((Sys.heldLoads v).apply s).cur = s.cur := rfl
@[simp] theorem Sys.linkRetry_ac (l : Nat) (n : Nat) : ((Sys.linkRetry l n).apply s).ac = s.ac := rfl
@[simp] theorem Sys.linkRetry_mem (l : Nat) (n : Nat) : ((Sys.linkRetry l n).apply s).mem = s.mem := rfl
@[simp] theorem Sys.linkRetry_warps (l : Nat) (n : Nat) : ((Sys.linkRetry l n).apply s).warps = s.warps := rfl
@[simp] theorem Sys.linkRetry_gangs (l : Nat) (n : Nat) : ((Sys.linkRetry l n).apply s).gangs = s.gangs := rfl
@[simp] theorem Sys.linkRetry_launches (l : Nat) (n : Nat) : ((Sys.linkRetry l n).apply s).launches = s.launches := rfl
@[simp] theorem Sys.linkRetry_scheds (l : Nat) (n : Nat) : ((Sys.linkRetry l n).apply s).scheds = s.scheds := rfl
@[simp] theorem Sys.linkRetry_ops (l : Nat) (n : Nat) : ((Sys.linkRetry l n).apply s).ops = s.ops := rfl
@[simp] theorem Sys.linkRetry_cmds (l : Nat) (n : Nat) : ((Sys.linkRetry l n).apply s).cmds = s.cmds := rfl
@[simp] theorem Sys.linkRetry_boxes (l : Nat) (n : Nat) : ((Sys.linkRetry l n).apply s).boxes = s.boxes := rfl
@[simp] theorem Sys.linkRetry_boot (l : Nat) (n : Nat) : ((Sys.linkRetry l n).apply s).boot = s.boot := rfl
@[simp] theorem Sys.linkRetry_agenda (l : Nat) (n : Nat) : ((Sys.linkRetry l n).apply s).agenda = s.agenda := rfl
@[simp] theorem Sys.linkRetry_cur (l : Nat) (n : Nat) : ((Sys.linkRetry l n).apply s).cur = s.cur := rfl
@[simp] theorem Sys.barRead_ac (w : Word) : ((Sys.barRead w).apply s).ac = s.ac := rfl
@[simp] theorem Sys.barRead_mem (w : Word) : ((Sys.barRead w).apply s).mem = s.mem := rfl
@[simp] theorem Sys.barRead_warps (w : Word) : ((Sys.barRead w).apply s).warps = s.warps := rfl
@[simp] theorem Sys.barRead_gangs (w : Word) : ((Sys.barRead w).apply s).gangs = s.gangs := rfl
@[simp] theorem Sys.barRead_launches (w : Word) : ((Sys.barRead w).apply s).launches = s.launches := rfl
@[simp] theorem Sys.barRead_scheds (w : Word) : ((Sys.barRead w).apply s).scheds = s.scheds := rfl
@[simp] theorem Sys.barRead_ops (w : Word) : ((Sys.barRead w).apply s).ops = s.ops := rfl
@[simp] theorem Sys.barRead_cmds (w : Word) : ((Sys.barRead w).apply s).cmds = s.cmds := rfl
@[simp] theorem Sys.barRead_boxes (w : Word) : ((Sys.barRead w).apply s).boxes = s.boxes := rfl
@[simp] theorem Sys.barRead_boot (w : Word) : ((Sys.barRead w).apply s).boot = s.boot := rfl
@[simp] theorem Sys.barRead_agenda (w : Word) : ((Sys.barRead w).apply s).agenda = s.agenda := rfl
@[simp] theorem Sys.barRead_cur (w : Word) : ((Sys.barRead w).apply s).cur = s.cur := rfl
@[simp] theorem Sys.noGraph_ac (i : Nat) : ((Sys.noGraph i).apply s).ac = s.ac := rfl
@[simp] theorem Sys.noGraph_mem (i : Nat) : ((Sys.noGraph i).apply s).mem = s.mem := rfl
@[simp] theorem Sys.noGraph_warps (i : Nat) : ((Sys.noGraph i).apply s).warps = s.warps := rfl
@[simp] theorem Sys.noGraph_gangs (i : Nat) : ((Sys.noGraph i).apply s).gangs = s.gangs := rfl
@[simp] theorem Sys.noGraph_launches (i : Nat) : ((Sys.noGraph i).apply s).launches = s.launches := rfl
@[simp] theorem Sys.noGraph_scheds (i : Nat) : ((Sys.noGraph i).apply s).scheds = s.scheds := rfl
@[simp] theorem Sys.noGraph_ops (i : Nat) : ((Sys.noGraph i).apply s).ops = s.ops := rfl
@[simp] theorem Sys.noGraph_cmds (i : Nat) : ((Sys.noGraph i).apply s).cmds = s.cmds := rfl
@[simp] theorem Sys.noGraph_boxes (i : Nat) : ((Sys.noGraph i).apply s).boxes = s.boxes := rfl
@[simp] theorem Sys.noGraph_boot (i : Nat) : ((Sys.noGraph i).apply s).boot = s.boot := rfl
@[simp] theorem Sys.noGraph_agenda (i : Nat) : ((Sys.noGraph i).apply s).agenda = s.agenda := rfl
@[simp] theorem Sys.noGraph_cur (i : Nat) : ((Sys.noGraph i).apply s).cur = s.cur := rfl
@[simp] theorem Sys.noInst_ac (i : Nat) : ((Sys.noInst i).apply s).ac = s.ac := rfl
@[simp] theorem Sys.noInst_mem (i : Nat) : ((Sys.noInst i).apply s).mem = s.mem := rfl
@[simp] theorem Sys.noInst_warps (i : Nat) : ((Sys.noInst i).apply s).warps = s.warps := rfl
@[simp] theorem Sys.noInst_gangs (i : Nat) : ((Sys.noInst i).apply s).gangs = s.gangs := rfl
@[simp] theorem Sys.noInst_launches (i : Nat) : ((Sys.noInst i).apply s).launches = s.launches := rfl
@[simp] theorem Sys.noInst_scheds (i : Nat) : ((Sys.noInst i).apply s).scheds = s.scheds := rfl
@[simp] theorem Sys.noInst_ops (i : Nat) : ((Sys.noInst i).apply s).ops = s.ops := rfl
@[simp] theorem Sys.noInst_cmds (i : Nat) : ((Sys.noInst i).apply s).cmds = s.cmds := rfl
@[simp] theorem Sys.noInst_boxes (i : Nat) : ((Sys.noInst i).apply s).boxes = s.boxes := rfl
@[simp] theorem Sys.noInst_boot (i : Nat) : ((Sys.noInst i).apply s).boot = s.boot := rfl
@[simp] theorem Sys.noInst_agenda (i : Nat) : ((Sys.noInst i).apply s).agenda = s.agenda := rfl
@[simp] theorem Sys.noInst_cur (i : Nat) : ((Sys.noInst i).apply s).cur = s.cur := rfl
@[simp] theorem Sys.noGroup_ac (i : Nat) : ((Sys.noGroup i).apply s).ac = s.ac := rfl
@[simp] theorem Sys.noGroup_mem (i : Nat) : ((Sys.noGroup i).apply s).mem = s.mem := rfl
@[simp] theorem Sys.noGroup_warps (i : Nat) : ((Sys.noGroup i).apply s).warps = s.warps := rfl
@[simp] theorem Sys.noGroup_gangs (i : Nat) : ((Sys.noGroup i).apply s).gangs = s.gangs := rfl
@[simp] theorem Sys.noGroup_launches (i : Nat) : ((Sys.noGroup i).apply s).launches = s.launches := rfl
@[simp] theorem Sys.noGroup_scheds (i : Nat) : ((Sys.noGroup i).apply s).scheds = s.scheds := rfl
@[simp] theorem Sys.noGroup_ops (i : Nat) : ((Sys.noGroup i).apply s).ops = s.ops := rfl
@[simp] theorem Sys.noGroup_cmds (i : Nat) : ((Sys.noGroup i).apply s).cmds = s.cmds := rfl
@[simp] theorem Sys.noGroup_boxes (i : Nat) : ((Sys.noGroup i).apply s).boxes = s.boxes := rfl
@[simp] theorem Sys.noGroup_boot (i : Nat) : ((Sys.noGroup i).apply s).boot = s.boot := rfl
@[simp] theorem Sys.noGroup_agenda (i : Nat) : ((Sys.noGroup i).apply s).agenda = s.agenda := rfl
@[simp] theorem Sys.noGroup_cur (i : Nat) : ((Sys.noGroup i).apply s).cur = s.cur := rfl

end Sys2Proof.Machine
end

