-- ==== Sys2Proof/Tests/Slice0.lean ====
section
/-! SUPPORT. Tests: words of the spec decoded, ill-formed instructions refused, results of single steps against the spec's own
numbers, and for each statement states that meet its premises. -/

namespace Sys2Proof.Tests

set_option Elab.async false
open Sys2Proof Sys2Proof.Machine

/-! ## A small package

Lanes 0 and 1 of warp 0 run, in workgroup 0 of gang 0 of launch 0, whose owner is tag 1 of virtual function 0. -/

/-- A live thread at packet 0 of line 1, with v1 = 7 and v2 = 3. -/
def thr : Thread := { Thread.empty with life := .live, pc := 0x44, regs := [(1, 7), (2, 3)], preds := 1 }
/-- The warp. -/
def w0 : Warp := { Warp.none with quota := 32, resident := true, ended := false, threads := [thr, { thr with regs := [(1, 9)] }] ++ List.replicate 30 Thread.empty }
/-- The group that issues. -/
def cur0 : Issue := { Issue.none with lanes := [0, 1], pc := 0x44, header := 0x200, old := w0 }
/-- The launch. -/
def launch0 : Launch := { Launch.none with owner := 1, ngang := 1, nextGang := 1, complete := false, quota := 32 }
/-- The owner table: tag 1 is LOADED with key 5. -/
def owner1 : OwnerEntry := { OwnerEntry.clear with vf := some 0, kstate := .loaded, key := 5, ptbase := 0x10000 }
/-- Virtual function 0, with a handler. -/
def vf0 : Vf := { desc := { spatial := true, fabvis := false, portB := false, share := 64, clusters := 0xFFFFFFFF, tvec := 0x10004, irq := 7, saveArea := 0 }, out := false }
/-- The package. -/
def st : State :=
  { State.reset with
    agenda := [], warps := [(0, w0)], wgs := [(0, { Workgroup.none with warps := [0], size := 32, localSize := 4096 })]
    gangs := [(0, { Gang.none with state := .placed, wgs := [0] })], launches := [(0, launch0)], nextId := 8
    owners := [(1, owner1)], vfs := [(0, vf0)], boot := { Boot.clear with ready := true, phase := 5 }, cur := cur0 }
/-- The package with another issue context. -/
def withCur (s : State) (f : Issue → Issue) : State := { s with cur := f s.cur }
/-- The package with its warp changed. -/
def withWarp (f : Warp → Warp) : State := { st with warps := [(0, f w0)] }
/-- The package with each thread of its warp changed, before the chain too. -/
def withThreads (f : Thread → Thread) : State :=
  { st with warps := [(0, { w0 with threads := w0.threads.map f })], cur := { cur0 with old := { w0 with threads := w0.threads.map f } } }
/-- A guard that holds always, and one that never does. -/
def always : Guard := ⟨false, 7⟩
def never : Guard := ⟨true, 7⟩

/-! ## Decoding: words written out bit by bit from the encodings of the spec, one or more to a family -/

theorem test_decode_sget : decodeTableWord 32 0b0_00000_00001_0000101_0001100_0000000 = some (.sget false 5 0x0C) := by decide +kernel
theorem test_decode_trap : decodeTableWord 32 0b0_00000_00110_0000000_0000000_0000101 = some (.trap false 5) := by decide +kernel
theorem test_decode_add : decodeTableWord 32 0b1_00001_00000_0000011_0000001_0000010 = some (.add true 3 1 2) := by decide +kernel
theorem test_decode_addi : decodeTableWord 32 0b0_00010_0000011_0000011_000_111111111 = some (.addi false 3 3 0x1FF) := by decide +kernel
theorem test_decode_mul : decodeTableWord 32 0b0_00011_00000_0000011_0000001_0000010 = some (.mul false 3 1 2) := by decide +kernel
theorem test_decode_lil : decodeTableWord 32 0b0_00100_0000001_00_00000000000000000 = some (.lil false 1 0) := by decide +kernel
theorem test_decode_exp2 : decodeTableWord 32 0b0_01000_00000_0000101_0000100_0000000 = some (.exp2 false 5 4) := by decide +kernel
theorem test_decode_mov : decodeTableWord 32 0x29050071 = some (.mov false 20 0x71) := by decide +kernel
theorem test_decode_bar : decodeTableWord 32 0x45C00000 = some (.bar false always 0) := by decide +kernel
theorem test_decode_fence : decodeTableWord 32 0x45C40A00 = some (.fenceAr false always 5) := by decide +kernel
theorem test_decode_feset : decodeTableWord 32 0x45C50608 = some (.feset false always false 3 2 false) := by decide +kernel
theorem test_decode_commit : decodeTableWord 32 0x49C10600 = some (.commit false always 3) := by decide +kernel
theorem test_decode_tabort : decodeTableWord 32 0x49C20A00 = some (.tabort false always 5) := by decide +kernel
theorem test_decode_tstat : decodeTableWord 32 0x49C30A00 = some (.tstat false always 5) := by decide +kernel
theorem test_decode_pres : decodeTableWord 32 0x5DC00610 = some (.pres false always false 3 4) := by decide +kernel
theorem test_decode_kill : decodeTableWord 32 0x61C10014 = some (.killW false always 5) := by decide +kernel
theorem test_decode_cntsel : decodeTableWord 32 0x61C40628 = some (.cntsel false always 3 10) := by decide +kernel
theorem test_decode_tap : decodeTableWord 32 0x55C004A0 = some (.tap false always false 2 40) := by decide +kernel
theorem test_decode_rng : decodeTableWord 32 0x6DC160B0 = some (.rng false always false 48 44) := by decide +kernel
theorem test_decode_rngk : decodeTableWord 32 0x6DC260B0 = some (.rngk false always 48 44) := by decide +kernel
/-- Major opcodes 28 to 30 are reserved (R52): the decoder refuses them. -/
theorem test_decode_unassigned : decodeTableWord 32 0b0_11100_00000_0000000_0000000_0000000 = none := by decide +kernel
/-- A word of another length is none of the machine's. -/
theorem test_decode_length : decodeTableWord 16 0 = none := by decide +kernel

/-! ## Ill-formed instructions, one for each check -/

/-- MINOR (R70): a load of width 7. -/
theorem test_ill_minor : (Instr.ld false always false 7 0 0).wellFormed = false ∧ (Instr.ld false always false 7 0 0).minorOk = false := by decide +kernel
/-- FIELD: a barrier number is in range for every value, and a fence scope above sys is not. -/
theorem test_ill_field : (Instr.fenceAcq false always 6).wellFormed = false ∧ (Instr.fenceAcq false always 6).fieldOk = false := by decide +kernel
/-- REGISTER (R7): an odd register for a pair. -/
theorem test_ill_register : (Instr.add64 false 3 8 10).wellFormed = false ∧ (Instr.add64 false 3 8 10).regOk = false := by decide +kernel
/-- SPECIAL (R12): an index that is assigned to nothing. -/
theorem test_ill_special : (Instr.sset false 0x7F 1).wellFormed = false ∧ (Instr.sset false 0x7F 1).specialOk = false := by decide +kernel
/-- And a well-formed word of each of those kinds. -/
theorem test_well_formed : ∀ i ∈ [Instr.ld false always false 6 0 0, .fenceAcq false always 5, .add64 false 2 8 10, .sset false 0x04 1],
    i.wellFormed = true := by decide +kernel

/-! ## Results of single steps -/

/-- A register of a lane of warp 0 after an instruction. -/
def after (i : Instr) (s : State) (l code : Nat) : Option Word :=
  match exec i s with
  | .next t => some (t.reg 0 l code)
  | _ => none

/-- R98: add wraps modulo 2^32; sub of the same register gives 0. -/
theorem test_add_wraps : after (.add false 3 1 2) (withThreads (fun t => { t with regs := [(1, 0xFFFFFFFF), (2, 2)] })) 0 3 = some 1 := by decide +kernel
/-- R103: the high word of the product of two negative numbers. -/
theorem test_mulhi_signs : after (.mulhi false 3 1 2) (withThreads (fun t => { t with regs := [(1, 0x80000000), (2, 0x80000000)] })) 0 3 = some 0x40000000 := by
  decide +kernel
/-- R103: division by zero. -/
theorem test_divu_zero : after (.divu false 3 1 2) (withThreads (fun t => { t with regs := [(1, 5)] })) 0 3 = some 0xFFFFFFFF := by decide +kernel
/-- R163: a destination at the quota takes nothing. -/
theorem test_quota : after (.add false 32 1 2) st 0 32 = some 0 := by decide +kernel
/-- R100: a shift count is taken from eight bits. -/
theorem test_shl_count : after (.shl false 3 1 2) (withThreads (fun t => { t with regs := [(1, 1), (2, 0x11F)] })) 0 3 = some 0x80000000 := by decide +kernel
/-- R99: the absolute value of the most negative number is itself. -/
theorem test_abs_most_negative : after (.abs false 3 1) (withThreads (fun t => { t with regs := [(1, 0x80000000)] })) 0 3 = some 0x80000000 := by decide +kernel
/-- R107: 1.5 + 0.25 in FP32. -/
theorem test_fadd : after (.fadd false 0 3 1 2) (withThreads (fun t => { t with regs := [(1, 0x3FC00000), (2, 0x3E800000)] })) 0 3 = some 0x3FE00000 := by
  decide +kernel
/-- R117: 2 to the power of 0 is 1. -/
theorem test_exp2_zero : after (.exp2 false 3 4) st 0 3 = some 0x3F800000 := by decide +kernel

/-! ## Each statement's premises are met: integer words, moves, predicates and floating point -/

/-- R91: the least exponent with amax ≤ 6 × 2^e, for amax 8.0, 12.0 and 12.5. -/
theorem test_blockExp : blockExp 8 0 = 1 ∧ blockExp 12 0 = 1 ∧ blockExp 25 (-1) = 2 := by decide

theorem witness_IntegerWordsWriteTheirResult :
    (∀ p ∈ binaryRules false 3 1 2 ++ binaryRules true 111 1 2, st.issues p.1 = true) ∧ (∀ p ∈ unaryRules false 3 1, st.issues p.1 = true) ∧
    (∀ p ∈ immediateRules false 3 1 0x1FF 31, st.issues p.1 = true) := by decide +kernel
theorem witness_MovesWriteTheirResult : ∀ p ∈ moveRules st false 111 1 2 0x10000 7, st.issues p.1 = true := by decide +kernel
theorem witness_PairWordsWriteTheirResult : ∀ p ∈ pairRules st false 30 0 2 0x10000 ++ pairRules st true 110 0 2 0, st.issues p.1 = true := by decide +kernel
theorem witness_PredicateWordsWriteTheirResult :
    ∀ p ∈ predRules st false 5 6 1 2 8 0 7 ++ predRules st false 0 7 1 2 8 0 7, st.issues p.1 = true := by decide +kernel
theorem witness_FcmpWritesItsConditionAndFlag :
    let s := withThreads (fun t => { t with regs := [(1, 0x7FC00000)] })
    s.issues (.fcmp false 6 0 1 2) = true ∧ (fval (s.source 0 1)).isNan = true := by decide +kernel
theorem witness_FloatWordsWriteTheirResult : ∀ p ∈ floatRules false 3 4 3 true true 111 1 2, st.issues p.1 = true := by decide +kernel
theorem witness_XfnWordsWriteTheirResult : ∀ p ∈ xfnRules false 111 1, st.issues p.1 = true := by decide +kernel
theorem witness_QuantWordsWriteTheirResult :
    st.issues (.qblk false always 3 32 2) = true ∧ st.issues (.dqblk false always 0 32 0) = true ∧ st.issues (.qfp8 false always 111 32 3) = true := by
  decide +kernel

/-! ## Control and convergence -/

/-- A thread in a handler. -/
def inHandler : State := withThreads (fun t => { t with priv := true })

theorem witness_GroupsHoldEachLiveLaneOnce :
    [0, 1] ∈ (withThreads (fun t => { t with line := [0x200, 0x04000000] ++ List.replicate 14 0, entered := true })).candidates 0 := by decide +kernel
theorem witness_SgetReadsTheSpecialRegister :
    st.issues (.sget false 111 0x0C) = true ∧ privilegedIx 0x0C = false ∧ inHandler.issues (.sget false 3 0x50) = true ∧
    (∀ l ∈ inHandler.performers (.sget false 3 0x50), inHandler.denied 0 (inHandler.cur.thread l) = false) ∧ assignedIndex 0x0C = true ∧
    assignedIndex 0x50 = true := by decide +kernel
theorem witness_SsetWritesItsRegister :
    (∀ d ∈ [0x04, 0x05, 0x06, 0x07, 0x08, 0x0A, 0x0B, 0x1D], st.issues (.sset false d 1) = true ∧ privilegedIx d.toNat = false) ∧
    (∀ d ∈ [0x50, 0x52, 0x53, 0x57], inHandler.issues (.sset false d 1) = true) ∧ st.performers (.sset false 0x0A 1) = [0, 1] ∧
    assignedIndex 0x1D = true ∧ assignedIndex 0x50 = true ∧
    ∀ l ∈ inHandler.performers (.sset false 0x57 1), inHandler.denied 0 (inHandler.cur.thread l) = false := by decide +kernel
/-- R361: a group whose threads all trap at a privileged sset leaves the entry that it names as its source. -/
theorem test_trap_pops_nothing :
    (let b : Binding := { Binding.none with kind := 6, hw := [{ id := 1, origin := (0, 0), mask := 3, words := [5, 5], written := true, readyAt := 0 }] }
     let s := withWarp (fun w => { w with queues := [(3, b)] })
     (match exec (.sset false 0x57 115) s, exec (.sset false 0x04 115) s with
      | .next t, .next u => ((t.warp 0).queue 3).hw.length == 1 && ((u.warp 0).queue 3).hw.length == 0
      | _, _ => false) = true) := by decide +kernel
theorem witness_PrivilegedIndexTraps :
    st.cur.lanes.Nodup ∧ st.issues (.sget false 3 0x50) = true ∧ privilegedIx 0x50 = true ∧ st.issues (.sset false 0x57 1) = true ∧ privilegedIx 0x57 = true ∧
    ∀ l ∈ st.performers (.sget false 3 0x50), (st.thread 0 l).life = .live ∧ (st.cur.thread l).priv = false ∧ (st.thread 0 l).priv = false ∧
      st.tvec 0 ≠ 0 ∧ st.ticketOf (st.warp 0).wg = none := by decide +kernel
theorem witness_NopYieldAndFwait :
    st.issues (.fwait false 0xFFF) = true ∧ (st.warp 0).unreceived = 0 ∧ (∀ i, i < 12 → (st.warp 0).flags.getD i 0 = 0) ∧ st.issues (.yield false) = true ∧
    (let s := withWarp (fun w => { w with flags := [1] ++ List.replicate 11 0 })
     s.issues (.fwait false 1) = true ∧ s.cur.pos = s.cur.chain ∧ (s.warp 0).flags.getD 0 0 ≠ 0) := by decide +kernel
theorem witness_BrkAndTrapEnterTheHandler :
    st.issues (.brk false 127) = true ∧ st.boot.conf = false ∧ st.issues (.trap false 0) = true ∧ st.performers (.trap false 0) = [0, 1] := by decide +kernel
theorem witness_DisplacementCountsPackets :
    (5 * (1 : Int) + 4 + (1 : BitVec 19).toInt = 5 * 2 + 0) ∧ (5 * (2 : Int) + 0 + (0x7FFFF : BitVec 19).toInt = 5 * 1 + 4) := by decide +kernel
theorem witness_TransfersGoToTheirTargets :
    ∀ i ∈ [Instr.br false always 0x7FFFF, .call false always 1, .brx false always 0, .callx false always 110, .ret false always], st.issues i = true := by
  decide +kernel
/-- R151: a thread whose target is its mt parks. -/
theorem test_branch_parks :
    (match exec (.br false always 1) (withThreads (fun t => { t with mt := 0x50, pc := 0x44 })) with
     | .next t => (t.thread 0 0).hold == .parked && (t.thread 0 0).pc == 0x50
     | _ => false) = true := by decide +kernel
theorem witness_ExitEndsItsThreads :
    let s := withCur st (fun c => { c with lanes := [1] })
    s.issues (.exit false always) = true ∧ s.performers (.exit false always) = [1] ∧ s.cur.lanes.Nodup ∧ (s.thread 0 1).life = .live ∧
    (s.thread 0 1).pend = [] ∧ laneBit (s.warp 0).lxst 1 = false ∧ (s.thread 0 0).life = .live ∧ 0 < (s.warp 0).threads.length := by decide +kernel
theorem witness_MeetAndUnmeetKeepRecords : st.issues (.meet false always 3) = true ∧ st.issues (.unmeet false always 3) = true := by decide +kernel
theorem witness_CollectivesArrive :
    ∀ x ∈ collRules false 6 7 111 1 127 ++ collRules false 6 7 31 1 2, st.issues x.1 = true := by decide +kernel
theorem witness_BarriersHoldTheirThreads : st.issues (.bar false always 3) = true ∧ st.issues (.gbar false always 0) = true := by decide +kernel
theorem witness_FencesOrderEarlierAccesses :
    st.issues (.fenceAcq false always 5) = true ∧ st.issues (.fenceRel false always 0) = true ∧ st.issues (.fenceAr false always 3) = true := by decide +kernel
/-- A try region of one register. -/
def region0 : Region := { first := 0, count := 1, base := 1, regs := [9], preds := 0, target := 0x50, reads := [], buffer := [], places := [] }
theorem witness_TryTabortAndTstat :
    st.issues (.tryOpen false always 31 15 0) = true ∧ (∀ l ∈ st.performers (.tryOpen false always 31 15 0), (st.cur.thread l).region.isNone = true) ∧
    st.issues (.tabort false always 255) = true ∧ st.issues (.tstat false always 111) = true ∧
    (let s := withThreads (fun t => { t with region := some region0 })
     s.issues (.tabort false always 255) = true ∧ (s.thread 0 0).region = some region0 ∧ (s.thread 0 0).aborting = none) := by decide +kernel
theorem witness_CommitClosesTheRegion :
    let s := withThreads (fun t => { t with region := some region0 })
    let r : Region := { region0 with buffer := [(localLoc 0 0, 9)] }
    let u := withCur (withThreads (fun t => { t with region := some r })) (fun c => { c with lanes := [1] })
    s.issues (.commit false always 0) = true ∧ (∀ l ∈ s.performers (.commit false always 0), (s.cur.thread l).region.isSome = true ∧
      (s.thread 0 l).aborting = none ∧ (s.thread 0 l).region = some region0 ∧ s.mayPublish 0 l s.nextId = true) ∧ region0.buffer = [] ∧
    u.issues (.commit false always 0) = true ∧ u.performers (.commit false always 0) = [1] ∧ (u.thread 0 1).region = some r ∧
    u.mayPublish 0 1 u.nextId = true ∧ ∀ e ∈ r.buffer, isGeneric e.1 = false ∧ isGeneric (lineOf e.1 * 128) = false := by decide +kernel
/-- A commit whose thread has a load in flight. -/
theorem witness_CommitClosesTheRegion_waits :
    let x : LaneOp := { lane := 1, addr := 0, loc := some (localLoc 0 0), size := 4, pte := 0, data := [], state := .going }
    let o : Op :=
      { id := 5, kind := .load, ins := .ldl false always true 0 8 4, pfx := .none, warp := 0, pc := 0x44, pos := 1, lanes := [x], flag := some 0, issued := 0
        due := 9, scope := 3, fem := 0, writes := [], push := none, level := 0, sample := false, acks := false }
    let s := { withCur (withThreads (fun t => { t with region := some region0 })) (fun c => { c with lanes := [1] }) with ops := [o] }
    s.issues (.commit false always 3) = true ∧ s.performers (.commit false always 3) = [1] ∧ (s.cur.thread 1).region.isSome = true ∧
    (s.thread 0 1).aborting = none ∧ s.mayPublish 0 1 s.nextId = false := by decide +kernel

/-! ## Memory words -/

/-- A writable leaf of kind DEV onto frame 0x20, of tag 1. -/
def leaf0 : DWord := 0x0010000000200062
/-- The package with one page at address 0, Market granules 0 and 1 of tag 1, and 64 bytes of parameters. -/
def mst : State := { st with tlb := [{ owner := 1, page := 0, level := 0, pte := leaf0 }], mktTag := [(0, 2), (1, 2)], launches := [(0, { launch0 with psize := 64 })] }
/-- Lane 1 alone. -/
def alone (s : State) : State := withCur s (fun c => { c with lanes := [1] })
/-- Whether every lane's access of a memory word proceeds. -/
def admitted (s : State) (p : Instr × MemWord × (Nat → List Byte)) (a : Reg) : Bool :=
  s.issues p.1 && (s.performers p.1).all (fun l => (s.thread 0 l).region.isNone && (s.thread 0 l).aborting.isNone && match s.admits p.2.1 a l with | .go .. => true | _ => false)

theorem witness_MemoryWordsGoInFlight :
    (∀ p ∈ memoryRules (alone mst) false always true 0 1 8 4, admitted (alone mst) p 4 = true) ∧ (alone mst).performers (.ld false always true 6 8 4) = [1] ∧
    (∀ p ∈ memoryRules mst false always true 3 2 8 4, p.2.1.sp ≠ 0 → admitted mst p 4 = true) := by decide +kernel
/-- Whether every lane's access of a memory word is refused. -/
def refusedAll (s : State) (p : Instr × MemWord × (Nat → List Byte)) (a : Reg) : Bool :=
  s.issues p.1 && (s.performers p.1).all (fun l => (s.thread 0 l).region.isNone && (s.thread 0 l).aborting.isNone && s.admits p.2.1 a l == .refused)
/-- Whether a lane's thread meets what a statement about traps asks of it. -/
def mayTrap (s : State) (l : Nat) : Bool :=
  (s.thread s.cur.warp l).life == .live && !(s.cur.thread l).priv && !(s.thread s.cur.warp l).priv && s.tvec s.cur.warp != 0 &&
    (s.ticketOf (s.warp s.cur.warp).wg).isNone
theorem handles_of_mayTrap {s : State} {l : Nat} (h : mayTrap s l = true) : s.handles l := by
  simpa [mayTrap, State.handles, and_assoc] using h
theorem witness_RefusedAccessesTrap :
    let s := withThreads (fun t => { t with regs := [(5, 0x80000000)] })
    s.cur.lanes.Nodup ∧ (∀ p ∈ memoryRules s false always true 0 2 8 4, refusedAll s p 4 = true) ∧ ∀ l ∈ [0, 1], mayTrap s l = true := by decide +kernel

theorem witness_RegionStoresAreBuffered :
    let s (r : Region) : State := alone { withThreads (fun t => { t with region := some r }) with tlb := mst.tlb }
    (∀ r ∈ [region0, { region0 with reads := [localLoc 0 0 / 128] }], ∀ p ∈ memoryRules (s r) false always true 0 1 8 4, p.2.1.kind = .store → p.2.1.sp = 1 →
      admitted { s r with warps := st.warps } p 4 = true ∧ (s r).issues p.1 = true ∧ (s r).performers p.1 = [1] ∧ (s r).cur.pfx = .none) ∧
    (s region0).tryRoom 0 1 = true ∧ lineOf (localLoc 0 0) ∈ [localLoc 0 0 / 128] ∧
    (s { region0 with buffer := (List.range 32).map (fun n => (localLoc 0 (128 * n), 0)) }).tryRoom 0 1 = false := by decide +kernel

theorem witness_FeWordsGoInFlight :
    let s := withThreads (fun t => { t with regs := [(5, 0x80000000)] })
    (∀ i ∈ [Instr.feset false always true 127 4 false, .feclr false always true 0 4 false, .fepoll false always true 8 4 true],
      mst.issues i = true ∧ s.issues i = true) ∧
    (∀ l ∈ [0, 1], (match mst.locate 0 false .write 1 (mst.source.pair l 4 &&& ~~~ 15#64) (16 * 128) with | .ok .. => true | _ => false) = true) ∧
    (∀ l ∈ [0, 1], s.locate 0 false .write 2 (s.source.pair l 4 &&& ~~~ 15#64) 16 = .refused) ∧ s.cur.lanes.Nodup ∧ ∀ l ∈ [0, 1], mayTrap s l = true := by decide +kernel

theorem witness_EngineWordsGoInFlight : ∀ p ∈ engineRules st false always true 8 16, st.issues p.1 = true := by decide +kernel
theorem witness_GroupAndDrawWordsGoInFlight :
    (∀ i ∈ [Instr.tap false always true 8 16, .fdec false always true 8 16, .dsel false always true 8 16, .rng false always true 8 16], st.issues i = true) ∧
    st.performers (.tap false always true 8 16) = [0, 1] ∧ st.performers (.fdec false always true 8 16) = [0, 1] := by decide +kernel

/-! ## Tickets, pages, queues and system words -/

/-- A model instance of tag 1 that holds no ticket. -/
def inst0 : Inst :=
  { owner := 1, nlayer := 1, maxslot := 4, rowbudget := 16, tkbase := 0x300000, kvbase := 0x10000, kvpages := 4, swapbase := 0x80000, swappages := 4
    board := 0, gatebase := 0x1000, ngate := 1, rotbase := 0, stepgraph := 0, mstep := 1, state := .idle, created := 0, admitted := 0, staged := []
    pages := [], reserved := [], marks := [], lost := [], kept := [], stepDone := false, dirty := false, removing := none, reply := none }
/-- The package with that instance as number 0. -/
def ist : State := { st with insts := [(0, inst0)] }

theorem witness_TicketWordsGoInFlight :
    (∀ p ∈ ticketRules false always true 8 16, ist.issues p.1 = true ∧ st.issues p.1 = true ∧
      ∀ l ∈ [0, 1], (ist.handle 0 p.1 (ist.source l 16)).isSome = true ∧ st.handle 0 p.1 (st.source l 16) = none) ∧
    st.cur.lanes.Nodup ∧ (∀ l ∈ [0, 1], mayTrap st l = true) ∧
    (let i := Instr.rot false always true 8 16
     ist.issues i = true ∧ ∀ l ∈ [0, 1], ist.handle 0 i (ist.source l 19) = some (0, 0) ∧ ist.tkState inst0 0 = 0) := by decide +kernel

/-- The package with an unbacked page at address 0, charged to die 0. -/
def ust : State := { st with tlb := [{ owner := 1, page := 0, level := 0, pte := 0x0010000000006062 }], charged := [{ owner := 1, page := 0, die := 0 }] }
theorem witness_PageWordsGoInFlight :
    let s := { ust with warps := (withThreads (fun t => { t with regs := [(8, 1)] })).warps, cur := (withThreads (fun t => { t with regs := [(8, 1)] })).cur }
    (∀ p ∈ pageRules false always true 8 4 true, ust.issues p.1 = true ∧ ∀ l ∈ [0, 1], ust.pageAnswer 1 (ust.cur.thread l).priv p.2 0 0 0 = .go) ∧
    (∀ p ∈ pageRules false always true 8 4 false, st.issues p.1 = true ∧ ∀ l ∈ [0, 1], st.pageAnswer 1 (st.cur.thread l).priv p.2 0 128 0 = .wait) ∧
    ust.pageAnswer 1 false .disc 1 128 0 = .refused ∧ s.issues (.pmig false always true 8 4) = true ∧ s.pageAnswer 1 false .mig 0 0 1 = .full ∧
    s.cur.lanes.Nodup ∧ ∀ l ∈ [0, 1], mayTrap s l = true := by decide +kernel

theorem witness_DrainWordsReachTheSequencer :
    (∀ i ∈ [Instr.mdrainL false always true 16, .mdrainR false always true 8 16, .mzero false always true 16], st.issues i = true) ∧
    st.performers (.mzero false always true 16) = [0, 1] ∧ st.performers (.mdrainR false always true 8 16) = [0, 1] := by decide +kernel
theorem witness_MmaArrives : st.issues (.mma false always true 127 16) = true ∧ st.issues (.mma false always true 2 16) = true := by decide +kernel

/-- A queue entry whose value is written. -/
def entry0 : QEntry := { id := 3, origin := (0, 1), mask := 3, words := List.replicate 32 5, written := true, readyAt := 0 }
/-- The package with queue register 1 bound. -/
def bound (kind : Nat) (hw : List QEntry) : State := withWarp (fun w => { w with queues := [(1, { Binding.none with kind := kind, hw := hw })] })
theorem witness_QbindAndQstatAnswer :
    let s := withThreads (fun t => { t with regs := [(16, 0x11000000)] })
    s.issues (.qbind false always 8 16) = true ∧ s.performers (.qbind false always 8 16) = [0, 1] ∧
    s.qbindStatus 0 (s.source 0 16) 0 0 = (0, []) ∧ (st.qbindStatus 0 (st.source 0 16) 0 0).1 = 2 ∧ st.issues (.qstat false always 8 113) = true := by
  decide +kernel
theorem witness_QflushDrainsOrDiscards :
    (∀ kind ∈ [0, 1, 8], (bound kind [entry0]).issues (.qflush false always true 8 113 false) = true) ∧
    pushSide (((bound 1 [entry0]).afterPops (.qflush false always true 8 113 false)).warp 0 |>.queue 1).kind = true ∧
    (let b := ((bound 8 [entry0]).afterPops (.qflush false always true 8 113 false)).warp 0 |>.queue 1
     pushSide b.kind = false ∧ popSide b.kind = true ∧ b.hw = [entry0]) ∧
    pushSide 0 = false ∧ popSide 0 = false := by decide +kernel

theorem witness_RfeResumes :
    let s := withThreads (fun t => { t with priv := true, epc := 0x44 })
    s.issues (.rfe false always) = true ∧ s.cur.lanes.Nodup ∧
    ∀ l ∈ [0, 1], s.denied 0 (s.cur.thread l) = false ∧ wordAddr (s.thread 0 l).epc = some (0x44, 1) ∧ s.fetchPlace 0 false 0x44 = .pageFault := by decide +kernel
/-- And where the line of epc can be read, with the packet and its first word in range. -/
theorem witness_RfeResumes_line :
    let s := { mst with
      mem := [(0x200041, 2)], warps := (withThreads (fun t => { t with priv := true, epc := 0x44 })).warps
      cur := (withThreads (fun t => { t with priv := true, epc := 0x44 })).cur }
    s.issues (.rfe false always) = true ∧
    (match s.fetchPlace 0 false 0x44 with
     | .ok loc _ _ _ => decide ((packetIx 0x44).getD 0 < headerNpk (wordAt (s.fetchWords 0 (loc - loc % 64)) 0))
     | _ => false) = true := by decide +kernel
theorem witness_KillEndsThreads :
    st.issues (.killW false always 1) = true ∧ st.performers (.killW false always 1) = [0, 1] ∧ st.issues (.killG false always) = true ∧
    inHandler.issues (.killL false always) = true ∧ ∀ l ∈ [0, 1], inHandler.denied 0 (inHandler.cur.thread l) = false := by decide +kernel
theorem witness_InvalidationsGoInFlight :
    (∀ i ∈ [Instr.tlbinv false always true 8 16, .tlbinvOwn false always true, .tlbinvAll false always true, .icinvAll false always true, .rfe false always],
      inHandler.issues i = true ∧ st.issues i = true) ∧
    (∀ l ∈ [0, 1], inHandler.denied 0 (inHandler.cur.thread l) = false ∧ mayTrap st l = true) ∧ st.cur.lanes.Nodup ∧
    st.issues (.icinv false always true 8 16) = true ∧ (∀ l ∈ [0, 1], (st.source l 8).toNat = 0) ∧
    st.translateRange 1 false .read 0 64 ≠ .refused := by decide +kernel
theorem witness_CounterWordsAnswer :
    (∀ i ∈ [Instr.rngk false always 8 16, .cntsel false always 8 16, .cntselRd false always 8 16, .cntselSmp false always 8 16, .cntselRot false always 8 16],
      st.issues i = true ∧ inHandler.issues i = true ∧ st.performers i = [0, 1] ∧ inHandler.performers i = [0, 1]) ∧
    (∀ l ∈ [0, 1], (st.source l 16).toNat / 256 % 8 < 4 ∧ inHandler.denied 0 (inHandler.cur.thread l) = false) := by decide +kernel
/-- And where the sampling buffer of cntsel.smp is as it has to be. -/
theorem witness_CounterWordsAnswer_sampling :
    let s := withThreads (fun t => { t with regs := [(18, 65536), (19, 0x80000003)] })
    s.issues (.cntselSmp false always 8 16) = true ∧ (s.source.pair 0 16).toNat % 64 = 0 ∧ (s.source 0 18).toNat = 65536 ∧
    (s.source 0 19).toNat / 32 % 2 ^ 26 = 0 := by decide +kernel

/-! ## Steps of the machine -/

/-- What a statement about a lone access asks of it. -/
def lone (s : State) (o : Op) (x : LaneOp) : Bool :=
  s.op? o.id == some o && (o.lanes == [x] && (x.state == .going && ((!o.sample && (o.writes == [] && !(s.warp o.warp).ended)) &&
  ((x.part == 0 && ((stallCut x).isNone || !s.choice)) && (!s.marketLost o x && (s.mayPerform o x && (decide (s.laneLocs (s.ownerOf o.warp) x).Nodup &&
  ((s.laneLocs (s.ownerOf o.warp) x).all (fun p => !s.lineFault (s.ownerOf o.warp) p) &&
  (s.laneLocs (s.ownerOf o.warp) x).all (fun p => !isCxlLine (lineOf p))))))))))
theorem lone_of {s : State} {o : Op} {x : LaneOp} (h : lone s o x = true) : Lone s o x := by
  simp only [lone, Bool.and_eq_true, Bool.or_eq_true, beq_iff_eq, Bool.not_eq_true', decide_eq_true_eq, List.all_eq_true, Option.isNone_iff_eq_none] at h
  obtain ⟨found, lanes, going, plain, ⟨part, cut⟩, owned, may, apart, sound, device⟩ := h
  exact ⟨found, lanes, going, plain, ⟨part, cut⟩, owned, may, apart, sound, fun p hp hc => absurd hc (by simp [device p hp])⟩

/-- An operation of warp 0 in flight, its lanes at some places. -/
def op0 (i : Instr) (kind : OpKind) (fem : BitVec 2) (due : Nat) (lanes : List LaneOp) : Op :=
  { id := 5, kind := kind, ins := i, pfx := .memq 0 3 0 fem false, warp := 0, pc := 0x44, pos := 1, lanes := lanes, flag := some 0, issued := 0, due := due
    scope := 3, fem := fem, writes := [], push := none, level := 0, sample := false, acks := false }
/-- Lane 1 of an access of local memory. -/
def lane0 (size : Nat) (data : List Byte) : LaneOp :=
  { lane := 1, addr := 0, loc := some (localLoc 0 0), size := size, pte := 0, data := data, state := .going }
/-- The package with one operation in flight and its flag counted. -/
def flying (o : Op) : State := { mst with ops := [o], warps := [(0, { w0 with flags := [1] ++ List.replicate 11 0 })] }
/-- The operand bytes that a memory word holds. -/
def dataOf (w : MemWord) (n : Nat) : List Byte := if w.kind = .load then [] else if w.kind = .store then List.replicate w.size 7 else List.replicate n 7

theorem witness_CompletionsPerformTheAccess :
    st.op? 5 = none ∧
    (let o := op0 (.ldl false always true 0 8 4) .load 0 9 [lane0 4 []]
     (flying o).op? 5 = some o ∧ (flying o).ac < o.due ∧ o.waitsFull = none) ∧
    (let o := op0 (.ldl false always true 0 8 4) .load 1 0 [lane0 4 []]
     (flying o).op? 5 = some o ∧ (flying o).mayPerform o (lane0 4 []) = false) ∧
    (let o := { op0 (.rng false always true 8 16) .fixed 0 0 [] with writes := [{ lane := 0, reg := 8, value := 3 }] }
     (flying o).op? 5 = some o ∧ o.due ≤ (flying o).ac ∧ (o.writes.map (fun w => (w.lane, w.reg))).Nodup ∧ ((flying o).warp 0).ended = false) ∧
    (∀ p ∈ memoryRules st false always true 0 1 8 4, p.2.1.kind ≠ .market → p.2.1.sp = 1 →
      let x := lane0 p.2.1.size (dataOf p.2.1 (match p.1 with | .cas .. => 8 | _ => 4))
      let o := op0 p.1 p.2.1.kind 0 0 [x]
      lone (flying o) o x = true ∧ o.due ≤ (flying o).ac ∧ ∀ q ∈ (flying o).laneLocs 1 x, ((flying o).l1Line 0 (lineOf q)).isNone = true) := by decide +kernel
/-- The package with queue register 0 of its warp bound to the copy engine. -/
def pushing : State := { mst with warps := mst.warps.map (fun w => (w.1, { w.2 with queues := [(0, { Binding.none with kind := 1 })] })) }
theorem witness_QueueDestinationsTakeAnEntry :
    pushing.pushes 0 112 = true ∧ pushing.storeOf 0 0 = some (0, 0) ∧
    (∀ p ∈ binaryRules false 112 1 2, pushing.issues p.1 = true) ∧ (∀ p ∈ unaryRules false 112 1, pushing.issues p.1 = true) ∧
    (∀ p ∈ immediateRules false 112 1 5 3, pushing.issues p.1 = true) ∧ (∀ p ∈ moveRules pushing false 112 1 2 5 1, pushing.issues p.1 = true) ∧
    (∀ p ∈ floatRules false 0 0 0 false false 112 1 2, pushing.issues p.1 = true) ∧ (∀ p ∈ xfnRules false 112 1, pushing.issues p.1 = true) ∧
    (∀ p ∈ memoryRules pushing false always true 0 1 112 4, p.2.1.kind = .load → p.2.1.sp = 1 →
      admitted pushing p 4 = true) := by decide +kernel
theorem witness_QueueDestinationsTakeAnEntry_completion :
    let x := lane0 4 []
    let o := { op0 (.ldl false always true 0 112 4) .load 0 0 [x] with push := some (0, 3) }
    let e : QEntry := { id := 3, origin := (0, 0), mask := 2, words := List.replicate 32 0, written := false, readyAt := 0 }
    let s : State := { flying o with warps := (flying o).warps.map (fun w => (w.1, { w.2 with queues := [(0, { Binding.none with kind := 1, hw := [e] })] })) }
    ((s.warp o.warp).queue 0).kind ≠ 7 ∧ ((s.warp o.warp).queue 0).ring = [] ∧ lone s o x = true ∧ x.size = 4 ∧ x.data = [] ∧ o.due ≤ s.ac ∧
    ∀ y ∈ s.laneLocs (s.ownerOf o.warp) x, s.l1Line (s.warp o.warp).core (lineOf y) = none := by decide +kernel
/-- A store to a Market granule that has come to another owner since it was issued. -/
theorem witness_CompletionsPerformTheAccess_owner :
    let x : LaneOp := { lane := 1, addr := 0, loc := some (marketLoc 0), size := 4, pte := 0, data := [1, 2, 3, 4], state := .going }
    let o := op0 (.stm false always true 0 8 4) .store 0 0 [x]
    let s := { flying o with mktTag := [(0, 3)] }
    s.op? o.id = some o ∧ o.due ≤ s.ac ∧ x.part = 0 ∧ stallCut x = none ∧ s.mayPerform o x = true ∧ s.marketLost o x = true ∧
    (s.thread 0 1).life = .live ∧ 1 < (s.warp 0).threads.length ∧ (s.warp 0).ended = false := by decide +kernel
/-- A load that waits for FULL and clears it, where it is FULL. -/
theorem witness_CompletionsPerformTheAccess_fe :
    let x := lane0 16 []
    let o := op0 (.ldl false always true 6 8 4) .load 2 0 [x]
    let s := { flying o with fe := [(localLoc 0 0 / 16, true)] }
    lone s o x = true ∧ o.waitsFull = some true := by decide +kernel
/-- A generic store that waits for its invalidates. -/
theorem witness_CompletionsPerformTheAccess_ack :
    let x : LaneOp := { lane := 1, addr := 0, loc := some 0x200000, size := 4, pte := leaf0.toNat, data := [1, 2, 3, 4], state := .going }
    let o := { op0 (.st false always true 0 8 4) .store 0 0 [x] with acks := true }
    let u : State := { flying o with ops := [{ o with acks := false }] }
    (flying o).op? 5 = some o ∧ o.due ≤ (flying o).ac ∧ x.data.length = x.size ∧ lone u { o with acks := false } x = true := by decide +kernel

/-- The package whose threads have all arrived at a collective, with a second warp in the workgroup. -/
def gatheredAt (i : Instr) (src : Word) : State :=
  let a : Arrival := { pc := 0x44, pos := 1, mask := 0, live := true, src := src, ctl := 1, pred := true, ins := i, fpen := 0, first := 5, before := { regs := [], preds := 0, lk := 0, mt := 0 } }
  let w : Warp := { w0 with quota := 64, threads := w0.threads.map (fun t => { t with hold := .coll a }) }
  { st with
    warps := [(0, w), (1, { w0 with num := 1, slot := 1 })]
    wgs := [(0, { Workgroup.none with warps := [0, 1], size := 64, localSize := 4096 })] }
/-- Whether the event of the collective finds it gathered over lanes 0 and 1. -/
def isGathered (i : Instr) (src : Word) : Bool :=
  match ((gatheredAt i src).warp 0).gathered with
  | [(a, lanes)] => a.ins == i && lanes == [0, 1]
  | _ => false
theorem witness_ThreadsGoOn_collectives :
    (∀ r ∈ collectiveRules [0, 1] (fun _ => 5) (fun _ => 1) (fun _ => true) false 8 16 127 7, isGathered r.1 5 = true) ∧
    (∀ r ∈ collectivePreds [0, 1] (fun _ => true) false 6 7 127, isGathered r.1 5 = true) ∧
    (∀ i ∈ [Instr.gredArgmin false 8 16 127, .gredArgmax false 8 16 127, .gredAdd false 8 16 127], isGathered i 5 = true) ∧
    (let s := gatheredAt (.prio false 8 16 127) 1
     isGathered (.prio false 8 16 127) 1 = true ∧ s.mateOf 0 1 = some 1 ∧ s.schedOf 1 = s.schedOf 0 ∧ (s.sched (s.schedOf 0)).token = none) ∧
    (let s := gatheredAt (.regq false 8 16 127) 0x801
     isGathered (.regq false 8 16 127) 0x801 = true ∧ s.mateOf 0 1 = some 1 ∧ s.regqReason 0 0x801 = 0 ∧ s.regqMay 0 0x801 [0, 1] = true) ∧
    ((st.warp 0).gathered.isEmpty = true) := by decide +kernel
theorem witness_ThreadsGoOn :
    (let s := withThreads (fun t => { t with line := [0x200, 0x04000000] ++ List.replicate 14 0, entered := true })
     let u := ((begin_ false s).enterAll 0).now
     s.bundle = [] ∧ ((u.allCands 0).find? (fun c => (u.bundleOf c).nopOnly)) = none ∧ u.chosenCand 0 (u.allCands 0) = some ((0, [0, 1]), false)) ∧
    (let u := ((begin_ false st).enterAll 0).now
     st.bundle = [] ∧ u.allCands 0 = [] ∧ u.chosenCand 0 (u.allCands 0) = none) ∧
    (let s := withThreads (fun t => { t with hold := .barrier false 2 8 })
     s.barrierReady 0 false 2 = true ∧ s.barrierReady 0 false 1 = false ∧ (s.barrierWarps 0 false).Nodup ∧ ∀ i ∈ s.barrierWarps 0 false, (s.warp i).lxst = 0) ∧
    (let s := withThreads (fun t => { t with pend := [{ cause := 0x0A, late := false, tval := 0, pc := 0x44, va := 0 }, { cause := 8, late := false, tval := 0, pc := 0x44, va := 0 }] })
     s.deliverable 0 1 = true ∧ st.deliverable 0 1 = false ∧ s.tvec 0 ≠ 0 ∧ s.ticketOf (s.warp 0).wg = none) ∧
    (let s := withThreads (fun t => { t with region := some region0, aborting := some { code := 5, user := 0, addr := 3, decided := 0 }, hold := .rollback 1 })
     s.rollbackDue 0 1 = true ∧ st.rollbackDue 0 1 = false ∧ (s.thread 0 1).region = some region0) := by decide +kernel

/-- The bytes of an entry at a place, as memory lists them. -/
def entryAt (p e : Nat) : List (Nat × Byte) := ((List.range 8).map (fun i => (p + i, BitVec.ofNat 8 (e / 256 ^ i)))).filter (fun c => c.2 != 0)
/-- Tables of tag 1 that give page 0 a leaf, or none where it is 0. -/
def tables (leaf : Nat) : List (Nat × Byte) :=
  entryAt 0x10000 0x11001 ++ entryAt 0x11000 0x12001 ++ entryAt 0x12000 0x13001 ++ entryAt 0x13000 0x14001 ++ entryAt 0x14000 leaf
/-- The package with those tables, and the device configured. -/
def tst (leaf : Nat) : State := { st with mem := tables leaf, config := { st.config with applied := true } }
/-- A lane of a load held for page 0. -/
def heldLane : LaneOp := { lane := 1, addr := 8, loc := none, size := 4, pte := 0, data := [], state := .held }

theorem witness_PagesAreServiced :
    (tst 0).mem.Pairwise (fun a b => a.1 < b.1) ∧ (tst 0).walk 1 0x8000000000000000 = .refused ∧ (tst leaf0.toNat).walk 1 0 = .leaf 0 leaf0.toNat ∧
    pteBit leaf0.toNat 8 = false ∧ (tst 0).walk 1 0 = .fault ∧ (tst 0).installs [(0x14000, leaf0)] = true ∧
    (let u (o : List Op) := ((begin_ true { tst 0 with ops := o }).physWrite 0x14000 (leBytes 8 leaf0.toNat)).now
     let o := op0 (.ld false always true 0 8 4) .load 0 0 [heldLane]
     (u []).unmapped = [] ∧ (u [o]).unmapped = [] ∧ (u []).walk 1 0 = .leaf 0 leaf0.toNat ∧ (u []).heldAt 1 0 = [] ∧ (u [o]).heldAt 1 0 = [(o, heldLane)] ∧ (u [o]).op? 5 = some o ∧
     (u [o]).admitAccess 0 false .read 0 8 4 true false = .go 0x200008 leaf0.toNat) ∧
    (((begin_ true (tst 0)).physWrite 0x14008 (leBytes 8 leaf0.toNat)).now.walk 1 0 = .fault) ∧
    (tst 0).leaf 1 0 = none ∧
    (let s := tst 0x00100000000060E2
     s.leaf 1 0 = some (0, 0x00100000000060E2) ∧ s.leafPlace 1 0 = some 0x14000 ∧ s.heldAt 1 0 = [] ∧ isLpddr (65536 * 0x30) = true ∧
     65536 * 0x30 / 2 ^ 46 = s.config.pkg.toNat ∧ s.frameTaken 0x30 = false ∧ s.tablesApart 1 0 (65536 * 0x30) 65536 = true ∧ s.lateFull 1 0 0x00100000000060E2 = true ∧
     (tst leaf0.toNat).lateFull 1 0 leaf0.toNat = false) ∧
    (let s := tst 0x0010000000202062
     { s with hostRefuses := [(512, true)] }.translate 1 true .read 0 = .priFault 0x200000 ∧ (∀ iova ∈ [(0x200000 : Nat)], s.translate 1 true .read 0 ≠ .priFault iova)) ∧
    (let s := tst leaf0.toNat
     s.leaf 1 0 = some (0, leaf0.toNat) ∧ s.leafPlace 1 0 = some 0x14000 ∧ pteKind leaf0.toNat = 0 ∧ pteOwner leaf0.toNat = 1 ∧
     s.still (pteFrame leaf0.toNat) 65536 = true ∧ pteBit leaf0.toNat 8 = false ∧ s.config.applied = true ∧ s.config.mailbox = false ∧ s.heldAt 1 0 = [] ∧
     isLpddr (65536 * 0x30) = true ∧ 65536 * 0x30 ≠ pteFrame leaf0.toNat ∧ s.tablesApart 1 0 (65536 * 0x30) 65536 = true ∧
     s.tablesApart 1 0 (pteFrame leaf0.toNat) 65536 = true ∧ s.frameTaken 0x30 = false ∧ isLpddr (65536 * 0x30 + 65536 - 1) = true ∧
     65536 * 0x30 / 2 ^ 46 = s.config.pkg.toNat ∧
     { s with pins := [(0x200000, 1)] }.still (pteFrame leaf0.toNat) 65536 = false) ∧
    (let s := tst 0x0010000000200162
     s.leaf 1 0 = some (0, 0x0010000000200162) ∧ pteBit 0x0010000000200162 8 = true ∧ s.tablesApart 1 0 (physLoc (pteFrame 0x0010000000200162 + 65535)) 1 = true) := by
  decide +kernel
/-- A charged page that an entry unmaps, and one that it may not. -/
theorem witness_PagesAreServiced_unmap :
    let s := { tst 0x0010000000006062 with charged := [{ owner := 1, page := 0, die := 0 }] }
    let u := ((begin_ true s).each [(0x14000, (0 : DWord))] (fun m e => m.physWrite e.1 (leBytes 8 e.2.toNat))).now
    s.walk 1 0 = .leaf 0 0x0010000000006062 ∧ s.installs [(0x14000, 0)] = true ∧ u.unmapped = s.charged ∧ (∀ c ∈ u.unmapped, s.unmaps c = true ∧ c.page < 2 ^ 41) ∧
    s.installs [(0x14004, 0)] = false ∧ s.unmapped = [] ∧ { s with pins := [(unbackedLoc 1 0, 1)] }.unmaps { owner := 1, page := 0, die := 0 } = false := by
  decide +kernel
/-- A host page in use, and none. -/
theorem witness_PagesAreServiced_ats :
    let x : LaneOp := { heldLane with loc := some (hostLoc 0x200000), state := .going }
    x.final = false ∧ hostLoc ((0x200FFF : DWord).toNat / 4096 * 4096) = hostLoc 0x200000 ∧ st.still (hostLoc 0x200000) 4096 = true ∧
    (let s := { st with pins := [(hostLoc 0x200000, 1)] }
     ∃ g ∈ s.pins, g.1 < hostLoc 0x200000 + 4096 ∧ hostLoc 0x200000 < g.1 + 65536) := by decide +kernel

/-! ## Words that do not perform, whole steps, and commands of engines -/

theorem framed_mov (c : Bool) (d b : Reg) : framed (.mov c d b) := ⟨rfl, fun _ h => Instr.noConfusion h, fun _ _ _ _ _ h => Instr.noConfusion h⟩
theorem framed_ld (c : Bool) (g : Guard) (fs : Bool) (n : BitVec 4) (d a : Reg) : framed (.ld c g fs n d a) :=
  ⟨rfl, fun _ h => Instr.noConfusion h, fun _ _ _ _ _ h => Instr.noConfusion h⟩
theorem framed_bar (c : Bool) (g : Guard) (n : BitVec 2) : framed (.bar c g n) :=
  ⟨rfl, fun _ h => Instr.noConfusion h, fun _ _ _ _ _ h => Instr.noConfusion h⟩
/-- A word of each kind: with a false guard, in a region that it aborts, with an empty queue, with a full one, and past the quota. -/
theorem witness_WordsPassHoldAbortOrTrap :
    (st.performers (.bar false never 0) = [] ∧ counts (.bar false never 0) = false) ∧
    (let s := withThreads (fun t => { t with preds := 2 })
     s.performers (.ld false ⟨true, 1⟩ true 0 8 4) = [] ∧ counts (.ld false ⟨true, 1⟩ true 0 8 4) = true) ∧
    (let s := withThreads (fun t => { t with region := some region0 })
     s.performers (.bar false always 0) = [0, 1] ∧ ∀ l ∈ [0, 1], s.regionStops (.bar false always 0) l = true ∧ (s.thread 0 l).region.isSome = true ∧
       (s.thread 0 l).aborting = none) ∧
    (let i := Instr.mov false 8 113
     let s := bound 8 []
     let u := withCur s (fun c => { c with pfx := .qnb 3 true })
     let v := withCur (bound 8 [entry0]) (fun c => { c with pfx := .qnb 3 true })
     s.performers i = [0, 1] ∧ (∀ l ∈ [0, 1], s.regionStops i l = false) ∧ qnbOf s.cur.pfx = none ∧ s.queueHeld i = true ∧
     qnbOf u.cur.pfx = some 3 ∧ u.queueHeld i = true ∧ v.queueHeld i = false ∧ qnbOf v.cur.pfx = some 3 ∧ v.pushed i = []) ∧
    (let i := Instr.mov false 113 1
     let s := withWarp (fun w => { w with queues := [(1, { Binding.none with kind := 10, qs := 1, hw := List.replicate 8 entry0, ring := [(0, entry0)] }),
                                                     (2, { Binding.none with kind := 1, qs := 1, hw := List.replicate 8 entry0, ring := [(0, entry0)] })] })
     s.performers (.mov false 114 1) = [0, 1] ∧ s.queueHeld (.mov false 114 1) = false ∧ (s.pushed (.mov false 114 1)).find? (fun x => s.pushFaults 0 (x - 112)) = some 114 ∧
     (∀ l ∈ [0, 1], mayTrap s l = true) ∧ (bound 1 (List.replicate 8 entry0)).queueHeld i = true) := by decide +kernel

/-- A state whose bundle is one word, and one whose bundle is two. -/
theorem witness_StepsRunTheDecodedWord :
    (let x : Slot := { ins := .add false 3 1 2, pfx := .none, pos := 1 }
     (match exec x.ins { st with bundle := [], cur := st.cur.at_ x } with | .next t => decide (t.cur.stay = []) | _ => false) = true) ∧
    (let t : Thread := { thr with pc := 0x44, pos := 1, line := [0x200, 0x0400C082] ++ List.replicate 14 0 }
     packetIx t.pc = some 0 ∧ decodeTableWord 32 (wordAt t.line 1).toNat = some (.add false 3 1 2) ∧ bitC (wordAt t.line 1) = false ∧ isPfx (wordAt t.line 1) = false ∧
     (wordAt t.line 1).toNat % 2 ^ 31 ≠ 0) := by decide +kernel
/-- The next state of an answer, where it is one. -/
def nextOf (o : Host.Outcome State Fault Refusal) : Option State := match o with | .next t => some t | _ => none
/-- The package with lane 1 in a handler. -/
def mixed : State := { st with cur := { cur0 with old := { cur0.old with threads := cur0.old.threads.set 1 { thr with priv := true } } } }
theorem witness_StepsRunTheDecodedWord_traps :
    let x : Slot := { ins := .sget false 3 0x50, pfx := .none, pos := 1 }
    [st, mixed].all (fun s => (nextOf (exec x.ins { s with bundle := [], cur := s.cur.at_ x })).any (fun t => t.cur.stay.isEmpty && !t.cur.traps.isEmpty)) = true ∧
    (nextOf (exec x.ins { mixed with bundle := [], cur := { mixed.cur.at_ x with lanes := [1] } })).any
      (fun u => u.cur.stay.isEmpty && u.cur.traps.isEmpty) = true := by decide +kernel
theorem witness_StepsRunTheDecodedWord_fetch :
    let s := { mst with mem := [(0x200040, 5), (0x200041, 2)] }
    (match s.fetchPlace 0 (s.thread 0 1).priv (s.thread 0 1).pc with
     | .ok loc _ _ _ => lineFailure (s.lineWords (loc - loc % 64)) == none && decide (0 < headerNpk (wordAt (s.lineWords (loc - loc % 64)) 0)) &&
         !midChain (s.lineWords (loc - loc % 64)) 0 (s.thread 0 1).pos
     | _ => false) = true ∧ packetIx (s.thread 0 1).pc = some 0 ∧ s.icache = [] ∧
    (match s.fetchPlace 0 (s.thread 0 1).priv (s.thread 0 1).pc with
     | .ok loc _ _ _ => s.lineFault (s.ownerOf 0) (loc - loc % 64) | _ => true) = false := by decide +kernel

/-- A command whose W0 is w0, with some mask, of a port of queue register 1. -/
def cmd0 (port : Nat) (w0 : Word) (mask : Word) (status : Option Nat) : Cmd :=
  { id := 5, port := port, warp := 0, mask := mask, words := w0 :: List.replicate 31 0, flag := none, status := status, bytes := 0, extra0 := 0
    extra3 := 0, owned := [], pins := [], begun := false, group := none }
/-- A group of packages 0 and 1. -/
def group0 : Group :=
  { owner := 1, members := [0, 1], ring := false, dl := 0, inst := 0, slot0 := 0, nslots := 0, next := 4, gen := 0, broken := false, abandoned := false
    closed := false, started := none, first := [], numbered := [], reply := none }
/-- The package with queue register 1 bound to a port whose head entry is a command. -/
def sending (kind : Nat) (words : List Word) (mask : Word) : State :=
  { bound kind [{ entry0 with words := words, mask := mask }] with groups := [(0, group0)] }
/-- The package with one command under way, results popped from queue register 2. -/
def running (c : Cmd) (hw : List QEntry) : State :=
  { withWarp (fun w => { w with queues := [(2, { Binding.none with kind := 6, eng := 1, hw := hw })] }) with cmds := [c] }

theorem witness_QueuesMove :
    st.receivable 0 1 = false ∧ (∀ k ∈ [1, 2, 3, 4, 5], (sending k (0x30000000 :: List.replicate 31 0) 0xFF).receivable 0 1 = true) ∧
    ((sending 1 (0 :: List.replicate 31 0) 3).received 0 1).port = 1 ∧
    (let c := (sending 2 (0x300F0000 :: List.replicate 31 0) 3).received 0 1
     c.port = 2 ∧ c.status = none ∧ 3 ≤ c.op) := by decide +kernel
theorem witness_QueuesMove_fabric :
    let s := sending 5 (0x400F0000 :: List.replicate 31 0) 0xFF
    let c := s.received 0 1
    s.receivable 0 1 = true ∧ c.port = 5 ∧ c.status = none ∧ fabricBad c = false ∧ s.group? c.gid = some group0 ∧ group0.owner = s.ownerOf 0 ∧
    group0.rank s.config.pkg = some 0 := by decide +kernel
theorem witness_QueuesMove_results :
    (let c := cmd0 1 0x00400000 3 (some 0)
     (running c []).cmd? 5 = some c ∧ c.res = true ∧ (running c []).resultReg 0 1 = some 2 ∧ (running c []).postable c = true ∧
     (running c (List.replicate 8 entry0)).postable c = false ∧ { running c [] with warps := st.warps }.resultReg 0 1 = none) ∧
    (let c := cmd0 1 0 3 (some 2)
     (running c []).cmd? 5 = some c ∧ c.res = false ∧ (lanesOf c.mask).find? (fun l => ((running c []).thread 0 l).life == .live) = some 0 ∧
     (lanesOf (cmd0 1 0 4 (some 2)).mask).find? (fun l => ((running c []).thread 0 l).life == .live) = none) := by decide +kernel
/-- A result that goes to the ring, entries of an INBOX, a ring entry that moves to the hardware, and an outbox that drains. -/
theorem witness_QueuesMove_rings :
    (let c := cmd0 1 0x00400000 3 (some 0)
     let s := { withWarp (fun w => { w with queues := [(2, { Binding.none with kind := 6, eng := 1, qs := 1, hw := List.replicate 8 entry0 })] }) with
       cmds := [c], tlb := mst.tlb }
     s.postable c = true ∧ 8 ≤ ((s.warp 0).queue 2).hw.length ∧
     (match s.translate (s.ownerOf 0) false .write 0 with | .ok .. => true | _ => false) = true) ∧
    ((bound 8 [entry0]).warp 0 |>.queue 1).kind = 8 ∧ ((bound 8 [entry0]).warp 0 |>.queue 1).ring = [] ∧
    (let s := withWarp (fun w => { w with queues := [(1, { Binding.none with kind := 8, ring := [(0, entry0)] })] })
     ((s.warp 0).queue 1).ring = [(0, entry0)] ∧ ((s.warp 0).queue 1).hw.length < 8) ∧
    (let s := { bound 9 [entry0] with
       boxes := [(2, { rings := List.replicate 4 { base := 0x5000, size := 4, prod := 0, cons := 0 }, lost := 0, events := [], outIndex := 0 })] }
     s.outReady 0 1 = true ∧ st.outReady 0 1 = false ∧ (s.box 2).rings.length = 4) := by decide +kernel

/-! ## Engines -/

/-- A command of a port with its first words. -/
def cmdOf (port : Nat) (words : List Word) (mask : Word) : Cmd := { cmd0 port 0 mask none with words := words ++ List.replicate (32 - words.length) 0 }
/-- A state with one command under way. -/
def doing (s : State) (c : Cmd) : State := { s with cmds := [c] }
/-- The copy that a command describes; one byte from 0 to 0 where it describes none. -/
def itsCopy (c : Cmd) : Copy :=
  (copyOf c).getD { zero := false, srcSp := 0, dstSp := 0, fe := false, src := 0, dst := 0, rows := 1, len := 1, sstride := 0, dstride := 0 }
/-- A copy of one byte of local memory, of one byte of generic memory, and one that clears a byte. -/
def copyLocal (dst : Word) : Cmd := cmdOf 1 [0x05000000, 0, 0, dst] 0xFF
def copyGeneric : Cmd := cmdOf 1 [0x04000000] 0xFF
def copyClear : Cmd := cmdOf 1 [0x10000000, 0, 0, 0, 0, 0x20000, 0, 1] 0xFF

/-- A state with some pages pinned once. -/
def pinnedOf (s : State) (pages : List Nat) : State := { s with pins := pages.map (fun p => (p, 1)) }
/-- A state whose page-lock tables hold one entry more than they have room for, all for one page. -/
def pinsFull (s : State) (page : Nat) : State := { s with pins := List.replicate (Config.pinEntries + 1) (page, 1) }
theorem pinned_replicate (page p n : Nat) (h : page ≠ p) : Cells.get 0 (List.replicate n (page, 1)) p = 0 := by
  induction n with
  | zero => rfl
  | succ n ih => simp [List.replicate_succ, Cells.get, h, ih]
/-- There is no room for another page where the tables are full. -/
theorem pinRoom_pinsFull (s : State) (page p : Nat) (d : Nat) (hd : d < 4) (hs : page < 2 ^ 80) (h : page ≠ p) (hp : (s.pageDies page).contains d = true) :
    (pinsFull s page).pinRoom [p] = false := by
  have e : (pinsFull s page).pageDies page = s.pageDies page := by
    have hn : ¬ (2 ^ 80 ≤ page) := Nat.not_le.2 hs
    unfold State.pageDies
    rw [if_neg hn, if_neg hn]
  have g : (pinsFull s page).pinned p = false := by simp [State.pinned, pinsFull, pinned_replicate page p _ h]
  simp only [State.pinRoom, show [p].eraseDups = [p] by simp [List.eraseDups, List.eraseDupsBy, List.eraseDupsBy.loop], List.filter_cons, g, Bool.not_false, if_true, List.filter_nil, List.isEmpty_cons, Bool.false_or]
  refine List.all_eq_false.2 ⟨d, by simp [hd], ?_⟩
  have n : ((pinsFull s page).pins.filter (fun q => ((pinsFull s page).pageDies q.1).contains d)).length = Config.pinEntries + 1 := by
    rw [show (pinsFull s page).pins = List.replicate (Config.pinEntries + 1) (page, 1) from rfl, List.filter_replicate, e, hp]; simp
  rw [n]; simp; omega
theorem witness_EnginesCarryOutCommands_full : (pinsFull (doing mst copyClear) 0).pinRoom [0x200000] = false :=
  pinRoom_pinsFull _ _ _ 0 (by decide) (by decide) (by decide) (by decide +kernel)
theorem witness_EnginesCarryOutCommands : st.cmd? 5 = none ∧
    (∀ c ∈ [copyLocal 64, copyGeneric, copyClear], (doing st c).cmd? 5 = some c ∧ (copyOf c).isSome = true ∧ c.port = 1 ∧ c.begun = false) ∧
    copyOf (cmdOf 1 [0x05100000] 0xFF) = none ∧ (cmdOf 1 [0x05100000] 0xFF).op = 0 ∧ copyClear.op = 1 ∧
    (.refused ∈ (doing st (copyLocal 0x80000000)).copyChecks (copyLocal 0x80000000) (itsCopy (copyLocal 0x80000000))) ∧
    (let s := doing st copyGeneric
     .refused ∉ s.copyChecks copyGeneric (itsCopy copyGeneric) ∧ anyWaits (s.copyChecks copyGeneric (itsCopy copyGeneric)) = true) ∧
    (let s := doing { ust with charged := [] } copyGeneric
     let d := itsCopy copyGeneric
     let ps := s.chargesOf 0 d.dstSp d.dst d.dstride d.rows d.len
     .refused ∉ s.copyChecks copyGeneric d ∧ anyWaits (s.copyChecks copyGeneric d) = false ∧ s.unitsCover 1 ps = false ∧ s.unitsWait 1 ps = false) ∧
    (let s := pinnedOf (doing mst copyClear) [0x200000]
     let d := itsCopy copyClear
     .refused ∉ s.copyChecks copyClear d ∧ anyWaits (s.copyChecks copyClear d) = false ∧ s.unitsCover 1 (s.chargesOf 0 d.dstSp d.dst d.dstride d.rows d.len) = true ∧
     pagesOfPlaces 0 (s.copyTo copyClear d) = [0x200000] ∧ s.pinRoom [0x200000] = true ∧ s.writable (some 5) (s.copyTo copyClear d) = true ∧
     s.blockHolds 5 (s.copyTo copyClear d) = false ∧ d.dstSp = 0 ∧ (∀ r < d.rows, s.moving 1 (rowAddr d.dst d.dstride r) d.len = false) ∧
     (∀ w ∈ s.warps, ∀ l < 32, (s.thread w.1 l).region = none) ∧
     { s with cmds := [copyClear, { copyGeneric with id := 6, owned := [lineOf 0x200000] }] }.writable (some 5) (s.copyTo copyClear d) = false) ∧
    (let c := { copyLocal 64 with begun := true }
     let s := doing st c
     let d := itsCopy c
     .refused ∉ s.copyChecks c d ∧ s.choices = [] ∧ d.rows = 1 ∧ (s.copyTo c d).Nodup ∧ (s.rowPlaces 0 .write d.dstSp d.dst d.dstride d.len 0).length = d.len ∧
     (s.rowPlaces 0 .read d.srcSp d.src d.sstride d.len 0).length = d.len ∧ ∀ p ∈ s.copyTo c d ++ s.copyFrom c d, s.lineFault 1 p = false) := by decide +kernel
/-- A copy that clears two rows of local memory. -/
def copyRows : Cmd := { cmdOf 1 [0x11000000, 0, 0, 0, 0, 0x20000, 0, 1] 0xFF with begun := true }
theorem witness_EnginesCarryOutCommands_rows :
    let s := doing st copyRows
    let d := itsCopy copyRows
    d.zero = true ∧ d.rows = 2 ∧ d.dstSp ≠ 0 ∧ .refused ∉ s.copyChecks copyRows d ∧ (s.copyTo copyRows d).Nodup ∧
    (∀ r ∈ [0, 1], (s.rowPlaces 0 .write d.dstSp d.dst d.dstride d.len r).length = d.len) ∧
    ∀ p ∈ s.copyTo copyRows d ++ s.copyFrom copyRows d, s.lineFault 1 p = false := by decide +kernel
/-- MATRIX commands, with their operands present and with one missing. -/
def matrixCmd (op : Word) (mask : Word) : Cmd := cmdOf 2 [op <<< 28] mask
theorem witness_EnginesCarryOutCommands_commands :
    ∀ p ∈ matrixCommands 5, (matrixCmd (BitVec.ofNat 32 p.2.2.1) 0xF).op = p.2.2.1 ∧ (matrixCmd (BitVec.ofNat 32 p.2.2.1) 0xF).mask &&& p.2.2.2 = p.2.2.2 ∧
      (matrixCmd (BitVec.ofNat 32 p.2.2.1) 0).mask &&& p.2.2.2 ≠ p.2.2.2 ∧
      bits (wordAt (matrixCmd (BitVec.ofNat 32 p.2.2.1) 0).words 0).toNat 27 20 = 0 := by decide +kernel
/-- A draw that is malformed, one that waits, and one of one logit; a tap with no step run, and one of no row. -/
theorem witness_EnginesCarryOutCommands_draw_tap :
    (let c := cmdOf 4 [0] 0x1FF
     let v := (List.range 8).map (fun i => wordAt c.words (i + 1))
     (doing st c).cmd? 5 = some c ∧ st.draw 0 false v = some (1, 0xFFFFFFFF, false) ∧ (doing st c).drawWaits 0 5 0 = false) ∧
    (let c := cmdOf 4 [0, 0, 0, 1] 0x1FF
     let v := (List.range 8).map (fun i => wordAt c.words (i + 1))
     st.draw 0 false v = none ∧ mst.draw 0 false v = some (0, 0, false) ∧
     { doing mst c with cmds := [{ c with id := 4 }, c] }.drawWaits 0 5 0 = true) ∧
    (let c := cmdOf 3 [0] 0x1FF
     let v := (List.range 8).map (fun i => wordAt c.words (i + 1))
     let s := { ist with
       launches := [(0, { launch0 with origin := .node 0 7 0 })], insts := [(0, { inst0 with state := .running })]
       graphs := [(0, { owner := 1, vf := 0, nodes := 1, succs := 0, image := List.replicate 32 0, runs := 7,
                         run := some { number := 7, nodes := [], ended := false, failed := false }, reports := [] })] }
     (match st.tapAnswer 0 v with | .status 6 => true | _ => false) = true ∧ (match s.tapAnswer 0 v with | .waits => true | _ => false) = true ∧
     (match { s with tlb := mst.tlb }.tapAnswer 0 v with
      | .go _ _ d _ rows => rows.isEmpty && (pinnedOf { s with tlb := mst.tlb } [0x200000]).pinRoom ({ s with tlb := mst.tlb }.pagesIn 1 (tapRanges v d))
      | _ => false) = true) := by decide +kernel
/-- Operations of a sequencer: one that takes its row group, and ones that complete. -/
def mop0 (what : MopWhat) (src : MopFrom) : Mop :=
  { id := 6, sched := 0, warp := 0, what := what, src := src, ctl := 0, args := [0, 64], block := List.replicate 64 0, status := 0, taken := [], done := [], gates := []
    seen := [], before := [], waits := false, pins := [], due := 0 }
theorem witness_EnginesCarryOutCommands_matrix : st.mop? 6 = none ∧
    (let q := mop0 .product (.cmd 5)
     let s := { doing st (cmdOf 2 [0] 3) with mops := [q] }
     let p := productOf q.ctl q.block
     let r := { q with taken := [0], gates := (List.range 16).map (fun j => (j, s.gateOf p j)) }
     s.mop? 6 = some q ∧ s.takes q 0 = true ∧ s.takes q 1 = false ∧ s.completes q = false ∧ q.open_ 1 = false ∧ q.seen = [] ∧ q.done = [] ∧ q.gates = [] ∧
     s.readable r 0 = true ∧ (∀ n ∈ (s.toRead r 0).2.2, isCxlLine n = false ∧ s.lineFault 1 (128 * n) = false) ∧ (productOf q.ctl q.block).a.fem ≠ 2 ∧ (productOf q.ctl q.block).b.fem ≠ 2) ∧
    (∀ what ∈ [MopWhat.product, .drainLocal, .zero], ∀ src ∈ [MopFrom.cmd 5, .word 4],
      let q := { mop0 what src with taken := [0], done := [0] }
      let s := { doing st (cmdOf 2 [0] 3) with mops := [q] }
      s.mop? 6 = some q ∧ s.completes q = true) ∧
    (∀ r, r < 16 → ∀ r', r' < 16 → r ≠ r' → let q := mop0 .drainLocal (.cmd 5)
      let base (r : Nat) : Nat := localLoc (st.warp 0).wg ((wordAt q.args 0).toNat + r * (wordAt q.args 1).toNat)
      base r + 4 * 16 ≤ base r' ∨ base r' + 4 * 16 ≤ base r) := by decide +kernel

/-! ## The fabric -/

/-- A collective of four bytes from generic address 0 to 4, number 4 of group 0. -/
def coll0 (op : Word) : Cmd := { cmdOf 5 [op <<< 28, 0, 0, 4, 0, 4] 0xFF with group := some (0, 4) }
/-- The package in the middle of one. -/
def collecting (op : Word) : State := { doing mst (coll0 op) with groups := [(0, group0)] }
/-- The part of the other member. -/
def part1 (op : BitVec 4) : PeerPart :=
  { rank := 1, op := op, red := 0, len := 4, root := 0, malformed := false, refused := false, lost := false, src := [1, 2, 3, 4] }

theorem witness_FabricMoves_collectives : st.cmd? 5 = none ∧ (∀ e ∈ collectives 5 [part1 0], e.2 < 5) ∧
    (∀ op ∈ [0, 1, 2, 3, 4], let c := coll0 (BitVec.ofNat 32 op)
      let s := collecting (BitVec.ofNat 32 op)
      s.cmd? 5 = some c ∧ c.status = none ∧ c.group = some (0, 4) ∧ c.op = op) ∧
    (collecting 0).group? 0 = some group0 ∧ group0.rank (collecting 0).config.pkg = some 0 ∧ group0.numbered = [] ∧ group0.partsOf 0 [part1 0] = true ∧
    group0.partsOf 0 [] = false ∧ (coll0 0).differs (part1 0) = false ∧ (coll0 0).differs (part1 1) = true ∧
    (pinnedOf (collecting 0) [0x200000]).pinRoom ((collecting 0).pagesIn 1 ((collecting 0).collRanges (coll0 0) 2)) = true ∧
    (collecting 0).writable (some 5) ((collecting 0).collTarget (coll0 0) 2) = true ∧
    (doing st (coll0 0)).ownPart (coll0 0) 2 = none ∧ (collecting 0).ownPart { coll0 0 with extra0 := 2 } 2 = some (.inl 2) ∧
    (collecting 0).ownPart (coll0 0) 2 = some (.inr [0, 0, 0, 0]) ∧
    (let c := coll0 2
     let out := collOut c group0 0 [0, 0, 0, 0] [part1 2]
     let places := (collecting 2).collTarget c 2
     out = [0, 0, 0, 0, 1, 2, 3, 4] ∧ places.Nodup ∧ places.length = out.length ∧
     { collecting 2 with cmds := [c, { copyGeneric with id := 6, owned := [lineOf 0x200000] }] }.writable (some 5) places = false) ∧
    collOut (coll0 4) group0 0 [] [part1 4] = [] := by decide +kernel
/-- A collective that finds no room for its pins. -/
theorem witness_FabricMoves_full : (pinsFull (collecting 0) 0).pinRoom [0x200000] = false ∧
    (collecting 0).pagesIn 1 ((collecting 0).collRanges (coll0 0) 2) = [0x200000] :=
  ⟨pinRoom_pinsFull _ _ _ 0 (by decide) (by decide) (by decide) (by decide +kernel), by decide +kernel⟩
theorem witness_FabricMoves : st.group? 0 = none ∧
    (let g := { group0 with ring := true, started := some 3 }
     let s := { st with groups := [(0, g)], insts := [(0, { inst0 with state := .running })], cmds := [{ coll0 0 with group := some (0, 1) }] }
     s.group? 0 = some g ∧ s.closable 0 g = true ∧ s.closable 0 group0 = false ∧ s.revolving g = true ∧ st.revolving group0 = false ∧ (s.cmds.map (·.id)).Nodup ∧
     pendingIn 0 (fun k => { g with numbered := [1] }.numbered.contains k) { coll0 0 with group := some (0, 1) } = true) ∧
    ((1 : BitVec 6) ≠ st.config.pkg ∧ 1 ∈ group0.members ∧ group0.broken = false ∧ group0.reply = none ∧ (collecting 0).revolving group0 = false ∧
     (collecting 0).copyOf_ 0 = none ∧ pendingIn 0 (fun _ => true) (coll0 0) = true) := by decide +kernel
/-- A launch packet of one gang of one thread. -/
def packet0 : List Byte := List.replicate 64 0
theorem witness_FabricMoves_launch :
    (let s := { st with groups := [(0, group0)] }
     s.group? 0 = some group0 ∧ (group0.rank s.config.pkg).isSome = true ∧ s.copyOf_ 0 = none ∧ (packetOf packet0).isSome = true ∧ s.loaded 1 = true ∧
     s.loaded 2 = false ∧ s.queued 0 < 1024) ∧
    (let l := { launch0 with origin := .copy 0, held := true }
     let s := { st with groups := [(0, group0)], launches := [(0, l)] }
     s.copyOf_ 0 = some (0, l) ∧ s.launch 0 = l ∧ ([0] : List (BitVec 4)).length + 1 = group0.members.length ∧
     ([0] : List (BitVec 4)).find? (· != 0) = none ∧ ([3] : List (BitVec 4)).find? (· != 0) = some 3) := by decide +kernel
theorem witness_FabricMoves_remote :
    (let places := (List.range 4).map (fun i => physLoc (0x200000 + i))
     st.remoteOk 1 0x200000 4 = true ∧ st.remoteOk 2 0x200000 4 = false ∧ st.writeFault 1 places = false ∧ places.Nodup ∧
     places.any (st.lineFault 1) = false ∧ atomSize 0 = 4 ∧ 0x200000 % 4 = 0) := by decide +kernel

/-! ## Runs, time and power -/

/-- The package with a launch whose one gang is still to place. -/
def unplaced : State := { st with warps := [], wgs := [], gangs := [], launches := [(0, { launch0 with nextGang := 0, wgsize := 33 })] }
/-- A graph of one node of a kind, running or waiting. -/
def graph0 (kind : Byte) (arg : Byte) (state : NodeState) : Graph :=
  { owner := 1, vf := 0, nodes := 1, succs := 0, image := [kind] ++ List.replicate 11 0 ++ [arg] ++ List.replicate 19 0, runs := 7
    run := some { number := 7, nodes := [{ NodeRun.fresh with state := state }], ended := false, failed := false }, reports := [] }
/-- The package with that graph. -/
def graphs (kind arg : Byte) (state : NodeState) : State := { mst with graphs := [(0, graph0 kind arg state)] }
/-- The run of that graph. -/
def run0 (state : NodeState) : Run := { number := 7, nodes := [{ NodeRun.fresh with state := state }], ended := false, failed := false }

theorem witness_RunsGoOn_gangs :
    (st.placePlan.2 = none) ∧ (∀ s ∈ [st, unplaced], ∀ l ∈ s.launches, l.2.complete = true → l.2.done = 0) ∧
    (match unplaced.placePlan.2 with | some (0, none, _, seats) => seats.length == 1 | _ => false) = true ∧
    (let s := { st with gangs := [(0, { Gang.none with state := .saved, wgs := [0] })] }
     (match s.placePlan.2 with | some (0, some 0, _, _) => true | _ => false) = true ∧ (s.gang 0).state = .saved) ∧
    ((st.launch 0).passedSince = none) ∧
    (let s := { st with launches := [(0, { launch0 with passedSince := some 1 })], fc := 4097 }
     (s.launch 0).passedSince = some 1 ∧ 1 + 4096 ≤ s.fc) := by decide +kernel
theorem witness_RunsGoOn_graphs : st.graph? 0 = none ∧
    (∀ k ∈ [(0 : Byte), 1, 3], (graphs k 1 .waiting).graph? 0 = some (graph0 k 1 .waiting) ∧ (graph0 k 1 .waiting).run = some (run0 .waiting) ∧
      (graph0 k 1 .waiting).ready (run0 .waiting) 0 = true ∧ (graph0 k 1 .waiting).nodeBad 0 = false) ∧
    (graph0 9 0 .waiting).nodeBad 0 = true ∧ (graph0 3 1 .waiting).kind 0 = 3 ∧ ((run0 .waiting).node 0).counted < (graph0 3 1 .waiting).arg32 0 ∧
    (match (graphs 0 0 .waiting).readPacket 1 false 0 with | .ok .. => true | _ => false) = true ∧
    (match st.readPacket 1 false 0 with | .wait .. => true | _ => false) = true ∧
    (match st.readPacket 1 false 1 with | .status .. => true | _ => false) = true ∧
    (graphs 1 0 .waiting).condition (graph0 1 0 .waiting) 0 = some (some 0) ∧ st.condition (graph0 1 0 .waiting) 0 = none ∧
    (graph0 1 0 .waiting).succ 0 true = [] := by decide +kernel
/-- The package with ticket 0 of its instance ACTIVE, its LASTTOK none, and the STEP node of its run running. -/
def stepping : State :=
  { graphs 4 0 .running with
    insts := [(0, { inst0 with state := .running })]
    mem := [(0x300003, 0x20), (0x30003C, 0xFF), (0x30003D, 0xFF), (0x30003E, 0xFF), (0x30003F, 0xFF)] }
theorem witness_RunsGoOn_steps : st.inst? 0 = none ∧
    (let x := { inst0 with state := .running }
     stepping.inst? 0 = some x ∧ stepping.runOver x = false ∧ stepping.stepNode x = some 0 ∧ x.stepDone = false ∧ stepping.ringsOver 0 = true ∧
     stepping.graph? x.stepgraph = some (graph0 4 0 .running) ∧ (graph0 4 0 .running).succ 0 false = [] ∧
     stepping.tickets x = [0] ∧ stepping.tkState x 0 = 2 ∧ stepping.tkField x 0 0 17 17 = 0 ∧ stepping.tk x 0 15 = 0xFFFFFFFF ∧ stepping.tk x 0 12 = 0 ∧
     { stepping with mem := [] }.tickets x = [] ∧
     { stepping with graphs := [], mem := [] }.runOver x = true ∧ x.removing = none ∧ x.staged = [] ∧
     (∀ g ∈ stepping.wgs, (stepping.wg g.1).bound = none)) ∧
    (ist.mayStep inst0 = false) ∧
    (let x := { inst0 with dirty := true }
     let s := { stepping with insts := [(0, x)], graphs := [(0, { graph0 4 0 .waiting with run := none })] }
     s.mayStep x = true ∧ ((begin_ true s).stepBegin 0).isSome = true) := by decide +kernel
/-- A tap with row 0 to do, the row on the board. -/
def tap0 : Tap :=
  { id := 9, inst := 0, owner := 1, desc := List.replicate 16 0, buf := 0x100, stride := 2, vector := 0, todo := [0], ntrap := 0, nruled := 0, bytes := 0, op := none, cmd := none }
def tapping : State :=
  { stepping with
    taps := [tap0], mktTag := [(64, 2)]
    mem := stepping.mem ++ [(marketLoc 67, 0x80), (marketLoc 72, 1)] }
theorem witness_RunsGoOn :
    (st.taps.find? (fun p => p.id == 9)) = none ∧ tapping.taps.find? (fun q => q.id == 9) = some tap0 ∧ (descOf tap0.desc).isSome = true ∧
    (let x := { inst0 with state := .running }
     let d := (descOf tap0.desc).getD { xf := fp16, ef := fp16, layer := 0, tap := 0, d := 1, f := 1, e := 0, bias := 0, pre := 0, theta := 0, dec := 0 }
     descOf tap0.desc = some d ∧ tapping.rowOn x 0 = some (0, 0, 0) ∧ tapping.rowOn x 1 = none ∧ tapping.rowNext tap0 x 0 0 = true ∧
     tapping.rowNext tap0 x 1 0 = false ∧ tapping.watches = [] ∧ tapping.gate x 0 0 = 0 ∧ tapping.tkState x 0 = 2 ∧
     { tapping with mem := [] }.tkState x 0 ≠ 2 ∧
     (match tapping.rowAnswer tap0 x d 0 0 0 with
      | some (.inr (rs, data)) => rs.isEmpty && changedFeats rs (data.features d) (clampAll rs (data.features d)) == []
      | _ => false) = true ∧
     Cells.get 0 tapping.mktTag ((x.gatebase + 0 * x.gstride + 0) / 64) = x.owner.toNat + 1) := by decide +kernel
theorem witness_RunsGoOn_watch : st.watch? 0 = none ∧
    (let w : Watch := { wid := 0x10001, inst := 0, tkid := 0, row := 0, tap := 0, vector := 0, addr := 0, d := 1, vals := [], handler := some 3 }
     let s := { tapping with watches := [w], launches := [(3, { st.launch 0 with complete := true })] }
     s.watch? 0x10001 = some w ∧ (s.launch 3).complete = true ∧ ({ s with launches := [(3, { st.launch 0 with complete := false })] }.launch 3).complete = false ∧ s.inst? 0 = some { inst0 with state := .running }) := by decide +kernel
/-- A row that waits for a page. -/
theorem witness_RunsGoOn_waits :
    let x := { inst0 with state := .running }
    ({ tapping with tlb := [] }.rowAnswer tap0 x ((descOf tap0.desc).getD { xf := fp16, ef := fp16, layer := 0, tap := 0, d := 1, f := 1, e := 0, bias := 0, pre := 0, theta := 0, dec := 0 }) 0 0 0).isNone =
      true := by decide +kernel

/-- A mailbox whose rings hold sixteen entries each. -/
def box0 : Mailbox := { rings := List.replicate 4 { base := 0x5000, size := 4, prod := 0, cons := 0 }, lost := 0, events := [], outIndex := 0 }
/-- The package with the mailboxes of physical function 0 and virtual function 0. -/
def mbx (s : State) : State := { s with boxes := [(0, box0), (2, box0)] }
/-- A command of the physical function, and one of the virtual function. -/
def hpf : CmdHeader := { fn := .pf false, seq := 9 }
def hvf : CmdHeader := { fn := .vf 0, seq := 9 }

theorem witness_TimeAndPower :
    (∀ w ∈ st.warps, w.2.meets = false) ∧ (st.scheds.map (·.1)).Nodup ∧ (st.warps.map (·.1)).Nodup ∧
    (let s := withWarp (fun w => { w with
       rejoin := [{ addr := 0x44, mask := 3 }], threads := w.threads.map (fun t => { t with mt := 0x44, hold := .parked }) })
     (s.warps.map (·.1)).Nodup ∧ (∀ l ∈ lanesOf 3, parkedAt s.ac ((s.warp 0).thread l) 0x44 = true) ∧ (s.warp 0).meets = true ∧ (s.warp 0).ended = false ∧
     ({ s with warps := [(0, { s.warp 0 with rejoin := [{ addr := 0x80, mask := 3 }] })] }.warp 0).meets = true) ∧
    (let s := withWarp (fun w => { w with rejoin := [{ addr := 0x44, mask := 3 }] })
     ∀ l ∈ lanesOf 3, parkedAt s.ac ((s.warp 0).thread l) 0x44 = false) ∧
    ((st.sched 0).rper = 0 ∧ (st.sched 0).tper = 0) ∧
    (let s := { st with scheds := [(0, { Sched.clear with rper := 1, period := 1024, tper := 2, tick := 2048, cntcVf := some 0 })] }
     let x := s.sched 0
     x.rper ≠ 0 ∧ 1024 * x.rper ≤ x.period ∧ x.tper ≠ 0 ∧ 1024 * x.tper ≤ x.tick ∧
     (s.residents 0).filter (fun w => some (s.launchOf w).vf == x.cntcVf) = [0] ∧ (List.range 32).find? (fun l => (s.thread 0 l).life == .live) = some 0 ∧
     (s.thread 0 0).pend = [] ∧ { s with warps := [] }.residents 0 = []) ∧
    st.boot.ready = true ∧ State.reset.boot.ready = false ∧ State.reset.boot.scrub = false ∧ State.reset.boot.confReq = false ∧
    (mbx st).serves hpf = true ∧ (mbx st).serves hvf = true ∧ isVf hpf.fn = false ∧ isVf hvf.fn = true ∧ st.serves hpf = false ∧
    (∀ f ∈ [1, 2, 3], (mbx st).headCommand f = none) ∧ (mbx st).headCommand 0 = none := by decide +kernel
/-- Whatever the phases of a bring-up find, one clause of the statement applies: it passes, or a first phase fails. -/
theorem witness_TimeAndPower_phases (b : Boot) : b.passes 3 = true ∨ ∃ p, 1 ≤ p ∧ p ≤ 3 ∧ b.passes (p - 1) = true ∧ b.passes p = false := by
  by_cases h1 : b.passes 1 = true
  · by_cases h2 : b.passes 2 = true
    · by_cases h3 : b.passes 3 = true
      · exact .inl h3
      · exact .inr ⟨3, by decide, by decide, h2, by simpa using h3⟩
    · exact .inr ⟨2, by decide, by decide, h1, by simpa using h2⟩
  · exact .inr ⟨1, by decide, by decide, rfl, by simpa using h1⟩
/-- Whatever the temperature is, one clause on the governor applies: here with a power of 0 under the limit of the package. -/
theorem witness_TimeAndPower_governor : 1050 ≤ st.temp.toInt ∨ st.temp.toInt < 1050 ∧ 0 ≤ st.boot.limit ∧ 0 * 100 ≤ st.boot.limit * 95 := by omega

/-- A stop of launch 0 under way, gang 0 the last to halt. -/
def stop0 : Stop := { job := .launch 0, mode := .save, drainMax := 5, todo := [0], halted := 0, reply := some hpf, switch := none }
/-- The package with gang 0 in a state and that stop. -/
def halting (state : GangState) (drainBy : Option Nat) (x : Stop) : State :=
  { mbx st with gangs := [(0, { Gang.none with state := state, wgs := [0], drainBy := drainBy })], stops := [x] }
theorem witness_HaltsAndSwitches :
    (mbx st).serves hpf = true ∧ st.serves hpf = false ∧ (mbx st).serves hvf = true ∧ st.boot.ready = true ∧ st.stops = [] ∧
    (mbx st).jobGangs (.launch 0) = [0] ∧ (mbx st).jobGangs (.launch 1) = [] ∧ (st.gangs.map (·.1)).Nodup ∧
    (let s := halting .saving none stop0
     s.saveQuiet 0 = true ∧ (s.gang 0).state = .saving ∧ s.mops = [] ∧ (s.gangWarps 0).Nodup ∧ { s with stops := [] }.saveQuiet 0 = true) ∧
    (let q := { mop0 .product (.cmd 5) with before := [(0, 3)], block := [0, 0, 8] ++ List.replicate 61 0 }
     let s := { halting .saving none stop0 with mops := [q], stops := [], cmds := [cmdOf 2 [0] 3] }
     s.saveQuiet 0 = true ∧ s.gangOf q.warp = 0 ∧ (q.before.map (·.1)).Nodup) ∧
    ((halting .retired none stop0).stops = [stop0] ∧ (halting .saved none { stop0 with todo := [0, 1] }).haltedGang 0 = true) ∧
    (let s := { halting .saved none { stop0 with todo := [0, 1] } with
       gangs := [(0, { Gang.none with state := .saved, wgs := [0] }), (1, { Gang.none with state := .placed })] }
     s.haltedGang 1 = false ∧ (s.gang 0).state ≠ .placed) ∧
    (let s := halting .placed none stop0
     (s.stops.find? (fun x => x.todo.head? == some 0)) = some stop0 ∧ s.haltMode stop0 0 = .save ∧ (s.gang 0).drainBy = none) ∧
    (let s := { halting .placed none stop0 with mem := [(localLoc 0 1, 0x80)] }
     s.haltMode { stop0 with mode := .adaptive } 0 = .drain) ∧
    (let s := { halting .placed none { stop0 with mode := .flushRestart } with launches := [(0, { launch0 with idem := true })] }
     s.haltMode { stop0 with mode := .flushRestart } 0 = .flush ∧ s.ops = [] ∧
     ∀ i ∈ s.gangWarps 0, let w := s.warp i
       s.gangOf i = 0 ∧ w.lxst = 0 ∧ w.queues = [] ∧ w.threads.length = 32 ∧ (∀ t ∈ w.threads, t.pend = [] ∧ t.region.isNone = true) ∧ ∃ t ∈ w.threads, t.life = .live) ∧
    (let s := { halting .placed (some 3) stop0 with fc := 3 }
     (s.gang 0).drainBy = some 3 ∧ 3 ≤ s.fc ∧ s.gangs.map (·.1) = [0]) := by decide +kernel
/-- Time-sliced virtual function 1 switched out, its saved counter that of scheduler 0, and tags that are being revoked. -/
def sliced (out : Bool) (area : DWord) : State :=
  { st with
    vfs := [(0, vf0), (1, { desc := { vf0.desc with spatial := false, saveArea := area }, out := out })]
    owners := [(1, owner1), (2, { owner1 with vf := some 1 })] }
/-- The first byte of each word of a saved record: scheduler 0, counter 0, tag 2, and four slots of event 0x101. -/
def record0 : List (Nat × Byte) :=
  [(0x40000, 2), (0x40003, 0x80)] ++ [0, 1, 2, 3].flatMap (fun j => [(0x40021 + 32 * j, 0x10), (0x40022 + 32 * j, 0x10)])
theorem witness_HaltsAndSwitches_worlds :
    st.timed 0 = false ∧ (sliced true 0).timed 1 = true ∧ (sliced false 0).timed 1 = true ∧
    bits (leNat ((sliced true 0).bytes 0 4)) 31 31 = 0 ∧ (∀ g ∈ (sliced true 0).gangs, ((sliced true 0).launch g.2.launch).vf ≠ 1) ∧
    (let s := { sliced true 0 with gangs := [(0, { Gang.none with cntc := [(0, 0x50003)] })], launches := [(0, { launch0 with owner := 2, vf := 1 })] }
     s.timed 1 = true ∧ (s.launch (s.gang 0).launch).vf = 1 ∧ bits (leNat (s.bytes (physLoc 0) 4)) 31 31 = 0) ∧
    (let s := { sliced true 0x40000 with mem := record0 }
     let record := s.bytes (physLoc 0x40000) 160
     let word := leNat (record.take 4)
     let part := fun j => (record.drop (32 + 32 * j)).take 32
     let cfg := fun j => leNat ((part j).take 4)
     let c := (s.sched 0).counter 0
     bits word 31 31 = 1 ∧ 4 * bits word 30 23 + bits word 22 21 = 0 ∧ bits word 20 18 = 0 ∧ bits word 11 0 = 2 ∧
     bits (leNat (s.bytes (physLoc (0x40000 + 160)) 4)) 31 31 = 0 ∧ s.vfOf 2 = some 1 ∧ c.claimed = false ∧ c.slots.length = 4 ∧
     0 < (s.sched 0).counters.length ∧ (s.sched 0).nset ≤ 4 ∧
     ∀ j, j < 4 → eventListed (bits (cfg j) 23 12) = true ∧ bits (cfg j) 26 24 = 0 ∧ bits (cfg j) 11 5 = 0) ∧
    (let s := sliced false 0x40000
     s.stops = [] ∧ s.jobGangs (.vf 1) = [] ∧ (∀ w ∈ s.warps, ∀ t ∈ w.2.threads, t.region.isNone = true) ∧
     s.claims.filter (fun c => s.vfOf c.2.2.owner == some 1) = [] ∧
     { s with scheds := [(0, { Sched.clear with counters := [{ Counter.clear with claimed := true, owner := 2 }] })] }.claims.length = 1) ∧
    (let s := { st with vfs := [(0, { vf0 with desc := { vf0.desc with spatial := false } })] }
     s.timed 0 = true ∧ s.jobGangs (.vf 0) = [0] ∧ (s.gangs.map (·.1)).Nodup) := by decide +kernel
theorem witness_HaltsAndSwitches_revocation :
    (let s := { mbx st with owners := [(1, { owner1 with kstate := .revoking })] }
     (s.owner 1).kstate = .revoking ∧ (s.launches.map (·.1)).Nodup ∧ s.heldLoads = [] ∧ s.cmds = [] ∧ s.mops = [] ∧ (st.owner 1).kstate ≠ .revoking) ∧
    (let c := { copyGeneric with begun := true }
     let s := { mbx st with owners := [(1, { owner1 with kstate := .revoking })], cmds := [c, { copyClear with id := 6 }] }
     (s.cmds.map (·.id)).Nodup ∧ s.ownerOf c.warp = 1 ∧ c.port = 1 ∧ c.status = none) ∧
    (let s := { mbx st with owners := [(1, { owner1 with kstate := .revoking })], launches := [(0, { launch0 with complete := true })], mktTag := [(3, 2)] }
     (∀ l ∈ s.launches, l.2.complete = true) ∧ s.ops = [] ∧ Cells.wf 0 s.mktTag = true ∧ (∀ g ∈ s.mktTag, g.1 < 2 ^ 21)) := by decide +kernel

/-! ## The host -/

theorem witness_BarAccesses :
    st.semaphores.getD 0 none = none ∧ (let s := { st with semaphores := some true :: List.replicate 15 none }
      s.semaphores.getD 0 none = some true ∧ s.semaphores.getD 0 none ≠ some false) ∧
    (0x100 : BitVec 13).toNat = 0x100 + 64 * 0 + 0 ∧ (0x1FC : BitVec 13).toNat = 0x100 + 64 * 3 + 0x3C ∧ (0x200 : BitVec 13).toNat = 0x200 ∧
    (((mbx st).consumed 0 2 0).box 0).events = [] ∧
    (let s := { st with boxes := [(0, { box0 with events := [List.replicate 64 1] })] }
     ((s.consumed 0 2 0).box 0).events = [List.replicate 64 1] ∧ (((s.consumed 0 2 0).box 0).ring 2).full = false) ∧
    (let u := (mbx st).rung 0 1
     let r := (u.box 0).ring 0
     (u.headCommand 0).isSome = true ∧ r.prod = r.cons + 1 ∧ u.mailBusy 0 = false ∧ (commandOf (.pf false) ((u.headCommand 0).getD [])).isNone = true) ∧
    (let u := { mbx st with mem := [(hostLoc 0x5003, 1)] }.rung 0 1
     (commandOf (.pf false) ((u.headCommand 0).getD [])).isSome = true) := by decide +kernel

/-- A virtual function's descriptor that every check passes. -/
def desc0 : VfDesc := { vf0.desc with spatial := false }
theorem witness_ConfigurationCommands :
    (∀ e ∈ ([.status hpf, .fwload hpf 0 64 false, .config hpf true 1 2 0 0, .confmode hpf true, .vfcfg hpf 1 false desc0, .vfcfg hpf 0 true desc0,
      .owner hpf 2 0 0x1000 [1, 0, 0, 0], .keyload hpf 1 0 96, .keyload hpf 1 0 95, .keyrevoke hpf 1 false, .keyrevoke hpf 3 false, .fabricJoin hpf,
      .fabricGroup hpf 1 0] : List Instr), ((mbx st).configures e).isSome = true) ∧ (mbx st).applies hpf false false = true ∧ (mbx st).applies hvf true false = true ∧
    (mbx st).applies hvf false false = false ∧ ({ mbx st with boot := State.reset.boot }).applies hpf true true = true ∧
    ({ mbx st with owners := [(1, { owner1 with kstate := .revoking })] }.owner 1).kstate = .revoking ∧ ((mbx st).owner 1).kstate = .loaded ∧
    ((0x40 : Word).toNat % 64 = 0 ∧ (0x40 : Word).toNat + 64 * 2 ≤ 2 ^ 27 ∧ (0x41 : Word).toNat % 64 ≠ 0) ∧
    (mbx st).group? 0 = none ∧
    (let s := { mbx (collecting 0) with groups := [(0, group0)] }
     s.applies hpf false false = true ∧ s.group? 0 = some group0 ∧ group0.reply = none ∧ s.revolving group0 = false ∧ s.copyOf_ 0 = none ∧
     (s.cmds.map (·.id)).Nodup ∧ pendingIn 0 (fun _ => true) (coll0 0) = true) := by decide +kernel

theorem witness_JobCommands :
    (let s := { mbx ist with graphs := [(0, { graph0 0 0 .waiting with run := none })] }
     (∀ e ∈ ([.instcfg hpf 1 0, .instcfgRemove hpf 2 false, .tkupd hpf 0 0, .graphInstall hpf 1 1 0 1 0, .graphStart hpf 0 1, .graphRemove hpf 0 1,
       .mailboxLaunch hpf 4095 false 0 0, .mailboxLaunch hpf 1 true 9 0, .mailboxLaunch hpf 1 false 0 1, .post hpf 7 0 0 0 0 0 0, .memwr hpf 1 0 0 0,
       .memrd hpf 1 0 4097 0] : List Instr), (s.manages e).isSome = true) ∧ s.applies hpf true false = true ∧ s.inst? 0 = some inst0 ∧ inst0.removing = none ∧ inst0.state = .idle) ∧
    (let s := mbx mst
     s.mayName hpf 1 = true ∧ s.mayName hvf 1 = true ∧ (s.owner 1).vf = some 0 ∧ (match s.readPacket 1 false 0 with | .ok .. => true | _ => false) = true ∧
     (match (mbx st).readPacket 1 false 0 with | .wait _ => true | _ => false) = true) ∧
    (let s := { mbx mst with groups := [(0, group0)] }
     s.group? 0 = some group0 ∧ group0.owner = 1 ∧ group0.broken = false ∧ (group0.rank s.config.pkg).isSome = true ∧ s.copyOf_ 0 = none ∧
     (match s.locked.readPacket 1 false 0 with | .ok .. => true | _ => false) = true ∧
     { s with launches := [(0, { launch0 with origin := .copy 0, held := true })] }.copyOf_ 0 ≠ none) := by decide +kernel
/-- Accesses of the host: refused, waiting, in the end carried out, or short of units. -/
def hostMode (s : State) : State := { mbx s with config := { s.config with applied := true, mailbox := true } }
theorem witness_JobCommands_access :
    (let s := hostMode mst
     let locs := s.placesOf 1 false .write 0 8
     s.config.mailbox = true ∧ s.applies hpf true false = true ∧ (match s.translateRange 1 false .write 0 8 with | .ok .. => true | _ => false) = true ∧
     s.writeFault 1 locs = false ∧ s.unitsCover 1 (s.toCharge 1 0 8) = true ∧ s.moving 1 0 8 = false ∧ s.writable none locs = true ∧
     { s with cmds := [{ copyGeneric with owned := [lineOf 0x200000] }] }.writable none locs = false ∧ locs.Nodup ∧ locs.length = 8 ∧ locs.any (s.lineFault 1) = false) ∧
    (hostMode st).translateRange 1 false .write 0x8000000000000000 8 = .refused ∧ anyWaits [(hostMode st).translateRange 1 false .write 0 8] = true ∧
    (let s := { hostMode ust with charged := [] }
     let u := { s with tlb := [{ owner := 1, page := 0, level := 0, pte := 0x00100000000060E2 }] }
     s.unitsCover 1 (s.toCharge 1 0 8) = false ∧ s.unitsWait 1 (s.toCharge 1 0 8) = false ∧ u.unitsCover 1 (u.toCharge 1 0 8) = false ∧
     u.unitsWait 1 (u.toCharge 1 0 8) = true ∧ s.writeFault 1 (s.placesOf 1 false .write 0 8) = false) ∧
    (let s := { mbx st with warps := [(0, { w0 with queues := [(1, { Binding.none with kind := 10, qs := 4, hw := List.replicate 8 entry0 })] })] }
     let b := (s.warp 0).queue 1
     s.applies hpf true false = true ∧ s.postWarp 0 0 0 0 = some 0 ∧ (s.warp 0).ended = false ∧ b.kind = 10 ∧ b.total < 8 + b.qs ∧ 8 ≤ b.hw.length) := by
  decide +kernel

/-! ## Words as a whole -/

theorem witness_DecodeAndEncodeAgree : ∀ i ∈ [Instr.add true 111 127 5, .ld false always true 6 8 4, .mma false never true 127 20],
    isWord i = true ∧ i.wellFormed = true := by decide +kernel
theorem witness_WordsLeaveManagementAlone : isWord (.tlbinvAll false always true) = true ∧ isWord (.counterAdvance) = false := by decide +kernel
end Sys2Proof.Tests
end

section
/-! SUPPORT. Every step of the package is made of effects, from which O47 follows. -/

namespace Sys2Proof.Machine

/-- Outcomes compose: what runs from a state that effects lead to runs from where they began. -/
theorem Runs.after {a b : State} {o : Out} (r : Reach true a b) (h : Runs true b o) : Runs true a o := by
  obtain ⟨t, e, q⟩ := h
  exact ⟨t, e, r.trans q⟩

theorem Runs.next {a b : State} (r : Reach true a b) : Runs true a (.next b) := ⟨b, rfl, r⟩

theorem runSlots_runs (b : List Slot) (s : State) : Runs true s (runSlots b s) := by
  induction b generalizing s with
  | nil => exact .next .start
  | cons x xs ih =>
    obtain ⟨t, e, r⟩ := exec_runs x.ins ((begin_ false s).modCur (fun c => c.at_ x)).now
    have q : Reach true s t := ((begin_ false s).modCur (fun c => c.at_ x)).reach.weaken.trans r
    simp only [runSlots, e]
    split
    · exact (ih t).after q
    · exact .next q

theorem takeAll_reach (got : List (Nat × TrapInfo)) (s : State) : Reach true s (takeAll got s) :=
  ((begin_ true s).each got (fun m x => m.takeTrap s.cur.warp x.1 (s.cur.thread x.1) x.2)).reach

/-- A chain runs again, without the lanes that trapped, at most as often as its count says. -/
theorem runChain_runs (n : Nat) (b : List Slot) (got : List (Nat × TrapInfo)) (s : State) :
    Runs true s (runChain n b got s) := by
  induction n generalizing got s with
  | zero => exact .next (takeAll_reach got s)
  | succ n ih =>
    obtain ⟨t, e, r⟩ := runSlots_runs b s
    simp only [runChain, e]
    split
    · exact .next (begin_ false s).stayAll.reach.weaken
    split
    · exact .next (r.trans (takeAll_reach got t))
    split
    · exact .next (takeAll_reach _ s)
    · exact (ih _ _).after (Sim.reach (sys := false) _).weaken

theorem closeBundle_reach (lanes : List Nat) (s : State) : Reach true s (closeBundle lanes s) := Sim.reach _

theorem runBundle_runs (s : State) : Runs true s (runBundle s) := by
  obtain ⟨t, e, r⟩ := runChain_runs 33 s.bundle [] ((begin_ false s).act (.bundle [])).now
  simp only [runBundle, e]
  exact .next ((((begin_ false s).act (.bundle [])).reach.weaken.trans r).trans (closeBundle_reach _ t))

/-- A command accepted under a check on its fields is the meaning it names. -/
theorem exec_of_accepted {c : Prop} [Decidable c] {g : State → Out} (i : Instr)
    (h : (if c then some (exec i) else none) = some g) : ∃ i, g = exec i := by
  split at h
  · exact ⟨i, (Option.some.inj h).symm⟩
  · cases h

/-- What 64 bytes of a command ring encode is the meaning of one of the machine's commands (R442). -/
theorem commandOf_exec {fn : HostFn} {ws : List Word} {g : State → Out} (h : commandOf fn ws = some g) :
    ∃ i, g = exec i := by
  unfold commandOf at h
  dsimp only at h
  split at h
  · exact exec_of_accepted (.status _) h
  · exact exec_of_accepted (.fwload ..) h
  · exact exec_of_accepted (.config ..) h
  · exact exec_of_accepted (.vfcfg ..) h
  · exact exec_of_accepted (.owner ..) h
  · split at h
    · exact exec_of_accepted (.keyload ..) h
    split at h
    · exact exec_of_accepted (.keyrevoke ..) h
    · cases h
  · split at h
    · exact exec_of_accepted (.instcfgRemove ..) h
    · exact exec_of_accepted (.instcfg ..) h
  · exact exec_of_accepted (.tkupd ..) h
  · split at h
    · exact exec_of_accepted (.graphInstall ..) h
    · exact exec_of_accepted (.graphStart ..) h
    · exact exec_of_accepted (.graphRemove ..) h
    · cases h
  · exact exec_of_accepted (.mailboxLaunch ..) h
  · split at h
    · exact exec_of_accepted (.stop ..) h
    · cases h
  · split at h
    · split at h
      · exact ⟨.memwr .., (Option.some.inj h).symm⟩
      · exact ⟨.memrd .., (Option.some.inj h).symm⟩
    · cases h
  · exact exec_of_accepted (.post ..) h
  · split at h
    · exact exec_of_accepted (.fabricJoin _) h
    · exact exec_of_accepted (.fabricGroup ..) h
    · exact exec_of_accepted (.fabricUngroup ..) h
    · cases h
  · exact exec_of_accepted (.confmode ..) h
  · exact exec_of_accepted (.reset ..) h
  · exact exec_of_accepted (.mktown ..) h
  · cases h

theorem mailbox_runs {s : State} {f : Nat} {o : Out} (h : s.mailbox f = some o) : Runs true s o := by
  unfold State.mailbox at h
  split at h
  · next g hg =>
    simp only [State.nextCommand, Option.ite_none_left_eq_some, Option.bind_eq_some_iff] at hg
    obtain ⟨-, ws, -, hc⟩ := hg
    obtain ⟨i, rfl⟩ := commandOf_exec hc
    obtain rfl := Option.some.inj h
    exact exec_runs i s
  · simp only [Option.ite_none_left_eq_some] at h
    obtain rfl := Option.some.inj h.2
    exact .next (Sim.reach _)

theorem mail_runs {s : State} {o : Out} (h : s.mail = some o) : Runs true s o := by
  obtain ⟨b, -, hb⟩ := List.mem_filterMap.mp (List.mem_of_find?_eq_some h)
  exact mailbox_runs hb

theorem stepTurn_runs (sc : Nat) (rest : List Nat) (s : State) : Runs true s (stepTurn sc rest s) := by
  unfold stepTurn
  split
  · exact exec_runs _ s
  · obtain ⟨t, e, r⟩ := exec_runs (.schedulerIssue sc) ((begin_ false s).act (.turns rest)).now
    have q : Reach true s t := ((begin_ false s).act (.turns rest)).reach.weaken.trans r
    simp only [e]
    split
    · exact .next q
    · exact (runBundle_runs t).after q

/-- An event that the agenda names runs in the state without it. -/
theorem event_runs (i : Instr) (rest : List Instr) (s : State) :
    Runs true s (exec i ((begin_ false s).act (.agenda rest)).now) :=
  (exec_runs i _).after ((begin_ false s).act (.agenda rest)).reach.weaken

theorem stepEnd_runs (s : State) : Runs true s (stepEnd s) := by
  unfold stepEnd
  split
  · next h => exact mail_runs h
  · split
    · exact event_runs _ _ s
    · exact .next .start

/-- Every step answers a next state that effects lead to. -/
theorem step_runs (s : State) : Runs true s (step s) := by
  unfold step
  split
  · exact runBundle_runs s
  split
  · exact event_runs _ _ s
  split
  · exact stepTurn_runs _ _ s
  · exact stepEnd_runs s

/-- Settles O47: a step is made of effects alone, and each effect keeps every storage canonical. -/
theorem stepsNeverStopAndStayCanonical : Obligations.StepsNeverStopAndStayCanonical := by
  intro s
  obtain ⟨t, e, r⟩ := step_runs s
  exact ⟨t, e, r.canonical⟩

end Sys2Proof.Machine
end

section
/-! SUPPORT. Bytes stored in a row, the rings of the mailbox, and the completion of a command. -/

namespace Sys2Proof.Machine

variable {k : Bool} {s0 : State}

/-! ## Bytes in a row -/

@[simp] theorem State.byte_store (s : State) (loc j : Nat) (b : Byte) :
    ((Act.store loc b).apply s).byte j = if loc = j then b else s.byte j :=
  Cells.get_set 0 s.mem loc j b

/-- A row of stores changes memory alone. -/
theorem Sim.store_rest (m : Sim k s0) (loc : Nat) (bs : List Byte) :
    (m.store loc bs).now = { m.now with mem := (m.store loc bs).now.mem } := by
  induction bs generalizing m loc with
  | nil => rfl
  | cons b bs ih => exact ih (m.act (.store loc b)) (loc + 1)

theorem Sim.store_byte (m : Sim k s0) (loc : Nat) (bs : List Byte) (j : Nat) :
    (m.store loc bs).now.byte j = if loc ≤ j ∧ j < loc + bs.length then bs.getD (j - loc) 0 else m.now.byte j := by
  induction bs generalizing m loc with
  | nil =>
    have h : ¬ (loc ≤ j ∧ j < loc + ([] : List Byte).length) := by simp only [List.length_nil]; omega
    rw [if_neg h]; rfl
  | cons b bs ih =>
    rw [Sim.store, ih, Sim.act_now, State.byte_store, List.length_cons]
    by_cases h : loc = j
    · subst h
      have h1 : ¬ (loc + 1 ≤ loc ∧ loc < loc + 1 + bs.length) := by omega
      have h2 : loc ≤ loc ∧ loc < loc + (bs.length + 1) := by omega
      rw [if_neg h1, if_pos h2, if_pos rfl, Nat.sub_self, List.getD_cons_zero]
    · rw [if_neg h]
      by_cases hj : loc + 1 ≤ j ∧ j < loc + 1 + bs.length
      · have h2 : loc ≤ j ∧ j < loc + (bs.length + 1) := by omega
        have e : j - loc = (j - (loc + 1)) + 1 := by omega
        rw [if_pos hj, if_pos h2, e, List.getD_cons_succ]
      · have h2 : ¬ (loc ≤ j ∧ j < loc + (bs.length + 1)) := by omega
        rw [if_neg hj, if_neg h2]

/-- Bytes read one by one are a list where each of its bytes stands at its place. -/
theorem State.bytes_eq {s : State} {loc : Nat} {bs : List Byte} (h : ∀ i < bs.length, s.byte (loc + i) = bs.getD i 0) :
    s.bytes loc bs.length = bs := by
  refine List.ext_getElem (by simp [State.bytes]) fun i h1 h2 => ?_
  simp only [State.bytes, List.getElem_map, List.getElem_range, h i h2]
  exact (List.getElem_eq_getD 0).symm

theorem Sim.store_written (m : Sim k s0) (loc : Nat) (bs : List Byte) : BytesWritten m.now (m.store loc bs).now loc bs := by
  refine ⟨State.bytes_eq fun i hi => ?_, fun j hj => ?_⟩
  · rw [Sim.store_byte, if_pos ⟨by omega, by omega⟩, Nat.add_sub_cancel_left]
  · rw [Sim.store_byte, if_neg hj]

/-- Two outcomes of the same bytes written in the same memory read alike. -/
theorem BytesWritten.byte_eq {s t u : State} {loc : Nat} {bs : List Byte} (h : BytesWritten s t loc bs) (g : BytesWritten s u loc bs)
    (j : Nat) : t.byte j = u.byte j := by
  by_cases hj : loc ≤ j ∧ j < loc + bs.length
  · have e : t.bytes loc bs.length = u.bytes loc bs.length := h.1.trans g.1.symm
    have := List.map_inj_left.mp e (j - loc) (List.mem_range.mpr (by omega))
    rwa [Nat.add_sub_cancel' hj.1] at this
  · rw [h.2 j hj, g.2 j hj]

/-! ## Keyed records -/

theorem Keyed.put_put {β : Type} (m : List (Nat × β)) (i : Nat) (x y : β) : Keyed.put (Keyed.put m i x) i y = Keyed.put m i y := by
  induction m with
  | nil => simp [Keyed.put]
  | cons e m ih =>
    obtain ⟨j, v⟩ := e
    by_cases h : j = i <;> simp [Keyed.put, h, ih]

/-- A record filed under a key that is listed leaves the keys as they are. -/
theorem Keyed.keys_put {β : Type} (m : List (Nat × β)) (i : Nat) (x : β) (h : i ∈ m.map (·.1)) :
    (Keyed.put m i x).map (·.1) = m.map (·.1) := by
  induction m with
  | nil => simp at h
  | cons e m ih =>
    obtain ⟨j, v⟩ := e
    by_cases hj : j = i
    · simp [Keyed.put, hj]
    · have hi : i ∈ m.map (·.1) := by simpa [Ne.symm hj] using h
      simp only [Keyed.put, hj, if_false, List.map_cons, ih hi]

theorem Keyed.mem_keys_put {β : Type} (m : List (Nat × β)) (i : Nat) (x : β) : i ∈ (Keyed.put m i x).map (·.1) := by
  induction m with
  | nil => simp [Keyed.put]
  | cons e m ih =>
    obtain ⟨j, v⟩ := e
    by_cases hj : j = i
    · simp [Keyed.put, hj]
    · simp only [Keyed.put, hj, if_false, List.map_cons]
      exact List.mem_cons_of_mem _ ih

/-- Where every key is listed once, a listed record is the one read under its key. -/
theorem Keyed.get_of_mem {β : Type} (dflt : β) {m : List (Nat × β)} (nd : (m.map (·.1)).Nodup) {i : Nat} {x : β} (h : (i, x) ∈ m) :
    Keyed.get dflt m i = x := by
  induction m with
  | nil => cases h
  | cons e m ih =>
    obtain ⟨j, v⟩ := e
    rw [List.map_cons, List.nodup_cons] at nd
    rcases List.mem_cons.mp h with h | h
    · cases h; simp [Keyed.get]
    · have hne : j ≠ i := fun e => nd.1 (e ▸ List.mem_map_of_mem (f := (·.1)) h)
      simp only [Keyed.get, hne, if_false, ih nd.2 h]

/-! ## Rings -/

@[simp] theorem State.box_put (s : State) (i j : Nat) (b : Mailbox) :
    State.box { s with boxes := Keyed.put s.boxes i b } j = if i = j then b else s.box j := Keyed.get_put ..

theorem Mailbox.ring_set (b : Mailbox) (rs : List Ring) (n j : Nat) (r : Ring) :
    Mailbox.ring { b with rings := rs.set n r } j = if n = j ∧ n < rs.length then r else Mailbox.ring { b with rings := rs } j := by
  simp only [Mailbox.ring, List.getD_eq_getElem?_getD, List.getElem?_set]
  by_cases h : n = j
  · subst h
    by_cases hl : n < rs.length
    · simp [hl]
    · simp [hl]
  · simp [h]

@[simp] theorem fnOf_fnIx (fn : HostFn) : fnOf (fnIx fn) = fn := by
  rcases fn with (_ | _) | n
  · rfl
  · rfl
  · have h1 : ¬ 2 + n.toNat = 1 := by omega
    simp [fnIx, fnOf, h1]

/-- An entry pushed to a ring: it stands at PROD, and PROD has moved on. -/
theorem Sim.pushRing_spec (m : Sim k s0) (f n size : Nat) (entry : List Byte) :
    let b := m.now.box f
    let r := b.ring n
    (m.pushRing f n size entry).now = { m.now with
      mem := (m.pushRing f n size entry).now.mem
      boxes := Keyed.put m.now.boxes f { b with rings := b.rings.set n { r with prod := r.prod + 1 } } } ∧
    BytesWritten m.now (m.pushRing f n size entry).now (hostLoc (r.addr + size * (r.prod.toNat % r.count))) entry := by
  intro b r
  have e := m.store_rest (hostLoc (r.addr + size * (r.prod.toNat % r.count))) entry
  have w := m.store_written (hostLoc (r.addr + size * (r.prod.toNat % r.count))) entry
  refine ⟨?_, w⟩
  simp only [Sim.pushRing, Sim.act_now, Act.apply]
  rw [e]

/-- The vector of the event interrupt of a function (R437). -/
def State.eventVector (s : State) (f : Nat) : Nat :=
  if f < 2 then 0 else match Keyed.find s.vfs (f - 2) with | some v => v.desc.irq.toNat | none => 0

theorem Sim.eventIrq_now (m : Sim k s0) (f : Nat) :
    (m.eventIrq f).now = { m.now with irqs := m.now.irqs ++ [(fnOf f, m.now.eventVector f)] } := rfl

theorem State.eventVector_pf (s : State) {f : Nat} (h : f < 2) : s.eventVector f = 0 := if_pos h

theorem State.eventVector_vf (s : State) {f : Nat} {d : Vf} (h : 2 ≤ f) (hv : Keyed.find s.vfs (f - 2) = some d) :
    s.eventVector f = d.desc.irq.toNat := by
  rw [State.eventVector, if_neg (Nat.not_lt.mpr h), hv]

/-- A completion leaves its entry in the completion ring and takes the command off its ring (R444). -/
theorem Sim.complete_answered (m : Sim k s0) (h : CmdHeader) (status : Nat) (v0 v1 : Word) :
    Answered m.now (m.complete h status v0 v1).now h status v0 v1 := by
  obtain ⟨e, w⟩ := m.pushRing_spec (fnIx h.fn) 1 16 (leBytes 4 h.seq.toNat ++ leBytes 4 status ++ wordBytes v0 ++ wordBytes v1)
  unfold Sim.complete
  dsimp only
  generalize m.pushRing (fnIx h.fn) 1 16 (leBytes 4 h.seq.toNat ++ leBytes 4 status ++ wordBytes v0 ++ wordBytes v1) = p at e w
  have hb : p.now.box (fnIx h.fn) = { m.now.box (fnIx h.fn) with
      rings := (m.now.box (fnIx h.fn)).rings.set 1 { (m.now.box (fnIx h.fn)).ring 1 with prod := ((m.now.box (fnIx h.fn)).ring 1).prod + 1 } } := by
    rw [e]; exact (State.box_put ..).trans (if_pos rfl)
  have h0 : (p.now.box (fnIx h.fn)).ring 0 = (m.now.box (fnIx h.fn)).ring 0 := by
    rw [hb, Mailbox.ring_set, if_neg (fun g => by omega)]
  rw [h0]
  split
  · next hc => exact ⟨by rw [Mailbox.answered, if_pos hc]; exact e, w⟩
  · next hc =>
    refine ⟨?_, w⟩
    rw [Mailbox.answered, if_neg hc, hb, Sim.act_now]
    conv => lhs; rw [e]
    simp only [Act.apply, Keyed.put_put]

/-! ## The command at the head of a ring -/

/-- Whether a command stands at the head of a ring is a matter of the ring alone. -/
theorem State.headCommand_eq_none {s : State} {f : Nat} :
    s.headCommand f = none ↔ ((s.box f).ring 0).count = 0 ∨ ((s.box f).ring 0).cons = ((s.box f).ring 0).prod := by
  simp only [State.headCommand]
  split <;> simp_all

/-- A ring that holds a command is one of the mailbox's own. -/
theorem State.rings_of_headCommand {s : State} {f : Nat} {ws : List Word} (h : s.headCommand f = some ws) :
    0 < (s.box f).rings.length := by
  rw [List.length_pos_iff]
  intro e
  have : s.headCommand f = none := State.headCommand_eq_none.mpr (by left; rw [Mailbox.ring, e]; rfl)
  rw [this] at h
  cases h

/-- The same state, but for how memory lists its bytes. -/
structure SameBytes (s t : State) : Prop where
  rest : t = { s with mem := t.mem }
  byte : ∀ j, t.byte j = s.byte j

theorem SameBytes.box {s t : State} (h : SameBytes s t) (f : Nat) : t.box f = s.box f := by rw [h.rest]; rfl

theorem SameBytes.headCommand {s t : State} (h : SameBytes s t) (f : Nat) : t.headCommand f = s.headCommand f := by
  have hr : ∀ a n, t.bytes a n = s.bytes a n := fun a n => by simp only [State.bytes, h.byte]
  simp only [State.headCommand, h.box, hr]

section
variable {s t : State} {h : CmdHeader} {st : Nat} {v0 v1 : Word} (a : Answered s t h st v0 v1)
include a

theorem Answered.box (f : Nat) : t.box f = if fnIx h.fn = f then (s.box f).answered else s.box f := by
  rw [a.rest]
  refine (State.box_put ..).trans ?_
  split
  · next e => subst e; rfl
  · rfl

/-- The ring of another function holds what it held. -/
theorem Answered.headCommand_other {f : Nat} (hf : f ≠ fnIx h.fn) (hn : s.headCommand f = none) : t.headCommand f = none := by
  rw [State.headCommand_eq_none] at hn ⊢
  rwa [a.box, if_neg (Ne.symm hf)]

/-- A completion of the last command of a ring empties it. -/
theorem Answered.headCommand_last {ws : List Word} (hw : s.headCommand (fnIx h.fn) = some ws)
    (hl : ((s.box (fnIx h.fn)).ring 0).prod = ((s.box (fnIx h.fn)).ring 0).cons + 1) : t.headCommand (fnIx h.fn) = none := by
  have hp := State.rings_of_headCommand hw
  have hc : ¬ ((s.box (fnIx h.fn)).ring 0).cons = ((s.box (fnIx h.fn)).ring 0).prod := fun e => by
    rw [State.headCommand_eq_none.mpr (.inr e)] at hw; cases hw
  rw [State.headCommand_eq_none, a.box, if_pos rfl, Mailbox.answered, if_neg hc, Mailbox.ring_set,
    if_pos ⟨rfl, by rw [List.length_set]; exact hp⟩]
  exact .inr hl.symm

/-- Two completions of one command differ at most in how memory lists its bytes. -/
theorem Answered.unique {u : State} (g : Answered s u h st v0 v1) : SameBytes t u := by
  refine ⟨?_, g.entry.byte_eq a.entry⟩
  rw [a.rest]
  exact g.rest

/-- How memory lists its bytes is nothing to a completion. -/
theorem Answered.of_sameBytes {r : State} (q : SameBytes r s) : Answered r t h st v0 v1 := by
  have hb := q.box (fnIx h.fn)
  refine ⟨?_, ?_⟩
  · rw [← hb]
    refine a.rest.trans ?_
    rw [q.rest]
  · rw [← hb]
    exact ⟨a.entry.1, fun j hj => (a.entry.2 j hj).trans (q.byte j)⟩
end

/-! ## Commands that encode none -/

/-- What follows a write that moves a ring: the command at its head is looked at. -/
theorem Sim.badCommands_headRead (m : Sim k s0) (fn : HostFn) (n : Nat) :
    HeadRead m.now (m.badCommands (fnIx fn) (n + 2)).now fn := by
  refine ⟨fun h => ?_, fun ws hw hl hb hc => ?_⟩
  · unfold Sim.badCommands
    split
    · rfl
    · next ws hw =>
      rw [if_pos]
      rcases h with h | h | ⟨v, hv, hc⟩
      · rw [hw] at h; cases h
      · rw [h, Bool.true_or]
      · rw [hw] at hv; cases hv
        rw [fnOf_fnIx, hc, Bool.or_true]
  · have hn : (m.now.mailBusy (fnIx fn) || (commandOf fn ws).isSome) = false := by
      rw [hb, Option.isNone_iff_eq_none.mp hc]; rfl
    unfold Sim.badCommands
    simp only [hw, fnOf_fnIx, hn, Bool.false_eq_true, if_false]
    generalize hst : (if (isVf fn && opcListed (cmdField ws 0 31 24) && !vfOpc (cmdField ws 0 31 24)) = true then 2 else 1) = st
    have a := m.complete_answered { fn := fn, seq := (wordAt ws 0).extractLsb' 0 16 } st 0 0
    have e : (m.complete { fn := fn, seq := (wordAt ws 0).extractLsb' 0 16 } st 0 0).badCommands (fnIx fn) (n + 1) =
        m.complete { fn := fn, seq := (wordAt ws 0).extractLsb' 0 16 } st 0 0 := by
      have hz := a.headCommand_last hw hl
      unfold Sim.badCommands
      simp only [hz]
    rw [e]
    have hs : st = if isVf fn = true ∧ opcListed (cmdField ws 0 31 24) = true ∧ vfOpc (cmdField ws 0 31 24) = false then 2 else 1 := by
      simp only [← hst, Bool.and_eq_true, Bool.not_eq_true', and_assoc]
    rw [← hs]
    exact a

end Sys2Proof.Machine
end

section
/-! SUPPORT. The registers of BAR 0 and the writes of the host that move a ring, from which O58 follows. -/

namespace Sys2Proof.Machine

variable {k : Bool} {s0 : State}

/-! ## Offsets -/

/-- An offset among the rings names one ring and one register of it (R437). -/
theorem barRing_of_offset {offset : BitVec 13} {n reg : Nat} (hn : n < 4) (hr : reg < 64)
    (ho : offset.toNat = 0x100 + 64 * n + reg) : barRing offset = some (n, reg) := by
  have hd : (0x100 + 64 * n + reg - 0x100) / 0x40 = n := by omega
  have hm : (0x100 + 64 * n + reg - 0x100) % 0x40 = reg := by omega
  have hi : 0x100 ≤ 0x100 + 64 * n + reg ∧ 0x100 + 64 * n + reg < 0x200 := by omega
  simp only [barRing, ho, if_pos hi, hd, hm]

theorem barRing_eq_none {offset : BitVec 13} (h : offset.toNat < 0x100 ∨ 0x200 ≤ offset.toNat) : barRing offset = none := by
  have hn : ¬ (0x100 ≤ offset.toNat ∧ offset.toNat < 0x200) := by omega
  simp only [barRing, if_neg hn]

theorem toNat_ring_offset {n reg : Nat} (hn : n < 4) (hr : reg < 64) :
    (BitVec.ofNat 13 (0x100 + 64 * n + reg)).toNat = 0x100 + 64 * n + reg := by
  rw [BitVec.toNat_ofNat]; exact Nat.mod_eq_of_lt (by omega)

/-- The register of a ring at an offset within it (R437). -/
def Mailbox.register (b : Mailbox) (n reg : Nat) : Word :=
  match reg with
  | 0x00 => lo32 (b.ring n).base
  | 0x04 => hi32 (b.ring n).base
  | 0x08 => BitVec.ofNat 32 ((b.ring n).size % 32)
  | 0x0C => (b.ring n).prod.setWidth 32
  | 0x10 => (b.ring n).cons.setWidth 32
  | 0x14 => if n = 2 then b.lost else 0
  | _ => 0

theorem Mailbox.register_past (b : Mailbox) (n : Nat) {reg : Nat} (h : 0x18 ≤ reg) : b.register n reg = 0 := by
  unfold Mailbox.register
  split <;> first | omega | rfl

/-- A read among the rings reads the ring and the register that the offset names. -/
theorem State.barReg_ring (s : State) (fn : HostFn) {n reg : Nat} (hn : n < 4) (hr : reg < 64) :
    s.barReg fn (BitVec.ofNat 13 (0x100 + 64 * n + reg)) = (s.box (fnIx fn)).register n reg := by
  have ho := toNat_ring_offset hn hr
  have h0 : BitVec.ofNat 13 (0x100 + 64 * n + reg) ≠ 0 := fun e => by rw [e] at ho; simp at ho; omega
  have h4 : BitVec.ofNat 13 (0x100 + 64 * n + reg) ≠ 4 := fun e => by rw [e] at ho; simp at ho; omega
  unfold State.barReg
  rw [if_neg h0, if_neg h4, barRing_of_offset hn hr ho]
  rfl

/-! ## Writes that move a ring -/

/-- PROD as a write leaves it, clamped, is PROD as R438 has it. -/
theorem Ring.clamped_eq (r : Ring) : r.clamped =
    if r.count ≠ 0 ∧ r.count < (r.prod - r.cons).toNat then { r with prod := r.cons + BitVec.ofNat 16 r.count } else r := by
  simp only [Ring.clamped, Bool.and_eq_true, bne_iff_ne, decide_eq_true_eq]

theorem doorbell_headRead (fn : HostFn) (prod : BitVec 16) (s : State) :
    ∃ t, exec (.doorbell fn prod) s = .next t ∧ HeadRead (s.rung (fnIx fn) prod) t fn := by
  let u := (begin_ true s).act (.box (fnIx fn) { s.box (fnIx fn) with
    rings := (s.box (fnIx fn)).rings.set 0 ({ (s.box (fnIx fn)).ring 0 with prod := prod } : Ring).clamped })
  have hu : u.now = s.rung (fnIx fn) prod := by
    simp only [u, Sim.act_now, begin_now, Act.apply, State.rung, Ring.clamped_eq]
    congr 3
    split <;> split <;> first | rfl | contradiction
  refine ⟨(u.badCommands (fnIx fn) 65536).now, rfl, ?_⟩
  rw [← hu]
  exact u.badCommands_headRead fn 65534

theorem Sim.drainEvents_none (m : Sim k s0) (f n : Nat)
    (h : (m.now.box f).events = [] ∨ ((m.now.box f).ring 2).full = true) : m.drainEvents f n = m := by
  cases n with
  | zero => rfl
  | succ n =>
    unfold Sim.drainEvents
    dsimp only
    split
    · rfl
    · next e es he =>
      rcases h with h | h
      · rw [h] at he; cases he
      · rw [if_pos h]

/-- The one buffered event goes out, with its interrupt, and none is left. -/
theorem Sim.drainEvents_one (m : Sim k s0) (f n : Nat) {e : List Byte} (he : (m.now.box f).events = [e])
    (hf : ((m.now.box f).ring 2).full = false) : EventOut m.now (m.drainEvents f (n + 1)).now f e := by
  let p := (m.act (.box f { m.now.box f with events := [] })).pushRing f 2 64 e
  have hb : (m.act (.box f { m.now.box f with events := [] })).now.box f = { m.now.box f with events := [] } :=
    (State.box_put ..).trans (if_pos rfl)
  obtain ⟨hp, hw⟩ := (m.act (.box f { m.now.box f with events := [] })).pushRing_spec f 2 64 e
  rw [hb] at hp hw
  have hr : p.now = { m.now with mem := p.now.mem, boxes := Keyed.put m.now.boxes f { m.now.box f with
      events := [], rings := (m.now.box f).rings.set 2 { (m.now.box f).ring 2 with prod := ((m.now.box f).ring 2).prod + 1 } } } := by
    refine hp.trans ?_
    simp only [p, Sim.act_now, Act.apply, Keyed.put_put]
    rfl
  have hd : m.drainEvents f (n + 1) = p.eventIrq f := by
    have h1 : m.drainEvents f (n + 1) = (p.eventIrq f).drainEvents f n := by
      rw [Sim.drainEvents]
      simp only [he, hf, Bool.false_eq_true, if_false]
      rfl
    rw [h1]
    refine Sim.drainEvents_none _ f n (.inl ?_)
    show (p.now.box f).events = []
    rw [hr]
    exact congrArg Mailbox.events ((State.box_put ..).trans (if_pos rfl))
  have hv : p.now.vfs = m.now.vfs := by rw [hr]
  have hx : p.now.eventVector f = m.now.eventVector f := by rw [State.eventVector, hv]; rfl
  rw [hd]
  refine ⟨⟨m.now.eventVector f, ?_, m.now.eventVector_pf, fun d => m.now.eventVector_vf⟩, hw⟩
  rw [Sim.eventIrq_now, hx]
  conv => lhs; rw [hr]

theorem consumerIndexWrite_consumed (fn : HostFn) (n : BitVec 2) (cons : BitVec 16) (s : State) (hn : n ≠ 0) :
    ∃ t, exec (.consumerIndexWrite fn n cons) s = .next t ∧ Consumed s t fn n.toNat cons := by
  let u := (begin_ true s).act (.box (fnIx fn) { s.box (fnIx fn) with
    rings := (s.box (fnIx fn)).rings.set n.toNat { (s.box (fnIx fn)).ring n.toNat with cons := cons } })
  have hz : n.toNat ≠ 0 := fun h => hn (BitVec.eq_of_toNat_eq h)
  refine ⟨((u.drainEvents (fnIx fn) 256).badCommands (fnIx fn) 65536).now, ?_, fun h => ?_, fun e he hf => ?_⟩
  · simp only [exec_consumerIndexWrite, execConsumerIndexWrite, if_neg hz]
    rfl
  · rw [u.drainEvents_none (fnIx fn) 256 h]
    exact u.badCommands_headRead fn 65534
  · exact ⟨_, u.drainEvents_one (fnIx fn) 255 he hf, (u.drainEvents (fnIx fn) 256).badCommands_headRead fn 65534⟩

/-! ## REGISTER_WRITE -/

/-- A write of a register of a ring, by the register (R437). -/
theorem registerWrite_ring {fn : HostFn} {offset : BitVec 13} {v : Word} {n reg : Nat} (s : State) :
    barRing offset = some (n, reg) →
    let r := (s.box (fnIx fn)).ring n
    let put := fun r => Host.Outcome.next { s with
      boxes := Keyed.put s.boxes (fnIx fn) { s.box (fnIx fn) with rings := (s.box (fnIx fn)).rings.set n r } }
    exec (.registerWrite fn offset v) s = match reg with
      | 0x00 => if r.count = 0 then put { r with base := cat64 (hi32 r.base) v } else .next s
      | 0x04 => if r.count = 0 then put { r with base := cat64 v (lo32 r.base) } else .next s
      | 0x08 =>
        let q : Ring := { r with size := v.toNat % 32 }
        put (if n = 0 then q.clamped else q)
      | 0x0C => if n = 0 then exec (.doorbell fn (v.extractLsb' 0 16)) s else .next s
      | 0x10 => if n = 0 then .next s else exec (.consumerIndexWrite fn (BitVec.ofNat 2 n) (v.extractLsb' 0 16)) s
      | _ => .next s := by
  intro ho
  simp only [exec_registerWrite, execRegisterWrite, ho]
  rfl

/-! ## The statement -/

theorem semaphores_access (s : State) (port : Bool) (i : BitVec 4) :
    (s.semaphores.getD i.toNat none = none → exec (.semaphoreRead port i) s = .next
      { s with semaphores := s.semaphores.set i.toNat (some port), barRead := 0x80000000 + if port then 1 else 0 }) ∧
    (∀ holder, s.semaphores.getD i.toNat none = some holder → exec (.semaphoreRead port i) s = .next
      { s with barRead := 0x40000000 + if holder then 1 else 0 }) ∧
    (s.semaphores.getD i.toNat none = some port → exec (.semaphoreWrite port i) s = .next { s with semaphores := s.semaphores.set i.toNat none }) ∧
    (s.semaphores.getD i.toNat none ≠ some port → exec (.semaphoreWrite port i) s = .next s) := by
  refine ⟨fun h => ?_, fun holder h => ?_, fun h => ?_, fun h => ?_⟩
  · simp only [exec_semaphoreRead, execSemaphoreRead, h]; rfl
  · simp only [exec_semaphoreRead, execSemaphoreRead, h]; rfl
  · rw [exec_semaphoreWrite, execSemaphoreWrite, if_pos h]; rfl
  · rw [exec_semaphoreWrite, execSemaphoreWrite, if_neg h]; rfl

/-- Settles O58: each read is the register that its offset names, and each write that moves a ring is a doorbell or a
consumer index, after which buffered events go out and the command at the head is looked at. -/
theorem barAccesses : Obligations.BarAccesses := by
  refine ⟨fun s fn n hn => ?_, semaphores_access, fun s fn prod => doorbell_headRead fn prod s,
    fun s fn n cons => ⟨?_, consumerIndexWrite_consumed fn n cons s⟩, fun s fn offset v => ⟨?_, fun n reg hn hr ho => ?_⟩⟩
  · refine ⟨s.barReg_ring fn hn (by decide), s.barReg_ring fn hn (by decide), s.barReg_ring fn hn (by decide),
      s.barReg_ring fn hn (by decide), s.barReg_ring fn hn (by decide), s.barReg_ring fn hn (by decide), fun reg h1 h2 => ?_, rfl, rfl⟩
    exact (s.barReg_ring fn hn h2).trans (Mailbox.register_past _ n h1)
  · rintro rfl; rfl
  · intro h
    simp only [exec_registerWrite, execRegisterWrite, barRing_eq_none h]; rfl
  · have e := registerWrite_ring (fn := fn) (v := v) s (barRing_of_offset hn hr ho)
    refine ⟨?_, ?_, ?_, ?_, ?_, ?_⟩
    · rintro rfl
      exact e.trans (apply_ite Host.Outcome.next _ _ _).symm
    · rintro rfl
      exact e.trans (apply_ite Host.Outcome.next _ _ _).symm
    · rintro rfl
      refine e.trans ?_
      dsimp only
      rw [Ring.clamped_eq]
      by_cases hz : n = 0 <;> simp [hz]
    · rintro rfl rfl
      rw [e]
      exact doorbell_headRead fn _ s
    · rintro rfl hz
      have hb : (BitVec.ofNat 2 n).toNat = n := by rw [BitVec.toNat_ofNat]; exact Nat.mod_eq_of_lt hn
      have := consumerIndexWrite_consumed fn (BitVec.ofNat 2 n) (v.extractLsb' 0 16) s (fun h => hz (by rw [← hb, h]; rfl))
      rw [hb] at this
      rw [e]
      simpa only [if_neg hz] using this
    · intro hC h10 h0 h4 h8
      rw [e]
      split
      · exact absurd rfl h0
      · exact absurd rfl h4
      · exact absurd rfl h8
      · exact if_neg (hC rfl)
      · exact if_pos (h10 rfl)
      · rfl

end Sys2Proof.Machine
end

section
/-! SUPPORT. Bring-up, the governor, reports to the host, and the package reset. -/

namespace Sys2Proof.Machine

variable {k : Bool} {s0 : State}

/-! ## Bring-up (R431–R433) -/

/-- The phase that fails is the first that does not pass. -/
theorem Boot.failing_eq_some {b : Boot} {p : Nat} (h1 : 1 ≤ p) (h3 : p ≤ 3) (hp : b.passes (p - 1) = true) (hf : b.passes p = false) :
    b.failing = some p := by
  obtain rfl | rfl | rfl : p = 1 ∨ p = 2 ∨ p = 3 := by omega
  · grind [Boot.passes, Boot.failing]
  · grind [Boot.passes, Boot.failing]
  · grind [Boot.passes, Boot.failing]

theorem Boot.failing_eq_none {b : Boot} (h : b.passes 3 = true) : b.failing = none := by
  grind [Boot.passes, Boot.failing]

/-- The lines in error once the places that a sweep found are among them. -/
def badWith (bad : List (Nat × Bool)) (found : List Nat) : List (Nat × Bool) :=
  found.foldl (fun m a => Cells.set false m (lineOf (physLoc a)) true) bad

theorem get_badWith (bad : List (Nat × Bool)) (found : List Nat) (line : Nat) :
    Cells.get false (badWith bad found) line = true ↔
      Cells.get false bad line = true ∨ ∃ a ∈ found, line = lineOf (physLoc a) := by
  induction found generalizing bad with
  | nil => simp [badWith]
  | cons a as ih =>
    refine (ih _).trans ?_
    rw [Cells.get_set]
    by_cases h : lineOf (physLoc a) = line
    · simp [h]
    · simp [h, Ne.symm h]

theorem Sim.each_bad (m : Sim k s0) (found : List Nat) :
    (m.each found (fun m a => m.act (.bad (lineOf (physLoc a)) true))).now = { m.now with bad := badWith m.now.bad found } := by
  induction found generalizing m with
  | nil => rfl
  | cons a as ih => exact ih (m.act (.bad (lineOf (physLoc a)) true))

/-- What POWER_ON leaves: the record of the bring-up, HOSTMODE, and the lines that a sweep of this bring-up found. -/
theorem powerOn_notReady {s : State} (h : s.boot.ready = false) :
    exec .powerOn s = .next { s with
      config := s.hosted s.boot.broughtUp.conf, boot := s.boot.broughtUp
      bad := if s.boot.broughtUp.scrubSeq = s.boot.scrubSeq then s.bad else badWith s.bad s.boot.broughtUp.found } := by
  rw [exec_powerOn, execPowerOn, h]
  simp only [Bool.false_eq_true, if_false, ran]
  by_cases hq : s.boot.broughtUp.scrubSeq = s.boot.scrubSeq
  · have hb : (s.boot.broughtUp.scrubSeq != s.boot.scrubSeq) = false := by simp [hq]
    rw [hb, if_pos hq]
    cases hc : s.boot.broughtUp.conf <;> rfl
  · have hb : (s.boot.broughtUp.scrubSeq != s.boot.scrubSeq) = true := by simp [hq]
    rw [hb, if_neg hq]
    simp only [Sim.when_true, Sim.each_bad]
    cases hc : s.boot.broughtUp.conf <;> rfl

/-- A bring-up that fails stands in the safe state of its phase (R433). -/
theorem powerOn_fails {s : State} {p : Nat} (hr : s.boot.ready = false) (hf : s.boot.failing = some p) :
    exec .powerOn s = .next { s with
      config := s.hosted s.boot.conf, boot := { s.boot with phase := p, safe := true, ready := false, boots := s.boot.boots + 1 } } := by
  have e : s.boot.broughtUp = { s.boot with phase := p, safe := true, ready := false, boots := s.boot.boots + 1 } := by
    simp only [Boot.broughtUp, hf]
  rw [powerOn_notReady hr, e, if_pos rfl]

/-- A bring-up with no sweep to make reaches phase 5. -/
theorem powerOn_passes {s : State} (hr : s.boot.ready = false) (hf : s.boot.failing = none) (hs : (s.boot.scrub || s.boot.confReq) = false) :
    exec .powerOn s = .next { s with
      config := s.hosted s.boot.conf, boot := { s.boot with phase := 5, safe := false, ready := true, boots := s.boot.boots + 1 } } := by
  have e : s.boot.broughtUp = { s.boot with phase := 5, safe := false, ready := true, boots := s.boot.boots + 1 } := by
    simp only [Boot.broughtUp, hf, hs, Bool.false_eq_true, if_false]
  rw [powerOn_notReady hr, e, if_pos rfl]

/-- A bring-up with a sweep to make reaches phase 5 with what the sweep leaves (R396). -/
theorem powerOn_scrubs {s : State} (hr : s.boot.ready = false) (hf : s.boot.failing = none) (hs : (s.boot.scrub || s.boot.confReq) = true) :
    exec .powerOn s = .next { s with
      config := s.hosted s.boot.scrubbed.conf
      boot := { s.boot.scrubbed with phase := 5, safe := false, ready := true, boots := s.boot.boots + 1 }
      bad := badWith s.bad s.boot.scrubbed.found } := by
  have e : s.boot.broughtUp = { s.boot.scrubbed with phase := 5, safe := false, ready := true, boots := s.boot.boots + 1 } := by
    simp only [Boot.broughtUp, hf, hs, if_true]
    rfl
  have hq : s.boot.broughtUp.scrubSeq ≠ s.boot.scrubSeq := by
    rw [e]; exact Nat.succ_ne_self _
  rw [powerOn_notReady hr, if_neg hq, e]

/-! ## What reports to the host change -/

/-- Only what the host sees has changed: its memory, the mailboxes and interrupts, and the count of free values. -/
structure HostOnly (s t : State) : Prop where
  rest : t = { s with mem := t.mem, boxes := t.boxes, irqs := t.irqs, free := t.free }
  frames : ∀ loc, loc < 2 ^ 64 → t.byte loc = s.byte loc

theorem HostOnly.of_eq {s t : State} {mem : List (Nat × Byte)} {boxes : List (Nat × Mailbox)} {irqs : List (HostFn × Nat)} {free : Nat}
    (h : t = { s with mem := mem, boxes := boxes, irqs := irqs, free := free }) (hf : ∀ loc, loc < 2 ^ 64 → t.byte loc = s.byte loc) :
    HostOnly s t := by
  subst h; exact ⟨rfl, hf⟩

theorem HostOnly.trans {a b c : State} (h : HostOnly a b) (g : HostOnly b c) : HostOnly a c := by
  refine ⟨?_, fun loc hl => (g.frames loc hl).trans (h.frames loc hl)⟩
  conv => lhs; rw [g.rest, h.rest]

theorem SameBytes.hostOnly {s t : State} (h : SameBytes s t) : HostOnly s t :=
  ⟨by conv => lhs; rw [h.rest]
      conv => rhs; rw [h.rest], fun loc _ => h.byte loc⟩

theorem hostLoc_ge (a : Nat) : 2 ^ 64 ≤ hostLoc a := Nat.le_add_right ..
theorem hostLoc_lt (a : Nat) : hostLoc a < 2 ^ 65 := by unfold hostLoc; omega

theorem State.eventPlace_ge (s : State) (f : Nat) : 2 ^ 64 ≤ s.eventPlace f := hostLoc_ge _
theorem State.eventPlace_lt (s : State) (f : Nat) : s.eventPlace f < 2 ^ 65 := hostLoc_lt _

theorem length_leBytes (n v : Nat) : (leBytes n v).length = n := by
  induction n generalizing v with
  | zero => rfl
  | succ n ih => simp [leBytes, ih]

/-- The 64 bytes of an entry of the event ring (R439). -/
def eventEntry (kind : Nat) (body : List Byte) : List Byte :=
  (body ++ List.replicate 60 0).take 60 ++ [0, 0, 0, BitVec.ofNat 8 kind]

theorem length_eventEntry (kind : Nat) (body : List Byte) : (eventEntry kind body).length = 64 := by
  simp [eventEntry]

/-- An entry of two words. -/
theorem eventEntry_words (kind : Nat) (a b : Word) :
    eventEntry kind (wordBytes a ++ wordBytes b) = wordBytes a ++ wordBytes b ++ List.replicate 55 0 ++ [BitVec.ofNat 8 kind] := by
  have hl : (wordBytes a ++ wordBytes b).length = 8 := by simp [wordBytes, length_leBytes]
  have ht : (wordBytes a ++ wordBytes b ++ List.replicate 60 (0 : Byte)).take 60 = wordBytes a ++ wordBytes b ++ List.replicate 52 0 := by
    rw [List.take_append, hl, List.take_of_length_le (by omega), List.take_replicate]
    rfl
  rw [eventEntry, ht, List.append_assoc, List.append_assoc (wordBytes a ++ wordBytes b)]
  rfl

/-- An entry that is no FAULT is posted to a function (R438): it goes out with its interrupt, or is kept in the buffer, or with both
full is dropped. -/
structure EventPosted (s t : State) (f : Nat) (e : List Byte) : Prop where
  hostOnly : HostOnly s t
  free : t.free = s.free
  irqs : t.irqs = s.irqs ++ if s.eventOut f = true then [(fnOf f, s.eventVector f)] else []
  others : ∀ j, j ≠ f → t.box j = s.box j
  box : t.box f =
    let b := s.box f
    if s.eventOut f = true then { b with rings := b.rings.set 2 { b.ring 2 with prod := (b.ring 2).prod + 1 } }
    else if b.events.length < 256 then { b with events := b.events ++ [e] } else b
  out : s.eventOut f = true → BytesWritten s t (s.eventPlace f) e
  kept : s.eventOut f = false → ∀ j, t.byte j = s.byte j

theorem State.eventOut_congr {s t : State} {f : Nat} (h : t.box f = s.box f) : t.eventOut f = s.eventOut f := by
  simp only [State.eventOut, h]
theorem State.eventPlace_congr {s t : State} {f : Nat} (h : t.box f = s.box f) : t.eventPlace f = s.eventPlace f := by
  simp only [State.eventPlace, h]

/-- A change of a mailbox alone. -/
theorem hostOnly_box (s : State) (f : Nat) (b : Mailbox) : HostOnly s { s with boxes := Keyed.put s.boxes f b } :=
  ⟨rfl, fun _ _ => rfl⟩

theorem Sim.postEvent_posted (m : Sim k s0) (f kind : Nat) (body : List Byte) (hk : kind ≠ 1) :
    EventPosted m.now (m.postEvent f kind body).now f (eventEntry kind body) := by
  cases ho : m.now.eventOut f with
  | true =>
    have e : m.postEvent f kind body = (m.pushRing f 2 64 (eventEntry kind body)).eventIrq f := if_pos ho
    obtain ⟨hp, hw⟩ := m.pushRing_spec f 2 64 (eventEntry kind body)
    rw [e, Sim.eventIrq_now]
    generalize m.pushRing f 2 64 (eventEntry kind body) = p at hp hw
    refine ⟨HostOnly.of_eq (free := m.now.free) (by conv => lhs; rw [hp]) fun loc hl => hw.2 loc fun h => ?_, ?_, ?_, fun j hj => ?_, ?_, fun _ => hw, fun h => ?_⟩
    · exact absurd (Nat.lt_of_lt_of_le hl (m.now.eventPlace_ge f)) (Nat.not_lt.mpr h.1)
    · show p.now.free = _
      rw [hp]
    · have hv : p.now.eventVector f = m.now.eventVector f := by rw [hp]; rfl
      rw [ho, if_pos rfl, ← hv]
      show p.now.irqs ++ _ = _
      rw [hp]
    · show p.now.box j = _
      rw [hp]
      exact (State.box_put ..).trans (if_neg (Ne.symm hj))
    · show p.now.box f = _
      rw [hp, ho]
      exact (State.box_put ..).trans (if_pos rfl)
    · rw [ho] at h; cases h
  | false =>
    have hn : ¬ m.now.eventOut f = true := by rw [ho]; exact Bool.false_ne_true
    have e : m.postEvent f kind body = if (m.now.box f).events.length < 256 then
        m.act (.box f { m.now.box f with events := (m.now.box f).events ++ [eventEntry kind body] }) else m := by
      refine (if_neg hn).trans ?_
      rw [if_neg hk]
      rfl
    rw [e]
    split
    · next hl =>
      refine ⟨hostOnly_box .., rfl, ?_, fun j hj => (State.box_put ..).trans (if_neg (Ne.symm hj)), ?_,
        fun h => absurd h hn, fun _ _ => rfl⟩
      · rw [if_neg hn]; exact (List.append_nil _).symm
      · rw [if_neg hn, if_pos hl]; exact (State.box_put ..).trans (if_pos rfl)
    · next hl =>
      refine ⟨⟨rfl, fun _ _ => rfl⟩, rfl, ?_, fun _ _ => rfl, ?_, fun h => absurd h hn, fun _ _ => rfl⟩
      · rw [if_neg hn]; exact (List.append_nil _).symm
      · rw [if_neg hn, if_neg hl]

/-! ## The package reset (R434) -/

theorem Cells.get_below {β : Type} (dflt : β) (m : List (Nat × β)) (hi j : Nat) :
    Cells.get dflt (Cells.below m hi) j = if j < hi then Cells.get dflt m j else dflt := by
  have h := Cells.get_filter dflt (fun k => decide (k < hi)) m j
  simpa only [Cells.below, decide_eq_true_eq] using h

/-- A range cleared on a condition. -/
theorem Cells.get_ite_clear {β : Type} (dflt : β) (c : Bool) (m : List (Nat × β)) (lo hi j : Nat) :
    Cells.get dflt (if c then Cells.clear m lo hi else m) j = if c = true ∧ lo ≤ j ∧ j < hi then dflt else Cells.get dflt m j := by
  cases c
  · simp
  · simp [Cells.get_clear]

/-- A line lies in the frames of a package where its first byte does. -/
theorem State.ownFrame_line (s : State) (line : Nat) : s.ownFrame (128 * line) = true ↔
    s.config.pkg.toNat * 2 ^ 39 ≤ line ∧ line < (s.config.pkg.toNat + 1) * 2 ^ 39 := by
  simp only [State.ownFrame, decide_eq_true_eq]; omega

/-- Host memory and what lies behind it is no frame of a package. -/
theorem State.ownFrame_lt {s : State} {loc : Nat} (h : s.ownFrame loc = true) : loc < 2 ^ 64 := by
  simp only [State.ownFrame, decide_eq_true_eq] at h
  have := s.config.pkg.isLt
  omega

/-- What the reset leaves of memory. -/
theorem Sim.resetPackage_byte (m : Sim true s0) (scrub thermal : Bool) (loc : Nat) :
    (m.resetPackage scrub thermal).now.byte loc =
      if 2 ^ 80 ≤ loc ∨ (scrub = true ∨ m.now.boot.confReq = true) ∧ m.now.ownFrame loc = true then 0 else m.now.byte loc := by
  refine (Cells.get_below ..).trans ?_
  rw [Cells.get_ite_clear]
  simp only [State.ownFrame, decide_eq_true_eq, Boot.entering, Bool.or_eq_true]
  by_cases h : loc < 2 ^ 80
  · have h' : ¬ 2 ^ 80 ≤ loc := by omega
    simp only [h, h', if_true, false_or]
    rfl
  · have h' : 2 ^ 80 ≤ loc := by omega
    simp only [h, h', if_false, true_or, if_true]

theorem Sim.resetPackage_enters (m : Sim true s0) (scrub thermal : Bool) :
    EntersReset m.now (m.resetPackage scrub thermal).now scrub thermal := by
  refine ⟨rfl, fun loc hl => ?_, fun loc hl => ?_, fun line => ?_, fun line => ?_⟩
  · rw [Sim.resetPackage_byte]
    have h : ¬ 2 ^ 80 ≤ loc := by omega
    simp only [h, false_or]
  · rw [Sim.resetPackage_byte, if_pos (.inl hl)]
  · refine (Cells.get_ite_clear ..).trans ?_
    simp only [State.ownFrame_line, Boot.entering, Bool.or_eq_true]
  · refine (Cells.get_ite_clear ..).trans ?_
    simp only [State.ownFrame_line, Boot.entering, Bool.or_eq_true]

/-- Between the frames and the volatile places lies host memory, which a reset leaves. -/
theorem Sim.resetPackage_host (m : Sim true s0) (scrub thermal : Bool) {loc : Nat} (h1 : 2 ^ 64 ≤ loc) (h2 : loc < 2 ^ 80) :
    (m.resetPackage scrub thermal).now.byte loc = m.now.byte loc := by
  rw [Sim.resetPackage_byte, if_neg]
  rintro (h | ⟨-, h⟩)
  · omega
  · have := State.ownFrame_lt h
    omega

/-- A report to the host before a reset is nothing to it. -/
theorem EntersReset.of_hostOnly {s v t : State} {scrub thermal : Bool} (h : HostOnly s v) (g : EntersReset v t scrub thermal) :
    EntersReset s t scrub thermal := by
  have hb : v.boot = s.boot := by rw [h.rest]
  have hf : ∀ loc, v.ownFrame loc = s.ownFrame loc := fun loc => by rw [h.rest]; rfl
  refine ⟨?_, fun loc hl => ?_, g.volatile, fun line => ?_, fun line => ?_⟩
  · refine g.rest.trans ?_
    rw [h.rest]
  · rw [g.frames loc hl, hb, hf, h.frames loc hl]
  · rw [g.keys, hb, hf, h.rest]
  · rw [g.bad, hb, hf, h.rest]

end Sys2Proof.Machine
end

section
/-! SUPPORT. The thermal trip (R447), and RESET with the commands that it completes (R444). -/

namespace Sys2Proof.Machine

variable {k : Bool} {s0 : State}

/-! ## Thermal trip -/

theorem State.bytes_congr {s t : State} {loc n : Nat} (h : ∀ j, loc ≤ j → j < loc + n → t.byte j = s.byte j) :
    t.bytes loc n = s.bytes loc n :=
  List.map_congr_left fun i hi => h (loc + i) (by omega) (by have := List.mem_range.mp hi; omega)

/-- An entry is posted to physical function 0 and then to 1; for each the state before both decides whether it goes out. -/
structure PfReported (s t : State) (e : List Byte) : Prop where
  hostOnly : HostOnly s t
  irqs : t.irqs = s.irqs ++ ([0, 1].filter s.eventOut).map (fun f => (fnOf f, 0))
  others : ∀ f, 2 ≤ f → t.box f = s.box f
  box : ∀ f, f < 2 → t.box f =
    let b := s.box f
    if s.eventOut f = true then { b with rings := b.rings.set 2 { b.ring 2 with prod := (b.ring 2).prod + 1 } }
    else if b.events.length < 256 then { b with events := b.events ++ [e] } else b
  second : s.eventOut 1 = true → t.bytes (s.eventPlace 1) 64 = e
  first : s.eventOut 0 = true →
    (s.eventOut 1 = false ∨ s.eventPlace 0 + 64 ≤ s.eventPlace 1 ∨ s.eventPlace 1 + 64 ≤ s.eventPlace 0) →
    t.bytes (s.eventPlace 0) 64 = e
  frame : ∀ loc, (∀ f, f < 2 → s.eventOut f = true → ¬ (s.eventPlace f ≤ loc ∧ loc < s.eventPlace f + 64)) → t.byte loc = s.byte loc

/-- Of memory an entry changes only the 64 bytes of its place. -/
theorem EventPosted.frame {s t : State} {f kind : Nat} {body : List Byte} (h : EventPosted s t f (eventEntry kind body)) {loc : Nat}
    (hl : s.eventOut f = true → ¬ (s.eventPlace f ≤ loc ∧ loc < s.eventPlace f + 64)) : t.byte loc = s.byte loc := by
  cases ho : s.eventOut f with
  | true => exact (h.out ho).2 loc (by rw [length_eventEntry]; exact hl ho)
  | false => exact h.kept ho loc

theorem EventPosted.bytes {s t : State} {f kind : Nat} {body : List Byte} (h : EventPosted s t f (eventEntry kind body))
    (ho : s.eventOut f = true) : t.bytes (s.eventPlace f) 64 = eventEntry kind body := by
  have := (h.out ho).1
  rwa [length_eventEntry] at this

theorem pfReported {s u t : State} {kind : Nat} {body : List Byte} (h0 : EventPosted s u 0 (eventEntry kind body))
    (h1 : EventPosted u t 1 (eventEntry kind body)) : PfReported s t (eventEntry kind body) := by
  have hb : u.box 1 = s.box 1 := h0.others 1 (by decide)
  have ho : u.eventOut 1 = s.eventOut 1 := State.eventOut_congr hb
  have hp : u.eventPlace 1 = s.eventPlace 1 := State.eventPlace_congr hb
  have hv : u.eventVector 1 = 0 := u.eventVector_pf (by decide)
  refine ⟨h0.hostOnly.trans h1.hostOnly, ?_, fun f hf => ?_, fun f hf => ?_, fun hs => ?_, fun hs hd => ?_, fun loc hl => ?_⟩
  · rw [h1.irqs, h0.irqs, ho, hv, s.eventVector_pf (by decide : 0 < 2), List.append_assoc]
    cases e0 : s.eventOut 0 <;> cases e1 : s.eventOut 1 <;> simp [List.filter, e0, e1]
  · rw [h1.others f (by omega), h0.others f (by omega)]
  · obtain rfl | rfl : f = 0 ∨ f = 1 := by omega
    · rw [h1.others 0 (by decide)]; exact h0.box
    · rw [h1.box, ho, hb]
  · rw [← hp]; exact h1.bytes (ho.trans hs)
  · rw [← h0.bytes hs]
    refine State.bytes_congr fun j hj hk => h1.frame fun g => ?_
    rw [hp]
    rcases hd with hd | hd | hd
    · rw [ho, hd] at g; cases g
    · omega
    · omega
  · rw [h1.frame fun g => by rw [hp]; exact hl 1 (by decide) (ho.symm.trans g), h0.frame (hl 0 (by decide))]

/-- A trip reports to both physical functions, and takes the package into reset with THERMAL set. -/
theorem thermalTrip_enters (s : State) : ∃ t u, exec .thermalTrip s = .next t ∧
    PfReported s u (wordBytes (tripTemp s.temp) ++ wordBytes s.statusWord ++ List.replicate 55 0 ++ [3]) ∧ EntersReset s t false true ∧
    t.boxes = u.boxes ∧ t.irqs = u.irqs ∧ ∀ loc, 2 ^ 64 ≤ loc → loc < 2 ^ 80 → t.byte loc = u.byte loc := by
  let m := (begin_ true s).sampled
  let body := wordBytes (tripTemp s.temp) ++ wordBytes s.statusWord
  let p := (m.postEvent 0 3 body).postEvent 1 3 body
  have hm : HostOnly s m.now := ⟨rfl, fun _ _ => rfl⟩
  have r : PfReported m.now p.now (eventEntry 3 body) :=
    pfReported (m.postEvent_posted 0 3 body (by decide)) ((m.postEvent 0 3 body).postEvent_posted 1 3 body (by decide))
  rw [eventEntry_words] at r
  have q := hm.trans r.hostOnly
  exact ⟨(p.resetPackage false true).now, p.now, rfl, ⟨q, r.irqs, r.others, r.box, r.second, r.first, r.frame⟩,
    (p.resetPackage_enters false true).of_hostOnly q, rfl, rfl, fun _ => p.resetPackage_host false true⟩

/-! ## The frame of a mailbox command -/

theorem State.serves_eq (s : State) (h : CmdHeader) : s.serves h = !(((s.box (fnIx h.fn)).ring 1).full || s.underWay h) := by
  rw [Bool.not_or]; rfl

/-- A command that is not served waits. -/
theorem mailboxWord_waits {h : CmdHeader} {s : State} (hs : s.serves h = false) (vfMay safeMay : Bool) (f : Sim true s → Sim true s) :
    mailboxWord h vfMay safeMay s f = .next s := by
  have hw : (((s.box (fnIx h.fn)).ring 1).full || s.underWay h) = true := by
    rwa [State.serves_eq, Bool.not_eq_false'] at hs
  rw [mailboxWord, if_pos hw]; rfl

theorem not_waits_of_serves {h : CmdHeader} {s : State} (hs : s.serves h = true) :
    ¬ (((s.box (fnIx h.fn)).ring 1).full || s.underWay h) = true := by
  rwa [State.serves_eq, Bool.not_eq_true', ← Bool.not_eq_true] at hs

/-- A command that no virtual function may issue is denied to one (R441). -/
theorem mailboxWord_denied {h : CmdHeader} {s : State} (hs : s.serves h = true) (hv : isVf h.fn = true) (safeMay : Bool)
    (f : Sim true s → Sim true s) : ∃ t, mailboxWord h false safeMay s f = .next t ∧ Answered s t h 2 0 0 := by
  refine ⟨_, ?_, (begin_ true s).complete_answered h 2 0 0⟩
  rw [mailboxWord, if_neg (not_waits_of_serves hs), if_pos (by rw [hv]; rfl)]
  rfl

/-- A command that is served, is its function's to issue, and is served in this phase does what it does. -/
theorem mailboxWord_applies {h : CmdHeader} {s : State} {vfMay safeMay : Bool} (ha : s.applies h vfMay safeMay = true)
    (f : Sim true s → Sim true s) : mailboxWord h vfMay safeMay s f = .next (f (begin_ true s)).now := by
  simp only [State.applies, Bool.and_eq_true] at ha
  obtain ⟨⟨hs, hv⟩, hr⟩ := ha
  have hd : ¬ (isVf h.fn && !vfMay) = true := by cases e : isVf h.fn <;> cases vfMay <;> simp_all
  have hn : ¬ (!s.boot.ready && !safeMay) = true := by cases e : s.boot.ready <;> cases safeMay <;> simp_all
  rw [mailboxWord, if_neg (not_waits_of_serves hs), if_neg hd, if_neg hn]
  rfl

/-! ## RESET -/

/-- A loop that does nothing at any element, from where it stands. -/
theorem Sim.each_still {α : Type} {l : List α} {g : Sim k s0 → α → Sim k s0} {m : Sim k s0} (h : ∀ x ∈ l, g m x = m) :
    m.each l g = m := by
  induction l with
  | nil => rfl
  | cons x xs ih =>
    rw [Sim.each_cons, h x (List.mem_cons_self ..)]
    exact ih fun y hy => h y (List.mem_cons_of_mem _ hy)

/-- A loop that at one element of its list steps to a state in which no element does anything. -/
theorem Sim.each_once {α : Type} {f : α} {l : List α} {g : Sim k s0 → α → Sim k s0} {m m' : Sim k s0} (hf : f ∈ l)
    (hm : ∀ x ∈ l, x ≠ f → g m x = m) (hs : g m f = m') (hd : ∀ x ∈ l, g m' x = m') : m.each l g = m' := by
  induction l with
  | nil => cases hf
  | cons x xs ih =>
    rw [Sim.each_cons]
    by_cases hx : x = f
    · rw [hx, hs]
      exact Sim.each_still fun y hy => hd y (List.mem_cons_of_mem _ hy)
    · rw [hm x (List.mem_cons_self ..) hx]
      exact ih ((List.mem_cons.mp hf).resolve_left (Ne.symm hx)) (fun y hy => hm y (List.mem_cons_of_mem _ hy))
        fun y hy => hd y (List.mem_cons_of_mem _ hy)

theorem Sim.abandonRing0_none {m : Sim k s0} {f : Nat} (h : m.now.headCommand f = none) (n : Nat) : m.abandonRing0 f n = m := by
  cases n with
  | zero => rfl
  | succ n => unfold Sim.abandonRing0; simp only [h]

/-- A ring with one command to complete, and room for its completion. -/
theorem Sim.abandonRing0_one {m : Sim k s0} {f : Nat} {ws : List Word} (hw : m.now.headCommand f = some ws)
    (hf : ((m.now.box f).ring 1).full = false)
    (he : (m.complete { fn := fnOf f, seq := (wordAt ws 0).extractLsb' 0 16 } 4 0 0).now.headCommand f = none) (n : Nat) :
    m.abandonRing0 f (n + 1) = m.complete { fn := fnOf f, seq := (wordAt ws 0).extractLsb' 0 16 } 4 0 0 := by
  have e : m.abandonRing0 f (n + 1) =
      (m.complete { fn := fnOf f, seq := (wordAt ws 0).extractLsb' 0 16 } 4 0 0).abandonRing0 f n := by
    rw [Sim.abandonRing0]
    simp only [hw, hf, Bool.false_eq_true, if_false]
  rw [e, Sim.abandonRing0_none he]

/-- RESET completes its own command, then every command not yet applied, and then resets the package. -/
theorem exec_reset_applies {h : CmdHeader} {s : State} (hs : s.serves h = true) (hv : isVf h.fn = false) (scrub : Bool) :
    let m := (begin_ true s).complete h 0 0 0
    exec (.reset h scrub) s =
      .next ((m.each (m.now.boxes.map (·.1)) (fun m f => m.abandonRing0 f 65536)).resetPackage scrub false).now := by
  have ha : s.applies h false true = true := by
    simp only [State.applies, hs, hv, Bool.not_false, Bool.true_or, Bool.or_true, Bool.and_true]
  rw [exec_reset, execReset, mailboxWord_applies ha]

/-- The package is reset behind what differs from u in the listing of memory alone. -/
theorem Sim.resetPackage_sameBytes {u : State} (m : Sim true s0) (h : SameBytes u m.now) (scrub : Bool) :
    EntersReset u (m.resetPackage scrub false).now scrub false ∧ (m.resetPackage scrub false).now.boxes = u.boxes ∧
    (m.resetPackage scrub false).now.irqs = u.irqs ∧
    ∀ loc, 2 ^ 64 ≤ loc → loc < 2 ^ 80 → (m.resetPackage scrub false).now.byte loc = u.byte loc := by
  refine ⟨(m.resetPackage_enters scrub false).of_hostOnly h.hostOnly, ?_, ?_, fun loc h1 h2 =>
    (m.resetPackage_host scrub false h1 h2).trans (h.byte loc)⟩
  · show m.now.boxes = u.boxes
    rw [h.rest]
  · show m.now.irqs = u.irqs
    rw [h.rest]

theorem Answered.irqs {s t : State} {h : CmdHeader} {st : Nat} {v0 v1 : Word} (a : Answered s t h st v0 v1) : t.irqs = s.irqs := by
  rw [a.rest]

section
variable {s u : State} {h : CmdHeader} {scrub : Bool} (hs : s.serves h = true) (hv : isVf h.fn = false)
  (ho : ∀ f, f ≠ fnIx h.fn → s.headCommand f = none) (a : Answered s u h 0 0 0)
include hs hv ho a

/-- RESET with no other command in the ring of its function. -/
theorem reset_alone (he : u.headCommand (fnIx h.fn) = none) : ∃ t, exec (.reset h scrub) s = .next t ∧ EntersReset u t scrub false ∧
    t.boxes = u.boxes ∧ t.irqs = s.irqs ∧ ∀ loc, 2 ^ 64 ≤ loc → loc < 2 ^ 80 → t.byte loc = u.byte loc := by
  let m := (begin_ true s).complete h 0 0 0
  have am : Answered s m.now h 0 0 0 := (begin_ true s).complete_answered h 0 0 0
  have q : SameBytes u m.now := a.unique am
  have hn : ∀ f, m.now.headCommand f = none := fun f => by
    by_cases hf : f = fnIx h.fn
    · rw [hf, q.headCommand]; exact he
    · exact am.headCommand_other hf (ho f hf)
  have e : m.each (m.now.boxes.map (·.1)) (fun m f => m.abandonRing0 f 65536) = m :=
    Sim.each_still fun f _ => Sim.abandonRing0_none (hn f) _
  obtain ⟨r1, r2, r3, r4⟩ := m.resetPackage_sameBytes q scrub
  refine ⟨(m.resetPackage scrub false).now, ?_, r1, r2, r3.trans a.irqs, r4⟩
  rw [exec_reset_applies hs hv]
  exact congrArg (fun m => Host.Outcome.next (Sim.now (Sim.resetPackage m scrub false))) e

/-- RESET with one other command in the ring of its function, which it completes with the STATUS RESET. -/
theorem reset_behind {v : State} (hf : ((u.box (fnIx h.fn)).ring 1).full = false) (b : AnsweredReset u v (fnIx h.fn))
    (he : v.headCommand (fnIx h.fn) = none) : ∃ t, exec (.reset h scrub) s = .next t ∧ EntersReset v t scrub false ∧
    t.boxes = v.boxes ∧ t.irqs = s.irqs ∧ ∀ loc, 2 ^ 64 ≤ loc → loc < 2 ^ 80 → t.byte loc = v.byte loc := by
  obtain ⟨ws, hw, b⟩ := b
  let m := (begin_ true s).complete h 0 0 0
  let m' := m.complete { fn := fnOf (fnIx h.fn), seq := (wordAt ws 0).extractLsb' 0 16 } 4 0 0
  have am : Answered s m.now h 0 0 0 := (begin_ true s).complete_answered h 0 0 0
  have q : SameBytes u m.now := a.unique am
  have bm : Answered m.now m'.now _ 4 0 0 := m.complete_answered _ 4 0 0
  have q' : SameBytes v m'.now := b.unique (bm.of_sameBytes q)
  have hx : fnIx (fnOf (fnIx h.fn)) = fnIx h.fn := by rw [fnOf_fnIx]
  have hn : ∀ f, f ≠ fnIx h.fn → m.now.headCommand f = none := fun f hf => am.headCommand_other hf (ho f hf)
  have hn' : ∀ f, m'.now.headCommand f = none := fun f => by
    by_cases hf : f = fnIx h.fn
    · rw [hf, q'.headCommand]; exact he
    · exact bm.headCommand_other (by rw [hx]; exact hf) (hn f hf)
  have hk : fnIx h.fn ∈ m.now.boxes.map (·.1) := by rw [am.rest]; exact Keyed.mem_keys_put ..
  have e : m.each (m.now.boxes.map (·.1)) (fun m f => m.abandonRing0 f 65536) = m' :=
    Sim.each_once hk (fun f _ hf => Sim.abandonRing0_none (hn f hf) _)
      (Sim.abandonRing0_one (by rw [q.headCommand]; exact hw) (by rw [q.box]; exact hf) (hn' _) 65535)
      fun f _ => Sim.abandonRing0_none (hn' f) _
  obtain ⟨r1, r2, r3, r4⟩ := m'.resetPackage_sameBytes q' scrub
  refine ⟨(m'.resetPackage scrub false).now, ?_, r1, r2, r3.trans (b.irqs.trans a.irqs), r4⟩
  rw [exec_reset_applies hs hv]
  exact congrArg (fun m => Host.Outcome.next (Sim.now (Sim.resetPackage m scrub false))) e
end

end Sys2Proof.Machine
end

section
/-! SUPPORT. The passing of an ac: the rejoin tables (R152), the counters and their interrupts (R398, R400), the timer (R407). -/

namespace Sys2Proof.Machine

variable {k : Bool} {s0 : State}

/-! ## The rejoin tables -/

/-- Whether every thread of a record is parked at its packet. -/
def Warp.recordMet (ac : Nat) (w : Warp) (r : Rejoin) : Bool := (lanesOf r.mask).all (fun l => parkedAt ac (w.thread l) r.addr)

/-- Whether the examination of the table releases a lane: it is parked, at a packet of a record that is met, or of none that
stays. -/
def Warp.released (ac : Nat) (w : Warp) (l : Nat) : Bool :=
  parkedAt ac (w.thread l) (w.thread l).pc &&
    ((w.rejoin.filter (w.recordMet ac)).any (fun r => r.addr == (w.thread l).pc) ||
      !(w.rejoin.filter (fun r => !w.recordMet ac r)).any (fun r => r.addr == (w.thread l).pc))

/-- A warp after its table has been examined. -/
def Warp.rejoined (ac : Nat) (w : Warp) : Warp :=
  { w with
    rejoin := w.rejoin.filter (fun r => !w.recordMet ac r)
    threads := (List.range 32).map (fun l => if w.released ac l then unpark ac (w.thread l) else w.thread l) }

theorem Sim.rejoinCheck_now (m : Sim k s0) (wi : Nat) : ∃ S, (m.rejoinCheck wi).now = { m.now with
    warps := Keyed.put m.now.warps wi ((m.now.warp wi).rejoined m.now.ac), scheds := S } := by
  unfold Sim.rejoinCheck Sim.when
  dsimp only
  split
  · exact ⟨_, rfl⟩
  · exact ⟨m.now.scheds, rfl⟩

/-- The records of several warps examined, each once. -/
theorem Sim.each_rejoinCheck (m : Sim k s0) (ws : List (Nat × Warp)) (nd : (ws.map (·.1)).Nodup) :
    let t := (m.each ws (fun m w => m.rejoinCheck w.1)).now
    t = { m.now with warps := t.warps, scheds := t.scheds } ∧
    (∀ j ∈ ws.map (·.1), t.warp j = (m.now.warp j).rejoined m.now.ac) ∧ ∀ j ∉ ws.map (·.1), t.warp j = m.now.warp j := by
  induction ws generalizing m with
  | nil => exact ⟨rfl, by simp, fun _ _ => rfl⟩
  | cons w ws ih =>
    obtain ⟨S, e⟩ := m.rejoinCheck_now w.1
    rw [List.map_cons, List.nodup_cons] at nd
    obtain ⟨h1, h2, h3⟩ := ih (m.rejoinCheck w.1) nd.2
    have hw : (m.rejoinCheck w.1).now.warp w.1 = (m.now.warp w.1).rejoined m.now.ac := by
      rw [e]; exact (Keyed.get_put ..).trans (if_pos rfl)
    have ho : ∀ j, j ≠ w.1 → (m.rejoinCheck w.1).now.warp j = m.now.warp j := fun j hj => by
      rw [e]; exact (Keyed.get_put ..).trans (if_neg (Ne.symm hj))
    have ha : (m.rejoinCheck w.1).now.ac = m.now.ac := by rw [e]
    rw [Sim.each_cons]
    refine ⟨?_, fun j hj => ?_, fun j hj => ?_⟩
    · conv => lhs; rw [h1, e]
    · rcases List.mem_cons.mp hj with rfl | hj
      · rw [h3 _ nd.1, hw]
      · rw [h2 j hj, ha, ho j fun g => nd.1 (g ▸ hj)]
    · rw [List.map_cons, List.mem_cons, not_or] at hj
      rw [h3 j hj.2, ho j hj.1]

theorem Warp.rejoined_thread (ac : Nat) (w : Warp) {l : Nat} (hl : l < 32) :
    (w.rejoined ac).thread l = if w.released ac l then unpark ac (w.thread l) else w.thread l := by
  have h : ((List.range 32).map fun l => if w.released ac l then unpark ac (w.thread l) else w.thread l)[l]? =
      some (if w.released ac l then unpark ac (w.thread l) else w.thread l) := by
    rw [List.getElem?_map, List.getElem?_range hl]; rfl
  rw [Warp.thread, List.getD_eq_getElem?_getD]
  exact congrArg (Option.getD · Thread.empty) h

theorem parkedAt_pc {ac : Nat} {t : Thread} {a : DWord} (h : parkedAt ac t a = true) : t.pc = a ∧ t.hold = .parked := by
  simp only [parkedAt, Bool.and_eq_true, beq_iff_eq] at h
  exact ⟨h.1.2, h.1.1.2⟩

theorem Warp.recordMet_iff {ac : Nat} {w : Warp} {r : Rejoin} :
    w.recordMet ac r = true ↔ ∀ l ∈ lanesOf r.mask, parkedAt ac (w.thread l) r.addr = true := List.all_eq_true

theorem Warp.recordMet_eq_false {ac : Nat} {w : Warp} {r : Rejoin} :
    w.recordMet ac r = false ↔ ∃ l ∈ lanesOf r.mask, parkedAt ac (w.thread l) r.addr = false := List.all_eq_false.trans (by simp)

/-- A warp with a record that is met has its table examined. -/
theorem Warp.meets_of_recordMet {ac : Nat} {w : Warp} {r : Rejoin} (he : w.ended = false) (hr : r ∈ w.rejoin)
    (hm : w.recordMet ac r = true) : w.meets = true := by
  rw [Warp.meets, he, Bool.not_false, Bool.true_and, Bool.or_eq_true, List.any_eq_true, List.any_eq_true]
  cases hl : lanesOf r.mask with
  | nil => exact .inr ⟨r, hr, by rw [hl]; rfl⟩
  | cons l ls =>
    have hp := (parkedAt_pc (Warp.recordMet_iff.mp hm l (by rw [hl]; exact List.mem_cons_self ..))).2
    have hlen : l < w.threads.length := by
      refine Nat.lt_of_not_le fun h => ?_
      rw [Warp.thread, List.getD_eq_getElem?_getD, List.getElem?_eq_none h] at hp
      cases hp
    refine .inl ⟨w.thread l, ?_, by rw [hp]; rfl⟩
    rw [Warp.thread, List.getD_eq_getElem?_getD, List.getElem?_eq_getElem hlen]
    exact List.getElem_mem hlen

/-- A thread parked at the packet of a record that is met is released. -/
theorem Warp.released_of_met {ac : Nat} {w : Warp} {r : Rejoin} {l : Nat} (hr : r ∈ w.rejoin) (hm : w.recordMet ac r = true)
    (hp : parkedAt ac (w.thread l) r.addr = true) : w.released ac l = true := by
  have hpc := (parkedAt_pc hp).1
  rw [Warp.released, hpc, hp, Bool.true_and, Bool.or_eq_true, List.any_eq_true]
  exact .inl ⟨r, List.mem_filter.mpr ⟨hr, hm⟩, beq_self_eq_true _⟩

/-- A thread at a packet of which a record stays and none is met is not released. -/
theorem Warp.not_released {ac : Nat} {w : Warp} {r : Rejoin} {l : Nat} (hr : r ∈ w.rejoin) (hm : w.recordMet ac r = false)
    (ho : ∀ r' ∈ w.rejoin, r'.addr = r.addr → w.recordMet ac r' = false) (hpc : (w.thread l).pc = r.addr) :
    w.released ac l = false := by
  have h1 : (w.rejoin.filter (w.recordMet ac)).any (fun x => x.addr == r.addr) = false := by
    rw [List.any_eq_false]
    intro x hx ha
    obtain ⟨hx, hxm⟩ := List.mem_filter.mp hx
    rw [ho x hx (beq_iff_eq.mp ha)] at hxm
    cases hxm
  have h2 : (w.rejoin.filter (fun x => !w.recordMet ac x)).any (fun x => x.addr == r.addr) = true := by
    rw [List.any_eq_true]
    exact ⟨r, List.mem_filter.mpr ⟨hr, by rw [hm]; rfl⟩, beq_self_eq_true _⟩
  rw [Warp.released, hpc, h1, h2]
  exact Bool.and_false _

/-- A thread parked where no record stands is released. -/
theorem Warp.released_alone {ac : Nat} {w : Warp} {l : Nat} (hp : parkedAt ac (w.thread l) (w.thread l).pc = true)
    (ho : ∀ r ∈ w.rejoin, r.addr ≠ (w.thread l).pc) : w.released ac l = true := by
  have h : (w.rejoin.filter (fun x => !w.recordMet ac x)).any (fun x => x.addr == (w.thread l).pc) = false := by
    rw [List.any_eq_false]
    intro x hx ha
    exact ho x (List.mem_filter.mp hx).1 (beq_iff_eq.mp ha)
  rw [Warp.released, hp, h, Bool.not_false, Bool.or_true, Bool.and_true]

/-! ## Counters -/

/-- A scheduler an ac on (R397, R398, R407). -/
def State.schedAfter (s : State) (x : Sched) : Sched :=
  { x with
    counters := (s.counterAdvance x).map (·.1), events := []
    period := if x.rper = 0 then 0 else x.period + 1, tick := if x.tper = 0 then 0 else x.tick + 1 }

/-- The overflow interrupt of an owner's counter, where the owner has a virtual function (R400). -/
def State.overflowIrq (s : State) (t : Tag) : Option (HostFn × Nat) :=
  (s.owner t).vf.map (fun v => (.vf v, (Keyed.find s.vfs v.toNat).elim 0 (fun x => x.desc.irq.toNat)))

/-- The overflow interrupts of a scheduler's counters in an ac. -/
def State.overflowIrqs (s : State) (x : Sched) : List (HostFn × Nat) :=
  ((s.counterAdvance x).flatMap (·.2)).filterMap s.overflowIrq

/-- Only schedulers and interrupts have changed. -/
def Counted (s t : State) : Prop := t = { s with scheds := t.scheds, irqs := t.irqs }

theorem Counted.schedAfter {s t : State} (h : Counted s t) (x : Sched) : t.schedAfter x = s.schedAfter x := by
  rw [h]; rfl
theorem Counted.overflowIrqs {s t : State} (h : Counted s t) (x : Sched) : t.overflowIrqs x = s.overflowIrqs x := by
  rw [h]; rfl
theorem Counted.trans {a b c : State} (h : Counted a b) (g : Counted b c) : Counted a c := by
  unfold Counted at *
  conv => lhs; rw [g, h]

/-- One overflow interrupt raised. -/
def Sim.raiseOverflow (m : Sim k s0) (t : Tag) : Sim k s0 :=
  match (m.now.owner t).vf with
  | some v => m.act (.irq (.vf v) ((Keyed.find m.now.vfs v.toNat).elim 0 (fun x => x.desc.irq.toNat)))
  | none => m

theorem Sim.raiseOverflow_now (m : Sim k s0) (t : Tag) :
    (m.raiseOverflow t).now = { m.now with irqs := m.now.irqs ++ (m.now.overflowIrq t).toList } := by
  unfold Sim.raiseOverflow State.overflowIrq
  split
  · next h => rw [h]; rfl
  · next h => rw [h]; simp

theorem Sim.each_raiseOverflow (m : Sim k s0) (ts : List Tag) :
    (m.each ts Sim.raiseOverflow).now = { m.now with irqs := m.now.irqs ++ ts.filterMap m.now.overflowIrq } := by
  induction ts generalizing m with
  | nil => simp
  | cons t ts ih =>
    have h : (m.raiseOverflow t).now.overflowIrq = m.now.overflowIrq := by rw [Sim.raiseOverflow_now]; rfl
    rw [Sim.each_cons, ih, h, Sim.raiseOverflow_now]
    cases ho : m.now.overflowIrq t with
    | none => simp [ho]
    | some e => simp [ho]

theorem Sim.schedAdvance_now (m : Sim k s0) (i : Nat) : (m.schedAdvance i).now = { m.now with
    scheds := Keyed.put m.now.scheds i (m.now.schedAfter (m.now.sched i))
    irqs := m.now.irqs ++ m.now.overflowIrqs (m.now.sched i) } :=
  (m.act (.sched i (m.now.schedAfter (m.now.sched i)))).each_raiseOverflow _

theorem Sim.schedAdvance_counted (m : Sim k s0) (i : Nat) : Counted m.now (m.schedAdvance i).now := by
  unfold Counted; rw [Sim.schedAdvance_now]

/-- The schedulers of some keys an ac on, each once. -/
theorem Sim.each_schedAdvance (m : Sim k s0) (is : List Nat) (nd : is.Nodup) (hk : ∀ i ∈ is, i ∈ m.now.scheds.map (·.1)) :
    let t := (m.each is (fun m i => m.schedAdvance i)).now
    t.scheds.map (·.1) = m.now.scheds.map (·.1) ∧
    (∀ j ∈ is, t.sched j = m.now.schedAfter (m.now.sched j)) ∧ (∀ j ∉ is, t.sched j = m.now.sched j) ∧
    t.irqs = m.now.irqs ++ is.flatMap (fun i => m.now.overflowIrqs (m.now.sched i)) := by
  induction is generalizing m with
  | nil => exact ⟨rfl, by simp, fun _ _ => rfl, (List.append_nil _).symm⟩
  | cons i is ih =>
    rw [List.nodup_cons] at nd
    have e := m.schedAdvance_now i
    have c := m.schedAdvance_counted i
    have hs : (m.schedAdvance i).now.sched i = m.now.schedAfter (m.now.sched i) := by
      rw [e]; exact (Keyed.get_put ..).trans (if_pos rfl)
    have ho : ∀ j, j ≠ i → (m.schedAdvance i).now.sched j = m.now.sched j := fun j hj => by
      rw [e]; exact (Keyed.get_put ..).trans (if_neg (Ne.symm hj))
    have hkeys : (m.schedAdvance i).now.scheds.map (·.1) = m.now.scheds.map (·.1) := by
      rw [e]; exact Keyed.keys_put _ _ _ (hk i (List.mem_cons_self ..))
    obtain ⟨h1, h2, h3, h4⟩ := ih (m.schedAdvance i) nd.2 fun j hj => by rw [hkeys]; exact hk j (List.mem_cons_of_mem _ hj)
    rw [Sim.each_cons]
    refine ⟨h1.trans hkeys, fun j hj => ?_, fun j hj => ?_, ?_⟩
    · rcases List.mem_cons.mp hj with rfl | hj
      · rw [h3 _ nd.1, hs]
      · rw [h2 j hj, c.schedAfter, ho j fun g => nd.1 (g ▸ hj)]
    · rw [List.mem_cons, not_or] at hj
      rw [h3 j hj.2, ho j hj.1]
    · have hr : is.flatMap (fun i' => (m.schedAdvance i).now.overflowIrqs ((m.schedAdvance i).now.sched i')) =
          is.flatMap (fun i' => m.now.overflowIrqs (m.now.sched i')) :=
        congrArg List.flatten <| List.map_congr_left fun j hj => by rw [c.overflowIrqs, ho j fun g => nd.1 (g ▸ hj)]
      have hi : (m.schedAdvance i).now.irqs = m.now.irqs ++ m.now.overflowIrqs (m.now.sched i) := by rw [e]
      rw [h4, hr, hi, List.flatMap_cons, List.append_assoc]

/-! ### Slots -/

/-- A list numbered from 0, mapped: its entry at a number. -/
theorem getD_map_zip_range {α β : Type} (l : List α) (F : α × Nat → β) {i : Nat} (hi : i < l.length) (d : α) (d' : β) :
    ((l.zip (List.range l.length)).map F).getD i d' = F (l.getD i d, i) := by
  simp [List.getD_eq_getElem?_getD, hi]

/-- The numbered entries of a list. -/
theorem mem_zip_range_iff {α : Type} {l : List α} (d : α) {a : α} {i : Nat} :
    (a, i) ∈ l.zip (List.range l.length) ↔ i < l.length ∧ l.getD i d = a := by
  rw [List.mem_iff_getElem]
  constructor
  · rintro ⟨n, hn, e⟩
    simp only [List.length_zip, List.length_range, Nat.min_self] at hn
    simp only [List.getElem_zip, List.getElem_range, Prod.mk.injEq] at e
    obtain ⟨e, rfl⟩ := e
    exact ⟨hn, (List.getElem_eq_getD d).symm.trans e⟩
  · rintro ⟨hl, hp⟩
    refine ⟨i, by simpa using hl, ?_⟩
    simp only [List.getElem_zip, List.getElem_range, ← hp, List.getElem_eq_getD d]

/-- A slot that runs. -/
theorem State.slotAdvance_runs {s : State} {x : Sched} {i j : Nat} (h : s.slotRuns x i j = true) :
    let c := x.counter i
    let p := c.slot j
    let wrap := decide (2 ^ 48 ≤ p.value.toNat + s.slotEvents x c p)
    s.slotAdvance x i c j p = ({ p with
      te := p.te + 1, tr := p.tr + 1, value := BitVec.ofNat 48 (p.value.toNat + s.slotEvents x c p), ovf := p.ovf || wrap }, wrap && p.ovi) := by
  simp only [State.slotRuns, Bool.and_eq_true, Bool.not_eq_true', beq_iff_eq] at h
  obtain ⟨⟨⟨⟨hc, he⟩, ho⟩, hf⟩, hj⟩ := h
  intro c p wrap
  have h1 : (!c.claimed || !p.en) = false := by rw [hc, he]; rfl
  have h2 : (s.ownerOut c.owner || laneBit (x.frz.setWidth 32) i || j != x.act) = false := by rw [ho, hf, hj, bne_self_eq_false]; rfl
  rw [State.slotAdvance, h1, h2]
  rfl

/-- A slot that does not run: while its counter is claimed and it is enabled, TE counts. -/
theorem State.slotAdvance_idle {s : State} {x : Sched} {i j : Nat} (h : s.slotRuns x i j = false) :
    let c := x.counter i
    let p := c.slot j
    s.slotAdvance x i c j p = ({ p with te := if c.claimed = true ∧ p.en = true then p.te + 1 else p.te }, false) := by
  intro c p
  by_cases hce : c.claimed = true ∧ p.en = true
  · have ho : (s.ownerOut c.owner || laneBit (x.frz.setWidth 32) i || j != x.act) = true := by
      have h' : (c.claimed && p.en && !s.ownerOut c.owner && !laneBit (x.frz.setWidth 32) i && j == x.act) = false := h
      rw [hce.1, hce.2, Bool.true_and, Bool.true_and] at h'
      rw [← Bool.not_eq_false', Bool.not_or, Bool.not_or, bne, Bool.not_not]
      exact h'
    have hn : (!c.claimed || !p.en) = false := by rw [hce.1, hce.2]; rfl
    rw [State.slotAdvance, hn, ho, if_pos hce]
    rfl
  · have hn : (!c.claimed || !p.en) = true := by
      rw [← Bool.not_and, Bool.not_eq_true', ← Bool.not_eq_true, Bool.and_eq_true]; exact hce
    rw [State.slotAdvance, hn, if_neg hce]
    rfl

/-- What a slot is after an ac (R398). -/
structure SlotAfter (s : State) (x : Sched) (i j : Nat) (q : CounterSlot) : Prop where
  event : q.event = ((x.counter i).slot j).event
  en : q.en = ((x.counter i).slot j).en
  ovi : q.ovi = ((x.counter i).slot j).ovi
  value : q.value = ((x.counter i).slot j).value + BitVec.ofNat 48 (s.slotCounts x i j)
  te : q.te = (if (x.counter i).claimed = true ∧ ((x.counter i).slot j).en = true then ((x.counter i).slot j).te + 1
    else ((x.counter i).slot j).te)
  tr : q.tr = (if s.slotRuns x i j = true then ((x.counter i).slot j).tr + 1 else ((x.counter i).slot j).tr)
  ovf : q.ovf = true ↔ ((x.counter i).slot j).ovf = true ∨ 2 ^ 48 ≤ ((x.counter i).slot j).value.toNat + s.slotCounts x i j

theorem State.slotAdvance_after (s : State) (x : Sched) (i j : Nat) :
    SlotAfter s x i j (s.slotAdvance x i (x.counter i) j ((x.counter i).slot j)).1 := by
  cases hr : s.slotRuns x i j with
  | true =>
    have hce : (x.counter i).claimed = true ∧ ((x.counter i).slot j).en = true := by
      simp only [State.slotRuns, Bool.and_eq_true] at hr
      exact hr.1.1.1
    have hn : s.slotCounts x i j = s.slotEvents x (x.counter i) ((x.counter i).slot j) := if_pos hr
    rw [State.slotAdvance_runs hr]
    refine ⟨rfl, rfl, rfl, ?_, (if_pos hce).symm, (if_pos hr).symm, ?_⟩
    · rw [hn, BitVec.ofNat_add, BitVec.ofNat_toNat, BitVec.setWidth_eq]
    · rw [hn, Bool.or_eq_true, decide_eq_true_eq]
  | false =>
    have hn : s.slotCounts x i j = 0 := if_neg (by rw [hr]; exact Bool.false_ne_true)
    have hlt := ((x.counter i).slot j).value.isLt
    rw [State.slotAdvance_idle hr]
    refine ⟨rfl, rfl, rfl, ?_, rfl, ?_, ?_⟩
    · rw [hn]; exact (BitVec.add_zero _).symm
    · rw [hr]; rfl
    · rw [hn]
      exact ⟨.inl, fun h => h.resolve_right (by omega)⟩

/-- The overflow interrupt of a slot is raised where it wraps and asks for it (R400). -/
theorem State.slotAdvance_raises (s : State) (x : Sched) (i j : Nat) :
    (s.slotAdvance x i (x.counter i) j ((x.counter i).slot j)).2 = true ↔
      2 ^ 48 ≤ ((x.counter i).slot j).value.toNat + s.slotCounts x i j ∧ ((x.counter i).slot j).ovi = true := by
  cases hr : s.slotRuns x i j with
  | true =>
    have hn : s.slotCounts x i j = s.slotEvents x (x.counter i) ((x.counter i).slot j) := if_pos hr
    rw [State.slotAdvance_runs hr, hn, Bool.and_eq_true, decide_eq_true_eq]
  | false =>
    have hn : s.slotCounts x i j = 0 := if_neg (by rw [hr]; exact Bool.false_ne_true)
    have hlt := ((x.counter i).slot j).value.isLt
    rw [State.slotAdvance_idle hr, hn]
    exact ⟨Bool.noConfusion, fun h => absurd h.1 (by omega)⟩

/-! ### Counters and schedulers -/

/-- A numbered counter an ac on, slot by slot, with the owner once for each interrupt. -/
def State.counterStep (s : State) (x : Sched) (p : Counter × Nat) : Counter × List Tag :=
  let r := (p.1.slots.zip (List.range p.1.slots.length)).map (fun q => s.slotAdvance x p.2 p.1 q.2 q.1)
  ({ p.1 with slots := r.map (·.1) }, (r.filter (·.2)).map (fun _ => p.1.owner))

theorem State.counterAdvance_eq (s : State) (x : Sched) :
    s.counterAdvance x = (x.counters.zip (List.range x.counters.length)).map (s.counterStep x) := rfl

theorem State.schedAfter_counter (s : State) (x : Sched) {i : Nat} (hi : i < x.counters.length) :
    (s.schedAfter x).counter i = (s.counterStep x (x.counter i, i)).1 := by
  show ((s.counterAdvance x).map (·.1)).getD i Counter.clear = _
  rw [State.counterAdvance_eq, List.map_map]
  exact getD_map_zip_range x.counters _ hi Counter.clear Counter.clear

theorem State.counterStep_slot (s : State) (x : Sched) (c : Counter) (i : Nat) {j : Nat} (hj : j < c.slots.length) :
    (s.counterStep x (c, i)).1.slot j = (s.slotAdvance x i c j (c.slot j)).1 := by
  show (((c.slots.zip (List.range c.slots.length)).map (fun q => s.slotAdvance x i c q.2 q.1)).map (·.1)).getD j CounterSlot.clear = _
  rw [List.map_map]
  exact getD_map_zip_range c.slots _ hj CounterSlot.clear CounterSlot.clear

theorem State.schedAfter_slots (s : State) (x : Sched) : SlotsAdvance s x (s.schedAfter x) := by
  refine ⟨by simp [State.schedAfter, State.counterAdvance_eq], fun i hi => ?_⟩
  rw [s.schedAfter_counter x hi]
  refine ⟨rfl, rfl, by simp [State.counterStep], fun j hj => ?_⟩
  rw [s.counterStep_slot x _ i hj]
  obtain ⟨h1, h2, h3, h4, h5, h6, h7⟩ := s.slotAdvance_after x i j
  exact ⟨h1, h2, h3, h4, h5, h6, h7.trans (or_congr_right ⟨fun h => ⟨hi, hj, h⟩, fun h => h.2.2⟩)⟩

/-- An owner is raised for each of its slots that wraps and asks for it. -/
theorem State.mem_raised {s : State} {x : Sched} {t : Tag} : t ∈ (s.counterAdvance x).flatMap (·.2) ↔
    ∃ i j, s.slotWraps x i j ∧ ((x.counter i).slot j).ovi = true ∧ (x.counter i).owner = t := by
  rw [State.counterAdvance_eq, List.flatMap_map, List.mem_flatMap]
  constructor
  · rintro ⟨⟨c, i⟩, hc, ht⟩
    obtain ⟨hi, rfl⟩ := (mem_zip_range_iff Counter.clear).mp hc
    obtain ⟨r, hr, rfl⟩ := List.mem_map.mp ht
    obtain ⟨hr, h2⟩ := List.mem_filter.mp hr
    obtain ⟨⟨q, j⟩, hq, rfl⟩ := List.mem_map.mp hr
    obtain ⟨hj, rfl⟩ := (mem_zip_range_iff CounterSlot.clear).mp hq
    obtain ⟨hw, ho⟩ := (s.slotAdvance_raises x i j).mp h2
    exact ⟨i, j, ⟨hi, hj, hw⟩, ho, rfl⟩
  · rintro ⟨i, j, ⟨hi, hj, hw⟩, ho, rfl⟩
    refine ⟨(x.counter i, i), (mem_zip_range_iff Counter.clear).mpr ⟨hi, rfl⟩, List.mem_map.mpr ⟨_, List.mem_filter.mpr
      ⟨List.mem_map.mpr ⟨((x.counter i).slot j, j), (mem_zip_range_iff CounterSlot.clear).mpr ⟨hj, rfl⟩, rfl⟩, ?_⟩, rfl⟩⟩
    exact (s.slotAdvance_raises x i j).mpr ⟨hw, ho⟩

/-- The interrupts of a scheduler: of each slot that wraps, asks for it, and whose owner has a virtual function. -/
theorem State.mem_overflowIrqs {s : State} {x : Sched} {e : HostFn × Nat} : e ∈ s.overflowIrqs x ↔
    ∃ i j v, s.slotWraps x i j ∧ ((x.counter i).slot j).ovi = true ∧ (s.owner (x.counter i).owner).vf = some v ∧
      e = (.vf v, (Keyed.find s.vfs v.toNat).elim 0 (fun d => d.desc.irq.toNat)) := by
  simp only [State.overflowIrqs, List.mem_filterMap, State.mem_raised, State.overflowIrq, Option.map_eq_some_iff]
  constructor
  · rintro ⟨t, ⟨i, j, hw, ho, rfl⟩, v, hv, rfl⟩
    exact ⟨i, j, v, hw, ho, hv, rfl⟩
  · rintro ⟨i, j, v, hw, ho, hv, rfl⟩
    exact ⟨_, ⟨i, j, hw, ho, rfl⟩, v, hv, rfl⟩

end Sys2Proof.Machine
end

section
/-! SUPPORT. The events of time and of power, from which O56 follows. -/

namespace Sys2Proof.Machine

variable {k : Bool} {s0 : State}

/-! ## COUNTER_ADVANCE -/

/-- The schedulers whose turn comes are those with a resident warp, in order. -/
theorem State.mem_busyScheds (s : State) (sc : Nat) : sc ∈ s.busyScheds ↔
    sc < 1024 ∧ ∃ w ∈ s.warps, w.2.resident = true ∧ w.2.ended = false ∧ 4 * w.2.core + w.2.sched = sc := by
  simp only [State.busyScheds, List.mem_filter, List.mem_range, List.any_eq_true, Bool.and_eq_true, Bool.not_eq_true', beq_iff_eq, and_assoc]

theorem State.busyScheds_sorted (s : State) : s.busyScheds.Pairwise (· < ·) := List.pairwise_lt_range.filter _

theorem State.busyScheds_congr {s t : State} (h : t.warps = s.warps) : t.busyScheds = s.busyScheds := by
  simp only [State.busyScheds, h]

theorem State.fallDue_congr {s t : State} (h : t.ops = s.ops) (ac : Nat) : t.fallDue ac = s.fallDue ac := by
  simp only [State.fallDue, h]

/-- The part of COUNTER_ADVANCE before time passes: the tables are examined, and every scheduler is an ac on. -/
def State.advanced (s : State) : State :=
  let m := (begin_ true s).each (s.warps.filter (fun w => w.2.meets)) (fun m w => m.rejoinCheck w.1)
  (m.each (m.now.scheds.map (·.1)) (fun m i => m.schedAdvance i)).now

/-- The rest of it: time passes, the turns begin anew, and what falls due stands in the agenda. -/
def Sim.endAc (m : Sim true s0) (ac fc part : Nat) : Sim true s0 :=
  let m := m.sys (.time ac fc part)
  let m := m.act (.turns m.now.busyScheds)
  m.later ((m.now.fallDue ac).map Instr.longLatencyComplete)

theorem Sim.endAc_now (m : Sim true s0) (ac fc part : Nat) : (m.endAc ac fc part).now = { m.now with
    ac := ac, fc := fc, fcPart := part, turns := m.now.busyScheds
    agenda := m.now.agenda ++ (m.now.fallDue ac).map Instr.longLatencyComplete } := by
  have hb : (m.sys (.time ac fc part)).now.busyScheds = m.now.busyScheds := State.busyScheds_congr rfl
  have hd : ∀ v, ((m.sys (.time ac fc part)).act (.turns v)).now.fallDue ac = m.now.fallDue ac := fun _ => State.fallDue_congr rfl ac
  unfold Sim.endAc
  dsimp only
  rw [hb, hd]
  generalize m.now.busyScheds = busy
  rfl

theorem counterAdvance_next (s : State) : exec .counterAdvance s = .next { s.advanced with
    ac := s.ac + 1, fc := (fcStep s.fc s.fcPart s.boot.clock).1, fcPart := (fcStep s.fc s.fcPart s.boot.clock).2
    turns := s.advanced.busyScheds, agenda := s.advanced.agenda ++ (s.advanced.fallDue (s.ac + 1)).map Instr.longLatencyComplete } :=
  congrArg Host.Outcome.next (Sim.endAc_now _ _ _ _)

/-- Where every warp is listed once, each has its table examined at most once, and nothing else of it changes. -/
theorem State.advanced_warps {s : State} (nd : (s.warps.map (·.1)).Nodup) :
    s.advanced = { s with warps := s.advanced.warps, scheds := s.advanced.scheds, irqs := s.advanced.irqs } ∧
    ∀ wi w, (wi, w) ∈ s.warps → s.advanced.warp wi = if w.meets = true then w.rejoined s.ac else w := by
  obtain ⟨h1, h2, h3⟩ := (begin_ true s).each_rejoinCheck (s.warps.filter (fun w => w.2.meets)) (nd.sublist (List.filter_sublist.map _))
  let m := (begin_ true s).each (s.warps.filter (fun w => w.2.meets)) (fun m w => m.rejoinCheck w.1)
  have hc : Counted m.now s.advanced :=
    Sim.each_keeps (P := Counted m.now) (fun n i h => h.trans (n.schedAdvance_counted i)) m _ rfl
  have hw : ∀ wi, s.advanced.warp wi = m.now.warp wi := fun wi => by rw [hc]; rfl
  refine ⟨?_, fun wi w hm => ?_⟩
  · conv => lhs; rw [hc, h1]
    rw [hc]
    rfl
  · have hg : s.warp wi = w := Keyed.get_of_mem _ nd hm
    rw [hw]
    split
    · next hmeets =>
      rw [h2 wi (List.mem_map.mpr ⟨(wi, w), List.mem_filter.mpr ⟨hm, hmeets⟩, rfl⟩)]
      exact congrArg _ hg
    · next hmeets =>
      rw [h3 wi]
      · exact hg
      · intro hk
        obtain ⟨⟨i, v⟩, hv, rfl⟩ := List.mem_map.mp hk
        obtain ⟨hv, hvm⟩ := List.mem_filter.mp hv
        have : v = w := by rw [← hg]; exact (Keyed.get_of_mem _ nd hv).symm
        exact hmeets (this ▸ hvm)

/-- Where no table is to be examined, every scheduler is an ac on and its interrupts are raised. -/
theorem State.advanced_scheds {s : State} (hm : ∀ w ∈ s.warps, w.2.meets = false) (nd : (s.scheds.map (·.1)).Nodup) :
    Counted s s.advanced ∧ s.advanced.scheds.map (·.1) = s.scheds.map (·.1) ∧
    (∀ sc x, (sc, x) ∈ s.scheds → s.advanced.sched sc = s.schedAfter x) ∧
    s.advanced.irqs = s.irqs ++ s.scheds.flatMap (fun x => s.overflowIrqs x.2) := by
  have hf : s.warps.filter (fun w => w.2.meets) = [] :=
    List.filter_eq_nil_iff.mpr fun w hw => by rw [hm w hw]; exact Bool.false_ne_true
  have e : s.advanced = ((begin_ true s).each (s.scheds.map (·.1)) (fun m i => m.schedAdvance i)).now := by
    rw [State.advanced, hf]; rfl
  obtain ⟨h1, h2, -, h4⟩ := (begin_ true s).each_schedAdvance (s.scheds.map (·.1)) nd fun _ => id
  have hg : ∀ sc x, (sc, x) ∈ s.scheds → s.sched sc = x := fun sc x h => Keyed.get_of_mem _ nd h
  rw [e]
  refine ⟨Sim.each_keeps (P := Counted s) (fun n i h => h.trans (n.schedAdvance_counted i)) _ _ rfl, h1, fun sc x hx => ?_, ?_⟩
  · rw [h2 sc (List.mem_map_of_mem (f := (·.1)) hx)]
    exact congrArg _ (hg sc x hx)
  · rw [h4, List.flatMap_map]
    exact congrArg _ (congrArg List.flatten (List.map_congr_left fun x hx => congrArg _ (hg x.1 x.2 hx)))

theorem counterAdvance_passes {s : State} (hm : ∀ w ∈ s.warps, w.2.meets = false) (nd : (s.scheds.map (·.1)).Nodup) :
    ∃ t, exec .counterAdvance s = .next t ∧ AcPasses s t := by
  obtain ⟨hc, h1, h2, h3⟩ := State.advanced_scheds hm nd
  let f := fcStep s.fc s.fcPart s.boot.clock
  have hops : s.advanced.fallDue (s.ac + 1) = s.fallDue (s.ac + 1) := State.fallDue_congr (by rw [hc]) _
  have hbusy : s.advanced.busyScheds = s.busyScheds := State.busyScheds_congr (by rw [hc])
  have hmem := s.mem_busyScheds
  have hsort := s.busyScheds_sorted
  generalize s.busyScheds = busy at hbusy hmem hsort
  have hag : s.advanced.agenda = s.agenda := by rw [hc]
  refine ⟨{ s with
    ac := s.ac + 1, fc := f.1, fcPart := f.2, turns := busy, scheds := s.advanced.scheds, irqs := s.advanced.irqs
    agenda := s.agenda ++ (s.fallDue (s.ac + 1)).map Instr.longLatencyComplete }, ?_,
    ⟨rfl, ?_, ⟨hmem, hsort⟩, ?_, h1, fun sc x hx => ?_, ?_⟩⟩
  · rw [counterAdvance_next, hops, hbusy, hag]
    conv => lhs; rw [hc]
  · show if s.boot.clock ≤ s.fcPart + 2000 then f.1 = s.fc + 1 ∧ f.2 = s.fcPart + 2000 - s.boot.clock
      else f.1 = s.fc ∧ f.2 = s.fcPart + 2000
    simp only [f, fcStep]
    split
    · exact ⟨rfl, rfl⟩
    · exact ⟨rfl, rfl⟩
  · rw [State.fallDue, List.map_map]; rfl
  · show SlotsAdvance s x (s.advanced.sched sc) ∧ s.advanced.sched sc = { x with
      counters := (s.advanced.sched sc).counters, events := []
      period := if x.rper = 0 then 0 else x.period + 1, tick := if x.tper = 0 then 0 else x.tick + 1 }
    rw [h2 sc x hx]
    exact ⟨s.schedAfter_slots x, rfl⟩
  · refine ⟨_, h3, fun e he => ?_, fun sc x i j v hx hw ho hv => ?_⟩
    · obtain ⟨⟨sc, x⟩, hx, he⟩ := List.mem_flatMap.mp he
      obtain ⟨i, j, v, hw, ho, hv, rfl⟩ := State.mem_overflowIrqs.mp he
      exact ⟨sc, x, i, j, v, hx, hw, ho, hv, rfl, fun d hd => by rw [hd]; rfl⟩
    · exact ⟨_, List.mem_flatMap.mpr ⟨(sc, x), hx, State.mem_overflowIrqs.mpr ⟨i, j, v, hw, ho, hv, rfl⟩⟩, rfl⟩

theorem counterAdvance_rejoins {s : State} (nd : (s.warps.map (·.1)).Nodup) :
    ∃ t, exec .counterAdvance s = .next t ∧ t.ac = s.ac + 1 ∧ t.mem = s.mem ∧ t.ops = s.ops ∧
      ∀ wi w, (wi, w) ∈ s.warps → t.warp wi = if w.meets = true then w.rejoined s.ac else w := by
  obtain ⟨h1, h2⟩ := State.advanced_warps nd
  refine ⟨_, counterAdvance_next s, rfl, ?_, ?_, h2⟩
  · show s.advanced.mem = s.mem
    rw [h1]
  · show s.advanced.ops = s.ops
    rw [h1]

/-! ## COUNTER_ROTATE and TIMER_TICK -/

/-- The lowest of two by a key, the earlier where they are equal; the first where there is no other. -/
def lowerOf (key : Nat → Nat) (b : Option Nat) (w : Nat) : Option Nat :=
  match b with
  | none => some w
  | some v => if key w < key v then some w else some v

/-- A fold for the lowest finds the element whose key is below every other's. -/
theorem foldl_lowerOf {key : Nat → Nat} {w : Nat} {l : List Nat} {b : Option Nat} (hb : ∀ v, b = some v → v ≠ w → key w < key v)
    (hl : ∀ v ∈ l, v ≠ w → key w < key v) (hw : w ∈ l ∨ b = some w) : l.foldl (lowerOf key) b = some w := by
  induction l generalizing b with
  | nil => exact hw.resolve_left List.not_mem_nil
  | cons x xs ih =>
    have hx := hl x (List.mem_cons_self ..)
    have hxs : ∀ v ∈ xs, v ≠ w → key w < key v := fun v hv => hl v (List.mem_cons_of_mem _ hv)
    rw [List.foldl_cons]
    cases b with
    | none =>
      refine ih (fun v hv => by cases hv; exact hx) hxs ?_
      rcases hw with hw | hw
      · exact (List.mem_cons.mp hw).symm.imp id (congrArg some ·.symm)
      · cases hw
    | some u =>
      have hu := hb u rfl
      simp only [lowerOf]
      split
      · next hlt =>
        refine ih (fun v hv => by cases hv; exact hx) hxs ?_
        rcases hw with hw | hw
        · exact (List.mem_cons.mp hw).symm.imp id (congrArg some ·.symm)
        · obtain rfl := Option.some.inj hw
          by_cases hxw : x = u
          · exact .inr (congrArg some hxw)
          · exact absurd (hx hxw) (by omega)
      · next hlt =>
        refine ih (fun v hv => by cases hv; exact hu) hxs ?_
        rcases hw with hw | hw
        · rcases List.mem_cons.mp hw with rfl | hw
          · by_cases huw : u = w
            · exact .inr (congrArg some huw)
            · exact absurd (hu huw) hlt
          · exact .inl hw
        · exact .inr hw

/-- The resident warps of a scheduler that its timer interrupts (R407). -/
def State.timerWarps (s : State) (sc : Nat) : List Nat :=
  (s.residents sc).filter (fun w => some (s.launchOf w).vf == (s.sched sc).cntcVf)

/-- The state behind a tick that is taken. -/
def State.ticked (s : State) (sc : Nat) : State :=
  { s with scheds := Keyed.put s.scheds sc { s.sched sc with tick := (s.sched sc).tick - 1024 * (s.sched sc).tper } }

/-- A tick taken finds the chosen warp, if there is one, and the lowest live lane of it. -/
theorem timerTick_due {s : State} {sc : Nat} (h : (s.sched sc).tper ≠ 0 ∧ 1024 * (s.sched sc).tper ≤ (s.sched sc).tick) :
    let m := (begin_ true s).act (.sched sc { s.sched sc with tick := (s.sched sc).tick - 1024 * (s.sched sc).tper })
    exec (.timerTick sc) s = match (s.timerWarps sc).foldl (lowerOf (fun w => (s.warp w).slot)) none with
      | none =>
        let tags := (s.owners.filter (fun e => e.2.vf == (s.sched sc).cntcVf)).map (·.1)
        ran (m.each tags (fun m t => m.count sc 0x210 (BitVec.ofNat 12 t) 1))
      | some w =>
        match (List.range 32).find? (fun l => (s.thread w l).life == .live) with
        | some l =>
          if (s.thread w l).pend.any (fun p => p.cause == 0x0E) then ran m
          else ran (m.pendTrap w l { cause := 0x0E, late := false, tval := 0, pc := 0, va := 0 })
        | none => ran m := by
  rw [exec_timerTick, execTimerTick, if_pos h]
  rfl

theorem timerTick_idle {s : State} {sc : Nat} (h : ¬ ((s.sched sc).tper ≠ 0 ∧ 1024 * (s.sched sc).tper ≤ (s.sched sc).tick)) :
    exec (.timerTick sc) s = .next s := by
  rw [exec_timerTick, execTimerTick, if_neg h]
  rfl

/-- TIMER becomes pending in the lowest live lane of the warp of the lowest slot, once. -/
theorem timerTick_pends {s : State} {sc w l : Nat} (h : (s.sched sc).tper ≠ 0 ∧ 1024 * (s.sched sc).tper ≤ (s.sched sc).tick)
    (hw : w ∈ s.timerWarps sc) (hlow : ∀ v ∈ s.timerWarps sc, v ≠ w → (s.warp w).slot < (s.warp v).slot)
    (hl : (List.range 32).find? (fun l => (s.thread w l).life == .live) = some l) :
    ((∃ p ∈ (s.thread w l).pend, p.cause = 0x0E) → exec (.timerTick sc) s = .next (s.ticked sc)) ∧
    ((∀ p ∈ (s.thread w l).pend, p.cause ≠ 0x0E) → exec (.timerTick sc) s = .next
      { s.ticked sc with warps := Keyed.put s.warps w ((s.warp w).mod l (fun t => { t with
        pend := t.pend ++ [{ cause := 0x0E, late := false, tval := 0, pc := 0, va := 0 }] })) }) := by
  have hf : (s.timerWarps sc).foldl (lowerOf (fun w => (s.warp w).slot)) none = some w :=
    foldl_lowerOf (fun _ hv => nomatch hv) hlow (.inl hw)
  rw [timerTick_due h, hf]
  simp only [hl]
  refine ⟨fun ⟨p, hp, hc⟩ => ?_, fun hn => ?_⟩
  · have ha : (s.thread w l).pend.any (fun p => p.cause == 0x0E) = true := List.any_eq_true.mpr ⟨p, hp, beq_iff_eq.mpr hc⟩
    rw [if_pos ha]
    rfl
  · have ha : ¬ (s.thread w l).pend.any (fun p => p.cause == 0x0E) = true := fun ha =>
      let ⟨p, hp, hc⟩ := List.any_eq_true.mp ha
      hn p hp (beq_iff_eq.mp hc)
    rw [if_neg ha]
    rfl

/-- Ticks that are lost, counted for each of some owners. -/
theorem Sim.each_count (m : Sim k s0) (i code : Nat) (tags : List Nat) :
    let t := (m.each tags (fun m t => m.count i code (BitVec.ofNat 12 t) 1)).now
    t = { m.now with scheds := t.scheds } ∧ (∀ j, j ≠ i → t.sched j = m.now.sched j) ∧
    t.sched i = { m.now.sched i with events := (t.sched i).events } ∧
    ∀ e, e ∈ (t.sched i).events ↔ e ∈ (m.now.sched i).events ∨ ∃ t ∈ tags, e = (code, BitVec.ofNat 12 t, 1) := by
  induction tags generalizing m with
  | nil => exact ⟨rfl, fun _ _ => rfl, rfl, by simp⟩
  | cons a as ih =>
    have hi : (m.count i code (BitVec.ofNat 12 a) 1).now.sched i =
        { m.now.sched i with events := (code, BitVec.ofNat 12 a, 1) :: (m.now.sched i).events } :=
      (Keyed.get_put ..).trans (if_pos rfl)
    have ho : ∀ j, j ≠ i → (m.count i code (BitVec.ofNat 12 a) 1).now.sched j = m.now.sched j :=
      fun j hj => (Keyed.get_put ..).trans (if_neg (Ne.symm hj))
    obtain ⟨h1, h2, h3, h4⟩ := ih (m.count i code (BitVec.ofNat 12 a) 1)
    rw [Sim.each_cons]
    refine ⟨h1, fun j hj => (h2 j hj).trans (ho j hj), ?_, fun e => ?_⟩
    · refine h3.trans ?_
      rw [hi]
    · rw [h4, hi, List.mem_cons]
      simp only [List.mem_cons, exists_eq_or_imp, or_assoc]
      exact or_left_comm

/-- Where the timer has no warp to interrupt, the tick is lost and counted for each owner of its virtual function. -/
theorem timerTick_lost {s : State} {sc : Nat} (h : (s.sched sc).tper ≠ 0 ∧ 1024 * (s.sched sc).tper ≤ (s.sched sc).tick)
    (hn : s.timerWarps sc = []) : ∃ t, exec (.timerTick sc) s = .next t ∧ t = { s with scheds := t.scheds } ∧
      (∀ j, j ≠ sc → t.sched j = s.sched j) ∧
      t.sched sc = { s.sched sc with tick := (s.sched sc).tick - 1024 * (s.sched sc).tper, events := (t.sched sc).events } ∧
      ∀ e, e ∈ (t.sched sc).events ↔
        e ∈ (s.sched sc).events ∨ ∃ o ∈ s.owners, o.2.vf = (s.sched sc).cntcVf ∧ e = (0x210, BitVec.ofNat 12 o.1, 1) := by
  let m := (begin_ true s).act (.sched sc { s.sched sc with tick := (s.sched sc).tick - 1024 * (s.sched sc).tper })
  have hi : m.now.sched sc = { s.sched sc with tick := (s.sched sc).tick - 1024 * (s.sched sc).tper } :=
    (Keyed.get_put ..).trans (if_pos rfl)
  have ho : ∀ j, j ≠ sc → m.now.sched j = s.sched j := fun j hj => (Keyed.get_put ..).trans (if_neg (Ne.symm hj))
  obtain ⟨h1, h2, h3, h4⟩ := m.each_count sc 0x210 ((s.owners.filter (fun e => e.2.vf == (s.sched sc).cntcVf)).map (·.1))
  refine ⟨_, ?_, h1, fun j hj => (h2 j hj).trans (ho j hj), ?_, fun e => ?_⟩
  · rw [timerTick_due h, hn]
    rfl
  · refine h3.trans ?_
    rw [hi]
  · rw [h4, hi]
    refine or_congr_right ⟨?_, ?_⟩
    · rintro ⟨t, ht, rfl⟩
      obtain ⟨o, ho, rfl⟩ := List.mem_map.mp ht
      obtain ⟨ho, hv⟩ := List.mem_filter.mp ho
      exact ⟨o, ho, beq_iff_eq.mp hv, rfl⟩
    · rintro ⟨o, ho, hv, rfl⟩
      exact ⟨o.1, List.mem_map.mpr ⟨o, List.mem_filter.mpr ⟨ho, beq_iff_eq.mpr hv⟩, rfl⟩, rfl⟩

/-! ## The clauses -/

theorem counterRotate_turns (s : State) (sc : Nat) :
    let x := s.sched sc
    (¬ (x.rper ≠ 0 ∧ 1024 * x.rper ≤ x.period) → exec (.counterRotate sc) s = .next s) ∧
    (x.rper ≠ 0 → 1024 * x.rper ≤ x.period → exec (.counterRotate sc) s = .next
      { s with scheds := Keyed.put s.scheds sc { x with act := (x.act + 1) % x.nset, period := x.period - 1024 * x.rper } }) := by
  intro x
  refine ⟨fun h => ?_, fun h1 h2 => ?_⟩
  · rw [exec_counterRotate, execCounterRotate, if_neg h]; rfl
  · rw [exec_counterRotate, execCounterRotate, if_pos ⟨h1, h2⟩]; rfl

/-- The governor: at the floor from 105 °C on, down past the limit, up where the power leaves room, and else as it is (R447). -/
theorem governorStep_moves (s : State) (mw : Nat) :
    let b := s.boot
    let after := fun c hot => { s with free := s.free + 1, boot := { b with clock := c, hot := hot } }
    (1050 ≤ s.temp.toInt → exec (.governorStep mw) s = .next (after 2000 true)) ∧
    (s.temp.toInt < 1050 → b.limit < mw → exec (.governorStep mw) s = .next (after (Nat.max 2000 (b.clock - 125)) false)) ∧
    (s.temp.toInt < 1050 → mw ≤ b.limit → mw * 100 ≤ b.limit * 95 →
      exec (.governorStep mw) s = .next (after (Nat.min 4000 (b.clock + 125)) false)) ∧
    (s.temp.toInt < 1050 → mw ≤ b.limit → b.limit * 95 < mw * 100 → exec (.governorStep mw) s = .next (after b.clock false)) := by
  intro b after
  refine ⟨fun h => ?_, fun h h1 => ?_, fun h h1 h2 => ?_, fun h h1 h2 => ?_⟩
  · rw [exec_governorStep, execGovernorStep, if_pos h]; rfl
  · rw [exec_governorStep, execGovernorStep, if_neg (by omega), if_pos h1]; rfl
  · rw [exec_governorStep, execGovernorStep, if_neg (by omega), if_neg (Nat.not_lt.mpr h1), if_pos h2]; rfl
  · rw [exec_governorStep, execGovernorStep, if_neg (by omega), if_neg (Nat.not_lt.mpr h1), if_neg (Nat.not_le.mpr h2)]; rfl

/-- What the examination of a table releases and what it leaves (R152). -/
theorem rejoined_clauses {s t : State} {wi : Nat} {w : Warp} (hw : t.warp wi = if w.meets = true then w.rejoined s.ac else w) :
    (w.meets = false → t.warp wi = w) ∧
    (∀ r ∈ w.rejoin, w.ended = false → (∀ l ∈ lanesOf r.mask, parkedAt s.ac (w.thread l) r.addr = true) →
      r ∉ (t.warp wi).rejoin ∧ ∀ l, l < 32 → parkedAt s.ac (w.thread l) r.addr = true → t.thread wi l = unpark s.ac (w.thread l)) ∧
    (∀ r ∈ w.rejoin, (∃ l ∈ lanesOf r.mask, parkedAt s.ac (w.thread l) r.addr = false) →
      r ∈ (t.warp wi).rejoin ∧
      ((∀ r' ∈ w.rejoin, r'.addr = r.addr → ∃ l ∈ lanesOf r'.mask, parkedAt s.ac (w.thread l) r.addr = false) →
        ∀ l, l < 32 → (w.thread l).pc = r.addr → t.thread wi l = w.thread l)) ∧
    (∀ l, l < 32 → w.meets = true → parkedAt s.ac (w.thread l) (w.thread l).pc = true → (∀ r ∈ w.rejoin, r.addr ≠ (w.thread l).pc) →
      t.thread wi l = unpark s.ac (w.thread l)) := by
  refine ⟨fun h => by rw [hw, h]; rfl, fun r hr he hp => ?_, fun r hr hn => ?_, fun l hl hm hp ho => ?_⟩
  · have hmet := Warp.recordMet_iff.mpr hp
    have e : t.warp wi = w.rejoined s.ac := hw.trans (if_pos (Warp.meets_of_recordMet he hr hmet))
    refine ⟨fun h => ?_, fun l hl hpl => ?_⟩
    · have hstay := (List.mem_filter.mp (e ▸ h)).2
      rw [hmet] at hstay
      cases hstay
    · rw [State.thread, e, Warp.rejoined_thread _ _ hl, if_pos (Warp.released_of_met hr hmet hpl)]
  · have hmet := Warp.recordMet_eq_false.mpr hn
    cases hm : w.meets with
    | false =>
      have e : t.warp wi = w := by rw [hw, hm]; rfl
      exact ⟨e ▸ hr, fun _ l _ _ => by rw [State.thread, e]⟩
    | true =>
      have e : t.warp wi = w.rejoined s.ac := hw.trans (if_pos hm)
      refine ⟨e ▸ List.mem_filter.mpr ⟨hr, by rw [hmet]; rfl⟩, fun ho l hl hpc => ?_⟩
      have hrel : w.released s.ac l = false := Warp.not_released hr hmet
        (fun r' hr' ha => Warp.recordMet_eq_false.mpr (by rw [ha]; exact ho r' hr' ha)) hpc
      rw [State.thread, e, Warp.rejoined_thread _ _ hl, hrel]
      rfl
  · rw [State.thread, hw, if_pos hm, Warp.rejoined_thread _ _ hl, if_pos (Warp.released_alone hp ho)]

/-- POWER_ON with a sweep to make: what the sweep leaves in the record, and the lines in error (R396). -/
theorem powerOn_sweeps {s : State} (hr : s.boot.ready = false) (hp : s.boot.passes 3 = true) (hs : s.boot.scrub = true ∨ s.boot.confReq = true) :
    let b := s.boot
    let retired := (b.retired ++ b.found.map (· / 65536)).eraseDups
    let found := (Config.scrubFinds b.boots).filter (fun a => !retired.contains (a / 65536))
    ∃ t, exec .powerOn s = .next t ∧ t = { s with config := s.hosted t.boot.conf, boot := t.boot, bad := t.bad } ∧
      t.boot = { b with
        phase := 5, safe := false, ready := true, boots := b.boots + 1, scrub := false, confReq := false, scrubSeq := b.scrubSeq + 1
        found := found, clean := found.isEmpty, conf := t.boot.conf, retired := retired
        receipts := b.receipts ++ [receiptOf (b.scrubSeq + 1) found retired] } ∧
      t.boot.conf = (if b.confReq = true then !b.conf && found.isEmpty else b.conf) ∧
      ∀ line, Cells.get false t.bad line = true ↔ Cells.get false s.bad line = true ∨ ∃ a ∈ found, line = lineOf (physLoc a) :=
  ⟨_, powerOn_scrubs hr (Boot.failing_eq_none hp) (Bool.or_eq_true_iff.mpr hs), rfl, rfl, rfl, get_badWith s.bad _⟩

/-- Settles O56, clause by clause: each event is the effect that its rule names, and where its condition fails it is none. -/
theorem timeAndPower : Obligations.TimeAndPower := by
  refine ⟨fun s => counterAdvance_passes, fun s nd => ?_, counterRotate_turns, fun s sc => ⟨timerTick_idle, ?_, ?_⟩,
    fun s => ⟨?_, ?_, ?_, powerOn_sweeps⟩, governorStep_moves, fun s => ?_, fun s h scrub => ⟨?_, ?_, ?_⟩, fun s port size => rfl⟩
  · obtain ⟨t, e, h1, h2, h3, h4⟩ := counterAdvance_rejoins nd
    exact ⟨t, e, h1, h2, h3, fun wi w hm => rejoined_clauses (h4 wi w hm)⟩
  · exact fun w l h1 h2 hw hlow hl => timerTick_pends ⟨h1, h2⟩ hw hlow hl
  · exact fun h1 h2 hn => timerTick_lost ⟨h1, h2⟩ hn
  · intro hr
    rw [exec_powerOn, execPowerOn, if_pos hr]
    rfl
  · exact fun p hr h1 h3 hp hf => powerOn_fails hr (Boot.failing_eq_some h1 h3 hp hf)
  · intro hr hp hs hc
    exact powerOn_passes hr (Boot.failing_eq_none hp) (by rw [hs, hc]; rfl)
  · obtain ⟨t, u, e, r, h, hb, hi, hh⟩ := thermalTrip_enters s
    have hbytes : ∀ f, t.bytes (s.eventPlace f) 64 = u.bytes (s.eventPlace f) 64 := fun f =>
      State.bytes_congr fun j h1 h2 => hh j (Nat.le_trans (s.eventPlace_ge f) h1) (by have := s.eventPlace_lt f; omega)
    refine ⟨t, e, h, hi.trans r.irqs, fun f hf => ?_, fun f hf => ?_, fun ho => ?_, fun ho hd => ?_, fun loc h1 h2 hl => ?_⟩
    · exact (congrArg (Keyed.get Mailbox.clear · f) hb).trans (r.others f hf)
    · exact (congrArg (Keyed.get Mailbox.clear · f) hb).trans (r.box f hf)
    · exact (hbytes 1).trans (r.second ho)
    · exact (hbytes 0).trans (r.first ho hd)
    · exact (hh loc h1 h2).trans (r.frame loc hl)
  · intro hs
    rw [exec_reset, execReset, mailboxWord_waits hs]
  · intro hs hv
    rw [exec_reset, execReset]
    exact mailboxWord_denied hs hv true _
  · exact fun hs hv ho => ⟨fun u a he => reset_alone hs hv ho a he, fun u v a hf b he => reset_behind hs hv ho a hf b he⟩

end Sys2Proof.Machine
end

section
/-! SUPPORT. What each field of a word reads, by the six formats of R53. -/

namespace Sys2Proof

section
open BitVec (getLsbD_append extractLsb'_append_eq_of_le extractLsb'_append_eq_of_add_le extractLsb'_append_eq_right)

section
variable (c : Bool) (maj : BitVec 5) (d a : Reg)
@[simp] theorem bitC_rri (imm : BitVec 12) : bitC (rri c maj d a imm) = c := by
  simp only [bitC, rri, getLsbD_append]; simp
@[simp] theorem fMaj_rri (imm : BitVec 12) : fMaj (rri c maj d a imm) = maj := rri_major ..
@[simp] theorem immD_rri (imm : BitVec 12) : immD (rri c maj d a imm) = d := by
  simp only [immD, rri, extractLsb'_append_eq_of_le, extractLsb'_append_eq_right, Nat.reduceLeDiff, Nat.reduceSub]
@[simp] theorem rriA_rri (imm : BitVec 12) : rriA (rri c maj d a imm) = a := by
  simp only [rriA, rri, extractLsb'_append_eq_of_le, extractLsb'_append_eq_right, Nat.reduceLeDiff, Nat.reduceSub]
@[simp] theorem rriOp_rri (imm : BitVec 12) : rriOp (rri c maj d a imm) = imm.extractLsb' 9 3 :=
  extractLsb'_append_eq_of_add_le (by decide)
@[simp] theorem rriImm_rri (imm : BitVec 12) : rriImm (rri c maj d a imm) = imm.extractLsb' 0 9 :=
  extractLsb'_append_eq_of_add_le (by decide)
end

section
variable (c : Bool) (maj fn : BitVec 5) (d a b : Reg)
@[simp] theorem bitC_rrr : bitC (rrr c maj fn d a b) = c := by
  simp only [bitC, rrr, getLsbD_append]; simp
@[simp] theorem fMaj_rrr : fMaj (rrr c maj fn d a b) = maj := rrr_major ..
@[simp] theorem rrrFn_rrr : rrrFn (rrr c maj fn d a b) = fn := by
  simp only [rrrFn, rrr, extractLsb'_append_eq_of_le, extractLsb'_append_eq_right, Nat.reduceLeDiff, Nat.reduceSub]
@[simp] theorem rrrD_rrr : rrrD (rrr c maj fn d a b) = d := by
  simp only [rrrD, rrr, extractLsb'_append_eq_of_le, extractLsb'_append_eq_right, Nat.reduceLeDiff, Nat.reduceSub]
@[simp] theorem rrrA_rrr : rrrA (rrr c maj fn d a b) = a := by
  simp only [rrrA, rrr, extractLsb'_append_eq_of_le, extractLsb'_append_eq_right, Nat.reduceLeDiff, Nat.reduceSub]
@[simp] theorem rrrB_rrr : rrrB (rrr c maj fn d a b) = b := extractLsb'_append_eq_right
end

section
variable (c : Bool) (maj : BitVec 5) (d : Reg) (fn : BitVec 2) (imm : BitVec 17)
@[simp] theorem bitC_i17 : bitC (i17 c maj d fn imm) = c := by
  simp only [bitC, i17, getLsbD_append]; simp
@[simp] theorem fMaj_i17 : fMaj (i17 c maj d fn imm) = maj := i17_major ..
@[simp] theorem immD_i17 : immD (i17 c maj d fn imm) = d := by
  simp only [immD, i17, extractLsb'_append_eq_of_le, extractLsb'_append_eq_right, Nat.reduceLeDiff, Nat.reduceSub]
@[simp] theorem i17Fn_i17 : i17Fn (i17 c maj d fn imm) = fn := by
  simp only [i17Fn, i17, extractLsb'_append_eq_of_le, extractLsb'_append_eq_right, Nat.reduceLeDiff, Nat.reduceSub]
@[simp] theorem i17Imm_i17 : i17Imm (i17 c maj d fn imm) = imm := extractLsb'_append_eq_right
end

section
variable (c : Bool) (maj : BitVec 5) (g : Guard) (fn : BitVec 3) (disp : BitVec 19)
@[simp] theorem bitC_brw : bitC (brw c maj g fn disp) = c := by
  simp only [bitC, brw, getLsbD_append]; simp
@[simp] theorem fMaj_brw : fMaj (brw c maj g fn disp) = maj := brw_major ..
@[simp] theorem fGuard_brw : fGuard (brw c maj g fn disp) = g := by
  simp only [fGuard, brw, getLsbD_append, extractLsb'_append_eq_of_le, extractLsb'_append_eq_right, Nat.reduceLeDiff, Nat.reduceSub]; simp
@[simp] theorem brFn_brw : brFn (brw c maj g fn disp) = fn := by
  simp only [brFn, brw, extractLsb'_append_eq_of_le, extractLsb'_append_eq_right, Nat.reduceLeDiff, Nat.reduceSub]
@[simp] theorem brDisp_brw : brDisp (brw c maj g fn disp) = disp := extractLsb'_append_eq_right
end

section
variable (c : Bool) (maj : BitVec 5) (g : Guard) (fs : Bool) (fn : BitVec 4) (t a : Reg) (sp : BitVec 3)
@[simp] theorem bitC_mw : bitC (mw c maj g fs fn t a sp) = c := by
  simp only [bitC, mw, getLsbD_append]; simp
@[simp] theorem fMaj_mw : fMaj (mw c maj g fs fn t a sp) = maj := mw_major ..
@[simp] theorem fGuard_mw : fGuard (mw c maj g fs fn t a sp) = g := by
  simp only [fGuard, mw, getLsbD_append, extractLsb'_append_eq_of_le, extractLsb'_append_eq_right, Nat.reduceLeDiff, Nat.reduceSub]; simp
@[simp] theorem fFs_mw : fFs (mw c maj g fs fn t a sp) = fs := by
  simp only [fFs, mw, getLsbD_append]; simp
@[simp] theorem mFn_mw : mFn (mw c maj g fs fn t a sp) = fn := by
  simp only [mFn, mw, extractLsb'_append_eq_of_le, extractLsb'_append_eq_right, Nat.reduceLeDiff, Nat.reduceSub]
@[simp] theorem mT_mw : mT (mw c maj g fs fn t a sp) = t := by
  simp only [mT, mw, extractLsb'_append_eq_of_le, extractLsb'_append_eq_right, Nat.reduceLeDiff, Nat.reduceSub]
@[simp] theorem mA_mw : mA (mw c maj g fs fn t a sp) = a := by
  simp only [mA, mw, extractLsb'_append_eq_of_le, extractLsb'_append_eq_right, Nat.reduceLeDiff, Nat.reduceSub]
@[simp] theorem mSp_mw : mSp (mw c maj g fs fn t a sp) = sp := extractLsb'_append_eq_right
end

section
variable (c : Bool) (maj : BitVec 5) (g : Guard) (fs : Bool) (fn : BitVec 5) (d a : Reg) (x : BitVec 2)
@[simp] theorem bitC_ew : bitC (ew c maj g fs fn d a x) = c := by
  simp only [bitC, ew, getLsbD_append]; simp
@[simp] theorem fMaj_ew : fMaj (ew c maj g fs fn d a x) = maj := ew_major ..
@[simp] theorem fGuard_ew : fGuard (ew c maj g fs fn d a x) = g := by
  simp only [fGuard, ew, getLsbD_append, extractLsb'_append_eq_of_le, extractLsb'_append_eq_right, Nat.reduceLeDiff, Nat.reduceSub]; simp
@[simp] theorem fFs_ew : fFs (ew c maj g fs fn d a x) = fs := by
  simp only [fFs, ew, getLsbD_append]; simp
@[simp] theorem eFn_ew : eFn (ew c maj g fs fn d a x) = fn := by
  simp only [eFn, ew, extractLsb'_append_eq_of_le, extractLsb'_append_eq_right, Nat.reduceLeDiff, Nat.reduceSub]
@[simp] theorem eD_ew : eD (ew c maj g fs fn d a x) = d := by
  simp only [eD, ew, extractLsb'_append_eq_of_le, extractLsb'_append_eq_right, Nat.reduceLeDiff, Nat.reduceSub]
@[simp] theorem eA_ew : eA (ew c maj g fs fn d a x) = a := by
  simp only [eA, ew, extractLsb'_append_eq_of_le, extractLsb'_append_eq_right, Nat.reduceLeDiff, Nat.reduceSub]
@[simp] theorem eX_ew : eX (ew c maj g fs fn d a x) = x := extractLsb'_append_eq_right
end

end

/-! ## Predicate positions (R54) -/

@[simp] theorem predOf_append (x : BitVec 4) (p : BitVec 3) : predOf (x ++ p) = p := BitVec.extractLsb'_append_eq_right
@[simp] theorem predZ_append (p : BitVec 3) : predZ (0#4 ++ p) = true := by
  rw [predZ, BitVec.extractLsb'_append_eq_left]; rfl

end Sys2Proof
end

section
/-! SUPPORT. The parser reads each instruction back from its word, from which O51 and O50 follow. -/

namespace Sys2Proof

/-- The parser reads an instruction from its word, with its unused fields and the upper bits of its predicate positions zero. -/
def ParsesBack (i : Instr) : Prop := parseWord (encode i) = .ok { ins := i, fields := true, preds := true }

theorem bitVec2_cases (x : BitVec 2) : x = 0 ∨ x = 1 ∨ x = 2 ∨ x = 3 := by revert x; decide

theorem bitVec3_cases (x : BitVec 3) : x = 0 ∨ x = 1 ∨ x = 2 ∨ x = 3 ∨ x = 4 ∨ x = 5 ∨ x = 6 ∨ x = 7 := by revert x; decide

/-- The conditions of icmp and icmpu (R66). -/
theorem condition_cases {q : BitVec 3} (h : q.toNat ≤ 5) : q = 0 ∨ q = 1 ∨ q = 2 ∨ q = 3 ∨ q = 4 ∨ q = 5 := by revert q; decide

/-- The conditions of fcmp, with unordered (R66). -/
theorem fcondition_cases {q : BitVec 3} (h : q.toNat ≤ 6) : q = 0 ∨ q = 1 ∨ q = 2 ∨ q = 3 ∨ q = 4 ∨ q = 5 ∨ q = 6 := by revert q; decide

theorem parsesBack_of {i : Instr} {w : Word} (e : encode? i = some w)
    (h : parseWord w = .ok { ins := i, fields := true, preds := true }) : ParsesBack i := by
  rw [ParsesBack, encode, e]
  exact h

section
open BitVec (getLsbD_append extractLsb'_append_eq_of_le extractLsb'_append_eq_left extractLsb'_append_eq_right)

/-! ## Words whose minor code holds an operand -/

section
variable (c : Bool) (f : BitVec 2) (u sat : Bool) (d a : Reg) (r : BitVec 3)

/-- The control field B of a CVT word (R67): the rounding mode, SAT and three zeros. -/
def cvtControl (r : BitVec 3) (sat : Bool) : BitVec 7 := r ++ BitVec.ofBool sat ++ 0#3

@[simp] theorem cvtControl_mode : (cvtControl r sat).extractLsb' 4 3 = r :=
  (extractLsb'_append_eq_of_le (by decide)).trans extractLsb'_append_eq_left
@[simp] theorem cvtControl_sat : (cvtControl r sat)[3] = sat := by
  rw [← BitVec.getLsbD_eq_getElem]
  simp [cvtControl, getLsbD_append, -BitVec.getLsbD_eq_getElem, -Nat.reduceAdd]
@[simp] theorem cvtControl_zeros : (cvtControl r sat).extractLsb' 0 3 = 0#3 := extractLsb'_append_eq_right

theorem parsesBack_cvtF32ToNarrow : ParsesBack (.cvtF32ToNarrow c f d a r sat) := by
  refine parsesBack_of (w := rrr c 7 (0#3 ++ f) d a (cvtControl r sat)) rfl ?_
  obtain rfl | rfl | rfl | rfl := bitVec2_cases f <;> simp [parseWord, parseCvt, fieldsZero]
theorem parsesBack_cvtNarrowToF32 : ParsesBack (.cvtNarrowToF32 c f d a) := by
  refine parsesBack_of rfl ?_
  obtain rfl | rfl | rfl | rfl := bitVec2_cases f <;> simp [parseWord, parseCvt, fieldsZero]
theorem parsesBack_cvtF32ToInt : ParsesBack (.cvtF32ToInt c u d a r sat) := by
  refine parsesBack_of (w := rrr c 7 (4#4 ++ BitVec.ofBool u) d a (cvtControl r sat)) rfl ?_
  cases u <;> simp [parseWord, parseCvt, fieldsZero]
theorem parsesBack_cvtIntToF32 : ParsesBack (.cvtIntToF32 c u d a r) := by
  refine parsesBack_of (w := rrr c 7 (5#4 ++ BitVec.ofBool u) d a (cvtControl r false)) rfl ?_
  cases u <;> simp [parseWord, parseCvt, fieldsZero]
theorem parsesBack_cvtF16Bf16 : ParsesBack (.cvtF16Bf16 c u d a r sat) := by
  refine parsesBack_of (w := rrr c 7 (6#4 ++ BitVec.ofBool u) d a (cvtControl r sat)) rfl ?_
  cases u <;> simp [parseWord, parseCvt, fieldsZero]
theorem parsesBack_cvtF16ToFp8 : ParsesBack (.cvtF16ToFp8 c u d a r sat) := by
  refine parsesBack_of (w := rrr c 7 (7#4 ++ BitVec.ofBool u) d a (cvtControl r sat)) rfl ?_
  cases u <;> simp [parseWord, parseCvt, fieldsZero]
theorem parsesBack_frnd : ParsesBack (.frnd c d a r) :=
  parsesBack_of (w := rrr c 7 16 d a (cvtControl r false)) rfl (by simp [parseWord, parseCvt, fieldsZero])
theorem parsesBack_pack2F16 : ParsesBack (.pack2F16 c d a r sat) :=
  parsesBack_of (w := rrr c 7 17 d a (cvtControl r sat)) rfl (by simp [parseWord, parseCvt, fieldsZero])
theorem parsesBack_pack2Bf16 : ParsesBack (.pack2Bf16 c d a r sat) :=
  parsesBack_of (w := rrr c 7 18 d a (cvtControl r sat)) rfl (by simp [parseWord, parseCvt, fieldsZero])
end

section
variable (c : Bool) {q : BitVec 3} (p : BitVec 3) (d a b : Reg)

theorem parsesBack_icmp (h : q.toNat ≤ 5) : ParsesBack (.icmp c q p a b) := by
  refine parsesBack_of rfl ?_
  obtain rfl | rfl | rfl | rfl | rfl | rfl := condition_cases h <;> simp [parseWord, parseCmp, whole]
theorem parsesBack_icmpu (h : q.toNat ≤ 5) : ParsesBack (.icmpu c q p a b) := by
  refine parsesBack_of rfl ?_
  obtain rfl | rfl | rfl | rfl | rfl | rfl := condition_cases h <;> simp [parseWord, parseCmp, whole]
theorem parsesBack_fcmp (h : q.toNat ≤ 6) : ParsesBack (.fcmp c q p a b) := by
  refine parsesBack_of rfl ?_
  obtain rfl | rfl | rfl | rfl | rfl | rfl | rfl := fcondition_cases h <;> simp [parseWord, parseCmp, whole]
theorem parsesBack_sel : ParsesBack (.sel c p d a b) := by
  refine parsesBack_of rfl ?_
  obtain rfl | rfl | rfl | rfl | rfl | rfl | rfl | rfl := bitVec3_cases p <;> simp [parseWord, parseSel, whole]
end

/-- The words of ATOM with FN 0 to 10, by SP (R71). -/
theorem parseWord_atom {c : Bool} {g : Guard} {fs : Bool} {fn : BitVec 4} {t a : Reg} {sp : BitVec 3} {i : Instr} (h : fn.toNat ≤ 10)
    (hi : (sp, i) ∈ [(0, .atom c g fs fn t a), (1, .atoml c g fs fn t a), (2, .atomGang c g fs fn t a), (3, .atomMkt c g fs fn t a)]) :
    parseWord (mw c 15 g fs fn t a sp) = .ok { ins := i, fields := true, preds := true } := by
  have hp : parseWord (mw c 15 g fs fn t a sp) = parseAtom (mw c 15 g fs fn t a sp) := by simp [parseWord]
  rw [hp]
  simp only [parseAtom, mFn_mw]
  split
  iterate 5 · omega
  simp only [List.mem_cons, Prod.mk.injEq, List.not_mem_nil, or_false] at hi
  obtain ⟨rfl, rfl⟩ | ⟨rfl, rfl⟩ | ⟨rfl, rfl⟩ | ⟨rfl, rfl⟩ := hi <;> simp [whole]

/-! ## All words -/

/-- Every word is read back by the parser of its major; the bounds on minor codes are those of R66, R70 and R71. -/
theorem parsesBack {i : Instr} (hw : Machine.isWord i = true) (hm : i.minorOk = true) : ParsesBack i := by
  cases i
  -- MISC
  case nop | sget | sset | yield | brk | trap => exact parsesBack_of rfl (by simp [parseWord, parseMisc, fieldsZero])
  case fwait =>
    exact parsesBack_of rfl
      (by simp [parseWord, parseMisc, fieldsZero, extractLsb'_append_eq_left, extractLsb'_append_eq_right, -Nat.reduceAdd])
  -- IALU, IALUI, IMUL, LI
  case add | sub | and | or | xor | andn | shl | shr | sra | rotl | min | max | minu | maxu | abs | clz | popc | brev | bfe | bfx | bfi
      | prmb =>
    exact parsesBack_of rfl (by simp [parseWord, parseIalu, fieldsZero, whole])
  case addi | andi | ori | xori | shli | shri | srai =>
    exact parsesBack_of rfl
      (by simp [parseWord, parseIalui, fieldsZero, whole, extractLsb'_append_eq_left, extractLsb'_append_eq_right, -Nat.reduceAdd])
  case mul | mulhi | mulhiu | mad | divu | remu => exact parsesBack_of rfl (by simp [parseWord, parseImul, whole])
  case lil | lih | adpc => exact parsesBack_of rfl (by simp [parseWord, parseLi, whole])
  -- FP32 and FMA: the operation is in the low bits of FN, the rounding mode in the high ones
  case fadd | fsub | fmul | hadd2 | hmul2 | badd2 | bmul2 | fmin | fmax | fneg | fabs =>
    exact parsesBack_of rfl (by simp [parseWord, parseFp32, fieldsZero, whole, extractLsb'_append_eq_left, extractLsb'_append_eq_right,
      -Nat.reduceAdd, -BitVec.extractLsb'_toNat])
  case ffma | ffms | hfma2 | bfma2 | hdot2 =>
    exact parsesBack_of rfl (by simp [parseWord, parseFma, whole, extractLsb'_append_eq_left, extractLsb'_append_eq_right,
      -Nat.reduceAdd, -BitVec.extractLsb'_toNat])
  -- CVT
  case cvtF32ToNarrow => exact parsesBack_cvtF32ToNarrow ..
  case cvtNarrowToF32 => exact parsesBack_cvtNarrowToF32 ..
  case cvtF32ToInt => exact parsesBack_cvtF32ToInt ..
  case cvtIntToF32 => exact parsesBack_cvtIntToF32 ..
  case cvtF16Bf16 => exact parsesBack_cvtF16Bf16 ..
  case cvtF16ToFp8 => exact parsesBack_cvtF16ToFp8 ..
  case frnd => exact parsesBack_frnd ..
  case pack2F16 => exact parsesBack_pack2F16 ..
  case pack2Bf16 => exact parsesBack_pack2Bf16 ..
  -- XFN, CMP, SEL
  case exp2 | log2 | rcp | rsq | sqrt | sin | cos | tanh => exact parsesBack_of rfl (by simp [parseWord, parseXfn, fieldsZero])
  case icmp => exact parsesBack_icmp _ _ _ _ (of_decide_eq_true hm)
  case icmpu => exact parsesBack_icmpu _ _ _ _ (of_decide_eq_true hm)
  case fcmp => exact parsesBack_fcmp _ _ _ _ (of_decide_eq_true hm)
  case fclass => exact parsesBack_of rfl (by simp [parseWord, parseCmp, whole])
  case plop => exact parsesBack_of rfl (by simp [parseWord, parseCmp, whole, extractLsb'_append_eq_left, -Nat.reduceAdd])
  case sel => exact parsesBack_sel ..
  case mov | movp | pmov => exact parsesBack_of rfl (by simp [parseWord, parseSel, fieldsZero])
  -- BRANCH, COLL
  case br | call | brx | callx | ret | exit | meet | unmeet =>
    exact parsesBack_of rfl
      (by simp [parseWord, parseBranch, fieldsZero, whole, extractLsb'_append_eq_left, extractLsb'_append_eq_right, -Nat.reduceAdd])
  case voteAnd | voteOr | voteSame | ballot | shflLane | shflRot | shflOff | shflSwap | gredAdd | gredMin | gredMax | gredArgmin
      | gredArgmax | gscan | matchEq | elect | regq | prio =>
    exact parsesBack_of rfl (by simp [parseWord, parseColl, fieldsZero, whole])
  -- LD, ST, ATOM, MARKET: the mnemonic follows from SP
  case ld | ldl | ldlGang | ldm | ldc =>
    exact parsesBack_of rfl (by simp [parseWord, parseLd, whole, Nat.not_lt.mpr (of_decide_eq_true hm)])
  case st | stl | stlGang | stm =>
    exact parsesBack_of rfl (by simp [parseWord, parseSt, whole, Nat.not_lt.mpr (of_decide_eq_true hm)])
  case atom | atoml | atomGang | atomMkt =>
    exact parsesBack_of rfl (parseWord_atom (of_decide_eq_true hm) (by simp))
  case cas | casB64 => exact parsesBack_of rfl (by simp [parseWord, parseAtom, whole])
  case madd | mamax | mred | mscale => exact parsesBack_of rfl (by simp [parseWord, parseMarket, fieldsZero])
  -- SYNC, TRY, QUEUE
  case bar | gbar | fenceAcq | fenceRel | fenceAr | feset | feclr | fepoll =>
    exact parsesBack_of rfl (by simp [parseWord, parseSync, fieldsZero, extractLsb'_append_eq_left, extractLsb'_append_eq_right,
      getLsbD_append, -BitVec.getLsbD_eq_getElem, -Nat.reduceAdd])
  case tryOpen | commit | tabort | tstat =>
    exact parsesBack_of rfl (by simp [parseWord, parseTry, fieldsZero, extractLsb'_append_eq_left, extractLsb'_append_eq_right,
      getLsbD_append, -BitVec.getLsbD_eq_getElem, -Nat.reduceAdd])
  case qbind | qstat | qflush | launch | gsignal =>
    exact parsesBack_of rfl
      (by simp [parseWord, parseQueue, fieldsZero, getLsbD_append, -BitVec.getLsbD_eq_getElem, -Nat.reduceAdd])
  -- MMA, FEAT, TKT, PAGE, SYS
  case mma | mdrainL | mdrainR | mzero => exact parsesBack_of rfl (by simp [parseWord, parseMma, fieldsZero, whole])
  case tap | fget | frd | fwr | frel | fdec => exact parsesBack_of rfl (by simp [parseWord, parseFeat, fieldsZero])
  case tkrd | tkwr | tkappend | tktrunc | tkret | tkfork | kvmap | rot =>
    exact parsesBack_of rfl (by simp [parseWord, parseTkt, fieldsZero])
  case pres | prel | pdisc | pflush | pmig =>
    exact parsesBack_of rfl
      (by simp [parseWord, parsePage, fieldsZero, getLsbD_append, -BitVec.getLsbD_eq_getElem, -Nat.reduceAdd])
  case rfe | killW | killG | killL | tlbinv | tlbinvOwn | tlbinvAll | icinv | icinvAll | cntsel | cntselRd | cntselSmp | cntselRot =>
    exact parsesBack_of rfl (by simp [parseWord, parseSys, fieldsZero, whole])
  -- QUANT, ALU64, DRAW
  case qblk | dqblk | qfp8 => exact parsesBack_of rfl (by simp [parseWord, parseQuant, fieldsZero])
  case add64 | sub64 | shl64 | shr64 | madw | sext64 =>
    exact parsesBack_of rfl (by simp [parseWord, parseAlu64, fieldsZero, whole])
  case dsel | rng | rngk => exact parsesBack_of rfl (by simp [parseWord, parseDraw, fieldsZero])
  -- the steps of the machine and the commands are no words
  all_goals exact Bool.noConfusion hw

end

/-- A word whose parse passes every check of R75 decodes to what it parses to. -/
theorem decodeWord_of_parse {w : Word} {i : Instr} (h : parseWord w = .ok { ins := i, fields := true, preds := true })
    (wf : i.wellFormed = true) : decodeWord w = .ok i := by
  simp only [Instr.wellFormed, Bool.and_eq_true] at wf
  obtain ⟨⟨⟨hm, hf⟩, hr⟩, hs⟩ := wf
  simp [decodeWord, h, hm, hf, hr, hs]

/-- A well-formed word decodes to the instruction that it encodes. -/
theorem decodeWord_encode {i : Instr} (hw : Machine.isWord i = true) (wf : i.wellFormed = true) : decodeWord (encode i) = .ok i := by
  refine decodeWord_of_parse (parsesBack hw ?_) wf
  simp only [Instr.wellFormed, Bool.and_eq_true] at wf
  exact wf.1.1.1

/-- Read as a row of the opcode table, the number of a word decodes as the word. -/
theorem decodeTableWord_encode {i : Instr} (hw : Machine.isWord i = true) (wf : i.wellFormed = true) :
    decodeTableWord 32 (encode i).toNat = some i := by
  have h : BitVec.ofNat 32 (encode i).toNat = encode i := BitVec.eq_of_toNat_eq (by simp)
  rw [decodeTableWord, if_pos ⟨rfl, (encode i).isLt⟩, h, decodeWord_encode hw wf]

/-- Settles O51: the parser reads every word back, and every check of R75 passes. -/
theorem decodeAndEncodeAgree : Obligations.DecodeAndEncodeAgree := fun _ hw wf => decodeWord_encode hw wf

/-- Each word that the spec writes out is the one that the encoder gives its instruction. -/
theorem specWords_encode : ∀ p ∈ Machine.specWords, Machine.isWord p.2 = true ∧ p.2.wellFormed = true ∧ p.1 = (encode p.2).toNat := by
  decide +kernel

/-- Settles O50: the words are encodings of well-formed instructions, which decode to themselves. -/
theorem specWordsDecode : Obligations.SpecWordsDecode := fun p hp => by
  obtain ⟨hw, wf, e⟩ := specWords_encode p hp
  rw [e, decodeTableWord_encode hw wf]

end Sys2Proof
end

section
/-! SUPPORT. Loops over the threads of one warp, a group held at its word, and flags passed, from which O14 follows. -/

namespace Sys2Proof.Machine

variable {k : Bool} {s0 : State}

/-! ## Threads changed in a loop -/

/-- Some threads of one warp have changed, each by its function, and no other thread or warp. -/
structure ThreadsChanged (a b : State) (wi : Nat) (ls : List Nat) (f : Nat → Thread → Thread) : Prop where
  others : ∀ j, j ≠ wi → b.warp j = a.warp j
  warp : b.warp wi = { a.warp wi with threads := (b.warp wi).threads }
  size : (b.warp wi).threads.length = (a.warp wi).threads.length
  threads : ∀ l, b.thread wi l = if l ∈ ls ∧ l < (a.warp wi).threads.length then f l (a.thread wi l) else a.thread wi l

theorem ThreadsChanged.nil (a : State) (wi : Nat) (f : Nat → Thread → Thread) : ThreadsChanged a a wi [] f :=
  ⟨fun _ _ => rfl, rfl, rfl, fun l => by simp⟩

/-- A function that changes a thread as it stands already changes nothing. -/
theorem ThreadsChanged.refl {a : State} {wi : Nat} {ls : List Nat} {f : Nat → Thread → Thread}
    (h : ∀ l ∈ ls, f l (a.thread wi l) = a.thread wi l) : ThreadsChanged a a wi ls f := by
  refine ⟨fun _ _ => rfl, rfl, rfl, fun l => ?_⟩
  split
  · next hl => rw [h l hl.1]
  · rfl

theorem ThreadsChanged.cons {a b c : State} {wi x : Nat} {xs : List Nat} {f : Nat → Thread → Thread}
    (idem : ∀ l t, f l (f l t) = f l t) (h : ThreadsChanged a b wi [x] f) (g : ThreadsChanged b c wi xs f) :
    ThreadsChanged a c wi (x :: xs) f := by
  refine ⟨fun j hj => (g.others j hj).trans (h.others j hj), by rw [g.warp, h.warp], g.size.trans h.size, fun l => ?_⟩
  rw [g.threads, h.size, h.threads]
  by_cases hx : l = x
  · subst hx
    by_cases hm : l ∈ xs <;> by_cases hl : l < (a.warp wi).threads.length <;> simp [hm, hl, idem]
  · simp [hx]

theorem Sim.modThread_changed (m : Sim k s0) (wi l : Nat) (f : Nat → Thread → Thread) :
    ThreadsChanged m.now (m.modThread wi l (f l)).now wi [l] f := by
  refine ⟨fun j hj => ?_, ?_, ?_, fun j => ?_⟩
  · rw [Sim.modThread_warp, if_neg (Ne.symm hj)]
  · rw [Sim.modThread_warp, if_pos rfl]; rfl
  · rw [Sim.modThread_warp, if_pos rfl, Warp.mod_length]
  · rw [Sim.modThread_thread]
    by_cases e : l = j
    · subst e; simp
    · rw [if_neg (fun h => e h.1), if_neg (fun h => e (List.mem_singleton.mp h.1).symm)]

/-- A loop whose body, under an invariant P that it keeps, changes the thread of its lane by a function that a second
application does not move on. -/
theorem Sim.each_changed {P : State → Prop} {wi : Nat} {f : Nat → Thread → Thread} {g : Sim k s0 → Nat → Sim k s0} {ls : List Nat}
    (idem : ∀ l t, f l (f l t) = f l t)
    (hg : ∀ m : Sim k s0, ∀ l ∈ ls, P m.now → ThreadsChanged m.now (g m l).now wi [l] f ∧ P (g m l).now)
    (m : Sim k s0) (hp : P m.now) : ThreadsChanged m.now (m.each ls g).now wi ls f ∧ P (m.each ls g).now := by
  induction ls generalizing m with
  | nil => exact ⟨.nil .., hp⟩
  | cons x xs ih =>
    obtain ⟨h, hq⟩ := hg m x (by simp) hp
    obtain ⟨t, hr⟩ := ih (fun m l hl => hg m l (by simp [hl])) (g m x) hq
    exact ⟨.cons idem h t, hr⟩

/-! ## A group held, and flags passed -/

/-- A group held at its word stands as its chain found it. -/
theorem Sim.stayAll_spec (m : Sim k s0) :
    ThreadsChanged m.now m.stayAll.now m.now.cur.warp m.now.cur.lanes (fun l _ => m.now.cur.thread l) ∧
    m.stayAll.now = { m.now with warps := m.stayAll.now.warps, cur := { m.now.cur with stay := m.now.cur.lanes } } := by
  obtain ⟨h, hc⟩ := Sim.each_changed (P := fun u => u = { m.now with warps := u.warps }) (f := fun l _ => m.now.cur.thread l)
    (wi := m.now.cur.warp) (ls := m.now.cur.lanes) (fun _ _ => rfl)
    (fun n l _ (hn : n.now = { m.now with warps := n.now.warps }) =>
      ⟨n.modThread_changed m.now.cur.warp l _, (n.modThread_alike ..).rest.trans (by rw [hn])⟩)
    m rfl
  refine ⟨⟨h.others, h.warp, h.size, h.threads⟩, ?_⟩
  unfold Sim.stayAll Sim.modCur
  rw [Sim.act_now, hc]
  rfl

/-- The latest signal of the flags that a mask names (R212). -/
def Warp.signalled (w : Warp) (mask : BitVec 12) : Nat :=
  maxOf (((List.range 12).filter (fun i => mask.getLsbD i)).map (fun i => w.signals.getD i 0))

theorem Warp.le_signalled (w : Warp) {mask : BitVec 12} {i : Nat} (hi : i < 12) (hm : mask.getLsbD i = true) :
    w.signals.getD i 0 ≤ w.signalled mask :=
  le_maxOf (List.mem_map.mpr ⟨i, List.mem_filter.mpr ⟨List.mem_range.mpr hi, hm⟩, rfl⟩)

theorem Sim.raiseFresh_changed (m : Sim k s0) (wi l n : Nat) :
    ThreadsChanged m.now (m.raiseFresh wi l n).now wi [l] (fun _ t => { t with fresh := max t.fresh n }) ∧
    Alike m.now (m.raiseFresh wi l n).now := by
  unfold Sim.raiseFresh
  cases h : decide ((m.now.thread wi l).fresh < n) with
  | false =>
    refine ⟨.refl fun j hj => ?_, .refl _⟩
    rw [List.mem_singleton.mp hj, Nat.max_eq_left (Nat.not_lt.mp (of_decide_eq_false h))]
  | true =>
    refine ⟨?_, m.modThread_alike ..⟩
    have c := m.modThread_changed wi l (fun _ t => { t with fresh := n })
    refine ⟨c.others, c.warp, c.size, fun j => (c.threads j).trans ?_⟩
    split
    · next hj => rw [List.mem_singleton.mp hj.1, Nat.max_eq_right (Nat.le_of_lt (of_decide_eq_true h))]
    · rfl

/-- Threads that pass a flag mask have acquired up to the latest signal of its flags (R212). -/
theorem Sim.passFlags_spec (m : Sim k s0) (wi : Nat) (lanes : List Nat) (mask : BitVec 12) :
    ThreadsChanged m.now (m.passFlags wi lanes mask).now wi lanes
      (fun _ t => { t with fresh := max t.fresh ((m.now.warp wi).signalled mask) }) ∧
    Alike m.now (m.passFlags wi lanes mask).now :=
  Sim.each_changed (P := Alike m.now) (fun _ t => by simp)
    (fun n l _ hn => ⟨(n.raiseFresh_changed ..).1, hn.trans (n.raiseFresh_changed ..).2⟩) m (.refl _)

/-! ## fwait and yield -/

/-- fwait names no queue register, so it pops none. -/
theorem popsOf_fwait (s : State) (c : Bool) (mask : BitVec 12) : popsOf s (.fwait c mask) = begin_ false s := by
  have h : ∀ p, readsWith (.fwait c mask) p = [] := fun p => by cases p <;> rfl
  rw [popsOf, State.popped, queueReads, h]
  rfl

theorem afterPops_fwait (s : State) (c : Bool) (mask : BitVec 12) : s.afterPops (.fwait c mask) = s :=
  congrArg Sim.now (popsOf_fwait s c mask)

theorem Warp.waits_iff {w : Warp} {mask : BitVec 12} :
    w.waits mask = true ↔ ∃ i, i < 12 ∧ mask.getLsbD i = true ∧ w.flags.getD i 0 ≠ 0 := by
  simp [Warp.waits]

/-- A mask none of whose flags is counted passes where every command has been received. -/
theorem Warp.maskHolds_eq_false {w : Warp} {mask : BitVec 12} (hu : w.unreceived = 0)
    (hf : ∀ i, i < 12 → mask.getLsbD i = true → w.flags.getD i 0 = 0) : w.maskHolds mask = false := by
  have hw : w.waits mask = false := by
    rw [Bool.eq_false_iff]
    intro h
    obtain ⟨i, hi, hm, hn⟩ := Warp.waits_iff.mp h
    exact hn (hf i hi hm)
  simp [Warp.maskHolds, hw, hu]

/-- A mask with a counted flag holds. -/
theorem Warp.maskHolds_of_flag {w : Warp} {mask : BitVec 12} {i : Nat} (hi : i < 12) (hm : mask.getLsbD i = true)
    (hf : w.flags.getD i 0 ≠ 0) : w.maskHolds mask = true := by
  have hn : mask ≠ 0#12 := by
    rintro rfl
    simp at hm
  simp [Warp.maskHolds, hn, Warp.waits_iff.mpr ⟨i, hi, hm, hf⟩]

/-- fwait issued with nothing in its way: it holds its group at the head of its chain while its mask holds, and else passes. -/
theorem exec_fwait_issues {s : State} {c : Bool} {mask : BitVec 12} (h : s.issues (.fwait c mask) = true) :
    exec (.fwait c mask) s = ran (if s.cur.pos == s.cur.chain && (s.warp s.cur.warp).maskHolds mask then (begin_ false s).stayAll
      else (begin_ false s).passFlags s.cur.warp (s.performers (.fwait c mask)) mask) := by
  rw [exec_fwait, execFwait, issueWord_issues h]
  exact congrArg (fun m : Sim false s => ran (if m.now.cur.pos == m.now.cur.chain && (m.now.warp m.now.cur.warp).maskHolds mask then
    m.stayAll else m.passFlags m.now.cur.warp (s.performers (.fwait c mask)) mask)) (popsOf_fwait s c mask)

theorem fwait_passes {s : State} {c : Bool} {mask : BitVec 12} (h : s.issues (.fwait c mask) = true)
    (hu : (s.warp s.cur.warp).unreceived = 0)
    (hf : ∀ i, i < 12 → mask.getLsbD i = true → (s.warp s.cur.warp).flags.getD i 0 = 0) :
    ∃ t, exec (.fwait c mask) s = .next t ∧ EachThread s t (.fwait c mask) (fun l th => { th with fresh := (t.thread s.cur.warp l).fresh }) ∧
      ∀ l i, l ∈ s.performers (.fwait c mask) → l < (s.warp s.cur.warp).threads.length → i < 12 → mask.getLsbD i = true →
        (s.warp s.cur.warp).signals.getD i 0 ≤ (t.thread s.cur.warp l).fresh := by
  obtain ⟨d, al⟩ : ThreadsChanged s _ s.cur.warp (s.performers (.fwait c mask))
      (fun _ t => { t with fresh := max t.fresh ((s.warp s.cur.warp).signalled mask) }) ∧ Alike s _ :=
    (begin_ false s).passFlags_spec s.cur.warp (s.performers (.fwait c mask)) mask
  have e := exec_fwait_issues h
  rw [Warp.maskHolds_eq_false hu hf, Bool.and_false, if_neg Bool.false_ne_true] at e
  refine ⟨_, e, ⟨al.rest, d.others, ?_, d.size, fun l => ?_⟩, fun l i hl hs hi hm => ?_⟩
  · rw [afterPops_fwait]; exact d.warp
  · rw [afterPops_fwait, d.threads l]
    split <;> rfl
  · rw [d.threads l, if_pos ⟨hl, hs⟩]
    exact Nat.le_trans (Warp.le_signalled _ hi hm) (Nat.le_max_right ..)

theorem fwait_holds {s : State} {c : Bool} {mask : BitVec 12} {i : Nat} (h : s.issues (.fwait c mask) = true)
    (hp : s.cur.pos = s.cur.chain) (hi : i < 12) (hm : mask.getLsbD i = true) (hf : (s.warp s.cur.warp).flags.getD i 0 ≠ 0) :
    ∃ t, exec (.fwait c mask) s = .next t ∧ t.cur = { s.cur with stay := s.cur.lanes } ∧
      ∀ l, t.thread s.cur.warp l = if l ∈ s.cur.lanes ∧ l < (s.warp s.cur.warp).threads.length then s.cur.thread l
        else s.thread s.cur.warp l := by
  obtain ⟨d, r⟩ := (begin_ false s).stayAll_spec
  have e := exec_fwait_issues h
  rw [hp, beq_self_eq_true, Warp.maskHolds_of_flag hi hm hf, Bool.and_self, if_pos rfl] at e
  exact ⟨_, e, by rw [r]; rfl, d.threads⟩

theorem yield_sets {s : State} {c : Bool} (h : s.issues (.yield c) = true) :
    ∃ t, exec (.yield c) s = .next t ∧ EachThread s t (.yield c) (fun _ th => { th with lastIssue := s.ac + 1 }) := by
  rw [exec_yield]
  refine eachThread_body h _ (fun m l => m.modThread m.now.cur.warp l (fun t => { t with lastIssue := (popsOf s (.yield c)).now.ac + 1 })) _
    rfl (fun m l hm => ?_) (.inr fun _ _ => rfl)
  rw [hm.cur, (popsOf_alike s _).ac]

/-- Settles O14: nop is the step that does nothing, fwait passes or holds by its mask, and yield changes one field. -/
theorem nopYieldAndFwait : Obligations.NopYieldAndFwait :=
  ⟨fun _ _ => rfl, fun _ _ _ h hu hf => fwait_passes h hu hf, fun _ _ _ _ h hp hi hm hf => fwait_holds h hp hi hm hf,
    fun _ _ h => yield_sets h⟩

end Sys2Proof.Machine
end

section
/-! SUPPORT. The branches of the frame of issue, one lemma each, from which O44 follows. -/

namespace Sys2Proof.Machine

variable {k : Bool} {s0 : State}

/-! ## The branches of the frame -/

/-- A word all of whose performing threads are in regions that it aborts, or that no thread performs. -/
theorem issueWord_stopped {i : Instr} {s : State} (h : ∀ l ∈ s.performers i, s.regionStops i l = true)
    (body : List Nat → Src → Sim false s → Sim false s) :
    issueWord i s body = ran (((begin_ false s).each (s.performers i) (fun m l => m.abortRegion s.cur.warp l 8)).when (counts i)
      (fun m => m.launchOp i .fixed [] 1)) := by
  have hb : (s.performers i).filter (s.regionStops i) = s.performers i := List.filter_eq_self.mpr h
  have hl : (s.performers i).filter (fun l => !(s.performers i).contains l) = [] := by
    rw [List.filter_eq_nil_iff]
    intro l hl
    simp [hl]
  show (if ((s.performers i).filter (fun l => !((s.performers i).filter (s.regionStops i)).contains l)).isEmpty then
    ran (((begin_ false s).each ((s.performers i).filter (s.regionStops i)) _).when _ _) else _) = _
  rw [hb, hl]
  rfl

/-- The frame past the regions: what a word does where none of its performing threads is in a region that it aborts. -/
def issueLanes (i : Instr) (s : State) (body : List Nat → Src → Sim false s → Sim false s) : Out :=
  let blocked (m : Sim false s) (p : Nat) := m.each (s.performers i) (fun m l => m.writePred l p true 4)
  let pops (m : Sim false s) := m.each (s.popped i) (fun m x => m.popFor s.cur.warp (x - 112) (s.performers i))
  let excess := (s.pushed i).find? (fun x => s.pushFaults s.cur.warp (x - 112))
  match qnbOf s.cur.pfx with
  | some p =>
    if s.queueHeld i || excess.isSome then ran (blocked (begin_ false s) p)
    else ran (body (s.performers i) s.source (pops ((begin_ false s).each (s.performers i) (fun m l => m.writePred l p false 4))))
  | none =>
    if s.queueHeld i then ran (begin_ false s).stayAll
    else match excess with
    | some x => ran ((begin_ false s).each (s.performers i) (fun m l => m.trapWord l 0x07 (BitVec.ofNat 32 (x - 112))))
    | none => ran (body (s.performers i) s.source (pops (begin_ false s)))

theorem issueWord_lanes {i : Instr} {s : State} (hn : s.performers i ≠ []) (h : ∀ l ∈ s.performers i, s.regionStops i l = false)
    (body : List Nat → Src → Sim false s → Sim false s) : issueWord i s body = issueLanes i s body := by
  have hb : (s.performing (shapeOf i).guard).filter (fun l =>
      (s.cur.thread l).region.isSome &&
        (regionIllegal i s.cur.pfx || !(queueReads i s.cur.pfx).isEmpty || !(queueWrites i).isEmpty)) = [] := by
    rw [List.filter_eq_nil_iff]
    intro l hl
    exact Bool.eq_false_iff.mp (h l hl)
  have hl : (s.performing (shapeOf i).guard).filter (fun _ => true) = s.performing (shapeOf i).guard := by simp
  have he : (s.performing (shapeOf i).guard).isEmpty = false := by
    cases e : s.performing (shapeOf i).guard with
    | nil => exact absurd e hn
    | cons x xs => rfl
  unfold issueWord
  simp only [hb, List.contains_nil, Bool.not_false, hl, he, Bool.false_eq_true, if_false, Sim.each_nil]
  rfl

variable {i : Instr} {s : State} {body : List Nat → Src → Sim false s → Sim false s}

theorem issueLanes_held (hq : qnbOf s.cur.pfx = none) (hh : s.queueHeld i = true) :
    issueLanes i s body = ran (begin_ false s).stayAll := by
  simp only [issueLanes, hq, hh, if_true]

theorem issueLanes_excess {q : Nat} (hq : qnbOf s.cur.pfx = none) (hh : s.queueHeld i = false)
    (he : (s.pushed i).find? (fun x => s.pushFaults s.cur.warp (x - 112)) = some q) :
    issueLanes i s body = ran ((begin_ false s).each (s.performers i) (fun m l => m.trapWord l 0x07 (BitVec.ofNat 32 (q - 112)))) := by
  simp only [issueLanes, hq, hh, he, Bool.false_eq_true, if_false]

theorem issueLanes_blocked {p : Nat} (hq : qnbOf s.cur.pfx = some p)
    (hb : s.queueHeld i = true ∨ (s.pushed i).any (fun x => s.pushFaults s.cur.warp (x - 112)) = true) :
    issueLanes i s body = ran ((begin_ false s).each (s.performers i) (fun m l => m.writePred l p true 4)) := by
  simp only [issueLanes, hq]
  rw [List.isSome_find?, if_pos (Bool.or_eq_true _ _ ▸ hb)]

theorem issueLanes_clear {p : Nat} (hq : qnbOf s.cur.pfx = some p) (hh : s.queueHeld i = false)
    (he : (s.pushed i).any (fun x => s.pushFaults s.cur.warp (x - 112)) = false) :
    issueLanes i s body = ran (body (s.performers i) s.source
      (((begin_ false s).each (s.performers i) (fun m l => m.writePred l p false 4)).each (s.popped i)
        (fun m x => m.popFor s.cur.warp (x - 112) (s.performers i)))) := by
  simp only [issueLanes, hq]
  rw [List.isSome_find?, hh, he, Bool.or_self, if_neg Bool.false_ne_true]

/-! ## Words that pass, and words that abort -/

/-- Two functions that agree on the threads as they stand change them alike. -/
theorem ThreadsChanged.congr {a b : State} {wi : Nat} {ls : List Nat} {f g : Nat → Thread → Thread} (h : ThreadsChanged a b wi ls f)
    (e : ∀ l ∈ ls, f l (a.thread wi l) = g l (a.thread wi l)) : ThreadsChanged a b wi ls g := by
  refine ⟨h.others, h.warp, h.size, fun l => (h.threads l).trans ?_⟩
  split
  · next hl => exact e l hl.1
  · rfl

theorem ThreadsChanged.thread_eq {a b : State} {wi : Nat} {ls : List Nat} {f : Nat → Thread → Thread} (d : ThreadsChanged a b wi ls f)
    {l : Nat} (hl : l < (a.warp wi).threads.length) : b.thread wi l = if l ∈ ls then f l (a.thread wi l) else a.thread wi l := by
  rw [d.threads l]
  simp [hl]

/-- A thread once its region r aborts with ILLEGAL. -/
def Thread.illegalIn (r : Region) (ac : Nat) (t : Thread) : Thread :=
  { t with region := some { r with reads := [], buffer := [], places := [] }, order := none
           aborting := some { code := 8, user := 0, addr := 0, decided := ac }, hold := .rollback (ac + 8) }

/-- A thread whose region aborts with ILLEGAL: one in no region, or whose region aborts already, stands. -/
def Thread.illegal (ac : Nat) (t : Thread) : Thread :=
  match t.region, t.aborting with
  | some r, none => t.illegalIn r ac
  | _, _ => t

theorem Thread.illegal_of_aborting {t : Thread} {x : Abort} (h : t.aborting = some x) (ac : Nat) : t.illegal ac = t := by
  unfold Thread.illegal
  rw [h]
  split
  · next h => cases h
  · rfl

theorem Thread.illegal_of_region {t : Thread} (hr : t.region.isSome = true) (ha : t.aborting = none) (ac : Nat) :
    t.illegal ac =
      { t with region := t.region.map (fun r => { r with reads := [], buffer := [], places := [] }), order := none
               aborting := some { code := 8, user := 0, addr := 0, decided := ac }, hold := .rollback (ac + 8) } := by
  obtain ⟨r, hr⟩ := Option.isSome_iff_exists.mp hr
  simp [Thread.illegal, Thread.illegalIn, hr, ha]

theorem Thread.illegal_illegal (ac : Nat) (t : Thread) : (t.illegal ac).illegal ac = t.illegal ac := by
  cases ha : t.aborting with
  | some x => rw [Thread.illegal_of_aborting ha, Thread.illegal_of_aborting ha]
  | none =>
    cases hr : t.region with
    | none => simp [Thread.illegal, hr]
    | some r =>
      rw [Thread.illegal_of_region (by simp [hr]) ha]
      exact Thread.illegal_of_aborting rfl ac

/-- Only warps and what the schedulers count differ. -/
def SchedsCount (s t : State) : Prop := t = { s with warps := t.warps, scheds := t.scheds }

theorem Sim.abortRegion_changed (m : Sim k s0) (wi l : Nat) :
    ThreadsChanged m.now (m.abortRegion wi l 8).now wi [l] (fun _ => Thread.illegal m.now.ac) ∧
    SchedsCount m.now (m.abortRegion wi l 8).now := by
  unfold Sim.abortRegion
  dsimp only
  split
  · next r hr ha =>
    have c := (m.count (m.now.schedOf wi) 0x007 (m.now.ownerOf wi) 1).modThread_changed wi l (fun _ => Thread.illegalIn r m.now.ac)
    have d : ThreadsChanged m.now _ wi [l] (fun _ => Thread.illegalIn r m.now.ac) := ⟨c.others, c.warp, c.size, c.threads⟩
    refine ⟨d.congr fun j hj => ?_, rfl⟩
    rw [List.mem_singleton.mp hj, Thread.illegal, hr, ha]
  · next h =>
    refine ⟨.refl fun j hj => ?_, rfl⟩
    rw [List.mem_singleton.mp hj, Thread.illegal]
    split
    · next r hr ha => exact absurd ha (h r hr)
    · rfl

theorem Sim.abortRegions_changed (m : Sim k s0) (wi : Nat) (ls : List Nat) :
    ThreadsChanged m.now (m.each ls (fun m l => m.abortRegion wi l 8)).now wi ls (fun _ => Thread.illegal m.now.ac) ∧
    SchedsCount m.now (m.each ls (fun m l => m.abortRegion wi l 8)).now := by
  refine Sim.each_changed (P := SchedsCount m.now) (fun _ t => t.illegal_illegal _) (fun n l _ hn => ?_) m rfl
  obtain ⟨h, c⟩ := n.abortRegion_changed wi l
  have hac : n.now.ac = m.now.ac := by rw [hn]
  refine ⟨hac ▸ h, ?_⟩
  unfold SchedsCount at hn c ⊢
  rw [c, hn]

/-- What a word that no thread performs leaves behind, after a loop over threads of its warp. -/
theorem passedOver_when {s : State} {m : Sim false s} {ls : List Nat} {f : Nat → Thread → Thread}
    (d : ThreadsChanged s m.now s.cur.warp ls f) (r : SchedsCount s m.now) (i : Instr) :
    PassedOver s (m.when (counts i) (fun m => m.launchOp i .fixed [] 1)).now i (fun l t => if l ∈ ls then f l t else t) ∧
    (m.when (counts i) (fun m => m.launchOp i .fixed [] 1)).now.scheds = m.now.scheds := by
  cases hc : counts i with
  | false => exact ⟨⟨by rw [hc]; exact r, d.others, by rw [hc]; exact d.warp, fun _ => d.thread_eq⟩, rfl⟩
  | true =>
    have hf : m.now.flagFor i = s.flagFor i := by rw [r]; rfl
    have ho : m.now.flight i .fixed [] 1 = s.flight i .fixed [] 1 := by rw [r]; rfl
    have hn := m.launchOp_now i .fixed [] 1 []
    rw [Sim.when_true]
    generalize (m.launchOp i .fixed [] 1).now = t at hn ⊢
    rw [hf, ho] at hn
    have hw : ∀ j, t.warp j = if j = s.cur.warp then { m.now.warp j with flags := counted (m.now.warp j).flags (s.flagFor i) }
        else m.now.warp j := fun j => by
      rw [m.now.countedWarps_warp t (s.flagFor i) (by rw [hn]), r]
    refine ⟨⟨?_, fun j hj => ?_, ?_, fun l hl => ?_⟩, by rw [hn]⟩
    · rw [hc, hn, r]; rfl
    · rw [hw, if_neg hj, d.others j hj]
    · rw [hc, if_pos rfl, hw, if_pos rfl, d.warp]
    · rw [State.thread, hw, if_pos rfl]
      exact d.thread_eq hl

theorem exec_framed {i : Instr} (h : framed i) (s : State) :
    ∃ body : List Nat → Src → Sim false s → Sim false s, exec i s = issueWord i s body := by
  obtain ⟨hw, hn, hm⟩ := h
  rcases exec_word i hw s with (⟨c, e⟩ | ⟨c, g, fs, m, a, e⟩) | hb
  · exact absurd e (hn c)
  · exact absurd e (hm c g fs m a)
  · exact hb

/-- A word that no thread performs passes (R58). -/
theorem exec_passes {i : Instr} {s : State} (h : framed i) (hp : s.performers i = []) :
    (counts i = false → exec i s = .next s) ∧
    (counts i = true → ∃ t, exec i s = .next t ∧ PassedOver s t i (fun _ u => u) ∧ t.scheds = s.scheds) := by
  obtain ⟨body, e⟩ := exec_framed h s
  rw [issueWord_stopped (by simp [hp]), hp, Sim.each_nil] at e
  refine ⟨fun hc => by rw [e, hc]; rfl, fun _ => ⟨_, e, ?_⟩⟩
  have p := passedOver_when (ThreadsChanged.nil s s.cur.warp (fun _ t => t)) (m := begin_ false s) rfl i
  simpa using p

/-- A word illegal in the regions of all its threads aborts them, and does nothing else (R252). -/
theorem exec_aborts {i : Instr} {s : State} (h : framed i)
    (hs : ∀ l ∈ s.performers i, s.regionStops i l = true ∧ (s.thread s.cur.warp l).region.isSome = true ∧
      (s.thread s.cur.warp l).aborting = none) :
    ∃ t, exec i s = .next t ∧ PassedOver s t i (fun l u => if l ∈ s.performers i then
      { u with
        region := u.region.map (fun r => { r with reads := [], buffer := [], places := [] }), order := none
        aborting := some { code := 8, user := 0, addr := 0, decided := s.ac }, hold := .rollback (s.ac + 8) } else u) := by
  obtain ⟨body, e⟩ := exec_framed h s
  rw [issueWord_stopped (fun l hl => (hs l hl).1)] at e
  obtain ⟨d, c⟩ := (begin_ false s).abortRegions_changed s.cur.warp (s.performers i)
  refine ⟨_, e, (passedOver_when (ThreadsChanged.congr (a := s) d fun l hl => ?_) c i).1⟩
  obtain ⟨_, hr, ha⟩ := hs l hl
  exact Thread.illegal_of_region hr ha s.ac

/-! ## Queue accesses that are held, and pushes past the quota -/

theorem ThreadsChanged.threadsOnly {s t : State} {ls : List Nat} {f : Nat → Thread → Thread}
    (d : ThreadsChanged s t s.cur.warp ls f) (r : t = { s with warps := t.warps, cur := t.cur }) : ThreadsOnly s t :=
  ⟨r, d.others, d.warp⟩

/-- A word whose queue access is held leaves its group where its chain found it (R264). -/
theorem issueLanes_stays {i : Instr} {s : State} {body : List Nat → Src → Sim false s → Sim false s}
    (hq : qnbOf s.cur.pfx = none) (hh : s.queueHeld i = true) :
    ∃ t, issueLanes i s body = .next t ∧ ThreadsOnly s t ∧ t.cur = { s.cur with stay := s.cur.lanes } ∧
      ∀ l, l < (s.warp s.cur.warp).threads.length →
        t.thread s.cur.warp l = if l ∈ s.cur.lanes then s.cur.thread l else s.thread s.cur.warp l := by
  obtain ⟨d, r⟩ : ThreadsChanged s (begin_ false s).stayAll.now s.cur.warp s.cur.lanes (fun l _ => s.cur.thread l) ∧
    (begin_ false s).stayAll.now = { s with warps := (begin_ false s).stayAll.now.warps, cur := { s.cur with stay := s.cur.lanes } } :=
    (begin_ false s).stayAll_spec
  exact ⟨_, issueLanes_held hq hh, d.threadsOnly (by rw [r]), by rw [r], fun l hl => d.thread_eq hl⟩

/-- A word whose queue access is held, or past its quota, under QNB sets the predicate and does nothing else (R265). -/
theorem issueLanes_sets {i : Instr} {s : State} {body : List Nat → Src → Sim false s → Sim false s} {p : Nat}
    (hq : qnbOf s.cur.pfx = some p)
    (hb : s.queueHeld i = true ∨ (s.pushed i).any (fun x => s.pushFaults s.cur.warp (x - 112)) = true) :
    ∃ t, issueLanes i s body = .next t ∧ ThreadsOnly s t ∧ t.cur = s.cur ∧ PredResult s t i p (fun _ => true) := by
  obtain ⟨w, preds, regs, ready⟩ := (begin_ false s).writePreds_spec s.cur.warp (s.performers i) p (fun _ => true) 4 rfl
  exact ⟨_, issueLanes_blocked hq hb, ⟨w.rest.trans (by rw [w.rest]; rfl), w.others, w.warp⟩, w.cur, preds, regs, ready⟩

/-! ### A precise trap of each performing thread -/

/-- A precise trap outside a handler, where there is a handler and no slot to blame: a thread that is not live stands. -/
theorem Sim.takeTrap_changed (m : Sim k s0) (wi l : Nat) (base : Thread) (x : TrapInfo) (hc : x.cause ≤ 9) (hb : base.priv = false)
    (hv : m.now.tvec wi ≠ 0) (hk : m.now.ticketOf (m.now.warp wi).wg = none) :
    ThreadsChanged m.now (m.takeTrap wi l base x).now wi [l] (fun _ t =>
      if t.life = .live then trapEntry base m.now.ac (m.now.tvec wi) x.epc x.cause x.late x.tval else t) ∧
    Alike m.now (m.takeTrap wi l base x).now := by
  by_cases hl : (m.now.thread wi l).life = .live
  · rw [m.takeTrap_handled wi l base x hc hl hb hv hk]
    have c := m.modThread_changed wi l (fun _ _ => trapEntry base m.now.ac (m.now.tvec wi) x.epc x.cause x.late x.tval)
    refine ⟨c.congr fun j hj => ?_, m.modThread_alike ..⟩
    rw [List.mem_singleton.mp hj, if_pos hl]
  · have e : m.takeTrap wi l base x = m := by
      unfold Sim.takeTrap
      rw [if_pos (by simpa using hl)]
    rw [e]
    refine ⟨.refl fun j hj => ?_, .refl _⟩
    rw [List.mem_singleton.mp hj, if_neg hl]

/-- The traps of the group apart, nothing but threads and queues of warps differs. -/
def TrapsNoted (s t : State) : Prop := (∃ tr, t.cur = { s.cur with traps := tr }) ∧ Alike { s with cur := t.cur } t

/-- A live thread that enters its handler for a push past the quota, with nothing of its chain done (R267, R361). -/
def State.quotaTrap (s : State) (tval : Word) (l : Nat) (t : Thread) : Thread :=
  if t.life = .live then trapEntry (s.cur.thread l) s.ac (s.tvec s.cur.warp) s.cur.chainAddr 0x07 false tval else t

theorem State.quotaTrap_quotaTrap (s : State) (tval : Word) (l : Nat) (t : Thread) :
    s.quotaTrap tval l (s.quotaTrap tval l t) = s.quotaTrap tval l t := by
  by_cases h : t.life = .live
  · have e : s.quotaTrap tval l t = trapEntry (s.cur.thread l) s.ac (s.tvec s.cur.warp) s.cur.chainAddr 0x07 false tval := if_pos h
    rw [e]
    exact ite_self _
  · have e : s.quotaTrap tval l t = t := if_neg h
    rw [e, e]

/-- What a push past the quota says of its trap (R267). -/
def State.quotaInfo (s : State) (tval : Word) (l : Nat) : TrapInfo :=
  { cause := 0x07, tval := tval, epc := s.cur.chainAddr, pc := s.cur.wordAddr, va := 0, lanes := maskOf [l] }

theorem Alike.withCur {s t : State} {a : Issue} (h : Alike { s with cur := a } t) (b : Issue) :
    Alike { s with cur := b } { t with cur := b } := ⟨by rw [h.rest], h.warp⟩

theorem Sim.trapWord_changed {s : State} {m : Sim k s0} {l : Nat} (hn : TrapsNoted s m.now) (hh : s.handles l) (tval : Word) :
    ThreadsChanged m.now (m.trapWord l 0x07 tval).now s.cur.warp [l] (s.quotaTrap tval) ∧ TrapsNoted s (m.trapWord l 0x07 tval).now := by
  obtain ⟨⟨tr, hc⟩, al⟩ := hn
  obtain ⟨_, hb, _, hv, hk⟩ := hh
  have tv : m.now.tvec s.cur.warp = s.tvec s.cur.warp := al.tvec _
  have tk : m.now.ticketOf (m.now.warp s.cur.warp).wg = none := by rw [al.wg, al.ticketOf]; exact hk
  have e : m.trapWord l 0x07 tval = (m.takeTrap s.cur.warp l (s.cur.thread l) (s.quotaInfo tval l)).modCur
      (fun c => { c with traps := c.traps ++ [(l, s.quotaInfo tval l)] }) := by
    unfold Sim.trapWord
    rw [hc]
    rfl
  obtain ⟨c, a⟩ := m.takeTrap_changed s.cur.warp l (s.cur.thread l) (s.quotaInfo tval l) (Nat.le_of_ble_eq_true rfl) hb (tv ▸ hv) tk
  have d : ThreadsChanged m.now _ s.cur.warp [l] (s.quotaTrap tval) := c.congr fun j hj => by
    rw [List.mem_singleton.mp hj, al.ac, tv]
    rfl
  have b := al.trans a
  rw [e]
  exact ⟨⟨d.others, d.warp, d.size, d.threads⟩, ⟨tr ++ [(l, s.quotaInfo tval l)],
    by rw [Sim.modCur, Sim.act_now, b.cur, hc]; rfl⟩, b.withCur _⟩

/-- A push past the quota traps each performing thread (R267). -/
theorem issueLanes_traps {i : Instr} {s : State} {body : List Nat → Src → Sim false s → Sim false s} {q : Nat}
    (hq : qnbOf s.cur.pfx = none) (hh : s.queueHeld i = false)
    (he : (s.pushed i).find? (fun x => s.pushFaults s.cur.warp (x - 112)) = some q) (hl : ∀ l ∈ s.performers i, s.handles l) :
    ∃ t, issueLanes i s body = .next t ∧ ThreadsOnly s t ∧ ∀ l, l < (s.warp s.cur.warp).threads.length →
      (l ∈ s.performers i →
        Trapped s (s.cur.thread l) (t.thread s.cur.warp l) 0x07 false (BitVec.ofNat 32 (q - 112)) s.cur.chainAddr) ∧
      (l ∉ s.performers i → t.thread s.cur.warp l = s.thread s.cur.warp l) := by
  obtain ⟨d, _, al⟩ := Sim.each_changed (P := TrapsNoted s) (ls := s.performers i) (s.quotaTrap_quotaTrap (BitVec.ofNat 32 (q - 112)))
    (fun n l hm hn => Sim.trapWord_changed hn (hl l hm) _) (begin_ false s) ⟨⟨s.cur.traps, rfl⟩, .refl s⟩
  have d : ThreadsChanged s _ s.cur.warp (s.performers i) (s.quotaTrap (BitVec.ofNat 32 (q - 112))) := d
  refine ⟨_, issueLanes_excess hq hh he, d.threadsOnly al.rest, fun l hlen => ⟨fun hm => ?_, fun hm => ?_⟩⟩
  · rw [d.thread_eq hlen, if_pos hm, State.quotaTrap, if_pos (hl l hm).1]
    exact trapEntry_trapped s _ _ _ (by decide) _
  · rw [d.thread_eq hlen, if_neg hm]

end Sys2Proof.Machine
end

section
/-! SUPPORT. What a push to a queue leaves of the predicates, and O44. -/

namespace Sys2Proof.Machine

variable {k : Bool} {s0 : State}

/-! ## Predicates kept -/

/-- No predicate of any thread differs. -/
structure SamePreds (s t : State) : Prop where
  preds : ∀ wi l, (t.thread wi l).preds = (s.thread wi l).preds

section
variable {s : State} {m : Sim k s0}

theorem SamePreds.of_warps {t u : State} (h : SamePreds s t) (e : u.warps = t.warps) : SamePreds s u := ⟨fun wi l => by
  rw [← h.preds, State.thread, State.warp, e]
  rfl⟩

theorem InWarp.samePreds {t : State} {wi : Nat} (h : InWarp s t wi) (hp : ∀ l, (t.thread wi l).preds = (s.thread wi l).preds) :
    SamePreds s t := ⟨fun j l => by
  by_cases e : j = wi
  · rw [e, hp]
  · rw [State.thread, h.others j e]
    rfl⟩

theorem SamePreds.modThread (h : SamePreds s m.now) (wi l : Nat) {f : Thread → Thread} (hf : ∀ t, (f t).preds = t.preds) :
    SamePreds s (m.modThread wi l f).now := ⟨fun j i => by
  rw [← h.preds]
  by_cases e : wi = j
  · subst e
    rw [Sim.modThread_thread]
    split
    · next hi => rw [hf, hi.1]
    · rfl
  · rw [State.thread, Sim.modThread_warp, if_neg e]
    rfl⟩

theorem SamePreds.modWarp (h : SamePreds s m.now) (wi : Nat) {f : Warp → Warp} (hf : ∀ w, (f w).threads = w.threads) :
    SamePreds s (m.modWarp wi f).now := ⟨fun j i => by
  rw [← h.preds, State.thread, Sim.modWarp_warp]
  split
  · next e => rw [Warp.thread, hf, ← e]; rfl
  · rfl⟩

theorem SamePreds.setQueue (h : SamePreds s m.now) (wi q : Nat) (b : Binding) :
    SamePreds s (m.modWarp wi (fun w => w.setQueue q b)).now := h.modWarp wi fun _ => rfl

theorem SamePreds.setL1 (h : SamePreds s m.now) (v : List L1Line) : SamePreds s (m.act (.l1 v)).now := h.of_warps rfl

theorem SamePreds.abortRegion (h : SamePreds s m.now) (wi l code : Nat) : SamePreds s (m.abortRegion wi l code).now := by
  unfold Sim.abortRegion
  dsimp only
  split
  · exact SamePreds.modThread (m := m.count _ _ _ _) (h.of_warps rfl) wi l fun _ => rfl
  · exact h

theorem SamePreds.conflict (h : SamePreds s m.now) (lines : List Nat) (x : Option (Nat × Nat)) (tells : Nat → Bool) :
    SamePreds s (m.conflict lines x tells).now := by
  refine Sim.each_keeps (fun n w hn => ?_) m _ h
  split
  · refine Sim.each_keeps (fun n l hn => ?_) n _ hn
    split
    · split
      · exact hn.abortRegion ..
      · exact hn
    · exact hn
  · exact hn

theorem SamePreds.rekey (h : SamePreds s m.now) (owner : Tag) (locs : List Nat) : SamePreds s (m.rekey owner locs).now := by
  refine Sim.each_keeps (fun n line hn => ?_) m _ h
  unfold Sim.when
  split
  · exact hn.of_warps rfl
  · exact hn

theorem SamePreds.wroteLine (h : SamePreds s m.now) (owner : Tag) (line : Nat) : SamePreds s (m.wroteLine owner line).now := by
  unfold Sim.wroteLine Sim.when
  dsimp only
  split
  · exact h.of_warps rfl
  · split
    · exact h.of_warps rfl
    · exact h

theorem SamePreds.dropDups (h : SamePreds s m.now) (lines : List Nat) : SamePreds s (m.dropDups lines).now :=
  Sim.each_keeps (fun _ _ hn => hn.of_warps rfl) m _ h

theorem SamePreds.homeWrite (h : SamePreds s m.now) (core : Option Nat) (who : Option (Nat × Nat)) (owner : Tag) (locs : List Nat)
    (bytes : List Byte) (tells : Nat → Bool) : SamePreds s (m.homeWrite core who owner locs bytes tells).now := by
  have stored := Sim.each_keeps (P := SamePreds s) (f := fun m (p : Nat × Byte) => m.act (.store p.1 p.2))
    (fun _ _ hn => hn.of_warps rfl) m (locs.zip bytes) h
  unfold Sim.homeWrite
  dsimp only
  split
  · exact stored
  · exact SamePreds.conflict (SamePreds.rekey (SamePreds.dropDups (SamePreds.setL1 stored _) _) _ _) _ _ _

theorem SamePreds.agentWrite (h : SamePreds s m.now) (owner : Tag) (locs : List Nat) (bytes : List Byte) (told : Bool) :
    SamePreds s (m.agentWrite owner locs bytes told).now := by
  have lines := Sim.each_keeps (f := fun m n => m.wroteLine owner n) (fun _ _ hn => hn.wroteLine ..) _
    (((locs.filter isGeneric).map lineOf).eraseDups)
    (h.homeWrite none none owner locs bytes (fun _ => !told))
  exact Sim.each_keeps (fun _ _ hn => hn.of_warps rfl) _ _ lines

theorem SamePreds.writeSlot (h : SamePreds s m.now) (wi : Nat) (b : Binding) (n : Nat) (e : QEntry) :
    SamePreds s (m.writeSlot wi b n e).now := by
  unfold Sim.writeSlot
  split
  · exact h.agentWrite ..
  · exact h

theorem SamePreds.reserve (h : SamePreds s m.now) (wi q : Nat) (e : QEntry) : SamePreds s (m.reserve wi q e).now := by
  unfold Sim.reserve Sim.when
  dsimp only
  split
  · exact h.setQueue ..
  · split
    · exact SamePreds.writeSlot (h.setQueue ..) ..
    · exact h.setQueue ..

theorem SamePreds.pushEntry (h : SamePreds s m.now) (wi q : Nat) (mask : Word) (words : List Word) (written : Bool) (readyAt : Nat) :
    SamePreds s (m.pushEntry wi q mask words written readyAt).now := by
  have fresh : SamePreds s m.fresh.now := h.of_warps rfl
  unfold Sim.pushEntry Sim.when
  dsimp only
  split
  · split
    · exact fresh.reserve ..
    · split
      · exact SamePreds.modWarp (fresh.reserve ..) wi fun _ => rfl
      · exact fresh.reserve ..
  · exact h.setQueue ..

/-! ## mov under QNB -/

/-- A result written to registers of some lanes. -/
theorem Sim.writeAll_spec (m : Sim k s0) (wi : Nat) (lanes : List Nat) (d : Reg) (f : Nat → Word) (lat : Nat) (hc : m.now.cur.warp = wi)
    (hd : d.toNat < 112) :
    SamePreds m.now (m.writeAll lanes d f lat).now ∧
    ∀ l ∈ lanes, l < (m.now.warp wi).threads.length → d.toNat < (m.now.warp wi).quota →
      (m.writeAll lanes d f lat).now.reg wi l d.toNat = f l := by
  rw [m.writeAll_now wi lanes d f lat hc hd]
  have hv : ∀ w ∈ lanes.map (fun l => (l, d.toNat, f l)), w.2.2 = f w.1 := fun w hw => by
    obtain ⟨l, _, e⟩ := List.mem_map.mp hw
    rw [← e]
  obtain ⟨w, regs, preds, _⟩ := m.writes_spec wi (lanes.map (fun l => (l, d.toNat, f l))) lat (fun l _ => f l) hv
  refine ⟨w.samePreds preds, fun l hl hs hq => ?_⟩
  rw [regs, if_pos ⟨⟨f l, List.mem_map.mpr ⟨l, hl, rfl⟩⟩, hs, hq, hd⟩]

theorem Sim.writeAll_samePreds (m : Sim k s0) (lanes : List Nat) (d : Reg) (f : Nat → Word) (lat : Nat) :
    SamePreds m.now (m.writeAll lanes d f lat).now := by
  by_cases hd : d.toNat < 112
  · exact (m.writeAll_spec _ lanes d f lat rfl hd).1
  · have same : SamePreds m.now m.now := ⟨fun _ _ => rfl⟩
    unfold Sim.writeAll
    dsimp only
    rw [if_neg hd]
    split
    · exact same.pushEntry ..
    · exact same

end

/-- A PFX word that asks for non-blocking queues brings no immediate (R59). -/
theorem immOf_of_qnb {p : Pfx} {q : Nat} (h : qnbOf p = some q) : immOf p = none := by
  cases p with
  | imm24 i => cases h
  | none => rfl
  | memq => rfl
  | qnb => rfl

/-- A mov with QNB whose queue accesses are neither held nor past the quota clears the predicate and writes D (R265). -/
theorem exec_mov_clears {s : State} {c : Bool} {d b : Reg} {p : Nat} (hn : s.performers (.mov c d b) ≠ [])
    (hs : ∀ l ∈ s.performers (.mov c d b), s.regionStops (.mov c d b) l = false) (hq : qnbOf s.cur.pfx = some p) (hp : p < 7)
    (hh : s.queueHeld (.mov c d b) = false) (he : (s.pushed (.mov c d b)).any (fun x => s.pushFaults s.cur.warp (x - 112)) = false) :
    ∃ t, exec (.mov c d b) s = .next t ∧
      (∀ l ∈ s.performers (.mov c d b), l < (s.warp s.cur.warp).threads.length → readPred (t.thread s.cur.warp l) p = false) ∧
      ∀ l, s.lands (.mov c d b) l d.toNat → t.reg s.cur.warp l d.toNat = s.source l b.toNat := by
  rw [exec_mov]
  obtain ⟨w, preds, _, _⟩ := (begin_ false s).writePreds_spec s.cur.warp (s.performers (.mov c d b)) p (fun _ => false) 4 rfl
  have q := Sim.pops_only ((begin_ false s).each (s.performers (.mov c d b)) (fun m l => m.writePred l p false 4)) s.cur.warp
    (s.popped (.mov c d b)) (s.performers (.mov c d b))
  refine ⟨_, (issueWord_lanes hn hs _).trans (issueLanes_clear hq hh he), fun l hl hlen => ?_, fun l ⟨hl, hlen, hquota, hd⟩ => ?_⟩
  · rw [readPred_of_preds ((Sim.writeAll_samePreds _ _ d _ 4).preds _ _), q.threads]
    exact (preds l p hp).trans (if_pos ⟨hl, hlen, rfl⟩)
  · have hb : s.bOperand s.source l b = s.source l b.toNat := by rw [State.bOperand, immOf_of_qnb hq]
    rw [← hb]
    refine (Sim.writeAll_spec _ s.cur.warp _ d _ 4 ?_ hd).2 l hl ?_ ?_
    · rw [q.rest, w.cur]; rfl
    · rw [q.size, w.size]; exact hlen
    · rw [q.warp, w.quota]; exact hquota

/-- A word none of whose performing threads is in a region that it aborts. -/
theorem exec_lanes {i : Instr} {s : State} (h : framed i) (hn : s.performers i ≠ [])
    (hs : ∀ l ∈ s.performers i, s.regionStops i l = false) : ∃ body, exec i s = issueLanes i s body := by
  obtain ⟨body, e⟩ := exec_framed h s
  exact ⟨body, e.trans (issueWord_lanes hn hs body)⟩

/-- Settles O44: by which branch of the frame the word takes. -/
theorem wordsPassHoldAbortOrTrap : Obligations.WordsPassHoldAbortOrTrap := by
  intro i s h
  refine ⟨exec_passes h, fun _ hs => exec_aborts h hs, fun hn hs => ?_⟩
  obtain ⟨body, e⟩ := exec_lanes h hn hs
  rw [e]
  refine ⟨issueLanes_stays, fun p => issueLanes_sets, fun q => issueLanes_traps, ?_⟩
  rintro p c d b rfl hq hp hh he
  rw [← e]
  exact exec_mov_clears hn hs hq hp hh he

end Sys2Proof.Machine
end

section
/-! SUPPORT. The words of major 25 that quantise blocks and pack FP8 bytes, from which O8 follows. -/

namespace Sys2Proof.Machine

/-! ## Words that write consecutive registers -/

/-- A range result says nothing of the values past its length. -/
theorem RangeResult.congr {s t : State} {i : Instr} {d : Reg} {n lat : Nat} {v w : Nat → Nat → Word}
    (h : RangeResult s t i d n lat v) (e : ∀ l j, j < n → v l j = w l j) : RangeResult s t i d n lat w := by
  obtain ⟨values, rest⟩ := h
  exact ⟨fun l j hj hl => (values l j hj hl).trans (e l j hj), rest⟩

/-- A word that writes f of its sources to n consecutive registers of each lane and raises flags. -/
theorem rangeWord_spec {i : Instr} {s : State} (h : s.issues i = true) (d : Reg) (n lat : Nat) (f : Src → Nat → List Word)
    (fl : Src → Nat → FFlags) (hn : ∀ l, (f s.source l).length = n) :
    ∃ t, issueWord i s (fun lanes r m =>
        (m.each lanes (fun m l => m.writeRange l d.toNat (f r l) lat)).raise lanes (fl r)) = .next t ∧
      LaneFrame s t i true ∧ RangeResult s t i d n lat (fun l j => wordAt (f s.source l) j) ∧ FlagsRaised s t i (fl s.source) :=
  ⟨_, (issueWord_issues h _).trans rfl, writeRangesF_spec s i d n lat (f s.source) hn (fl s.source)⟩

theorem wordAt_map_range {n j : Nat} (f : Nat → Word) (hj : j < n) : wordAt ((List.range n).map f) j = f j := by
  rw [wordAt, List.getD_eq_getElem?_getD, List.getElem?_map, List.getElem?_range hj]
  rfl

/-! ## qblk (R93) -/

/-- The five words of a block. -/
def Block.words (b : Block) : List Word :=
  (List.range 4).map (fun j => BitVec.ofNat 32 (b.bits / 2 ^ (32 * j))) ++ [BitVec.ofNat 32 (b.bits / 2 ^ 128 % 65536)]

theorem Block.words_length (b : Block) : b.words.length = 5 := rfl

/-- Four whole words of the block, and its last 16 bits. -/
theorem Block.wordAt_words (b : Block) {j : Nat} (hj : j < 5) :
    wordAt b.words j = BitVec.ofNat 32 (b.bits / 2 ^ (32 * j) % 2 ^ (if j = 4 then 16 else 32)) := by
  by_cases h4 : j = 4
  · subst h4
    rfl
  · have h : j < 4 := by omega
    have e : wordAt b.words j = wordAt ((List.range 4).map (fun j => BitVec.ofNat 32 (b.bits / 2 ^ (32 * j)))) j := by
      have inWords : j < ((List.range 4).map (fun j => BitVec.ofNat 32 (b.bits / 2 ^ (32 * j)))).length := by
        rw [List.length_map, List.length_range]
        exact h
      rw [wordAt, wordAt, Block.words, List.getD_eq_getElem?_getD, List.getD_eq_getElem?_getD, List.getElem?_append_left inWords]
    rw [e, wordAt_map_range _ h, if_neg h4]
    exact BitVec.eq_of_toNat_eq (by simp only [BitVec.toNat_ofNat, Nat.mod_mod])

/-- The block of a lane's 32 elements, with its flags. -/
def qblkBlock (x : BitVec 2) (r : Src) (a : Reg) (l : Nat) : Block × FFlags :=
  quantBlock ((List.range 32).map (qblkSource r l a.toNat x.toNat))

/-- qblk writes the words of its blocks to consecutive registers. -/
theorem exec_qblk_eq_words (c : Bool) (g : Guard) (d a : Reg) (x : BitVec 2) (s : State) :
    exec (.qblk c g d a x) s = issueWord (.qblk c g d a x) s (fun lanes r m =>
      (m.each lanes (fun m l => m.writeRange l d.toNat (qblkBlock x r a l).1.words 16)).raise lanes
        (fun l => (qblkBlock x r a l).2)) := rfl

/-- The blocks stand as a variable q: they are compared whole, before any bit is read from them, where the kernel would
quantise. -/
theorem qblk_writes {s : State} {c : Bool} {g : Guard} {d a : Reg} {x : BitVec 2} (h : s.issues (.qblk c g d a x) = true)
    (q : Nat → Block × FFlags) (hq : ∀ l, qblkBlock x s.source a l = q l) :
    ∃ t, exec (.qblk c g d a x) s = .next t ∧ LaneFrame s t (.qblk c g d a x) true ∧
      RangeResult s t (.qblk c g d a x) d 5 16 (fun l j =>
        BitVec.ofNat 32 ((q l).1.bits / 2 ^ (32 * j) % 2 ^ (if j = 4 then 16 else 32))) ∧
      FlagsRaised s t (.qblk c g d a x) (fun l => (q l).2) := by
  obtain rfl : qblkBlock x s.source a = q := funext hq
  obtain ⟨t, run, frame, result, flags⟩ := rangeWord_spec h d 5 16 (fun r l => (qblkBlock x r a l).1.words)
    (fun r l => (qblkBlock x r a l).2) (fun l => (qblkBlock x s.source a l).1.words_length)
  exact ⟨t, (exec_qblk_eq_words ..).trans run, frame, result.congr (fun _ _ hj => Block.wordAt_words _ hj), flags⟩

/-! ## dqblk (R94) -/

/-- The format that dqblk decodes to. -/
def dqblkFmt (x : BitVec 2) : Fmt := if x = 0 then fp32 else if x = 1 then fp16 else bf16

/-- The block in the five registers from A on. -/
def dqblkBlock (r : Src) (a : Reg) (l : Nat) : Nat :=
  ((List.range 5).map (fun j => (r l (a.toNat + j)).toNat * 2 ^ (32 * j))).foldl (· + ·) 0

/-- Element i of a lane's block, rounded to the format. -/
def dqblkElem (x : BitVec 2) (r : Src) (a : Reg) (l i : Nat) : FRes :=
  roundVal (dqblkFmt x) .rne false (blockElem (dqblkBlock r a l) i)

/-- Elements as words: one to a word in FP32, else two. -/
def dqblkWords (x : BitVec 2) (rs : List FRes) : List Word :=
  if x = 0 then rs.map FRes.word
  else (List.range 16).map (fun j =>
    BitVec.ofNat 32 ((rs.getD (2 * j) ⟨0, 0⟩).bits + 65536 * (rs.getD (2 * j + 1) ⟨0, 0⟩).bits))

theorem dqblkWords_length (x : BitVec 2) {rs : List FRes} (h : rs.length = 32) :
    (dqblkWords x rs).length = if x = 0 then 32 else 16 := by
  by_cases hx : x = 0
  · rw [dqblkWords, if_pos hx, if_pos hx, List.length_map, h]
  · rw [dqblkWords, if_neg hx, if_neg hx, List.length_map, List.length_range]

theorem wordAt_dqblkWords (x : BitVec 2) (e : Nat → FRes) {j : Nat} (hj : j < if x = 0 then 32 else 16) :
    wordAt (dqblkWords x ((List.range 32).map e)) j =
      if x = 0 then (e j).word else BitVec.ofNat 32 ((e (2 * j)).bits + 65536 * (e (2 * j + 1)).bits) := by
  have elem : ∀ i, i < 32 → ((List.range 32).map e).getD i ⟨0, 0⟩ = e i := fun i hi => by
    rw [List.getD_eq_getElem?_getD, List.getElem?_map, List.getElem?_range hi]
    rfl
  by_cases hx : x = 0
  · rw [if_pos hx] at hj
    rw [dqblkWords, if_pos hx, if_pos hx, List.map_map, wordAt_map_range _ hj]
    rfl
  · rw [if_neg hx] at hj
    rw [dqblkWords, if_neg hx, if_neg hx, wordAt_map_range _ hj, elem _ (by omega), elem _ (by omega)]

/-- dqblk writes its elements to consecutive registers and joins their flags. -/
theorem exec_dqblk_eq_words (c : Bool) (g : Guard) (d a : Reg) (x : BitVec 2) (s : State) :
    exec (.dqblk c g d a x) s = issueWord (.dqblk c g d a x) s (fun lanes r m =>
      (m.each lanes (fun m l => m.writeRange l d.toNat (dqblkWords x ((List.range 32).map (dqblkElem x r a l))) 8)).raise lanes
        (fun l => (List.range 32).foldl (fun f i => f ||| (dqblkElem x r a l i).flags) 0)) := by
  have joined (r : Src) (l : Nat) : ((List.range 32).map (dqblkElem x r a l)).foldl (fun (f : FFlags) q => f ||| q.flags) 0 =
      (List.range 32).foldl (fun f i => f ||| (dqblkElem x r a l i).flags) 0 := List.foldl_map
  simp only [← joined]
  rfl

/-- The elements stand as a variable e: they are compared one by one, before their bits are packed into words, where the
kernel would evaluate the powers of two. -/
theorem dqblk_writes {s : State} {c : Bool} {g : Guard} {d a : Reg} {x : BitVec 2}
    (h : s.issues (.dqblk c g d a x) = true) (e : Nat → Nat → FRes) (he : ∀ l i, dqblkElem x s.source a l i = e l i) :
    ∃ t, exec (.dqblk c g d a x) s = .next t ∧ LaneFrame s t (.dqblk c g d a x) true ∧
      RangeResult s t (.dqblk c g d a x) d (if x = 0 then 32 else 16) 8 (fun l j =>
        if x = 0 then (e l j).word else BitVec.ofNat 32 ((e l (2 * j)).bits + 65536 * (e l (2 * j + 1)).bits)) ∧
      FlagsRaised s t (.dqblk c g d a x) (fun l => (List.range 32).foldl (fun f i => f ||| (e l i).flags) 0) := by
  obtain rfl : dqblkElem x s.source a = e := funext fun l => funext (he l)
  obtain ⟨t, run, frame, result, flags⟩ := rangeWord_spec h d (if x = 0 then 32 else 16) 8
    (fun r l => dqblkWords x ((List.range 32).map (dqblkElem x r a l)))
    (fun r l => (List.range 32).foldl (fun f i => f ||| (dqblkElem x r a l i).flags) 0)
    (fun l => dqblkWords_length x (by rw [List.length_map, List.length_range]))
  exact ⟨t, (exec_dqblk_eq_words ..).trans run, frame, result.congr (fun _ _ hj => wordAt_dqblkWords x _ hj), flags⟩

/-! ## qfp8 (R95) -/

/-- The byte of qfp8 that its source A + i gives in a lane. -/
def qfp8Elem (x : BitVec 2) (r : Src) (a : Reg) (l i : Nat) : FRes :=
  qfp8Byte (if x.getLsbD 0 then e5m2 else e4m3)
    (if x.getLsbD 1 then .rs 8 ((r l (a.toNat + 5)).toNat / 2 ^ (8 * i) % 256) else .rne)
    (fval (r l (a.toNat + i))) (fval (r l (a.toNat + 4)))

/-- Four bytes in one word. -/
def qfp8Word (e : Nat → FRes) : Word :=
  BitVec.ofNat 32 ((e 0).bits + (e 1).bits * 2 ^ 8 + (e 2).bits * 2 ^ 16 + (e 3).bits * 2 ^ 24)

/-- The flags of four bytes. -/
def qfp8Flags (e : Nat → FRes) : FFlags := (e 0).flags ||| (e 1).flags ||| (e 2).flags ||| (e 3).flags

/-- The weights stand as a variable w, so that no power of two is evaluated. -/
theorem foldl_bits_weighted (e : Nat → FRes) (w : Nat → Nat) :
    (((List.range 4).map e).zip (List.range 4)).foldl (fun n p => n + p.1.bits * w p.2) 0 =
      (e 0).bits * w 0 + (e 1).bits * w 1 + (e 2).bits * w 2 + (e 3).bits * w 3 := by
  simp [List.range_succ]

theorem qfp8Word_eq_foldl (e : Nat → FRes) : qfp8Word e =
    BitVec.ofNat 32 ((((List.range 4).map e).zip (List.range 4)).foldl (fun n p => n + p.1.bits * 2 ^ (8 * p.2)) 0) := by
  rw [foldl_bits_weighted e (fun i => 2 ^ (8 * i)), qfp8Word, Nat.mul_zero, Nat.pow_zero, Nat.mul_one]

theorem qfp8Flags_eq_foldl (e : Nat → FRes) :
    qfp8Flags e = ((List.range 4).map e).foldl (fun fl q => fl ||| q.flags) 0 := by
  simp [qfp8Flags, List.range_succ]

/-- qfp8 is a word of one result with IEEE flags. -/
theorem exec_qfp8_eq_fpWord (c : Bool) (g : Guard) (d a : Reg) (x : BitVec 2) (s : State) :
    exec (.qfp8 c g d a x) s =
      fpWord (.qfp8 c g d a x) d (fun r l => (qfp8Word (qfp8Elem x r a l), qfp8Flags (qfp8Elem x r a l))) s := by
  simp only [qfp8Word_eq_foldl, qfp8Flags_eq_foldl]
  rfl

theorem qfp8_writes {s : State} {c : Bool} {g : Guard} {d a : Reg} {x : BitVec 2} (hd : d.toNat < 112)
    (h : s.issues (.qfp8 c g d a x) = true) (e : Nat → Nat → FRes) (he : ∀ l i, qfp8Elem x s.source a l i = e l i) :
    ∃ t, exec (.qfp8 c g d a x) s = .next t ∧ LaneFrame s t (.qfp8 c g d a x) true ∧
      RegResult s t (.qfp8 c g d a x) d 4 (fun l r => r = qfp8Word (e l)) ∧
      FlagsRaised s t (.qfp8 c g d a x) (fun l => qfp8Flags (e l)) := by
  obtain rfl : qfp8Elem x s.source a = e := funext fun l => funext (he l)
  rw [exec_qfp8_eq_fpWord]
  exact fpWord_spec h d hd (fun r l => (qfp8Word (qfp8Elem x r a l), qfp8Flags (qfp8Elem x r a l)))

/-! ## The statement -/

/-- Settles O8, word by word: qblk and dqblk write consecutive registers, qfp8 one. -/
theorem quantWordsWriteTheirResult : Obligations.QuantWordsWriteTheirResult := by
  intro s c g d a x
  refine ⟨fun h => ?_, fun h => ?_, fun hd h => ?_⟩
  · intro q
    exact qblk_writes h q (fun _ => rfl)
  · intro _ e
    exact dqblk_writes h e (fun _ _ => rfl)
  · intro e
    exact qfp8_writes hd h e (fun _ _ => rfl)

end Sys2Proof.Machine
end
